-- ==== Sys2Proof/Word.lean ====
section
/-! DEFINITION. The word types of the Duevo Luagan and nothing else: bytes, 32-bit cells, 64-bit scalars, program
counters, whole vector registers (R2, R26, R120, R342). -/

namespace Sys2Proof

/-- A byte of memory. -/
abbrev Byte := BitVec 8

/-- A lane, a mask register, a matrix cell. -/
abbrev Word32 := BitVec 32

/-- A scalar register (R26). -/
abbrev Word64 := BitVec 64

/-- A program counter: bits [56:2] name a 4-byte word, bits [1:0] a code of a dictionary word (R120). -/
abbrev Pc := BitVec 57

/-- One vector register: 32 lanes of 32 bits, lane 0 in the lowest bits (R2, R342). -/
abbrev VReg := BitVec 1024

/-- An instruction word, at most 128 bits; a shorter one has zeros above (R118). -/
abbrev InstrWord := BitVec 128

end Sys2Proof
end

