-- ==== Sys2Proof/Syntax.lean ====
section
/-! DEFINITION. The syntax of the machine: register numbers, types, modifiers, the operand shapes of the instructions,
and ONE inductive with a constructor for every row of spec/opcode_table.json. A row that is an instruction carries the
operands its encoding holds (R121 to R125 and the reference entries); a row that is an event of an engine, of the
firmware, of the link or of the host carries what tells one occurrence from another. -/

namespace Sys2Proof

/-- Scalar register s0 to s63. -/
abbrev SReg := BitVec 6
/-- Vector register v0 to v127. -/
abbrev VNum := BitVec 7
/-- Mask register k0 to k15. -/
abbrev KNum := BitVec 4
/-- Fold register f0 to f7. -/
abbrev FNum := BitVec 3
/-- Matrix tile z0 to z15. -/
abbrev ZNum := BitVec 4
/-- Operand map m0 to m7. -/
abbrev MNum := BitVec 3
/-- A lookahead, 0 to 15 (R127). -/
abbrev Look := BitVec 4

/-- The TYPE codes of R125, in code order: `none` is 0 and `b32` is 17. -/
inductive Ty where
  | none | s8 | n8 | s16 | n16 | s32 | n32 | s64 | n64 | f16 | bf16 | f32 | f64 | t8 | t6 | t4 | s4 | b32
  deriving DecidableEq, Repr

/-- The conditions of R147, in code order. -/
inductive Cond where
  | eq | ne | lt | le | gt | ge
  deriving DecidableEq, Repr

/-- The rounding modes of R56, in the code order of R170. -/
inductive Rm where
  | rn | rz | ru | rd
  deriving DecidableEq, Repr

/-- Plane axes (R193). -/
inductive Axis where
  | x | y | z | w
  deriving DecidableEq, Repr

/-- Reduction operators (R193). -/
inductive RedOp where
  | add | min | max | and | or
  deriving DecidableEq, Repr

/-- Scopes (R203). -/
inductive Scope where
  | blk | core | dev | sys
  deriving DecidableEq, Repr

/-- Ordering flags (R203). -/
inductive Ord where
  | none | acq | rel | ar
  deriving DecidableEq, Repr

/-- The engines FORK names (R220). -/
inductive Engine where
  | mat | copy | msg | coll
  deriving DecidableEq, Repr

/-- Atomic operations (R213). -/
inductive AtomOp where
  | add | min | max | and | or | xor | exch | cas
  deriving DecidableEq, Repr

/-- A count bank (R68): c0, c1 or the merge bank c2. -/
inductive Bank where
  | c0 | c1 | c2
  deriving DecidableEq, Repr

/-- The system registers of R165. -/
inductive SysReg where
  | version | readymap | health | ctxid | incarn | staledrop | laneid | waveid | blockid | gridx | gridy | gridz
  | wstatus | sigreg | cause | faultpc | skid | bankmode | colways | colstat | govbudget | govstall | versionbudget
  deriving DecidableEq, Repr

/-- A predicate: `k = 0` is none (R121, R126). -/
structure Pred where
  neg : Bool
  k   : KNum
  deriving DecidableEq, Repr

/-- A source of a vector instruction: a vector register, a broadcast scalar (R114), or IMM32 in place of B (R122). -/
inductive VSrc where
  | vec (n : VNum)
  | sca (n : SReg)
  | imm (v : BitVec 32)
  deriving DecidableEq, Repr

/-- Source B of a scalar instruction: a register (major 0x05) or IMM32 sign-extended (major 0x06). -/
inductive SSrc where
  | reg (n : SReg)
  | imm (v : BitVec 32)
  deriving DecidableEq, Repr

/-- How a terminator is written: short, or in the 128-bit form with its SIG (R131). -/
abbrev Term := Option (BitVec 24)

/-- The three lengths of NOP (R157). -/
inductive NopForm where
  | w64 | w96 | w128 (sig : BitVec 24)
  deriving DecidableEq, Repr

/-- The target of CALL: an offset or a register (R150). -/
inductive CallTarget where
  | off (v : BitVec 32)
  | reg (n : SReg)
  deriving DecidableEq, Repr

/-- The destination of SREAD (R164). -/
inductive SReadDst where
  | sca (n : SReg)
  | vec (n : VNum)
  deriving DecidableEq, Repr

/-- One-source vector instruction. -/
structure VUn where
  p : Pred
  ty : Ty
  sat : Bool
  rm : Rm
  la : Look
  d : VNum
  a : VSrc
  deriving DecidableEq, Repr

/-- Two-source vector instruction. -/
structure VBin where
  p : Pred
  ty : Ty
  sat : Bool
  rm : Rm
  la : Look
  d : VNum
  a : VSrc
  b : VSrc
  deriving DecidableEq, Repr

/-- Three-source vector instruction, the 96-bit C form (R122). -/
structure VTri where
  p : Pred
  ty : Ty
  sat : Bool
  rm : Rm
  d : VNum
  a : VSrc
  b : VSrc
  c : VSrc
  deriving DecidableEq, Repr

/-- VADDC and VSUBB (R175). -/
structure VCarry where
  p : Pred
  d : VNum
  kd : KNum
  a : VSrc
  b : VSrc
  kc : KNum
  deriving DecidableEq, Repr

/-- VCMP and FCMP (R181, R186). -/
structure VCmp where
  p : Pred
  ty : Ty
  cond : Cond
  kd : KNum
  a : VSrc
  b : VSrc
  deriving DecidableEq, Repr

/-- VBFX and VBFI (R180). -/
structure VField where
  p : Pred
  ty : Ty
  d : VNum
  a : VSrc
  pos : BitVec 6
  len : BitVec 7
  deriving DecidableEq, Repr

/-- A shifting or rotating plane move (R193). -/
structure PMove where
  ty : Ty
  la : Look
  axis : Axis
  d : VNum
  a : VNum
  f : FNum
  dist : BitVec 32
  deriving DecidableEq, Repr

/-- PSPREAD, PFOLD, PSCAN, PGATH (R193). -/
structure PComp where
  ty : Ty
  la : Look
  axis : Axis
  d : VNum
  a : VNum
  f : FNum
  deriving DecidableEq, Repr

/-- The index of a memory operand: a vector register, or a scalar (s0 is no index) (R203). -/
inductive MIdx where
  | vec (n : VNum)
  | sca (n : SReg)
  deriving DecidableEq, Repr

/-- A memory operand; `disp` is absent in the 64-bit form (R203). -/
structure MAddr where
  base : SReg
  idx : MIdx
  scale : BitVec 2
  disp : Option (BitVec 32)
  deriving DecidableEq, Repr

/-- The ordering bits of a memory instruction (R203). -/
structure MOrd where
  ord : Ord
  scope : Scope
  strong : Bool
  deriving DecidableEq, Repr

/-- The data register of ST and STS: a vector or a scalar (R203). -/
inductive MData where
  | vec (n : VNum)
  | sca (n : SReg)
  deriving DecidableEq, Repr

/-- The three forms of ATOM and ATOMS (R213). -/
inductive AtomForm where
  | noRet (data : VNum)
  | ret (d : Option VNum) (c : VNum)
  | cas (d : VNum) (kd : KNum) (c : VNum)
  deriving DecidableEq, Repr

/-- The flags of an engine command (R232). -/
structure CmdFlags where
  ord : Ord
  scope : Scope
  scrD : Bool
  scrS : Bool
  deriving DecidableEq, Repr

/-- The two forms of CPY (R233). -/
inductive CpyForm where
  | linear (d a : SReg) (len : BitVec 32)
  | tensor (d a c : SReg) (tr : Bool)
  deriving DecidableEq, Repr

/-- GATH and SCAT (R235). -/
structure Gather where
  ty : Ty
  fl : CmdFlags
  scrI : Bool
  d : SReg
  a : SReg
  b : SReg
  c : SReg
  deriving DecidableEq, Repr

/-- The target of MDRAIN: a tile, or scratch at base + disp (R231). -/
inductive DrainTarget where
  | tile (z : ZNum)
  | scratch (base : SReg) (disp : BitVec 32)
  deriving DecidableEq, Repr

/-- Unit classes of READYMAP (R165). -/
inductive UnitClass where
  | core | slice | vault | port | copyEngine | mgmt | lane
  deriving DecidableEq, Repr

/-- The KINDs of a link packet (R328). -/
inductive PKind where
  | read | write | atomic | response | staleRefusal | message | contribution | result | kill | announcement
  | acknowledgement
  deriving DecidableEq, Repr

/-- A link packet as a receiver reads it (R328); `data` holds the bytes after the header. -/
structure Packet where
  dest : Nat
  src : Nat
  tagSlot : Nat
  tagInc : Nat
  age : Nat
  kind : PKind
  path : Nat
  addr : Nat
  aux : Nat
  rid : Nat
  data : List Byte
  deriving DecidableEq, Repr

/-- An access of the host to the part (R255, R354, R355): over CXL.mem, to bytes of device memory; over CXL.io, to bytes of BAR0, to
a register of the configuration space, or a message to the DOE mailbox. -/
inductive HostAccess where
  | read (pa n : Nat)
  | write (pa : Nat) (data : List Byte)
  | barRead (off n : Nat)
  | barWrite (off : Nat) (data : List Byte)
  | configRead (reg : Nat)
  | configWrite (reg : Nat) (v : BitVec 32)
  | doe (msg : List Byte)
  deriving DecidableEq, Repr

/-- The treatment of a pre-empted block (R46). -/
inductive Preempt where
  | drain | flush | save
  deriving DecidableEq, Repr

/-- The instructions and events of spec/opcode_table.json, one constructor a row, in the table's
order but for CLEAR_TRIP, which stands last: Lean's compiled form of the last of so many constructors holds no operand. -/
inductive Instr where
  | nop (form : NopForm)
  | dictionaryWord (count : BitVec 2) (rsv : BitVec 12) (c0 c1 c2 : BitVec 16)
  | bra (off : BitVec 32) (pr : Bool) (t : Term)
  | bru (cond : Cond) (sgn : Bool) (a b : SReg) (off : BitVec 32) (pr : Bool) (t : Term)
  | brz (nz : Bool) (k : KNum) (off : BitVec 32) (pr : Bool) (t : Term)
  | loop (d : SReg) (off : BitVec 32) (pr : Bool) (t : Term)
  | call (d : SReg) (w8 : BitVec 8) (tgt : CallTarget) (t : Term)
  | ret (a : SReg) (t : Term)
  | split (k : KNum) (off : BitVec 32) (t : Term)
  | join (off : BitVec 32) (t : Term)
  | exit (t : Term)
  | yield (t : Term)
  | trap (n : BitVec 8) (t : Term)
  | trapret (a : Option SReg) (t : Term)
  | halt (t : Term)
  | haltRelease (block wave : Nat)
  | sread (d : SReadDst) (r : SysReg) (p : Pred)
  | swrite (r : SysReg) (a : SReg)
  | swriteBankmode (a : SReg)
  | swriteColways (a : SReg)
  | swriteVersionbudget (a : SReg)
  | tlbinv (dev : Bool) (kind : BitVec 2) (a b : SReg)
  | icinv (dev : Bool) (a b : SReg)
  | kmov (d a : KNum)
  | kand (d a b : KNum)
  | kor (d a b : KNum)
  | kxor (d a b : KNum)
  | kandn (d a b : KNum)
  | knot (d a : KNum)
  | kpop (d : SReg) (a : KNum)
  | kfirst (d : SReg) (a : KNum)
  | kset (d : KNum) (v : BitVec 32)
  | kget (d : SReg) (a : KNum) (n : BitVec 8)
  | ksave (d : SReg) (a : KNum)
  | krest (d : KNum) (a : SReg)
  | setexec (a : VNum)
  | sadd (d a : SReg) (b : SSrc)
  | ssub (d a : SReg) (b : SSrc)
  | smul (d a : SReg) (b : SSrc)
  | smulh (sgn : Bool) (d a : SReg) (b : SSrc)
  | smad (d a b c : SReg)
  | sdiv (sgn : Bool) (d a : SReg) (b : SSrc)
  | srem (sgn : Bool) (d a : SReg) (b : SSrc)
  | sand (d a : SReg) (b : SSrc)
  | sor (d a : SReg) (b : SSrc)
  | sxor (d a : SReg) (b : SSrc)
  | sshl (d a : SReg) (b : SSrc)
  | sshr (d a : SReg) (b : SSrc)
  | ssra (d a : SReg) (b : SSrc)
  | smin (sgn : Bool) (d a : SReg) (b : SSrc)
  | smax (sgn : Bool) (d a : SReg) (b : SSrc)
  | scmp (cond : Cond) (sgn : Bool) (d a : SReg) (b : SSrc)
  | ssel (d a b c : SReg)
  | smov (d a : SReg)
  | sbfx (sgn : Bool) (d a : SReg) (pos : BitVec 6) (len : BitVec 7)
  | spopc (d a : SReg)
  | sclz (d a : SReg)
  | saddr (d a b : SReg) (scale : BitVec 2) (disp : BitVec 32)
  | sli (d : SReg) (v : BitVec 64)
  | vadd (o : VBin)
  | vsub (o : VBin)
  | vmul (o : VBin)
  | vmulh (o : VBin)
  | vmad (o : VTri)
  | vaddc (o : VCarry)
  | vsubb (o : VCarry)
  | vmin (o : VBin)
  | vmax (o : VBin)
  | vabs (o : VUn)
  | vneg (o : VUn)
  | vsat (o : VBin)
  | vdot4 (o : VTri)
  | vclz (o : VUn)
  | vpopc (o : VUn)
  | vand (o : VBin)
  | vor (o : VBin)
  | vxor (o : VBin)
  | vnot (o : VUn)
  | vshl (o : VBin)
  | vshr (o : VBin)
  | vsra (o : VBin)
  | vbfx (o : VField)
  | vbfi (o : VField)
  | vsel (p : Pred) (ty : Ty) (d : VNum) (a b : VSrc) (kc : KNum)
  | vcmp (o : VCmp)
  | vmov (o : VUn)
  | vli (p : Pred) (d : VNum) (v : BitVec 32)
  | vmovs (ty : Ty) (d : SReg) (a : VSrc) (n : BitVec 8)
  | fadd (o : VBin)
  | fsub (o : VBin)
  | fmul (o : VBin)
  | ffma (o : VTri)
  | fmin (o : VBin)
  | fmax (o : VBin)
  | fabs (o : VUn)
  | fneg (o : VUn)
  | fclass (o : VUn)
  | ffloor (o : VUn)
  | frint (o : VUn)
  | fscale (o : VBin)
  | fcmp (o : VCmp)
  | cvt (p : Pred) (dt st : Ty) (sat : Bool) (d : VNum) (a : VSrc)
  | pack (ty : Ty) (d : VNum) (a : VSrc) (q : BitVec 8)
  | unpack (ty : Ty) (d : VNum) (a : VSrc) (q : BitVec 8)
  | ctag (ty : Ty) (d : SReg) (a : VSrc)
  | fdiv (o : VBin)
  | fsqrt (o : VUn)
  | frcp (o : VUn)
  | frsq (o : VUn)
  | fexp2 (o : VUn)
  | flog2 (o : VUn)
  | foldset (f : FNum) (ix : BitVec 32)
  | refold (ty : Ty) (la : Look) (d a : VNum) (fs ft : FNum)
  | pshift (o : PMove)
  | prot (o : PMove)
  | pspread (o : PComp)
  | pfold (o : PComp) (op : RedOp)
  | pscan (o : PComp) (op : RedOp) (kseg : KNum)
  | pgath (o : PComp) (ix : VNum)
  | ptrans (ty : Ty) (la : Look) (d a : VNum) (f : FNum)
  | vote (p : Pred) (op : RedOp) (ty : Ty) (d : SReg) (a : VSrc) (m : Option VNum) (g : Option (BitVec 8))
  | regroup (d : SReg) (g : BitVec 8)
  | ld (p : Pred) (la : Look) (ty : Ty) (mo : MOrd) (d : VNum) (ad : MAddr)
  | st (p : Pred) (ty : Ty) (mo : MOrd) (ad : MAddr) (v : MData)
  | stCnt (p : Pred) (ty : Ty) (ord : Ord) (scope : Scope) (ad : MAddr) (v : MData) (c : SReg)
  | ldc (la : Look) (ty : Ty) (mo : MOrd) (d : SReg) (ad : MAddr)
  | pref (p : Pred) (ad : MAddr)
  | lds (p : Pred) (la : Look) (ty : Ty) (d : VNum) (ad : MAddr)
  | sts (p : Pred) (ty : Ty) (ad : MAddr) (v : MData)
  | pld (la : Look) (ty : Ty) (d : VNum) (base : SReg) (disp : Option (BitVec 32)) (f : FNum)
  | pst (ty : Ty) (base : SReg) (disp : Option (BitVec 32)) (d : VNum) (f : FNum)
  | atom (p : Pred) (la : Look) (op : AtomOp) (ty : Ty) (ord : Ord) (scope : Scope) (ad : MAddr) (form : AtomForm)
  | atoms (p : Pred) (la : Look) (op : AtomOp) (ty : Ty) (ad : MAddr) (form : AtomForm)
  | fence (kind : Ord) (scope : Scope) (vh : Bool)
  | mmap (str : BitVec 2) (m : MNum) (off : BitVec 32)
  | mldb (str : BitVec 2) (scr : Bool) (d a b : SReg) (len : BitVec 32)
  | mzero (str : BitVec 2) (spec : Bool) (z : ZNum)
  | mldz (str : BitVec 2) (spec tr : Bool) (z : ZNum) (a : SReg) (disp : BitVec 32)
  | mstz (str : BitVec 2) (tr : Bool) (ty : Ty) (a : SReg) (disp : BitVec 32) (z : ZNum)
  | mma (str : BitVec 2) (spec : Bool) (ty : Ty) (z : ZNum) (ma mb : MNum) (steps : BitVec 32)
  | mscale (str : BitVec 2) (spec : Bool) (ty : Ty) (zd za : ZNum) (offA offB : BitVec 32)
  | mcommit (str : BitVec 2) (z : ZNum) (n1 : BitVec 4)
  | mdiscard (str : BitVec 2) (z : ZNum) (n1 : BitVec 4)
  | specResolve (block : Nat)
  | mcnt (str : BitVec 2) (ty : Ty) (c : Bank) (ma mb : MNum) (steps : BitVec 32) (set : BitVec 2)
  | mmerge (str : BitVec 2) (c : Bank)
  | mdrain (str : BitVec 2) (set : BitVec 2) (c : Bank) (tgt : DrainTarget)
  | governorWindow (core : Nat)
  | cpy (fl : CmdFlags) (form : CpyForm)
  | copyChunkPerformed (cmd : Nat)
  | commandComplete (cmd : Nat)
  | gath (o : Gather)
  | scat (o : Gather)
  | cpyq (d : SReg) (n : BitVec 8)
  | bar
  | barrierCloseDone (block : Nat)
  | barn (arv : Bool) (rcv : Option SReg) (n : BitVec 8) (count : BitVec 7) (dlv : Option SReg)
  | gbar (scope : Scope) (g : BitVec 8) (m : Option VNum)
  | boinit (scope : Scope) (a : SReg) (v : BitVec 32)
  | boarr (ord : Ord) (scope : Scope) (a : SReg) (n : BitVec 8)
  | bowait (ord : Ord) (scope : Scope) (a b : SReg) (v : BitVec 32)
  | countedArrival (ix : Nat)
  | waiterPoll (ix : Nat)
  | xsend (scr : Bool) (d a b : SReg) (len : BitVec 32)
  | messageArrival (ix : Nat)
  | sendStatusReturn (send : Nat)
  | xpost (scr : Bool) (d a b : SReg) (tag : BitVec 32)
  | xprobe (wait : Bool) (d a : SReg)
  | xcancel (d a : SReg)
  | coll (ord : Ord) (scope : Scope) (a b : SReg) (plan : BitVec 32)
  | contributionArrival (pk : Packet)
  | collChunkComplete (inst chunk : Nat)
  | collAbortReceived (inst chunk : Nat)
  | waitchunk (ord : Ord) (scope : Scope) (a : SReg) (c : BitVec 32)
  | launch (d a b : SReg)
  | qpush (d a b : SReg)
  | qpop (d a b : SReg)
  | hostAppend (header staging : Nat)
  | fork (e : Engine) (d : SReg) (off : BitVec 32)
  | streamEnd (block : Nat) (e : Engine) (ix : Nat)
  | rdv (a : SReg)
  | ctxkill (d a : SReg)
  | killApplied (slot : Nat)
  | ctxstart (d a b : SReg)
  | startAcknowledged (slot : Nat)
  | peerAnnounceTimeout (slot node : Nat)
  | reclaim (d a : SReg)
  | reclaimComplete (slot : Nat)
  | patch (d a : SReg)
  | peerRequest (pk : Packet)
  | announcement (pk : Packet)
  | killPacket (pk : Packet)
  | responseArrival (pk : Packet)
  | ageExpiry (rid : Nat)
  | linkRequestTimeout (rid : Nat)
  | flitReceive (port : Nat) (flit : List Byte)
  | flitReplay (port : Nat)
  | portEnable (port : Nat)
  | trainingPass (port lanes : Nat)
  | trainingTimeout (port : Nat)
  | replayRateExceeded (port : Nat)
  | retrainDue (port : Nat)
  | laneFail (port lane : Nat)
  | portDisable (port : Nat)
  | packetTake
  | blockPlacement
  | compaction (core : Nat)
  | bind (core slot : Nat)
  | activeSetEntry (core part : Nat)
  | blockExit (block : Nat)
  | gridComplete (grid : Nat)
  | preemptRequest (core : Nat)
  | watchdog (block : Nat)
  | blockRelease (block : Nat)
  | pageWalk (ctx va : Nat) (write atomic fetch : Bool)
  | faultResult (stook slot : Nat) (resolved : Bool)
  | faultForward (stook slot : Nat)
  | faultqWrite (v : BitVec 64)
  | lazyTranslate (entry : Nat)
  | translationComplete (entry : Nat)
  | writeBack (core line : Nat)
  | verticalWriteLand (core : Nat)
  | hostMemAccess (a : HostAccess)
  | hostSnoop (line : Nat)
  | vaultReady (v : Nat)
  | reset
  | selfTestPass (c : UnitClass) (n : Nat)
  | selfTestFail (c : UnitClass) (n : Nat)
  | unitFallow (c : UnitClass) (n : Nat)
  | tempReport (die : Nat) (t : Int)
  | thermalCapTimer (stook : Nat)
  | thermtrip
  | perst
  | readReady (cls word : Nat)
  | readHealth
  | readTemp (die : Nat)
  | powerCap (watts : Nat)
  | watchdogSet (slot ms : Nat)
  | spdm (msg : List Byte)
  | microcodeUpdate (image : List Byte)
  | securityVersionRaise (v : Nat) (signed : List Byte)
  | matrixStep (block : Nat) (str : BitVec 2)
  | longLatencyComplete (block wave slot : Nat)
  | reservedEncoding (major : BitVec 6) (minor : BitVec 6)
  | clearTrip
  deriving DecidableEq, Repr

end Sys2Proof
end

