-- ==== Sys2Proof/Config.lean ====
section
/-! DEFINITION. What one implementation fixes and the manual leaves open: free values, as opaque constants with no body,
and the few addresses the model has to name. Each is in the assumption log. -/

namespace Sys2Proof.Config

/-- A free number: chooses among several outcomes the manual allows at one point; applied to a counter of State (log 3). -/
opaque freeChoice : Nat → Nat

/-- Where the firmware puts a wave area of a block, by core and bind slot: base of the divergence areas, their length in KiB
less 1; base of the spill areas, their length in units of 4 KiB less 1 (R24, R39, R284; log 27). -/
opaque divBase : Nat → Nat → Nat
opaque divLen : Nat → Nat → Nat
opaque spillBase : Nat → Nat → Nat
opaque spillLen : Nat → Nat → Nat

/-- CRC-32 over the first 252 bytes of a flit (R327); the manual does not name the polynomial (log 4). -/
opaque crc32 : List Byte → BitVec 32

/-- The cable delay that a port measures in training, in microseconds (R330, R334, log 4). -/
opaque cableDelay : Nat → Nat

/-- The ports that the firmware writes into the entry of the route table for a node of the package's own domain, or for another
domain under 2^20 plus its number: of at most 8 ports (R332, log 3). -/
opaque routePorts : Nat → Nat → List Nat

/-- Whether a firmware or microcode image verifies under the fused key (R356, R357), and the security version it
carries (log 5). -/
opaque imageAccepted : List Byte → Bool
/-- The security version of an image (R356, log 5). -/
opaque imageVersion : List Byte → Nat
/-- The ISA minor number a microcode update raises VERSION to (R357, log 5). -/
opaque imageMinor : List Byte → Nat
/-- Whether a command is signed under the firmware key (R356, log 5). -/
opaque commandSigned : List Byte → Bool
/-- SHA-512 of a message (R357, log 5). -/
opaque sha512 : List Byte → List Byte
/-- The reply to an SPDM message, given the measurement blocks (R357, log 5). -/
opaque spdmReply : List Byte → List (List Byte) → List Byte

/-- The bytes of the code to which the firmware's translator lowers an operation of a tile body: from the fields of its record (R297,
R299, log 6). What that code does is the operation's effect. -/
opaque tileText : List Nat → List (BitVec 8)

/-- Base of the firmware-reserved DRAM of a stook that holds its fault table (R323): pinned view of the stook's last
vault, from offset 0x8FFF_0000 (log 7, DESIGN CHOICE). -/
def faultBase (stook : Nat) : Nat := 0x100000000000 + (128 * stook + 127) * 0x100000000 + 0x8FFF0000

/-- SHA-512 of the boot ROM (R357, log 5). -/
opaque bootRomDigest : List Byte
/-- Measurement block 5: the fuse configuration (R357, log 5). -/
opaque fuseBlock : List Byte

/-- What the host reads in BAR0 beside FAULTQ, and in the configuration space of the port (R354, R355, log 69). -/
opaque barByte : Nat → BitVec 8
opaque configSpace : Nat → BitVec 32

/-- Among the cache ways of a core, the one that holds a dirty line (R97, R99): by the line's cell divided by 256. -/
opaque lineWay (line : Nat) : Nat

end Sys2Proof.Config
end

