-- ==== Sys2Proof/WellFormed.lean ====
section
/-! DEFINITION. Which operands an instruction may hold: the type sets of R170 and R203, even registers for 64-bit types
(R124), the ranges and the flag rules of the reference entries. A word whose fields break one of these raises ILLEGAL
(R137). Events hold no encoding: they are not well formed. -/

namespace Sys2Proof

/-- Width of a type in bits; containers count their code (R125). -/
def Ty.bits : Ty → Nat
  | .none => 0 | .s8 => 8 | .n8 => 8 | .s16 => 16 | .n16 => 16 | .s32 => 32 | .n32 => 32 | .s64 => 64 | .n64 => 64
  | .f16 => 16 | .bf16 => 16 | .f32 => 32 | .f64 => 64 | .t8 => 8 | .t6 => 6 | .t4 => 4 | .s4 => 4 | .b32 => 32

/-- Bytes of a memory element (R203). -/
def Ty.bytes (t : Ty) : Nat := t.bits / 8

/-- A 64-bit type takes register pairs (R124). -/
def Ty.pair (t : Ty) : Bool := t.bits = 64

/-- The set I of R170. -/
def Ty.isInt : Ty → Bool
  | .s8 => true | .n8 => true | .s16 => true | .n16 => true | .s32 => true | .n32 => true | .s64 => true | .n64 => true
  | _ => false

/-- The set S of R170. -/
def Ty.isSigned : Ty → Bool
  | .s8 => true | .s16 => true | .s32 => true | .s64 => true | _ => false

/-- The set W of R170. -/
def Ty.isWide : Ty → Bool
  | .s32 => true | .n32 => true | .s64 => true | .n64 => true | _ => false

/-- The set F of R170. -/
def Ty.isFloat : Ty → Bool
  | .f16 => true | .bf16 => true | .f32 => true | .f64 => true | _ => false

/-- The set X of R170. -/
def Ty.isBits : Ty → Bool
  | .b32 => true | .n64 => true | _ => false

/-- The container types (R63). -/
def Ty.isCont : Ty → Bool
  | .t8 => true | .t6 => true | .t4 => true | .s4 => true | _ => false

/-- The element types of memory instructions (R203). -/
def Ty.isMem (t : Ty) : Bool := t.isInt || t.isFloat || decide (t = .b32)

/-- No predicate. -/
def Pred.none : Pred := ⟨false, 0⟩

/-- NEG with K = 0 is ILLEGAL (R126). -/
def Pred.ok (p : Pred) : Bool := !p.neg || decide (p.k ≠ 0)

/-- A vector register that holds an element of this type: even for 64 bits (R124). -/
def pairOk (t : Ty) (n : VNum) : Bool := !t.pair || decide (n.toNat % 2 = 0)

/-- A source register, not an immediate. -/
def VSrc.regOk (t : Ty) : VSrc → Bool
  | .vec n => pairOk t n
  | .sca _ => true
  | .imm _ => false

/-- A source B: a register or an immediate (R122). -/
def VSrc.bOk (t : Ty) : VSrc → Bool
  | .imm _ => true
  | s => s.regOk t

/-- A one-source instruction: type set, whether SAT, RM and LA are taken, whether D is one register whatever TYPE. -/
def VUn.ok (o : VUn) (ts : Ty → Bool) (sat rm la d32 : Bool) : Bool :=
  o.p.ok && ts o.ty && (sat || !o.sat) && (rm || decide (o.rm = .rn)) && (la || decide (o.la = 0))
    && (d32 || pairOk o.ty o.d) && o.a.regOk o.ty

/-- A two-source instruction; `b32` says that B is always 32-bit (R171), `imm` that the 96-bit form exists. -/
def VBin.ok (o : VBin) (ts : Ty → Bool) (sat rm la b32 imm : Bool) : Bool :=
  o.p.ok && ts o.ty && (sat || !o.sat) && (rm || decide (o.rm = .rn)) && (la || decide (o.la = 0))
    && pairOk o.ty o.d && o.a.regOk o.ty
    && (if imm then o.b.bOk (if b32 then .b32 else o.ty) else o.b.regOk o.ty)

/-- A three-source instruction. -/
def VTri.ok (o : VTri) (ts : Ty → Bool) (sat rm : Bool) : Bool :=
  o.p.ok && ts o.ty && (sat || !o.sat) && (rm || decide (o.rm = .rn)) && pairOk o.ty o.d && o.a.regOk o.ty
    && o.b.regOk o.ty && o.c.regOk o.ty

/-- VADDC and VSUBB: masks k1 to k15 (R175). -/
def VCarry.ok (o : VCarry) : Bool :=
  o.p.ok && decide (o.kd ≠ 0) && decide (o.kc ≠ 0) && o.a.regOk .n32 && o.b.regOk .n32

/-- VCMP and FCMP: a mask destination k1 to k15 (R172). -/
def VCmp.ok (o : VCmp) (ts : Ty → Bool) : Bool :=
  o.p.ok && ts o.ty && decide (o.kd ≠ 0) && o.a.regOk o.ty && o.b.bOk o.ty

/-- VBFX and VBFI: 1 ≤ LEN ≤ 32 and POS + LEN ≤ 32 (R180). -/
def VField.ok (o : VField) (ts : Ty → Bool) : Bool :=
  o.p.ok && ts o.ty && o.a.regOk o.ty && decide (1 ≤ o.len.toNat) && decide (o.pos.toNat + o.len.toNat ≤ 32)

/-- SCOPE, ORD and STRONG of a load or store (R203, R206); `want` is the ordering the entry accepts. -/
def MOrd.ok (m : MOrd) (want : Ord) : Bool :=
  (decide (m.ord = .none) || decide (m.ord = want))
    && (decide (m.scope = .blk) || decide (m.ord ≠ .none) || m.strong)
    && (!m.strong || decide (m.scope = .dev) || decide (m.scope = .sys))

/-- A data register of a store (R203). -/
def MData.ok (t : Ty) : MData → Bool
  | .vec n => pairOk t n
  | .sca _ => true

/-- The types of an atomic operation (R213). -/
def AtomOp.tyOk : AtomOp → Ty → Bool
  | .add, t => t.isWide || decide (t = .f32)
  | .min, t => t.isWide
  | .max, t => t.isWide
  | _, t => t.isBits

/-- The three forms of an atomic (R213). -/
def AtomForm.ok (f : AtomForm) (op : AtomOp) (t : Ty) (o : Ord) : Bool :=
  match f with
  | .noRet d => pairOk t d && (decide (o = .none) || decide (o = .rel)) && decide (op ≠ .exch) && decide (op ≠ .cas)
  | .ret d c => (match d with | some n => pairOk t n | none => true) && pairOk t c
  | .cas d kd c => decide (op = .cas) && pairOk t d && decide (kd ≠ 0) && pairOk t c

/-- The flags of a command: SCOPE is 0 when ORD is 0 (R232). -/
def CmdFlags.ok (f : CmdFlags) : Bool := decide (f.ord ≠ .none) || decide (f.scope = .blk)

/-- A scope of a barrier object instruction (R241). -/
def Scope.wide : Scope → Bool
  | .dev => true | .sys => true | _ => false

/-- GATH and SCAT (R235). -/
def Gather.ok (o : Gather) : Bool := o.ty.isMem && o.fl.ok

/-- Source B of a major 0x05 or 0x06 instruction is always encodable. -/
def orderOk (o want : Ord) : Bool := decide (o = .none) || decide (o = want)

/-- The minors that R136 assigns in each major. -/
def assignedMinors : Nat → List Nat
  | 0x00 => [0]
  | 0x01 => [0, 1, 2, 3]
  | 0x02 => [0, 1, 2, 3, 4, 5]
  | 0x03 => [0, 1, 2, 8, 9, 0x10, 0x11]
  | 0x04 => [0, 1, 2, 3, 4, 5, 6, 7, 8, 9, 0xA, 0xB, 0xC]
  | 0x05 => [0, 1, 2, 3, 4, 5, 6, 7, 8, 9, 0xA, 0xB, 0xC, 0xD, 0xE, 0xF, 0x10, 0x11, 0x12, 0x13, 0x14, 0x15]
  | 0x06 => [0, 1, 2, 3, 5, 6, 7, 8, 9, 0xA, 0xB, 0xC, 0xD, 0xE, 0xF]
  | 0x07 => [0]
  | 0x08 => [0, 1, 2, 3, 4, 5, 6, 7, 8, 9, 0xA, 0xB, 0xC, 0xD, 0xE]
  | 0x09 => [0, 1, 2, 3, 4, 5, 6, 7, 8]
  | 0x0A => [0, 1, 2, 3, 4]
  | 0x0C => [0, 1, 2, 3, 4, 5]
  | 0x0D => [0, 1, 2, 3, 4, 5]
  | 0x0E => [0]
  | 0x10 => [0, 1, 2, 3]
  | 0x11 => [0, 1, 2, 3, 4, 5]
  | 0x12 => [0, 1, 2, 3, 4, 5, 6, 7, 8]
  | 0x14 => [0, 1]
  | 0x15 => [0, 1, 2, 3]
  | 0x16 => [0, 1, 2, 3]
  | 0x18 => [0, 1]
  | 0x19 => [0]
  | 0x1A => [0, 1, 2, 3, 4]
  | 0x1B => [0, 1]
  | 0x1C => [0, 1]
  | 0x1E => [0, 1, 2]
  | 0x1F => [0, 1, 2, 3]
  | 0x20 => [0, 1, 2, 3, 4, 5]
  | 0x21 => [0, 1, 2, 3]
  | 0x22 => [0, 1]
  | 0x23 => [0, 1, 2]
  | 0x24 => [0, 1]
  | 0x25 => [0, 1, 2]
  | 0x26 => [0]
  | _ => []

/-- A word of a reserved major or an unassigned minor (R135, R136). -/
def isReserved (major minor : Nat) : Bool := !(assignedMinors major).contains minor

/-- Which instructions are well formed. -/
def Instr.wf : Instr → Bool
  | .nop _ => true
  | .dictionaryWord _ _ _ _ _ => true
  | .bra _ _ _ => true
  | .bru _ _ _ _ _ _ _ => true
  | .brz _ _ _ _ _ => true
  | .loop d _ _ _ => decide (d ≠ 0)
  | .call d w8 tgt _ => decide (d ≠ 0) && decide (2 ≤ w8.toNat) && decide (w8.toNat ≤ 16)
      && (match tgt with | .off _ => true | .reg n => decide (n ≠ 0))
  | .ret _ _ => true
  | .split _ _ _ => true
  | .join _ _ => true
  | .exit _ => true
  | .yield _ => true
  | .trap _ _ => true
  | .trapret _ _ => true
  | .halt _ => true
  | .sread d r p => (match d with
      | .vec _ => decide (r = .laneid) && p.ok
      | .sca _ => decide (r ≠ .laneid) && decide (p = Pred.none))
  | .swrite r _ => decide (r ≠ .bankmode) && decide (r ≠ .colways) && decide (r ≠ .versionbudget)
  | .swriteBankmode _ => true
  | .swriteColways _ => true
  | .swriteVersionbudget _ => true
  | .tlbinv _ kind _ _ => decide (kind ≠ 3)
  | .icinv _ _ _ => true
  | .kmov _ _ => true
  | .kand _ _ _ => true
  | .kor _ _ _ => true
  | .kxor _ _ _ => true
  | .kandn _ _ _ => true
  | .knot _ _ => true
  | .kpop _ _ => true
  | .kfirst _ _ => true
  | .kset _ _ => true
  | .kget _ _ n => decide (n.toNat ≤ 31)
  | .ksave _ _ => true
  | .krest _ _ => true
  | .setexec _ => true
  | .sadd _ _ _ => true
  | .ssub _ _ _ => true
  | .smul _ _ _ => true
  | .smulh _ _ _ _ => true
  | .smad _ _ _ _ => true
  | .sdiv _ _ _ _ => true
  | .srem _ _ _ _ => true
  | .sand _ _ _ => true
  | .sor _ _ _ => true
  | .sxor _ _ _ => true
  | .sshl _ _ _ => true
  | .sshr _ _ _ => true
  | .ssra _ _ _ => true
  | .smin _ _ _ _ => true
  | .smax _ _ _ _ => true
  | .scmp _ _ _ _ _ => true
  | .ssel _ _ _ _ => true
  | .smov _ _ => true
  | .sbfx _ _ _ pos len => decide (1 ≤ len.toNat) && decide (pos.toNat + len.toNat ≤ 64)
  | .spopc _ _ => true
  | .sclz _ _ => true
  | .saddr _ _ _ _ _ => true
  | .sli _ _ => true
  | .vadd o => o.ok Ty.isInt true false false false true
  | .vsub o => o.ok Ty.isInt true false false false true
  | .vmul o => o.ok Ty.isInt true false false false true
  | .vmulh o => o.ok Ty.isWide false false false false true
  | .vmad o => o.ok Ty.isInt true false
  | .vaddc o => o.ok
  | .vsubb o => o.ok
  | .vmin o => o.ok Ty.isInt false false false false true
  | .vmax o => o.ok Ty.isInt false false false false true
  | .vabs o => o.ok Ty.isSigned true false false false
  | .vneg o => o.ok Ty.isSigned true false false false
  | .vsat o => o.ok Ty.isWide false false false true true
  | .vdot4 o => o.ok (fun t => decide (t = .s8) || decide (t = .n8)) true false
  | .vclz o => o.ok (fun t => decide (t = .n32) || decide (t = .n64)) false false false true
  | .vpopc o => o.ok (fun t => decide (t = .n32) || decide (t = .n64)) false false false true
  | .vand o => o.ok Ty.isBits false false false false true
  | .vor o => o.ok Ty.isBits false false false false true
  | .vxor o => o.ok Ty.isBits false false false false true
  | .vnot o => o.ok Ty.isBits false false false false
  | .vshl o => o.ok Ty.isBits false false false true true
  | .vshr o => o.ok Ty.isBits false false false true true
  | .vsra o => o.ok Ty.isBits false false false true true
  | .vbfx o => o.ok (fun t => decide (t = .s32) || decide (t = .n32))
  | .vbfi o => o.ok (fun t => decide (t = .b32))
  | .vsel p ty d a b _ => p.ok && ty.isBits && pairOk ty d && a.regOk ty && b.regOk ty
  | .vcmp o => o.ok Ty.isInt
  | .vmov o => o.ok Ty.isBits false false false false
  | .vli p _ _ => p.ok
  | .vmovs ty _ a n => ty.isBits && a.regOk ty && decide (n.toNat ≤ 31)
  | .fadd o => o.ok Ty.isFloat false true false false true
  | .fsub o => o.ok Ty.isFloat false true false false true
  | .fmul o => o.ok Ty.isFloat false true false false true
  | .ffma o => o.ok Ty.isFloat false true
  | .fmin o => o.ok Ty.isFloat false false false false true
  | .fmax o => o.ok Ty.isFloat false false false false true
  | .fabs o => o.ok Ty.isFloat false false false false
  | .fneg o => o.ok Ty.isFloat false false false false
  | .fclass o => o.ok Ty.isFloat false false false true
  | .ffloor o => o.ok Ty.isFloat false false false false
  | .frint o => o.ok Ty.isFloat false true false false
  | .fscale o => o.ok Ty.isFloat false true false true true
  | .fcmp o => o.ok Ty.isFloat
  | .cvt p dt sy sat d a => p.ok && decide (dt ≠ sy) && decide (dt ≠ .none) && decide (sy ≠ .none)
      && decide (dt ≠ .b32) && decide (sy ≠ .b32)
      && (!sat || ((dt.isInt || decide (dt = .s4)) && (sy.isInt || decide (sy = .s4)))) && pairOk dt d && a.regOk sy
  | .pack ty _ a q => ty.isCont && a.regOk ty && decide (q.toNat ≤ 7)
  | .unpack ty _ a q => ty.isCont && a.regOk ty && decide (q.toNat ≤ 7)
  | .ctag ty _ a => ty.isCont && a.regOk ty
  | .fdiv o => o.ok Ty.isFloat false false true false false
  | .fsqrt o => o.ok Ty.isFloat false false true false
  | .frcp o => o.ok Ty.isFloat false false true false
  | .frsq o => o.ok Ty.isFloat false false true false
  | .fexp2 o => o.ok Ty.isFloat false false true false
  | .flog2 o => o.ok Ty.isFloat false false true false
  | .foldset _ _ => true
  | .refold _ _ _ _ _ _ => true
  | .pshift _ => true
  | .prot _ => true
  | .pspread _ => true
  | .pfold _ _ => true
  | .pscan _ _ _ => true
  | .pgath _ _ => true
  | .ptrans _ _ _ _ _ => true
  | .vote p op ty _ a _ _ => p.ok && a.regOk ty && (match op with
      | .and => decide (ty = .b32)
      | .or => decide (ty = .b32)
      | _ => decide (ty = .s32) || decide (ty = .n32))
  | .regroup d _ => decide (d ≠ 0)
  | .ld p _ ty mo d _ => p.ok && ty.isMem && mo.ok .acq && pairOk ty d
  | .st p ty mo _ v => p.ok && ty.isMem && mo.ok .rel && v.ok ty
  | .stCnt p ty o sc ad v c => p.ok && ty.isMem && (MOrd.mk o sc false).ok .rel && decide (ad.disp = none) && v.ok ty
      && decide (c ≠ 0)
  | .ldc _ ty mo _ ad => ty.isMem && mo.ok .acq && (match ad.idx with | .vec _ => false | .sca _ => true)
  | .pref p _ => p.ok
  | .lds p _ ty d _ => p.ok && ty.isMem && pairOk ty d
  | .sts p ty _ v => p.ok && ty.isMem && v.ok ty
  | .pld _ ty _ _ _ _ => ty.isMem || decide (ty = .none)
  | .pst ty _ _ _ _ => ty.isMem || decide (ty = .none)
  | .atom p _ op ty o _ ad form => p.ok && op.tyOk ty && form.ok op ty o && decide (ad.disp = none)
  | .atoms p _ op ty ad form => p.ok && op.tyOk ty && form.ok op ty .none && decide (ad.disp = none)
  | .fence k sc vh => decide (k ≠ .none) || (vh && decide (sc = .blk))
  | .mmap _ _ off => decide (off.toNat % 32 = 0)
  | .mldb _ _ _ _ _ len => decide (16 ≤ len.toNat) && decide (len.toNat ≤ 524288) && decide (len.toNat % 16 = 0)
  | .mzero _ _ _ => true
  | .mldz _ _ _ _ _ _ => true
  | .mstz _ tr ty _ _ _ => decide (ty = .none) || (ty.isCont && !tr)
  | .mma _ _ ty z _ _ steps => (match ty with
      | .f64 => decide (z.toNat % 2 = 0)
      | .f32 => true | .bf16 => true | .f16 => true | .t8 => true | .t6 => true | .s8 => true | _ => false)
      && decide (1 ≤ steps.toNat) && decide (steps.toNat ≤ 65535)
  | .mscale _ _ ty _ _ _ _ => decide (ty = .f32) || decide (ty = .s32)
  | .mcommit _ z n1 => decide (z.toNat + n1.toNat ≤ 15)
  | .mdiscard _ z n1 => decide (z.toNat + n1.toNat ≤ 15)
  | .mcnt _ ty c _ _ steps _ => (decide (ty = .t4) || decide (ty = .s4)) && decide (c ≠ .c2)
      && decide (1 ≤ steps.toNat) && decide (steps.toNat ≤ 136)
  | .mmerge _ c => decide (c ≠ .c2)
  | .mdrain _ _ _ _ => true
  | .cpy fl form => fl.ok && (match form with
      | .linear _ _ len => decide (len ≠ 0)
      | .tensor _ _ _ _ => true)
  | .gath o => o.ok
  | .scat o => o.ok
  | .cpyq _ n => decide (n.toNat ≤ 48)
  | .bar => true
  | .barn arv _ n count _ => decide (n.toNat ≤ 15) && decide (count.toNat ≤ 64) && (arv || decide (count ≠ 0))
  | .gbar _ _ _ => true
  | .boinit sc _ _ => sc.wide
  | .boarr o sc _ n => sc.wide && orderOk o .rel && decide (n ≠ 0)
  | .bowait o sc _ _ _ => sc.wide && orderOk o .acq
  | .xsend _ _ _ _ len => decide (len.toNat ≤ 64) && decide (len.toNat % 8 = 0)
  | .xpost _ _ _ _ _ => true
  | .xprobe _ _ _ => true
  | .xcancel _ _ => true
  | .coll _ _ _ _ _ => true
  | .waitchunk o _ _ c => orderOk o .acq && decide (c.toNat ≤ 63)
  | .launch _ _ _ => true
  | .qpush _ _ _ => true
  | .qpop _ _ _ => true
  | .fork _ d _ => decide (d ≠ 0)
  | .rdv _ => true
  | .ctxkill _ _ => true
  | .ctxstart _ _ _ => true
  | .reclaim _ _ => true
  | .patch _ _ => true
  | .reservedEncoding major minor => isReserved major.toNat minor.toNat
  | .haltRelease _ _ => false
  | .specResolve _ => false
  | .governorWindow _ => false
  | .copyChunkPerformed _ => false
  | .commandComplete _ => false
  | .barrierCloseDone _ => false
  | .countedArrival _ => false
  | .waiterPoll _ => false
  | .messageArrival _ => false
  | .sendStatusReturn _ => false
  | .contributionArrival _ => false
  | .collChunkComplete _ _ => false
  | .collAbortReceived _ _ => false
  | .hostAppend _ _ => false
  | .streamEnd _ _ _ => false
  | .killApplied _ => false
  | .startAcknowledged _ => false
  | .peerAnnounceTimeout _ _ => false
  | .reclaimComplete _ => false
  | .peerRequest _ => false
  | .announcement _ => false
  | .killPacket _ => false
  | .responseArrival _ => false
  | .ageExpiry _ => false
  | .linkRequestTimeout _ => false
  | .flitReceive _ _ => false
  | .flitReplay _ => false
  | .portEnable _ => false
  | .trainingPass _ _ => false
  | .trainingTimeout _ => false
  | .replayRateExceeded _ => false
  | .retrainDue _ => false
  | .laneFail _ _ => false
  | .portDisable _ => false
  | .packetTake => false
  | .blockPlacement => false
  | .compaction _ => false
  | .bind _ _ => false
  | .activeSetEntry _ _ => false
  | .blockExit _ => false
  | .gridComplete _ => false
  | .preemptRequest _ => false
  | .watchdog _ => false
  | .blockRelease _ => false
  | .pageWalk _ _ _ _ _ => false
  | .faultResult _ _ _ => false
  | .faultForward _ _ => false
  | .faultqWrite _ => false
  | .lazyTranslate _ => false
  | .translationComplete _ => false
  | .writeBack _ _ => false
  | .verticalWriteLand _ => false
  | .hostMemAccess _ => false
  | .hostSnoop _ => false
  | .vaultReady _ => false
  | .reset => false
  | .selfTestPass _ _ => false
  | .selfTestFail _ _ => false
  | .unitFallow _ _ => false
  | .tempReport _ _ => false
  | .thermalCapTimer _ => false
  | .thermtrip => false
  | .perst => false
  | .readReady _ _ => false
  | .readHealth => false
  | .readTemp _ => false
  | .powerCap _ => false
  | .watchdogSet _ _ => false
  | .spdm _ => false
  | .clearTrip => false
  | .microcodeUpdate _ => false
  | .securityVersionRaise _ _ => false
  | .matrixStep _ _ => false
  | .longLatencyComplete _ _ _ => false

end Sys2Proof
end

