-- ==== Sys2Proof/Decode.lean ====
section
/-! DEFINITION. Words to instructions and back. A word is cut into the fields of R121; `fieldsOf` lays an instruction out
in those fields as its reference entry says; `candidate` reads the fields back as operands. A word decodes to the
candidate when that is well formed and its own layout is this very word, so that every unused field, reserved code and
zero bit of R122 to R127 is checked at once. `encode` writes the word of an instruction. -/

namespace Sys2Proof

/-- The fields of R121; `x` is bits [127:64], zero beyond the instruction's length. -/
structure Fields where
  len : BitVec 2
  major : BitVec 6
  minor : BitVec 6
  d : BitVec 8
  a : BitVec 8
  b : BitVec 8
  k : BitVec 4
  neg : Bool
  ty : BitVec 5
  la : BitVec 4
  mod : BitVec 12
  x : BitVec 64
  deriving DecidableEq, Repr

/-- Why a word is no instruction: ILLEGAL, after PRIV when the opcode is privileged (R137). -/
inductive Reject where
  | illegal (privileged : Bool)
  deriving DecidableEq, Repr

/-- Cut a word into its fields (R121). -/
def Fields.ofWord (w : InstrWord) : Fields :=
  { len := w.extractLsb' 0 2, major := w.extractLsb' 2 6, minor := w.extractLsb' 8 6, d := w.extractLsb' 14 8,
    a := w.extractLsb' 22 8, b := w.extractLsb' 30 8, k := w.extractLsb' 38 4, neg := w.getLsbD 42,
    ty := w.extractLsb' 43 5, la := w.extractLsb' 48 4, mod := w.extractLsb' 52 12, x := w.extractLsb' 64 64 }

/-- The word of these fields (R121). -/
def Fields.toWord (f : Fields) : InstrWord :=
  f.x ++ (f.mod ++ (f.la ++ (f.ty ++ (BitVec.ofBool f.neg ++ (f.k ++ (f.b ++ (f.a ++ (f.d ++ (f.minor ++ (f.major ++ f.len))))))))))

/-- Type codes (R125). -/
def Ty.code : Ty → BitVec 5
  | .none => 0 | .s8 => 1 | .n8 => 2 | .s16 => 3 | .n16 => 4 | .s32 => 5 | .n32 => 6 | .s64 => 7 | .n64 => 8 | .f16 => 9
  | .bf16 => 10 | .f32 => 11 | .f64 => 12 | .t8 => 13 | .t6 => 14 | .t4 => 15 | .s4 => 16 | .b32 => 17

/-- The type of a code; 18 to 31 are reserved (R125). -/
def Ty.ofCode (c : BitVec 5) : Option Ty :=
  match c.toNat with
  | 0 => some .none | 1 => some .s8 | 2 => some .n8 | 3 => some .s16 | 4 => some .n16 | 5 => some .s32 | 6 => some .n32
  | 7 => some .s64 | 8 => some .n64 | 9 => some .f16 | 10 => some .bf16 | 11 => some .f32 | 12 => some .f64
  | 13 => some .t8 | 14 => some .t6 | 15 => some .t4 | 16 => some .s4 | 17 => some .b32 | _ => none

/-- Condition codes (R147). -/
def Cond.code : Cond → BitVec 3
  | .eq => 0 | .ne => 1 | .lt => 2 | .le => 3 | .gt => 4 | .ge => 5

/-- The condition of a code; 6 and 7 are ILLEGAL (R147). -/
def Cond.ofCode (c : BitVec 3) : Option Cond :=
  match c.toNat with
  | 0 => some .eq | 1 => some .ne | 2 => some .lt | 3 => some .le | 4 => some .gt | 5 => some .ge | _ => none

/-- Rounding codes (R170). -/
def Rm.code : Rm → BitVec 2
  | .rn => 0 | .rz => 1 | .ru => 2 | .rd => 3

/-- The rounding mode of a code (R170). -/
def Rm.ofCode (c : BitVec 2) : Rm :=
  match c.toNat with
  | 0 => .rn | 1 => .rz | 2 => .ru | _ => .rd

/-- Axis codes (R193). -/
def Axis.code : Axis → BitVec 2
  | .x => 0 | .y => 1 | .z => 2 | .w => 3

/-- The axis of a code (R193). -/
def Axis.ofCode (c : BitVec 2) : Axis :=
  match c.toNat with
  | 0 => .x | 1 => .y | 2 => .z | _ => .w

/-- Operator codes (R193). -/
def RedOp.code : RedOp → BitVec 3
  | .add => 0 | .min => 1 | .max => 2 | .and => 3 | .or => 4

/-- The operator of a code; 5 to 7 are ILLEGAL (R193). -/
def RedOp.ofCode (c : BitVec 3) : Option RedOp :=
  match c.toNat with
  | 0 => some .add | 1 => some .min | 2 => some .max | 3 => some .and | 4 => some .or | _ => none

/-- Scope codes (R203). -/
def Scope.code : Scope → BitVec 2
  | .blk => 0 | .core => 1 | .dev => 2 | .sys => 3

/-- The scope of a code (R203). -/
def Scope.ofCode (c : BitVec 2) : Scope :=
  match c.toNat with
  | 0 => .blk | 1 => .core | 2 => .dev | _ => .sys

/-- Ordering codes (R203). -/
def Ord.code : Ord → BitVec 2
  | .none => 0 | .acq => 1 | .rel => 2 | .ar => 3

/-- The ordering of a code (R203). -/
def Ord.ofCode (c : BitVec 2) : Ord :=
  match c.toNat with
  | 0 => .none | 1 => .acq | 2 => .rel | _ => .ar

/-- Engine codes (R220). -/
def Engine.code : Engine → BitVec 2
  | .mat => 0 | .copy => 1 | .msg => 2 | .coll => 3

/-- The engine of a code (R220). -/
def Engine.ofCode (c : BitVec 2) : Engine :=
  match c.toNat with
  | 0 => .mat | 1 => .copy | 2 => .msg | _ => .coll

/-- Codes of atomic operations (R213). -/
def AtomOp.code : AtomOp → BitVec 4
  | .add => 0 | .min => 1 | .max => 2 | .and => 3 | .or => 4 | .xor => 5 | .exch => 6 | .cas => 7

/-- The atomic operation of a code; 8 to 15 are ILLEGAL (R213). -/
def AtomOp.ofCode (c : BitVec 4) : Option AtomOp :=
  match c.toNat with
  | 0 => some .add | 1 => some .min | 2 => some .max | 3 => some .and | 4 => some .or | 5 => some .xor
  | 6 => some .exch | 7 => some .cas | _ => none

/-- Indices of the system registers (R165). -/
def SysReg.code : SysReg → BitVec 12
  | .version => 0x000 | .readymap => 0x001 | .health => 0x002 | .ctxid => 0x010 | .incarn => 0x011 | .staledrop => 0x012
  | .laneid => 0x020 | .waveid => 0x021 | .blockid => 0x022 | .gridx => 0x023 | .gridy => 0x024 | .gridz => 0x025
  | .wstatus => 0x030 | .sigreg => 0x031 | .cause => 0x032 | .faultpc => 0x033 | .skid => 0x034 | .bankmode => 0x040
  | .colways => 0x041 | .colstat => 0x042 | .govbudget => 0x050 | .govstall => 0x051 | .versionbudget => 0x052

/-- The system register of an index (R164, R165). -/
def SysReg.ofCode (c : BitVec 12) : Option SysReg :=
  match c.toNat with
  | 0x000 => some .version | 0x001 => some .readymap | 0x002 => some .health | 0x010 => some .ctxid
  | 0x011 => some .incarn | 0x012 => some .staledrop | 0x020 => some .laneid | 0x021 => some .waveid
  | 0x022 => some .blockid | 0x023 => some .gridx | 0x024 => some .gridy | 0x025 => some .gridz
  | 0x030 => some .wstatus | 0x031 => some .sigreg | 0x032 => some .cause | 0x033 => some .faultpc
  | 0x034 => some .skid | 0x040 => some .bankmode | 0x041 => some .colways | 0x042 => some .colstat
  | 0x050 => some .govbudget | 0x051 => some .govstall | 0x052 => some .versionbudget | _ => none

/-- Register codes (R124). -/
def vCode (n : VNum) : BitVec 8 := 0#1 ++ n
def sCode (n : SReg) : BitVec 8 := 0b10#2 ++ n
def kCode (n : KNum) : BitVec 8 := 0xC#4 ++ n
def fCode (n : FNum) : BitVec 8 := 0b11010#5 ++ n
def zCode (n : ZNum) : BitVec 8 := 0xE#4 ++ n
def mCode (n : MNum) : BitVec 8 := 0b11111#5 ++ n

/-- Bank codes (R124). -/
def Bank.code : Bank → BitVec 8
  | .c0 => 0xF0 | .c1 => 0xF1 | .c2 => 0xF2

/-- The bank of a code (R124). -/
def Bank.ofCode (c : BitVec 8) : Bank :=
  match c.toNat with
  | 0xF1 => .c1 | 0xF2 => .c2 | _ => .c0

def vOf (c : BitVec 8) : VNum := c.extractLsb' 0 7
def sOf (c : BitVec 8) : SReg := c.extractLsb' 0 6
def kOf (c : BitVec 8) : KNum := c.extractLsb' 0 4
def fOf (c : BitVec 8) : FNum := c.extractLsb' 0 3
def zOf (c : BitVec 8) : ZNum := c.extractLsb' 0 4
def mOf (c : BitVec 8) : MNum := c.extractLsb' 0 3

/-- A source code: a vector register below 0x80, a broadcast scalar above (R124). -/
def srcOf (c : BitVec 8) : VSrc := if c.getLsbD 7 then .sca (sOf c) else .vec (vOf c)

/-- The code of a register source; an immediate leaves the field zero (R122). -/
def VSrc.code : VSrc → BitVec 8
  | .vec n => vCode n
  | .sca n => sCode n
  | .imm _ => 0

/-- The immediate bits of a source B. -/
def VSrc.ext : VSrc → BitVec 64
  | .imm v => 0#32 ++ v
  | _ => 0

/-- The length code that source B asks for. -/
def VSrc.lenCode : VSrc → BitVec 2
  | .imm _ => 1
  | _ => 0

/-- An empty field set of this length and opcode. -/
def fl (len : BitVec 2) (major minor : BitVec 6) : Fields :=
  { len := len, major := major, minor := minor, d := 0, a := 0, b := 0, k := 0, neg := false, ty := 0, la := 0, mod := 0,
    x := 0 }

/-- An immediate of 32 bits in bits [95:64]. -/
def imm32 (v : BitVec 32) : BitVec 64 := 0#32 ++ v

/-- A terminator with a short form of `short` bits code: its offset, and SIG in the 128-bit form (R122). -/
def termX (t : Term) (off : BitVec 32) : BitVec 64 :=
  match t with
  | some sig => sig ++ (0#8 ++ off)
  | none => 0#32 ++ off
def termLen (t : Term) (short : BitVec 2) : BitVec 2 :=
  match t with
  | some _ => 2
  | none => short

/-- TYPE 7 or 8 of a typed scalar instruction (R147). -/
def sgnCode (sgn : Bool) : BitVec 5 := if sgn then 7 else 8

/-- The layout of a scalar instruction with source B (R162). -/
def sFields (minor : BitVec 6) (ty : BitVec 5) (mod : BitVec 12) (d a : SReg) (b : SSrc) : Fields :=
  match b with
  | .reg n => { fl 0 5 minor with d := sCode d, a := sCode a, b := sCode n, ty := ty, mod := mod }
  | .imm v => { fl 1 6 minor with d := sCode d, a := sCode a, ty := ty, mod := mod, x := imm32 v }

/-- MOD of a vector instruction (R170). -/
def vMod (sty : BitVec 5) (sat : Bool) (rm : Rm) (cond : BitVec 3) : BitVec 12 :=
  0#1 ++ (sty ++ (BitVec.ofBool sat ++ (rm.code ++ cond)))

def vunFields (major minor : BitVec 6) (o : VUn) : Fields :=
  { fl 0 major minor with d := vCode o.d, a := o.a.code, k := o.p.k, neg := o.p.neg, ty := o.ty.code, la := o.la,
                          mod := vMod 0 o.sat o.rm 0 }
def vbinFields (major minor : BitVec 6) (o : VBin) : Fields :=
  { fl o.b.lenCode major minor with d := vCode o.d, a := o.a.code, b := o.b.code, k := o.p.k, neg := o.p.neg,
                                    ty := o.ty.code, la := o.la, mod := vMod 0 o.sat o.rm 0, x := o.b.ext }
def vtriFields (major minor : BitVec 6) (o : VTri) : Fields :=
  { fl 1 major minor with d := vCode o.d, a := o.a.code, b := o.b.code, k := o.p.k, neg := o.p.neg, ty := o.ty.code,
                          mod := vMod 0 o.sat o.rm 0, x := 0#56 ++ o.c.code }
def vcarryFields (minor : BitVec 6) (o : VCarry) : Fields :=
  { fl 2 8 minor with d := vCode o.d, a := o.a.code, b := o.b.code, k := o.p.k, neg := o.p.neg, ty := 6,
                      x := 0#48 ++ (kCode o.kd ++ kCode o.kc) }
def vcmpFields (major minor : BitVec 6) (o : VCmp) : Fields :=
  { fl o.b.lenCode major minor with d := kCode o.kd, a := o.a.code, b := o.b.code, k := o.p.k, neg := o.p.neg,
                                    ty := o.ty.code, mod := vMod 0 false .rn o.cond.code, x := o.b.ext }
def vfieldFields (minor : BitVec 6) (o : VField) : Fields :=
  { fl 1 9 minor with d := vCode o.d, a := o.a.code, k := o.p.k, neg := o.p.neg, ty := o.ty.code,
                      x := 0#51 ++ (o.len ++ o.pos) }
def pmoveFields (minor : BitVec 6) (o : PMove) : Fields :=
  { fl 1 0x12 minor with d := vCode o.d, a := vCode o.a, b := fCode o.f, ty := o.ty.code, la := o.la,
                         mod := 0#10 ++ o.axis.code, x := imm32 o.dist }
def pcompFields (minor : BitVec 6) (o : PComp) (hi : BitVec 10) : Fields :=
  { fl 0 0x12 minor with d := vCode o.d, a := vCode o.a, b := fCode o.f, ty := o.ty.code, la := o.la,
                         mod := hi ++ o.axis.code }

/-- MOD of a memory instruction (R203). -/
def memMod (aop : BitVec 4) (cnt strong : Bool) (o : Ord) (sc : Scope) (scale : BitVec 2) : BitVec 12 :=
  aop ++ (BitVec.ofBool cnt ++ (BitVec.ofBool strong ++ (o.code ++ (sc.code ++ scale))))

/-- The code of an index (R203). -/
def MIdx.code : MIdx → BitVec 8
  | .vec n => vCode n
  | .sca n => sCode n
def idxOf (c : BitVec 8) : MIdx := if c.getLsbD 7 then .sca (sOf c) else .vec (vOf c)

/-- The length code and immediate of a displacement (R203). -/
def dispLen : Option (BitVec 32) → BitVec 2
  | some _ => 1
  | none => 0
def dispX : Option (BitVec 32) → BitVec 64
  | some v => imm32 v
  | none => 0

/-- A data register code (R203). -/
def MData.code : MData → BitVec 8
  | .vec n => vCode n
  | .sca n => sCode n
def dataOf (c : BitVec 8) : MData := if c.getLsbD 7 then .sca (sOf c) else .vec (vOf c)

/-- The layout of a load or store (R203, R206, R210). -/
def memFields (major minor : BitVec 6) (p : Pred) (la : Look) (ty : Ty) (mo : MOrd) (d : BitVec 8) (ad : MAddr) : Fields :=
  { fl (dispLen ad.disp) major minor with
      d := d, a := sCode ad.base, b := ad.idx.code, k := p.k, neg := p.neg, ty := ty.code, la := la,
      mod := memMod 0 false mo.strong mo.ord mo.scope ad.scale, x := dispX ad.disp }

/-- The layout of an atomic (R213). -/
def atomFields (minor : BitVec 6) (p : Pred) (la : Look) (op : AtomOp) (ty : Ty) (o : Ord) (sc : Scope) (ad : MAddr)
    (form : AtomForm) : Fields :=
  let f := { fl 0 0x18 minor with a := sCode ad.base, b := ad.idx.code, k := p.k, neg := p.neg, ty := ty.code, la := la,
                                  mod := memMod op.code false false o sc ad.scale }
  match form with
  | .noRet v => { f with d := vCode v }
  | .ret none c => { f with len := 1, d := 0x80, x := 0#56 ++ vCode c }
  | .ret (some d) c => { f with len := 1, d := vCode d, x := 0#56 ++ vCode c }
  | .cas d kd c => { f with len := 2, d := vCode d, x := 0#48 ++ (kCode kd ++ vCode c) }

/-- MOD of the matrix majors (R224). -/
def matMod (scr : Bool) (set : BitVec 2) (tr : Bool) (tiles : BitVec 4) (spec : Bool) (str : BitVec 2) : BitVec 12 :=
  0#1 ++ (BitVec.ofBool scr ++ (set ++ (BitVec.ofBool tr ++ (tiles ++ (BitVec.ofBool spec ++ str)))))

/-- MOD of major 0x1F (R232). -/
def cmdMod (f : CmdFlags) (scrI tr : Bool) : BitVec 12 :=
  0#1 ++ (BitVec.ofBool f.scrD ++ (BitVec.ofBool f.scrS ++ (BitVec.ofBool scrI ++ (BitVec.ofBool tr ++ (0#1 ++
    (f.ord.code ++ (f.scope.code ++ 0#2)))))))

/-- MOD with ORD and SCOPE alone (R241, R245). -/
def ordMod (o : Ord) (sc : Scope) : BitVec 12 := 0#6 ++ (o.code ++ (sc.code ++ 0#2))

def gathFields (minor : BitVec 6) (o : Gather) : Fields :=
  { fl 2 0x1F minor with d := sCode o.d, a := sCode o.a, b := sCode o.b, ty := o.ty.code,
                         mod := cmdMod o.fl o.scrI false, x := 0#56 ++ sCode o.c }

/-- A vector register number in MOD[63:57], when given. -/
def optV : Option VNum → BitVec 7
  | some n => n
  | none => 0

/-- An encoded number, or zero. -/
def optB : Option (BitVec 8) → BitVec 8
  | some n => n
  | none => 0

/-- A scalar register, or zero. -/
def optS : Option SReg → BitVec 8
  | some n => sCode n
  | none => 0

/-- The fields of an instruction, from its reference entry. Events have no word. -/
def fieldsOf : Instr → Fields
  | .nop .w64 => fl 0 0 0
  | .nop .w96 => fl 1 0 0
  | .nop (.w128 sig) => { fl 2 0 0 with x := termX (some sig) 0 }
  | .dictionaryWord cnt rsv c0 c1 c2 =>
    Fields.ofWord (0#64 ++ (c2 ++ (c1 ++ (c0 ++ (rsv ++ (cnt ++ 3#2))))))
  | .bra off pr t => { fl (termLen t 1) 1 0 with mod := 0#8 ++ (BitVec.ofBool pr ++ 0#3), x := termX t off }
  | .bru c sgn a b off pr t =>
    { fl (termLen t 1) 1 1 with a := sCode a, b := sCode b, ty := sgnCode sgn,
                                mod := 0#8 ++ (BitVec.ofBool pr ++ c.code), x := termX t off }
  | .brz nz k off pr t =>
    { fl (termLen t 1) 1 2 with a := kCode k, mod := 0#8 ++ (BitVec.ofBool pr ++ (0#2 ++ BitVec.ofBool nz)),
                                x := termX t off }
  | .loop d off pr t =>
    { fl (termLen t 1) 1 3 with d := sCode d, mod := 0#8 ++ (BitVec.ofBool pr ++ 0#3), x := termX t off }
  | .call d w8 (.off off) t => { fl (termLen t 1) 2 0 with d := sCode d, b := w8, x := termX t off }
  | .call d w8 (.reg n) t => { fl (termLen t 1) 2 0 with d := sCode d, a := sCode n, b := w8, x := termX t 0 }
  | .ret a t => { fl (termLen t 0) 2 1 with a := sCode a, x := termX t 0 }
  | .split k off t => { fl (termLen t 1) 2 2 with a := kCode k, x := termX t off }
  | .join off t => { fl (termLen t 1) 2 3 with x := termX t off }
  | .exit t => { fl (termLen t 0) 2 4 with x := termX t 0 }
  | .yield t => { fl (termLen t 0) 2 5 with x := termX t 0 }
  | .trap n t => { fl (termLen t 0) 3 0 with b := n, x := termX t 0 }
  | .trapret a t => { fl (termLen t 0) 3 1 with a := optS a, x := termX t 0 }
  | .halt t => { fl (termLen t 0) 3 2 with x := termX t 0 }
  | .sread (.sca d) r p => { fl 0 3 8 with d := sCode d, k := p.k, neg := p.neg, mod := r.code }
  | .sread (.vec d) r p => { fl 0 3 8 with d := vCode d, k := p.k, neg := p.neg, mod := r.code }
  | .swrite r a => { fl 0 3 9 with a := sCode a, mod := r.code }
  | .swriteBankmode a => { fl 0 3 9 with a := sCode a, mod := SysReg.bankmode.code }
  | .swriteColways a => { fl 0 3 9 with a := sCode a, mod := SysReg.colways.code }
  | .swriteVersionbudget a => { fl 0 3 9 with a := sCode a, mod := SysReg.versionbudget.code }
  | .tlbinv dev kind a b =>
    { fl 0 3 0x10 with a := sCode a, b := sCode b, mod := 0#7 ++ (BitVec.ofBool dev ++ (0#2 ++ kind)) }
  | .icinv dev a b => { fl 0 3 0x11 with a := sCode a, b := sCode b, mod := 0#7 ++ (BitVec.ofBool dev ++ 0#4) }
  | .kmov d a => { fl 0 4 0 with d := kCode d, a := kCode a }
  | .kand d a b => { fl 0 4 1 with d := kCode d, a := kCode a, b := kCode b }
  | .kor d a b => { fl 0 4 2 with d := kCode d, a := kCode a, b := kCode b }
  | .kxor d a b => { fl 0 4 3 with d := kCode d, a := kCode a, b := kCode b }
  | .kandn d a b => { fl 0 4 4 with d := kCode d, a := kCode a, b := kCode b }
  | .knot d a => { fl 0 4 5 with d := kCode d, a := kCode a }
  | .kpop d a => { fl 0 4 6 with d := sCode d, a := kCode a }
  | .kfirst d a => { fl 0 4 7 with d := sCode d, a := kCode a }
  | .kset d v => { fl 1 4 8 with d := kCode d, x := imm32 v }
  | .kget d a n => { fl 0 4 9 with d := sCode d, a := kCode a, b := n }
  | .ksave d a => { fl 0 4 0xA with d := sCode d, a := kCode a }
  | .krest d a => { fl 0 4 0xB with d := kCode d, a := sCode a }
  | .setexec a => { fl 0 4 0xC with a := vCode a }
  | .sadd d a b => sFields 0 0 0 d a b
  | .ssub d a b => sFields 1 0 0 d a b
  | .smul d a b => sFields 2 0 0 d a b
  | .smulh sgn d a b => sFields 3 (sgnCode sgn) 0 d a b
  | .smad d a b c => { fl 1 5 4 with d := sCode d, a := sCode a, b := sCode b, x := 0#56 ++ sCode c }
  | .sdiv sgn d a b => sFields 5 (sgnCode sgn) 0 d a b
  | .srem sgn d a b => sFields 6 (sgnCode sgn) 0 d a b
  | .sand d a b => sFields 7 0 0 d a b
  | .sor d a b => sFields 8 0 0 d a b
  | .sxor d a b => sFields 9 0 0 d a b
  | .sshl d a b => sFields 0xA 0 0 d a b
  | .sshr d a b => sFields 0xB 0 0 d a b
  | .ssra d a b => sFields 0xC 0 0 d a b
  | .smin sgn d a b => sFields 0xD (sgnCode sgn) 0 d a b
  | .smax sgn d a b => sFields 0xE (sgnCode sgn) 0 d a b
  | .scmp c sgn d a b => sFields 0xF (sgnCode sgn) (0#9 ++ c.code) d a b
  | .ssel d a b c => { fl 1 5 0x10 with d := sCode d, a := sCode a, b := sCode b, x := 0#56 ++ sCode c }
  | .smov d a => { fl 0 5 0x11 with d := sCode d, a := sCode a }
  | .sbfx sgn d a pos len =>
    { fl 1 5 0x12 with d := sCode d, a := sCode a, ty := sgnCode sgn, x := 0#51 ++ (len ++ pos) }
  | .spopc d a => { fl 0 5 0x13 with d := sCode d, a := sCode a }
  | .sclz d a => { fl 0 5 0x14 with d := sCode d, a := sCode a }
  | .saddr d a b scale disp =>
    { fl 1 5 0x15 with d := sCode d, a := sCode a, b := sCode b, mod := 0#10 ++ scale, x := imm32 disp }
  | .sli d v => { fl 2 7 0 with d := sCode d, x := v }
  | .vadd o => vbinFields 8 0 o
  | .vsub o => vbinFields 8 1 o
  | .vmul o => vbinFields 8 2 o
  | .vmulh o => vbinFields 8 3 o
  | .vmad o => vtriFields 8 4 o
  | .vaddc o => vcarryFields 5 o
  | .vsubb o => vcarryFields 6 o
  | .vmin o => vbinFields 8 7 o
  | .vmax o => vbinFields 8 8 o
  | .vabs o => vunFields 8 9 o
  | .vneg o => vunFields 8 0xA o
  | .vsat o => vbinFields 8 0xB o
  | .vdot4 o => vtriFields 8 0xC o
  | .vclz o => vunFields 8 0xD o
  | .vpopc o => vunFields 8 0xE o
  | .vand o => vbinFields 9 0 o
  | .vor o => vbinFields 9 1 o
  | .vxor o => vbinFields 9 2 o
  | .vnot o => vunFields 9 3 o
  | .vshl o => vbinFields 9 4 o
  | .vshr o => vbinFields 9 5 o
  | .vsra o => vbinFields 9 6 o
  | .vbfx o => vfieldFields 7 o
  | .vbfi o => vfieldFields 8 o
  | .vsel p ty d a b kc =>
    { fl 1 0xA 0 with d := vCode d, a := a.code, b := b.code, k := p.k, neg := p.neg, ty := ty.code,
                      x := 0#56 ++ kCode kc }
  | .vcmp o => vcmpFields 0xA 1 o
  | .vmov o => vunFields 0xA 2 o
  | .vli p d v => { fl 1 0xA 3 with d := vCode d, k := p.k, neg := p.neg, ty := Ty.b32.code, x := imm32 v }
  | .vmovs ty d a n => { fl 0 0xA 4 with d := sCode d, a := a.code, b := n, ty := ty.code }
  | .fadd o => vbinFields 0xC 0 o
  | .fsub o => vbinFields 0xC 1 o
  | .fmul o => vbinFields 0xC 2 o
  | .ffma o => vtriFields 0xC 3 o
  | .fmin o => vbinFields 0xC 4 o
  | .fmax o => vbinFields 0xC 5 o
  | .fabs o => vunFields 0xD 0 o
  | .fneg o => vunFields 0xD 1 o
  | .fclass o => vunFields 0xD 2 o
  | .ffloor o => vunFields 0xD 3 o
  | .frint o => vunFields 0xD 4 o
  | .fscale o => vbinFields 0xD 5 o
  | .fcmp o => vcmpFields 0xE 0 o
  | .cvt p dt sy sat d a =>
    { fl 0 0x10 0 with d := vCode d, a := a.code, k := p.k, neg := p.neg, ty := dt.code, mod := vMod sy.code sat .rn 0 }
  | .pack ty d a q => { fl 0 0x10 1 with d := vCode d, a := a.code, b := q, ty := ty.code }
  | .unpack ty d a q => { fl 0 0x10 2 with d := vCode d, a := a.code, b := q, ty := ty.code }
  | .ctag ty d a => { fl 0 0x10 3 with d := sCode d, a := a.code, ty := ty.code }
  | .fdiv o => vbinFields 0x11 0 o
  | .fsqrt o => vunFields 0x11 1 o
  | .frcp o => vunFields 0x11 2 o
  | .frsq o => vunFields 0x11 3 o
  | .fexp2 o => vunFields 0x11 4 o
  | .flog2 o => vunFields 0x11 5 o
  | .foldset f ix => { fl 1 0x12 0 with d := fCode f, x := imm32 ix }
  | .refold ty la d a fs ft =>
    { fl 0 0x12 1 with d := vCode d, a := vCode a, b := fCode fs, ty := ty.code, la := la, mod := 0#7 ++ (ft ++ 0#2) }
  | .pshift o => pmoveFields 2 o
  | .prot o => pmoveFields 3 o
  | .pspread o => pcompFields 4 o 0
  | .pfold o op => pcompFields 5 o (0#7 ++ op.code)
  | .pscan o op ks => pcompFields 6 o (0#3 ++ (ks ++ op.code))
  | .pgath o ix => pcompFields 7 o (ix ++ 0#3)
  | .ptrans ty la d a f =>
    { fl 0 0x12 8 with d := vCode d, a := vCode a, b := fCode f, ty := ty.code, la := la }
  | .vote p op ty d a m g =>
    { fl 0 0x14 0 with d := sCode d, a := a.code, b := optB g, k := p.k, neg := p.neg, ty := ty.code,
                       mod := optV m ++ (BitVec.ofBool m.isSome ++ (BitVec.ofBool g.isSome ++ op.code)) }
  | .regroup d g => { fl 0 0x14 1 with d := sCode d, b := g }
  | .ld p la ty mo d ad => memFields 0x15 0 p la ty mo (vCode d) ad
  | .st p ty mo ad v => memFields 0x15 1 p 0 ty mo v.code ad
  | .stCnt p ty o sc ad v c =>
    { fl 2 0x15 1 with d := v.code, a := sCode ad.base, b := ad.idx.code, k := p.k, neg := p.neg, ty := ty.code,
                       mod := memMod 0 true false o sc ad.scale, x := 0#56 ++ sCode c }
  | .ldc la ty mo d ad => memFields 0x15 2 Pred.none la ty mo (sCode d) ad
  | .pref p ad => memFields 0x15 3 p 0 .none ⟨.none, .blk, false⟩ 0 ad
  | .lds p la ty d ad => memFields 0x16 0 p la ty ⟨.none, .blk, false⟩ (vCode d) ad
  | .sts p ty ad v => memFields 0x16 1 p 0 ty ⟨.none, .blk, false⟩ v.code ad
  | .pld la ty d base disp f =>
    { fl (dispLen disp) 0x16 2 with d := vCode d, a := sCode base, b := fCode f, ty := ty.code, la := la, x := dispX disp }
  | .pst ty base disp d f =>
    { fl (dispLen disp) 0x16 3 with d := vCode d, a := sCode base, b := fCode f, ty := ty.code, x := dispX disp }
  | .atom p la op ty o sc ad form => atomFields 0 p la op ty o sc ad form
  | .atoms p la op ty ad form => atomFields 1 p la op ty .none .blk ad form
  | .fence k sc vh => { fl 0 0x19 0 with mod := 0#3 ++ (BitVec.ofBool vh ++ (0#2 ++ (k.code ++ (sc.code ++ 0#2)))) }
  | .mmap str m off => { fl 1 0x1A 0 with d := mCode m, mod := matMod false 0 false 0 false str, x := imm32 off }
  | .mldb str scr d a b len =>
    { fl 1 0x1A 1 with d := sCode d, a := sCode a, b := sCode b, mod := matMod scr 0 false 0 false str, x := imm32 len }
  | .mzero str spec z => { fl 0 0x1A 2 with d := zCode z, mod := matMod false 0 false 0 spec str }
  | .mldz str spec tr z a disp =>
    { fl 1 0x1A 3 with d := zCode z, a := sCode a, mod := matMod false 0 tr 0 spec str, x := imm32 disp }
  | .mstz str tr ty a disp z =>
    { fl 1 0x1A 4 with d := zCode z, a := sCode a, ty := ty.code, mod := matMod false 0 tr 0 false str, x := imm32 disp }
  | .mma str spec ty z ma mb steps =>
    { fl 1 0x1B 0 with d := zCode z, a := mCode ma, b := mCode mb, ty := ty.code, mod := matMod false 0 false 0 spec str,
                       x := imm32 steps }
  | .mscale str spec ty zd za oa ob =>
    { fl 2 0x1B 1 with d := zCode zd, a := zCode za, ty := ty.code, mod := matMod false 0 false 0 spec str, x := ob ++ oa }
  | .mcommit str z n1 => { fl 0 0x1C 0 with d := zCode z, mod := matMod false 0 false n1 false str }
  | .mdiscard str z n1 => { fl 0 0x1C 1 with d := zCode z, mod := matMod false 0 false n1 false str }
  | .mcnt str ty c ma mb steps set =>
    { fl 1 0x1E 0 with d := c.code, a := mCode ma, b := mCode mb, ty := ty.code, mod := matMod false set false 0 false str,
                       x := imm32 steps }
  | .mmerge str c => { fl 0 0x1E 1 with d := Bank.c2.code, a := c.code, mod := matMod false 0 false 0 false str }
  | .mdrain str set c (.tile z) =>
    { fl 1 0x1E 2 with d := zCode z, a := c.code, mod := matMod false set false 0 false str }
  | .mdrain str set c (.scratch base disp) =>
    { fl 1 0x1E 2 with d := sCode base, a := c.code, mod := matMod true set false 0 false str, x := imm32 disp }
  | .cpy f (.linear d a len) =>
    { fl 1 0x1F 0 with d := sCode d, a := sCode a, mod := cmdMod f false false, x := imm32 len }
  | .cpy f (.tensor d a c tr) =>
    { fl 2 0x1F 0 with d := sCode d, a := sCode a, mod := cmdMod f false tr, x := 0#56 ++ sCode c }
  | .gath o => gathFields 1 o
  | .scat o => gathFields 2 o
  | .cpyq d n => { fl 0 0x1F 3 with d := sCode d, b := n }
  | .bar => fl 0 0x20 0
  | .barn arv rcv n count dlv =>
    { fl 0 0x20 1 with d := optS rcv, a := optS dlv, b := n,
                       mod := 0#2 ++ (BitVec.ofBool rcv.isSome ++ (BitVec.ofBool dlv.isSome ++ (BitVec.ofBool arv ++ count))) }
  | .gbar sc g m =>
    { fl 0 0x20 2 with b := g, mod := optV m ++ (BitVec.ofBool m.isSome ++ (sc.code ++ 0#2)) }
  | .boinit sc a v => { fl 1 0x20 3 with a := sCode a, mod := ordMod .none sc, x := imm32 v }
  | .boarr o sc a n => { fl 0 0x20 4 with a := sCode a, b := n, mod := ordMod o sc }
  | .bowait o sc a b v => { fl 1 0x20 5 with a := sCode a, b := sCode b, mod := ordMod o sc, x := imm32 v }
  | .xsend scr d a b len =>
    { fl 1 0x21 0 with d := sCode d, a := sCode a, b := sCode b, mod := 0#2 ++ (BitVec.ofBool scr ++ 0#9), x := imm32 len }
  | .xpost scr d a b tag =>
    { fl 1 0x21 1 with d := sCode d, a := sCode a, b := sCode b, mod := 0#1 ++ (BitVec.ofBool scr ++ 0#10), x := imm32 tag }
  | .xprobe wait d a => { fl 0 0x21 2 with d := sCode d, a := sCode a, mod := 0#4 ++ (BitVec.ofBool wait ++ 0#7) }
  | .xcancel d a => { fl 0 0x21 3 with d := sCode d, a := sCode a }
  | .coll o sc a b plan => { fl 1 0x22 0 with a := sCode a, b := sCode b, mod := ordMod o sc, x := imm32 plan }
  | .waitchunk o sc a c => { fl 1 0x22 1 with a := sCode a, mod := ordMod o sc, x := imm32 c }
  | .launch d a b => { fl 0 0x23 0 with d := sCode d, a := sCode a, b := sCode b }
  | .qpush d a b => { fl 0 0x23 1 with d := sCode d, a := sCode a, b := sCode b }
  | .qpop d a b => { fl 0 0x23 2 with d := sCode d, a := sCode a, b := sCode b }
  | .fork e d off => { fl 1 0x24 0 with d := sCode d, mod := 0#10 ++ e.code, x := imm32 off }
  | .rdv a => { fl 0 0x24 1 with a := sCode a }
  | .ctxkill d a => { fl 0 0x25 0 with d := sCode d, a := sCode a }
  | .ctxstart d a b => { fl 0 0x25 1 with d := sCode d, a := sCode a, b := sCode b }
  | .reclaim d a => { fl 0 0x25 2 with d := sCode d, a := sCode a }
  | .patch d a => { fl 0 0x26 0 with d := sCode d, a := sCode a }
  | .reservedEncoding major minor => fl 0 major minor
  | _ => fl 0 0x3F 0

namespace Fields

/-- Readers of the fields as operands. -/
def ds (f : Fields) : SReg := sOf f.d
def as (f : Fields) : SReg := sOf f.a
def bs (f : Fields) : SReg := sOf f.b
def cs (f : Fields) : SReg := sOf (f.x.extractLsb' 0 8)
def pred (f : Fields) : Pred := ⟨f.neg, f.k⟩
def imm (f : Fields) : BitVec 32 := f.x.extractLsb' 0 32
def bit (f : Fields) (n : Nat) : Bool := f.mod.getLsbD n
def ordF (f : Fields) : Ord := Ord.ofCode (f.mod.extractLsb' 4 2)
def scopeF (f : Fields) : Scope := Scope.ofCode (f.mod.extractLsb' 2 2)
def str (f : Fields) : BitVec 2 := f.mod.extractLsb' 0 2
def term (f : Fields) : Term := if f.len = 2 then some (f.x.extractLsb' 40 24) else none
def sgn (f : Fields) : Bool := f.ty = 7
def sb (f : Fields) : SSrc := if f.major = 6 then .imm f.imm else .reg f.bs
def vb (f : Fields) : VSrc := if f.len = 1 then .imm f.imm else srcOf f.b
def rm (f : Fields) : Rm := Rm.ofCode (f.mod.extractLsb' 3 2)
def cond (f : Fields) : Option Cond := Cond.ofCode (f.mod.extractLsb' 0 3)
def axisF (f : Fields) : Axis := Axis.ofCode (f.mod.extractLsb' 0 2)
def redop (f : Fields) (lo : Nat) : Option RedOp := RedOp.ofCode (f.mod.extractLsb' lo 3)
def disp (f : Fields) : Option (BitVec 32) := if f.len = 1 then some f.imm else none
def maddr (f : Fields) : MAddr := ⟨f.as, idxOf f.b, f.mod.extractLsb' 0 2, f.disp⟩
def maddr0 (f : Fields) : MAddr := ⟨f.as, idxOf f.b, f.mod.extractLsb' 0 2, none⟩
def mord (f : Fields) : MOrd := ⟨f.ordF, f.scopeF, f.bit 6⟩
def optVF (f : Fields) : Option VNum := if f.bit 4 then some (f.mod.extractLsb' 5 7) else none
def vun (f : Fields) (t : Ty) : VUn := ⟨f.pred, t, f.bit 5, f.rm, f.la, vOf f.d, srcOf f.a⟩
def vbin (f : Fields) (t : Ty) : VBin := ⟨f.pred, t, f.bit 5, f.rm, f.la, vOf f.d, srcOf f.a, f.vb⟩
def vtri (f : Fields) (t : Ty) : VTri := ⟨f.pred, t, f.bit 5, f.rm, vOf f.d, srcOf f.a, srcOf f.b, srcOf (f.x.extractLsb' 0 8)⟩
def vcarry (f : Fields) : VCarry := ⟨f.pred, vOf f.d, kOf (f.x.extractLsb' 8 8), srcOf f.a, srcOf f.b, kOf (f.x.extractLsb' 0 8)⟩
def vcmpF (f : Fields) (t : Ty) (c : Cond) : VCmp := ⟨f.pred, t, c, kOf f.d, srcOf f.a, f.vb⟩
def vfield (f : Fields) (t : Ty) : VField := ⟨f.pred, t, vOf f.d, srcOf f.a, f.x.extractLsb' 0 6, f.x.extractLsb' 6 7⟩
def pmove (f : Fields) (t : Ty) : PMove := ⟨t, f.la, f.axisF, vOf f.d, vOf f.a, fOf f.b, f.imm⟩
def pcomp (f : Fields) (t : Ty) : PComp := ⟨t, f.la, f.axisF, vOf f.d, vOf f.a, fOf f.b⟩
def aop (f : Fields) : Option AtomOp := AtomOp.ofCode (f.mod.extractLsb' 8 4)
def aform (f : Fields) : AtomForm :=
  match f.len.toNat with
  | 0 => .noRet (vOf f.d)
  | 1 => .ret (if f.d.getLsbD 7 then none else some (vOf f.d)) (vOf (f.x.extractLsb' 0 8))
  | _ => .cas (vOf f.d) (kOf (f.x.extractLsb' 8 8)) (vOf (f.x.extractLsb' 0 8))
def cmdfl (f : Fields) : CmdFlags := ⟨f.ordF, f.scopeF, f.bit 10, f.bit 9⟩
def gather (f : Fields) (t : Ty) : Gather := ⟨t, f.cmdfl, f.bit 8, f.ds, f.as, f.bs, f.cs⟩

end Fields

/-- The instruction that the fields would be, by major and minor opcode (R136), before any check. -/
def candidateAt (f : Fields) (t : Ty) : Nat → Nat → Option Instr
  | 0x00, 0x00 => some (.nop (match f.len.toNat with
      | 0 => .w64
      | 1 => .w96
      | _ => .w128 (f.x.extractLsb' 40 24)))
  | 0x01, 0x00 => some (.bra f.imm (f.bit 3) f.term)
  | 0x01, 0x01 => f.cond.map fun c => .bru c f.sgn f.as f.bs f.imm (f.bit 3) f.term
  | 0x01, 0x02 => some (.brz (f.bit 0) (kOf f.a) f.imm (f.bit 3) f.term)
  | 0x01, 0x03 => some (.loop f.ds f.imm (f.bit 3) f.term)
  | 0x02, 0x00 => some (.call f.ds f.b (if f.a.getLsbD 7 then .reg f.as else .off f.imm) f.term)
  | 0x02, 0x01 => some (.ret f.as f.term)
  | 0x02, 0x02 => some (.split (kOf f.a) f.imm f.term)
  | 0x02, 0x03 => some (.join f.imm f.term)
  | 0x02, 0x04 => some (.exit f.term)
  | 0x02, 0x05 => some (.yield f.term)
  | 0x03, 0x00 => some (.trap f.b f.term)
  | 0x03, 0x01 => some (.trapret (if f.a.getLsbD 7 then some f.as else none) f.term)
  | 0x03, 0x02 => some (.halt f.term)
  | 0x03, 0x08 => (SysReg.ofCode f.mod).map fun r =>
      .sread (if f.d.getLsbD 7 then .sca f.ds else .vec (vOf f.d)) r f.pred
  | 0x03, 0x09 => (SysReg.ofCode f.mod).map fun r => match r with
      | .bankmode => .swriteBankmode f.as
      | .colways => .swriteColways f.as
      | .versionbudget => .swriteVersionbudget f.as
      | r => .swrite r f.as
  | 0x03, 0x10 => some (.tlbinv (f.bit 4) f.str f.as f.bs)
  | 0x03, 0x11 => some (.icinv (f.bit 4) f.as f.bs)
  | 0x04, 0x00 => some (.kmov (kOf f.d) (kOf f.a))
  | 0x04, 0x01 => some (.kand (kOf f.d) (kOf f.a) (kOf f.b))
  | 0x04, 0x02 => some (.kor (kOf f.d) (kOf f.a) (kOf f.b))
  | 0x04, 0x03 => some (.kxor (kOf f.d) (kOf f.a) (kOf f.b))
  | 0x04, 0x04 => some (.kandn (kOf f.d) (kOf f.a) (kOf f.b))
  | 0x04, 0x05 => some (.knot (kOf f.d) (kOf f.a))
  | 0x04, 0x06 => some (.kpop f.ds (kOf f.a))
  | 0x04, 0x07 => some (.kfirst f.ds (kOf f.a))
  | 0x04, 0x08 => some (.kset (kOf f.d) f.imm)
  | 0x04, 0x09 => some (.kget f.ds (kOf f.a) f.b)
  | 0x04, 0x0A => some (.ksave f.ds (kOf f.a))
  | 0x04, 0x0B => some (.krest (kOf f.d) f.as)
  | 0x04, 0x0C => some (.setexec (vOf f.a))
  | 0x07, 0x00 => some (.sli f.ds f.x)
  | 0x08, 0x00 => some (.vadd (f.vbin t))
  | 0x08, 0x01 => some (.vsub (f.vbin t))
  | 0x08, 0x02 => some (.vmul (f.vbin t))
  | 0x08, 0x03 => some (.vmulh (f.vbin t))
  | 0x08, 0x04 => some (.vmad (f.vtri t))
  | 0x08, 0x05 => some (.vaddc f.vcarry)
  | 0x08, 0x06 => some (.vsubb f.vcarry)
  | 0x08, 0x07 => some (.vmin (f.vbin t))
  | 0x08, 0x08 => some (.vmax (f.vbin t))
  | 0x08, 0x09 => some (.vabs (f.vun t))
  | 0x08, 0x0A => some (.vneg (f.vun t))
  | 0x08, 0x0B => some (.vsat (f.vbin t))
  | 0x08, 0x0C => some (.vdot4 (f.vtri t))
  | 0x08, 0x0D => some (.vclz (f.vun t))
  | 0x08, 0x0E => some (.vpopc (f.vun t))
  | 0x09, 0x00 => some (.vand (f.vbin t))
  | 0x09, 0x01 => some (.vor (f.vbin t))
  | 0x09, 0x02 => some (.vxor (f.vbin t))
  | 0x09, 0x03 => some (.vnot (f.vun t))
  | 0x09, 0x04 => some (.vshl (f.vbin t))
  | 0x09, 0x05 => some (.vshr (f.vbin t))
  | 0x09, 0x06 => some (.vsra (f.vbin t))
  | 0x09, 0x07 => some (.vbfx (f.vfield t))
  | 0x09, 0x08 => some (.vbfi (f.vfield t))
  | 0x0A, 0x00 => some (.vsel f.pred t (vOf f.d) (srcOf f.a) (srcOf f.b) (kOf (f.x.extractLsb' 0 8)))
  | 0x0A, 0x01 => f.cond.map fun c => .vcmp (f.vcmpF t c)
  | 0x0A, 0x02 => some (.vmov (f.vun t))
  | 0x0A, 0x03 => some (.vli f.pred (vOf f.d) f.imm)
  | 0x0A, 0x04 => some (.vmovs t f.ds (srcOf f.a) f.b)
  | 0x0C, 0x00 => some (.fadd (f.vbin t))
  | 0x0C, 0x01 => some (.fsub (f.vbin t))
  | 0x0C, 0x02 => some (.fmul (f.vbin t))
  | 0x0C, 0x03 => some (.ffma (f.vtri t))
  | 0x0C, 0x04 => some (.fmin (f.vbin t))
  | 0x0C, 0x05 => some (.fmax (f.vbin t))
  | 0x0D, 0x00 => some (.fabs (f.vun t))
  | 0x0D, 0x01 => some (.fneg (f.vun t))
  | 0x0D, 0x02 => some (.fclass (f.vun t))
  | 0x0D, 0x03 => some (.ffloor (f.vun t))
  | 0x0D, 0x04 => some (.frint (f.vun t))
  | 0x0D, 0x05 => some (.fscale (f.vbin t))
  | 0x0E, 0x00 => f.cond.map fun c => .fcmp (f.vcmpF t c)
  | 0x10, 0x00 => (Ty.ofCode (f.mod.extractLsb' 6 5)).map fun sy => .cvt f.pred t sy (f.bit 5) (vOf f.d) (srcOf f.a)
  | 0x10, 0x01 => some (.pack t (vOf f.d) (srcOf f.a) f.b)
  | 0x10, 0x02 => some (.unpack t (vOf f.d) (srcOf f.a) f.b)
  | 0x10, 0x03 => some (.ctag t f.ds (srcOf f.a))
  | 0x11, 0x00 => some (.fdiv (f.vbin t))
  | 0x11, 0x01 => some (.fsqrt (f.vun t))
  | 0x11, 0x02 => some (.frcp (f.vun t))
  | 0x11, 0x03 => some (.frsq (f.vun t))
  | 0x11, 0x04 => some (.fexp2 (f.vun t))
  | 0x11, 0x05 => some (.flog2 (f.vun t))
  | 0x12, 0x00 => some (.foldset (fOf f.d) f.imm)
  | 0x12, 0x01 => some (.refold t f.la (vOf f.d) (vOf f.a) (fOf f.b) (f.mod.extractLsb' 2 3))
  | 0x12, 0x02 => some (.pshift (f.pmove t))
  | 0x12, 0x03 => some (.prot (f.pmove t))
  | 0x12, 0x04 => some (.pspread (f.pcomp t))
  | 0x12, 0x05 => (f.redop 2).map fun op => .pfold (f.pcomp t) op
  | 0x12, 0x06 => (f.redop 2).map fun op => .pscan (f.pcomp t) op (f.mod.extractLsb' 5 4)
  | 0x12, 0x07 => some (.pgath (f.pcomp t) (f.mod.extractLsb' 5 7))
  | 0x12, 0x08 => some (.ptrans t f.la (vOf f.d) (vOf f.a) (fOf f.b))
  | 0x14, 0x00 => (f.redop 0).map fun op =>
      .vote f.pred op t f.ds (srcOf f.a) f.optVF (if f.bit 3 then some f.b else none)
  | 0x14, 0x01 => some (.regroup f.ds f.b)
  | 0x15, 0x00 => some (.ld f.pred f.la t f.mord (vOf f.d) f.maddr)
  | 0x15, 0x01 => if f.bit 7 then some (.stCnt f.pred t f.ordF f.scopeF f.maddr0 (dataOf f.d) f.cs)
      else some (.st f.pred t f.mord f.maddr (dataOf f.d))
  | 0x15, 0x02 => some (.ldc f.la t f.mord f.ds f.maddr)
  | 0x15, 0x03 => some (.pref f.pred f.maddr)
  | 0x16, 0x00 => some (.lds f.pred f.la t (vOf f.d) f.maddr)
  | 0x16, 0x01 => some (.sts f.pred t f.maddr (dataOf f.d))
  | 0x16, 0x02 => some (.pld f.la t (vOf f.d) f.as f.disp (fOf f.b))
  | 0x16, 0x03 => some (.pst t f.as f.disp (vOf f.d) (fOf f.b))
  | 0x18, 0x00 => f.aop.map fun op => .atom f.pred f.la op t f.ordF f.scopeF f.maddr0 f.aform
  | 0x18, 0x01 => f.aop.map fun op => .atoms f.pred f.la op t f.maddr0 f.aform
  | 0x19, 0x00 => some (.fence f.ordF f.scopeF (f.bit 8))
  | 0x1A, 0x00 => some (.mmap f.str (mOf f.d) f.imm)
  | 0x1A, 0x01 => some (.mldb f.str (f.bit 10) f.ds f.as f.bs f.imm)
  | 0x1A, 0x02 => some (.mzero f.str (f.bit 2) (zOf f.d))
  | 0x1A, 0x03 => some (.mldz f.str (f.bit 2) (f.bit 7) (zOf f.d) f.as f.imm)
  | 0x1A, 0x04 => some (.mstz f.str (f.bit 7) t f.as f.imm (zOf f.d))
  | 0x1B, 0x00 => some (.mma f.str (f.bit 2) t (zOf f.d) (mOf f.a) (mOf f.b) f.imm)
  | 0x1B, 0x01 => some (.mscale f.str (f.bit 2) t (zOf f.d) (zOf f.a) f.imm (f.x.extractLsb' 32 32))
  | 0x1C, 0x00 => some (.mcommit f.str (zOf f.d) (f.mod.extractLsb' 3 4))
  | 0x1C, 0x01 => some (.mdiscard f.str (zOf f.d) (f.mod.extractLsb' 3 4))
  | 0x1E, 0x00 => some (.mcnt f.str t (Bank.ofCode f.d) (mOf f.a) (mOf f.b) f.imm (f.mod.extractLsb' 8 2))
  | 0x1E, 0x01 => some (.mmerge f.str (Bank.ofCode f.a))
  | 0x1E, 0x02 => some (.mdrain f.str (f.mod.extractLsb' 8 2) (Bank.ofCode f.a)
      (if f.bit 10 then .scratch f.ds f.imm else .tile (zOf f.d)))
  | 0x1F, 0x00 => some (.cpy f.cmdfl (if f.len = 1 then .linear f.ds f.as f.imm else .tensor f.ds f.as f.cs (f.bit 7)))
  | 0x1F, 0x01 => some (.gath (f.gather t))
  | 0x1F, 0x02 => some (.scat (f.gather t))
  | 0x1F, 0x03 => some (.cpyq f.ds f.b)
  | 0x20, 0x00 => some .bar
  | 0x20, 0x01 => some (.barn (f.bit 7) (if f.bit 9 then some f.ds else none) f.b (f.mod.extractLsb' 0 7)
      (if f.bit 8 then some f.as else none))
  | 0x20, 0x02 => some (.gbar f.scopeF f.b f.optVF)
  | 0x20, 0x03 => some (.boinit f.scopeF f.as f.imm)
  | 0x20, 0x04 => some (.boarr f.ordF f.scopeF f.as f.b)
  | 0x20, 0x05 => some (.bowait f.ordF f.scopeF f.as f.bs f.imm)
  | 0x21, 0x00 => some (.xsend (f.bit 9) f.ds f.as f.bs f.imm)
  | 0x21, 0x01 => some (.xpost (f.bit 10) f.ds f.as f.bs f.imm)
  | 0x21, 0x02 => some (.xprobe (f.bit 7) f.ds f.as)
  | 0x21, 0x03 => some (.xcancel f.ds f.as)
  | 0x22, 0x00 => some (.coll f.ordF f.scopeF f.as f.bs f.imm)
  | 0x22, 0x01 => some (.waitchunk f.ordF f.scopeF f.as f.imm)
  | 0x23, 0x00 => some (.launch f.ds f.as f.bs)
  | 0x23, 0x01 => some (.qpush f.ds f.as f.bs)
  | 0x23, 0x02 => some (.qpop f.ds f.as f.bs)
  | 0x24, 0x00 => some (.fork (Engine.ofCode f.str) f.ds f.imm)
  | 0x24, 0x01 => some (.rdv f.as)
  | 0x25, 0x00 => some (.ctxkill f.ds f.as)
  | 0x25, 0x01 => some (.ctxstart f.ds f.as f.bs)
  | 0x25, 0x02 => some (.reclaim f.ds f.as)
  | 0x26, 0x00 => some (.patch f.ds f.as)
  | _, _ => none

/-- The scalar instructions of majors 0x05 and 0x06 (R162). -/
def candidateS (f : Fields) : Nat → Option Instr
  | 0x00 => some (.sadd f.ds f.as f.sb)
  | 0x01 => some (.ssub f.ds f.as f.sb)
  | 0x02 => some (.smul f.ds f.as f.sb)
  | 0x03 => some (.smulh f.sgn f.ds f.as f.sb)
  | 0x04 => some (.smad f.ds f.as f.bs f.cs)
  | 0x05 => some (.sdiv f.sgn f.ds f.as f.sb)
  | 0x06 => some (.srem f.sgn f.ds f.as f.sb)
  | 0x07 => some (.sand f.ds f.as f.sb)
  | 0x08 => some (.sor f.ds f.as f.sb)
  | 0x09 => some (.sxor f.ds f.as f.sb)
  | 0x0A => some (.sshl f.ds f.as f.sb)
  | 0x0B => some (.sshr f.ds f.as f.sb)
  | 0x0C => some (.ssra f.ds f.as f.sb)
  | 0x0D => some (.smin f.sgn f.ds f.as f.sb)
  | 0x0E => some (.smax f.sgn f.ds f.as f.sb)
  | 0x0F => f.cond.map fun c => .scmp c f.sgn f.ds f.as f.sb
  | 0x10 => some (.ssel f.ds f.as f.bs f.cs)
  | 0x11 => some (.smov f.ds f.as)
  | 0x12 => some (.sbfx f.sgn f.ds f.as (f.x.extractLsb' 0 6) (f.x.extractLsb' 6 7))
  | 0x13 => some (.spopc f.ds f.as)
  | 0x14 => some (.sclz f.ds f.as)
  | 0x15 => some (.saddr f.ds f.as f.bs f.str f.imm)
  | _ => none

/-- The instruction that the fields would be, before any check. -/
def candidate (f : Fields) : Option Instr :=
  if f.major = 5 ∨ f.major = 6 then candidateS f f.minor.toNat
  else (Ty.ofCode f.ty).bind fun t => candidateAt f t f.major.toNat f.minor.toNat

/-- Whether an opcode is privileged whatever its operands: majors 0x25 to 0x27, TLBINV and ICINV, and SWRITE of a register that
only a privileged wave may write (R137, R146, R165). -/
def privOpcode (f : Fields) : Bool :=
  (decide (0x25 ≤ f.major.toNat) && decide (f.major.toNat ≤ 0x27)) || (decide (f.major = 3) && decide (0x10 ≤ f.minor.toNat))
    || (decide (f.major = 3) && decide (f.minor = 9) && (decide (f.mod = SysReg.bankmode.code) || decide (f.mod = SysReg.govbudget.code)
      || decide (f.mod = SysReg.govstall.code)))

/-- A dictionary word (R129). -/
def dictOf (w : InstrWord) : Instr :=
  .dictionaryWord (w.extractLsb' 2 2) (w.extractLsb' 4 12) (w.extractLsb' 16 16) (w.extractLsb' 32 16) (w.extractLsb' 48 16)

/-- Decode one word, with zeros above its length: total, rejecting by name (R137). -/
def decode (w : InstrWord) : Except Reject Instr :=
  let f := Fields.ofWord w
  if f.len = 3 then .ok (dictOf w)
  else if isReserved f.major.toNat f.minor.toNat then .ok (.reservedEncoding f.major f.minor)
  else match candidate f with
    | none => .error (.illegal (privOpcode f))
    | some i => if i.wf && decide (fieldsOf i = f) then .ok i else .error (.illegal (privOpcode f))

/-- The bytes of a word, by its length code (R118). -/
def wordBytes (w : InstrWord) : Nat :=
  match (w.extractLsb' 0 2).toNat with
  | 1 => 12
  | 2 => 16
  | _ => 8

/-- The word of an instruction. -/
def encode (i : Instr) : InstrWord := (fieldsOf i).toWord

/-- The decoder on a table word: the bits above `nbits` are zero, and those above the instruction's length are not its
own (R118). A word that crosses no fetch boundary is meant: the address is not the decoder's. -/
def decodeTableWord (nbits w : Nat) : Option Instr :=
  let v : InstrWord := BitVec.ofNat 128 (w % 2 ^ nbits)
  match decode (v &&& BitVec.ofNat 128 (2 ^ (8 * wordBytes v) - 1)) with
  | .ok i => some i
  | .error _ => none

end Sys2Proof
end

