-- ==== Sys2Proof/Machine/Tbl.lean ====
section
/-! DEFINITION. Sparse tables: a list of (key, value) pairs with rising keys. `tget`, `tset`, `tdel` read, write and
remove an entry; `cget` and `cset` use a default value for what is not listed and never list that value, so that equal
contents are equal data. Every memory and register file of the machine is held so. -/

namespace Sys2Proof.Machine

/-- A table from Nat keys to values, keys strictly rising. -/
abbrev Tbl (α : Type) := List (Nat × α)

/-- The value at a key, if listed. -/
def tget {α : Type} : Tbl α → Nat → Option α
  | [], _ => none
  | (k, v) :: t, i => if k = i then some v else tget t i

/-- Write the value at a key, keeping the keys rising. -/
def tset {α : Type} : Tbl α → Nat → α → Tbl α
  | [], i, x => [(i, x)]
  | (k, v) :: t, i, x =>
    if i < k then (i, x) :: (k, v) :: t
    else if k = i then (i, x) :: t
    else (k, v) :: tset t i x

/-- Remove the entry at a key. -/
def tdel {α : Type} : Tbl α → Nat → Tbl α
  | [], _ => []
  | (k, v) :: t, i => if k = i then tdel t i else (k, v) :: tdel t i

/-- Apply a function to the value at a key, if listed. -/
def tmod {α : Type} : Tbl α → Nat → (α → α) → Tbl α
  | [], _, _ => []
  | (k, v) :: t, i, f => if k = i then (k, f v) :: t else (k, v) :: tmod t i f

/-- Apply a function to every value. -/
def tmapv {α : Type} : Tbl α → (α → α) → Tbl α
  | [], _ => []
  | (k, v) :: t, f => (k, f v) :: tmapv t f

/-- The least key from `from` on that is not listed, tried `fuel` times. -/
def tfree {α : Type} (t : Tbl α) : Nat → Nat → Nat
  | 0, n => n
  | fuel + 1, n => if (tget t n).isSome then tfree t fuel (n + 1) else n

/-- Whether all keys of the list lie above `lo` and rise. -/
def trising {α : Type} : Nat → Tbl α → Bool
  | _, [] => true
  | lo, (k, _) :: t => decide (lo < k) && trising k t

/-- The canonical form of a table: keys strictly rising. -/
def twf {α : Type} : Tbl α → Bool
  | [] => true
  | (k, _) :: t => trising k t

/-- Read with a default. -/
def cget {α : Type} (d : α) (t : Tbl α) (i : Nat) : α := (tget t i).getD d

/-- Write with a default: the default is never listed. -/
def cset {α : Type} [DecidableEq α] (d : α) (t : Tbl α) (i : Nat) (x : α) : Tbl α :=
  if x = d then tdel t i else tset t i x

/-- The canonical form of a table with a default: keys rising and no entry equal to the default. -/
def cwf {α : Type} [DecidableEq α] (d : α) (t : Tbl α) : Bool :=
  twf t && t.all fun e => decide (e.2 ≠ d)

end Sys2Proof.Machine
end

