-- ==== Sys2Proof/Machine/State.lean ====
section
/-! DEFINITION. The state of one package, as plain data: every register, memory, queue and table the manual names, the
work in flight, and the agenda that says which party moves next. Beside it the reasons a step stops, and the state after
reset (R262, R263, R358). -/

namespace Sys2Proof.Machine

/-- Bytes by address, canonical: what is not listed reads as zero (log 1). -/
abbrev Mem := List Host.Cell

/-- A context tag: slot and incarnation (R264). -/
structure Tag where
  slot : Nat
  inc : Nat
  deriving DecidableEq, Repr

/-- A party that issues instructions: a slot of a wave, or a sequencer stream of a block (R22, R31). A block is named by
32 times its core plus its bind slot (R284). -/
inductive Issuer where
  | slot (block wave slot : Nat)
  | stream (block : Nat) (e : Engine) (ix : Nat)
  deriving DecidableEq, Repr

/-- The word being issued: its bits, its bytes, its address, and for a code of a dictionary word whether it is the last
code (R118, R120, R130). -/
structure IR where
  word : InstrWord
  len : Nat
  pc : Pc
  dict : Option Bool
  deriving DecidableEq, Repr

/-- What happens next, as plain data (guide: the step is one deterministic function of the state). -/
inductive AgendaItem where
  | event (i : Instr)
  | issue (w : Issuer)
  | elapse (clocks : Nat)
  deriving DecidableEq, Repr

/-- One lane's access: address, data to store, compare value of a cas (R204, R214). -/
structure LaneReq where
  lane : Nat
  addr : Nat
  data : Nat
  cmp : Nat
  deriving DecidableEq, Repr

/-- The kinds of access. -/
inductive AccKind where
  | load | store | atomic (op : AtomOp)
  deriving DecidableEq, Repr

/-- A memory access of one instruction after its operands were read: all that a replay needs (R49). -/
structure Access where
  kind : AccKind
  scratch : Bool
  ty : Ty
  lanes : List LaneReq
  ord : Ord
  scope : Scope
  strong : Bool
  vd : Option VNum
  sd : Option SReg
  kd : Option KNum
  cnt : Option Nat
  pc : Pc
  deriving DecidableEq, Repr

/-- A long-latency instruction between issue and completion (R127, R128): an access still to be performed, or register
values still to be written under a lane mask. -/
inductive FlightOp where
  | mem (a : Access)
  | regs (w : List (VNum × Word32 × VReg))
  deriving DecidableEq, Repr

/-- `left` is how many more instructions of the slot may issue in its window; `younger` how many have retired. -/
structure Flight where
  op : FlightOp
  left : Nat
  younger : Nat
  pc : Pc
  deriving DecidableEq, Repr

/-- What the replay of a stopped slot does (R49, R158): perform the access, or issue the instruction again without a
second signature fold. -/
inductive Replay where
  | none
  /-- Perform the access; `skid` younger instructions had retired when it first stopped the slot (R49, R324). -/
  | acc (a : Access) (skid : Nat)
  | again
  deriving DecidableEq, Repr

/-- What a slot that is blocked waits for (R37): a stream to end (R222), a posted receive (R244), scratch bytes that a command
holds (R116), its turn at the patch engine and the parking of what runs in its range (R168, R302), or the acknowledgements of its writes
to peers (R167), the other slot of its wave at a COLL (R45). -/
inductive Wake where
  | stream (block : Nat) (e : Engine) (ix gen : Nat)
  | post (core ix gen : Nat)
  | scratch (a : Access)
  | patch
  | acks
  | coll
  deriving DecidableEq, Repr

/-- What a slot is doing. -/
inductive SlotStatus where
  /-- Not live: slot 1 of an unsplit wave, or a slot that ended. -/
  | off
  | run
  /-- Waiting at a JOIN with its target (R154). -/
  | join (x : Pc)
  /-- Exited while the other slot runs (R155). -/
  | exited
  /-- Arrived at BAR (R237). -/
  | bar
  /-- Issued a BARN and waits for phase `p` of barrier `n`; `held` is a second arrival (R238). -/
  | barn (n : Nat) (p : Bool) (held : Bool)
  /-- Issued a GBAR of group `g` (R239). -/
  | gbar (g : Nat)
  /-- Issued a VOTE (R200); `sgn` says how the result extends. -/
  | vote (g : Nat) (d : SReg) (sgn : Bool)
  /-- Issued a REGROUP (R202). -/
  | regroup (g : Nat) (d : SReg)
  /-- Issued a cross-wave plane instruction (R82). -/
  | plane
  /-- Registered as a waiter of a barrier object (R311). -/
  | obj
  /-- Stalled with its wave out of the active set; its instruction issues again once it need not wait (R37). -/
  | blocked (w : Wake)
  /-- Waits for responses of a peer or of the host (R256). -/
  | reply
  /-- Parked on a fault entry (R323): stook and entry. -/
  | parked (stook ix : Nat)
  /-- Parked on the lazy binding entry at this address (R301). -/
  | binding (entry : Nat)
  /-- Waits for the context table (R262, R275). -/
  | ctxwait (slot : Nat) (op : Nat) (d : SReg)
  /-- Stopped by a trap or fault with no handler (R158). -/
  | stopped
  deriving DecidableEq, Repr

/-- The hidden frame of a trap (R158). -/
structure Frame where
  resume : Pc
  k0 : Word32
  sig : BitVec 32
  emask : Word32
  replay : Replay
  skid : Nat
  deriving DecidableEq, Repr

/-- One program-counter slot (R22, R26, R132, R158). -/
structure Slot where
  status : SlotStatus
  pc : Pc
  k0 : Word32
  sig : BitVec 32
  emask : Word32
  cause : Word64
  faultPc : Pc
  skid : Nat
  inHandler : Bool
  frame : Frame
  /-- Private scalar copies while the wave is split (R26). -/
  priv : Tbl Word64
  /-- The word last issued, for a wait that retires later. -/
  ir : IR
  /-- A code of a dictionary word, expanded and not yet issued, and whether it is the last (R130). -/
  expand : Option (InstrWord × Bool)
  flights : List Flight
  /-- Stores held behind earlier loads, oldest first, as they retired (R253). -/
  held : List Flight
  /-- Scalars an engine fills later (R218). -/
  pending : List SReg
  /-- What the slot replays when its fault is resolved (R49). -/
  replay : Replay
  /-- Where the slot goes on after the replay (R49). -/
  resume : Pc
  /-- The next issue folds no signature: it repeats an instruction that folded already (R134). -/
  noFold : Bool
  /-- Requests sent to peers or the host that are not answered: request number and lane (R256). -/
  asks : List (Nat × Nat)
  /-- Answers received, by request number. -/
  answers : Tbl Nat
  deriving DecidableEq, Repr

/-- An entry of the divergence stack (R24). -/
structure DEntry where
  emask : Word32
  mask : Word32
  pc : Pc
  deriving DecidableEq, Repr

/-- What one slot gave at its BARN (R238). -/
structure BarnIssue where
  slot : Nat
  n : Nat
  count : Nat
  dlv : Option Word64
  rcv : Option SReg
  arv : Bool
  deriving DecidableEq, Repr

/-- What a plane instruction does once its operands are read (R86, R196): the steps of a schedule entry, run once over the
whole plane or once a depth, or one of the computing instructions. -/
inductive PlaneOp where
  | sched (once : Bool) (steps : List (BitVec 128))
  | spread (axis : Axis)
  | fold (axis : Axis) (op : RedOp)
  | scan (axis : Axis) (op : RedOp) (seg : Word32)
  | gath (axis : Axis) (ix : List VReg)
  deriving DecidableEq, Repr

/-- A cross-wave plane instruction as one wave issued it: what must agree, and its sources (R82, R83, R199); `gy` is GY of
its fold. -/
structure PlaneIssue where
  key : List Nat
  gy : Nat
  op : PlaneOp
  vd : Nat
  fold : BitVec 128
  fold2 : BitVec 128
  src : List VReg
  deriving DecidableEq, Repr

/-- What one slot gave at its GBAR, VOTE or REGROUP, until its wave contributes (R45): `kind` 0, 1 or 2, the group (256 for
none), M, and for each participating lane its value and its membership mask. -/
structure GIssue where
  slot : Nat
  kind : Nat
  g : Nat
  m : Bool
  lanes : List (Nat × Word32 × Word32)
  scope : Scope
  op : RedOp
  ty : Ty
  deriving DecidableEq, Repr

/-- One wave (R21 to R27, R36 to R39, R113). -/
structure Wave where
  live : Bool
  s0 : Slot
  s1 : Slot
  sregs : Tbl Word64
  kregs : Tbl Word32
  folds : Tbl (BitVec 128)
  part : Nat
  /-- In the active set of its partition (R36, R37). -/
  active : Bool
  /-- Slow-file run: first register and length (R36, R284). -/
  runBase : Nat
  runLen : Nat
  /-- Stack position of the first register held in the run; those below are spilled (R39). -/
  bottom : Nat
  /-- Stack position of the window's v0 and the window size (R38). -/
  base : Nat
  win : Nat
  /-- Stack positions of the bases of the windows below the present one, newest first (R39). -/
  wins : List Nat
  openCalls : Nat
  /-- Bytes used of the spill area, and the records in it: offset, first stack position and register count (R39). -/
  spillTop : Nat
  spills : List (Nat × Nat × Nat)
  /-- On-chip divergence entries, newest first, and the number in memory (R24). -/
  dstack : List DEntry
  dmem : Nat
  /-- For each entry, on chip and in memory, newest first: whether a JOIN left it, so that its side goes on at that JOIN's target
  (R133, R155). -/
  dcont : List Bool
  split : Bool
  dom0 : Word32
  dom1 : Word32
  downer : Nat
  presplit : Word32
  uconf : Bool
  /-- READYMAP's CLASS and WORD (R165). -/
  rmClass : Nat
  rmWord : Nat
  halted : Bool
  barIssued : List Nat
  barn : List BarnIssue
  plane : Option PlaneIssue
  gslots : List GIssue
  /-- Group number and member index (R305). -/
  members : List (Nat × Nat)
  deriving DecidableEq, Repr

/-- A branch of the matrix sequencer whose scalars are not delivered: its condition, the side followed, and both targets; `dec`
says that it is a LOOP, which takes one from its first scalar before the test (R35, R148). -/
structure Predicted where
  dec : Bool
  cond : Cond
  sgn : Bool
  a : SReg
  b : SReg
  taken : Bool
  takenPc : Pc
  fallPc : Pc
  deriving DecidableEq, Repr

/-- A sequencer stream (R31, R220, R221). -/
structure Stream where
  eng : Engine
  ix : Nat
  /-- The INDEX in its handle: the context it took at FORK (R221, R316). -/
  hix : Nat
  /-- Generation of the sequencer context that this stream runs in (R221). -/
  gen : Nat
  pc : Pc
  sregs : Tbl Word64
  wave : Nat
  status : SlotStatus
  pending : List SReg
  exited : Bool
  ir : IR
  /-- A code of a dictionary word, expanded and not yet issued, and whether it is the last (R130). -/
  expand : Option (InstrWord × Bool)
  cause : Word64
  faultPc : Pc
  replay : Replay
  asks : List (Nat × Nat)
  answers : Tbl Nat
  barn : Option BarnIssue
  predicted : Option Predicted
  deriving DecidableEq, Repr

/-- A numbered barrier (R309, R315). -/
structure NBar where
  parity : Bool
  warr : Word32
  sarr : List (Engine × Nat)
  count : Nat
  value : Word64
  dwave : Option Nat
  held : List Issuer
  /-- Registers that receive the phase's value (R238): who, which register. -/
  rcv : List (Issuer × SReg)
  deriving DecidableEq, Repr

/-- An entry of the range scoreboard (R115). -/
structure SbEntry where
  cmd : Nat
  lo : Nat
  len : Nat
  dst : Bool
  released : Nat
  deriving DecidableEq, Repr

/-- An operand map (R226). -/
structure MapRec where
  base : Nat
  lstride : Nat
  kstride : Nat
  ty : Ty
  bways : Bool
  roleB : Bool
  cursor : Nat
  shadow : Nat
  deriving DecidableEq, Repr

/-- A matrix or counting product that still has steps to do (R34, R72). -/
structure MatOp where
  spec : Bool
  cnt : Bool
  ty : Ty
  z : Nat
  ma : MapRec
  mb : MapRec
  steps : Nat
  done : Nat
  set : Nat
  pc : Pc
  deriving DecidableEq, Repr

/-- A counting table set (R69): entry 16a+b is the class, absent for NONE; class values; exponent. -/
structure TableSet where
  cls : List (Option Nat)
  vals : List Int
  exp : Int
  deriving DecidableEq, Repr

/-- The matrix sequencer context of a block (R30, R68, R225). -/
structure Mat where
  /-- Tiles and their shadows: cells 32 i + j that are not zero. -/
  z : Tbl (Tbl Word32)
  zs : Tbl (Tbl Word32)
  /-- Banks: cells, and in each the counters that are not zero, by class. -/
  bank : Tbl (Tbl (Tbl Nat))
  depth : List Nat
  reserved : List Nat
  maps : Tbl MapRec
  sets : Tbl TableSet
  queue0 : List MatOp
  queue1 : List MatOp
  queue2 : List MatOp
  queue3 : List MatOp
  deriving DecidableEq, Repr

/-- The kernel header as the firmware copied it at binding (R288, R289). -/
structure Kernel where
  addr : Nat
  fpxen : BitVec 8
  column : Bool
  matrix : Bool
  coresident : Bool
  idempotent : Bool
  sigauto : Bool
  blockX : Nat
  blockY : Nat
  regs : Nat
  csetmask : Nat
  shared : Nat
  intervals : Nat
  ndict : Nat
  nfold : Nat
  nplan : Nat
  nbind : Nat
  fifos : Nat
  text : Nat
  textLen : Nat
  entry : Nat
  stubOff : Nat
  spareOff : Nat
  handler : Nat
  dict : Nat
  foldtab : Nat
  plantab : Nat
  csets : Nat
  bindtab : Nat
  odrax : Nat
  deriving DecidableEq, Repr

/-- A unit whose old contents were copied to the snapshot store in the current interval (R343). -/
inductive SnapUnit where
  | vreg (wave n : Nat) | scratchLine (n : Nat) | columnLine (n : Nat) | tile (n : Nat) | shadow (n : Nat)
  | bank (n : Nat)
  deriving DecidableEq, Repr

/-- One dimension set of a tensor copy side (R89, R90), read at issue. -/
structure Tensor where
  rank : Nat
  ty : Ty
  packed : Bool
  owner : Option Nat
  extent : List Nat
  stride : List Int
  block : List Nat
  base : Nat
  deriving DecidableEq, Repr

/-- A unit of a tensor copy: the chunk it belongs to, its first destination and source element, and how many elements
along dimension 0 (R91, R233). -/
structure TUnit where
  chunk : Nat
  d : List Nat
  a : List Nat
  n : Nat
  deriving DecidableEq, Repr

/-- A record of a tile body (R297): its operation, type, mode and axis, the places of its operands in the argument block, and
REF. -/
structure TileRec where
  op : Nat
  ty : Ty
  mode : Nat
  axis : Nat
  d : Nat
  a : Nat
  b : Nat
  c : Nat
  ref : Nat
  deriving DecidableEq, Repr

/-- What a stretch of translated code does for a tile body: an operation whole, or, around the code of the function of an
elementwise map, the elements of the next lanes in and out, by a count in a scalar; `back` is where the map's next round begins
(R297, log 6). -/
inductive TileWork where
  | op (r : TileRec)
  | mapIn (r : TileRec) (cnt : SReg)
  | mapOut (r : TileRec) (cnt : SReg) (back : Nat)
  deriving DecidableEq, Repr

/-- Where translated code of a tile operation stands: a context's addresses from `lo`, `len` bytes (log 6). -/
structure TileCode where
  tag : Tag
  lo : Nat
  len : Nat
  work : TileWork
  deriving DecidableEq, Repr

/-- What the command of a tile operation computes, element by element of its destination (R297). -/
inductive TileKind where
  | product | counted | scale | reduce (op : RedOp) | elemIn | elemOut
  deriving DecidableEq, Repr

/-- A tile operation with its operands, read when it begins: `set` is the table set of a counted product, `e0` the first element of
the lanes of a map. -/
structure TileJob where
  kind : TileKind
  ty : Ty
  axis : Nat
  d : Tensor
  a : Tensor
  b : Option Tensor
  c : Option Tensor
  set : Option TableSet
  e0 : Nat
  deriving DecidableEq, Repr

/-- What an engine command does (R233, R235); a tensor copy with its units in the order they are performed. -/
inductive CmdOp where
  | linear (d a len : Nat)
  | tensor (d a : Tensor) (tr inplace : Bool) (units : List TUnit)
  | gath (d a b n size : Nat)
  | scat (d a b n size : Nat)
  /-- The accesses of a collective (R337, R338). -/
  | coll
  /-- An operation of a tile body (R297). -/
  | tile (j : TileJob)
  deriving DecidableEq, Repr

/-- An engine command in flight (R232). `pos` counts bytes or elements done. -/
structure Cmd where
  core : Nat
  block : Nat
  who : Issuer
  tag : Tag
  op : CmdOp
  fl : CmdFlags
  scrI : Bool
  /-- Bytes of a linear copy or elements done, and their number. -/
  pos : Nat
  total : Nat
  acquired : Bool
  pc : Pc
  /-- The fault entry it waits on: stook and entry (R223, R323). -/
  fault : Option (Nat × Nat)
  stopped : Bool
  /-- Owner entries by block number, read before the first data read (R91). -/
  ownersD : Tbl (BitVec 128)
  ownersA : Tbl (BitVec 128)
  /-- Requests to peers that are not answered, and answers by sector. -/
  asks : List (Nat × Nat)
  answers : Tbl Nat
  deriving DecidableEq, Repr

/-- The snapshot of a block (R343): small state whole, larger state as it stood. -/
structure Snapshot where
  n : Nat
  waves : Tbl Wave
  vregs : List (Nat × List VReg)
  scratch : Mem
  column : Mem
  mat : Mat
  streams : List Stream
  nbars : Tbl NBar
  planeSet : Word32
  planeSeq : Nat
  fifos : Tbl (List (BitVec 128))
  cmds : Tbl Cmd
  sb : List SbEntry
  deriving DecidableEq, Repr

/-- Why a block is frozen (R223, R346, R348, R267). -/
inductive Freeze where
  | no | fault | watchdog | escalated
  deriving DecidableEq, Repr

/-- A bound block (R28 to R30, R284). -/
structure Block where
  tag : Tag
  grid : Nat
  blockId : Nat
  posX : Nat
  posY : Nat
  posZ : Nat
  priv : Bool
  kern : Kernel
  nwaves : Nat
  waves : Tbl Wave
  scratchBase : Nat
  columnRight : Bool
  matCtx : Option Nat
  mat : Mat
  fifoMask : BitVec 32
  fifos : Tbl (List (BitVec 128))
  hslot : Nat
  divBase : Nat
  divLen : Nat
  spillBase : Nat
  spillLen : Nat
  streams : List Stream
  nbars : Tbl NBar
  barArr : Word32
  closing : Bool
  interval : Nat
  planeSet : Word32
  planeSeq : Nat
  sb : List SbEntry
  versBudget : Nat
  /-- Uncommitted versions at the homes, by cell (R252). -/
  vers : Mem
  /-- Sectors that one store among the versions covers whole (R326). -/
  vclean : List Nat
  versLines : List Nat
  isOpen : Bool
  rolled : Bool
  snap : Option Snapshot
  touched : List SnapUnit
  frozen : Freeze
  /-- When its watchdog last restarted, and the interval it took up then, in ms (R348, R361). -/
  wdStart : Nat
  wdMs : Nat
  /-- A pre-emption under way (R46, R47). -/
  preempt : Option Preempt
  deriving DecidableEq, Repr

/-- A clean copy of a 64-byte sector in a core's cache ways (R97, R105, R251): its bytes as its home held them, whether they
are poisoned (R326), and the logical time of the core up to which its lease lets it be served. -/
structure CLine where
  data : BitVec 512
  poison : Bool
  lease : Nat
  deriving DecidableEq, Repr

/-- A weak store of a core that its home does not have yet (R106, R208, R217, R252): cell, bytes, the block whose uncommitted
mark it carries, whether it is still on the upward bus or stands dirty in the cache ways, and the poisoned sectors that it
completes the covering of (R326). -/
structure VWrite where
  addr : Nat
  data : List Byte
  block : Option Nat
  bus : Bool
  clean : List Nat
  deriving DecidableEq, Repr

/-- A line of 256 bytes at its home slice that holds written words (R105): the bytes it holds, by offset, the sectors filled
from the vault, the sectors that are dirty, and the 8-byte words written. -/
structure SLine where
  data : Tbl Byte
  valid : BitVec 4
  dirty : BitVec 4
  mask : BitVec 32
  deriving DecidableEq, Repr

/-- An entry of a translation cache (R321): the tag; none for one 64 KiB granule of a leaf, else the level at which the
entry was read; the part of the address it translates; the entry, and for a leaf whether its page lies in the view that PIN
names. -/
structure XEnt where
  tag : Tag
  lvl : Option Nat
  pre : Nat
  e : Word64
  whole : Bool
  deriving DecidableEq, Repr

/-- A bind record (R284). -/
structure BindRec where
  valid : Bool
  restore : Bool
  columnRight : Bool
  matrix : Bool
  tag : Tag
  blockId : Nat
  kern : Nat
  posX : Nat
  posY : Nat
  posZ : Nat
  nwaves : Nat
  win : Nat
  slowBase : Nat
  /-- Registers of the run, and bytes of the scratch allocation: what the firmware reserved with the record. -/
  slowLen : Nat
  shared : Nat
  scratchBase : Nat
  matCtx : Nat
  parts : BitVec 64
  divBase : Nat
  spillBase : Nat
  divLen : Nat
  spillLen : Nat
  fifoMask : BitVec 32
  grid : Nat
  deriving DecidableEq, Repr

/-- A message on its way or in an overflow queue (R109, R110). -/
structure Msg where
  send : Nat
  srcNode : Nat
  srcCore : Nat
  tag : Tag
  mtag : Nat
  dest : Nat
  job : Nat
  data : List Byte
  rid : Nat
  /-- Its age when it came into this package, and when that was (R270). -/
  age : Nat
  since : Nat
  rcvSlot : Nat
  deriving DecidableEq, Repr

/-- A receive (R110, R243): what it waits for, its buffer, the grid and BLOCKID of the block that issued it, its state (0 pending,
1 done), and the message it has taken while the buffer is not written. -/
structure Post where
  gen : Nat
  tag : Tag
  src : Option (Nat × Nat)
  mtag : Nat
  buf : Nat
  scr : Bool
  grid : Nat
  blockId : Nat
  state : Nat
  seq : Nat
  msg : Option Msg
  /-- The writes of the buffer that are on their way to a peer. -/
  rids : List Nat
  deriving DecidableEq, Repr

/-- A PATCH at the patch engine (R168, R302): who issued it and where, its range, its source, and the kernel whose dictionary table
it changes. -/
structure PatchRun where
  who : Issuer
  tag : Tag
  pc : Pc
  lo : Nat
  len : Nat
  src : Nat
  dict : Option Nat
  deriving DecidableEq, Repr

/-- A send that is not complete (R243). -/
structure Send where
  who : Issuer
  core : Nat
  d : SReg
  tag : Tag
  status : Option Nat
  deriving DecidableEq, Repr

/-- One core (R36, R93, R97, R110, R165, R287). -/
structure Core where
  bankMode : Word64
  colWays : Word64
  /-- A change of COLWAYS under way: the new value (R99). -/
  colChange : Option Word64
  store : Mem
  column : Mem
  cache : Tbl CLine
  /-- Stores that their homes do not have yet, oldest first (R205, R217, R252). -/
  wq : List VWrite
  /-- The core's logical time for weak loads (R251). -/
  time : Nat
  tlb : List XEnt
  icache : Tbl (BitVec 256)
  slow : Tbl VReg
  /-- The fast file: registers that waves of the active set have written, by place in the slow file (R36, R37). -/
  fast : Tbl VReg
  /-- Registers whose code word cannot be corrected, by place in the slow file: set from outside the machine (R342). -/
  bad : List Nat
  /-- Registers whose code word holds an error that a read corrects: set from outside the machine; and the core's count of
  corrected errors (R342). -/
  soft : List Nat
  corrected : Nat
  /-- Poisoned 64-byte sectors of the core store and of the column store: set from outside the machine (R326, R342). -/
  storeBad : List Nat
  columnBad : List Nat
  govBudget : Nat
  govStall : Nat
  /-- Since when an issue is held in this window: its clocks are not in `govStall` yet (R287). -/
  govHeld : Option Nat
  /-- The matrix issues that are held in this window: four times the block plus the stream (R287). -/
  govWho : List Nat
  govUsed : Nat
  govPrev : Nat
  govWindow : Nat
  /-- Posted receives by INDEX, and from 64 on those that took a queued message at once and were never posted (R110). -/
  posts : Tbl Post
  postGens : Tbl Nat
  postSeq : Nat
  ovf : List Msg
  quota : Tbl (Nat × Nat)
  msgovf : List Nat
  seqGens : Tbl Nat
  recs : Tbl BindRec
  pend0 : List Nat
  pend1 : List Nat
  pend2 : List Nat
  pend3 : List Nat
  deriving DecidableEq, Repr

/-- The states of a context slot (R262). -/
inductive CtxState where
  | free | starting | live | killing | reclaiming
  deriving DecidableEq, Repr

/-- The copy of a context record (R265). -/
structure CtxRec where
  priv : Bool
  link : Bool
  ptroot : Nat
  aperture : Nat
  queues : List Nat
  saveArea : Nat
  saveLen : Nat
  eventq : Nat
  policy : Nat
  peers : List Nat
  job : Nat
  deriving DecidableEq, Repr

/-- A context slot (R262 to R272). -/
structure Ctx where
  state : CtxState
  inc : Nat
  rcd : CtxRec
  withdrawn : Bool
  usedLink : Bool
  tk : Nat
  startedAt : Nat
  /-- Peers whose announcement is not acknowledged, and peers marked unreachable (R272). -/
  waitPeers : List Nat
  unreachable : List Nat
  watchdogMs : Nat
  /-- The issuing slot that waits for this slot's CTXSTART, and those that wait for its RECLAIM (R262). -/
  starter : Option Issuer
  reclaimers : List Issuer
  /-- Instructions that reached the table while the slot was starting, in the order of arrival: 0 CTXKILL, 1 CTXSTART, 2 RECLAIM
  (R262). -/
  queue : List (Issuer × Nat)
  /-- The queues that the last CTXSTART registered, the event queue among them: address of the header, and the cell where it lies
  (R272, R277). -/
  qcells : List (Nat × Nat)
  deriving DecidableEq, Repr

/-- A fault entry (R323) and what waits on it. -/
structure FaultEntry where
  granule : Nat
  faddr : Nat
  tag : Tag
  kinds : Nat
  cause : Nat
  waiters : Nat
  seq : Nat
  forwarded : Bool
  /-- When the firmware last could not forward it (R355). -/
  tried : Option Nat
  slots : List Issuer
  cmds : List Nat
  deriving DecidableEq, Repr

/-- A waiter of a barrier object at a home (R311, R312): the condition is a count to reach or a chunk bit. -/
structure Waiter where
  /-- When it last read the object at its home (R312). -/
  since : Nat
  who : Issuer
  tag : Tag
  cell : Nat
  peer : Option Nat
  target : Option Nat
  chunk : Nat
  slice : Nat
  acq : Bool
  scope : Scope
  /-- It holds no entry of its slice and polls (R312). -/
  polling : Bool
  deriving DecidableEq, Repr

/-- The increments of one counted store that are not yet at their object's home (R209). -/
structure CntArr where
  who : Issuer
  tag : Tag
  obj : Nat
  node : Option Nat
  n : Nat
  deriving DecidableEq, Repr

/-- A collective plan record (R335). -/
structure Plan where
  op : Nat
  red : Nat
  dtype : Nat
  nchunk : Nat
  chunk : Nat
  ranks : List (Nat × Nat)
  sw : Bool
  /-- Where each inner node of the tree is formed, in pre-order: a switch, or 0xFFFF (R335). -/
  locs : List Nat
  planid : Nat
  deriving DecidableEq, Repr

/-- A collective a core takes part in (R337 to R339). Its accesses to memory are those of the command of the same number. -/
structure Coll where
  who : Issuer
  /-- Who issued it, while the block is saved (R47). -/
  was : Issuer
  core : Nat
  block : Nat
  tag : Tag
  plan : Plan
  src : Nat
  dst : Nat
  rank : Nat
  epoch : Nat
  /-- Its barrier object: key and node of a peer that holds it. -/
  obj : Nat
  onode : Option Nat
  ord : Ord
  scope : Scope
  pc : Pc
  /-- Chunks to which this rank has contributed. -/
  sent : List Nat
  /-- Inner nodes that its unit has formed, or sent an abort for: chunk, and how many ranks the node holds (R338, R339). -/
  formed : List (Nat × Nat)
  /-- Chunks for which its unit, forming the root, sent an abort to the ranks (R339). -/
  gone : List Nat
  /-- Chunks whose result is written and whose bit is not set yet (R245). -/
  wrote : List Nat
  done : BitVec 64
  /-- Chunks ended by an abort (R339). -/
  abort : BitVec 64
  deriving DecidableEq, Repr

/-- A contribution, a result or an abort that has reached a core (R337 to R339): the output of the subtree of `node`, its first rank
and how many ranks it holds; none for a result. -/
structure Contrib where
  core : Nat
  planid : Nat
  epoch : Nat
  node : Option (Nat × Nat)
  chunk : Nat
  off : Nat
  data : List Byte
  abort : Bool
  deriving DecidableEq, Repr

/-- The tag that a rank registered when its COLL began (R339). -/
structure CollTag where
  planid : Nat
  epoch : Nat
  rank : Nat
  tag : Tag
  deriving DecidableEq, Repr

/-- A translation request of a lazy binding entry (R301). -/
structure LazyReq where
  entry : Nat
  tag : Tag
  kern : Kernel
  fn : Nat
  /-- Function record, bodies and cross-references as the translator read them, and that it has. -/
  input : Option (List (List Byte))
  started : Bool
  deriving DecidableEq, Repr

/-- A group of a grid (R303 to R306): its members, those that ended, the barrier phase being gathered, arrivals held for a
later phase, contributions to the vote and to the regrouping being matched. -/
structure Group where
  all : Bool
  members : List (Nat × Nat)
  fault : Nat
  /-- The mismatch records written so far (R307). -/
  mism : Nat
  ended : List Nat
  gathering : Bool
  m : Bool
  mask : Word32
  arrived : List Nat
  held : List Nat
  vote : List (Nat × List GIssue)
  regroup : List Nat
  deriving DecidableEq, Repr

/-- A grid taken and not complete (R280 to R282). -/
structure Grid where
  tag : Tag
  kern : Kernel
  gx : Nat
  gy : Nat
  gz : Nat
  args : Nat
  groupsPtr : Nat
  signal : Nat
  sigValue : Nat
  groups : Tbl Group
  exited : Nat
  deriving DecidableEq, Repr

/-- A block that was saved (R47): what a restore loads. -/
structure Saved where
  grid : Nat
  blockId : Nat
  blk : Block
  vregs : List (Nat × List VReg)
  /-- Scratch bytes by offset. -/
  scratch : Mem
  column : Mem
  colWays : Word64
  /-- Where its barrier section lies in the context's memory (R315). -/
  area : Nat
  /-- Bytes that it takes there. -/
  len : Nat
  /-- Its collectives in progress (R47). -/
  colls : List Nat
  deriving DecidableEq, Repr

/-- A block in the firmware's queue for binding (R285): a new block, or a saved one. -/
structure ToBind where
  grid : Nat
  blockId : Nat
  saved : Bool
  deriving DecidableEq, Repr

/-- The states of a link port (R330). -/
inductive PortState where
  | down | training | up (lanes : Nat) | degraded (lanes : Nat) | fallow
  deriving DecidableEq, Repr

/-- A packet or request held by a unit of this package since a clock, for its age (R270, R334). -/
structure HeldReq where
  pk : Packet
  since : Nat
  deriving DecidableEq, Repr

/-- A flit that was sent and is not acknowledged (R327): its sequence number, its payload, since when the port holds it, whether
a packet begins with it, and its virtual channel. -/
structure SentFlit where
  seq : Nat
  payload : List Byte
  since : Nat
  head : Bool
  vc : Nat
  deriving DecidableEq, Repr

/-- One link port (R327 to R330): receive and send sequence numbers, credits by virtual channel, unacknowledged flits
with the oldest first, flits of a packet received so far and when the first came, and the flits and replays of the present
window. `owed` are the flits taken out of the receive buffers, by virtual channel, whose credit has not gone back, `free` the free
flits of those buffers, `wire` the flits put on the wire and `dead` the fallow lanes. -/
structure Port where
  state : PortState
  rxSeq : Nat
  txSeq : Nat
  credits : List Nat
  unacked : List SentFlit
  rxFlits : List (List Byte)
  rxSince : Nat
  owed : List Nat
  free : List Nat
  wire : List (List Byte)
  dead : List Nat
  txq : List HeldReq
  trainStart : Nat
  retrainAt : Nat
  window : Nat
  flits : Nat
  replays : Nat
  deriving DecidableEq, Repr

/-- A request that left for a peer and is not answered (R330, R268); `late` says that a write's acknowledgement did not come
in time. -/
structure LinkReq where
  who : Issuer
  cmd : Option Nat
  tag : Tag
  node : Nat
  created : Nat
  write : Bool
  late : Bool
  lane : Nat
  addr : Nat
  deriving DecidableEq, Repr

/-- The thermal cap of a stook (R360): in governor units, whether it is doubling, and since when it stands. -/
structure Thermal where
  stook : Nat
  cap : Nat
  doubling : Bool
  since : Nat
  deriving DecidableEq, Repr

/-- What the host port answers to a read (R255, R341, R358): bytes, marked where the data are poisoned, or Request Retry
Status. -/
inductive HostReply where
  | data (d : List Byte) (poison : Bool)
  | retry
  deriving DecidableEq, Repr

/-- Kinds of error that the firmware counts for a unit (R349); `worn` says that a vault's repair resources are exhausted. -/
inductive ErrKind where
  | uncorrectable | corrected | poisoned | training | worn
  deriving DecidableEq, Repr

/-- An error of a unit that the firmware has counted, and when (R349). -/
structure ErrRec where
  unit : UnitClass
  n : Nat
  kind : ErrKind
  time : Nat
  deriving DecidableEq, Repr

/-- Firmware state (R356 to R361). `reply` is what the last sideband command returned; none for an error code. -/
structure Firmware where
  running : Bool
  recovery : Bool
  image : List Byte
  imageVer : Nat
  minVer : Nat
  microcode : List (List Byte)
  minor : Nat
  powerCap : Option Nat
  thermal : List Thermal
  temps : Tbl Int
  reply : Option (List Byte)
  deriving DecidableEq, Repr

/-- The state of the package. -/
structure State where
  /-- Clocks of 0.4 ns since reset (R4). -/
  clock : Nat
  /-- What happens next; empty: the default turn (log 2). -/
  agenda : List AgendaItem
  /-- What was due when the default turn last looked and has not been served since, oldest first (R43, log 2). -/
  queue : List AgendaItem
  /-- Counter for the free numbers of Config: the model's own field (log 3). -/
  freeIx : Nat
  /-- The issuer and the word of the instruction being executed. -/
  cur : Issuer
  ir : IR
  cores : Tbl Core
  blocks : Tbl Block
  /-- Package DRAM by cell (R102): vault times 0x9000_0000 plus offset. -/
  dram : Mem
  /-- Lines of the home slices that hold written words, by cell divided by 256 (R105). -/
  lines : Tbl SLine
  /-- Translation caches of the slices (R321). -/
  xlat : Tbl (List XEnt)
  /-- Sectors whose next vault read returns an uncorrectable error: set from outside the machine (R326). -/
  vaultBad : List Nat
  /-- Poisoned 64-byte sectors, by cell divided by 64 (R326). -/
  poison : List Nat
  hostMem : Mem
  ctxs : Tbl Ctx
  ready : Tbl (BitVec 1024)
  fallow : Tbl (BitVec 1024)
  /-- Errors of units that the firmware has counted (R349). -/
  errs : List ErrRec
  /-- Spares not used, by stook (R18). -/
  spareCores : List Nat
  spareSlices : List Nat
  /-- Fallow cores that are still to be replaced (R350). -/
  quits : List Nat
  replaceFlag : Bool
  thermtrip : Bool
  stopped : Bool
  staleDrop : Nat
  nodeId : Nat
  faults : Tbl FaultEntry
  faultSeq : Tbl Nat
  faultq : Word64
  kernels : Tbl Kernel
  /-- What the firmware counts of each kernel that it has bound: RUNNING and SPAREUSED (R288, R289). -/
  kcounts : Tbl (Nat × Nat)
  /-- Cells of the headers whose kernels are failed (R290). -/
  failed : List Nat
  grids : Tbl Grid
  gridSeq : Nat
  tobind : List ToBind
  saves : List Saved
  /-- Arrival times of queued launch packets: header cell, index, device time in ns (R280). -/
  arrivals : List (Nat × Nat × Nat)
  cmds : Tbl Cmd
  sends : Tbl Send
  msgs : List Msg
  waiters : List Waiter
  /-- What has reached the patch engine, in order (R302). -/
  patches : List PatchRun
  cnts : List CntArr
  colls : Tbl Coll
  contribs : List Contrib
  /-- Instances that a core has completed: core, PLANID, EPOCH (R337). -/
  collDone : List (Nat × Nat × Nat)
  /-- Tags that ranks have registered; and instances that are over at the unit that forms their root, which still owes an abort to
  ranks that register later (R339). -/
  collTags : List CollTag
  collDead : List Coll
  lazies : List LazyReq
  /-- Translated code of tile operations (R297, log 6). -/
  tiles : List TileCode
  ports : Tbl Port
  routes : Tbl (List Nat)
  peersInc : Tbl (Bool × Nat)
  links : Tbl LinkReq
  heldReqs : List HeldReq
  /-- Host accesses that wait for a home, in the order of receipt, and what the last host read was answered, line by line (R255, R359). -/
  hostHeld : List HostAccess
  hostReply : List HostReply
  nextId : Nat
  fw : Firmware
  deriving DecidableEq, Repr

/-- Reasons a step stops with a fault. -/
inductive Fault where
  /-- An instruction is executed with no such slot or stream in the state: raised by the lookup of the issuer, which
  `step` never lets happen; safe, since the hardware has no such case. -/
  | noIssuer
  deriving DecidableEq, Repr

/-- Reasons a step is refused. -/
inductive Refusal where
  /-- The instruction has no meaning yet: raised by `exec` alone; safe. -/
  | notModelled (mnemonic : String)
  deriving DecidableEq, Repr

/-- A slot that is not live. -/
def Slot.off : Slot :=
  { status := .off, pc := 0, k0 := 0, sig := 0, emask := 0, cause := 0, faultPc := 0, skid := 0, inHandler := false,
    frame := ⟨0, 0, 0, 0, .none, 0⟩, priv := [], ir := ⟨0, 0, 0, none⟩, expand := none, flights := [], held := [], pending := [],
    replay := .none, resume := 0, noFold := false, asks := [], answers := [] }

/-- The context record of slot 0 (R263): the firmware's own, privileged, physical addresses (log 9). -/
def CtxRec.firmware : CtxRec :=
  { priv := true, link := false, ptroot := 0, aperture := 0, queues := [], saveArea := 0, saveLen := 0, eventq := 0,
    policy := 0, peers := [], job := 0 }

/-- A free context slot at reset (R263). -/
def Ctx.free : Ctx :=
  { state := .free, inc := 0, rcd := { CtxRec.firmware with priv := false }, withdrawn := false, usedLink := false,
    tk := 0, startedAt := 0, waitPeers := [], unreachable := [], watchdogMs := 2000, starter := none,
    reclaimers := [], queue := [], qcells := [] }

/-- A core at reset: every core-store bank in scratch mode (R93), every column way a cache way (R97), GOVBUDGET all
ones (R165), memories empty. -/
def Core.reset : Core :=
  { bankMode := 0x5555555555555555, colWays := 0, colChange := none, store := [], column := [], cache := [], wq := [],
    time := 0, tlb := [], icache := [], slow := [], fast := [], bad := [], soft := [], corrected := 0, storeBad := [],
    columnBad := [], govBudget := 0xFFFF, govStall := 0, govHeld := none, govWho := [], govUsed := 0, govPrev := 0,
    govWindow := 0, posts := [], postGens := [], postSeq := 0, ovf := [], quota := [], msgovf := [], seqGens := [],
    recs := [], pend0 := [], pend1 := [], pend2 := [], pend3 := [] }

/-- A port at reset: down, credits full (R329, R330). -/
def Port.reset : Port :=
  { state := .down, rxSeq := 0, txSeq := 0, credits := [32, 32, 32, 32], unacked := [], rxFlits := [], rxSince := 0,
    owed := [0, 0, 0, 0], free := [32, 32, 32, 32], wire := [], dead := [], txq := [], trainStart := 0, retrainAt := 0, window := 0, flits := 0, replays := 0 }

/-- The firmware before the boot ROM ran (R356, R358). -/
def Firmware.reset : Firmware :=
  { running := false, recovery := false, image := [], imageVer := 0, minVer := 0, microcode := [], minor := 2,
    powerCap := none, thermal := [], temps := [], reply := none }

/-- The package right after reset (R358): nothing ready, slot 0 live with incarnation 0, every other slot free (R263),
8 spare cores and 16 spare slices (R18), VERSION 3.2.0 (R165). -/
def State.reset : State :=
  { clock := 0, agenda := [], queue := [], freeIx := 0, cur := .slot 0 0 0, ir := ⟨0, 0, 0, none⟩, cores := [], blocks := [],
    dram := [], lines := [], xlat := [], vaultBad := [], poison := [], hostMem := [],
    ctxs := [(0, { Ctx.free with state := .live, rcd := CtxRec.firmware })],
    ready := [], fallow := [], errs := [], spareCores := [2, 2, 2, 2], spareSlices := [4, 4, 4, 4], quits := [], replaceFlag := false, thermtrip := false,
    stopped := false, staleDrop := 0, nodeId := 0, faults := [], faultSeq := [], faultq := 0, kernels := [], kcounts := [], failed := [], grids := [],
    gridSeq := 0, tobind := [], saves := [], arrivals := [], cmds := [], sends := [], msgs := [], waiters := [], patches := [],
    cnts := [], colls := [], contribs := [], collDone := [], collTags := [], collDead := [], lazies := [], tiles := [], ports := [], routes := [],
    peersInc := [], links := [], heldReqs := [], hostHeld := [], hostReply := [], nextId := 1, fw := Firmware.reset }

end Sys2Proof.Machine
end

