-- ==== Sys2Proof/Machine/Units.lean ====
section
/-! DEFINITION. Finding and replacing the parts of a state: cores, blocks, waves, slots, streams, scalar, mask and vector
registers. Every register is read and written here (R22, R26, R28, R36, R38). -/

namespace Sys2Proof.Machine

/-- The outcome of a meaning. -/
abbrev Out := Host.Outcome State Fault Refusal

/-- The cause codes (R51). -/
def cILLEGAL : Nat := 0x01
def cUNIMPL : Nat := 0x02
def cSTRADDLE : Nat := 0x03
def cPRIV : Nat := 0x04
def cFPX : Nat := 0x05
def cINTDIV : Nat := 0x06
def cCNTDEPTH : Nat := 0x07
def cMASKMISMATCH : Nat := 0x08
def cCOPYOVERLAP : Nat := 0x09
def cBINDFAIL : Nat := 0x0A
def cUSERTRAP : Nat := 0x0B
def cPAGEFAULT : Nat := 0x10
def cPROTFAULT : Nat := 0x11
def cATTRFAULT : Nat := 0x12
def cALIGN : Nat := 0x13
def cMSGOVF : Nat := 0x18
def cWATCHDOG : Nat := 0x19
def cSIGFAULT : Nat := 0x20
def cUCE : Nat := 0x21

/-- Cores, by package number (R13). A core that nothing has touched is as at reset. -/
def State.core (s : State) (c : Nat) : Core := (tget s.cores c).getD Core.reset
def State.setCore (s : State) (c : Nat) (x : Core) : State := { s with cores := tset s.cores c x }
def State.modCore (s : State) (c : Nat) (f : Core → Core) : State := s.setCore c (f (s.core c))

/-- The core of a block (R284). -/
def coreOf (bid : Nat) : Nat := bid / 32 % 512
/-- The block number that the accesses of a collective bear once its block has been saved: of the same core, and of no bound
block (R47). -/
def detached (bid coll : Nat) : Nat := bid + 16384 * (coll + 1)
/-- The number under which the firmware's own translations are cached: of no core. -/
def fwCore : Nat := 512
/-- The bind slot of a block (R284). -/
def bslotOf (bid : Nat) : Nat := bid % 32

def State.blk (s : State) (bid : Nat) : Option Block := tget s.blocks bid
def State.setBlk (s : State) (bid : Nat) (b : Block) : State := { s with blocks := tset s.blocks bid b }
def State.modBlk (s : State) (bid : Nat) (f : Block → Block) : State := { s with blocks := tmod s.blocks bid f }

def Block.setWave (b : Block) (w : Nat) (x : Wave) : Block := { b with waves := tset b.waves w x }
def Block.modWave (b : Block) (w : Nat) (f : Wave → Wave) : Block := { b with waves := tmod b.waves w f }

/-- The slots of a wave (R22). -/
def Wave.slot (w : Wave) (k : Nat) : Slot := if k = 0 then w.s0 else w.s1
def Wave.setSlot (w : Wave) (k : Nat) (x : Slot) : Wave := if k = 0 then { w with s0 := x } else { w with s1 := x }

/-- A slot that is live: not off and not exited (R22, R155). -/
def Slot.live (x : Slot) : Bool := decide (x.status ≠ .off) && decide (x.status ≠ .exited)

/-- The issuing slot with what holds it. -/
structure View where
  bid : Nat
  b : Block
  wid : Nat
  w : Wave
  k : Nat
  sl : Slot

def State.view (s : State) (bid wid k : Nat) : Option View :=
  match s.blk bid with
  | none => none
  | some b => match tget b.waves wid with
    | none => none
    | some w => some ⟨bid, b, wid, w, k, w.slot k⟩

/-- Replace the slot a view names, in the state as it is now. -/
def State.modWave (s : State) (bid wid : Nat) (f : Wave → Wave) : State := s.modBlk bid fun b => b.modWave wid f
def State.modSlot (s : State) (bid wid k : Nat) (f : Slot → Slot) : State :=
  s.modWave bid wid fun w => w.setSlot k (f (w.slot k))

/-- Streams of a block, by engine and sequencer context (R31). -/
def Block.stream (b : Block) (e : Engine) (ix : Nat) : Option Stream :=
  b.streams.find? fun x => decide (x.eng = e) && decide (x.ix = ix)
def Block.modStream (b : Block) (e : Engine) (ix : Nat) (f : Stream → Stream) : Block :=
  { b with streams := b.streams.map fun x => if x.eng = e ∧ x.ix = ix then f x else x }
def State.modStream (s : State) (bid : Nat) (e : Engine) (ix : Nat) (f : Stream → Stream) : State :=
  s.modBlk bid fun b => b.modStream e ix f

/-- The block an issuer belongs to. -/
def Issuer.block : Issuer → Nat
  | .slot b _ _ => b
  | .stream b _ _ => b

/-- The present lanes of a block: lanes below its width (R28). -/
def Block.present (b : Block) : Word32 := BitVec.ofNat 32 (2 ^ b.kern.blockX - 1)

/-- The domain of a slot: every lane while the wave is not split (R154). -/
def Wave.domain (w : Wave) (k : Nat) : Word32 :=
  if w.split then (if k = 0 then w.dom0 else w.dom1) else 0xFFFFFFFF

/-- A write to k0 is ANDed with the present lanes and with the slot's domain (R28, R154). -/
def shapeK0 (b : Block) (w : Wave) (k : Nat) (v : Word32) : Word32 := v &&& b.present &&& w.domain k

/-- Mask registers: k0 is the slot's own (R22). -/
def kread (v : View) (n : KNum) : Word32 := if n = 0 then v.sl.k0 else cget 0 v.w.kregs n.toNat

/-- A write of k1 to k15 changes only the slot's domain (R154). -/
def Wave.kwrite (w : Wave) (k : Nat) (n : KNum) (x : Word32) : Wave :=
  let old := cget 0 w.kregs n.toNat
  { w with kregs := cset 0 w.kregs n.toNat ((x &&& w.domain k) ||| (old &&& ~~~ w.domain k)) }

/-- Scalar registers of a slot: its private copy while the wave is split and it holds one; s0 reads zero (R26). -/
def sreadW (w : Wave) (k : Nat) (n : SReg) : Word64 :=
  if n = 0 then 0
  else if w.split then (match tget (w.slot k).priv n.toNat with
    | some v => v
    | none => cget 0 w.sregs n.toNat)
  else cget 0 w.sregs n.toNat

/-- Write a scalar: discarded for s0, private while split (R26, R145). -/
def Wave.swrite (w : Wave) (k : Nat) (n : SReg) (x : Word64) : Wave :=
  if n = 0 then w
  else if w.split then w.setSlot k { w.slot k with priv := tset (w.slot k).priv n.toNat x }
  else { w with sregs := cset 0 w.sregs n.toNat x }

/-- Whether a write of this scalar would be the slot's seventeenth private copy (R26). -/
def tooManyPriv (w : Wave) (k : Nat) (n : SReg) : Bool :=
  w.split && decide (n ≠ 0) && (tget (w.slot k).priv n.toNat).isNone && decide (16 ≤ (w.slot k).priv.length)

/-- Scalars of any issuer, s0 zero (R26, R221). -/
def State.sread (s : State) (who : Issuer) (n : SReg) : Word64 :=
  match who with
  | .slot b w k => match s.view b w k with
    | some v => sreadW v.w k n
    | none => 0
  | .stream b e ix => if n = 0 then 0 else match (s.blk b).bind fun x => x.stream e ix with
    | some st => cget 0 st.sregs n.toNat
    | none => 0

def State.swrite (s : State) (who : Issuer) (n : SReg) (x : Word64) : State :=
  match who with
  | .slot b w k => s.modWave b w fun v => v.swrite k n x
  | .stream b e ix => if n = 0 then s else s.modStream b e ix fun st => { st with sregs := cset 0 st.sregs n.toNat x }

/-- The slow-file slot of register n of the wave's window (R36, R38). -/
def Wave.phys (w : Wave) (n : Nat) : Nat := w.runBase + (w.base - w.bottom) + n

/-- A register by its place in the slow file: the fast file first (R36). -/
def Core.reg (c : Core) (p : Nat) : VReg := (tget c.fast p).getD (cget 0 c.slow p)

/-- Write a register: in the fast file for a wave of the active set, else in the slow file (R36). -/
def Core.putReg (c : Core) (active : Bool) (p : Nat) (x : VReg) : Core :=
  if active then { c with fast := tset c.fast p x } else { c with slow := cset 0 c.slow p x, fast := tdel c.fast p }

/-- The fast-file registers of places `lo` up to `hi` are written back to the slow file (R37). -/
def Core.leaveFast (c : Core) (lo hi : Nat) : Core :=
  let go := fun (e : Nat × VReg) => decide (lo ≤ e.1) && decide (e.1 < hi)
  { c with
    slow := c.fast.foldl (fun m e => if go e then cset 0 m e.1 e.2 else m) c.slow,
    fast := c.fast.filter fun e => !go e }

/-- Vector registers (R36). -/
def State.vread (s : State) (bid : Nat) (w : Wave) (n : Nat) : VReg := (s.core (coreOf bid)).reg (w.phys n)

/-- Count the clocks of a hold up to a clock (R165, R287). -/
def Core.heldTo (k : Core) (now : Nat) : Core :=
  match k.govHeld with
  | some t => { k with govStall := (k.govStall + (now - t)) % 2 ^ 48 }
  | none => k

/-- Lane l of a vector register (R2). -/
def lane (v : VReg) (l : Nat) : Word32 := v.extractLsb' (32 * l) 32

/-- Replace lane l. -/
def setLane (v : VReg) (l : Nat) (x : Word32) : VReg :=
  (v &&& ~~~ ((0xFFFFFFFF : VReg) <<< (32 * l))) ||| ((x.setWidth 1024) <<< (32 * l))

/-- The register whose lane l is f l. -/
def ofLanes (f : Nat → Word32) : VReg := (List.range 32).foldl (fun v l => setLane v l (f l)) 0

/-- Lanes of the mask from new, the others from old (R173). -/
def mergeLanes (m : Word32) (new old : VReg) : VReg := ofLanes fun l => if m.getLsbD l then lane new l else lane old l

/-- Write a whole vector register, counting the copy on write of the snapshot by its place on the wave's register stack; its
code word is good again (R41, R342, R343). -/
def State.vwrite (s : State) (bid wid : Nat) (n : Nat) (x : VReg) : State :=
  match s.view bid wid 0 with
  | none => s
  | some v =>
    let p := v.w.phys n
    let q := v.w.base + n
    let s := s.modCore (coreOf bid) fun c => { c.putReg v.w.active p x with
      bad := c.bad.filter fun i => decide (i ≠ p),
      soft := c.soft.filter fun i => decide (i ≠ p) }
    s.modBlk bid fun b => if b.touched.contains (.vreg wid q) then b else { b with touched := .vreg wid q :: b.touched }

/-- Merge under a mask into a vector register (R173). -/
def State.vmerge (s : State) (bid wid : Nat) (n : Nat) (m : Word32) (x : VReg) : State :=
  match s.view bid wid 0 with
  | none => s
  | some v => s.vwrite bid wid n (mergeLanes m x (s.vread bid v.w n))

/-- A wave leaves the active set: its fast-file registers are written back (R37). -/
def State.leaveActive (s : State) (bid wid : Nat) : State :=
  match s.view bid wid 0 with
  | none => s
  | some v => (s.modCore (coreOf bid) fun c => c.leaveFast v.w.runBase (v.w.runBase + v.w.runLen)).modWave bid wid fun w =>
      { w with active := false }

/-- Number of set bits. -/
def popc (x : Nat) : Nat → Nat
  | 0 => 0
  | n + 1 => (if x.testBit n then 1 else 0) + popc x n
def popc32 (x : Word32) : Nat := popc x.toNat 32

/-- The lowest set bit, or `n` when there is none. -/
def lowestBit (x n : Nat) : Nat := ((List.range n).find? fun i => x.testBit i).getD n

/-- Successor of an instruction (R119, R120). -/
def succAt (pc : Pc) (len : Nat) : Pc :=
  let a := pc + BitVec.ofNat 57 len
  if a.toNat % 32 = 28 then a + 4 else a
def IR.succ (ir : IR) : Pc :=
  match ir.dict with
  | some false => ir.pc + 1
  | some true => succAt (ir.pc - BitVec.ofNat 57 (ir.pc.toNat % 4)) 8
  | none => succAt ir.pc ir.len

/-- Target of an offset: 4-byte units from the instruction's own address (R122). -/
def IR.target (ir : IR) (off : BitVec 32) : Pc :=
  ir.pc - BitVec.ofNat 57 (ir.pc.toNat % 4) + (off.signExtend 57) * 4

/-- A list of bytes, little-endian, as a number (R2). -/
def leNat : List Byte → Nat
  | [] => 0
  | b :: t => b.toNat + 256 * leNat t

/-- The n low bytes of a number, little-endian (R2). -/
def toLE : Nat → Nat → List Byte
  | 0, _ => []
  | n + 1, x => BitVec.ofNat 8 x :: toLE n (x / 256)

/-- Device time in nanoseconds: 0.4 ns a clock (R4, R280). -/
def State.ns (s : State) : Nat := s.clock * 2 / 5

/-- The number of a unit class: that of READYMAP, and one more for the lanes of the link ports, four a port (R165, R349). -/
def unitCode : UnitClass → Nat
  | .core => 0 | .slice => 1 | .vault => 2 | .port => 3 | .copyEngine => 4 | .mgmt => 5 | .lane => 6
def State.unitReady (s : State) (c : UnitClass) (n : Nat) : Bool := (cget 0 s.ready (unitCode c)).getLsbD n
def State.unitFallow (s : State) (c : UnitClass) (n : Nat) : Bool := (cget 0 s.fallow (unitCode c)).getLsbD n

/-- Clocks in an hour (R349). -/
def clocksHour : Nat := 9000000000000

/-- The firmware counts an error of a unit; what is older than 24 hours no threshold asks for (R349). -/
def State.countErr (s : State) (c : UnitClass) (n : Nat) (k : ErrKind) : State :=
  { s with errs := (s.errs.filter fun e => decide (s.clock < e.time + 24 * clocksHour)) ++ [⟨c, n, k, s.clock⟩] }

/-- A context slot; one that was never started is as at reset (R263). -/
def State.ctx (s : State) (n : Nat) : Ctx := (tget s.ctxs n).getD Ctx.free
def State.setCtx (s : State) (n : Nat) (c : Ctx) : State := { s with ctxs := tset s.ctxs n c }
def State.modCtx (s : State) (n : Nat) (f : Ctx → Ctx) : State := s.setCtx n (f (s.ctx n))

/-- A tag is live while its slot runs that incarnation (R268). -/
def State.tagLive (s : State) (t : Tag) : Bool :=
  decide ((s.ctx t.slot).inc = t.inc) && decide ((s.ctx t.slot).state = .live)

/-- A stale request or orphan: STALEDROP counts, saturating at 48 bits (R165, R268). -/
def State.dropStale (s : State) : State := { s with staleDrop := min (s.staleDrop + 1) (2 ^ 48 - 1) }

/-- One of several things between which the manual leaves the choice open (R285, log 3). -/
def State.choose {α : Type} (s : State) (l : List α) : State × Option α :=
  ({ s with freeIx := s.freeIx + 1 }, match l with
    | [] => none
    | x :: _ => some (l.getD (Config.freeChoice s.freeIx % l.length) x))

end Sys2Proof.Machine
end

