-- ==== Sys2Proof/Machine/Number.lean ====
section
/-! DEFINITION. Exact numbers and one rounding: the IEEE formats (R54 to R56), the tapered formats (R57 to R61),
conversions (R62), containers (R63, R64), and the correctly rounded functions of major 0x11 (R187). -/

namespace Sys2Proof.Machine

/-- An IEEE binary format: exponent bits, fraction bits; the bias is 2^(eb-1) - 1 (R54). -/
structure Fmt where
  eb : Nat
  fb : Nat
  deriving DecidableEq, Repr

def Fmt.bias (f : Fmt) : Nat := 2 ^ (f.eb - 1) - 1
def f16F : Fmt := ⟨5, 10⟩
def bf16F : Fmt := ⟨8, 7⟩
def f32F : Fmt := ⟨8, 23⟩
def f64F : Fmt := ⟨11, 52⟩

/-- The format of a float type (R54). -/
def fmtOf : Ty → Fmt
  | .f16 => f16F
  | .bf16 => bf16F
  | .f64 => f64F
  | _ => f32F

/-- A value: NaN, an infinity, or (-1)^neg · m · 2^e; m = 0 is a signed zero. -/
inductive FVal where
  | nan
  | inf (neg : Bool)
  | fin (neg : Bool) (m : Nat) (e : Int)
  deriving DecidableEq, Repr

/-- The exceptions of R182. -/
structure Exc where
  v : Bool
  z : Bool
  o : Bool
  u : Bool
  x : Bool
  deriving DecidableEq, Repr
def Exc.none : Exc := ⟨false, false, false, false, false⟩
def Exc.invalid : Exc := { Exc.none with v := true }
def Exc.divZero : Exc := { Exc.none with z := true }

/-- FPXEN's enables met by these exceptions (R182). -/
def Exc.meets (e : Exc) (en : BitVec 8) : Bool :=
  (e.v && en.getLsbD 0) || (e.z && en.getLsbD 1) || (e.o && en.getLsbD 2) || (e.u && en.getLsbD 3) || (e.x && en.getLsbD 4)

/-- The canonical NaN (R54). -/
def Fmt.nan (f : Fmt) : Nat := (2 ^ f.eb - 1) * 2 ^ f.fb + 2 ^ (f.fb - 1)
def Fmt.infBits (f : Fmt) : Nat := (2 ^ f.eb - 1) * 2 ^ f.fb
def Fmt.sign (f : Fmt) (neg : Bool) : Nat := if neg then 2 ^ (f.eb + f.fb) else 0

/-- Read the bits of a format (R54). -/
def Fmt.read (f : Fmt) (x : Nat) : FVal :=
  let neg := x.testBit (f.eb + f.fb)
  let ex := x / 2 ^ f.fb % 2 ^ f.eb
  let fr := x % 2 ^ f.fb
  if ex = 2 ^ f.eb - 1 then (if fr = 0 then .inf neg else .nan)
  else if ex = 0 then .fin neg fr (1 - (f.bias : Int) - f.fb)
  else .fin neg (2 ^ f.fb + fr) ((ex : Int) - f.bias - f.fb)

/-- Bits of a natural number. -/
def bitLen (n : Nat) : Nat := if n = 0 then 0 else Nat.log2 n + 1

/-- Whether a magnitude rounds up: the kept part is odd or not, and the remainder against half (R56). -/
def roundsUp (rm : Rm) (neg odd : Bool) (rem half : Nat) (exact : Bool) : Bool :=
  match rm with
  | .rn => decide (half < rem) || (decide (rem = half) && !exact && odd)
  | .rz => false
  | .ru => !exact && !neg
  | .rd => !exact && neg

/-- Shift right by `sh` and round. Answers the result and whether it is inexact. -/
def shiftRound (rm : Rm) (neg : Bool) (m sh : Nat) : Nat × Bool :=
  if sh = 0 then (m, false)
  else
    let q := m / 2 ^ sh
    let r := m % 2 ^ sh
    let up := roundsUp rm neg (q % 2 = 1) r (2 ^ (sh - 1)) (decide (r = 0))
    (if up then q + 1 else q, decide (r ≠ 0))

/-- Round the magnitude m · 2^e once into a format: bits without sign, and the exceptions O, U and X; tininess is
detected after rounding (R56, R182). -/
def Fmt.roundMag (f : Fmt) (rm : Rm) (neg : Bool) (m : Nat) (e : Int) : Nat × Exc :=
  if m = 0 then (0, Exc.none)
  else
    let top : Int := e + bitLen m - 1
    let emin : Int := 1 - (f.bias : Int)
    let q : Int := max top emin - f.fb
    let r := if q ≤ e then (m * 2 ^ (e - q).toNat, false) else shiftRound rm neg m (q - e).toNat
    let bits := (q + f.fb + f.bias - 1).toNat * 2 ^ f.fb + r.1
    if f.infBits ≤ bits then
      let toInf := match rm with
        | .rn => true
        | .rz => false
        | .ru => !neg
        | .rd => neg
      (if toInf then f.infBits else f.infBits - 1, { Exc.none with o := true, x := true })
    else
      let tiny := decide (top < emin) &&
        (let q2 : Int := top - f.fb
         let r2 := if q2 ≤ e then m * 2 ^ (e - q2).toNat else (shiftRound rm neg m (q2 - e).toNat).1
         !(decide (r2 = 2 ^ (f.fb + 1)) && decide (top = emin - 1)))
      (bits, { Exc.none with u := tiny && r.2, x := r.2 })

/-- Round a value into a format. -/
def Fmt.round (f : Fmt) (rm : Rm) (v : FVal) : Nat × Exc :=
  match v with
  | .nan => (f.nan, Exc.none)
  | .inf neg => (f.sign neg + f.infBits, Exc.none)
  | .fin neg m e => let r := f.roundMag rm neg m e; (f.sign neg + r.1, r.2)

/-- A finite value as a signed integer in units of 2^e. -/
def sInt (neg : Bool) (m : Nat) : Int := if neg then -(m : Int) else m

/-- The sum of two finite values, exactly; an exact zero takes the sign the mode gives (IEEE 754). -/
def finAdd (rm : Rm) (n1 : Bool) (m1 : Nat) (e1 : Int) (n2 : Bool) (m2 : Nat) (e2 : Int) : FVal :=
  let e := min e1 e2
  let x : Int := sInt n1 m1 * (2 ^ (e1 - e).toNat : Nat) + sInt n2 m2 * (2 ^ (e2 - e).toNat : Nat)
  if x = 0 then
    if m1 = 0 ∧ m2 = 0 ∧ n1 = n2 then .fin n1 0 0 else .fin (decide (rm = .rd)) 0 0
  else .fin (decide (x < 0)) x.natAbs e

/-- Exact addition (IEEE 754): the value and whether it is invalid. -/
def FVal.add (rm : Rm) : FVal → FVal → FVal × Bool
  | .nan, _ => (.nan, false)
  | _, .nan => (.nan, false)
  | .inf a, .inf b => if a = b then (.inf a, false) else (.nan, true)
  | .inf a, _ => (.inf a, false)
  | _, .inf b => (.inf b, false)
  | .fin n1 m1 e1, .fin n2 m2 e2 => (finAdd rm n1 m1 e1 n2 m2 e2, false)

/-- Exact product (IEEE 754). -/
def FVal.mul : FVal → FVal → FVal × Bool
  | .nan, _ => (.nan, false)
  | _, .nan => (.nan, false)
  | .inf a, .inf b => (.inf (a != b), false)
  | .inf a, .fin b m _ => if m = 0 then (.nan, true) else (.inf (a != b), false)
  | .fin a m _, .inf b => if m = 0 then (.nan, true) else (.inf (a != b), false)
  | .fin n1 m1 e1, .fin n2 m2 e2 => (.fin (n1 != n2) (m1 * m2) (e1 + e2), false)

def FVal.neg : FVal → FVal
  | .nan => .nan
  | .inf a => .inf !a
  | .fin a m e => .fin (!a) m e

def FVal.isNan : FVal → Bool
  | .nan => true
  | _ => false

/-- a × b + c as one operation; a NaN operand raises nothing, also against an invalid product (R184). -/
def FVal.fma (rm : Rm) (a b c : FVal) : FVal × Bool :=
  if a.isNan || b.isNan || c.isNan then (.nan, false)
  else
    let p := a.mul b
    if p.2 then (.nan, true) else p.1.add rm c

/-- Whether a ≤ b in the order of the reals with infinities; NaN excluded by the caller; -0 = +0. -/
def FVal.le : FVal → FVal → Bool
  | .nan, _ => false
  | _, .nan => false
  | .inf true, _ => true
  | _, .inf false => true
  | .inf false, _ => false
  | _, .inf true => false
  | .fin n1 m1 e1, .fin n2 m2 e2 =>
    let e := min e1 e2
    decide (sInt n1 m1 * (2 ^ (e1 - e).toNat : Nat) ≤ sInt n2 m2 * (2 ^ (e2 - e).toNat : Nat))

/-- Equality of values, -0 equal to +0. -/
def FVal.eqv (a b : FVal) : Bool := a.le b && b.le a

/-- The sign of a value. -/
def FVal.signBit : FVal → Bool
  | .nan => false
  | .inf a => a
  | .fin a _ _ => a

/-- minimumNumber and maximumNumber, with -0 below +0 (R184). -/
def FVal.minNum (a b : FVal) : FVal :=
  if a.isNan then b else if b.isNan then a
  else if a.eqv b then (if a.signBit then a else b)
  else if a.le b then a else b
def FVal.maxNum (a b : FVal) : FVal :=
  if a.isNan then b else if b.isNan then a
  else if a.eqv b then (if a.signBit then b else a)
  else if a.le b then b else a

/-- The integer square root by bits, from bit `n` down. -/
def isqrtAux (x : Nat) : Nat → Nat → Nat
  | 0, r => r
  | n + 1, r => let t := r + 2 ^ n; if t * t ≤ x then isqrtAux x n t else isqrtAux x n r
def isqrt (x : Nat) : Nat := isqrtAux x (bitLen x / 2 + 1) 0

/-- A magnitude known as floor and sticky: one more low bit says that something lies below (exact rounding needs no
more). -/
def stickyMag (q : Nat) (exact : Bool) : Nat := 2 * q + if exact then 0 else 1

/-- Division of finite non-zero values, correctly rounded. -/
def Fmt.divFin (f : Fmt) (rm : Rm) (n1 : Bool) (m1 : Nat) (e1 : Int) (n2 : Bool) (m2 : Nat) (e2 : Int) : Nat × Exc :=
  let k := f.fb + 4 + bitLen m2
  let q := m1 * 2 ^ k / m2
  let neg := n1 != n2
  let r := f.roundMag rm neg (stickyMag q (decide (m1 * 2 ^ k % m2 = 0))) (e1 - e2 - k - 1)
  (f.sign neg + r.1, r.2)

/-- FDIV (R187). -/
def Fmt.div (f : Fmt) (rm : Rm) (a b : FVal) : Nat × Exc :=
  match a, b with
  | .nan, _ => (f.nan, Exc.none)
  | _, .nan => (f.nan, Exc.none)
  | .inf _, .inf _ => (f.nan, Exc.invalid)
  | .inf x, .fin y _ _ => (f.sign (x != y) + f.infBits, Exc.none)
  | .fin x _ _, .inf y => (f.sign (x != y), Exc.none)
  | .fin n1 m1 e1, .fin n2 m2 e2 =>
    if m2 = 0 then
      if m1 = 0 then (f.nan, Exc.invalid) else (f.sign (n1 != n2) + f.infBits, Exc.divZero)
    else if m1 = 0 then (f.sign (n1 != n2), Exc.none)
    else f.divFin rm n1 m1 e1 n2 m2 e2

/-- FSQRT (R187). -/
def Fmt.sqrt (f : Fmt) (a : FVal) : Nat × Exc :=
  match a with
  | .nan => (f.nan, Exc.none)
  | .inf true => (f.nan, Exc.invalid)
  | .inf false => (f.infBits, Exc.none)
  | .fin neg m e =>
    if m = 0 then (f.sign neg, Exc.none)
    else if neg then (f.nan, Exc.invalid)
    else
      let m' := if e % 2 = 0 then m else 2 * m
      let e' := if e % 2 = 0 then e else e - 1
      let k := f.fb + 4
      let x := m' * 2 ^ (2 * k)
      let r := isqrt x
      f.roundMag .rn false (stickyMag r (decide (r * r = x))) (e' / 2 - k - 1)

/-- FRCP (R187). -/
def Fmt.rcp (f : Fmt) (a : FVal) : Nat × Exc :=
  match a with
  | .nan => (f.nan, Exc.none)
  | .inf neg => (f.sign neg, Exc.none)
  | .fin neg m e => if m = 0 then (f.sign neg + f.infBits, Exc.divZero) else f.divFin .rn false 1 0 neg m e

/-- FRSQ (R187). -/
def Fmt.rsq (f : Fmt) (a : FVal) : Nat × Exc :=
  match a with
  | .nan => (f.nan, Exc.none)
  | .inf true => (f.nan, Exc.invalid)
  | .inf false => (0, Exc.none)
  | .fin neg m e =>
    if m = 0 then (f.sign neg + f.infBits, Exc.divZero)
    else if neg then (f.nan, Exc.invalid)
    else
      let m' := if e % 2 = 0 then m else 2 * m
      let e' := if e % 2 = 0 then e else e - 1
      let k := f.fb + 4 + bitLen m'
      let n := 2 ^ (2 * k)
      let r := isqrt (n / m')
      f.roundMag .rn false (stickyMag r (decide (r * r * m' = n))) (-(e' / 2) - k - 1)

/-- Bounds of 2^g for a fraction g given by its bits from the top, in fixed point with `P` fraction bits: the factors
2^(2^-i) are square roots, bounded below and above. -/
def exp2Bounds (P : Nat) : List Bool → Nat → Nat → Nat → Nat → Nat × Nat
  | [], _, _, lo, hi => (lo, hi)
  | b :: t, cl, ch, lo, hi =>
    let cl := isqrt (cl * 2 ^ P)
    let ch := isqrt (ch * 2 ^ P) + 1
    if b then exp2Bounds P t cl ch (lo * cl / 2 ^ P) (hi * ch / 2 ^ P + 1) else exp2Bounds P t cl ch lo hi

/-- floor(2^g · 2^n) for the fraction bits of g, raising the precision until both bounds agree (log 10). -/
def exp2Floor (n : Nat) (bits : List Bool) : Nat → Nat → Nat
  | 0, P => (exp2Bounds P bits (2 * 2 ^ P) (2 * 2 ^ P) (2 ^ P) (2 ^ P)).1 / 2 ^ (P - n)
  | fuel + 1, P =>
    let r := exp2Bounds P bits (2 * 2 ^ P) (2 * 2 ^ P) (2 ^ P) (2 ^ P)
    if r.1 / 2 ^ (P - n) = r.2 / 2 ^ (P - n) then r.1 / 2 ^ (P - n) else exp2Floor n bits fuel (2 * P)

/-- FEXP2 (R187): an integer operand is exact; else the exact value is irrational and its floor at enough bits decides. -/
def Fmt.exp2 (f : Fmt) (a : FVal) : Nat × Exc :=
  match a with
  | .nan => (f.nan, Exc.none)
  | .inf true => (0, Exc.none)
  | .inf false => (f.infBits, Exc.none)
  | .fin neg m e =>
    if m = 0 then f.roundMag .rn false 1 0
    else
      let top : Int := e + bitLen m
      -- far beyond the range: the largest and the smallest exponent decide
      if 2 * (f.bias : Int) < 2 ^ top.toNat ∧ 14 < top then
        (if neg then f.roundMag .rn false 1 (-(4 * (f.bias : Int) + 4 * f.fb)) else f.roundMag .rn false 1 (4 * f.bias))
      else if top < -(f.fb : Int) - 3 then
        -- |a| so small that 2^a lies within a quarter ulp of 1
        (f.roundMag .rn false (stickyMag (2 ^ (f.fb + 4)) false) (-(f.fb : Int) - 5))
      else
        let fr := (-e).toNat
        let x : Int := sInt neg m * (2 ^ e.toNat : Nat)
        let ip := x / (2 ^ fr : Nat)
        let fp := (x % (2 ^ fr : Nat)).toNat
        if fp = 0 then f.roundMag .rn false 1 ip
        else
          let bits := (List.range fr).map fun i => fp.testBit (fr - 1 - i)
          let n := f.fb + 4
          let q := exp2Floor n bits 6 (n + fr + 64)
          f.roundMag .rn false (stickyMag q false) (ip - n - 1)

/-- Binary digits of log2 of y in [1, 2), by squaring with bounds in fixed point with `P` fraction bits (log 10). -/
def log2Bits (P : Nat) : Nat → Nat → Nat → Nat → Nat
  | 0, _, _, acc => acc
  | n + 1, lo, hi, acc =>
    let lo := lo * lo / 2 ^ P
    let hi := hi * hi / 2 ^ P + 1
    if 2 * 2 ^ P ≤ lo then log2Bits P n (lo / 2) (hi / 2 + 1) (2 * acc + 1)
    else log2Bits P n lo hi (2 * acc)

/-- FLOG2 (R187): a power of two is exact; else the value is irrational and its digits decide. -/
def Fmt.log2 (f : Fmt) (a : FVal) : Nat × Exc :=
  match a with
  | .nan => (f.nan, Exc.none)
  | .inf true => (f.nan, Exc.invalid)
  | .inf false => (f.infBits, Exc.none)
  | .fin neg m e =>
    if m = 0 then (f.sign true + f.infBits, Exc.divZero)
    else if neg then (f.nan, Exc.invalid)
    else
      let b := bitLen m
      let ex : Int := e + b - 1
      if m = 2 ^ (b - 1) then
        let r := f.roundMag .rn (decide (ex < 0)) ex.natAbs 0
        ((if ex < 0 then f.sign true else 0) + r.1, r.2)
      else
        let n := 2 * f.fb + 24
        let P := 2 * n + 64
        let y := m * 2 ^ P / 2 ^ (b - 1)
        let d := log2Bits P n y y 0
        let t : Int := ex * (2 ^ n : Nat) + d
        -- the value lies strictly between t and t + 1 in units of 2^-n
        if t < 0 then
          let r := f.roundMag .rn true (stickyMag (-t - 1).toNat false) (-(n : Int) - 1)
          (f.sign true + r.1, r.2)
        else f.roundMag .rn false (stickyMag t.toNat false) (-(n : Int) - 1)

/-- Round to an integral value in a mode: the value and whether it changed (R185). -/
def FVal.integral (rm : Rm) : FVal → FVal × Bool
  | .nan => (.nan, false)
  | .inf a => (.inf a, false)
  | .fin neg m e =>
    if 0 ≤ e ∨ m = 0 then (.fin neg m e, false)
    else
      let r := shiftRound rm neg m (-e).toNat
      (.fin neg r.1 0, r.2)

/-- The class word of FCLASS (R185). -/
def Fmt.classOf (f : Fmt) (x : Nat) : Nat :=
  match f.read x with
  | .nan => 2 ^ 8
  | .inf true => 2 ^ 0
  | .inf false => 2 ^ 7
  | .fin neg m _ =>
    if m = 0 then (if neg then 2 ^ 3 else 2 ^ 4)
    else if m < 2 ^ f.fb then (if neg then 2 ^ 2 else 2 ^ 5)
    else (if neg then 2 ^ 1 else 2 ^ 6)

/-- A run of equal bits from bit `n - 1` down. -/
def runLen (x : Nat) (bit : Bool) : Nat → Nat
  | 0 => 0
  | n + 1 => if x.testBit n = bit then 1 + runLen x bit n else 0

/-- Decode a tapered code of n bits with es exponent bits (R57). -/
def taperedVal (n es code : Nat) : FVal :=
  let c := code % 2 ^ n
  if c = 0 then .fin false 0 0
  else if c = 2 ^ (n - 1) then .nan
  else
    let neg := c.testBit (n - 1)
    let c := if neg then 2 ^ n - c else c
    let r0 := c.testBit (n - 2)
    let m := runLen c r0 (n - 1)
    let k : Int := if r0 then (m : Int) - 1 else -(m : Int)
    let rem := n - 1 - m - 1        -- bits after the run and its end; none when the run reaches the end
    let rest := c % 2 ^ rem
    let eb := min es rem
    let w := rem - eb
    let e := rest / 2 ^ w * 2 ^ (es - eb)
    .fin neg (2 ^ w + rest % 2 ^ w) (k * 2 ^ es + e - w)

/-- Bits and exponent bits of the tapered types (R57). -/
def taperedN : Ty → Nat
  | .t8 => 8
  | .t6 => 6
  | _ => 4
def taperedEs : Ty → Nat
  | .t4 => 0
  | _ => 1

/-- A magnitude in units of 2^-24: tapered values are multiples. -/
def taperedMag (n es code : Nat) : Nat :=
  match taperedVal n es code with
  | .fin _ m e => m * 2 ^ (e + 24).toNat
  | _ => 0

/-- Whether the magnitude m · 2^e lies above, or on, the number k · 2^-25. -/
def magCmp (m : Nat) (e : Int) (k : Nat) : Ordering :=
  let s := min e (-25)
  compare (m * 2 ^ (e - s).toNat) (k * 2 ^ (-25 - s).toNat)

/-- Round a non-zero finite magnitude into a positive tapered code: past each midpoint, a tie to the even code (R61). -/
def taperedCode (n es m : Nat) (e : Int) : Nat :=
  (List.range (2 ^ (n - 1) - 2)).foldl (fun c i =>
    let lo := i + 1
    match magCmp m e (taperedMag n es lo + taperedMag n es (lo + 1)) with
    | .gt => lo + 1
    | .eq => if lo % 2 = 1 then lo + 1 else c
    | .lt => c) 1

/-- Convert to a tapered type (R61). -/
def toTapered (t : Ty) (v : FVal) : Nat :=
  let n := taperedN t
  match v with
  | .fin neg m e =>
    if m = 0 then 0
    else
      let c := taperedCode n (taperedEs t) m e
      if neg then 2 ^ n - c else c
  | _ => 2 ^ (n - 1)

/-- Limits of an integer type (R53). -/
def Ty.signedInt (t : Ty) : Bool := t.isSigned || decide (t = .s4)
def loOf (t : Ty) : Int := if t.isSigned || decide (t = .s4) then -(2 ^ (t.bits - 1) : Nat) else 0
def hiOf (t : Ty) : Int := if t.isSigned || decide (t = .s4) then (2 ^ (t.bits - 1) : Nat) - 1 else (2 ^ t.bits : Nat) - 1

/-- Clamp into a type's range (R53). -/
def clampTo (t : Ty) (x : Int) : Int := max (loOf t) (min (hiOf t) x)

/-- Wrap into a type's range (R53). -/
def wrapTo (t : Ty) (x : Int) : Int :=
  let y := x % (2 ^ t.bits : Nat)
  if (t.isSigned || decide (t = .s4)) && decide ((2 ^ (t.bits - 1) : Nat) ≤ y) then y - (2 ^ t.bits : Nat) else y

/-- An integer as a value. -/
def FVal.ofInt (x : Int) : FVal := .fin (decide (x < 0)) x.natAbs 0

/-- A float or tapered value to an integer type: round_even, then the limit; V beyond the range or for NaN and infinities,
X when inexact within it (R62, R188). -/
def toInteger (t : Ty) (v : FVal) : Int × Exc :=
  match v with
  | .nan => (0, Exc.invalid)
  | .inf neg => (if neg then loOf t else hiOf t, Exc.invalid)
  | .fin _ _ _ =>
    match v.integral .rn with
    | (.fin neg m e, inex) =>
      let x : Int := sInt neg (m * 2 ^ e.toNat)
      if x < loOf t then (loOf t, Exc.invalid)
      else if hiOf t < x then (hiOf t, Exc.invalid)
      else (x, { Exc.none with x := inex })
    | _ => (0, Exc.none)

/-- Element width, elements per container and container code of a container type (R63). -/
def contW : Ty → Nat
  | .t8 => 8
  | .t6 => 6
  | _ => 4
def contE : Ty → Nat
  | .t8 => 15
  | .t6 => 20
  | _ => 30
def contTag : Ty → Nat
  | .t8 => 1
  | .t6 => 2
  | .t4 => 3
  | _ => 4

/-- XOR of 30 bits from `lo`. -/
def parity30 (x lo : Nat) : Nat := popc (x / 2 ^ lo) 30 % 2

/-- A container of these element codes, with tag and parity (R63). -/
def mkCont (t : Ty) (els : List Nat) : Nat :=
  let p := els.zipIdx.foldl (fun a e => a + e.1 % 2 ^ contW t * 2 ^ (contW t * e.2)) 0
  p + contTag t * 2 ^ 120 + parity30 p 0 * 2 ^ 124 + parity30 p 30 * 2 ^ 125 + parity30 p 60 * 2 ^ 126
    + parity30 p 90 * 2 ^ 127

/-- TAG and the four parity checks of a container (R64). -/
def contTagOf (c : Nat) : Nat := c / 2 ^ 120 % 16
def contParOk (c : Nat) : Bool :=
  decide (parity30 c 0 = c / 2 ^ 124 % 2) && decide (parity30 c 30 = c / 2 ^ 125 % 2)
    && decide (parity30 c 60 = c / 2 ^ 126 % 2) && decide (parity30 c 90 = c / 2 ^ 127 % 2)
def contOk (t : Ty) (c : Nat) : Bool := decide (contTagOf c = contTag t) && contParOk c

/-- Element j of a container (R63). -/
def contEl (t : Ty) (c j : Nat) : Nat := c / 2 ^ (contW t * j) % 2 ^ contW t

/-- A 4-bit two's-complement value (R53). -/
def s4Val (x : Nat) : Int := if x % 16 < 8 then ((x % 16 : Nat) : Int) else ((x % 16 : Nat) : Int) - 16

end Sys2Proof.Machine
end

