-- ==== Sys2Proof/Machine/Flags.lean ====
section
/-! DEFINITION. Conditions (R147, R186) and floating-point exceptions against FPXEN (R182). The machine has no arithmetic
flags: a comparison writes a mask or decides a branch, and an exception that is not enabled leaves no trace. -/

namespace Sys2Proof.Machine

/-- Whether a condition holds between two integers (R147). -/
def condInt (c : Cond) (a b : Int) : Bool :=
  match c with
  | .eq => decide (a = b)
  | .ne => decide (a ≠ b)
  | .lt => decide (a < b)
  | .le => decide (a ≤ b)
  | .gt => decide (b < a)
  | .ge => decide (b ≤ a)

/-- A scalar as an integer, two's complement or unsigned (R147). -/
def sval (sgn : Bool) (x : Word64) : Int := if sgn then x.toInt else (x.toNat : Int)

/-- Whether a condition holds between two scalars (R147). -/
def condScalar (c : Cond) (sgn : Bool) (a b : Word64) : Bool := condInt c (sval sgn a) (sval sgn b)

/-- Whether a condition holds between two floating-point values: with a NaN only .ne holds (R186). -/
def condFloat (c : Cond) (a b : FVal) : Bool :=
  if a.isNan ∨ b.isNan then decide (c = .ne)
  else match c with
    | .eq => a.eqv b
    | .ne => !a.eqv b
    | .lt => a.le b && !a.eqv b
    | .le => a.le b
    | .gt => b.le a && !a.eqv b
    | .ge => b.le a

/-- Whether some exception of the lanes is enabled by FPXEN (R182). -/
def anyMeets (l : List Exc) (en : BitVec 8) : Bool := l.any fun e => e.meets en

end Sys2Proof.Machine
end

