-- ==== Sys2Proof/Machine/Memory.lean ====
section
/-! DEFINITION. Memory, level by level: the two views of DRAM and the homes (R102, R104), the cache ways of a core, the
vertical bus, versions at the homes and their commit (R105, R106, R251, R252), host memory, page walks and translation
(R318 to R321). Weak and strong accesses of bytes are here; what an instruction does with them is in Ops.lean. -/

namespace Sys2Proof.Machine

/-- Bytes of one vault (R12). -/
def vaultBytes : Nat := 0x90000000

/-- The cell of a physical address: interleaved below 0x0120_0000_0000, pinned from 0x1000_0000_0000 (R102). -/
def cellOf (pa : Nat) : Option Nat :=
  if pa < 0x012000000000 then
    let g := pa / 4096
    let v := (g % 512) ^^^ (g / 512 % 512) ^^^ (g / 0x40000 % 512) ^^^ (g / 0x8000000 % 4)
    some (v * vaultBytes + g / 512 * 4096 + pa % 4096)
  else if 0x100000000000 ≤ pa then
    let o := pa - 0x100000000000
    if o / 0x100000000 < 512 ∧ o % 0x100000000 < vaultBytes then
      some (o / 0x100000000 * vaultBytes + o % 0x100000000)
    else none
  else none

/-- Whether an address is named by the pinned view (R102). -/
def isPinned (pa : Nat) : Bool := decide (0x100000000000 ≤ pa)

/-- The vault of a cell. -/
def vaultOf (cell : Nat) : Nat := cell / vaultBytes

/-- The home slice of a physical line (R104). -/
def homeSlice (pa : Nat) : Nat :=
  if isPinned pa then
    let v := (pa - 0x100000000000) / 0x100000000
    256 * (v / 128) + 2 * (v % 128) + pa / 256 % 2
  else
    let l := pa / 256
    (l % 1024) ^^^ (l / 1024 % 1024) ^^^ (l / 0x100000 % 1024) ^^^ (l / 0x40000000 % 1024)

/-- Where a translated address leads. -/
inductive Loc where
  | dram (pa cell : Nat)
  | host (pa : Nat)
  | peer (node pa : Nat)
  | column (off : Nat)
  deriving DecidableEq, Repr

/-- The key of a cached sector: DRAM by cell, host lines apart (R255). -/
def hostKey (pa : Nat) : Nat := 0x1000000000000 + pa / 64

/-- Byte i of a copy. -/
def CLine.byte (x : CLine) (i : Nat) : Byte := x.data.extractLsb' (8 * i) 8

/-- Whether any two-bit field of a mode register, of `n` fields, has this value (R93, R97). -/
def anyMode (w : Word64) (v : Nat) (n : Nat) : Bool :=
  (List.range n).any fun i => decide ((w.toNat / 4 ^ i) % 4 = v)

/-- A core with a cache way: a core-store bank or a column way in cache mode (R93, R97). -/
def Core.hasCache (c : Core) : Bool := anyMode c.bankMode 0 32 || anyMode c.colWays 0 16

/-- The copy that a core may serve a weak load from: a copy of a host line, or one whose lease covers the core's time (R251,
R255). -/
def Core.serves (c : Core) (key : Nat) : Option CLine :=
  match tget c.cache key with
  | some x => if 0x1000000000000 ≤ key ∨ c.time ≤ x.lease then some x else none
  | none => none

/-! ### The vault and the line at the home slice (R105) -/

/-- A line that holds nothing. -/
def SLine.empty : SLine := ⟨[], 0, 0, 0⟩

/-- The line of a home, by cell divided by 256. -/
def State.line (s : State) (n : Nat) : SLine := (tget s.lines n).getD SLine.empty

/-- A byte in its vault; a byte nothing has written reads zero (log 1). -/
def State.vaultByte (s : State) (cell : Nat) : Byte := cget 0 s.dram cell

/-- Whether a cell is of APPEND in the header of a queue that was registered (R276, R277, R279). -/
def State.onAppend (s : State) (cell : Nat) : Bool :=
  s.ctxs.any fun e => e.2.qcells.any fun q => decide (q.2 + 48 ≤ cell) && decide (cell < q.2 + 56)

/-- A byte of package DRAM as committed at its home: in the slice's line, else in the vault; APPEND reads as 0 (R276). -/
def State.dramByte (s : State) (cell : Nat) : Byte :=
  if s.onAppend cell then 0 else (tget (s.line (cell / 256)).data (cell % 256)).getD (s.vaultByte cell)

/-- What reading bytes through their home does: a sector that the slice does not hold is read in the vault, and one that the
vault cannot correct is poisoned at the home and counted for the vault (R326, R349). -/
def State.vaultRead (s : State) (cell n : Nat) : State :=
  if s.vaultBad.isEmpty then s
  else
    let held := fun p => (s.line (p / 4)).valid.getLsbD (p % 4) || decide ((s.line (p / 4)).mask.extractLsb' (8 * (p % 4)) 8 = 0xFF)
    let new := s.vaultBad.filter fun p =>
      decide (64 * p < cell + n) && decide (cell < 64 * p + 64) && !held p && !s.poison.contains p
    new.foldl (fun (s : State) p => s.countErr .vault (vaultOf (64 * p)) .poisoned) { s with poison := s.poison ++ new }

/-- Fill the sector of a cell from the vault: the bytes that are not written (R105, R326). -/
def State.fillHome (s : State) (cell : Nat) : State :=
  let x := s.line (cell / 256)
  let k := cell % 256 / 64
  if x.valid.getLsbD k then s
  else { s.vaultRead (cell / 64 * 64) 64 with lines := tset s.lines (cell / 256) { x with
    data := (List.range 64).foldl (fun m i =>
      if (tget m (64 * k + i)).isSome then m else tset m (64 * k + i) (s.vaultByte (cell / 64 * 64 + i))) x.data,
    valid := x.valid ||| ((1 : BitVec 4) <<< k) } }

/-- Put one byte into its home's line, its sector dirty, its word written (R105); on APPEND it is dropped (R279). -/
def State.putByte (s : State) (cell : Nat) (v : Byte) : State :=
  let x := s.line (cell / 256)
  if s.onAppend cell then s
  else { s with lines := tset s.lines (cell / 256) { x with
    data := tset x.data (cell % 256) v,
    dirty := x.dirty ||| ((1 : BitVec 4) <<< (cell % 256 / 64)), mask := x.mask ||| ((1 : BitVec 32) <<< (cell % 256 / 8)) } }

/-- Put bytes, one after the other. -/
def State.putBytes (s : State) (cell : Nat) : List Byte → State
  | [] => s
  | v :: t => (s.putByte cell v).putBytes (cell + 1) t

/-- Write committed bytes at the home: whole aligned words with no fill; a word written in part, in a sector that is not valid,
after its sector is filled (R105). -/
def State.dramWrite (s : State) (cell : Nat) (d : List Byte) : State :=
  let s := if d.isEmpty ∨ cell % 8 = 0 then s else s.fillHome cell
  let s := if d.isEmpty ∨ (cell + d.length) % 8 = 0 then s else s.fillHome (cell + d.length - 1)
  s.putBytes cell d

/-- The write-back of a home's line: each dirty sector goes to the vault under the word mask, and the slice holds the line no
longer. A sector written whole is good again in its vault (R105, R326). -/
def State.lineOut (s : State) (n : Nat) : State :=
  match tget s.lines n with
  | none => s
  | some x =>
    { s with
      dram := (List.range 256).foldl (fun m i =>
        if x.mask.getLsbD (i / 8) && x.dirty.getLsbD (i / 64) then cset 0 m (256 * n + i) ((tget x.data i).getD 0) else m) s.dram,
      lines := tdel s.lines n,
      vaultBad := s.vaultBad.filter fun p => !(decide (p / 4 = n) && decide (x.mask.extractLsb' (8 * (p % 4)) 8 = 0xFF)) }

/-- A byte at the home as a block reads it: its own version first (R252). -/
def State.homeByte (s : State) (bid : Option Nat) (cell : Nat) : Byte :=
  match bid.bind s.blk with
  | some b => if s.onAppend cell then 0 else (tget b.vers cell).getD (s.dramByte cell)
  | none => s.dramByte cell

/-- Whether a list of poisoned sectors holds one that a range of a store touches (R326, R342). -/
def sectorsBad (l : List Nat) (lo n : Nat) : Bool := l.any fun p => decide (64 * p < lo + n) && decide (lo < 64 * p + 64)

/-- The poisoned sectors that a write of a range leaves: those it does not cover whole (R326). -/
def sectorsLeft (l : List Nat) (lo n : Nat) : List Nat := l.filter fun p => !(decide (lo ≤ 64 * p) && decide (64 * p + 64 ≤ lo + n))

/-- Clear the poison of the sectors that a write of 64 whole bytes covers (R326). -/
def State.unpoison (s : State) (cell n : Nat) : State :=
  { s with poison := s.poison.filter fun p => !(decide (cell ≤ 64 * p) && decide (64 * p + 64 ≤ cell + n)) }

/-- Whether a read of these cells consumes poison: a poisoned sector, or a vault made fallow (R326, R352). -/
def State.poisoned (s : State) (cell n : Nat) : Bool :=
  s.poison.any (fun p => decide (64 * p < cell + n) && decide (cell < 64 * p + 64))
    || s.unitFallow .vault (vaultOf cell)

/-- Whether the home slice and the vault of an address are ready; else the access parks, a vertical store of the owner core
too (R359, log 66). -/
def State.parks (s : State) (pa cell : Nat) : Bool :=
  !(s.unitReady .slice (homeSlice pa)) || (!(s.unitReady .vault (vaultOf cell)) && !(s.unitFallow .vault (vaultOf cell)))

/-! ### Stores on their way to the homes (R106, R205, R217, R252) -/

/-- The sectors that a store touches. -/
def VWrite.sectors (e : VWrite) : List Nat := (List.range ((e.addr % 64 + e.data.length + 63) / 64)).map fun i => e.addr / 64 + i

/-- Whether a store touches cells. -/
def VWrite.touches (e : VWrite) (cell n : Nat) : Bool := decide (e.addr < cell + n) && decide (cell < e.addr + e.data.length)

/-- The sectors whose poison a store clears: those it covers whole, and those that its instruction covers whole with it
(R326). -/
def VWrite.cleans (e : VWrite) : List Nat :=
  e.clean ++ e.sectors.filter fun p => decide (e.addr ≤ 64 * p) && decide (64 * p + 64 ≤ e.addr + e.data.length)

/-- A store takes effect at its home: as a version of the block whose mark it carries, else committed; a core's clean copies of
the sectors it writes are gone (R248, R252, R326). -/
def State.landHome (s : State) (c : Nat) (e : VWrite) : State :=
  match e.block.bind fun b => (s.blk b).map fun x => (b, x) with
  | none =>
    let s := s.dramWrite e.addr e.data
    let s := { s with poison := s.poison.filter fun p => !e.cleans.contains p }
    s.modCore c fun k => { k with cache := k.cache.filter fun x => !e.sectors.contains x.1 }
  | some (bid, b) =>
    s.setBlk bid { b with
      vers := (e.data.zipIdx).foldl (fun m x => tset m (e.addr + x.2) x.1) b.vers, vclean := e.cleans ++ b.vclean }

/-- The oldest stores of a core go home, in order. -/
def State.landQ (s : State) (c : Nat) : Nat → State
  | 0 => s
  | n + 1 => match (s.core c).wq with
    | [] => s
    | e :: t => ((s.modCore c fun k => { k with wq := t }).landHome c e).landQ c n

/-- How many stores of a list there are up to the last that a test picks. -/
def throughLast (p : VWrite → Bool) : List VWrite → Nat
  | [] => 0
  | e :: t => if throughLast p t = 0 then (if p e then 1 else 0) else throughLast p t + 1

/-- Write back the stores to these cells, with every older store of the core: each slot's stores reach their homes in program
order (R205, R248). -/
def State.writeBack (s : State) (c cell n : Nat) : State := s.landQ c (throughLast (fun e => e.touches cell n) (s.core c).wq)

/-- Write back what stands dirty in a core's cache ways; what is on the upward bus stays there (R216, R217). -/
def State.writeBackAll (s : State) (c : Nat) : State :=
  let q := (s.core c).wq
  (q.filter fun e => !e.bus).foldl (fun s e => s.landHome c e) (s.modCore c fun k => { k with wq := q.filter fun e => e.bus })

/-- The first store that is on the bus lands in the column store. -/
def busOff : List VWrite → List VWrite
  | [] => []
  | e :: t => if e.bus then { e with bus := false } :: t else e :: busOff t

/-- Land the oldest write of the upward bus: in the column store's cache ways, or, where no way is in cache mode, in the vault,
with every older store (R217). -/
def State.landOne (s : State) (c : Nat) : State :=
  let q := (s.core c).wq
  if !q.any fun e => e.bus then s
  else if anyMode (s.core c).colWays 0 16 then s.modCore c fun k => { k with wq := busOff q }
  else s.landQ c ((q.takeWhile fun e => !e.bus).length + 1)

/-- Land every write of the upward bus (R217). -/
def State.landAll (s : State) (c : Nat) : State :=
  if anyMode (s.core c).colWays 0 16 then s.modCore c fun k => { k with wq := k.wq.map fun e => { e with bus := false } }
  else s.landQ c (throughLast (fun e => e.bus) (s.core c).wq)

/-- Commit a block's versions: at the homes, and the marks of its core's stores; a version of a whole sector clears its poison.
The core's clean copies of what is committed are gone (R248, R252, R326). -/
def State.commit (s : State) (bid : Nat) : State :=
  match s.blk bid with
  | none => s
  | some b =>
    let whole := fun c => (List.range 8).all fun i => (tget b.vers (c / 8 * 8 + i)).isSome
    let s := b.vers.foldl (fun (s : State) e => if whole e.1 then s else s.fillHome e.1) s
    let s := b.vers.foldl (fun (s : State) e => s.putByte e.1 e.2) s
    let s := { s with poison := s.poison.filter fun p => !b.vclean.contains p }
    let s := s.setBlk bid { b with vers := [], vclean := [], versLines := [] }
    s.modCore (coreOf bid) fun c =>
      { c with cache := c.cache.filter fun x => !b.vers.any fun e => decide (e.1 / 64 = x.1),
               wq := c.wq.map fun (e : VWrite) => if e.block = some bid then { e with block := none } else e }

/-- Discard a block's uncommitted versions: at the homes, and the stores it marked; the words are read afresh from their homes
(R252, R267, R345). -/
def State.discard (s : State) (bid : Nat) : State :=
  let lost := fun (e : VWrite) => decide (e.block = some bid)
  let s := s.modBlk bid fun b => { b with vers := [], vclean := [], versLines := [] }
  s.modCore (coreOf bid) fun c =>
    { c with
      cache := c.cache.filter fun x => !c.wq.any fun e => lost e && e.sectors.contains x.1,
      wq := c.wq.filter fun e => !lost e }

/-- Commit and open a block's interval (R252, R344). -/
def State.openInterval (s : State) (bid : Nat) : State :=
  (s.commit bid).modBlk bid fun b => { b with isOpen := true }

/-- The mark a weak store of a block leaves: none once its interval is open (R252). -/
def State.markOf (s : State) (bid : Option Nat) : Option Nat :=
  bid.bind fun i => (s.blk i).bind fun b => if b.isOpen then none else some i

/-- Count a version line against VERSIONBUDGET; a version beyond it opens the interval (R165, R344). -/
def State.chargeLine (s : State) (bid : Option Nat) (cell : Nat) : State :=
  match bid.bind fun i => (s.blk i).map fun b => (i, b) with
  | none => s
  | some (i, b) =>
    if b.isOpen ∨ b.versLines.contains (cell / 256) then s
    else if b.versBudget < 256 * (b.versLines.length + 1) then s.openInterval i
    else s.setBlk i { b with versLines := cell / 256 :: b.versLines }

/-- A weak store of bytes of one line to package DRAM: up the vertical bus from the owner core through the pinned view,
else into the cache ways, else at the home after every older store; `clean` are sectors that its instruction covers whole with
it (R106, R205, R208, R252). -/
def State.weakStore (s : State) (c : Nat) (bid : Option Nat) (pa cell : Nat) (d : List Byte) (clean : List Nat) : State :=
  let s := s.chargeLine bid cell
  let m := s.markOf bid
  if isPinned pa ∧ vaultOf cell = c then s.modCore c fun k => { k with wq := k.wq ++ [⟨cell, d, m, true, clean⟩] }
  else if (s.core c).hasCache then s.modCore c fun k => { k with wq := k.wq ++ [⟨cell, d, m, false, clean⟩] }
  else (s.landQ c (s.core c).wq.length).landHome c ⟨cell, d, m, false, clean⟩

/-- The newest store of a list that covers a cell and carries this mark. -/
def newest (q : List VWrite) (block : Option Nat) (cell : Nat) : Option Byte :=
  q.foldl (fun r e => if e.touches cell 1 ∧ e.block = block then e.data[cell - e.addr]? else r) none

/-- The uncommitted value that a block itself wrote to a cell: among its core's stores, else its version at the home (R252). -/
def State.ownByte (s : State) (c : Nat) (bid : Option Nat) (cell : Nat) : Option Byte :=
  match bid with
  | none => none
  | some b => (newest (s.core c).wq (some b) cell).or ((s.blk b).bind fun x => tget x.vers cell)

/-- One byte as a weak load of the block sees it: what it wrote itself and is not committed, what is committed on its core, a
copy in its cache ways, its home (R248, R251, R252). -/
def State.weakByte (s : State) (c : Nat) (bid : Option Nat) (cell : Nat) : Byte :=
  if s.onAppend cell then 0
  else match (s.ownByte c bid cell).or (newest (s.core c).wq none cell) with
  | some v => v
  | none => match (s.core c).serves (cell / 64) with
    | some x => x.byte (cell % 64)
    | none => s.dramByte cell

/-- Whether a weak read by a block of a sector consumes poison: of the copy it is served from, else of the home, unless a store
that it sees covers the sector whole (R326). -/
def State.sectorBad (s : State) (c : Nat) (bid : Option Nat) (strong : Bool) (p : Nat) : Bool :=
  (match if strong then none else (s.core c).serves p with
    | some x => x.poison
    | none => s.poison.contains p)
    && !((s.core c).wq.any fun e => (decide (e.block = none) || decide (e.block = bid)) && e.cleans.contains p)
    && !(match bid.bind s.blk with
      | some b => b.vclean.contains p
      | none => false)

/-- Whether a read of these cells by a block consumes poison (R326, R352). -/
def State.poisonedFor (s : State) (c : Nat) (bid : Option Nat) (strong : Bool) (cell n : Nat) : Bool :=
  (List.range ((cell % 64 + n + 63) / 64)).any (fun i => s.sectorBad c bid strong (cell / 64 + i))
    || s.unitFallow .vault (vaultOf cell)

/-- Bytes as a number of 512 bits. -/
def sectorBits (d : List Byte) : BitVec 512 := BitVec.ofNat 512 (d.foldr (fun b n => b.toNat + 256 * n) 0)

/-- A clean copy of a sector as its home holds it now, with a lease for the core's time (R105, R251, R326). -/
def State.copyOf (s : State) (c key : Nat) : CLine :=
  { data := sectorBits ((List.range 64).map fun i => s.dramByte (64 * key + i)), poison := s.poison.contains key,
    lease := (s.core c).time }

/-- Take copies of sectors into a core's cache ways. -/
def State.takeCopies (s : State) (c : Nat) (keys : List Nat) : State :=
  s.modCore c fun k => { k with cache := keys.foldl (fun m i => tset m i (s.copyOf c i)) k.cache }

/-- The other sector of a 128-byte half-line. -/
def sibling (key : Nat) : Nat := if key % 2 = 0 then key + 1 else key - 1

/-- Fill a sector that a weak load misses; the other sector of its half-line is read anew where there is a copy, so that copies
of one half-line are of one time (R105, R107, R251). -/
def State.fillSector (s : State) (c key : Nat) : State :=
  if (s.core c).hasCache ∧ ((s.core c).serves key).isNone then
    s.takeCopies c (key :: if (tget (s.core c).cache (sibling key)).isSome then [sibling key] else [])
  else s

/-- Fill a whole half-line (R107). -/
def State.fillHalf (s : State) (c key : Nat) : State :=
  if (s.core c).hasCache ∧ (((s.core c).serves key).isNone ∨ ((s.core c).serves (sibling key)).isNone) then s.takeCopies c [key, sibling key]
  else s

/-- A weak load of bytes inside one sector, or of a half-line, with the fill it makes (R107, R251). -/
def State.weakLoad (s : State) (c : Nat) (bid : Option Nat) (cell n : Nat) : State × List Byte :=
  let s := if n = 128 then s.fillHalf c (cell / 64) else s.fillSector c (cell / 64)
  (s, (List.range n).map fun i => s.weakByte c bid (cell + i))

/-- Bring the core's own stores to these cells home before a strong access, with every older store, and drop its copies of their
sectors (R248, R250). -/
def State.toHome (s : State) (c cell n : Nat) : State :=
  (s.writeBack c cell n).modCore c fun k =>
    { k with cache := k.cache.filter fun x => !(decide (64 * x.1 < cell + n) && decide (cell < 64 * x.1 + 64)) }

/-- A strong read at the home (R250). -/
def State.strongLoad (s : State) (c : Nat) (bid : Option Nat) (cell n : Nat) : State × List Byte :=
  let s := s.toHome c cell n
  (s, (List.range n).map fun i => s.homeByte bid (cell + i))

/-- A strong write at the home: committed; the block's versions were committed before it (R208, R250, R252). -/
def State.strongStore (s : State) (c : Nat) (bid : Option Nat) (cell : Nat) (d : List Byte) : State :=
  let s := s.toHome c cell d.length
  let s := match bid with
    | some b => s.openInterval b
    | none => s
  (s.dramWrite cell d).unpoison cell d.length

/-- The release side of R216, the part that acts on the caches: at .dev and .sys what is dirty goes home and the block's
versions are committed; a release opens the interval (R344). Host memory is written through. -/
def State.releaseSide (s : State) (c : Nat) (bid : Option Nat) (sc : Scope) : State :=
  match sc with
  | .blk => s
  | .core => s
  | _ =>
    let s := s.writeBackAll c
    match bid with
    | some b => s.openInterval b
    | none => s

/-- The acquire side of R216: the core's time passes every lease it holds, so copies made before are not served again; at .sys
the copies of host lines are given up too. -/
def State.acquireSide (s : State) (c : Nat) (sc : Scope) : State :=
  match sc with
  | .blk => s
  | .core => s
  | _ => s.modCore c fun k =>
    { k with
      time := k.cache.foldl (fun n e => max n e.2.lease) k.time + 1,
      cache := if sc = .sys then k.cache.filter fun e => decide (e.1 < 0x1000000000000) else k.cache }

/-! ### Translation (R318 to R321) -/

/-- Eight bytes of a page table at a physical address, read at the home as a strong load (R320): or the cause, 0 while the home
is not ready (R359). -/
def State.ptRead (s : State) (pa : Nat) : Except Nat Word64 :=
  match cellOf pa with
  | none => .error cPROTFAULT
  | some cell =>
    if s.parks pa cell then .error 0
    else if s.poisoned cell 8 then .error cUCE
    else .ok (BitVec.ofNat 64 (leNat ((List.range 8).map fun i => s.dramByte (cell + i))))

/-- The index of an address at a level (R318). -/
def ptIndex (va lvl : Nat) : Nat :=
  match lvl with
  | 0 => va / 0x10000 % 32
  | 1 => va / 0x200000 % 512
  | 2 => va / 0x40000000 % 512
  | 3 => va / 0x8000000000 % 512
  | _ => va / 0x1000000000000 % 512

/-- Bits [hi:lo] of an entry. -/
def bitsOf (e : Word64) (hi lo : Nat) : Nat := e.toNat / 2 ^ lo % 2 ^ (hi - lo + 1)

/-- Whether a leaf is well formed for the walk: reserved bits zero, PFN aligned for its level (R319, R320). -/
def leafOk (e : Word64) (lvl : Nat) : Bool :=
  decide (lvl ≤ 2) && decide (bitsOf e 8 6 = 0) && decide (bitsOf e 2 2 = 0)
    && (match lvl with
      | 0 => true
      | 1 => decide (bitsOf e 16 12 = 0)
      | _ => decide (bitsOf e 25 12 = 0))

/-- The part of an address that an entry of a level translates (R318). -/
def ptPre (va lvl : Nat) : Nat :=
  match lvl with
  | 0 => va / 0x10000
  | 1 => va / 0x200000
  | 2 => va / 0x40000000
  | 3 => va / 0x8000000000
  | _ => va / 0x1000000000000

/-- Whether a cached entry is that of a level for an address (R321). -/
def XEnt.hit (x : XEnt) (t : Tag) (lvl : Option Nat) (pre : Nat) : Bool :=
  decide (x.tag = t) && decide (x.lvl = lvl) && decide (x.pre = pre)

/-- The translation cache of a slice (R321). -/
def State.slCache (s : State) (n : Nat) : List XEnt := (tget s.xlat n).getD []

/-- The entry of a level for an address: from the core's TLB, from the translation cache of its home slice, or from memory
(R320, R321). -/
def State.ptEntry (s : State) (c : Nat) (t : Tag) (va lvl pa : Nat) : Except Nat Word64 :=
  let p := fun (x : XEnt) => x.hit t (some lvl) (ptPre va lvl)
  match ((s.core c).tlb.find? p).or ((s.slCache (homeSlice pa)).find? p) with
  | some x => .ok x.e
  | none => s.ptRead pa

/-- The walk of R320: the leaf and its level, or the cause; with the entries it went through, each with its home slice. -/
def State.walk (s : State) (c : Nat) (t : Tag) (va : Nat) : Nat → Nat → List (Nat × XEnt) → Except Nat (Word64 × Nat × List (Nat × XEnt))
  | lvl, p, acc =>
    let pa := p + 8 * ptIndex va lvl
    match s.ptEntry c t va lvl pa with
    | .error k => .error k
    | .ok e =>
      let acc := (homeSlice pa, ⟨t, some lvl, ptPre va lvl, e, true⟩) :: acc
      if e.getLsbD 0 = false then .error cPAGEFAULT
      else if e.getLsbD 1 then (if leafOk e lvl then .ok (e, lvl, acc) else .error cPROTFAULT)
      else match lvl with
        | 0 => .error cPROTFAULT
        | l + 1 =>
          if bitsOf e 63 48 ≠ 0 ∨ bitsOf e 7 2 ≠ 0 then .error cPROTFAULT
          else
            let q := bitsOf e 47 8 * 256
            if (2 ≤ l + 1 ∧ q % 4096 ≠ 0) ∨ (cellOf q).isNone then .error cPROTFAULT
            else s.walk c t va l q acc

/-- Keep entries in a translation cache: those it does not hold yet. -/
def keepEnts (l : List XEnt) (n : List XEnt) : List XEnt := n.foldl (fun l x => if l.contains x then l else x :: l) l

/-- What a walk leaves in the caches: its entries in those of their slices, the entries above the leaf and the granule in the
core's TLB (R321). -/
def State.cacheWalk (s : State) (c : Nat) (path : List (Nat × XEnt)) (g : XEnt) : State :=
  let s := { s with xlat := path.foldl (fun (m : Tbl (List XEnt)) (e : Nat × XEnt) => tset m e.1 (keepEnts ((tget m e.1).getD []) [e.2])) s.xlat }
  s.modCore c fun k => { k with tlb := keepEnts k.tlb (g :: (path.drop 1).map fun (e : Nat × XEnt) => e.2) }

/-- Bytes that a leaf maps at its level (R318). -/
def leafSize : Nat → Nat
  | 0 => 0x10000
  | 1 => 0x200000
  | _ => 0x40000000

/-- What an access needs of a leaf (R320). -/
structure Need where
  r : Bool
  w : Bool
  x : Bool
  deriving DecidableEq, Repr

/-- The leaf as if for one 64 KiB granule: what a TLB entry holds (R319, R321). -/
def granuleLeaf (e : Word64) (lvl va : Nat) : Word64 :=
  BitVec.ofNat 64 (e.toNat + va % leafSize lvl / 0x10000 * 2 ^ 12)

/-- Rights, type, aperture, peer set and poison of a leaf, in the order of R320, for one granule leaf; `whole` says
whether the page's physical range lies in the view that PIN names. -/
def State.checkLeaf (s : State) (t : Tag) (e : Word64) (whole : Bool) (va : Nat) (nd : Need) : Except Nat Loc :=
  let ctx := s.ctx t.slot
  let ty := bitsOf e 11 10
  let pin := e.getLsbD 9
  let node := bitsOf e 62 44
  let pa := bitsOf e 43 12 * 0x10000 + va % 0x10000
  let inAp := decide (ctx.rcd.aperture ≤ va) && decide (va < ctx.rcd.aperture + 0x20000000000)
  if (nd.r && !e.getLsbD 3) || (nd.w && !e.getLsbD 4) || (nd.x && !e.getLsbD 5) then .error cPROTFAULT
  else if ty = 3 ∨ (pin ∧ ty ≠ 0) ∨ (node ≠ 0 ∧ ty ≠ 1) ∨ (ty = 1 ∧ node = s.nodeId) then .error cATTRFAULT
  else if ty = 0 ∧ (!whole ∨ isPinned pa ≠ pin ∨ (cellOf pa).isNone) then .error cATTRFAULT
  else if inAp ∧ (ty ≠ 0 ∨ !pin ∨ pa ≠ 0x100000000000 + (va - ctx.rcd.aperture)) then .error cATTRFAULT
  else if ty = 1 ∧ node / 4096 ≠ s.nodeId / 4096 then .error cATTRFAULT
  else if ty = 1 ∧ (!ctx.rcd.peers.contains node ∨ ctx.unreachable.contains node) then .error cPROTFAULT
  else if e.getLsbD 63 then .error cUCE
  else match ty with
    | 0 => match cellOf pa with
      | some cell => .ok (.dram pa cell)
      | none => .error cATTRFAULT
    | 1 => .ok (.peer node pa)
    | _ => .ok (.host pa)

/-- Whether the whole page of a leaf lies in the view that PIN names (R320). -/
def wholeInView (e : Word64) (lvl : Nat) : Bool :=
  let pa := bitsOf e 43 12 * 0x10000
  let n := leafSize lvl
  if e.getLsbD 9 then
    isPinned pa && (cellOf pa).isSome && (cellOf (pa + n - 1)).isSome
      && decide ((pa - 0x100000000000) / 0x100000000 = (pa + n - 1 - 0x100000000000) / 0x100000000)
  else decide (pa + n ≤ 0x012000000000)

/-- Translate an address of a context for an access from a core: the TLB entry, else a walk that fills the caches (R320, R321);
the cause 0 says that the access waits for the home of a page table. Slot 0 uses physical addresses with every right (log 9). -/
def State.translate (s : State) (c : Nat) (t : Tag) (va : Nat) (nd : Need) : State × Except Nat Loc :=
  if 0x200000000000000 ≤ va then (s, .error cPROTFAULT)
  else if t.slot = 0 then
    (s, match cellOf va with
      | some cell => .ok (.dram va cell)
      | none => .error cPROTFAULT)
  else match (s.core c).tlb.find? fun x => x.hit t none (va / 0x10000) with
    | some x => (s, s.checkLeaf t x.e x.whole va nd)
    | none => match s.walk c t va 4 (s.ctx t.slot).rcd.ptroot [] with
      | .error k => (s, .error k)
      | .ok (e, lvl, path) =>
        let g : XEnt := ⟨t, none, va / 0x10000, granuleLeaf e lvl va, wholeInView e lvl⟩
        (s.cacheWalk c path g, s.checkLeaf t g.e g.whole va nd)

/-- An access of the firmware or of a unit to a context's memory, one byte range inside a granule: at the home, strong. -/
def State.sysRead (s : State) (c : Nat) (t : Tag) (va n : Nat) : State × Option (List Byte) :=
  match s.translate c t va ⟨true, false, false⟩ with
  | (s, .ok (.dram _ cell)) =>
    let s := s.vaultRead cell n
    if s.poisoned cell n then (s, none)
    else let r := s.strongLoad c none cell n; (r.1, some r.2)
  | (s, .ok (.host pa)) => (s, some ((List.range n).map fun i => cget 0 s.hostMem (pa + i)))
  | (s, _) => (s, none)

/-- A range read piece by piece: 64 bytes at a time (R325). -/
def State.sysReadN (s : State) (c : Nat) (t : Tag) (va : Nat) : Nat → Nat → State × Option (List Byte)
  | 0, _ => (s, some [])
  | fuel + 1, n =>
    if n = 0 then (s, some [])
    else
      let m := min n (64 - va % 64)
      match s.sysRead c t va m with
      | (s, none) => (s, none)
      | (s, some d) => match s.sysReadN c t (va + m) fuel (n - m) with
        | (s, some r) => (s, some (d ++ r))
        | (s, none) => (s, none)

/-- Read `n` bytes at a virtual address, none where they cannot be read. -/
def State.sysBytes (s : State) (c : Nat) (t : Tag) (va n : Nat) : State × Option (List Byte) :=
  s.sysReadN c t va (n / 64 + 2) n

/-- A strong write of the firmware or of a unit to a context's memory, with or without the need of the right W; false where it
cannot be performed. -/
def State.sysWrite (s : State) (c : Nat) (t : Tag) (w : Bool) (va : Nat) (d : List Byte) : State × Bool :=
  match s.translate c t va ⟨false, w, false⟩ with
  | (s, .ok (.dram _ cell)) => (s.strongStore c none cell d, true)
  | (s, .ok (.host pa)) =>
    ({ s with hostMem := (d.zipIdx).foldl (fun m e => cset 0 m (pa + e.2) e.1) s.hostMem }, true)
  | (s, _) => (s, false)

/-- Write a range piece by piece. -/
def State.sysWriteN (s : State) (c : Nat) (t : Tag) (w : Bool) (va : Nat) : Nat → List Byte → State × Bool
  | 0, _ => (s, true)
  | fuel + 1, d =>
    if d.isEmpty then (s, true)
    else
      let m := min d.length (64 - va % 64)
      match s.sysWrite c t w va (d.take m) with
      | (s, false) => (s, false)
      | (s, true) => s.sysWriteN c t w (va + m) fuel (d.drop m)
def State.sysPut (s : State) (c : Nat) (t : Tag) (va : Nat) (d : List Byte) : State × Bool :=
  s.sysWriteN c t true va (d.length / 64 + 2) d

/-- What the firmware writes into a kernel's header: no right is needed for it (R289, R290, log 34). -/
def State.sysHead (s : State) (t : Tag) (va : Nat) (d : List Byte) : State :=
  (s.sysWriteN fwCore t false va (d.length / 64 + 2) d).1

/-- A little-endian field of a byte list. -/
def fld (d : List Byte) (off n : Nat) : Nat := leNat ((d.drop off).take n)

/-- Whether all bytes of a range are zero. -/
def zeros (d : List Byte) (off n : Nat) : Bool := ((d.drop off).take n).all fun b => decide (b = 0)

end Sys2Proof.Machine
end

