-- ==== Sys2Proof/Machine/Queues.lean ====
section
/-! DEFINITION. Queues in memory (R246, R276 to R279) and the events the part posts (R283). -/

namespace Sys2Proof.Machine

/-- A queue header as the home reads it (R276). -/
structure QHdr where
  cell : Nat
  kind : Nat
  state : Nat
  log2 : Nat
  ring : Nat
  tail : Nat
  head : Nat
  slack : Nat
  missed : Nat
  lost : Nat
  ok : Bool

/-- The header of these 256 bytes; `ok` says that it is valid (R276). -/
def QHdr.parse (cell : Nat) (d : List Byte) : QHdr :=
  let kind := fld d 0 1
  let lg := fld d 2 1
  { cell := cell, kind := kind, state := fld d 1 1, log2 := lg, ring := fld d 8 8, tail := fld d 16 8, head := fld d 24 8,
    slack := fld d 32 8, missed := fld d 40 8, lost := fld d 56 8,
    ok := (decide (kind = 1) || decide (kind = 2)) && decide (1 ≤ lg) && decide (lg ≤ 20) && zeros d 3 5 && zeros d 64 192
      && decide (fld d 8 8 % 128 = 0) }

/-- Read a header at its home in a context's address space: package memory that may be read and written (R246). -/
def State.qread (s : State) (c : Nat) (t : Tag) (va : Nat) : State × Option QHdr :=
  if va % 256 ≠ 0 then (s, none)
  else match s.translate c t va ⟨true, true, false⟩ with
    | (s, .ok (.dram _ cell)) =>
      let s := [0, 64, 128, 192].foldl (fun s o => s.toHome c (cell + o) 64) s
      (s, some (QHdr.parse cell ((List.range 256).map fun i => s.dramByte (cell + i))))
    | (s, _) => (s, none)

/-- Whether a header is one of the context's registered queues (R277). -/
def State.registered (s : State) (t : Tag) (va : Nat) : Bool :=
  (s.ctx t.slot).rcd.queues.contains va || (decide (va ≠ 0) && decide ((s.ctx t.slot).rcd.eventq = va))

/-- The status word of R246. -/
def qStatus (st ix : Nat) : Word64 := BitVec.ofNat 64 (st + if st = 0 then ix % 2 ^ 32 * 2 ^ 32 else 0)

/-- Append an entry of 128 bytes as one event at the home of the header (R246). `want` is the KIND asked for, none for
either (R279). The arrival of a launch packet is recorded for the firmware (R280, R281). -/
def State.qappend (s : State) (c : Nat) (t : Tag) (va : Nat) (want : Option Nat) (entry : List Byte) : State × Word64 :=
  match s.qread c t va with
  | (s, none) => (s, qStatus 3 0)
  | (s, some h) =>
    if !s.registered t va then (s, qStatus 3 0)
    else if h.state = 1 ∨ (s.ctx t.slot).withdrawn then (s, qStatus 2 0)
    else if !h.ok ∨ (want.isSome ∧ want ≠ some h.kind) then (s, qStatus 3 0)
    else if (h.tail + 2 ^ 64 - h.head) % 2 ^ 64 = 2 ^ h.log2 then (s, qStatus 1 0)
    else
      match s.translate c t (h.ring + h.tail % 2 ^ h.log2 * 128) ⟨false, true, false⟩ with
      | (s, .ok (.dram _ slot)) =>
        let s := s.toHome c slot 64
        let s := s.toHome c (slot + 64) 64
        let s := s.dramWrite slot entry
        let s := s.dramWrite (h.cell + 16) (toLE 8 (h.tail + 1))
        let s := if h.kind = 1 then { s with arrivals := s.arrivals ++ [(h.cell, h.tail, s.ns)] } else s
        (s, qStatus 0 h.tail)
      | (s, _) => (s, qStatus 3 0)

/-- Take the entry at HEAD as one event at the home (R246). -/
def State.qpopEntry (s : State) (c : Nat) (t : Tag) (va : Nat) : State × Word64 × List Byte :=
  match s.qread c t va with
  | (s, none) => (s, qStatus 3 0, [])
  | (s, some h) =>
    if !s.registered t va then (s, qStatus 3 0, [])
    else if h.state = 1 ∨ (s.ctx t.slot).withdrawn then (s, qStatus 2 0, [])
    else if !h.ok ∨ h.kind ≠ 2 then (s, qStatus 3 0, [])
    else if h.head = h.tail then (s, qStatus 1 0, [])
    else
      match s.translate c t (h.ring + h.head % 2 ^ h.log2 * 128) ⟨true, false, false⟩ with
      | (s, .ok (.dram _ slot)) =>
        let s := s.toHome c slot 64
        let s := s.toHome c (slot + 64) 64
        let d := (List.range 128).map fun i => s.dramByte (slot + i)
        (s.dramWrite (h.cell + 24) (toLE 8 (h.head + 1)), qStatus 0 h.head, d)
      | (s, _) => (s, qStatus 3 0, [])

/-- The fields of an event entry (R283). -/
structure EventRec where
  ty : Nat
  cause : Nat
  qix : Nat
  blockId : Nat
  kernel : Nat
  faultPc : Nat
  core : Nat
  skid : Nat
  interval : Nat

/-- Post an event to a context's event queue; a full or closed queue loses it and counts LOST (R283). -/
def State.postEvent (s : State) (t : Tag) (e : EventRec) : State :=
  let q := (s.ctx t.slot).rcd.eventq
  let c := fwCore
  if q = 0 then s
  else
    let d := toLE 1 e.ty ++ toLE 1 e.cause ++ toLE 2 e.qix ++ toLE 4 e.blockId ++ toLE 8 e.kernel ++ toLE 8 s.ns
      ++ toLE 8 e.faultPc ++ toLE 2 e.core ++ toLE 1 e.skid ++ [0] ++ toLE 4 e.interval ++ toLE 88 0
    match s.qappend c t q (some 2) d with
    | (s, st) =>
      if st.toNat % 256 = 0 then s
      else match s.qread c t q with
        | (s, some h) => s.dramWrite (h.cell + 56) (toLE 8 (h.lost + 1))
        | (s, none) => s

/-- The event record of a block's fault. -/
def Block.event (b : Block) (bid ty cause faultPc skid : Nat) : EventRec :=
  { ty := ty, cause := cause, qix := 0, blockId := b.blockId, kernel := b.kern.addr, faultPc := faultPc,
    core := coreOf bid, skid := skid, interval := if ty = 5 then b.interval else 0 }

end Sys2Proof.Machine
end

