-- ==== Sys2Proof/Machine/Link.lean ====
section
/-! DEFINITION. Packets and flits of the link (R327 to R334): the header, the virtual channels, routes, and the sending of
a packet through a port. -/

namespace Sys2Proof.Machine

/-- The key of a fetch among the answers of an issuer; the keys of a waiter's poll, of a send, of an announcement, of a
request that nothing waits for, of an update of a barrier object, and of a counted store's increments. -/
def fetchKey : Nat := 1000
def pollKey : Nat := 1001
def sendKey : Nat := 1002
def announceKey : Nat := 1003
def noKey : Nat := 1004
def objKey : Nat := 1005
def cntKey : Nat := 1006

/-- KIND codes (R328). -/
def kindCode : PKind → Nat
  | .read => 1 | .write => 2 | .atomic => 3 | .response => 4 | .staleRefusal => 5 | .message => 6 | .contribution => 7
  | .result => 8 | .kill => 9 | .announcement => 10 | .acknowledgement => 11

/-- The KIND of a code; others are reserved (R328). -/
def kindOf (c : Nat) : Option PKind :=
  match c with
  | 1 => some .read | 2 => some .write | 3 => some .atomic | 4 => some .response | 5 => some .staleRefusal
  | 6 => some .message | 7 => some .contribution | 8 => some .result | 9 => some .kill | 10 => some .announcement
  | 11 => some .acknowledgement | _ => none

/-- The virtual channel of a KIND (R329). -/
def vcOf : PKind → Nat
  | .read => 0 | .write => 0 | .atomic => 0 | .message => 0
  | .response => 1 | .staleRefusal => 1 | .acknowledgement => 1
  | .contribution => 2 | .result => 2
  | .kill => 3 | .announcement => 3

/-- Flits of a packet: 32 header bytes and the data, 248 bytes a flit (R327, R328). -/
def pktFlits (p : Packet) : Nat := max 1 ((32 + p.data.length + 247) / 248)

/-- The 32 header bytes (R328). -/
def pktHeader (p : Packet) : List Byte :=
  toLE 32 (p.dest * 2 ^ 237 + p.src * 2 ^ 218 + (p.tagSlot * 1024 + p.tagInc) * 2 ^ 198 + min p.age 4095 * 2 ^ 186
    + vcOf p.kind * 2 ^ 184 + kindCode p.kind * 2 ^ 178 + p.path % 256 * 2 ^ 170 + (pktFlits p - 1) * 2 ^ 168
    + p.addr % 2 ^ 48 * 2 ^ 112 + p.aux % 2 ^ 48 * 2 ^ 64 + p.rid % 2 ^ 16 * 2 ^ 48)

/-- Read a packet from its payload bytes; none when its KIND is reserved or a reserved bit is set: its receiver drops it
(R328). -/
def pktParse (d : List Byte) : Option Packet :=
  let h := leNat (d.take 32)
  let f := fun hi lo => h / 2 ^ lo % 2 ^ (hi - lo + 1)
  match kindOf (f 183 178) with
  | none => none
  | some k =>
    if f 167 160 ≠ 0 ∨ f 47 0 ≠ 0 ∨ f 185 184 ≠ vcOf k ∨ (f 79 73 ≠ 0 ∧ (k = .contribution ∨ k = .result)) then none
    else some { dest := f 255 237, src := f 236 218, tagSlot := f 217 208, tagInc := f 207 198, age := f 197 186, kind := k,
                path := f 177 170, addr := f 159 112, aux := f 111 64, rid := f 63 48, data := d.drop 32 }

def State.port (s : State) (p : Nat) : Port := (tget s.ports p).getD Port.reset
def State.setPort (s : State) (p : Nat) (x : Port) : State := { s with ports := tset s.ports p x }

/-- Whether a port carries traffic (R330). -/
def Port.isUp (p : Port) : Bool :=
  match p.state with
  | .up _ => true
  | .degraded _ => true
  | _ => false

/-- The entries of a package's route table that the firmware writes at bring-up: one for each node of its own domain, one for
each other domain (R331, R332). -/
def routeTable (node : Nat) : Tbl (List Nat) :=
  (((List.range 4096).map fun i => node / 4096 * 4096 + i) ++ ((List.range 100).filter fun d => decide (d ≠ node / 4096)).map fun d => 0x100000 + d).map
    fun k => (k, ((Config.routePorts node k).filter fun p => decide (p < 36)).take 8)

/-- The route of a destination: the ports of the node in the own domain, else of its domain. A port that is not up is absent from
the table (R332, R359). -/
def State.route (s : State) (dest path : Nat) : Option Nat :=
  let key := if dest / 4096 = s.nodeId / 4096 then dest else 0x100000 + dest / 4096
  let l := (cget [] s.routes key).filter fun p => (s.port p).isUp
  l[path % l.length]?

/-- Cut bytes into flit payloads, zero-filled (R327). -/
def cutFlits : Nat → List Byte → List (List Byte)
  | 0, _ => []
  | n + 1, d => (d.take 248 ++ List.replicate (248 - (d.take 248).length) 0) :: cutFlits n (d.drop 248)

/-- Microseconds of a stretch of clocks, rounded up (R334). -/
def microsUp (clocks : Nat) : Nat := (clocks + 2499) / 2500

/-- The age of a held packet or request at a clock (R270, R334). -/
def HeldReq.age (h : HeldReq) (now : Nat) : Nat := min 4095 (h.pk.age + microsUp (now - h.since))

/-- Count flits and replays of a port in the present millisecond (R330). -/
def Port.count (p : Port) (now flits replays : Nat) : Port :=
  if now < p.window + 2500000 then { p with flits := p.flits + flits, replays := p.replays + replays }
  else { p with window := now, flits := flits, replays := replays }

/-- The credits that a port returns in the control of a flit: five bits a channel, at most 31 (R327, log 4). -/
def creditWord (l : List Nat) : Nat := l.zipIdx.foldl (fun n e => n + min e.1 31 * 32 ^ e.2) 0

/-- A flit: its payload, the control of its sequence number and returned credits, and the CRC over both (R327). -/
def flitOf (payload : List Byte) (seq credits : Nat) : List Byte :=
  let d := payload ++ toLE 4 (seq % 4096 * 2 ^ 20 + credits)
  d ++ toLE 4 (Config.crc32 d).toNat

/-- Put a flit on the wire of a port, with the credits that are owed (R327, R329). -/
def Port.emit (p : Port) (x : SentFlit) : Port :=
  { p with wire := p.wire ++ [flitOf x.payload x.seq (creditWord p.owed)], owed := p.owed.map fun n => n - min n 31 }

/-- Put a packet on the wire of a port that holds credit on its channel: its flits take sequence numbers and wait for
acknowledgement, at most the last 64 (R327, R329). -/
def Port.transmit (p : Port) (now : Nat) (pk : Packet) : Port :=
  let vc := vcOf pk.kind
  let fs := (cutFlits (pktFlits pk) (pktHeader pk ++ pk.data)).zipIdx.map fun e =>
    SentFlit.mk ((p.txSeq + e.2) % 4096) e.1 now (decide (e.2 = 0)) vc
  fs.foldl Port.emit { p.count now fs.length 0 with
    credits := p.credits.zipIdx.map fun e => if e.2 = vc then e.1 - fs.length else e.1,
    unacked := (p.unacked ++ fs).drop (p.unacked.length + fs.length - 64),
    txSeq := (p.txSeq + fs.length) % 4096 }

/-- Transmit the packets held for a port while there is credit, those of one channel in order; a packet without credit holds back
its own channel alone. Each takes its residence time, at least 1, and the cable delay into its age, and one whose age has reached
2,000 is discarded (R329, R334). -/
def Port.pumpList (now delay : Nat) : List HeldReq → List Nat → Port → Port × List HeldReq
  | [], _, p => (p, [])
  | h :: t, shut, p =>
    let vc := vcOf h.pk.kind
    if shut.contains vc ∨ !p.isUp ∨ (p.credits[vc]?).getD 0 < pktFlits h.pk then
      let r := Port.pumpList now delay t (vc :: shut) p
      (r.1, h :: r.2)
    else
      let age := min 4095 (h.pk.age + max 1 (microsUp (now - h.since)) + delay)
      Port.pumpList now delay t shut (if 2000 ≤ age then p else p.transmit now { h.pk with age := age })

/-- Transmit what a port holds and may send. -/
def Port.pump (p : Port) (now delay : Nat) : Port :=
  let r := Port.pumpList now delay p.txq [] p
  { r.1 with txq := r.2 }

/-- A flit that is sent again: the time it waited counts in its packet's age (R327, R334). -/
def SentFlit.aged (x : SentFlit) (now : Nat) : SentFlit :=
  if x.head then
    let h := leNat (x.payload.take 32)
    let age := h / 2 ^ 186 % 4096
    { x with
      payload := toLE 32 (h - age * 2 ^ 186 + min 4095 (age + microsUp (now - x.since)) * 2 ^ 186) ++ x.payload.drop 32, since := now }
  else { x with since := now }

/-- The flits that are not acknowledged travel again, in order, from the first (R327, R330); `n` is 1 for a replay that counts against
the port's rate, 0 for one that a port resumes when it comes up (log 4). -/
def Port.replay (p : Port) (now n : Nat) : Port :=
  let fs := p.unacked.map fun x => x.aged now
  fs.foldl Port.emit { p.count now fs.length n with unacked := fs }

/-- Pump a port. -/
def State.pumpPort (s : State) (n : Nat) : State :=
  s.setPort n ((s.port n).pump s.clock (Config.cableDelay n))

/-- Whether the tag of a packet is its sender's: a result and an abort bear the tag of the rank that receives them where it has
registered one (R339). -/
def ownTag (pk : Packet) : Bool :=
  decide (pk.kind ≠ .result) && !(decide (pk.kind = .contribution) && decide (fld pk.data 14 1 = 1))

/-- Whether a packet is one that a package created for a context slot of its own. -/
def ofSlot (pk : Packet) (node slot : Nat) : Bool := decide (pk.src = node) && decide (pk.tagSlot = slot) && ownTag pk

/-- Send a packet: through the port its route names; a packet with no route is lost and its requester times out
(R330, R332). The first packet of an incarnation sets USEDLINK (R270). -/
def State.sendPacket (s : State) (pk : Packet) : State :=
  let s := if pk.src = s.nodeId ∧ ownTag pk then s.modCtx pk.tagSlot fun c => { c with usedLink := true } else s
  match s.route pk.dest pk.path with
  | none => s
  | some n => (s.setPort n { s.port n with txq := (s.port n).txq ++ [⟨pk, s.clock⟩] }).pumpPort n

/-- An answer to a packet: it travels back to the package that created the chain, on the same path, with the age of what
caused it (R332, R333, R334). -/
def State.reply (s : State) (pk : Packet) (k : PKind) (aux : Nat) (d : List Byte) : State :=
  s.sendPacket { pk with dest := pk.src, kind := k, addr := 0, aux := aux, data := d }

/-- Whether a request writes peer memory and its value is not waited for: a store, or increments. -/
def LinkReq.writes (e : LinkReq) : Bool := e.write || decide (e.lane = noKey) || decide (e.lane = cntKey)

/-- A packet of this package that serves a tag. -/
def State.packet (s : State) (t : Tag) (dest : Nat) (k : PKind) (path addr aux rid age : Nat) (d : List Byte) : Packet :=
  { dest := dest, src := s.nodeId, tagSlot := t.slot, tagInc := t.inc, age := age, kind := k, path := path, addr := addr,
    aux := aux, rid := rid, data := d }

end Sys2Proof.Machine
end

