-- ==== Sys2Proof/Machine/Ops.lean ====
section
/-! DEFINITION. The operations every instruction shares: the signature fold and retirement (R119, R132), taking an
exception and the return from one (R48, R49, R158, R159), streams that stop their block (R223), fault entries (R323),
the UCE treatment with snapshot and rollback (R341 to R346), fault policies, and the kill of a context (R267). -/

namespace Sys2Proof.Machine

/-- Bytes of the snapshot store that one unit takes (R343): a bank is 1,024 cells of 64 counters of 12 or 28 bits. -/
def snapBytes : SnapUnit → Nat
  | .vreg _ _ => 128
  | .scratchLine _ => 256
  | .columnLine _ => 256
  | .tile _ => 4096
  | .shadow _ => 4096
  | .bank n => if n = 2 then 229376 else 98304

/-- Record the first write of a unit in the interval (R343). -/
def Block.touch (b : Block) (u : SnapUnit) : Block :=
  if b.touched.contains u then b else { b with touched := u :: b.touched }

/-- Bytes of the snapshot store in use on a core (R344). -/
def State.snapUsed (s : State) (c : Nat) : Nat :=
  s.blocks.foldl (fun n e => if coreOf e.1 = c ∧ e.2.isOpen = false then
    e.2.touched.foldl (fun m u => m + snapBytes u) n else n) 0

/-- A copy that finds no room in the 2 MiB snapshot store opens the interval (R344). -/
def State.snapCheck (s : State) (bid : Nat) : State :=
  match s.blk bid with
  | none => s
  | some b => if b.isOpen = false ∧ 0x200000 < s.snapUsed (coreOf bid) then s.openInterval bid else s

/-- The bytes of a memory from `lo`, `n` long. -/
def memSlice (m : Mem) (lo n : Nat) : Mem := m.filter fun e => decide (lo ≤ e.1) && decide (e.1 < lo + n)

/-- Replace the bytes of a memory from `lo`, `n` long. -/
def memReplace (m : Mem) (lo n : Nat) (d : Mem) : Mem :=
  d.foldl (fun m e => cset 0 m e.1 e.2) (m.filter fun e => !(decide (lo ≤ e.1) && decide (e.1 < lo + n)))

/-- The registers of a wave's run (R36). -/
def State.runRegs (s : State) (bid : Nat) (w : Wave) : List VReg :=
  (List.range w.runLen).map fun i => (s.core (coreOf bid)).reg (w.runBase + i)

/-- Put registers into a run of the slow file. -/
def Core.putRun (c : Core) (base : Nat) (r : List VReg) : Core :=
  { c with
    fast := c.fast.filter fun e => decide (e.1 < base) || decide (base + r.length ≤ e.1),
    slow := r.zipIdx.foldl (fun m e => cset 0 m (base + e.2) e.1) c.slow,
    bad := c.bad.filter fun i => decide (i < base) || decide (base + r.length ≤ i),
    soft := c.soft.filter fun i => decide (i < base) || decide (base + r.length ≤ i) }

/-- Whether a register was written in the block's interval, so that the snapshot has a copy of it (R343, R345). -/
def Block.hasCopy (b : Block) (p : Nat) : Bool :=
  b.waves.any fun e => decide (e.2.runBase ≤ p) && decide (p < e.2.runBase + e.2.runLen)
    && b.touched.contains (.vreg e.1 (p - e.2.runBase + e.2.bottom))

/-- The column-store bytes of the scratch and B ways (R97). -/
def State.columnImage (s : State) (bid : Nat) : Mem := (s.core (coreOf bid)).column

/-- A stream in the snapshot stands at its last instruction boundary: a wait that had begun issues again, an update of a peer's
barrier object is behind it (R343). -/
def Stream.boundary (x : Stream) : Stream :=
  match x.status with
  | .obj => { x with status := .run, asks := [], answers := [] }
  | .reply =>
    if x.asks.any fun e => decide (e.2 = objKey) then
      { x with status := .run, pc := x.ir.succ, expand := none, asks := [], answers := [] }
    else { x with status := .run, asks := [], answers := [] }
  | .parked _ _ => { x with status := .run }
  | _ => x

/-- Take the snapshot of a block's interval: small state whole; the larger state as it stands, which is what copying on
write preserves (R343). -/
def State.takeSnapshot (s : State) (bid : Nat) : State :=
  match s.blk bid with
  | none => s
  | some b =>
    let snap : Snapshot :=
      { n := b.interval, waves := b.waves, vregs := b.waves.map fun e => (e.1, s.runRegs bid e.2),
        scratch := memSlice (s.core (coreOf bid)).store b.scratchBase b.kern.shared,
        column := if b.columnRight then s.columnImage bid else [], mat := b.mat, streams := b.streams.map Stream.boundary, nbars := b.nbars,
        planeSet := b.planeSet, planeSeq := b.planeSeq, fifos := b.fifos,
        cmds := s.cmds.filter fun e => decide (e.2.block = bid) && decide (e.2.op ≠ .coll), sb := b.sb }
    s.setBlk bid { b with snap := some snap, touched := [], isOpen := false, rolled := false }

/-- Commands of a block are stopped: those issued in the interval are abandoned, those of the snapshot restart from their
source and retake their scoreboard entries; a collective reads its source again from the first chunk that it has not contributed to
(R117, R345, log 21). -/
def State.rollCmds (s : State) (bid : Nat) (snap : Snapshot) : State :=
  let s : State := { s with cmds := (s.cmds.filter fun (e : Nat × Cmd) => decide (e.2.block ≠ bid) || decide (e.2.op = CmdOp.coll)).map fun e =>
    if e.2.block = bid then (e.1, { e.2 with fault := none, stopped := false, asks := [], answers := [] }) else e }
  { s with cmds := snap.cmds.foldl (fun t e => tset t e.1 { e.2 with
    pos := 0, acquired := false, fault := none, stopped := false, ownersD := [], ownersA := [], asks := [], answers := [] }) s.cmds }

/-- Roll a block back to its snapshot (R345); a request that still waits for a peer's answer is given up, so that its failing
later is charged to nothing (R347). -/
def State.rollback (s : State) (bid : Nat) (b : Block) (snap : Snapshot) (cause faultPc skid : Nat) : State :=
  let c := coreOf bid
  let s := (s.rollCmds bid snap).discard bid
  let lost := (s.core c).bad.filter fun p => !b.hasCopy p
  let s := s.modCore c fun k =>
    { snap.vregs.foldl (fun k e => match tget snap.waves e.1 with
      | some w => k.putRun w.runBase e.2
      | none => k) { k with
        store := memReplace k.store b.scratchBase b.kern.shared snap.scratch,
        colChange := if b.columnRight then none else k.colChange,
        column := if b.columnRight then snap.column else k.column } with bad := lost }
  let s := { s with
    faults := tmapv s.faults fun e => { e with slots := e.slots.filter fun i => decide (i.block ≠ bid) },
    links := s.links.filter fun e => decide (e.2.who.block ≠ bid) || e.2.writes || decide (e.2.lane = sendKey),
    waiters := s.waiters.filter fun w => decide (w.who.block ≠ bid) }
  let s := s.modBlk bid fun b => { b with
    waves := tmapv snap.waves fun w => { w with active := false }, mat := snap.mat, streams := snap.streams, nbars := snap.nbars, planeSet := snap.planeSet,
    planeSeq := snap.planeSeq, fifos := snap.fifos, barArr := 0, closing := false, touched := [], rolled := true,
    sb := snap.sb.map fun (e : SbEntry) => { e with released := 0 } }
  s.postEvent b.tag (b.event bid 5 cause faultPc skid)

/-- Free what a block held on its core: its slot-table record, FIFO banks back to scratch mode, column ways back to cache
mode (R29, R95, R98). -/
def State.dropBlock (s : State) (bid : Nat) : State :=
  match s.blk bid with
  | none => s
  | some b =>
    let c := coreOf bid
    let s := { s with blocks := tdel s.blocks bid,
                      waiters := s.waiters.filter fun w => decide (w.who.block ≠ bid),
                      faults := tmapv s.faults fun e => { e with slots := e.slots.filter fun i => decide (i.block ≠ bid) } }
    s.modCore c fun k =>
      let back := (List.range 32).foldl (fun (m : Nat) i =>
        if b.fifoMask.getLsbD i then m - (m / 4 ^ i % 4) * 4 ^ i + 4 ^ i else m) k.bankMode.toNat
      { k with
        recs := tdel k.recs (bslotOf bid),
        bankMode := BitVec.ofNat 64 back,
        colWays := if b.columnRight then 0 else k.colWays,
        colChange := if b.columnRight then none else k.colChange,
        column := if b.columnRight then [] else k.column,
        store := (List.range 32).foldl (fun m i =>
          if b.fifoMask.getLsbD i then memReplace m (32768 * i) 32768 [] else m) k.store,
        pend0 := k.pend0.filter fun i => decide (i / 32 ≠ bslotOf bid), pend1 := k.pend1.filter fun i => decide (i / 32 ≠ bslotOf bid),
        pend2 := k.pend2.filter fun i => decide (i / 32 ≠ bslotOf bid), pend3 := k.pend3.filter fun i => decide (i / 32 ≠ bslotOf bid) }

/-- AUX of plan traffic: EPOCH, ABORT and chunk (R328). -/
def collAux (epoch : Nat) (abort : Bool) (chunk : Nat) : Nat := epoch % 2 ^ 32 * 2 ^ 16 + (if abort then 256 else 0) + chunk

/-- A contribution reaches a core (R337, R339): dropped when the core has completed the instance, else kept for it. -/
def State.receiveContrib (s : State) (x : Contrib) : State :=
  if s.collDone.contains (x.core, x.planid, x.epoch) then s else { s with contribs := s.contribs ++ [x] }

/-- The data of a plan packet: destination core, first rank and number of ranks of the subtree, place in the chunk, whether the tag
is one that the receiver registered, bytes (log 11). -/
def contribData (core lo n off : Nat) (known : Bool) (d : List Byte) : List Byte :=
  toLE 2 core ++ toLE 4 lo ++ toLE 4 n ++ toLE 4 off ++ toLE 1 (if known then 1 else 0) ++ d

/-- Where the tree of R196 over n elements is split. -/
def treeSplit (n : Nat) : Nat := 2 ^ Nat.log2 (n - 1)

/-- The inner nodes over a rank in the tree over n ranks from `lo`, the root first: place in pre-order, first rank, number of ranks
(R196, R335, R338). -/
def nodesOver (r : Nat) : Nat → Nat → Nat → Nat → List (Nat × Nat × Nat)
  | 0, _, _, _ => []
  | fuel + 1, k, lo, n =>
    if n ≤ 1 then []
    else
      let h := treeSplit n
      (k, lo, n) :: (if r < lo + h then nodesOver r fuel (k + 1) lo h else nodesOver r fuel (k + h) (lo + h) (n - h))

/-- The inner nodes over a rank of a plan. -/
def Plan.nodes (p : Plan) (r : Nat) : List (Nat × Nat × Nat) := nodesOver r 32 0 0 p.ranks.length

/-- Whether a switch forms an inner node (R335). -/
def Plan.atSwitch (p : Plan) (k : Nat) : Bool := p.sw && decide ((p.locs[k]?).getD 0xFFFF ≠ 0xFFFF)

/-- The inner nodes that the unit of a rank forms, the root first: those whose lowest rank it is (R335). -/
def Plan.own (p : Plan) (r : Nat) : List (Nat × Nat × Nat) := (p.nodes r).filter fun e => decide (e.2.1 = r) && !p.atSwitch e.1

/-- The inner node that takes the output of a subtree; none for the root. -/
def Plan.parent (p : Plan) (lo n : Nat) : Option (Nat × Nat × Nat) := ((p.nodes lo).filter fun e => decide (n < e.2.2)).getLast?

/-- Where packets for a switch head: a rank's node off this package, if there is one (log 21). -/
def Plan.away (p : Plan) (node : Nat) : Nat := ((p.ranks.find? fun r => decide (r.1 ≠ node)).map fun r => r.1).getD node

/-- Cut the bytes of a chunk into the pieces of packets; one empty piece stands for no data. -/
def chunkPieces (d : List Byte) : List (Nat × List Byte) :=
  if d.isEmpty then [(0, [])] else (List.range ((d.length + 255) / 256)).map fun i => (256 * i, (d.drop (256 * i)).take 256)

/-- The tag that a rank of an instance registered (R339). -/
def State.collTag (s : State) (x : Coll) (rank : Nat) : Option Tag :=
  (s.collTags.find? fun e => decide (e.planid = x.plan.planid) && decide (e.epoch = x.epoch) && decide (e.rank = rank)).map fun e => e.tag

/-- The node to which the output of a subtree of an instance goes, and whether a switch takes it. -/
def State.collDest (s : State) (x : Coll) (lo n : Nat) : Option (Nat × Bool) :=
  (x.plan.parent lo n).map fun e =>
    if x.plan.atSwitch e.1 then (x.plan.away s.nodeId, true) else (((x.plan.ranks[e.2.1]?).getD (s.nodeId, x.core)).1, false)

/-- Whether the context of an instance may not address a node (R266). -/
def State.collBarred (s : State) (x : Coll) (node : Nat) : Bool :=
  let c := s.ctx x.tag.slot
  decide (node ≠ s.nodeId) && (!c.rcd.peers.contains node || c.unreachable.contains node)

/-- Send a piece of a subtree's output, or an abort in its place, to where its parent is formed: to a core of this package, or by
packet (R328, R332, R338, R339). -/
def State.collUp (s : State) (x : Coll) (lo n c off : Nat) (d : List Byte) (abort : Bool) : State :=
  match x.plan.parent lo n, s.collDest x lo n with
  | some (_, q, _), some (dest, sw) =>
    let core := ((x.plan.ranks[q]?).getD (s.nodeId, x.core)).2
    if dest = s.nodeId ∧ !sw then
      s.receiveContrib { core := core, planid := x.plan.planid, epoch := x.epoch, node := some (lo, n), chunk := c, off := off, data := d,
                         abort := abort }
    else
      let t := if abort ∧ !sw then s.collTag x q else none
      s.sendPacket (s.packet (t.getD x.tag) dest .contribution c x.plan.planid (collAux x.epoch abort c) 0 0
        (contribData core lo n off t.isSome d))
  | _, _ => s

/-- Send a piece of a result, or an abort in its place, to a rank: under the tag that the rank registered (R338, R339). -/
def State.resultTo (s : State) (x : Coll) (rank c off : Nat) (d : List Byte) (abort : Bool) : State :=
  match x.plan.ranks[rank]? with
  | none => s
  | some r =>
    if r.1 = s.nodeId then
      s.receiveContrib { core := r.2, planid := x.plan.planid, epoch := x.epoch, node := none, chunk := c, off := off, data := d,
                         abort := abort }
    else match s.collTag x rank with
      | none => s
      | some t => s.sendPacket (s.packet t r.1 .result c x.plan.planid (collAux x.epoch abort c) 0 0 (contribData r.2 0 0 off true d))

/-- Send an abort in place of a subtree's output: up the tree, unless the node may not be addressed; the root sends one to every rank
(R333, R339). -/
def State.collAbort (s : State) (x : Coll) (lo n c : Nat) : State :=
  match s.collDest x lo n with
  | some (dest, _) => if s.collBarred x dest then s else s.collUp x lo n c 0 [] true
  | none => (List.range x.plan.ranks.length).foldl (fun (s : State) q => s.resultTo x q c 0 [] true) s

/-- The chunks of an instance that are neither completed nor ended by an abort. -/
def Coll.openChunks (x : Coll) : List Nat := (List.range x.plan.nchunk).filter fun c => !(x.done ||| x.abort).getLsbD c

/-- What the unit of a rank owes to a chunk: its leaf and the inner nodes that it forms, those not sent yet whose output leaves the
unit (R338). -/
def Coll.owes (x : Coll) (c : Nat) : List (Nat × Nat) :=
  let own := x.plan.own x.rank
  let left := (if x.sent.contains c then [] else [(x.rank, 1)]) ++ (own.filter fun e => !x.formed.contains (c, e.2.2)).map fun e => e.2
  left.filter fun e => match x.plan.parent e.1 e.2 with
    | some q => !own.contains q
    | none => true

/-- Whether the unit of a rank forms the root of its tree. -/
def Coll.isRoot (x : Coll) : Bool := decide (x.rank = 0) && !x.plan.atSwitch 0

/-- Forget the contributions of an instance at a core; and the tags of its ranks when no rank of this package holds it. -/
def State.collForget (s : State) (x : Coll) : State :=
  { s with
    collDone := (x.core, x.plan.planid, x.epoch) :: s.collDone,
    contribs := s.contribs.filter fun e => !(decide (e.core = x.core) && decide (e.planid = x.plan.planid) && decide (e.epoch = x.epoch)),
    collTags := if s.colls.any fun e => decide (e.2.plan.planid = x.plan.planid) && decide (e.2.epoch = x.epoch) then s.collTags
      else s.collTags.filter fun e => !(decide (e.planid = x.plan.planid) && decide (e.epoch = x.epoch)) }

/-- A rank that can no longer take part sends an abort for every chunk that waits for it: in place of its leaf, and of the inner nodes
that its unit forms (R339). -/
def State.collLeave (s : State) (x : Coll) : State :=
  let s := x.openChunks.foldl (fun (s : State) c => (x.owes c).foldl (fun (s : State) e => s.collAbort x e.1 e.2 c) s) s
  let s := s.collForget x
  if x.isRoot then { s with collDead := { x with gone := x.gone ++ x.openChunks } :: s.collDead } else s

/-- Write STATE of every queue of a context that its CTXSTART registered (R277). -/
def State.closeQueues (s : State) (t : Tag) (v : Nat) : State :=
  (s.ctx t.slot).qcells.foldl (fun (s : State) q => s.dramWrite (q.2 + 1) (toLE 1 v)) s

/-- The arrival times of the packets in a context's queues are forgotten: its queues begin anew (R267, R272, R280). -/
def State.forgetArrivals (s : State) (t : Tag) : State :=
  { s with arrivals := s.arrivals.filter fun a => !(s.ctx t.slot).qcells.any fun q => decide (q.2 = a.1) }

/-- Begin the kill of a context: freeze and discard, withdraw, broadcast, peers (R267). Every core writes its dirty lines back,
those on which the context had blocks among them; the link ports drop the packets that they hold of the tag. What is on its way
to a unit is judged when it arrives (R268). -/
def State.killBegin (s : State) (slot : Nat) : State :=
  let t : Tag := ⟨slot, (s.ctx slot).inc⟩
  let bids := (s.blocks.filter fun e => decide (e.2.tag.slot = slot)).map fun e => e.1
  let s := (s.forgetArrivals t).closeQueues t 1
  let s := { s with ports := tmapv s.ports fun p => { p with
    txq := p.txq.filter fun h => !ofSlot h.pk s.nodeId slot } }
  let gone := s.colls.filter fun e => decide (e.2.tag.slot = slot)
  let s := { s with colls := s.colls.filter fun e => decide (e.2.tag.slot ≠ slot) }
  let s := gone.foldl (fun s e => s.collLeave e.2) s
  let s := bids.foldl (fun s i => s.discard i) s
  let s := s.cores.foldl (fun s c => (s.landAll c.1).writeBackAll c.1) s
  let s := bids.foldl (fun s i => s.dropBlock i) s
  let s := { s with
    cores := tmapv s.cores fun e => { e with
      posts := e.posts.filter fun p => decide (p.2.tag.slot ≠ slot),
      ovf := e.ovf.filter fun m => decide (m.rcvSlot ≠ slot),
      recs := e.recs.filter fun r => decide (r.2.tag.slot ≠ slot),
      tlb := e.tlb.filter fun x => decide (x.tag.slot ≠ slot),
      msgovf := e.msgovf.filter fun x => decide (x ≠ slot),
      quota := tdel e.quota slot },
    xlat := tmapv s.xlat fun l => l.filter fun x => decide (x.tag.slot ≠ slot),
    lazies := s.lazies.filter fun x => decide (x.tag.slot ≠ slot),
    tiles := s.tiles.filter fun x => decide (x.tag.slot ≠ slot),
    ctxs := tmapv s.ctxs fun x => { x with
      starter := x.starter.filter fun w => !bids.contains w.block,
      reclaimers := x.reclaimers.filter fun w => !bids.contains w.block,
      queue := x.queue.filter fun w => !bids.contains w.1.block },
    cmds := s.cmds.filter fun e => decide (e.2.tag.slot ≠ slot),
    sends := s.sends.filter fun e => decide (e.2.tag.slot ≠ slot),
    waiters := s.waiters.filter fun w => decide (w.tag.slot ≠ slot),
    faults := s.faults.filter fun e => decide (e.2.tag.slot ≠ slot),
    tobind := s.tobind.filter fun x => match tget s.grids x.grid with
      | some g => decide (g.tag.slot ≠ slot)
      | none => false,
    saves := s.saves.filter fun x => decide (x.blk.tag.slot ≠ slot),
    grids := s.grids.filter fun e => decide (e.2.tag.slot ≠ slot),
    kcounts := s.kcounts.filter fun e => decide (e.1 / 2 ^ 57 ≠ slot * 1024 + t.inc) }
  let s := if (s.ctx slot).rcd.link then
      (s.ctx slot).rcd.peers.foldl (fun s n => s.sendPacket (s.packet t n .kill 0 0 0 0 0 [])) s
    else s
  s.modCtx slot fun c => { c with state := .killing, withdrawn := true }

/-- A block's fault goes to its context's policy (R51, R265): under POLICY 1 the context is killed, else the block is
frozen and an event is posted. -/
def State.toPolicy (s : State) (bid : Nat) (why : Freeze) (ev cause faultPc skid : Nat) : State :=
  match s.blk bid with
  | none => s
  | some b =>
    if (s.ctx b.tag.slot).rcd.policy = 1 ∧ b.tag.slot ≠ 0 then s.killBegin b.tag.slot
    else (s.modBlk bid fun b => { b with frozen := why }).postEvent b.tag (b.event bid ev cause faultPc skid)

/-- The UCE treatment of a block: rollback, or escalation when its interval is open, was rolled back already, or holds no
snapshot (R341, R345, R346). -/
def State.uce (s : State) (bid cause faultPc skid : Nat) : State :=
  match s.blk bid with
  | none => s
  | some b =>
    match b.isOpen, b.rolled, b.snap with
    | false, false, some snap => s.rollback bid b snap cause faultPc skid
    | _, _, _ => (s.discard bid).toPolicy bid .escalated 3 cause faultPc skid

/-- CAUSE (R52). -/
def causeWord (code slot : Nat) (precise : Bool) (aux : Nat) : Word64 :=
  BitVec.ofNat 64 (code + (if precise then 256 else 0) + slot % 2 * 512 + aux % 65536 * 65536)

/-- Whether a trap of a slot finds no handler to enter (R158). -/
def Slot.noHandler (x : Slot) (kern : Kernel) : Bool := x.inHandler || decide (kern.handler = 0)

/-- A slot stops, to go on where and as it says (R158). -/
def Slot.stop (x : Slot) (resume : Pc) (rp : Replay) : Slot :=
  { x with status := .stopped, resume := resume, replay := rp, expand := none }

/-- A slot enters the trap handler (R158). -/
def Slot.handle (x : Slot) (kern : Kernel) (resume : Pc) (rp : Replay) : Slot :=
  { x with
    status := .run, inHandler := true, frame := ⟨resume, x.k0, x.sig, x.emask, rp, x.skid⟩,
    pc := BitVec.ofNat 57 kern.handler, sig := 0, emask := x.k0, replay := .none, expand := none, noFold := false }

/-- Enter the trap handler, or stop the slot and report to the policy (R158). -/
def State.enterHandler (s : State) (bid wid k : Nat) (resume : Pc) (rp : Replay) (code : Nat) : State :=
  match s.view bid wid k with
  | none => s
  | some v =>
    if v.sl.noHandler v.b.kern then
      (s.modSlot bid wid k fun x => x.stop resume rp).toPolicy bid .fault 3 code v.sl.faultPc.toNat v.sl.skid
    else s.modSlot bid wid k fun x => x.handle v.b.kern resume rp

/-- A precise trap of a slot: no effect, FAULTPC at the instruction, SKID 0 (R48). -/
def State.trapSlot (s : State) (bid wid k : Nat) (code aux : Nat) (pc resume : Pc) : State :=
  let s := s.modSlot bid wid k fun x => { x with cause := causeWord code k true aux, faultPc := pc, skid := 0 }
  s.enterHandler bid wid k resume .none code

/-- A trap or an unresolved fault of a stream stops the whole block (R223). -/
def State.stopStream (s : State) (bid : Nat) (e : Engine) (ix code : Nat) (pc : Pc) (precise : Bool) : State :=
  let s := s.modStream bid e ix fun x => { x with cause := causeWord code 0 precise 0, faultPc := pc }
  s.toPolicy bid .fault 3 code pc.toNat 0

/-- A precise trap of the issuing party (R48, R219, R223). -/
def State.trap (s : State) (code : Nat) (aux : Nat := 0) : State :=
  match s.cur with
  | .slot b w k => s.trapSlot b w k code aux s.ir.pc s.ir.pc
  | .stream b e ix => s.stopStream b e ix code s.ir.pc true

/-- Rotate a 32-bit value left by 5 (R132). -/
def rot5 (x : BitVec 32) : BitVec 32 := (x <<< 5) ||| (x >>> 27)

/-- fold16 of R132, in 32 bits. -/
def fold16 (x : Word32) : BitVec 32 := (x >>> 16) ^^^ (x &&& 0xFFFF)

/-- The fold of one instruction into a signature, before a mask marker (R132). -/
def signFold (sig : BitVec 32) (word : InstrWord) (k0 emask : Word32) : BitVec 32 :=
  rot5 sig ^^^ ((word.extractLsb' 0 16).setWidth 32) ^^^ fold16 (k0 ^^^ emask)

/-- The mask marker (R132). -/
def markFold (sig : BitVec 32) : BitVec 32 := rot5 sig ^^^ 0x6B30

/-- A slot after the fold of the instruction it issues, with the k0 it wrote, if any (R132). -/
def Slot.folded (x : Slot) (ir : IR) (k0 : Option Word32) : Slot :=
  let g := if x.noFold then x.sig else signFold x.sig ir.word x.k0 x.emask
  match k0 with
  | none => { x with sig := g, noFold := false }
  | some m => { x with sig := if x.noFold then g else markFold g, emask := m, k0 := m, noFold := false }

/-- Older windows count the instruction that retires now (R128, R49). -/
def Slot.count (x : Slot) : Slot :=
  { x with
    flights := x.flights.map fun f => { f with left := f.left - 1, younger := f.younger + 1 },
    held := x.held.map fun f => { f with younger := f.younger + 1 } }

/-- A slot's instruction retires: fold, count, and go on at `npc`. -/
def Slot.retired (x : Slot) (ir : IR) (k0 : Option Word32) (npc : Pc) : Slot :=
  { (x.folded ir k0).count with pc := npc, expand := none, ir := ir, status := .run, answers := [] }

/-- The issuing party's instruction retires and it goes on at `npc`. -/
def State.retireTo (s : State) (npc : Pc) (k0 : Option Word32 := none) : State :=
  match s.cur with
  | .slot b w k => (s.modSlot b w k fun x => x.retired s.ir k0 npc).snapCheck b
  | .stream b e ix => s.modStream b e ix fun x => { x with pc := npc, ir := s.ir, status := .run, expand := none, answers := [] }

/-- The issuing party's instruction retires and it goes on at its successor (R119). -/
def State.retire (s : State) (k0 : Option Word32 := none) : State := s.retireTo s.ir.succ k0

/-- A run begins: s takes its start value and the entry mask the slot's k0 (R133). -/
def Slot.begin (x : Slot) (sig : BitVec 32) : Slot := { x with sig := sig, emask := x.k0 }

/-- A terminator retires: the next run begins at `npc` with this s (R133). -/
def State.endRun (s : State) (npc : Pc) (sig : BitVec 32) : State :=
  match s.cur with
  | .slot b w k => s.modSlot b w k fun x => (x.retired s.ir none npc).begin sig
  | .stream b e ix => s.modStream b e ix fun x => { x with pc := npc, ir := s.ir, status := .run, expand := none, answers := [] }

/-- Whether a terminator's SIG fails its check, after the terminator's own fold (R131, R132). Streams check nothing. -/
def State.sigBad (s : State) (t : Term) : Bool :=
  match s.cur, t with
  | .slot b w k, some sig =>
    match s.view b w k with
    | some v => decide (((v.sl.folded s.ir none).sig).extractLsb' 0 24 ≠ sig)
    | none => false
  | _, _ => false

/-- SIGFAULT: the UCE treatment of the block (R132, R341). -/
def State.sigFault (s : State) : State :=
  match s.cur with
  | .slot b w k =>
    let s := s.uce b cSIGFAULT s.ir.pc.toNat 0
    s.modSlot b w k fun x => { x with cause := causeWord cSIGFAULT k false 0, faultPc := s.ir.pc, skid := 0 }
  | .stream _ _ _ => s

/-- A consumed error of the issuing party (R341). -/
def State.uceCur (s : State) : State :=
  match s.cur with
  | .slot b w k =>
    let s := s.uce b cUCE s.ir.pc.toNat 0
    s.modSlot b w k fun x => { x with cause := causeWord cUCE k false 0, faultPc := s.ir.pc, skid := 0 }
  | .stream b e ix =>
    (s.uce b cUCE s.ir.pc.toNat 0).modStream b e ix fun x => { x with cause := causeWord cUCE 0 false 0, faultPc := s.ir.pc }

/-- The read of a register that cannot be corrected: rolled back where the snapshot has a copy of it, else escalated; the core's
error is counted (R342, R345, R346, R349). -/
def State.uceReg (s : State) (v : View) (p : Nat) : State :=
  let s := s.countErr .core (coreOf v.bid) .uncorrectable
  if v.b.hasCopy p then s.uceCur
  else ((s.discard v.bid).toPolicy v.bid .escalated 3 cUCE s.ir.pc.toNat 0).modSlot v.bid v.wid v.k fun x =>
    { x with cause := causeWord cUCE v.k false 0, faultPc := s.ir.pc, skid := 0 }

/-- The same for a slot that is not the one being served. -/
def State.uceRegOf (s : State) (v : View) (p : Nat) : State :=
  ({ s with cur := .slot v.bid v.wid v.k, ir := v.sl.ir } : State).uceReg v p

/-- Reading registers of a wave's window: an error that can be corrected is, and is counted; the place of one that cannot, if any
(R342). -/
def State.readRegs (s : State) (v : View) (regs : List Nat) : Except Nat State :=
  let k := s.core (coreOf v.bid)
  if k.bad.isEmpty && k.soft.isEmpty then .ok s
  else
    let ps := (regs.map v.w.phys).eraseDups
    match ps.find? k.bad.contains with
    | some p => .error p
    | none =>
      let n := (ps.filter k.soft.contains).length
      let s := s.modCore (coreOf v.bid) fun k => { k with
        soft := k.soft.filter fun p => !ps.contains p, corrected := k.corrected + n }
      .ok ((List.range n).foldl (fun (s : State) _ => s.countErr .core (coreOf v.bid) .corrected) s)

/-- The bytes of a fault entry (R323). -/
def FaultEntry.bytes (e : FaultEntry) (result : Nat) : List Byte :=
  toLE 8 e.granule ++ toLE 8 e.faddr ++ toLE 4 (e.tag.slot * 1024 + e.tag.inc + e.kinds * 2 ^ 20) ++ toLE 1 e.cause ++ [0]
    ++ toLE 2 (min e.waiters 65535) ++ toLE 4 result ++ toLE 4 e.seq

/-- Write the image of an entry where the firmware-reserved DRAM holds it (log 7). -/
def State.writeEntry (s : State) (key : Nat) (e : FaultEntry) (result : Nat) : State :=
  match cellOf (Config.faultBase (key / 256) + 32 * (key % 256)) with
  | some cell => s.dramWrite cell (e.bytes result)
  | none => s

/-- Access kinds of a fault entry, bits [23:20] (R323). -/
def kindBit (k : AccKind) : Nat :=
  match k with
  | .load => 1
  | .store => 2
  | .atomic _ => 4

/-- Join the open entry of a tag and granule, in whichever stook's table it stands, or open one in the table of this stook: none
when all 256 of it are open (R323). The answer is the stook and the entry. -/
def State.faultJoin (s : State) (stook : Nat) (t : Tag) (va cause kinds : Nat) (who : Option Issuer) (cmd : Option Nat) :
    Option (State × Nat × Nat) :=
  let g := va / 0x10000 * 0x10000
  match s.faults.find? fun e => decide (e.2.granule = g) && decide (e.2.tag = t) with
  | some (k, e) =>
    let e := { e with kinds := e.kinds ||| kinds, waiters := e.waiters + 1, slots := e.slots ++ who.toList,
                      cmds := e.cmds ++ cmd.toList }
    some (({ s with faults := tset s.faults k e }).writeEntry k e 0, k / 256, k % 256)
  | none =>
    match (List.range 256).find? fun i => (tget s.faults (stook * 256 + i)).isNone with
    | none => none
    | some i =>
      let k := stook * 256 + i
      let n := cget 0 s.faultSeq k + 1
      let e : FaultEntry := { granule := g, faddr := va, tag := t, kinds := kinds, cause := cause, waiters := 1, seq := n,
                              forwarded := false, tried := none, slots := who.toList, cmds := cmd.toList }
      some (({ s with faults := tset s.faults k e, faultSeq := cset 0 s.faultSeq k (n % 2 ^ 32) }).writeEntry k e 0, stook, i)

/-- Write an entry for the record: PROTFAULT and ATTRFAULT are never waited on (R323). -/
def State.faultRecord (s : State) (stook : Nat) (t : Tag) (va cause kinds : Nat) : State :=
  match (List.range 256).find? fun i => (tget s.faults (stook * 256 + i)).isNone with
  | none => s
  | some i =>
    let k := stook * 256 + i
    let n := cget 0 s.faultSeq k + 1
    ({ s with faultSeq := cset 0 s.faultSeq k (n % 2 ^ 32) }).writeEntry k
      { granule := va / 0x10000 * 0x10000, faddr := va, tag := t, kinds := kinds, cause := cause, waiters := 0, seq := n,
        forwarded := false, tried := none, slots := [], cmds := [] } 0

/-- The tag of an issuer's block (R264). -/
def State.tagOf (s : State) (who : Issuer) : Tag :=
  match s.blk who.block with
  | some b => b.tag
  | none => ⟨0, 0⟩

/-- The stook of a core (R13). -/
def stookOf (core : Nat) : Nat := core / 128

/-- A memory fault of a slot whose instruction at `pc` has folded: PAGEFAULT parks it on a fault entry, the others go to
the handler (R49, R51, R158, R323); `kinds` 0 says that no walker took the fault, so no entry records it. None when the fault table is full: the access stalls. -/
def State.slotFault (s : State) (bid wid k : Nat) (pc resume : Pc) (rp : Replay) (skid code va aux kinds : Nat) :
    Option State :=
  let st := stookOf (coreOf bid)
  let t := s.tagOf (.slot bid wid k)
  let mark := fun (s : State) => s.modSlot bid wid k fun x =>
    { x with cause := causeWord code k false aux, faultPc := pc, skid := skid, resume := resume, replay := rp }
  if code = cPAGEFAULT then
    match s.faultJoin st t va code kinds (some (.slot bid wid k)) none with
    | none => none
    | some (s, st, ix) => some ((mark s).modSlot bid wid k fun x => { x with status := .parked st ix })
  else
    let s := if code = cALIGN ∨ kinds = 0 then s else s.faultRecord st t va code kinds
    some ((mark s).enterHandler bid wid k resume rp code)

/-- A memory fault of the instruction being issued: it has folded, and it is replayed as `rp` says (R49, R134). A UCE is
consumed at once. With cause 0, and while the fault table is full, the access stalls (R323, R359). -/
def State.memFault (s : State) (rp : Replay) (code va aux kinds : Nat) : State :=
  if code = 0 then s
  else if code = cUCE then s.uceCur
  else match s.cur with
  | .slot b w k =>
    let npc := match rp with
      | .acc _ _ => s.ir.succ
      | _ => s.ir.pc
    let s1 := s.modSlot b w k fun x => { x.folded s.ir none with pc := npc, expand := none, ir := s.ir }
    (s1.slotFault b w k s.ir.pc npc rp 0 code va aux kinds).getD s
  | .stream b e ix =>
    if code = cPAGEFAULT then
      match s.faultJoin (stookOf (coreOf b)) (s.tagOf s.cur) va code kinds (some s.cur) none with
      | none => s
      | some (s, st, n) => s.modStream b e ix fun x => { x with status := .parked st n, replay := .again }
    else
      let s := if kinds = 0 then s else s.faultRecord (stookOf (coreOf b)) (s.tagOf s.cur) va code kinds
      s.stopStream b e ix code s.ir.pc false

/-- The return from a trap handler (R159): k0 from the frame under R28 and R154, s and the entry mask restored. With a
replay, the slot performs it before it issues. -/
def State.leaveHandler (s : State) (bid wid k : Nat) (pc : Pc) (rp : Replay) : State :=
  match s.view bid wid k with
  | none => s
  | some v =>
    let f := v.sl.frame
    s.modSlot bid wid k fun x => { x with
      status := .run, inHandler := false, k0 := shapeK0 v.b v.w k f.k0, sig := f.sig, emask := f.emask, pc := pc,
      resume := pc, replay := rp, expand := none }

/-- Whether a value has the form of a PC: bits [63:57] zero, the code index 0 to 2 (R120, R159). -/
def pcForm (v : Word64) : Bool := decide (v.toNat < 2 ^ 57) && decide (v.toNat % 4 ≠ 3)

/-- Whether the issuer's block holds privilege: its context's mark (R146). -/
def State.privileged (s : State) : Bool :=
  match s.blk s.cur.block with
  | some x => x.priv
  | none => false

/-- The issuing slot of a wave-only instruction; another issuer takes ILLEGAL (R219). -/
def State.onSlot (s : State) (f : View → Out) : Out :=
  match s.cur with
  | .slot b w k => match s.view b w k with
    | some v => f v
    | none => .fault .noIssuer
  | .stream b e ix => match (s.blk b).bind fun x => x.stream e ix with
    | some _ => .next (s.trap cILLEGAL)
    | none => .fault .noIssuer

/-- An instruction of waves and streams alike. -/
def State.onAny (s : State) (f : Out) : Out :=
  match s.cur with
  | .slot b w k => match s.view b w k with
    | some _ => f
    | none => .fault .noIssuer
  | .stream b e ix => match (s.blk b).bind fun x => x.stream e ix with
    | some _ => f
    | none => .fault .noIssuer

/-- Scalars of the issuer that an engine fills later (R218). -/
def State.pendingRegs (s : State) : List SReg :=
  match s.cur with
  | .slot b w k => match s.view b w k with
    | some v => v.sl.pending
    | none => []
  | .stream b e ix => match (s.blk b).bind fun x => x.stream e ix with
    | some st => st.pending
    | none => []

/-- Write a scalar of the issuer and retire; the seventeenth private copy traps ILLEGAL (R26). -/
def State.putScalar (s : State) (d : SReg) (x : Word64) : State :=
  let full := match s.cur with
    | .slot b w k => match s.view b w k with
      | some v => tooManyPriv v.w k d
      | none => false
    | .stream _ _ _ => false
  if full then s.trap cILLEGAL else (s.swrite s.cur d x).retire

/-- Whether a write of this scalar by the issuer would trap (R26). -/
def State.scalarOver (s : State) (d : SReg) : Bool :=
  match s.cur with
  | .slot b w k => match s.view b w k with
    | some v => tooManyPriv v.w k d
    | none => false
  | .stream _ _ _ => false

end Sys2Proof.Machine
end

