-- ==== Sys2Proof/Machine/Operands.lean ====
section
/-! DEFINITION. Operands of vector and memory instructions: the effective mask (R22), how a source is read and a result
written (R114, R171, R172), the window check (R38), and effective addresses (R204). -/

namespace Sys2Proof.Machine

/-- The effective mask (R22). -/
def effMask (v : View) (p : Pred) : Word32 :=
  let k : Word32 := if p.k = 0 then 0xFFFFFFFF else kread v p.k
  v.sl.k0 &&& (if p.neg then ~~~k else k)

/-- The lanes of a mask in ascending order. -/
def lanesOf (m : Word32) : List Nat := (List.range 32).filter fun l => m.getLsbD l

/-- The vector register a source names. -/
def vsrcRegs : VSrc → List Nat
  | .vec n => [n.toNat]
  | _ => []

/-- Whether a vector register lies at or above the window size: ILLEGAL (R38). -/
def outOfWindow (v : View) (l : List Nat) : Bool := l.any fun n => decide (v.w.win ≤ n)

/-- The bits of a source for lane l under a type, cut to the type's width (R114, R171). -/
def State.opBits (s : State) (v : View) (t : Ty) (op : VSrc) (l : Nat) : Nat :=
  let x : Nat := match op with
    | .imm x => match t with
      | .s64 => (x.signExtend 64).toNat
      | .f64 => x.toNat * 2 ^ 32
      | _ => x.toNat
    | .sca n => (sreadW v.w v.k n).toNat
    | .vec n => (lane (s.vread v.bid v.w n.toNat) l).toNat
      + if t.pair then (lane (s.vread v.bid v.w (n.toNat + 1)) l).toNat * 2 ^ 32 else 0
  x % 2 ^ t.bits

/-- Bits under a type as an integer: two's complement for the signed types (R171). -/
def intOf (t : Ty) (x : Nat) : Int :=
  if (t.isSigned || decide (t = .s4)) && decide (2 ^ (t.bits - 1) ≤ x % 2 ^ t.bits) then
    ((x % 2 ^ t.bits : Nat) : Int) - (2 ^ t.bits : Nat)
  else ((x % 2 ^ t.bits : Nat) : Int)

/-- A source as an integer (R171). -/
def State.opInt (s : State) (v : View) (t : Ty) (op : VSrc) (l : Nat) : Int := intOf t (s.opBits v t op l)

/-- A source as a floating-point value (R171). -/
def State.opFlt (s : State) (v : View) (t : Ty) (op : VSrc) (l : Nat) : FVal := (fmtOf t).read (s.opBits v t op l)

/-- An integer result as the bits written: 64 bits for a pair, else sign- or zero-extended to 32 (R172). -/
def resBits (t : Ty) (x : Int) : Nat := (x % (if t.pair then 2 ^ 64 else 2 ^ 32 : Int)).toNat

/-- Bits of a memory element as written to a lane: narrow signed types are sign-extended (R172). -/
def extBits (t : Ty) (x : Nat) : Nat := resBits t (intOf t x)

/-- The registers that receive one value a lane: one register, or a pair (R172). -/
def laneWrites (pair : Bool) (d : VNum) (m : Word32) (f : Nat → Nat) : List (VNum × Word32 × VReg) :=
  let lo := (d, m, ofLanes fun l => if m.getLsbD l then BitVec.ofNat 32 (f l) else 0)
  if pair then [lo, (d + 1, m, ofLanes fun l => if m.getLsbD l then BitVec.ofNat 32 (f l / 2 ^ 32) else 0)] else [lo]

/-- Write registers under their masks (R173). -/
def State.writeRegs (s : State) (bid wid : Nat) (w : List (VNum × Word32 × VReg)) : State :=
  w.foldl (fun s e => s.vmerge bid wid e.1.toNat e.2.1 e.2.2) s

/-- A mask destination: the lanes of the effective mask take their bit, the rest of the domain takes 0 (R172). -/
def State.writeMask (s : State) (v : View) (kd : KNum) (m : Word32) (f : Nat → Bool) : State :=
  let x : Word32 := (lanesOf m).foldl (fun x l => if f l then x ||| (1 <<< l) else x) 0
  s.modWave v.bid v.wid fun w => w.kwrite v.k kd x

/-- The index of a memory operand for lane l, scaled (R204). -/
def State.eaIndex (s : State) (v : View) (ix : MIdx) (l : Nat) : Word64 :=
  match ix with
  | .sca n => sreadW v.w v.k n
  | .vec n => (lane (s.vread v.bid v.w n.toNat) l).signExtend 64

/-- The displacement (R203). -/
def dispOf (d : Option (BitVec 32)) : Word64 :=
  match d with
  | none => 0
  | some x => x.signExtend 64

/-- The effective address of lane l (R204). -/
def State.ea (s : State) (v : View) (ad : MAddr) (l : Nat) : Word64 :=
  sreadW v.w v.k ad.base + (s.eaIndex v ad.idx l <<< ad.scale.toNat) + dispOf ad.disp

/-- The vector register of an index. -/
def idxRegs : MIdx → List Nat
  | .vec n => [n.toNat]
  | .sca _ => []

/-- The data of a store for lane l, cut to the element (R203). -/
def State.storeBits (s : State) (v : View) (t : Ty) (d : MData) (l : Nat) : Nat :=
  match d with
  | .vec n => s.opBits v t (.vec n) l
  | .sca n => s.opBits v t (.sca n) l

/-- The vector register of a store's data. -/
def dataRegs : MData → List Nat
  | .vec n => [n.toNat]
  | .sca _ => []

end Sys2Proof.Machine
end

