-- ==== Sys2Proof/Machine/Access.lean ====
section
/-! DEFINITION. Performing the memory access of one instruction: its single-copy atomic parts (R107), translation and the
report of the lowest fault (R204, R325), loads, stores, counted stores and atomics at every memory type (R205 to R214),
scratch and FIFOs (R96, R115, R116, R210, R211), the column window (R100), peers and host memory (R255, R256). A replay
performs the same access again (R49, R50). -/

namespace Sys2Proof.Machine

/-- One single-copy atomic part of an access (R107): its lane, its number, address, bytes, and place in the element. The
half-line that all lanes of a coalesced access make up is one part of 128 bytes. -/
structure Part where
  lane : Nat
  ix : Nat
  va : Nat
  n : Nat
  off : Nat
  deriving DecidableEq, Repr

/-- Cut an access of n bytes: whole when aligned, else aligned 4-byte parts (R107). -/
def splitParts (va n : Nat) : List (Nat × Nat) :=
  if va % n = 0 then [(va, n)]
  else (List.range 3).filterMap fun i =>
    let lo := max va ((va / 4 + i) * 4)
    let hi := min (va + n) ((va / 4 + i + 1) * 4)
    if lo < hi then some (lo, hi - lo) else none

/-- The parts of one lane. -/
def LaneReq.parts (r : LaneReq) (n : Nat) : List Part :=
  (splitParts r.addr n).zipIdx.map fun e => ⟨r.lane, e.2, e.1.1, e.1.2, e.1.1 - r.addr⟩

/-- The half-line of a fully coalesced load or store: all 32 lanes, 4 bytes each at base + 4 l, the base aligned to 128
(R107). -/
def Access.half (a : Access) : Option Nat :=
  match a.lanes with
  | [] => none
  | r :: _ =>
    if a.scratch = false ∧ a.lanes.length = 32 ∧ a.ty.bytes = 4 ∧ r.addr % 128 = 0 ∧ (a.kind = .load ∨ a.kind = .store)
        ∧ a.lanes.all (fun q => decide (q.addr = r.addr + 4 * q.lane)) then some r.addr
    else none

/-- The parts of an access, lanes ascending. -/
def Access.parts (a : Access) : List Part :=
  match a.half with
  | some va => [⟨0, 3, va, 128, 0⟩]
  | none => a.lanes.flatMap fun r => r.parts a.ty.bytes

/-- The key of a part among the answers of a slot. -/
def Part.key (p : Part) : Nat := p.lane * 4 + p.ix

/-- Whether an access of a slot goes to the column window (R100). -/
def Access.usesWindow (a : Access) : Bool := !a.scratch && a.lanes.any fun r => decide (0x00FF00000000 ≤ r.addr) && decide (r.addr < 0x00FF01000000)

/-- Whether an access to the column window waits for a change of the ways (R99). -/
def State.windowWaits (s : State) (bid : Nat) (a : Access) : Bool := (s.core (coreOf bid)).colChange.isSome && a.usesWindow

/-- What an access needs of a leaf (R320). -/
def AccKind.need : AccKind → Need
  | .load => ⟨true, false, false⟩
  | .store => ⟨false, true, false⟩
  | .atomic _ => ⟨true, true, false⟩

/-- The ways in scratch mode, ascending (R100). -/
def Core.scratchWays (c : Core) : List Nat := (List.range 16).filter fun i => decide (c.colWays.toNat / 4 ^ i % 4 = 1)

/-- The base of the column window (R100). -/
def windowBase : Nat := 0x00FF00000000

/-- Whether an address lies in the column window (R100). -/
def inWindow (va : Nat) : Bool := decide (windowBase ≤ va) && decide (va < windowBase + 0x1000000)

/-- Where an access of a block at a virtual address leads: the column window (R100), else by translation (R320). A collective
whose block was saved goes on under its context tag (R47). -/
def State.locate (s : State) (bid va : Nat) (nd : Need) : State × Except Nat Loc :=
  let c := coreOf bid
  match s.blk bid with
  | none => match tget s.colls (bid / 16384 - 1) with
    | some x => if inWindow va then (s, .error cATTRFAULT) else s.translate c x.tag va nd
    | none => (s, .error cPROTFAULT)
  | some b =>
    if inWindow va then
      (s, if !b.columnRight then .error cATTRFAULT
        else match (s.core c).scratchWays[(va - windowBase) / 0x100000]? with
          | some w => .ok (.column (w * 0x100000 + va % 0x100000))
          | none => .error cATTRFAULT)
    else s.translate c b.tag va nd

/-- What translating the parts found. -/
structure Scan where
  s : State
  ok : List (Part × Loc)
  bad : List (Nat × Nat × Nat)

/-- Whether an atomic may be performed there: not on host memory (R214). -/
def atomicHere (k : AccKind) (l : Loc) : Bool :=
  match k, l with
  | .atomic _, .host _ => false
  | _, _ => true

/-- Translate one part. -/
def Scan.step (bid : Nat) (k : AccKind) (n : Nat) (x : Scan) (p : Part) : Scan :=
  match k with
  | .atomic _ =>
    if p.va % n ≠ 0 ∨ p.n ≠ n then { x with bad := x.bad ++ [(p.va, p.lane, cALIGN)] }
    else match x.s.locate bid p.va k.need with
      | (s, .ok l) => if atomicHere k l then { x with s := s, ok := x.ok ++ [(p, l)] }
          else { x with s := s, bad := x.bad ++ [(p.va, p.lane, cATTRFAULT)] }
      | (s, .error c) => { x with s := s, bad := x.bad ++ [(p.va, p.lane, c)] }
  | _ => match x.s.locate bid p.va k.need with
      | (s, .ok l) => { x with s := s, ok := x.ok ++ [(p, l)] }
      | (s, .error c) => { x with s := s, bad := x.bad ++ [(p.va, p.lane, c)] }

/-- Translate every part of an access. -/
def State.scan (s : State) (bid : Nat) (a : Access) : Scan :=
  a.parts.foldl (fun x p => Scan.step bid a.kind a.ty.bytes x p) ⟨s, [], []⟩

/-- The lowest faulting address, of the lowest lane (R52, R204). -/
def lowestBad (l : List (Nat × Nat × Nat)) : Option (Nat × Nat × Nat) :=
  l.foldl (fun r e => match r with
    | none => some e
    | some q => if e.1 < q.1 ∨ (e.1 = q.1 ∧ e.2.1 < q.2.1) then some e else r) none

/-- The outcome of performing an access; `block` says what the slot waits for outside the active set (R37). -/
inductive AccRes where
  | done (s : State)
  | fault (s : State) (code va aux kinds : Nat)
  | uce (s : State)
  /-- Requests left for peers; the slot waits for their answers (R256). -/
  | wait (s : State)
  | block (w : Wake)
  | stall

/-- The host lines of a range of host memory, by their keys among a core's copies. -/
def hostLines (pa n : Nat) : List Nat := (List.range ((pa % 64 + n + 63) / 64)).map fun i => hostKey pa + i

/-- A host line as host memory holds it now. -/
def State.hostLine (s : State) (key : Nat) : CLine :=
  { data := sectorBits ((List.range 64).map fun i => cget 0 s.hostMem (64 * (key - hostKey 0) + i)), poison := false, lease := 0 }

/-- Bytes of host memory as the core reads them: its own granted line first (R255). -/
def State.hostByte (s : State) (c pa : Nat) : Byte :=
  match tget (s.core c).cache (hostKey pa) with
  | some x => x.byte (pa % 64)
  | none => cget 0 s.hostMem pa

/-- A load of host memory: a weak one takes its lines into the column cache ways, a strong one drops the core's copies
(R255). -/
def State.hostLoad (s : State) (c : Nat) (strong : Bool) (pa n : Nat) : State × List Byte :=
  let ks := hostLines pa n
  let s := if strong then s.modCore c fun k => { k with cache := k.cache.filter fun e => !ks.contains e.1 } else s
  let d := (List.range n).map fun i => s.hostByte c (pa + i)
  let s := if !strong ∧ anyMode (s.core c).colWays 0 16 then
      s.modCore c fun k => { k with cache := ks.foldl (fun m i => if (tget m i).isSome then m else tset m i (s.hostLine i)) k.cache }
    else s
  (s, d)

/-- A store to host memory: written to the host in program order; the core's own copies follow (R255). -/
def State.hostStore (s : State) (c pa : Nat) (d : List Byte) : State :=
  let s := { s with hostMem := d.zipIdx.foldl (fun (m : Mem) (e : Byte × Nat) => cset 0 m (pa + e.2) e.1) s.hostMem }
  s.modCore c fun k => { k with
    cache := (hostLines pa d.length).foldl (fun m i => if (tget m i).isSome then tset m i (s.hostLine i) else m) k.cache }

/-- Record the first write of a unit in the block's interval (R343). -/
def State.touch (s : State) (bid : Nat) (u : SnapUnit) : State := s.modBlk bid fun b => b.touch u

/-- Read a part at its place. Peers answer by packet, not here. -/
def State.readPart (s : State) (bid : Nat) (strong : Bool) (l : Loc) (n : Nat) : State × List Byte :=
  let c := coreOf bid
  match l with
  | .dram _ cell => if strong then s.strongLoad c (some bid) cell n else s.weakLoad c (some bid) cell n
  | .host pa => s.hostLoad c strong pa n
  | .column off => (s, (List.range n).map fun i => cget 0 (s.core c).column (off + i))
  | .peer _ _ => (s, [])

/-- Write a part at its place; `home` says that the store is performed at the home, strong or counted: it opens the block's
interval, in the column window too; `clean` are the sectors whose covering by the instruction it completes (R208, R209, R326). -/
def State.writePart (s : State) (bid : Nat) (home : Bool) (l : Loc) (d : List Byte) (clean : List Nat) : State :=
  let c := coreOf bid
  match l with
  | .dram pa cell =>
    if home then
      let s := s.strongStore c (some bid) cell d
      { s with poison := s.poison.filter fun p => !clean.contains p }
    else s.weakStore c (some bid) pa cell d clean
  | .host pa => (s.openInterval bid).hostStore c pa d
  | .column off =>
    ((if home then s.openInterval bid else s).modCore c fun k =>
      { k with
        column := d.zipIdx.foldl (fun m e => cset 0 m (off + e.2) e.1) k.column,
        columnBad := sectorsLeft k.columnBad off d.length }).touch bid (.columnLine (off / 256))
  | .peer _ _ => s

/-- The new value of an atomic on `b` bits of a type (R213, R214). -/
def atomNew (op : AtomOp) (t : Ty) (m c d : Nat) : Nat :=
  match op with
  | .add =>
    if t = .f32 then (f32F.round .rn ((f32F.read m).add .rn (f32F.read c)).1).1
    else (m + c) % 2 ^ t.bits
  | .min => if intOf t m ≤ intOf t c then m else c
  | .max => if intOf t c ≤ intOf t m then m else c
  | .and => Nat.land m c
  | .or => Nat.lor m c
  | .xor => Nat.xor m c
  | .exch => c
  | .cas => if m = d then c else m

/-- The code of an atomic operation in a packet (R328): AOP and type. -/
def atomAux (op : AtomOp) (t : Ty) : Nat := op.code.toNat * 32 + t.code.toNat

/-- A part's bytes of a value of the element. -/
def partBytes (x : Nat) (p : Part) : List Byte := toLE p.n (x / 2 ^ (8 * p.off))

/-- The request of the lane of a part. -/
def Access.req (a : Access) (p : Part) : LaneReq := (a.lanes.find? fun q => decide (q.lane = p.lane)).getD ⟨p.lane, 0, 0, 0⟩

/-- The bytes that a part stores: of its lane's value, or of all lanes for a half-line. -/
def Access.dataOf (a : Access) (p : Part) : List Byte :=
  if p.n = 128 then a.lanes.flatMap fun r => toLE 4 r.data else partBytes (a.req p).data p

/-- The data of a write packet: for each 8-byte word that is written, its byte mask and its eight bytes; AUX holds the
word mask of R105 (log 11). -/
def writeData (pa : Nat) (d : List Byte) : Nat × List Byte :=
  let words := ((List.range 32).filter fun w => decide (pa % 256 < 8 * w + 8) && decide (8 * w < pa % 256 + d.length))
  (words.foldl (fun m w => m + 2 ^ w) 0,
   words.flatMap fun w =>
     let bs : List (Option Byte) := (List.range 8).map fun i => if pa % 256 ≤ 8 * w + i then d[8 * w + i - pa % 256]? else none
     BitVec.ofNat 8 (bs.zipIdx.foldl (fun m e => if e.1.isSome then m + 2 ^ e.2 else m) 0) 
       :: bs.map fun e => e.getD 0)

/-- Send the request of a part to a peer, and note it among the requests that are out (R256, R330, R333). AUX 1 of a read asks
for the half-line, AUX 0 for the sector (log 11). -/
def State.askPeer (s : State) (who : Issuer) (cmd : Option Nat) (t : Tag) (node pa n : Nat) (k : AccKind) (ty : Ty) (x cmp key : Nat)
    (d : List Byte) : State × Nat :=
  let rid := s.nextId % 65536
  let path := homeSlice pa % 256
  let pk := match k with
    | .load => s.packet t node .read path pa (if n = 128 then 1 else 0) rid 0 []
    | .store => let w := writeData pa d; s.packet t node .write path (pa / 256 * 256) w.1 rid 0 w.2
    | .atomic op => s.packet t node .atomic path pa (atomAux op ty) rid 0 (toLE n x ++ toLE n cmp)
  let s := { s with nextId := s.nextId + 1,
                    links := tset s.links rid ⟨who, cmd, t, node, s.clock, decide (k = AccKind.store), false, key, pa⟩ }
  (s.sendPacket pk, rid)

/-- The issuer of a request that no issuer waits for: no core has this number. -/
def nobody : Issuer := .slot 0x10000 0 0

/-- What came of a write that a unit of the part makes for a context: its requests to peers are named; it parks; or it cannot be
performed at an address. -/
inductive UnitRes where
  | done (s : State) (rids : List Nat)
  | park
  | fail (s : State) (code va : Nat)

/-- A strong write of a unit inside one sector (R250, R256, R359). -/
def State.unitWrite (s : State) (c : Nat) (t : Tag) (va : Nat) (d : List Byte) : UnitRes :=
  match s.translate c t va ⟨false, true, false⟩ with
  | (s, .ok (.dram pa cell)) =>
    if s.unitFallow .vault (vaultOf cell) then .fail s cUCE va
    else if s.parks pa cell then .park
    else .done (s.strongStore c none cell d) []
  | (s, .ok (.host pa)) =>
    .done { s with hostMem := (d.zipIdx).foldl (fun m e => cset 0 m (pa + e.2) e.1) s.hostMem } []
  | (s, .ok (.peer node pa)) =>
    let q := s.askPeer nobody none t node pa d.length .store .b32 0 0 noKey d
    .done q.1 [q.2]
  | (s, .ok (.column _)) => .fail s cATTRFAULT va
  | (s, .error k) => if k = 0 then .park else .fail s k va

/-- A write of a unit, sector by sector. -/
def State.unitPutN (s : State) (c : Nat) (t : Tag) : Nat → Nat → List Byte → List Nat → UnitRes
  | 0, _, _, rids => .done s rids
  | fuel + 1, va, d, rids =>
    if d.isEmpty then .done s rids
    else
      let m := min d.length (64 - va % 64)
      match s.unitWrite c t va (d.take m) with
      | .done s r => s.unitPutN c t fuel (va + m) (d.drop m) (rids ++ r)
      | r => r

/-- A write of a unit of the part for a context, to any memory that the context may write. -/
def State.unitPut (s : State) (c : Nat) (t : Tag) (va : Nat) (d : List Byte) : UnitRes :=
  s.unitPutN c t (d.length / 64 + 2) va d []

/-- What performing the parts has gathered: values by part, and requests that are out. -/
structure Perf where
  s : State
  got : Tbl Nat
  asks : List (Nat × Nat)

/-- Perform one part, unless an answer for it is already there. -/
def Perf.step (bid : Nat) (who : Issuer) (t : Tag) (a : Access) (x : Perf) (e : Part × Loc × List Nat) : Perf :=
  let p := e.1
  if (tget x.got p.key).isSome then x
  else
    let r := a.req p
    match e.2.1 with
    | .peer node pa =>
      let s := match a.kind with
        | .load => x.s
        | _ => x.s.openInterval bid
      let q := s.askPeer who none t node pa p.n a.kind a.ty r.data r.cmp p.key (a.dataOf p)
      match a.kind, a.strong || a.cnt.isSome with
      | .store, false => { x with s := q.1, got := tset x.got p.key 0 }
      | _, _ => { x with s := q.1, asks := x.asks ++ [(q.2, p.key)] }
    | l =>
      match a.kind with
      | .load =>
        let q := x.s.readPart bid a.strong l p.n
        { x with s := q.1, got := tset x.got p.key (leNat q.2) }
      | .store =>
        { x with s := x.s.writePart bid (a.strong || a.cnt.isSome) l (a.dataOf p) e.2.2, got := tset x.got p.key 0 }
      | .atomic op =>
        match l with
        | .column _ =>
          let q := x.s.readPart bid false l p.n
          let m := leNat q.2
          { x with s := q.1.writePart bid false l (toLE p.n (atomNew op a.ty m r.data r.cmp)) [], got := tset x.got p.key m }
        | _ =>
          let q := x.s.readPart bid true l p.n
          let m := leNat q.2
          { x with s := q.1.writePart bid true l (toLE p.n (atomNew op a.ty m r.data r.cmp)) [], got := tset x.got p.key m }

/-- The value of a lane: put together from its parts, or its four bytes of the half-line. -/
def Access.value (a : Access) (got : Tbl Nat) (r : LaneReq) : Nat :=
  match a.half with
  | some _ => cget 0 got 3 / 2 ^ (32 * r.lane) % 2 ^ 32
  | none => (r.parts a.ty.bytes).foldl (fun v p => v + cget 0 got p.key % 2 ^ (8 * p.n) * 2 ^ (8 * p.off)) 0

/-- Whether a slot runs its handler with a load or atomic whose value it does not have yet (R159, R253). -/
def Slot.unreplayed (x : Slot) : Bool :=
  x.inHandler && (match x.frame.replay with
    | .acc a _ => decide (a.kind ≠ .store)
    | _ => false)

/-- The byte at an address among the stores that a slot holds, the newest (R248, R253). -/
def Slot.heldByte (x : Slot) (scratch : Bool) (va : Nat) : Option Byte :=
  x.held.foldl (fun r f => match f.op with
    | .mem h => if h.scratch = scratch then
        (h.parts.foldl (fun r p => if p.va ≤ va ∧ va < p.va + p.n then (h.dataOf p)[va - p.va]? else r) r) else r
    | .regs _ => r) none

/-- What a load of a handler reads while the load that faulted has no value: over the bytes at their places the stores that the
slot holds behind that load (R248, R253). -/
def Slot.withHeld (x : Slot) (a : Access) (got : Tbl Nat) : Tbl Nat :=
  if a.kind = .load ∧ x.unreplayed ∧ !x.held.isEmpty ∧ x.flights.isEmpty then
    a.parts.foldl (fun g p => tset g p.key (leNat (((toLE p.n (cget 0 g p.key)).zipIdx).map fun e =>
      (x.heldByte a.scratch (p.va + e.2)).getD e.1))) got
  else got

/-- The mask of the lanes of an access. -/
def Access.mask (a : Access) : Word32 := a.lanes.foldl (fun m r => m ||| (1 <<< r.lane)) 0

/-- Write what an access returns: the loaded or old values, and the success bits of a cas (R207, R214). -/
def State.finishAccess (s : State) (bid wid k : Nat) (a : Access) (got : Tbl Nat) : State :=
  let got := match s.view bid wid k with
    | some v => v.sl.withHeld a got
    | none => got
  let val := fun l => match a.lanes.find? fun r => decide (r.lane = l) with
    | some r => a.value got r
    | none => 0
  let s := match a.kd with
    | some kd => match s.view bid wid k with
      | some v => s.writeMask v kd a.mask fun l =>
          (match a.lanes.find? fun r => decide (r.lane = l) with
            | some r => decide (a.value got r = r.cmp)
            | none => false)
      | none => s
    | none => s
  let s := match a.vd with
    | some d => s.writeRegs bid wid (laneWrites a.ty.pair d a.mask fun l => extBits a.ty (val l))
    | none => s
  match a.sd with
  | some d =>
    let x := val 0
    s.swrite (.slot bid wid k) d (if a.ty.isSigned then BitVec.ofInt 64 (intOf a.ty x) else BitVec.ofNat 64 x)
  | none => s

/-- Whether the issuer has requests out that write peer memory (R216). -/
def State.writesOut (s : State) (who : Issuer) : Bool :=
  s.links.any fun e => decide (e.2.who = who) && e.2.writes && e.2.cmd.isNone

/-- Whether a release at this scope must still wait for a peer (R216). -/
def State.releaseWaits (s : State) (who : Issuer) (sc : Scope) : Bool := decide (sc = .sys) && s.writesOut who

/-- Whether an acknowledgement that the release waits for did not come in time (R330). -/
def State.writesLate (s : State) (who : Issuer) : Bool :=
  s.links.any fun e => decide (e.2.who = who) && e.2.writes && e.2.cmd.isNone && e.2.late

/-- Free the entries of an issuer's late writes. -/
def State.forgetWrites (s : State) (who : Issuer) : State :=
  { s with links := s.links.filter fun e => !(decide (e.2.who = who) && e.2.write && e.2.late) }

/-- The issuer waits in a release for its peers: as it stands, or the UCE treatment when an acknowledgement is late (R216,
R330). -/
def State.inRelease (s : State) : State := if s.writesLate s.cur then (s.forgetWrites s.cur).uceCur else s

/-- Whether increments of an issuer's counted stores have not taken their time at their homes (R209, R250). -/
def State.countsOut (s : State) (who : Issuer) : Bool :=
  s.cnts.any (fun e => decide (e.who = who)) || s.links.any fun e => decide (e.2.who = who) && decide (e.2.lane = cntKey) && !e.2.late

/-- Whether an access takes a place in the order of the strong accesses (R250). -/
def Access.inOrder (a : Access) : Bool :=
  a.strong || a.cnt.isSome || (decide (a.scope = .dev) || decide (a.scope = .sys)) && (match a.kind with
    | .atomic _ => true
    | _ => false)

/-- The two sides of an ordering flag (R216). -/
def ordRels : Ord → Bool
  | .rel => true | .ar => true | _ => false
def ordAcqs : Ord → Bool
  | .acq => true | .ar => true | _ => false

/-- The key by which a barrier object is known: a DRAM cell, or a host address from 2^54 (R240). -/
def hostObj (pa : Nat) : Nat := 0x40000000000000 + pa

/-- A barrier object: its key, the node of a peer that holds it, and its home slice, 1024 for host memory. -/
structure Obj where
  key : Nat
  node : Option Nat
  slice : Nat
  deriving DecidableEq, Repr

/-- The place of a barrier object from its translation. The column window holds none (log 12). -/
def objOf (l : Loc) : Option Obj :=
  match l with
  | .dram pa cell => some ⟨cell, none, homeSlice pa⟩
  | .host pa => some ⟨hostObj pa, none, 1024⟩
  | .peer n pa => some ⟨pa, some n, 1024⟩
  | .column _ => none

/-- Translate the address of a barrier object: alignment, then translation (R209, R241, R313). The cause 0 says that the
access parks until its home is ready (R359). -/
def State.findObj (s : State) (bid va : Nat) (nd : Need) : State × Except Nat Obj :=
  if va % 64 ≠ 0 then (s, .error cALIGN)
  else match s.locate bid va nd with
    | (s, .ok l) => (s, match l, objOf l with
      | .dram pa cell, some o => if s.parks pa cell then .error 0 else .ok o
      | _, some o => .ok o
      | _, none => .error cATTRFAULT)
    | (s, .error c) => (s, .error c)

/-- The cells of a part in package DRAM: the first and their number. -/
def dramSpan (e : Part × Loc) : Nat × Nat :=
  match e.2 with
  | .dram _ cell => (cell, e.1.n)
  | _ => (0, 0)

/-- The parts of a store with, for each, the sectors that the access as a whole covers and that it is the last to touch: they
lose their poison when it reaches its home (R326). -/
def withCleans (l : List (Part × Loc)) : List (Part × Loc × List Nat) :=
  l.zipIdx.map fun e =>
    let x := dramSpan e.1
    let near := fun p => l.filter fun q => decide ((dramSpan q).1 < 64 * p + 64) && decide (64 * p < (dramSpan q).1 + (dramSpan q).2)
    (e.1.1, e.1.2, if x.2 = 0 ∨ 64 ≤ x.2 then [] else [x.1 / 64].filter fun p =>
      !((l.drop (e.2 + 1)).any fun q => decide ((dramSpan q).2 ≠ 0) && decide ((dramSpan q).1 / 64 = p))
        && decide (64 ≤ ((near p).map fun q => (dramSpan q).2).sum)
        && (List.range 64).all fun i => (near p).any fun q =>
          decide ((dramSpan q).1 ≤ 64 * p + i) && decide (64 * p + i < (dramSpan q).1 + (dramSpan q).2))

/-- A fault at the object address of a counted store, taken before any lane is performed (R313). -/
def State.cntFault (s : State) (bid : Nat) (a : Access) : State × Option (Except Nat Obj) :=
  match a.cnt with
  | none => (s, none)
  | some o => let r := s.findObj bid o ⟨true, true, false⟩; (r.1, some r.2)

/-- Whether a part consumes poison: a load or an atomic of poisoned cells, or any access to a vault made fallow (R326, R352). -/
def State.partBad (s : State) (bid : Nat) (a : Access) (e : Part × Loc) : Bool :=
  match e.2 with
  | .dram _ cell =>
    if a.kind = .store then s.unitFallow .vault (vaultOf cell)
    else s.poisonedFor (coreOf bid) (some bid) (a.strong || decide (a.kind ≠ .load)) cell e.1.n
  | .column off => decide (a.kind ≠ .store) && sectorsBad (s.core (coreOf bid)).columnBad off e.1.n
  | _ => false

/-- The reads of the vaults that a load or an atomic makes: of sectors that no copy on the core serves (R105, R326). -/
def State.partReads (s : State) (bid : Nat) (a : Access) (l : List (Part × Loc)) : State :=
  l.foldl (fun (s : State) e => match e.2 with
    | .dram _ cell =>
      if a.kind = .store ∨ (a.kind = .load ∧ a.strong = false ∧ ((s.core (coreOf bid)).serves (cell / 64)).isSome) then s
      else s.vaultRead cell e.1.n
    | _ => s) s

/-- Perform an access to global memory (R204 to R209, R213, R214). -/
def State.performGlobal (s : State) (bid wid k : Nat) (a : Access) : AccRes :=
  let who : Issuer := .slot bid wid k
  let t := s.tagOf who
  match s.cntFault bid a with
  | (s, some (.error c)) => if c = 0 then .stall else .fault s c (a.cnt.getD 0) ((a.lanes.map fun r => r.lane).headD 0) 2
  | (s, obj) =>
    let x := s.scan bid a
    match lowestBad x.bad with
    | some (va, lane, code) => if code = 0 then .stall else .fault x.s code va lane (if inWindow va then 0 else kindBit a.kind)
    | none =>
      if x.ok.any (fun e => match e.2 with
          | .dram pa cell => s.parks pa cell
          | _ => false) then .stall
      else if a.inOrder && s.countsOut who then .stall
      else
      let x : Scan := { x with s := x.s.partReads bid a x.ok }
      if x.ok.any fun e => x.s.partBad bid a e then .uce x.s
      else if ordRels a.ord ∧ s.releaseWaits who a.scope then (if s.writesLate who then .uce (s.forgetWrites who) else .stall)
      else
        let s := if ordRels a.ord then x.s.releaseSide (coreOf bid) (some bid) a.scope else x.s
        let s := match a.kind with
          | .atomic _ => s.openInterval bid
          | _ => if a.cnt.isSome then s.openInterval bid else s
        let old := match s.view bid wid k with
          | some v => v.sl.answers
          | none => []
        let parts := if a.kind = .store then withCleans x.ok else x.ok.map fun e => (e.1, e.2, [])
        let r := parts.foldl (fun x e => Perf.step bid who t a x e) ⟨s, old, []⟩
        let s := r.s
        if r.asks.isEmpty then
          let s : State := match obj with
            | some (.ok o) =>
              let n := a.lanes.length
              if n = 0 then s else { s with cnts := s.cnts ++ [⟨who, t, o.key, o.node, n⟩] }
            | _ => s
          let s := s.modSlot bid wid k fun v => { v with answers := [] }
          let s := s.finishAccess bid wid k a r.got
          .done (if ordAcqs a.ord then s.acquireSide (coreOf bid) a.scope else s)
        else .wait (s.modSlot bid wid k fun v => { v with answers := r.got, asks := r.asks, status := .reply })

/-- The FIFO that a scratch offset names (R95). -/
def Block.fifoOf (b : Block) (off : Nat) : Option Nat :=
  if 0x100000 ≤ off ∧ (off - 0x100000) / 0x8000 < b.kern.fifos then some ((off - 0x100000) / 0x8000) else none

/-- Whether bytes at a scratch offset wait for the range scoreboard: an STS and an ATOMS also for source ranges (R116). -/
def Block.sbWaits (b : Block) (off n : Nat) (writes : Bool) : Bool :=
  b.sb.any fun e =>
    if e.dst then decide (e.released < e.len) && decide (off < e.lo + e.len) && decide (e.lo + e.released < off + n)
    else writes && decide (off < e.lo + e.len) && decide (e.lo < off + n)

/-- Read scratch bytes of a block (R210). -/
def State.scrBytes (s : State) (bid : Nat) (b : Block) (off n : Nat) : List Byte :=
  (List.range n).map fun i => cget 0 (s.core (coreOf bid)).store (b.scratchBase + off + i)

/-- Whether reading scratch bytes of a block consumes poison (R341, R342). -/
def State.scrPoison (s : State) (bid : Nat) (b : Block) (off n : Nat) : Bool :=
  sectorsBad (s.core (coreOf bid)).storeBad (b.scratchBase + off) n

/-- The lines of 256 bytes that a range of the core store touches. -/
def storeLines (lo n : Nat) : List Nat := (List.range ((lo % 256 + n + 255) / 256)).map fun i => lo / 256 + i

/-- Write scratch bytes of a block, each line's first write recorded (R210, R343). -/
def State.scrWrite (s : State) (bid : Nat) (b : Block) (off : Nat) (d : List Byte) : State :=
  (storeLines (b.scratchBase + off) d.length).foldl (fun s n => s.touch bid (.scratchLine n))
    (s.modCore (coreOf bid) fun k =>
      { k with
        store := d.zipIdx.foldl (fun m e => cset 0 m (b.scratchBase + off + e.2) e.1) k.store,
        storeBad := sectorsLeft k.storeBad (b.scratchBase + off) d.length })

/-- Act on a FIFO for one lane: append an entry, or pop one (R211). -/
def fifoStep (a : Access) (x : State × Tbl Nat) (bid q : Nat) (r : LaneReq) : State × Tbl Nat :=
  let l := match x.1.blk bid with
    | some b => cget [] b.fifos q
    | none => []
  match a.kind with
  | .load => match l with
    | [] => x
    | e :: t => (x.1.modBlk bid fun b => { b with fifos := cset [] b.fifos q t },
        (r.parts a.ty.bytes).foldl (fun g p => tset g p.key (e.toNat / 2 ^ (8 * p.off) % 2 ^ (8 * p.n))) x.2)
  | _ => (x.1.modBlk bid fun b => { b with fifos := cset [] b.fifos q (l ++ [BitVec.ofNat 128 (r.data % 2 ^ (8 * a.ty.bytes))]) },
      x.2)

/-- Act on scratch for one part. -/
def scrStep (bid : Nat) (b : Block) (a : Access) (x : State × Tbl Nat) (p : Part) : State × Tbl Nat :=
  let r := a.req p
  match a.kind with
  | .load => (x.1, tset x.2 p.key (leNat (x.1.scrBytes bid b p.va p.n)))
  | .store => (x.1.scrWrite bid b p.va (partBytes r.data p), x.2)
  | .atomic op =>
    let m := leNat (x.1.scrBytes bid b p.va p.n)
    (x.1.scrWrite bid b p.va (toLE p.n (atomNew op a.ty m r.data r.cmp)), tset x.2 p.key m)

/-- The parts of a scratch access that lie outside the allocation, and the misaligned lanes of an atomic (R96, R214). -/
def scrBad (b : Block) (a : Access) (r : LaneReq) : List (Nat × Nat × Nat) :=
  match b.fifoOf r.addr, a.kind with
  | some _, .atomic _ => [(r.addr, r.lane, cPROTFAULT)]
  | some _, _ => []
  | none, .atomic _ =>
    if r.addr % a.ty.bytes ≠ 0 then [(r.addr, r.lane, cALIGN)]
    else if b.kern.shared < r.addr + a.ty.bytes then [(r.addr, r.lane, cPROTFAULT)] else []
  | none, _ => ((r.parts a.ty.bytes).filter fun p => decide (b.kern.shared < p.va + p.n)).map fun p =>
      (p.va, p.lane, cPROTFAULT)

/-- Perform an access to scratch and FIFOs (R210, R211, R214): the whole instruction at once. -/
def State.performScratch (s : State) (bid wid k : Nat) (a : Access) : AccRes :=
  match s.blk bid with
  | none => .stall
  | some b =>
    match lowestBad (a.lanes.flatMap fun r => scrBad b a r) with
    | some (va, lane, code) => .fault s code va lane 0
    | none =>
      let fl := a.lanes.filterMap fun r => (b.fifoOf r.addr).map fun q => (q, r)
      let pl := (a.lanes.filter fun r => (b.fifoOf r.addr).isNone).flatMap fun r => r.parts a.ty.bytes
      let writes := decide (a.kind ≠ .load)
      if pl.any fun p => b.sbWaits p.va p.n writes then .block (.scratch a)
      else if (List.range b.kern.fifos).any (fun q =>
          let n := (fl.filter fun e => decide (e.1 = q)).length
          let have_ := (cget [] b.fifos q).length
          if writes then decide (2048 < have_ + n) else decide (have_ < n)) then .stall
      else if a.kind ≠ .store ∧ pl.any fun p => s.scrPoison bid b p.va p.n then .uce s
      else
        let x := fl.foldl (fun x e => fifoStep a x bid e.1 e.2) (s, ([] : Tbl Nat))
        let x := pl.foldl (fun x p => scrStep bid b a x p) x
        .done (x.1.finishAccess bid wid k a x.2)

/-- Perform an access. -/
def State.perform (s : State) (bid wid k : Nat) (a : Access) : AccRes :=
  if a.scratch then s.performScratch bid wid k a else s.performGlobal bid wid k a

end Sys2Proof.Machine
end

