-- ==== Sys2Proof/Machine/Issue.lean ====
section
/-! DEFINITION. Before an instruction is executed: fetching its bytes (R118, R119, R149, R292, R320), dictionary codes
(R129, R130), decoding and the order of the checks (R137), replays (R49, R159), lookahead windows and stores held behind
loads (R127, R128, R253), pending registers (R218), and who issues next (R37, R42, R43, log 2). -/

namespace Sys2Proof.Machine

/-- Whether a flight performs a memory access. -/
def Flight.isMem (f : Flight) : Bool :=
  match f.op with
  | .mem _ => true
  | .regs _ => false

/-- Go on after an access of a slot that has retired already met a fault: it parks or goes to its handler, with the access
to be replayed (R49). None while the fault table is full: the access stalls (R323). -/
def State.lateFault (s : State) (bid wid k : Nat) (a : Access) (resume : Pc) (skid code va aux kinds : Nat) : Option State :=
  if code = cUCE then
    some ((s.uce bid cUCE a.pc.toNat skid).modSlot bid wid k fun x =>
      { x with cause := causeWord cUCE k false 0, faultPc := a.pc, skid := skid })
  else s.slotFault bid wid k a.pc resume (.acc a skid) skid code va aux kinds

/-- A slot gives up its place until it need not wait (R37). -/
def State.block (s : State) (bid wid k : Nat) (w : Wake) : State := s.modSlot bid wid k fun x => { x with status := .blocked w }

/-- The issuing slot gives up its place; a stream waits where it is (R37). -/
def State.blockCur (s : State) (w : Wake) : State :=
  match s.cur with
  | .slot b i k => s.block b i k w
  | .stream _ _ _ => s

/-- Perform an access that a slot has retired already, `drop` taking it from where it stood: done, or the slot stops with the
SKID it has, waits, or stalls with the access where it stood (R49, R323). -/
def State.performLate (s : State) (bid wid k : Nat) (a : Access) (resume : Pc) (skid : Nat) (drop : Slot → Slot) : State :=
  match s.perform bid wid k a with
  | .done t => t.modSlot bid wid k drop
  | .fault t code va aux kinds => ((t.modSlot bid wid k drop).lateFault bid wid k a resume skid code va aux kinds).getD s
  | .uce t => ((t.modSlot bid wid k drop).lateFault bid wid k a resume skid cUCE 0 0 0).getD s
  | .wait t => (t.modSlot bid wid k drop).modSlot bid wid k fun x => { x with replay := .acc a skid, resume := resume }
  | .block w => s.block bid wid k w
  | .stall => s

/-- Complete the oldest instruction in flight of a slot, in program order (R128). A stalled access leaves all as it is. -/
def State.completeOldest (s : State) (bid wid k : Nat) : State :=
  match s.view bid wid k with
  | none => s
  | some v => match v.sl.flights with
    | [] => s
    | f :: t =>
      match f.op with
      | .regs w => (s.modSlot bid wid k fun x => { x with flights := t }).writeRegs bid wid w
      | .mem a => s.performLate bid wid k a v.sl.pc f.younger fun x => { x with flights := t }

/-- Perform the oldest held store of a slot (R253). -/
def State.performHeld (s : State) (bid wid k : Nat) : State :=
  match s.view bid wid k with
  | none => s
  | some v => match v.sl.held with
    | [] => s
    | f :: t =>
      match f.op with
      | .regs _ => s.modSlot bid wid k fun x => { x with held := t }
      | .mem a => s.performLate bid wid k a v.sl.pc f.younger fun x => { x with held := t }

/-- The replay of a stopped access (R49, R159, R324): it folds nothing, and SKID keeps the value of the first fault. It waits for
a change of the column ways (R99). -/
def State.replayAcc (s : State) (bid wid k : Nat) (a : Access) (skid : Nat) : State :=
  if s.windowWaits bid a then s
  else match s.view bid wid k with
  | none => s
  | some v => match s.perform bid wid k a with
    | .done t => t.modSlot bid wid k fun x => { x with replay := .none, pc := x.resume }
    | .fault t code va aux kinds => (t.lateFault bid wid k a v.sl.resume skid code va aux kinds).getD s
    | .uce t => (t.lateFault bid wid k a v.sl.resume skid cUCE 0 0 0).getD s
    | .wait t => t
    | .block w => s.block bid wid k w
    | .stall => s

/-- Whether an access would be performed without a fault or a stall, as far as translation and scratch bounds tell. -/
def State.wouldRun (s : State) (bid wid k : Nat) (a : Access) : Bool :=
  match s.perform bid wid k a with
  | .done _ => true
  | .wait _ => true
  | _ => false

/-- A store retires and is held (R253). -/
def State.holdStore (s : State) (v : View) (a : Access) : State :=
  s.retire.modSlot v.bid v.wid v.k fun x => { x with held := x.held ++ [⟨.mem a, 0, 0, a.pc⟩] }

/-- Whether an atomic meets a store of its slot that is held (R248, R253). -/
def Slot.meetsHeld (x : Slot) (a : Access) : Bool :=
  x.held.any fun f => match f.op with
    | .mem h => decide (h.scratch = a.scratch) && (h.parts.any fun p => a.parts.any fun q =>
        decide (p.va < q.va + q.n) && decide (q.va < p.va + p.n))
    | .regs _ => false

/-- Issue a memory access (R49, R127, R128, R253). With a lookahead it goes into flight. A store in the window of an
earlier load that has not received its value retires and is held, and so is a store of a handler while the load that faulted has
no value; everything else that meets a load in flight lets the oldest instruction in flight complete first. -/
def State.issueAccess (s : State) (v : View) (a : Access) (la : Nat) : Out :=
  let mem := v.sl.flights.any Flight.isMem
  if s.windowWaits v.bid a then .next s
  else if mem then
    if decide (a.kind = .store) && !ordRels a.ord && s.wouldRun v.bid v.wid v.k a then .next (s.holdStore v a)
    else if decide (a.kind ≠ .store) && decide (a.ord = .none) && decide (0 < la) && v.sl.held.isEmpty
        && s.wouldRun v.bid v.wid v.k a then
      .next (s.retire.modSlot v.bid v.wid v.k fun x => { x with flights := x.flights ++ [⟨.mem a, la, 0, a.pc⟩] })
    else .next (s.completeOldest v.bid v.wid v.k)
  else if v.sl.unreplayed && decide (a.kind = .store) then .next (s.holdStore v a)
  else if v.sl.unreplayed && decide (a.kind ≠ .load) && v.sl.meetsHeld a then .next s
  else if decide (a.kind ≠ .store) && decide (a.ord = .none) && decide (0 < la) && v.sl.held.isEmpty then
    .next (s.retire.modSlot v.bid v.wid v.k fun x => { x with flights := x.flights ++ [⟨.mem a, la, 0, a.pc⟩] })
  else match s.perform v.bid v.wid v.k a with
    | .done s => .next s.retire
    | .fault s code va aux kinds => .next (s.memFault (.acc a 0) code va aux kinds)
    | .uce s => .next s.uceCur
    | .wait s => .next (s.modSlot v.bid v.wid v.k fun x =>
        { (x.folded s.ir none).count with pc := s.ir.succ, expand := none, ir := s.ir, replay := .acc a 0, resume := s.ir.succ })
    | .block w => .next (s.block v.bid v.wid v.k w)
    | .stall => .next s

/-- Issue an instruction that writes registers when it completes (R127, R128). -/
def State.issueRegs (s : State) (v : View) (la : Nat) (w : List (VNum × Word32 × VReg)) : State :=
  if la = 0 then (s.writeRegs v.bid v.wid w).retire
  else s.retire.modSlot v.bid v.wid v.k fun x => { x with flights := x.flights ++ [⟨.regs w, la, 0, s.ir.pc⟩] }

/-- The scalar registers an instruction names (R218). -/
def ssrcRegs : SSrc → List SReg
  | .reg n => [n]
  | .imm _ => []
def vsrcScalars : VSrc → List SReg
  | .sca n => [n]
  | _ => []
def addrScalars (a : MAddr) : List SReg :=
  a.base :: match a.idx with
    | .sca n => [n]
    | .vec _ => []
def dataScalars : MData → List SReg
  | .sca n => [n]
  | .vec _ => []
def binScalars (o : VBin) : List SReg := vsrcScalars o.a ++ vsrcScalars o.b
def triScalars (o : VTri) : List SReg := vsrcScalars o.a ++ vsrcScalars o.b ++ vsrcScalars o.c

/-- Scalars named by an instruction of majors 0x00 to 0x07. -/
def lowScalars : Instr → List SReg
  | .bru _ _ a b _ _ _ => [a, b]
  | .loop d _ _ _ => [d]
  | .call d _ (.off _) _ => [d]
  | .call d _ (.reg n) _ => [d, n]
  | .ret a _ => [a]
  | .trapret a _ => a.toList
  | .sread (.sca d) _ _ => [d]
  | .swrite _ a => [a]
  | .swriteBankmode a => [a]
  | .swriteColways a => [a]
  | .swriteVersionbudget a => [a]
  | .tlbinv _ _ a b => [a, b]
  | .icinv _ a b => [a, b]
  | .kpop d _ => [d]
  | .kfirst d _ => [d]
  | .kget d _ _ => [d]
  | .ksave d _ => [d]
  | .krest _ a => [a]
  | .sadd d a b => d :: a :: ssrcRegs b
  | .ssub d a b => d :: a :: ssrcRegs b
  | .smul d a b => d :: a :: ssrcRegs b
  | .smulh _ d a b => d :: a :: ssrcRegs b
  | .smad d a b c => [d, a, b, c]
  | .sdiv _ d a b => d :: a :: ssrcRegs b
  | .srem _ d a b => d :: a :: ssrcRegs b
  | .sand d a b => d :: a :: ssrcRegs b
  | .sor d a b => d :: a :: ssrcRegs b
  | .sxor d a b => d :: a :: ssrcRegs b
  | .sshl d a b => d :: a :: ssrcRegs b
  | .sshr d a b => d :: a :: ssrcRegs b
  | .ssra d a b => d :: a :: ssrcRegs b
  | .smin _ d a b => d :: a :: ssrcRegs b
  | .smax _ d a b => d :: a :: ssrcRegs b
  | .scmp _ _ d a b => d :: a :: ssrcRegs b
  | .ssel d a b c => [d, a, b, c]
  | .smov d a => [d, a]
  | .sbfx _ d a _ _ => [d, a]
  | .spopc d a => [d, a]
  | .sclz d a => [d, a]
  | .saddr d a b _ _ => [d, a, b]
  | .sli d _ => [d]
  | _ => []

/-- Scalars named by a vector instruction: broadcasts, and the destinations of VMOVS and CTAG. -/
def vecScalars : Instr → List SReg
  | .vadd o => binScalars o
  | .vsub o => binScalars o
  | .vmul o => binScalars o
  | .vmulh o => binScalars o
  | .vmad o => triScalars o
  | .vaddc o => vsrcScalars o.a ++ vsrcScalars o.b
  | .vsubb o => vsrcScalars o.a ++ vsrcScalars o.b
  | .vmin o => binScalars o
  | .vmax o => binScalars o
  | .vabs o => vsrcScalars o.a
  | .vneg o => vsrcScalars o.a
  | .vsat o => binScalars o
  | .vdot4 o => triScalars o
  | .vclz o => vsrcScalars o.a
  | .vpopc o => vsrcScalars o.a
  | .vand o => binScalars o
  | .vor o => binScalars o
  | .vxor o => binScalars o
  | .vnot o => vsrcScalars o.a
  | .vshl o => binScalars o
  | .vshr o => binScalars o
  | .vsra o => binScalars o
  | .vbfx o => vsrcScalars o.a
  | .vbfi o => vsrcScalars o.a
  | .vsel _ _ _ a b _ => vsrcScalars a ++ vsrcScalars b
  | .vcmp o => vsrcScalars o.a ++ vsrcScalars o.b
  | .vmov o => vsrcScalars o.a
  | .vmovs _ d a _ => d :: vsrcScalars a
  | .fadd o => binScalars o
  | .fsub o => binScalars o
  | .fmul o => binScalars o
  | .ffma o => triScalars o
  | .fmin o => binScalars o
  | .fmax o => binScalars o
  | .fabs o => vsrcScalars o.a
  | .fneg o => vsrcScalars o.a
  | .fclass o => vsrcScalars o.a
  | .ffloor o => vsrcScalars o.a
  | .frint o => vsrcScalars o.a
  | .fscale o => binScalars o
  | .fcmp o => vsrcScalars o.a ++ vsrcScalars o.b
  | .cvt _ _ _ _ _ a => vsrcScalars a
  | .pack _ _ a _ => vsrcScalars a
  | .unpack _ _ a _ => vsrcScalars a
  | .ctag _ d a => d :: vsrcScalars a
  | .fdiv o => binScalars o
  | .fsqrt o => vsrcScalars o.a
  | .frcp o => vsrcScalars o.a
  | .frsq o => vsrcScalars o.a
  | .fexp2 o => vsrcScalars o.a
  | .flog2 o => vsrcScalars o.a
  | .vote _ _ _ d a _ _ => d :: vsrcScalars a
  | .regroup d _ => [d]
  | _ => []

/-- Scalars named by a memory or engine instruction. -/
def engScalars : Instr → List SReg
  | .ld _ _ _ _ _ ad => addrScalars ad
  | .st _ _ _ ad v => addrScalars ad ++ dataScalars v
  | .stCnt _ _ _ _ ad v c => c :: addrScalars ad ++ dataScalars v
  | .ldc _ _ _ d ad => d :: addrScalars ad
  | .pref _ ad => addrScalars ad
  | .lds _ _ _ _ ad => addrScalars ad
  | .sts _ _ ad v => addrScalars ad ++ dataScalars v
  | .pld _ _ _ base _ _ => [base]
  | .pst _ base _ _ _ => [base]
  | .atom _ _ _ _ _ _ ad _ => addrScalars ad
  | .atoms _ _ _ _ ad _ => addrScalars ad
  | .mldb _ _ d a b _ => [d, a, b]
  | .mldz _ _ _ _ a _ => [a]
  | .mstz _ _ _ a _ _ => [a]
  | .mdrain _ _ _ (.scratch base _) => [base]
  | .cpy _ (.linear d a _) => [d, a]
  | .cpy _ (.tensor d a c _) => [d, a, c]
  | .gath o => [o.d, o.a, o.b, o.c]
  | .scat o => [o.d, o.a, o.b, o.c]
  | .cpyq d _ => [d]
  | .barn _ rcv _ _ dlv => rcv.toList ++ dlv.toList
  | .boinit _ a _ => [a]
  | .boarr _ _ a _ => [a]
  | .bowait _ _ a b _ => [a, b]
  | .xsend _ d a b _ => [d, a, b]
  | .xpost _ d a b _ => [d, a, b]
  | .xprobe _ d a => [d, a]
  | .xcancel d a => [d, a]
  | .coll _ _ a b _ => [a, b]
  | .waitchunk _ _ a _ => [a]
  | .launch d a b => [d, a, b]
  | .qpush d a b => [d, a, b]
  | .qpop d a b => [d, a, b]
  | .fork _ d _ => [d]
  | .rdv a => [a]
  | .ctxkill d a => [d, a]
  | .ctxstart d a b => [d, a, b]
  | .reclaim d a => [d, a]
  | .patch d a => [d, a]
  | _ => []

/-- Every scalar register an instruction reads or writes (R218); s0 holds nothing. -/
def instrScalars (i : Instr) : List SReg := (lowScalars i ++ vecScalars i ++ engScalars i).filter fun n => decide (n ≠ 0)

/-- The registers of a vector operand: a pair under a 64-bit type (R41, R171). -/
def regSpan (t : Ty) (n : Nat) : List Nat := if t.pair then [n, n + 1] else [n]
def srcVecs (t : Ty) (l : List VSrc) : List Nat := l.flatMap fun a => (vsrcRegs a).flatMap (regSpan t)

/-- No predicate: the effective mask is k0 (R22). -/
def noPred : Pred := ⟨false, 0⟩

/-- What an instruction reads and writes in the vector file: its predicate, sources, destinations (R41). -/
structure VecUse where
  p : Pred
  rd : List Nat
  wr : List Nat

def useUn (o : VUn) : Option VecUse := some ⟨o.p, srcVecs o.ty [o.a], regSpan o.ty o.d.toNat⟩
def useBin (o : VBin) : Option VecUse := some ⟨o.p, srcVecs o.ty [o.a, o.b], regSpan o.ty o.d.toNat⟩
/-- Source B is one register, a count (R171). -/
def useCount (o : VBin) : Option VecUse := some ⟨o.p, srcVecs o.ty [o.a] ++ srcVecs .n32 [o.b], regSpan o.ty o.d.toNat⟩
def useTri (o : VTri) : Option VecUse := some ⟨o.p, srcVecs o.ty [o.a, o.b, o.c], regSpan o.ty o.d.toNat⟩

/-- The vector registers of an instruction of majors 0x08 to 0x11 and of the mask and move instructions. -/
def aluVecs : Instr → Option VecUse
  | .vadd o => useBin o
  | .vsub o => useBin o
  | .vmul o => useBin o
  | .vmulh o => useBin o
  | .vmad o => useTri o
  | .vaddc o => some ⟨o.p, srcVecs .n32 [o.a, o.b], [o.d.toNat]⟩
  | .vsubb o => some ⟨o.p, srcVecs .n32 [o.a, o.b], [o.d.toNat]⟩
  | .vmin o => useBin o
  | .vmax o => useBin o
  | .vabs o => useUn o
  | .vneg o => useUn o
  | .vsat o => useCount o
  | .vdot4 o => useTri o
  | .vclz o => some ⟨o.p, srcVecs o.ty [o.a], [o.d.toNat]⟩
  | .vpopc o => some ⟨o.p, srcVecs o.ty [o.a], [o.d.toNat]⟩
  | .vand o => useBin o
  | .vor o => useBin o
  | .vxor o => useBin o
  | .vnot o => useUn o
  | .vshl o => useCount o
  | .vshr o => useCount o
  | .vsra o => useCount o
  | .vbfx o => some ⟨o.p, srcVecs o.ty [o.a], regSpan o.ty o.d.toNat⟩
  | .vbfi o => some ⟨o.p, srcVecs o.ty [o.a, .vec o.d], regSpan o.ty o.d.toNat⟩
  | .vsel p ty d a b _ => some ⟨p, srcVecs ty [a, b], regSpan ty d.toNat⟩
  | .vcmp o => some ⟨o.p, srcVecs o.ty [o.a, o.b], []⟩
  | .vmov o => useUn o
  | .vli p d _ => some ⟨p, [], [d.toNat]⟩
  | .vmovs ty _ a _ => some ⟨noPred, srcVecs ty [a], []⟩
  | .fadd o => useBin o
  | .fsub o => useBin o
  | .fmul o => useBin o
  | .ffma o => useTri o
  | .fmin o => useBin o
  | .fmax o => useBin o
  | .fabs o => useUn o
  | .fneg o => useUn o
  | .fclass o => some ⟨o.p, srcVecs o.ty [o.a], [o.d.toNat]⟩
  | .ffloor o => useUn o
  | .frint o => useUn o
  | .fscale o => useCount o
  | .fcmp o => some ⟨o.p, srcVecs o.ty [o.a, o.b], []⟩
  | .cvt p dt st _ d a => some ⟨p, srcVecs st [a], regSpan dt d.toNat⟩
  | .pack _ d a _ => some ⟨noPred, srcVecs .b32 [a, .vec d], []⟩
  | .unpack _ _ a _ => some ⟨noPred, srcVecs .b32 [a], []⟩
  | .ctag _ _ a => some ⟨noPred, srcVecs .b32 [a], []⟩
  | .fdiv o => useBin o
  | .fsqrt o => useUn o
  | .frcp o => useUn o
  | .frsq o => useUn o
  | .fexp2 o => useUn o
  | .flog2 o => useUn o
  | .setexec a => some ⟨noPred, [a.toNat], []⟩
  | .sread (.vec d) _ p => some ⟨p, [], [d.toNat]⟩
  | _ => none

/-- The vector registers of the group and memory instructions. -/
def memVecs : Instr → Option VecUse
  | .vote p _ ty _ a m _ => some ⟨p, srcVecs ty [a] ++ (m.map fun n => n.toNat).toList, []⟩
  | .gbar _ _ m => some ⟨noPred, (m.map fun n => n.toNat).toList, []⟩
  | .ld p _ ty _ d ad => some ⟨p, idxRegs ad.idx, regSpan ty d.toNat⟩
  | .st p ty _ ad v => some ⟨p, idxRegs ad.idx ++ (dataRegs v).flatMap (regSpan ty), []⟩
  | .stCnt p ty _ _ ad v _ => some ⟨p, idxRegs ad.idx ++ (dataRegs v).flatMap (regSpan ty), []⟩
  | .pref p ad => some ⟨p, idxRegs ad.idx, []⟩
  | .lds p _ ty d ad => some ⟨p, idxRegs ad.idx, regSpan ty d.toNat⟩
  | .sts p ty ad v => some ⟨p, idxRegs ad.idx ++ (dataRegs v).flatMap (regSpan ty), []⟩
  | .atom p _ _ ty _ _ ad f => some ⟨p, idxRegs ad.idx ++ atomRd ty f, atomWr ty f⟩
  | .atoms p _ _ ty ad f => some ⟨p, idxRegs ad.idx ++ atomRd ty f, atomWr ty f⟩
  | _ => none
where
  atomRd (ty : Ty) : AtomForm → List Nat
    | .noRet d => regSpan ty d.toNat
    | .ret _ c => regSpan ty c.toNat
    | .cas d _ c => regSpan ty d.toNat ++ regSpan ty c.toNat
  atomWr (ty : Ty) : AtomForm → List Nat
    | .noRet _ => []
    | .ret d _ => (d.map fun n => regSpan ty n.toNat).getD []
    | .cas d _ _ => regSpan ty d.toNat

/-- The registers of its window that an instruction reads; a write under a partial mask reads its destination (R41, R342). The
plane instructions, CALL and REGROUP read more, each by its own rule. -/
def readsOf (v : View) (i : Instr) : List Nat :=
  match (aluVecs i).or (memVecs i) with
  | none => []
  | some u => u.rd ++ if effMask v u.p = 0xFFFFFFFF then [] else u.wr

/-- Whether an instruction writes k0 whatever its data (R128, R161). -/
def writesK0 : Instr → Bool
  | .kmov d _ => decide (d = 0)
  | .kand d _ _ => decide (d = 0)
  | .kor d _ _ => decide (d = 0)
  | .kxor d _ _ => decide (d = 0)
  | .kandn d _ _ => decide (d = 0)
  | .knot d _ => decide (d = 0)
  | .kset d _ => decide (d = 0)
  | .krest d _ => decide (d = 0)
  | .setexec _ => true
  | _ => false

/-- Whether an instruction waits for the instructions in flight and ends their windows (R128). -/
def closesWindow (i : Instr) : Bool :=
  let m := (fieldsOf i).major.toNat
  (match i with
    | .dictionaryWord _ _ _ _ _ => false
    | .nop (.w128 _) => true
    | _ => (decide (1 ≤ m) && decide (m ≤ 3)) || decide (m = 0x14) || (decide (0x19 ≤ m) && decide (m ≤ 0x27)))
    || writesK0 i

/-- The cache key of a 32-byte fetch block: context tag and virtual block. -/
def icKey (t : Tag) (va : Nat) : Nat := (t.slot * 1024 + t.inc) * 2 ^ 52 + va / 32

/-- A fetched block, or what the step did instead. -/
inductive Fetched where
  | block (s : State) (b : BitVec 256)
  | act (s : State)

/-- Put a fetched block into the instruction cache of a core. -/
def State.fillIcache (s : State) (c key : Nat) (d : List Byte) : State :=
  s.modCore c fun k => { k with icache := tset k.icache key (BitVec.ofNat 256 (leNat d)) }

/-- A fault of a fetch: FAULTPC at the target, SKID 0; no instruction was issued, so nothing folds (R149, R320). -/
def State.fetchFault (s : State) (code va kinds : Nat) : State :=
  if code = 0 then s
  else if code = cUCE then s.uceCur
  else match s.cur with
  | .slot b w k => (s.slotFault b w k s.ir.pc s.ir.pc .none 0 code va 0 kinds).getD s
  | .stream _ _ _ => s.memFault .again code va 0 kinds

/-- The answers an issuer holds. -/
def State.answersOf (s : State) (who : Issuer) : Tbl Nat :=
  match who with
  | .slot b w k => match s.view b w k with
    | some v => v.sl.answers
    | none => []
  | .stream b e ix => match (s.blk b).bind fun x => x.stream e ix with
    | some x => x.answers
    | none => []

/-- Make an issuer wait for the answer of a request, or forget the answers. -/
def State.setAsks (s : State) (who : Issuer) (asks : List (Nat × Nat)) (ans : Tbl Nat) : State :=
  match who with
  | .slot b w k => s.modSlot b w k fun x =>
    { x with asks := asks, answers := ans, status := if asks.isEmpty then x.status else .reply }
  | .stream b e ix => s.modStream b e ix fun x =>
    { x with asks := asks, answers := ans, status := if asks.isEmpty then x.status else .reply }

/-- The 32-byte block at an address, from the instruction cache or through translation (R292, R320). -/
def State.fetchBlock (s : State) (va : Nat) (nd : Need) : Fetched :=
  let c := coreOf s.cur.block
  let t := s.tagOf s.cur
  let va := va / 32 * 32
  match tget (s.core c).icache (icKey t va) with
  | some b => .block s b
  | none =>
    match s.translate c t va nd with
    | (s, .error code) => .act (s.fetchFault code va 8)
    | (s, .ok (.dram pa cell)) =>
      let s := s.vaultRead cell 32
      if s.parks pa cell then .act s
      else if s.poisoned cell 32 then .act s.uceCur
      else
        let d := (List.range 32).map fun i => s.dramByte (cell + i)
        .block (s.fillIcache c (icKey t va) d) (BitVec.ofNat 256 (leNat d))
    | (s, .ok (.host pa)) =>
      let d := (List.range 32).map fun i => cget 0 s.hostMem (pa + i)
      .block (s.fillIcache c (icKey t va) d) (BitVec.ofNat 256 (leNat d))
    | (s, .ok (.peer node pa)) =>
      match tget (s.answersOf s.cur) fetchKey with
      | some x =>
        let s := s.setAsks s.cur [] (tdel (s.answersOf s.cur) fetchKey)
        .block (s.fillIcache c (icKey t va) (toLE 32 x)) (BitVec.ofNat 256 x)
      | none =>
        let q := s.askPeer s.cur none t node pa 32 .load .b32 0 0 fetchKey []
        .act (q.1.setAsks s.cur [(q.2, fetchKey)] (s.answersOf s.cur))
    | (s, .ok (.column _)) => .act s

/-- The word of a block that starts at a byte, with zeros above its length (R118). -/
def wordAt (b : BitVec 256) (off : Nat) : InstrWord :=
  let w : InstrWord := b.extractLsb' (8 * off) 128
  w &&& BitVec.ofNat 128 (2 ^ (8 * wordBytes w) - 1)

/-- What happens when an issuer is served: an instruction to execute, or something else that the step did. -/
inductive Prep where
  | run (s : State) (i : Instr)
  | act (s : State)

/-- The kernel of a block. -/
def State.kernOf (s : State) (bid : Nat) : Option Kernel := (s.blk bid).map fun b => b.kern

/-- Whether an address lies in the text of a kernel (R149). -/
def Kernel.hasText (k : Kernel) (va : Nat) : Bool := decide (k.text ≤ va) && decide (va < k.text + k.textLen)

/-- Whether an address lies in the stub region (R300). -/
def Kernel.inStubs (k : Kernel) (va : Nat) : Bool :=
  decide (k.text + k.stubOff ≤ va) && decide (va < k.text + k.stubOff + 32 * k.nbind)

/-- The branch that the matrix sequencer follows by its prediction while its scalars are pending (R35, R218). -/
def predicts (who : Issuer) (i : Instr) : Bool :=
  match who, i with
  | .stream _ .mat _, .bru _ _ _ _ _ _ _ => true
  | .stream _ .mat _, .loop _ _ _ _ => true
  | _, _ => false

/-- Decode the word at hand in the order of R137, and execute it unless the issuer must wait: for a pending register
(R218), or for what is in flight (R128). -/
def State.decoded (s : State) (word : InstrWord) (len : Nat) (dict : Option Bool) : Prep :=
  let s := { s with ir := ⟨word, len, s.ir.pc, dict⟩ }
  match decode word with
  | .error (.illegal p) => .act (s.trap (if p ∧ !s.privileged then cPRIV else cILLEGAL))
  | .ok i =>
    if (instrScalars i).any (fun n => s.pendingRegs.contains n) && !predicts s.cur i then .act s
    else match s.cur with
    | .slot b w k => match s.view b w k with
      | none => .act s
      | some v =>
        if v.sl.flights.any (fun f => decide (f.left = 0)) || (!v.sl.flights.isEmpty && closesWindow i) then
          .act (s.completeOldest b w k)
        else match s.readRegs v (readsOf v i) with
          | .error p => .act (s.uceReg v p)
          | .ok s => .run s i
    | .stream _ _ _ => .run s i

/-- Fetch at the issuer's PC and decode (R118, R119, R120, R149, R300). A PC with a code index names a dictionary word;
where the word is none, or the index is 3, the trap is ILLEGAL (log 13). -/
def State.fetchDecode (s : State) (pc : Pc) : Prep :=
  let s := { s with ir := ⟨0, 8, pc, none⟩ }
  let va := pc.toNat / 4 * 4
  match s.kernOf s.cur.block with
  | none => .act s
  | some kern =>
    if !kern.hasText va then .act (s.fetchFault cPROTFAULT va 0)
    else if kern.inStubs va then .act (s.trap cILLEGAL)
    else match s.fetchBlock va ⟨false, false, true⟩ with
      | .act s => .act s
      | .block s b =>
        if 32 < va % 32 + 8 then .act (s.trap cSTRADDLE)
        else
          let word := wordAt b (va % 32)
          if 32 < va % 32 + wordBytes word then .act (s.trap cSTRADDLE)
          else if pc.toNat % 4 ≠ 0 ∧ (word.extractLsb' 0 2 ≠ 3 ∨ pc.toNat % 4 = 3) then .act (s.trap cILLEGAL)
          else s.decoded word (wordBytes word) none

/-- Whether a block is to be saved or flushed: its slots and streams issue nothing more, and complete what is in flight (R47). -/
def Block.leaving (b : Block) : Bool := decide (b.preempt = some .save) || decide (b.preempt = some .flush)

/-! ### The patch engine (R168, R302) -/

/-- Whether a PATCH is still at its instruction, or the output of a translation still to be written. -/
def State.patchAlive (s : State) (p : PatchRun) : Bool :=
  match p.who with
  | .slot b w k => match s.view b w k with
    | some v => decide (v.sl.pc = p.pc) && (decide (v.sl.status = .run) || decide (v.sl.status = .blocked .patch) || decide (v.sl.status = .reply))
    | none => decide (p.who = nobody) && s.lazies.any fun r => decide (r.entry = p.src) && r.started
  | .stream _ _ _ => false

/-- The patch that the engine carries out: the first of those that are at their instruction. -/
def State.patchNow (s : State) : Option PatchRun := s.patches.find? fun p => s.patchAlive p

/-- Whether a patch parks an issuer of a block at a PC: in its range, or in a block of the kernel whose dictionary table it
changes (R168, R302). -/
def PatchRun.covers (p : PatchRun) (b : Block) (pc : Pc) : Bool :=
  decide (b.tag = p.tag) && (decide (p.dict = some b.kern.addr) || (decide (p.lo ≤ pc.toNat) && decide (pc.toNat < p.lo + p.len)))

/-- Whether an issuer is parked by the patch that the engine carries out; the one that issued it is not. -/
def State.patchParks (s : State) (who : Issuer) (b : Block) (pc : Pc) : Bool :=
  match s.patchNow with
  | some p => decide (p.who ≠ who) && p.covers b pc
  | none => false

/-- The PC of an instruction that a slot is executing and has not completed: none where it stands at a boundary, and none where a
fault holds it (R168, log 67). -/
def Slot.executing (x : Slot) : Option Pc :=
  match x.status with
  | .barn _ _ true => some x.pc
  | .gbar _ => some x.pc
  | .vote _ _ _ => some x.pc
  | .regroup _ _ => some x.pc
  | .plane => some x.pc
  | .obj => some x.pc
  | .blocked _ => some x.pc
  | .ctxwait _ _ _ => some x.pc
  | .reply => some (replayed x)
  | .run => match x.replay with
    | .acc a _ => some a.pc
    | _ => none
  | _ => none
where
  replayed (x : Slot) : Pc := match x.replay with
    | .acc a _ => a.pc
    | _ => x.pc

/-- The same of a stream. -/
def Stream.executing (x : Stream) : Option Pc :=
  match x.status with
  | .barn _ _ true => some x.pc
  | .obj => some x.pc
  | .reply => some x.pc
  | _ => none

/-- Whether a patch must wait for a slot or stream that is executing an instruction that it covers (R168). -/
def State.patchWaits (s : State) (p : PatchRun) : Bool :=
  s.blocks.any fun e =>
    e.2.waves.any (fun w => [0, 1].any fun k => decide (p.who ≠ .slot e.1 w.1 k) && (match (w.2.slot k).executing with
      | some pc => p.covers e.2 pc
      | none => false))
      || e.2.streams.any fun x => match x.executing with
        | some pc => p.covers e.2 pc
        | none => false

/-- Whether an issuer's patch can be carried out: its turn has come, and all that it covers is parked. -/
def State.patchReady (s : State) (who : Issuer) : Bool :=
  match s.patchNow with
  | some p => decide (p.who = who) && !s.patchWaits p
  | none => true

/-- Serve a slot. -/
def State.prepareSlot (s : State) (bid wid k : Nat) : Prep :=
  match s.view bid wid k with
  | none => .act s
  | some v =>
    if s.stopped ∨ v.b.frozen ≠ .no ∨ v.w.halted ∨ !v.w.active ∨ v.sl.status ≠ .run then .act s
    else
      let s := { s with cur := .slot bid wid k }
      match v.sl.replay with
      | .acc a skid => .act (s.replayAcc bid wid k a skid)
      | .again => .act (s.modSlot bid wid k fun x => { x with noFold := true, replay := .none, pc := x.resume })
      | .none =>
        if !v.sl.held.isEmpty && !v.sl.flights.any Flight.isMem && !v.sl.unreplayed then .act (s.performHeld bid wid k)
        else if v.b.leaving then .act (if v.sl.flights.isEmpty then s else s.completeOldest bid wid k)
        else if s.patchParks (.slot bid wid k) v.b v.sl.pc then .act s
        else match v.sl.expand with
          | some (word, last) => { s with ir := ⟨word, wordBytes word, v.sl.pc, some last⟩ }.decoded word (wordBytes word) (some last)
          | none => s.fetchDecode v.sl.pc

/-- Whether an instruction may be executed on a predicted side: the .spec instructions (R35). -/
def isSpec : Instr → Bool
  | .mzero _ true _ => true
  | .mldz _ true _ _ _ _ => true
  | .mma _ true _ _ _ _ _ => true
  | .mscale _ true _ _ _ _ _ => true
  | _ => false

/-- Serve a stream (R31, R35). -/
def State.prepareStream (s : State) (bid : Nat) (e : Engine) (ix : Nat) : Prep :=
  match (s.blk bid).bind fun b => (b.stream e ix).map fun x => (b, x) with
  | none => .act s
  | some (b, x) =>
    if s.stopped ∨ b.frozen ≠ .no ∨ b.leaving ∨ x.exited ∨ x.status ≠ .run ∨ s.patchParks (.stream bid e ix) b x.pc then .act s
    else
      let s := ({ s with cur := .stream bid e ix }).modStream bid e ix fun x => { x with replay := .none }
      let p := match x.expand with
        | some (word, last) => { s with ir := ⟨word, wordBytes word, x.pc, some last⟩ }.decoded word (wordBytes word) (some last)
        | none => s.fetchDecode x.pc
      match p with
      | .act s => .act s
      | .run s i => if x.predicted.isSome ∧ !isSpec i then .act s else .run s i

/-- Serve an issuer. -/
def State.prepare (s : State) (who : Issuer) : Prep :=
  match who with
  | .slot b w k => s.prepareSlot b w k
  | .stream b e ix => s.prepareStream b e ix

/-- Whether the issuing slot took a trap or fault in this step. -/
def tookTrap (before after : Option View) : Bool :=
  match before, after with
  | some x, some y => (!x.sl.inHandler && y.sl.inHandler) || decide (y.sl.status = .stopped)
      || (match y.sl.status with
        | .parked _ _ => true
        | _ => false)
  | _, _ => false

/-- An instruction that traps or faults while older ones are in flight lets the oldest of them complete first: the slot
reports the oldest faulting instruction (R48, R49, R128). -/
def State.settle (s t : State) : State :=
  match s.cur with
  | .slot b w k =>
    match s.view b w k with
    | some v => if !v.sl.flights.isEmpty ∧ tookTrap (some v) (t.view b w k) then s.completeOldest b w k else t
    | none => t
  | .stream _ _ _ => t

/-- The same of what an issuer did in its step. -/
def State.settleFor (s : State) (who : Issuer) (t : State) : State := { s with cur := who }.settle t

/-- The slots of a wave that could issue. -/
def Wave.runnable (w : Wave) : Bool := !w.halted && (decide (w.s0.status = .run) || decide (w.s1.status = .run))

/-- The pending list of a partition (R37). -/
def Core.pend (c : Core) (p : Nat) : List Nat :=
  if p = 0 then c.pend0 else if p = 1 then c.pend1 else if p = 2 then c.pend2 else c.pend3
def Core.setPend (c : Core) (p : Nat) (l : List Nat) : Core :=
  if p = 0 then { c with pend0 := l } else if p = 1 then { c with pend1 := l }
  else if p = 2 then { c with pend2 := l } else { c with pend3 := l }

/-- A wave of a core in its lists: the block's bind slot and the wave. -/
def waveKey (bid wid : Nat) : Nat := bslotOf bid * 32 + wid

/-- Whether what a blocked slot waits for has come (R37). -/
def State.woken (s : State) (bid wid k : Nat) (w : Wake) : Bool :=
  match w with
  | .stream b e ix gen => match (s.blk b).bind fun x => x.streams.find? fun y => decide (y.eng = e) && decide (y.hix = ix) && decide (y.gen = gen) with
    | some _ => false
    | none => true
  | .post c ix gen => match tget (s.core c).posts ix with
    | some p => decide (p.gen ≠ gen) || decide (p.state ≠ 0)
    | none => true
  | .scratch a => match s.blk bid with
    | some b => !a.parts.any fun p => (b.fifoOf p.va).isNone && b.sbWaits p.va p.n (decide (a.kind ≠ .load))
    | none => true
  | .patch => s.patchReady (.slot bid wid k)
  | .acks => !s.writesOut (.slot bid wid k) || s.writesLate (.slot bid wid k)
  | .coll => match s.view bid wid (1 - k) with
    | some v => !v.sl.live
    | none => true

/-- A blocked slot that need not wait is eligible again. -/
def State.wakeSlot (s : State) (bid wid k : Nat) (x : Slot) : State :=
  match x.status with
  | .blocked w => if s.woken bid wid k w then s.modSlot bid wid k fun x => { x with status := .run } else s
  | _ => s

/-- One wave under the scheduler: its blocked slots are looked at; blocked, it leaves the active set; eligible outside it, it
joins its partition's list at the tail (R37). -/
def State.scheduleWave (s : State) (bid wid : Nat) : State :=
  let s := match s.view bid wid 0 with
    | some v => (s.wakeSlot bid wid 0 v.w.s0).wakeSlot bid wid 1 v.w.s1
    | none => s
  match s.view bid wid 0 with
  | none => s
  | some v =>
    if v.w.active then (if v.w.runnable ∧ v.b.frozen = .no then s else s.leaveActive bid wid)
    else if v.w.runnable ∧ v.b.frozen = .no ∧ !((s.core (coreOf bid)).pend v.w.part).contains (waveKey bid wid) then
      s.modCore (coreOf bid) fun c => c.setPend v.w.part (c.pend v.w.part ++ [waveKey bid wid])
    else s

/-- The scheduler over every wave (R37). -/
def State.schedule (s : State) : State :=
  s.blocks.foldl (fun s e => e.2.waves.foldl (fun s w => s.scheduleWave e.1 w.1) s) s

/-- Waves of a partition in the active set (R36). -/
def State.activeIn (s : State) (c p : Nat) : Nat :=
  s.blocks.foldl (fun n e => if coreOf e.1 = c then
    e.2.waves.foldl (fun n w => if w.2.active ∧ w.2.part = p then n + 1 else n) n else n) 0

end Sys2Proof.Machine
end

