-- ==== Sys2Proof/Machine/Sync.lean ====
section
/-! DEFINITION. Meeting points: the block barrier (R237, R308), numbered barriers (R238, R309, R310), groups with their
barrier phases and votes (R200 to R202, R239, R303 to R307), and the end of a wave (R155, R306, R308). -/

namespace Sys2Proof.Machine

/-- The live slots of a wave: those that must reach a point before the wave has (R45). -/
def Wave.liveSlots (w : Wave) : List Nat :=
  (if w.s0.live then [0] else []) ++ (if w.s1.live then [1] else [])

/-- The waves of a block that have not ended (R308). -/
def Block.liveWaves (b : Block) : List Nat := (b.waves.filter fun e => e.2.live).map fun e => e.1

/-- The block barrier closes when every wave that has not ended has arrived and some wave has (R308). -/
def State.checkBar (s : State) (bid : Nat) : State :=
  s.modBlk bid fun b =>
    if !b.closing && decide (b.barArr ≠ 0) && b.liveWaves.all (fun w => b.barArr.getLsbD w) then { b with closing := true } else b

/-- A wave arrives at the block barrier when each of its live slots has issued BAR (R45, R308, R310). -/
def State.tryBar (s : State) (bid wid : Nat) : State :=
  match s.view bid wid 0 with
  | none => s
  | some v =>
    if v.w.liveSlots.all fun k => v.w.barIssued.contains k then
      (s.modBlk bid fun b => { b with barArr := b.barArr ||| (1 <<< wid) }).checkBar bid
    else s

/-- Steps 1 to 4 of R237 (a block that drains is saved at this BAR, R47): commit, count the interval, restart the watchdog, resume every wave, take the snapshot. -/
def State.closeBar (s : State) (bid : Nat) : State :=
  let s := s.commit bid
  let s := s.modBlk bid fun b => { b with
    interval := b.interval + 1, wdStart := s.clock, wdMs := (s.ctx b.tag.slot).watchdogMs, barArr := 0, closing := false,
    preempt := if b.preempt = some .drain then some .save else b.preempt,
    waves := tmapv b.waves fun w => { w with
      barIssued := [],
      s0 := if w.s0.status = .bar then { w.s0 with status := .run } else w.s0,
      s1 := if w.s1.status = .bar then { w.s1 with status := .run } else w.s1 } }
  s.takeSnapshot bid

/-- An idle numbered barrier (R309). -/
def NBar.idle (p : Bool) : NBar :=
  { parity := p, warr := 0, sarr := [], count := 0, value := 0, dwave := none, held := [], rcv := [] }

def Block.nbar (b : Block) (n : Nat) : NBar := (tget b.nbars n).getD (NBar.idle false)
def Block.setNbar (b : Block) (n : Nat) (x : NBar) : Block := { b with nbars := tset b.nbars n x }

/-- Arrivals of the phase. -/
def NBar.arrivals (x : NBar) : Nat := popc32 x.warr + x.sarr.length

/-- Add or remove a pending scalar of an issuer (R218). -/
def State.setPending (s : State) (who : Issuer) (f : List SReg → List SReg) : State :=
  match who with
  | .slot b w k => s.modSlot b w k fun x => { x with pending := f x.pending }
  | .stream b e ix => s.modStream b e ix fun x => { x with pending := f x.pending }

/-- Fill a pending scalar of a snapshot that holds it pending (R343). -/
def Snapshot.fill (n : Snapshot) (who : Issuer) (d : SReg) (x : Word64) : Snapshot :=
  let out := fun (l : List SReg) => l.filter fun r => decide (r ≠ d)
  match who with
  | .slot _ w k => { n with waves := tmod n.waves w fun v =>
      if (v.slot k).pending.contains d then
        (v.setSlot k { v.slot k with pending := out (v.slot k).pending }).swrite k d x else v }
  | .stream _ e ix => { n with streams := n.streams.map fun y =>
      if y.eng = e ∧ y.ix = ix ∧ y.pending.contains d then
        { y with pending := out y.pending, sregs := if d = 0 then y.sregs else cset 0 y.sregs d.toNat x } else y }

/-- Fill a pending scalar in the running block alone: what a rollback undoes with the arrivals that gave it (R238, R317). -/
def State.fillHere (s : State) (who : Issuer) (d : SReg) (x : Word64) : State :=
  (s.swrite who d x).setPending who fun l => l.filter fun r => decide (r ≠ d)

/-- Fill a pending scalar (R218). -/
def State.fillPending (s : State) (who : Issuer) (d : SReg) (x : Word64) : State :=
  (s.fillHere who d x).modBlk who.block fun b => { b with snap := b.snap.map fun n => n.fill who d x }

/-- A slot that waited and now retires (R132). -/
def Slot.resumeRetired (x : Slot) : Slot := x.retired x.ir none x.ir.succ

/-- A slot that waits on phase `p` of barrier `n` when the phase is complete: it resumes where its wave arrived in the phase;
else its wave's arrival is still to come, and it waits for the next phase (R45, R238). -/
def Slot.phaseOver (x : Slot) (n : Nat) (p arrived : Bool) : Slot :=
  if x.status = .barn n p false then { x with status := if arrived then .run else .barn n (!p) false } else x

/-- Resume those that wait on phase `p` of barrier `n`, the waves among them that arrived (R238, R309). -/
def State.resumeBarn (s : State) (bid n : Nat) (p : Bool) (warr : Word32) : State :=
  s.modBlk bid fun b => { b with
    waves := b.waves.map fun e => (e.1, { e.2 with
      s0 := e.2.s0.phaseOver n p (warr.getLsbD e.1), s1 := e.2.s1.phaseOver n p (warr.getLsbD e.1) }),
    streams := b.streams.map fun x => if x.status = .barn n p false then { x with status := .run } else x }

/-- Complete the phase of a numbered barrier: waiters resume and RCV registers are filled (R238, R309). -/
def State.completePhase (s : State) (bid n : Nat) : State :=
  match s.blk bid with
  | none => s
  | some b =>
    let x := b.nbar n
    let s := x.rcv.foldl (fun s e => s.fillHere e.1 e.2 x.value) s
    let s := s.resumeBarn bid n x.parity x.warr
    s.modBlk bid fun b => b.setNbar n { NBar.idle (!x.parity) with held := x.held }

/-- Whether the phase is complete (R238). -/
def Block.phaseDone (b : Block) (n : Nat) : Bool :=
  decide ((b.nbar n).count ≠ 0) && decide ((b.nbar n).count ≤ (b.nbar n).arrivals)

/-- Record a wave's arrival at wN from what its slots gave (R238). -/
def State.recordWave (s : State) (bid wid n : Nat) : State :=
  match s.view bid wid 0 with
  | none => s
  | some v =>
    let iss := v.w.barn.filter fun i => decide (i.n = n)
    let cnt := ((iss.find? fun i => decide (i.count ≠ 0)).map fun i => i.count).getD 0
    let dlv := match iss.find? fun i => decide (i.slot = 0) && i.dlv.isSome with
      | some i => i.dlv
      | none => (iss.find? fun i => i.dlv.isSome).bind fun i => i.dlv
    let s := iss.foldl (fun s i => match i.rcv with
      | some d => s.modBlk bid fun b => b.setNbar n { b.nbar n with rcv := (b.nbar n).rcv ++ [(.slot bid wid i.slot, d)] }
      | none => s) s
    s.modBlk bid fun b =>
      let x := b.nbar n
      let x := { x with warr := x.warr ||| (1 <<< wid), count := if x.count = 0 then cnt else x.count }
      let x := match dlv with
        | some val => (match x.dwave with
          | some w => if wid < w then { x with value := val, dwave := some wid } else x
          | none => { x with value := val, dwave := some wid })
        | none => x
      (b.setNbar n x).modWave wid fun w => { w with barn := w.barn.filter fun i => decide (i.n ≠ n) }

/-- Record a stream's arrival at wN (R238). -/
def State.recordStream (s : State) (bid : Nat) (e : Engine) (ix : Nat) (i : BarnIssue) : State :=
  let s := s.modBlk bid fun b =>
    let x := b.nbar i.n
    b.setNbar i.n { x with sarr := x.sarr ++ [(e, ix)], count := if x.count = 0 then i.count else x.count,
                           rcv := x.rcv ++ (i.rcv.map fun d => (Issuer.stream bid e ix, d)).toList }
  s.modStream bid e ix fun x => { x with barn := none }

/-- The order in which held second arrivals are recorded: waves by number, then streams by stream bit (R309). -/
def heldKey : Issuer → Nat
  | .slot _ w _ => w
  | .stream _ e ix => 32 + 16 * e.code.toNat + ix

/-- Insert by key. -/
def insertHeld (x : Issuer) : List Issuer → List Issuer
  | [] => [x]
  | y :: t => if heldKey x ≤ heldKey y then x :: y :: t else y :: insertHeld x t

/-- Record one held second arrival in the next phase; a slot or stream that gave .arv goes on, the others wait. A COUNT
that differs from the phase's raises ILLEGAL in the arriver (R238, R309). -/
def State.recordHeld (s : State) (bid n : Nat) (who : Issuer) : State :=
  match s.blk bid with
  | none => s
  | some b =>
    let x := b.nbar n
    match who with
    | .slot _ wid _ =>
      match tget b.waves wid with
      | none => s
      | some w =>
        let iss := w.barn.filter fun i => decide (i.n = n)
        if iss.any fun i => decide (i.count ≠ 0) && decide (x.count ≠ 0) && decide (i.count ≠ x.count) then
          let s := s.modBlk bid fun b => b.modWave wid fun w => { w with barn := w.barn.filter fun i => decide (i.n ≠ n) }
          iss.foldl (fun s i => match s.view bid wid i.slot with
            | some v => (s.setPending (.slot bid wid i.slot) fun l => l.filter fun r => decide (some r ≠ i.rcv)).trapSlot bid wid
                i.slot cILLEGAL 0 v.sl.ir.pc v.sl.ir.pc
            | none => s) s
        else
          let s := iss.foldl (fun s i => s.modSlot bid wid i.slot fun z =>
            { z.resumeRetired with status := if i.arv then .run else .barn n x.parity false }) s
          s.recordWave bid wid n
    | .stream _ e ix =>
      match b.stream e ix with
      | none => s
      | some st => match st.barn with
        | none => s
        | some i =>
          if i.count ≠ 0 ∧ x.count ≠ 0 ∧ i.count ≠ x.count then
            s.stopStream bid e ix cILLEGAL st.ir.pc true
          else
            let s := s.modStream bid e ix fun z =>
              { z with status := if i.arv then .run else .barn n x.parity false, pc := z.ir.succ }
            s.recordStream bid e ix i

/-- A slot that issued its BARN as a second arrival while the other slot of its wave has not: the phase it stalled on is
over, so its issue counts in the phase that begins (R238). -/
def State.unhold (s : State) (bid n : Nat) (held : List Issuer) : State :=
  s.modBlk bid fun b =>
    let p := (b.nbar n).parity
    let one := fun (w : Wave) (k : Nat) =>
      if (w.slot k).status = .barn n (!p) true then
        match w.barn.find? fun i => decide (i.slot = k) && decide (i.n = n) with
        | some i => w.setSlot k { (w.slot k).resumeRetired with status := if i.arv then .run else .barn n p false }
        | none => w
      else w
    { b with waves := b.waves.map fun e =>
        if held.any fun h => (match h with
          | .slot _ w _ => decide (w = e.1)
          | .stream _ _ _ => false) then e else (e.1, one (one e.2 0) 1) }

/-- After an arrival: complete the phase, and then the held arrivals open the next, which may complete too (R309). -/
def State.checkPhase (s : State) (bid n : Nat) : State :=
  match s.blk bid with
  | none => s
  | some b =>
    if !b.phaseDone n then s
    else
      let s := s.completePhase bid n
      let held := (b.nbar n).held.foldl (fun l x => insertHeld x l) []
      let s := s.modBlk bid fun b => b.setNbar n { b.nbar n with held := [] }
      let s := s.unhold bid n held
      let s := held.foldl (fun s x => s.recordHeld bid n x) s
      match s.blk bid with
      | some b => if b.phaseDone n then s.completePhase bid n else s
      | none => s

/-- A wave that has issued BARN wN in each of its live slots arrives: at once, or held as a second arrival (R45, R238). -/
def State.tryBarn (s : State) (bid wid n : Nat) : State :=
  match s.view bid wid 0 with
  | none => s
  | some v =>
    if v.w.barn.any (fun i => decide (i.n = n)) ∧ v.w.liveSlots.all (fun k => v.w.barn.any fun i => decide (i.n = n) && decide (i.slot = k)) then
      if (v.b.nbar n).warr.getLsbD wid then
        s.modBlk bid fun b => b.setNbar n { b.nbar n with held := (b.nbar n).held ++ [.slot bid wid 0] }
      else (s.recordWave bid wid n).checkPhase bid n
    else s

/-- The bound block of a grid with this BLOCKID. -/
def State.findBlk (s : State) (grid blockId : Nat) : Option Nat :=
  (s.blocks.find? fun e => decide (e.2.grid = grid) && decide (e.2.blockId = blockId)).map fun e => e.1

/-- Change a saved block. -/
def State.onSaved (s : State) (grid blockId : Nat) (f : Block → Block) : State :=
  { s with saves := s.saves.map fun (x : Saved) => if x.grid = grid ∧ x.blockId = blockId then { x with blk := f x.blk } else x }

/-- Change a wave of a block, bound or saved (R306). -/
def State.onWave (s : State) (grid blockId wid : Nat) (f : Wave → Wave) : State :=
  match s.findBlk grid blockId with
  | some bid => s.modWave bid wid f
  | none => s.onSaved grid blockId fun b => b.modWave wid f

/-- Number of members of a group of a grid (R304). -/
def Grid.size (g : Grid) (x : Group) : Nat := if x.all then g.gx * g.gy * g.gz * g.kern.blockY else x.members.length

/-- The wave of a member index: BLOCKID and wave (R304). -/
def Grid.member (g : Grid) (x : Group) (i : Nat) : Nat × Nat :=
  if x.all then (i / g.kern.blockY, i % g.kern.blockY) else (x.members[i]?).getD (0, 0)

/-- The group that a wave is a member of, with its index; none when it is no member or the group is closed (R303). -/
def State.groupOf (s : State) (b : Block) (w : Wave) (n : Nat) : Option (Grid × Group × Nat) :=
  match tget s.grids b.grid, w.members.find? fun e => decide (e.1 = n) with
  | some g, some e => match tget g.groups n with
    | some x => if x.ended.contains e.2 then none else some (g, x, e.2)
    | none => none
  | _, _ => none

def State.modGroup (s : State) (grid n : Nat) (f : Group → Group) : State :=
  { s with grids := tmod s.grids grid fun g => { g with groups := tmod g.groups n f } }

/-- Whether a member index is named by the phase (R239, R303). -/
def Group.named (x : Group) (i : Nat) : Bool := !x.m || (decide (i < 32) && x.mask.getLsbD i)

/-- The first lane of a list of (lane, M, mask) entries that differs from what is expected. -/
def firstDiff (m : Bool) (mask : Word32) (l : List (Nat × Word32 × Word32)) : Option (Nat × Word32 × Word32) :=
  l.find? fun e => decide ((e.2.1 ≠ 0) ≠ (m = true)) || (m && decide (e.2.2 ≠ mask))

/-- Write the mismatch record of a group: a strong store, with the group's own count (R307). -/
def State.mismatch (s : State) (grid n : Nat) (g : Grid) (x : Group) (kind blockId wid lane : Nat) (expected found : Word32)
    (mem : Nat) : State :=
  if x.fault = 0 then s
  else
    ((s.modGroup grid n fun x => { x with mism := x.mism + 1 }).sysPut fwCore g.tag x.fault
      (toLE 8 (x.mism + 1) ++ toLE 4 blockId ++ toLE 1 wid ++ toLE 1 lane ++ toLE 1 kind ++ [0]
        ++ toLE 4 expected.toNat ++ toLE 4 found.toNat ++ toLE 4 mem ++ toLE 4 0)).1

/-- A trap of a slot of a saved block, at the instruction in which it waits: it is in its handler, or stopped, when the block is
restored (R48, R158, R303). -/
def Slot.savedTrap (x : Slot) (kern : Kernel) (k code aux : Nat) : Slot :=
  let x := { x with cause := causeWord code k true aux, faultPc := x.ir.pc, skid := 0 }
  if x.noHandler kern then x.stop x.ir.pc .none else x.handle kern x.ir.pc .none

/-- The slots of a wave that wait in one of these ways. -/
def Wave.waiting (w : Wave) (p : SlotStatus → Bool) : List Nat := [0, 1].filter fun k => p (w.slot k).status

/-- Trap the slots of a wave of a saved block that wait in one of these ways; a slot without a handler reports to the context's
policy, as a block of no core (R158, R303, log 44). -/
def State.trapSaved (s : State) (x : Saved) (wid code aux : Nat) (p : SlotStatus → Bool) : State :=
  match tget x.blk.waves wid with
  | none => s
  | some w =>
    let ks := w.waiting p
    let s := s.onWave x.grid x.blockId wid fun w =>
      ks.foldl (fun w k => w.setSlot k ((w.slot k).savedTrap x.blk.kern k code aux)) w
    match ks.find? fun k => (w.slot k).noHandler x.blk.kern with
    | none => s
    | some k =>
      if (s.ctx x.blk.tag.slot).rcd.policy = 1 ∧ x.blk.tag.slot ≠ 0 then s.killBegin x.blk.tag.slot
      else
        (s.onSaved x.grid x.blockId fun b => { b with frozen := .fault }).postEvent x.blk.tag { x.blk.event 0 3 code (w.slot k).ir.pc.toNat 0 with core := 0xFFFF }

/-- Trap every slot of a wave that waits in one of these ways, in a bound block or a saved one (R303, R306). -/
def State.trapWave (s : State) (grid blockId wid code aux : Nat) (p : SlotStatus → Bool) : State :=
  let s := s.onWave grid blockId wid fun w => { w with gslots := [] }
  match s.findBlk grid blockId with
  | some bid => [0, 1].foldl (fun (s : State) k => match s.view bid wid k with
      | some v => if p v.sl.status then s.trapSlot bid wid k code aux v.sl.ir.pc v.sl.ir.pc else s
      | none => s) s
  | none => match s.saves.find? fun y => decide (y.grid = grid) && decide (y.blockId = blockId) with
    | some y => s.trapSaved y wid code aux p
    | none => s

/-- Whether a slot waits in a GBAR of this group. -/
def inGbar (n : Nat) (x : SlotStatus) : Bool := decide (x = .gbar n)

/-- Resume a wave from its GBAR: its slots retire, after the acquire side at the scope each gave (R239). -/
def State.resumeGbar (s : State) (grid blockId wid n : Nat) : State :=
  let s := match s.findBlk grid blockId with
    | some bid => match s.view bid wid 0 with
      | some v => v.w.gslots.foldl (fun (s : State) (i : GIssue) => s.acquireSide (coreOf bid) i.scope) s
      | none => s
    | none => s
  s.onWave grid blockId wid fun w => { w with
    gslots := [],
    s0 := if inGbar n w.s0.status then w.s0.resumeRetired else w.s0,
    s1 := if inGbar n w.s1.status then w.s1.resumeRetired else w.s1 }

/-- Complete a GBAR phase when every named member that has not ended has arrived (R303). -/
def State.checkGbar (s : State) (grid n : Nat) : State :=
  match tget s.grids grid with
  | none => s
  | some g => match tget g.groups n with
    | none => s
    | some x =>
      if x.gathering && (List.range (g.size x)).all (fun i => !x.named i || x.ended.contains i || x.arrived.contains i) then
        let s := s.modGroup grid n fun x => { x with gathering := false, arrived := [] }
        x.arrived.foldl (fun s i => let m := g.member x i; s.resumeGbar grid m.1 m.2 n) s
      else s

/-- One wave's GBAR reaches the group's home (R239, R303, R307). The lanes carry M and mask. -/
def State.arriveGbar (s : State) (grid n i : Nat) (lanes : List (Nat × Word32 × Word32)) : State :=
  match tget s.grids grid with
  | none => s
  | some g => match tget g.groups n with
    | none => s
    | some x =>
      let mem := g.member x i
      let m := decide ((lanes.headD (0, 0, 0)).2.1 ≠ 0)
      let mask := (lanes.headD (0, 0, 0)).2.2
      if m ∧ (32 ≤ i ∨ !mask.getLsbD i) then s.trapWave grid mem.1 mem.2 cILLEGAL 0 (inGbar n)
      else if x.gathering ∧ (!x.named i ∨ x.arrived.contains i) then
        s.modGroup grid n fun x => { x with held := x.held ++ [i] }
      else
        let em := if x.gathering then x.m else m
        let ek := if x.gathering then x.mask else mask
        match firstDiff em ek lanes with
        | some (lane, fm, fk) =>
          let s := s.mismatch grid n g x 2 mem.1 mem.2 lane ek (if fm = 0 then 0xFFFFFFFF else fk) i
          let s := s.modGroup grid n fun x => { x with gathering := false, arrived := [] }
          (x.arrived ++ [i]).foldl (fun s j => let q := g.member x j
            s.trapWave grid q.1 q.2 cMASKMISMATCH lane (inGbar n)) s
        | none =>
          (s.modGroup grid n fun x => { x with gathering := true, m := em, mask := ek, arrived := x.arrived ++ [i] }).checkGbar grid n

/-- What a waiting wave gave at its GBAR: M and mask by lane, lanes ascending (R239). -/
def gbarLanes (l : List GIssue) : List (Nat × Word32 × Word32) :=
  (List.range 32).filterMap fun n =>
    (l.findSome? fun i => i.lanes.find? fun e => decide (e.1 = n))

/-- The waiting issues of a member. -/
def State.memberIssues (s : State) (g : Grid) (grid : Nat) (x : Group) (i : Nat) : List GIssue :=
  let m := g.member x i
  match s.findBlk grid m.1 with
  | some bid => match s.view bid m.2 0 with
    | some v => v.w.gslots
    | none => []
  | none => match s.saves.find? fun y => decide (y.grid = grid) && decide (y.blockId = m.1) with
    | some y => match tget y.blk.waves m.2 with
      | some w => w.gslots
      | none => []
    | none => []

/-- Arrivals that were held join the next phase, the one that came first opening it; each that the phase names joins it (R303).
None is held again, so that as many rounds as there are held arrivals serve all that can go on. -/
def State.drainHeld (s : State) (grid n : Nat) : Nat → State
  | 0 => s
  | fuel + 1 =>
    match (tget s.grids grid).bind fun g => (tget g.groups n).map fun x => (g, x) with
    | none => s
    | some (g, x) => match x.held.find? fun i => !x.gathering || (x.named i && !x.arrived.contains i) with
      | none => s
      | some i =>
        let s := s.modGroup grid n fun x => { x with held := x.held.filter fun j => decide (j ≠ i) }
        (s.arriveGbar grid n i (gbarLanes (s.memberIssues g grid x i))).drainHeld grid n fuel

/-- After a phase may have ended: the held arrivals that can go on do. -/
def State.afterGbar (s : State) (grid n : Nat) : State :=
  match (tget s.grids grid).bind fun g => tget g.groups n with
  | none => s
  | some x => s.drainHeld grid n x.held.length

/-- The identity of a vote (R200). -/
def voteId (op : RedOp) (t : Ty) : Int :=
  match op with
  | .add => 0
  | .min => hiOf t
  | .max => loOf t
  | .and => 0xFFFFFFFF
  | .or => 0

/-- One step of a vote (R200); .add wraps. -/
def voteStep (op : RedOp) (t : Ty) (r : Int) (x : Word32) : Int :=
  match op with
  | .add => wrapTo t (r + intOf t x.toNat)
  | .min => min r (intOf t x.toNat)
  | .max => max r (intOf t x.toNat)
  | .and => ((Nat.land r.toNat x.toNat : Nat) : Int)
  | .or => ((Nat.lor r.toNat x.toNat : Nat) : Int)

/-- The result of a vote over the participating lanes in order, each with its index: under M only lanes of the common mask
count (R200). -/
def voteResult (op : RedOp) (t : Ty) (m : Bool) (mask : Word32) (p : List (Nat × Word32 × Word32)) : Int :=
  p.foldl (fun r e => if !m || mask.getLsbD e.1 then voteStep op t r e.2.1 else r) (voteId op t)

/-- Deliver a vote to the waiting slots of a wave: sD extended by its own TYPE (R200). -/
def Wave.voteDone (w : Wave) (n : Nat) (r : Int) : Wave :=
  let one := fun (w : Wave) (k : Nat) =>
    match (w.slot k).status with
    | .vote g d sgn =>
      if g = n then
        let x : Word64 := if sgn then BitVec.ofInt 64 r else BitVec.ofInt 64 (r % 4294967296)
        let w := w.setSlot k { (w.slot k).resumeRetired with status := .run }
        w.swrite k d x
      else w
    | _ => w
  { one (one w 0) 1 with gslots := [] }

/-- Whether a slot waits in a VOTE of this group. -/
def inVote (n : Nat) : SlotStatus → Bool
  | .vote g _ _ => decide (g = n)
  | _ => false

/-- The participating lanes of one wave's issues: lane, value, mask, with the M each was given under. -/
def voteLanes (l : List GIssue) : List (Nat × Word32 × Word32 × Bool) :=
  (List.range 32).filterMap fun n =>
    l.findSome? fun i => (i.lanes.find? fun e => decide (e.1 = n)).map fun e => (e.1, e.2.1, e.2.2, i.m)

/-- Complete a vote of the issuing wave alone (R200, R201). -/
def State.finishSoloVote (s : State) (bid wid : Nat) (l : List GIssue) : State :=
  match s.blk bid, l with
  | some b, i :: _ =>
    let p := voteLanes l
    let first := p.headD (0, 0, 0, i.m)
    let m := if p.isEmpty then i.m else first.2.2.2
    match p.find? fun e => decide (e.2.2.2 ≠ m) || (m && decide (e.2.2.1 ≠ first.2.2.1)) with
    | some e => s.trapWave b.grid b.blockId wid cMASKMISMATCH e.1 (inVote 256)
    | none =>
      let r := voteResult i.op i.ty m first.2.2.1 (p.map fun e => (e.1, e.2.1, e.2.2.1))
      s.modWave bid wid fun w => w.voteDone 256 r
  | _, _ => s

/-- The contributions of a vote in member order. -/
def sortVote (l : List (Nat × List GIssue)) : List (Nat × List GIssue) :=
  l.foldl (fun t e => tset t e.1 e.2) []

/-- Complete a group's vote when every member that has not ended has contributed (R200, R201, R303). -/
def State.checkVote (s : State) (grid n : Nat) : State :=
  match tget s.grids grid with
  | none => s
  | some g => match tget g.groups n with
    | none => s
    | some x =>
      if !x.vote.isEmpty && (List.range (g.size x)).all (fun i => x.ended.contains i || x.vote.any fun e => decide (e.1 = i)) then
        let vs := sortVote x.vote
        let s := s.modGroup grid n fun x => { x with vote := [] }
        let p := vs.flatMap fun e => (voteLanes e.2).map fun q => (e.1, q)
        match (vs.headD (0, [])).2 with
        | [] => s
        | i :: _ =>
          let f := (p.headD (0, (0, 0, 0, i.m))).2
          let m := f.2.2.2
          match p.find? fun e => decide (e.2.2.2.2 ≠ m) || (m && decide (e.2.2.2.1 ≠ f.2.2.1)) with
          | some e =>
            let q := g.member x e.1
            let s := s.mismatch grid n g x 1 q.1 q.2 e.2.1 f.2.2.1 (if e.2.2.2.2 then e.2.2.2.1 else 0xFFFFFFFF) e.1
            vs.foldl (fun s v => let q := g.member x v.1
              s.trapWave grid q.1 q.2 cMASKMISMATCH e.2.1 (inVote n)) s
          | none =>
            let r := voteResult i.op i.ty m f.2.2.1 (p.map fun e => (e.2.1, e.2.2.1, e.2.2.2.1))
            vs.foldl (fun s v => let q := g.member x v.1; s.onWave grid q.1 q.2 fun w => w.voteDone n r) s
      else s

/-- A member ends: it leaves the current and every later phase and vote (R303, R306). -/
def State.endMember (s : State) (grid n i : Nat) : State :=
  let s := s.modGroup grid n fun x => { x with
    ended := x.ended ++ [i], arrived := x.arrived.filter fun j => decide (j ≠ i), held := x.held.filter fun j => decide (j ≠ i),
    vote := x.vote.filter fun e => decide (e.1 ≠ i), regroup := x.regroup.filter fun j => decide (j ≠ i) }
  ((s.checkGbar grid n).checkVote grid n).afterGbar grid n

/-- The end of a wave (R155, R306, R308): it stops issuing, leaves the block barrier and its groups. -/
def State.endWave (s : State) (bid wid : Nat) : State :=
  match s.view bid wid 0 with
  | none => s
  | some v =>
    let s := s.modWave bid wid fun w => { w with
      live := false, split := false, active := false, s0 := { w.s0 with status := .off }, s1 := { w.s1 with status := .off } }
    let s := s.modBlk bid fun b => { b with barArr := b.barArr &&& ~~~ ((1 : Word32) <<< wid) }
    let s := s.checkBar bid
    v.w.members.foldl (fun s e => s.endMember v.b.grid e.1 e.2) s

/-- Whether a slot waits in a REGROUP of this group. -/
def inRegroup (n : Nat) : SlotStatus → Bool
  | .regroup g _ => decide (g = n)
  | _ => false

/-- The register that a slot's REGROUP writes. -/
def regroupDst : SlotStatus → SReg
  | .regroup _ d => d
  | _ => 0

/-- Resume a wave from its REGROUP with this sD, and this k0 if it was written (R132, R202). -/
def State.regroupDone (s : State) (bid wid : Nat) (x : Word64) (k0 : Option Word32) : State :=
  s.modWave bid wid fun w =>
    let d := regroupDst w.s0.status
    { w with s0 := w.s0.retired w.s0.ir k0 w.s0.ir.succ, gslots := [] }.swrite 0 d x

/-- Move donor lanes into survivor lanes: the window's registers and k1 to k15 (R202). -/
def State.regroupMove (s : State) (bid sw dw : Nat) (pairs : List (Nat × Nat)) : State :=
  match s.view bid sw 0, s.view bid dw 0 with
  | some a, some b =>
    let s := (List.range a.w.win).foldl (fun (s : State) n =>
      let x := s.vread bid a.w n
      let y := s.vread bid b.w n
      s.vwrite bid sw n (pairs.foldl (fun x e => setLane x e.2 (lane y e.1)) x)) s
    s.modWave bid sw fun w => { w with kregs := (List.range 15).foldl (fun t i =>
      let x := cget 0 t (i + 1)
      let y := cget 0 b.w.kregs (i + 1)
      cset 0 t (i + 1) (pairs.foldl (fun (x : Word32) e =>
        if y.getLsbD e.1 then x ||| (1 <<< e.2) else x &&& ~~~ ((1 : Word32) <<< e.2)) x)) w.kregs }
  | _, _ => s

/-- Whether a wave may not regroup (R202). -/
def Wave.noRegroup (w : Wave) : Bool :=
  w.split || decide (w.dstack.length + w.dmem ≠ 0) || decide (w.openCalls ≠ 0)

/-- Both waves of a REGROUP have issued it (R202): the lower wave survives. It reads every register of both windows (R342). -/
def State.regroupMatch (s : State) (bid grid n w1 w2 : Nat) : State :=
  let sw := min w1 w2
  let dw := max w1 w2
  match s.view bid sw 0, s.view bid dw 0 with
  | some a, some b =>
    if a.w.noRegroup ∨ b.w.noRegroup ∨ a.w.win ≠ b.w.win then
      (s.trapWave grid a.b.blockId sw cILLEGAL 0 (inRegroup n)).trapWave grid a.b.blockId dw cILLEGAL 0 (inRegroup n)
    else
      let dm := b.sl.k0
      let f := a.b.present &&& ~~~ a.sl.k0
      if popc32 f < popc32 dm then (s.regroupDone bid sw 0 none).regroupDone bid dw 0 none
      else
        let bitsOn := fun (m : Word32) => (List.range 32).filter fun l => m.getLsbD l
        let pairs := (bitsOn dm).zip (bitsOn f)
        let p : Word32 := pairs.foldl (fun m e => m ||| (1 <<< e.2)) 0
        match (s.readRegs a (List.range a.w.win)).toOption.bind fun s => (s.readRegs b (List.range b.w.win)).toOption with
        | none => match s.readRegs a (List.range a.w.win), s.readRegs b (List.range b.w.win) with
          | .error p, _ => s.uceRegOf a p
          | _, .error p => s.uceRegOf b p
          | _, _ => s
        | some s =>
        let s := s.regroupMove bid sw dw pairs
        let s := s.regroupDone bid sw (BitVec.ofNat 64 (2 ^ 63 + dw * 2 ^ 32 + p.toNat)) (some (a.sl.k0 ||| p))
        (s.modWave bid dw fun w => { w with gslots := [] }).endWave bid dw
  | _, _ => s

/-- The members of a group that have not ended. -/
def Grid.alive (g : Grid) (x : Group) : List Nat := (List.range (g.size x)).filter fun i => !x.ended.contains i

/-- A wave whose live slots have all issued one group instruction contributes (R45, R200, R202, R239). -/
def State.tryGroup (s : State) (bid wid : Nat) : State :=
  match s.view bid wid 0 with
  | none => s
  | some v =>
    match v.w.gslots with
    | [] => s
    | i :: _ =>
      if !(v.w.liveSlots.all fun k => v.w.gslots.any fun j => decide (j.slot = k) && decide (j.kind = i.kind) && decide (j.g = i.g)) then s
      else if i.kind = 1 ∧ i.g = 256 then s.finishSoloVote bid wid v.w.gslots
      else match s.groupOf v.b v.w i.g with
        | none => s
        | some (g, x, ix) => match i.kind with
          | 0 => (s.arriveGbar v.b.grid i.g ix (gbarLanes v.w.gslots)).afterGbar v.b.grid i.g
          | 1 => (s.modGroup v.b.grid i.g fun x => { x with vote := x.vote ++ [(ix, v.w.gslots)] }).checkVote v.b.grid i.g
          | _ =>
            match (g.alive x).filter fun j => decide (j ≠ ix) && x.regroup.contains j with
            | j :: _ => (s.modGroup v.b.grid i.g fun x => { x with regroup := [] }).regroupMatch bid v.b.grid i.g wid (g.member x j).2
            | [] => s.modGroup v.b.grid i.g fun x => { x with regroup := x.regroup ++ [ix] }

/-- A slot issues a group instruction and waits (R37, R45). -/
def State.joinGroup (s : State) (v : View) (st : SlotStatus) (i : GIssue) : State :=
  (s.modWave v.bid v.wid fun w =>
    { (w.setSlot v.k { w.slot v.k with status := st, ir := s.ir }) with gslots := w.gslots ++ [i] }).tryGroup v.bid v.wid

end Sys2Proof.Machine
end

