-- ==== Sys2Proof/Machine/Control.lean ====
section
/-! DEFINITION. Majors 0x00 to 0x03 without the system registers: NOP, dictionary words, branches, calls and windows,
divergence, traps and halts (R23 to R26, R38 to R40, R129, R130, R148 to R160). -/

namespace Sys2Proof.Machine

/-- A terminator transfers to `npc`, where the run begins with this signature; a SIG that fails raises SIGFAULT instead
(R131 to R133). -/
def State.goTo (s : State) (t : Term) (npc : Pc) (sig : BitVec 32) : State :=
  if s.sigBad t then s.sigFault else s.endRun npc sig

/-- NOP (R157): the signature fold, and in its 128-bit form the check of SIG. -/
def execNop (form : NopForm) (s : State) : Out :=
  match form with
  | .w128 sig => s.onAny (.next (s.goTo (some sig) s.ir.succ 0))
  | _ => s.onAny (.next s.retire)

/-- Whether a dictionary entry may be expanded: no dictionary word, no word of majors 0x01, 0x02, 0x25 to 0x27, no TRAP,
TRAPRET or HALT, and no 128-bit NOP (R130). -/
def dictAllowed (f : Fields) : Bool :=
  let m := f.major.toNat
  decide (f.len ≠ 3) && decide (m ≠ 1) && decide (m ≠ 2) && !(decide (0x25 ≤ m) && decide (m ≤ 0x27))
    && !(decide (m = 3) && decide (f.minor.toNat ≤ 2)) && !(decide (m = 0) && decide (f.len = 2))

/-- Whether field B of an opcode is read as a number of any kind (R130): CALL's W/8, TRAP, KGET, VMOVS, PACK and UNPACK,
VOTE with a group, REGROUP, BARN, GBAR, BOARR and CPYQ. -/
def bIsNumber (f : Fields) : Bool :=
  let m := f.major.toNat
  let n := f.minor.toNat
  (decide (m = 4) && decide (n = 9)) || (decide (m = 0xA) && decide (n = 4)) || (decide (m = 0x10) && (decide (n = 1) || decide (n = 2)))
    || (decide (m = 0x14) && ((decide (n = 0) && f.mod.getLsbD 3) || decide (n = 1)))
    || (decide (m = 0x20) && (decide (n = 1) || decide (n = 2) || decide (n = 4))) || (decide (m = 0x1F) && decide (n = 3))

/-- Whether a 96-bit or 128-bit word has IMM32 or IMM64 (R122): every other 96-bit form has source C in its place, and of
the 128-bit forms only SLI and MSCALE hold IMM64. -/
def hasImm (f : Fields) : Bool :=
  let m := f.major.toNat
  let n := f.minor.toNat
  if f.len = 1 then
    !((decide (m = 5) && (decide (n = 4) || decide (n = 0x10))) || (decide (m = 8) && (decide (n = 4) || decide (n = 0xC)))
      || (decide (m = 0xA) && decide (n = 0)) || (decide (m = 0xC) && decide (n = 3)) || decide (m = 0x18))
  else if f.len = 2 then decide (m = 7) || (decide (m = 0x1B) && decide (n = 1))
  else false

/-- Replace the low 6 bits of the entry's immediate by PATCH; none when PATCH is non-zero and there is none (R130). -/
def patchEntry (w : InstrWord) (p : BitVec 6) : Option InstrWord :=
  let f := Fields.ofWord w
  if hasImm f then some { f with x := (f.x &&& ~~~ 0x3F) ||| p.setWidth 64 }.toWord
  else if bIsNumber f then some { f with b := (f.b &&& 0xC0) ||| p.setWidth 8 }.toWord
  else if p = 0 then some w else none

/-- Make the expanded code the next that the issuer issues. -/
def State.setExpand (s : State) (x : InstrWord × Bool) : State :=
  match s.cur with
  | .slot b w k => s.modSlot b w k fun z => { z with expand := some x }
  | .stream b e ix => s.modStream b e ix fun z => { z with expand := some x }

/-- The PC of the code at hand, with index i (R120). -/
def codePc (pc : Pc) (i : Nat) : Pc := pc - BitVec.ofNat 57 (pc.toNat % 4) + BitVec.ofNat 57 i

/-- DICTIONARY_WORD (R129, R130): the checks of the whole word before its first code; then the code at the PC's index is
read from the dictionary, patched, and becomes what the issuer issues next. It folds nothing. -/
def execDictionaryWord (count : BitVec 2) (rsv : BitVec 12) (c0 c1 c2 : BitVec 16) (s : State) : Out :=
  s.onAny (
    let i := s.ir.pc.toNat % 4
    let code := if i = 0 then c0 else if i = 1 then c1 else c2
    let bad := decide (count = 0) || decide (rsv ≠ 0) || (decide (count.toNat < 2) && decide (c1 ≠ 0))
      || (decide (count.toNat < 3) && decide (c2 ≠ 0))
    if bad ∧ i = 0 then .next (s.trap cILLEGAL)
    else match s.kernOf s.cur.block with
      | none => .next s
      | some kern =>
        let ix := (code.extractLsb' 0 10).toNat
        if count.toNat ≤ i ∨ kern.ndict ≤ ix then .next (s.trap cILLEGAL)
        else match s.fetchBlock (kern.dict + 16 * ix) ⟨true, false, false⟩ with
          | .act s => .next s
          | .block s b =>
            let w : InstrWord := b.extractLsb' (8 * ((kern.dict + 16 * ix) % 32)) 128
            if !dictAllowed (Fields.ofWord w) then .next (s.trap cILLEGAL)
            else match patchEntry w (code.extractLsb' 10 6) with
              | none => .next (s.trap cILLEGAL)
              | some w => .next (s.setExpand (w &&& BitVec.ofNat 128 (2 ^ (8 * wordBytes w) - 1), decide (i + 1 = count.toNat))))

/-- BRA (R148). -/
def execBra (off : BitVec 32) (_pr : Bool) (t : Term) (s : State) : Out :=
  s.onAny (.next (s.goTo t (s.ir.target off) 0))

/-- BRU (R148); on the matrix stream a branch on an undelivered scalar follows its prediction (R35). -/
def execBru (cond : Cond) (sgn : Bool) (a b : SReg) (off : BitVec 32) (pr : Bool) (t : Term) (s : State) : Out :=
  s.onAny (
    let take := s.ir.target off
    let fall := s.ir.succ
    match s.cur with
    | .stream bid .mat ix =>
      if s.pendingRegs.contains a ∨ s.pendingRegs.contains b then
        .next ((s.endRun (if pr then take else fall) 0).modStream bid .mat ix fun x =>
          { x with predicted := some ⟨false, cond, sgn, a, b, pr, take, fall⟩ })
      else .next (s.goTo t (if condScalar cond sgn (s.sread s.cur a) (s.sread s.cur b) then take else fall) 0)
    | _ => .next (s.goTo t (if condScalar cond sgn (s.sread s.cur a) (s.sread s.cur b) then take else fall) 0))

/-- SPEC_RESOLVE (R35): once the scalars of a predicted branch are delivered, a correct prediction goes on, a wrong one
restarts at the other target. -/
def execSpecResolve (block : Nat) (s : State) : Out :=
  match (s.blk block).bind fun b => b.streams.find? fun x => decide (x.eng = .mat) && x.predicted.isSome with
  | none => .next s
  | some x => match x.predicted with
    | none => .next s
    | some p =>
      if x.pending.contains p.a ∨ x.pending.contains p.b then .next s
      else
        let who : Issuer := .stream block .mat x.ix
        let s := if p.dec then s.swrite who p.a (s.sread who p.a - 1) else s
        let taken := condScalar p.cond p.sgn (s.sread who p.a) (s.sread who p.b)
        .next (s.modStream block .mat x.ix fun y =>
          if taken = p.taken then { y with predicted := none }
          else { y with predicted := none, pc := if taken then p.takenPc else p.fallPc, expand := none })

/-- BRZ (R148): all 32 bits of the mask. -/
def execBrz (nz : Bool) (k : KNum) (off : BitVec 32) (_pr : Bool) (t : Term) (s : State) : Out :=
  s.onSlot fun v =>
    let taken := if nz then decide (kread v k ≠ 0) else decide (kread v k = 0)
    .next (s.goTo t (if taken then s.ir.target off else s.ir.succ) 0)

/-- LOOP (R148): sD is written, then tested; on the matrix stream, with sD undelivered, it follows its prediction (R35). -/
def execLoop (d : SReg) (off : BitVec 32) (pr : Bool) (t : Term) (s : State) : Out :=
  s.onAny (
    let take := s.ir.target off
    let fall := s.ir.succ
    if s.scalarOver d then .next (s.trap cILLEGAL)
    else if s.sigBad t then .next s.sigFault
    else if predicts s.cur (.loop d off pr t) ∧ s.pendingRegs.contains d then
      .next (match s.cur with
        | .stream bid e ix => (s.endRun (if pr then take else fall) 0).modStream bid e ix fun x =>
            { x with predicted := some ⟨true, .ne, false, d, 0, pr, take, fall⟩ }
        | .slot _ _ _ => s)
    else
      let x := s.sread s.cur d - 1
      .next ((s.swrite s.cur d x).endRun (if x ≠ 0 then take else fall) 0))

/-- The spill record of registers (R39): count, zeros, format bytes, payloads, padding. -/
def spillFormat (x : VReg) : Nat :=
  let b := lane x 0
  let ds := (List.range 32).map fun l => (lane x l - b).toInt
  if ds.all fun d => decide (d = 0) then 3
  else if ds.all fun d => decide (-128 ≤ d) && decide (d ≤ 127) then 1
  else if ds.all fun d => decide (-32768 ≤ d) && decide (d ≤ 32767) then 2
  else 0

/-- The payload of a register in its format (R39). -/
def spillPayload (x : VReg) : List Byte :=
  let b := lane x 0
  match spillFormat x with
  | 3 => toLE 4 b.toNat
  | 1 => toLE 4 b.toNat ++ (List.range 32).flatMap fun l => toLE 1 ((lane x l - b).toNat % 256)
  | 2 => toLE 4 b.toNat ++ (List.range 32).flatMap fun l => toLE 2 ((lane x l - b).toNat % 65536)
  | _ => (List.range 32).flatMap fun l => toLE 4 (lane x l).toNat

/-- Zeros up to a multiple of n. -/
def padTo (n : Nat) (l : List Byte) : List Byte := l ++ List.replicate ((n - l.length % n) % n) 0

/-- A spill record (R39). -/
def spillRecord (r : List VReg) : List Byte :=
  padTo 16 (toLE 1 (r.length / 8) ++ List.replicate 7 0 ++ padTo 4 (r.map fun x => BitVec.ofNat 8 (spillFormat x))
    ++ r.flatMap spillPayload)

/-- Read payloads back in register order (R39). -/
def unspill : List Byte → List Byte → List VReg
  | [], _ => []
  | f :: fs, d =>
    let b : Word32 := BitVec.ofNat 32 (fld d 0 4)
    match f.toNat with
    | 3 => (ofLanes fun _ => b) :: unspill fs (d.drop 4)
    | 1 => (ofLanes fun l => b + ((BitVec.ofNat 8 (fld d (4 + l) 1)).signExtend 32)) :: unspill fs (d.drop 36)
    | 2 => (ofLanes fun l => b + ((BitVec.ofNat 16 (fld d (4 + 2 * l) 2)).signExtend 32)) :: unspill fs (d.drop 68)
    | _ => (ofLanes fun l => BitVec.ofNat 32 (fld d (4 * l) 4)) :: unspill fs (d.drop 128)

/-- What a piecewise access of the issuer's block to memory gave. -/
inductive MemRes where
  | ok (s : State) (d : List Byte)
  | fault (s : State) (code va : Nat)
  | uce (s : State)
  | wait (s : State)
  | stall

/-- The key of a sector among the answers of an issuer. -/
def sectorKey (va : Nat) : Nat := 2000 + va / 64

/-- Whether an access to this address waits for a change of the ways that the column window shows (R99). -/
def State.windowShut (s : State) (bid va : Nat) : Bool := (s.core (coreOf bid)).colChange.isSome && inWindow va

/-- Read bytes of one sector as a weak load of a block, or as a strong one; `peer` reads peer memory (R25, R40, R251). -/
def State.pieceRead (s : State) (bid va n : Nat) (strong : Bool) (peer : State → Nat → Nat → MemRes) : MemRes :=
  if s.windowShut bid va then .stall
  else match s.locate bid va ⟨true, false, false⟩ with
  | (s, .error c) => if c = 0 then .stall else if c = cUCE then .uce s else .fault s c va
  | (s, .ok (.dram pa cell)) =>
    let s := s.vaultRead cell n
    if s.parks pa cell then .stall
    else if s.poisonedFor (coreOf bid) (some bid) strong cell n then .uce s
    else let r := s.readPart bid strong (.dram pa cell) n; .ok r.1 r.2
  | (s, .ok (.peer node pa)) => peer s node pa
  | (s, .ok l) =>
    if (match l with
      | .column off => sectorsBad (s.core (coreOf bid)).columnBad off n
      | _ => false) then .uce s
    else let r := s.readPart bid strong l n; .ok r.1 r.2

/-- Write bytes of one sector as a weak store of a block; `peer` writes peer memory. -/
def State.pieceWrite (s : State) (bid va : Nat) (d : List Byte) (peer : State → Nat → Nat → State) : MemRes :=
  if s.windowShut bid va then .stall
  else match s.locate bid va ⟨false, true, false⟩ with
  | (s, .error c) => if c = 0 then .stall else if c = cUCE then .uce s else .fault s c va
  | (s, .ok (.dram pa cell)) =>
    if s.parks pa cell then .stall
    else if s.unitFallow .vault (vaultOf cell) then .uce s
    else .ok (s.writePart bid false (.dram pa cell) d []) []
  | (s, .ok (.peer node pa)) => .ok (peer s node pa) []
  | (s, .ok l) => .ok (s.writePart bid false l d []) []

/-- Read a range, sector by sector. -/
def getPieces (rd : State → Nat → Nat → MemRes) : Nat → State → Nat → Nat → List Byte → MemRes
  | 0, s, _, _, acc => .ok s acc
  | fuel + 1, s, va, n, acc =>
    if n = 0 then .ok s acc
    else
      let m := min n (64 - va % 64)
      match rd s va m with
      | .ok s d => getPieces rd fuel s (va + m) (n - m) (acc ++ d)
      | r => r

/-- Write a range, sector by sector. -/
def putPieces (wr : State → Nat → List Byte → MemRes) : Nat → State → Nat → List Byte → MemRes
  | 0, s, _, _ => .ok s []
  | fuel + 1, s, va, d =>
    if d.isEmpty then .ok s []
    else
      let m := min d.length (64 - va % 64)
      match wr s va (d.take m) with
      | .ok s _ => putPieces wr fuel s (va + m) (d.drop m)
      | r => r

/-- Read bytes of one sector for the issuer: of a peer, a request leaves and the issuer waits for its answer. -/
def State.readPiece (s : State) (va n : Nat) (strong : Bool) : MemRes :=
  s.pieceRead s.cur.block va n strong fun s node pa =>
    match tget (s.answersOf s.cur) (sectorKey va) with
    | some x => .ok s ((toLE 64 x).drop (va % 64) |>.take n)
    | none =>
      let q := s.askPeer s.cur none (s.tagOf s.cur) node (pa / 64 * 64) 64 .load .b32 0 0 (sectorKey va) []
      .wait (q.1.setAsks s.cur [(q.2, sectorKey va)] (s.answersOf s.cur))
/-- Read `n` bytes for the issuer. -/
def State.memGet (s : State) (va n : Nat) (strong : Bool := false) : MemRes :=
  getPieces (fun s va n => s.readPiece va n strong) (n / 64 + 2) s va n []

/-- Write bytes of one sector for the issuer. -/
def State.writePiece (s : State) (va : Nat) (d : List Byte) : MemRes :=
  s.pieceWrite s.cur.block va d fun s node pa =>
    ((s.openInterval s.cur.block).askPeer s.cur none (s.tagOf s.cur) node pa d.length .store .b32 0 0 0 d).1
/-- Write bytes for the issuer. -/
def State.memPut (s : State) (va : Nat) (d : List Byte) : MemRes :=
  putPieces (fun s va d => s.writePiece va d) (d.length / 64 + 2) s va d

/-- What an instruction does when its own memory access does not succeed: it faults with SKID 0 and issues again from its
start (R25, R40, R49), consumes the error, waits, or stalls. -/
def State.memStop (s : State) (r : MemRes) (kinds : Nat) : Out :=
  match r with
  | .ok _ _ => .next s
  | .fault t c va => .next (t.memFault .again c va 0 kinds)
  | .uce t => .next t.uceCur
  | .wait t => .next t
  | .stall => .next s

/-- The window boundaries of a wave from its bottom up, with the base that a CALL would add (R39). -/
def Wave.bounds (w : Wave) (nb : Nat) : List Nat := (w.wins.reverse ++ [w.base, nb]).filter fun x => decide (w.bottom < x)

/-- The highest slow-file slot the run may grow to: below every other run on the core, at most 8,192 (R36, R39). -/
def State.runLimit (s : State) (bid wid : Nat) (w : Wave) : Nat :=
  s.blocks.foldl (fun n e => if coreOf e.1 = coreOf bid then
    e.2.waves.foldl (fun n x =>
      if (e.1 = bid ∧ x.1 = wid) ∨ x.2.runBase < w.runBase + w.runLen then n else min n x.2.runBase) n else n) 8192

/-- Spill the oldest window: its registers below the next base go to the spill area, and the rest of the run moves down. With
nothing left to spill, the CALL stalls until slots above its run are free (R39, log 15). The engine reads what it spills (R342). -/
def State.spillOldest (s : State) (bid wid nb : Nat) : MemRes :=
  match s.view bid wid 0 with
  | none => .stall
  | some v =>
    match v.w.bounds nb with
    | [] => .stall
    | x :: _ =>
      let cnt := x - v.w.bottom
      if (List.range cnt).any fun i => (s.core (coreOf bid)).bad.contains (v.w.runBase + i) then .uce s
      else
      let regs := (s.runRegs bid v.w).take cnt
      let rec_ := spillRecord regs
      if v.b.spillLen < v.w.spillTop + rec_.length then .fault s cPROTFAULT (v.b.spillBase + wid * v.b.spillLen + v.b.spillLen)
      else match s.memPut (v.b.spillBase + wid * v.b.spillLen + v.w.spillTop) rec_ with
        | .ok s _ =>
          let s := s.modCore (coreOf bid) fun c => c.putRun v.w.runBase (s.runRegs bid v.w |>.drop cnt)
          .ok (s.modWave bid wid fun w => { w with
            bottom := x, spills := (v.w.spillTop, v.w.bottom, cnt) :: w.spills, spillTop := w.spillTop + rec_.length }) []
        | r => r

/-- Make room for a stack that ends at position `top`: grow the run in place, else spill oldest windows (R39, R40). -/
def State.fitStack (s : State) (bid wid nb top : Nat) : Nat → MemRes
  | 0 => .stall
  | fuel + 1 =>
    match s.view bid wid 0 with
    | none => .stall
    | some v =>
      let need := top - v.w.bottom
      if need ≤ 256 ∧ need ≤ v.w.runLen then .ok s []
      else if need ≤ 256 ∧ v.w.runBase + need ≤ s.runLimit bid wid v.w then
        .ok (s.modWave bid wid fun w => { w with runLen := need }) []
      else match s.spillOldest bid wid nb with
        | .ok s _ => s.fitStack bid wid nb top fuel
        | r => r

/-- Transfer a CALL to its target with the new window (R151). -/
def State.doCall (s : State) (v : View) (d : SReg) (w8 : Nat) (tgt : Pc) (t : Term) : Out :=
  let nb := v.w.base + v.w.win - 8
  if s.sigBad t then .next s.sigFault
  else match s.fitStack v.bid v.wid nb (nb + 8 * w8) 40 with
    | .ok s _ =>
      let link : Word64 := BitVec.ofNat 64 (v.w.win / 8 * 2 ^ 57 + s.ir.succ.toNat)
      let s := s.swrite s.cur d link
      let s := s.modWave v.bid v.wid fun w => { w with
        wins := w.base :: w.wins, base := nb, win := 8 * w8, openCalls := w.openCalls + 1 }
      let top := nb + 8 * w8
      let s := match s.view v.bid v.wid 0 with
        | some u => if top ≤ 128 then s
            else s.modCore (coreOf v.bid) fun c => c.leaveFast u.w.runBase (u.w.runBase + (top - 128 - u.w.bottom))
        | none => s
      .next (s.endRun tgt 0x6B31)
    | .uce t => .next (match (List.range v.w.runLen).find? fun i => (t.core (coreOf v.bid)).bad.contains (v.w.runBase + i) with
        | some i => t.uceReg v (v.w.runBase + i)
        | none => t.uceCur)
    | .fault t c va => .next (t.memFault .again c va 0 (if c = cPROTFAULT ∧ va = v.b.spillBase + v.wid * v.b.spillLen + v.b.spillLen then 0 else 2))
    | r => s.memStop r 2

/-- Whether a target is the entry of a stub, and which (R152, R288, R300). -/
def Kernel.stubAt (k : Kernel) (va : Nat) : Option Nat :=
  if k.inStubs va ∧ (va - (k.text + k.stubOff)) % 32 = 0 then some ((va - (k.text + k.stubOff)) / 32) else none

/-- Park a slot on a binding entry, once: nothing is written and nothing folds (R152, R301). -/
def State.parkBinding (s : State) (v : View) (entry : Nat) : State :=
  s.modSlot v.bid v.wid v.k fun x => { x with status := .binding entry, expand := none }

/-- CALL (R150 to R152, R300, R301). The access to a binding entry needs the right R (log 35). -/
def execCall (d : SReg) (w8 : BitVec 8) (tgt : CallTarget) (t : Term) (s : State) : Out :=
  s.onSlot fun v =>
    let raw : Word64 := match tgt with
      | .off o => (s.ir.target o).setWidth 64
      | .reg n => s.sread s.cur n
    if !pcForm raw ∨ raw.toNat % 4 ≠ 0 then .next (s.trap cILLEGAL)
    else if v.w.split ∨ v.w.openCalls = 65535 then .next (s.trap cILLEGAL)
    else match v.b.kern.stubAt raw.toNat with
      | none => s.doCall v d w8.toNat (raw.setWidth 57) t
      | some i =>
        let va := v.b.kern.bindtab + 32 * i
        match s.locate v.bid va ⟨true, false, false⟩ with
        | (s, .error c) => .next (s.memFault .again c va 0 4)
        | (u, .ok (.dram pa cell)) =>
          let s := u.toHome (coreOf v.bid) cell 32
          let s := s.vaultRead cell 32
          if s.parks pa cell then .next u
          else if s.poisoned cell 32 then .next s.uceCur
          else match (s.dramByte cell).toNat with
          | 0 =>
            let s := s.dramWrite cell [1]
            let fn := leNat ((List.range 4).map fun j => s.dramByte (cell + 4 + j))
            .next ({ s with lazies := s.lazies ++ [LazyReq.mk cell v.b.tag v.b.kern fn none false] }.parkBinding v cell)
          | 1 => .next (s.parkBinding v cell)
          | 2 => s.doCall v d w8.toNat (BitVec.ofNat 57 (leNat ((List.range 8).map fun j => s.dramByte (cell + 8 + j)))) t
          | _ => .next (s.trap cBINDFAIL)
        | (s, .ok _) => .next (s.memFault .again cATTRFAULT va 0 4)

/-- Refill the newest record while the caller's window is not in the slow file (R39). -/
def State.refill (s : State) (bid wid base top : Nat) : Nat → MemRes
  | 0 => .ok s []
  | fuel + 1 =>
    match s.view bid wid 0 with
    | none => .stall
    | some v =>
      if v.w.bottom ≤ base then .ok s []
      else match v.w.spills with
        | [] => .ok s []
        | (off, first, cnt) :: rest =>
          match s.memGet (v.b.spillBase + wid * v.b.spillLen + off) (v.w.spillTop - off) with
          | .ok s d =>
            let fs := (d.drop 8).take cnt
            let regs := unspill fs (d.drop (8 + (cnt + 3) / 4 * 4))
            let live := (s.runRegs bid v.w).take (top - v.w.bottom)
            let s := s.modWave bid wid fun w => { w with
              bottom := first, spills := rest, spillTop := off, runLen := max w.runLen (top - first) }
            (s.modCore (coreOf bid) fun c => c.putRun v.w.runBase (regs ++ live)).refill bid wid base top fuel
          | r => r

/-- Whether the run of a wave can hold what a refill brings back (R39); a RET whose refill finds no room stalls until slots
above its run are free (log 15). -/
def State.refillFits (s : State) (bid wid : Nat) (w : Wave) (base top : Nat) : Bool :=
  let first := w.spills.foldl (fun b r => if base < b then r.2.1 else b) w.bottom
  decide (top - first ≤ w.runLen) || decide (w.runBase + (top - first) ≤ s.runLimit bid wid w)

/-- RET (R150, R151). -/
def execRet (a : SReg) (t : Term) (s : State) : Out :=
  s.onSlot fun v =>
    let link := s.sread s.cur a
    let n8 := bitsOf link 61 57
    if v.w.split ∨ v.w.openCalls = 0 then .next (s.trap cILLEGAL)
    else if bitsOf link 63 62 ≠ 0 ∨ n8 < 2 ∨ 16 < n8 ∨ bitsOf link 1 0 ≠ 0 then .next (s.trap cILLEGAL)
    else if v.w.base < 8 * n8 - 8 then .next (s.trap cILLEGAL)
    else if s.sigBad t then .next s.sigFault
    else if !s.refillFits v.bid v.wid v.w (v.w.base - (8 * n8 - 8)) (v.w.base + 8) then .next s
    else
      let nb := v.w.base - (8 * n8 - 8)
      match s.refill v.bid v.wid nb (v.w.base + 8) 300 with
      | .ok s _ =>
        let s := s.modWave v.bid v.wid fun w => { w with
          base := nb, win := 8 * n8, openCalls := w.openCalls - 1, wins := w.wins.filter fun x => decide (x < nb) }
        .next (s.endRun (link.setWidth 57) 0x6B32)
      | r => s.memStop r 1

/-- Entries on the divergence stack (R24, R27). -/
def Wave.dsdepth (w : Wave) : Nat := w.dstack.length + w.dmem

/-- The 16 bytes of a divergence entry (R24). -/
def DEntry.bytes (e : DEntry) : List Byte := toLE 8 e.pc.toNat ++ toLE 4 e.mask.toNat ++ toLE 4 e.emask.toNat
def DEntry.parse (d : List Byte) : DEntry :=
  ⟨BitVec.ofNat 32 (fld d 12 4), BitVec.ofNat 32 (fld d 8 4), BitVec.ofNat 57 (fld d 0 8)⟩

/-- Base of a wave's divergence area (R284). -/
def Block.divArea (b : Block) (wid : Nat) : Nat := b.divBase + wid * b.divLen

/-- Push an entry: the oldest on-chip entry goes to memory when sixteen are held (R24, R25). -/
def State.pushDiv (s : State) (v : View) (e : DEntry) : MemRes :=
  let put := fun (s : State) => s.modWave v.bid v.wid fun w => { w with dstack := e :: w.dstack, dcont := false :: w.dcont, downer := v.k }
  if v.w.dstack.length < 16 then .ok (put s) []
  else match v.w.dstack[15]? with
    | none => .stall
    | some old =>
      if v.b.divLen < 16 * (v.w.dmem + 1) then .fault s cPROTFAULT (v.b.divArea v.wid + 16 * v.w.dmem)
      else match s.memPut (v.b.divArea v.wid + 16 * v.w.dmem) old.bytes with
        | .ok s _ => .ok (put (s.modWave v.bid v.wid fun w => { w with dstack := w.dstack.take 15, dmem := w.dmem + 1 })) []
        | r => r

/-- The newest entry, read from memory when none is on chip, with where a refill would leave it (R24, R25). -/
def State.topDiv (s : State) (v : View) : MemRes × DEntry :=
  match v.w.dstack with
  | e :: _ => (.ok s [], e)
  | [] => match s.memGet (v.b.divArea v.wid + 16 * (v.w.dmem - 1)) 16 with
    | .ok s d => (.ok s [], DEntry.parse d)
    | r => (r, ⟨0, 0, 0⟩)

/-- Pop the newest entry: from the chip, or the one just refilled from memory (R24). -/
def Wave.popDiv (w : Wave) : Wave :=
  match w.dstack with
  | _ :: t => { w with dstack := t, dcont := w.dcont.drop 1 }
  | [] => { w with dmem := w.dmem - 1, dcont := w.dcont.drop 1 }

/-- Replace the newest entry where it stands, on chip or in memory: no spill and no refill (R155). -/
def State.swapDiv (s : State) (v : View) (e : DEntry) : MemRes :=
  match v.w.dstack with
  | _ :: t => .ok (s.modWave v.bid v.wid fun w => { w with dstack := e :: t, dcont := true :: w.dcont.drop 1 }) []
  | [] => match s.memPut (v.b.divArea v.wid + 16 * (v.w.dmem - 1)) e.bytes with
    | .ok s _ => .ok (s.modWave v.bid v.wid fun w => { w with dcont := true :: w.dcont.drop 1 }) []
    | r => r

/-- Set the slot's k0 for a run that begins: shaped, and no instruction's write (R28, R133, R154). -/
def State.setK0 (s : State) (v : View) (m : Word32) : State :=
  s.modSlot v.bid v.wid v.k fun x => { x with k0 := shapeK0 v.b v.w v.k m }

/-- Start slot 1 of a wave (R23, R155). -/
def newSlot (pc : Pc) (m : Word32) (sig : BitVec 32) : Slot :=
  { Slot.off with status := .run, pc := pc, k0 := m, sig := sig, emask := m }

/-- SPLIT (R23, R154, R155). -/
def execSplit (k : KNum) (off : BitVec 32) (t : Term) (s : State) : Out :=
  s.onSlot fun v =>
    let tk := v.sl.k0 &&& kread v k
    let nt := v.sl.k0 &&& ~~~ kread v k
    if s.sigBad t then .next s.sigFault
    else if nt = 0 ∧ tk ≠ 0 then .next (s.endRun (s.ir.target off) 0x6B33)
    else if tk = 0 then .next (s.endRun s.ir.succ 0x6B34)
    else if !v.w.split then
      let s := s.setK0 v nt
      let tgt := s.ir.target off
      let s := s.endRun s.ir.succ 0x6B34
      .next (s.modWave v.bid v.wid fun w => { w with
        split := true, dom0 := nt, dom1 := tk, presplit := v.sl.k0, s0 := { w.s0 with priv := [] },
        s1 := newSlot tgt tk 0x6B33 })
    else if v.w.dsdepth ≠ 0 ∧ v.w.downer ≠ v.k then .next s
    else match s.pushDiv v (DEntry.mk v.sl.emask nt s.ir.succ) with
      | .ok s _ => .next ((s.setK0 v tk).endRun (s.ir.target off) 0x6B33)
      | .fault t c va => .next (t.memFault .again c va 0 (if c = cPROTFAULT ∧ v.b.divLen < 16 * (v.w.dmem + 1) then 0 else 2))
      | r => s.memStop r 2

/-- A registration under the name of slot 1 becomes slot 0's: slot 1 ends, or becomes slot 0 (R155). -/
def renameSlot (bid wid : Nat) (who : Issuer) : Issuer := if who = .slot bid wid 1 then .slot bid wid 0 else who

/-- Rename slot 1 of a wave in everything that reports to it. -/
def State.renameSlots (s : State) (bid wid : Nat) : State :=
  let s := s.modBlk bid fun b => { b with nbars := tmapv b.nbars fun x =>
    { x with rcv := x.rcv.map fun e => (renameSlot bid wid e.1, e.2) } }
  { s with
    sends := tmapv s.sends fun x => { x with who := renameSlot bid wid x.who },
    cmds := tmapv s.cmds fun x => { x with who := renameSlot bid wid x.who },
    links := tmapv s.links fun x => { x with who := renameSlot bid wid x.who } }

/-- Whether slot 0's domain holds the lowest lane of the mask before the split: its scalars win (R26). -/
def Wave.zeroWins (w : Wave) : Bool :=
  let l := lowestBit w.presplit.toNat 32
  w.dom0.getLsbD l

/-- The scalars after a JOIN of both sides, and whether a conflict was resolved (R26). -/
def Wave.mergeScalars (w : Wave) : Wave :=
  let first := if w.zeroWins then w.s1.priv else w.s0.priv
  let second := if w.zeroWins then w.s0.priv else w.s1.priv
  let r := (first ++ second).foldl (fun t e => cset 0 t e.1 e.2) w.sregs
  { w with sregs := r, uconf := w.uconf || first.any fun e => (tget second e.1).isSome }

/-- After a slot has left the wave, the others may complete what the wave had begun (R45). -/
def State.retryWave (s : State) (bid wid : Nat) : State :=
  match s.view bid wid 0 with
  | none => s
  | some v => (((v.w.barn.map fun i => i.n).eraseDups).foldl (fun s n => s.tryBarn bid wid n)
      (if v.w.barIssued.isEmpty then s else s.tryBar bid wid)).tryGroup bid wid

/-- Both sides meet at X: slot 0 runs with the union of the masks, slot 1 ends (R26, R155). -/
def State.meet (s : State) (bid wid : Nat) (x : Pc) : State :=
  (s.modWave bid wid fun w =>
    let u := w.s0.k0 ||| w.s1.k0
    let w := w.mergeScalars
    { w with
      split := false, dom0 := 0, dom1 := 0,
      s0 := { w.s0 with status := .run, pc := x, k0 := u, sig := 0x6B35, emask := u, priv := [],
                        pending := w.s0.pending ++ w.s1.pending },
      s1 := Slot.off }).renameSlots bid wid

/-- One slot goes on alone as slot 0 from X, keeping its scalar copies (R155). -/
def State.alone (s : State) (bid wid k : Nat) (x : Pc) : State :=
  (s.modWave bid wid fun w =>
    let z := w.slot k
    { w with
      split := false, dom0 := 0, dom1 := 0, sregs := z.priv.foldl (fun t e => cset 0 t e.1 e.2) w.sregs,
      s0 := { z with status := .run, pc := x, sig := 0x6B35, emask := z.k0, priv := [] },
      s1 := Slot.off }).renameSlots bid wid

/-- The other slot of a wave. -/
def View.other (v : View) : Slot := v.w.slot (1 - v.k)

/-- JOIN (R23, R155). -/
def execJoin (off : BitVec 32) (t : Term) (s : State) : Out :=
  s.onSlot fun v =>
    let x := s.ir.target off
    if !v.w.split then .next (s.goTo t x 0x6B35)
    else if v.w.dsdepth ≠ 0 ∧ v.w.downer = v.k then
      if s.sigBad t then .next s.sigFault
      else match s.topDiv v with
        | (.ok s _, e) =>
          if e.pc = x then .next (((s.modWave v.bid v.wid Wave.popDiv).setK0 v (v.sl.k0 ||| e.mask)).endRun x 0x6B35)
          else match s.swapDiv v (DEntry.mk v.sl.emask v.sl.k0 x) with
            | .ok s _ => .next ((s.setK0 v e.mask).endRun e.pc (if (v.w.dcont[0]?).getD false then 0x6B35 else 0x6B34))
            | r => s.memStop r 2
        | (r, _) => s.memStop r 1
    else match v.other.status with
      | .join y =>
        if x ≠ y then .next (s.trap cILLEGAL)
        else if s.sigBad t then .next s.sigFault
        else .next (((s.endRun x 0x6B35).meet v.bid v.wid x).retryWave v.bid v.wid)
      | .exited =>
        if s.sigBad t then .next s.sigFault
        else .next (((s.endRun x 0x6B35).alone v.bid v.wid v.k x).retryWave v.bid v.wid)
      | _ =>
        if s.sigBad t then .next s.sigFault
        else .next ((s.endRun x 0x6B35).modSlot v.bid v.wid v.k fun z => { z with status := .join x })

/-- EXIT (R155, R221). A stream that exits ends once its commands are performed. -/
def execExit (t : Term) (s : State) : Out :=
  match s.cur with
  | .stream bid e ix => s.onAny (.next ((s.endRun s.ir.succ 0).modStream bid e ix fun x => { x with exited := true }))
  | .slot _ _ _ => s.onSlot fun v =>
    if !v.w.split then (if s.sigBad t then .next s.sigFault else .next ((s.endRun s.ir.succ 0).endWave v.bid v.wid))
    else if v.w.dsdepth ≠ 0 ∧ v.w.downer = v.k then .next (s.trap cILLEGAL)
    else if s.sigBad t then .next s.sigFault
    else match v.other.status with
      | .join y => .next (((s.endRun s.ir.succ 0).alone v.bid v.wid (1 - v.k) y).retryWave v.bid v.wid)
      | .exited => .next ((s.endRun s.ir.succ 0).endWave v.bid v.wid)
      | _ => .next (((s.endRun s.ir.succ 0).modSlot v.bid v.wid v.k fun z => { z with status := .exited }).retryWave v.bid v.wid)

/-- Whether some pending wave of a partition is eligible (R156). -/
def State.pendingEligible (s : State) (c p : Nat) : Bool :=
  ((s.core c).pend p).any fun key => match s.view (32 * c + key / 32) (key % 32) 0 with
    | some v => v.w.live && v.w.runnable && decide (v.b.frozen = .no)
    | none => false

/-- YIELD (R156). -/
def execYield (t : Term) (s : State) : Out :=
  s.onSlot fun v =>
    if s.sigBad t then .next s.sigFault
    else
      let s := s.endRun s.ir.succ 0
      let c := coreOf v.bid
      if s.pendingEligible c v.w.part then
        .next ((s.leaveActive v.bid v.wid).modCore c fun k =>
          k.setPend v.w.part (k.pend v.w.part ++ [waveKey v.bid v.wid]))
      else .next s

/-- TRAP (R48, R157, R158): SIG is checked first; s stands as it was before. -/
def execTrap (_n : BitVec 8) (t : Term) (s : State) : Out :=
  s.onSlot fun v =>
    if s.sigBad t then .next s.sigFault
    else .next (s.trapSlot v.bid v.wid v.k cUSERTRAP 0 s.ir.pc s.ir.succ)

/-- TRAPRET (R159). -/
def execTrapret (a : Option SReg) (t : Term) (s : State) : Out :=
  s.onSlot fun v =>
    if !v.sl.inHandler then .next (s.trap cILLEGAL)
    else match a with
      | none => if s.sigBad t then .next s.sigFault
          else .next (s.leaveHandler v.bid v.wid v.k v.sl.frame.resume v.sl.frame.replay)
      | some r =>
        let x := s.sread s.cur r
        if !pcForm x then .next (s.trap cILLEGAL)
        else if s.sigBad t then .next s.sigFault
        else .next (s.leaveHandler v.bid v.wid v.k (x.setWidth 57) .none)

/-- HALT (R160): both slots stop, a halt event is posted. -/
def execHalt (t : Term) (s : State) : Out :=
  s.onSlot fun v =>
    if s.sigBad t then .next s.sigFault
    else
      let s := s.endRun s.ir.succ 0
      let s := s.modWave v.bid v.wid fun w => { w with halted := true }
      .next (s.postEvent v.b.tag (v.b.event v.bid 6 0 s.ir.pc.toNat 0))

/-- HALT_RELEASE (R160): the firmware releases a halted wave. -/
def execHaltRelease (block wave : Nat) (s : State) : Out :=
  .next (s.modWave block wave fun w => { w with halted := false })

end Sys2Proof.Machine
end

