-- ==== Sys2Proof/Machine/System.lean ====
section
/-! DEFINITION. System registers (R27, R52, R93 to R100, R134, R164, R165) and the invalidations of translations and of
instructions (R166). -/

namespace Sys2Proof.Machine

/-- The registers that a stream may read (R219). -/
def streamReads : SysReg → Bool
  | .version => true | .ctxid => true | .incarn => true | .waveid => true | .blockid => true
  | .gridx => true | .gridy => true | .gridz => true
  | _ => false

/-- VERSION (R165): major 3, the minor that microcode may raise, patch 0. -/
def State.versionReg (s : State) : Word64 := BitVec.ofNat 64 (3 * 65536 + s.fw.minor % 256 * 256)

/-- READYMAP for a selector (R165). -/
def State.readymapReg (s : State) (cls word : Nat) : Word64 :=
  let rd := ((cget 0 s.ready cls).extractLsb' (16 * word) 16).toNat
  let fl := ((cget 0 s.fallow cls).extractLsb' (16 * word) 16).toNat
  BitVec.ofNat 64 (rd + fl * 2 ^ 16 + word % 4096 * 2 ^ 32 + cls % 16 * 2 ^ 52)

/-- HEALTH (R165). -/
def State.healthReg (s : State) : Word64 :=
  BitVec.ofNat 64 ((if s.replaceFlag then 1 else 0) + (if s.thermtrip then 2 else 0) + s.spareSlices.sum % 256 * 2 ^ 16
    + s.spareCores.sum % 256 * 2 ^ 24)

/-- WSTATUS of a slot (R27). -/
def View.wstatus (v : View) : Word64 :=
  BitVec.ofNat 64 ((if v.w.uconf then 1 else 0) + (if v.w.split then 2 else 0) + v.k % 2 * 4
    + (if v.w.spills.isEmpty then 0 else 8) + v.w.dsdepth % 2 ^ 24 * 256)

/-- The two-bit mode of field i. -/
def modeAt (w : Word64) (i : Nat) : Nat := w.toNat / 4 ^ i % 4

/-- The ways that leave cache mode in a change to `x` (R99). -/
def Core.leaving (c : Core) (x : Word64) : List Nat :=
  (List.range 16).filter fun i => decide (modeAt c.colWays i = 0) && decide (modeAt x i ≠ 0)

/-- The dirty lines that leave the ways in a change, each with its way: which way holds a line is the part's choice (R97, R99,
log 3). -/
def Core.linesOut (c : Core) (x : Word64) : List (Nat × Nat) :=
  let ways := (List.range 16).filter fun i => decide (modeAt c.colWays i = 0)
  let ls := (((c.wq.filter fun e => !e.bus).flatMap VWrite.sectors).map fun p => p / 4).eraseDups
  (ls.map fun n => (n, ways.getD (Config.lineWay n % ways.length) 0)).filter fun e => (c.leaving x).contains e.2

/-- COLSTAT (R99): BUSY from the first step of a change to its last, PENDING and LINES the dirty lines that its second step has
still to write back. -/
def Core.colstat (c : Core) : Word64 :=
  match c.colChange with
  | none => 0
  | some x =>
    let l := c.linesOut x
    BitVec.ofNat 64 (2 ^ 48 + ((List.range 16).foldl (fun m i => if l.any fun e => decide (e.2 = i) then m + 2 ^ i else m) 0) * 2 ^ 32
      + min l.length 0x1FFFF)

/-- The registers that describe the package, the context or the block (R165). -/
def State.sysBlock (s : State) (b : Block) (wave : Nat) (r : SysReg) : Word64 :=
  match r with
  | .version => s.versionReg
  | .ctxid => BitVec.ofNat 64 b.tag.slot
  | .incarn => BitVec.ofNat 64 (s.ctx b.tag.slot).inc
  | .staledrop => BitVec.ofNat 64 s.staleDrop
  | .health => s.healthReg
  | .waveid => BitVec.ofNat 64 wave
  | .blockid => BitVec.ofNat 64 b.blockId
  | .gridx => BitVec.ofNat 64 b.posX
  | .gridy => BitVec.ofNat 64 b.posY
  | .gridz => BitVec.ofNat 64 b.posZ
  | .versionbudget => BitVec.ofNat 64 b.versBudget
  | _ => 0

/-- A system register as a slot reads it (R164, R165). -/
def State.sysRead1 (s : State) (v : View) (r : SysReg) : Word64 :=
  match r with
  | .readymap => s.readymapReg v.w.rmClass v.w.rmWord
  | .wstatus => v.wstatus
  | .sigreg => BitVec.ofNat 64 (v.sl.emask.toNat * 2 ^ 32 + v.sl.sig.toNat)
  | .cause => v.sl.cause
  | .faultpc => v.sl.faultPc.setWidth 64
  | .skid => BitVec.ofNat 64 (v.sl.skid % 16)
  | .bankmode => (s.core (coreOf v.bid)).bankMode
  | .colways => (s.core (coreOf v.bid)).colWays
  | .colstat => (s.core (coreOf v.bid)).colstat
  | .govbudget => BitVec.ofNat 64 (s.core (coreOf v.bid)).govBudget
  | .govstall => BitVec.ofNat 64 ((s.core (coreOf v.bid)).heldTo s.clock).govStall
  | r => s.sysBlock v.b v.wid r

/-- SREAD (R164, R165, R219). -/
def execSread (d : SReadDst) (r : SysReg) (p : Pred) (s : State) : Out :=
  match s.cur with
  | .stream bid e ix =>
    match (s.blk bid).bind fun b => (b.stream e ix).map fun x => (b, x) with
    | none => .fault .noIssuer
    | some (b, x) => match d with
      | .vec _ => .next (s.trap cILLEGAL)
      | .sca n => if streamReads r then .next (s.putScalar n (s.sysBlock b x.wave r)) else .next (s.trap cILLEGAL)
  | .slot _ _ _ => s.onSlot fun v =>
    match d with
    | .sca n => .next (s.putScalar n (s.sysRead1 v r))
    | .vec n =>
      if outOfWindow v [n.toNat] then .next (s.trap cILLEGAL)
      else .next (s.vmerge v.bid v.wid n.toNat (effMask v p) (ofLanes fun l => BitVec.ofNat 32 l)).retire

/-- SWRITE of the registers that are plain: the selector of READYMAP, UCONF, the governor's two; a write to a read-only
field is ignored (R5, R164, R165). -/
def execSwrite (r : SysReg) (a : SReg) (s : State) : Out :=
  s.onSlot fun v =>
    let x := s.sread s.cur a
    let c := coreOf v.bid
    match r with
    | .readymap =>
      .next (s.modWave v.bid v.wid fun w => { w with rmClass := bitsOf x 55 52, rmWord := bitsOf x 43 32 }).retire
    | .wstatus =>
      .next (if x.getLsbD 0 then s.modWave v.bid v.wid fun w => { w with uconf := false } else s).retire
    | .govbudget =>
      if !v.b.priv then .next (s.trap cPRIV)
      else .next (s.modCore c fun k => { k with govBudget := bitsOf x 15 0 }).retire
    | .govstall =>
      if !v.b.priv then .next (s.trap cPRIV)
      else .next (s.modCore c fun k => { k with govStall := bitsOf x 47 0, govHeld := k.govHeld.map fun _ => s.clock }).retire
    | _ => .next s.retire

/-- Whether a bound block of the core holds a bank: its scratch allocation touches it or it is one of its FIFOs (R93, R94). -/
def State.bankHeld (s : State) (c bank : Nat) : Bool :=
  s.blocks.any fun e => decide (coreOf e.1 = c) && (e.2.fifoMask.getLsbD bank
    || (decide (0 < e.2.kern.shared) && decide (e.2.scratchBase < 32768 * (bank + 1))
      && decide (32768 * bank < e.2.scratchBase + e.2.kern.shared)))

/-- With no cache way left on a core, what was cached is at its home (R94, R97). -/
def State.cacheGone (s : State) (c : Nat) : State :=
  if (s.core c).hasCache then s
  else (s.writeBackAll c).modCore c fun k => { k with cache := [] }

/-- Set BANKMODE: banks that change hold zeros; lines of banks that leave cache mode go to the column store, or to their
homes where no way is left (R94). -/
def State.setBankMode (s : State) (c : Nat) (x : Word64) : State :=
  let old := (s.core c).bankMode
  let s := s.modCore c fun k => { k with
    bankMode := x,
    store := (List.range 32).foldl (fun m i => if modeAt x i = modeAt old i then m else memReplace m (32768 * i) 32768 []) k.store,
    storeBad := k.storeBad.filter fun p => decide (modeAt x (p / 512) = modeAt old (p / 512)) }
  s.cacheGone c

/-- SWRITE BANKMODE (R93, R94). -/
def execSwriteBankmode (a : SReg) (s : State) : Out :=
  s.onSlot fun v =>
    let x := s.sread s.cur a
    let c := coreOf v.bid
    let old := (s.core c).bankMode
    if !v.b.priv then .next (s.trap cPRIV)
    else if (List.range 32).any (fun i => decide (modeAt x i = 3)
        || (decide (modeAt x i ≠ modeAt old i) && decide (modeAt old i ≠ 0) && s.bankHeld c i)) then .next (s.trap cILLEGAL)
    else .next (s.setBankMode c x).retire

/-- Whether a slot has a window access issued and not performed (R99). -/
def Slot.windowOut (x : Slot) : Bool :=
  (x.held ++ x.flights).any fun f => match f.op with
    | .mem a => a.usesWindow
    | .regs _ => false

/-- Whether any wave of the core has a window access that is not performed; a product that reads B ways counts as one
(R99, step 1; R227). -/
def State.windowOut (s : State) (c : Nat) : Bool :=
  s.blocks.any fun e => decide (coreOf e.1 = c) && (e.2.waves.any (fun w => w.2.s0.windowOut || w.2.s1.windowOut)
    || (e.2.mat.queue0 ++ e.2.mat.queue1 ++ e.2.mat.queue2 ++ e.2.mat.queue3).any fun op => op.mb.bways)

/-- Steps 3 to 5 of R99: what leaves is discarded, what enters scratch or B mode holds zeros, and every way changes at
once. -/
def State.setColWays (s : State) (c : Nat) (x : Word64) : State :=
  let old := (s.core c).colWays
  let s := s.modCore c fun k => { k with
    colWays := x, colChange := none,
    column := (List.range 16).foldl (fun m i => if modeAt x i = modeAt old i then m else memReplace m (0x100000 * i) 0x100000 []) k.column,
    columnBad := k.columnBad.filter fun p => decide (modeAt x (p / 0x4000) = modeAt old (p / 0x4000)) }
  if (List.range 16).any fun i => decide (modeAt old i = 0) && decide (modeAt x i ≠ 0) then
    (s.writeBackAll c).modCore c fun k => { k with cache := [] }
  else s.cacheGone c

/-- SWRITE COLWAYS (R97 to R99): its first issue begins the change, the next ones wait for the window accesses that are out and
then write back the lines that leave, the last one changes the ways. -/
def execSwriteColways (a : SReg) (s : State) : Out :=
  s.onSlot fun v =>
    let x : Word64 := (s.sread s.cur a).extractLsb' 0 32 |>.setWidth 64
    let c := coreOf v.bid
    let k := s.core c
    if !v.b.columnRight then .next (s.trap cPRIV)
    else if (List.range 16).any fun i => decide (modeAt x i = 3) then .next (s.trap cILLEGAL)
    else match k.colChange with
      | some y =>
        if x ≠ y ∨ s.windowOut c then .next s
        else if (k.linesOut x).isEmpty then .next (s.setColWays c x).retire
        else .next ((s.landAll c).writeBackAll c)
      | none => if x = k.colWays then .next s.retire else .next (s.modCore c fun k => { k with colChange := some x })

/-- SWRITE VERSIONBUDGET (R165). -/
def execSwriteVersionbudget (a : SReg) (s : State) : Out :=
  s.onSlot fun v =>
    let n := bitsOf (s.sread s.cur a) 24 0
    if n % 256 ≠ 0 ∨ 0x1000000 < n then .next (s.trap cILLEGAL)
    else .next (s.modBlk v.bid fun b => { b with versBudget := n }).retire

/-- The translations that TLBINV leaves in a cache (R166, R321): of the page that holds an address every granule goes, up to the
largest page that could hold it, and every entry that translates it. -/
def tlbKept (kind va slot : Nat) (e : XEnt) : Bool :=
  match kind with
  | 0 => decide (e.tag.slot ≠ slot) || (match e.lvl with
    | none => decide (e.pre / 0x4000 ≠ va / 0x40000000)
    | some l => decide (e.pre ≠ ptPre va l))
  | 1 => decide (e.tag.slot ≠ slot)
  | _ => false

/-- Apply to the issuing core, or to every core (R166). -/
def State.inScope (s : State) (dev : Bool) (c : Nat) (f : Core → Core) : State :=
  if dev then { s with cores := tmapv s.cores f } else s.modCore c f

/-- TLBINV (R166): in every slice too at .dev. -/
def execTlbinv (dev : Bool) (kind : BitVec 2) (a b : SReg) (s : State) : Out :=
  s.onSlot fun v =>
    let va := (s.sread s.cur a).toNat
    let slot := bitsOf (s.sread s.cur b) 9 0
    if !v.b.priv then .next (s.trap cPRIV)
    else if kind = 3 then .next (s.trap cILLEGAL)
    else
      let s : State := if dev then { s with xlat := tmapv s.xlat fun l => l.filter fun e => tlbKept kind.toNat va slot e } else s
      .next (s.inScope dev (coreOf v.bid) fun k => { k with tlb := k.tlb.filter fun e => tlbKept kind.toNat va slot e }).retire

/-- Whether a cached fetch block holds a byte of a range. -/
def icHit (lo n key : Nat) : Bool :=
  let va := key % 2 ^ 52 * 32
  decide (n = 0) || (decide (va < lo + n) && decide (lo < va + 32))

/-- ICINV (R166). -/
def execIcinv (dev : Bool) (a b : SReg) (s : State) : Out :=
  s.onSlot fun v =>
    let lo := (s.sread s.cur a).toNat
    let n := (s.sread s.cur b).toNat
    if !v.b.priv then .next (s.trap cPRIV)
    else .next (s.inScope dev (coreOf v.bid) fun k => { k with icache := k.icache.filter fun e => !icHit lo n e.1 }).retire

end Sys2Proof.Machine
end

