-- ==== Sys2Proof/Machine/Masks.lean ====
section
/-! DEFINITION. Major 0x04, the mask instructions (R161). Every write to k0 is shaped by R28 and R154 and folds the mask
marker (R132); a write to k1 to k15 obeys R154. -/

namespace Sys2Proof.Machine

/-- Write a mask register and retire (R132, R154, R161). -/
def State.putMask (s : State) (v : View) (d : KNum) (x : Word32) : State :=
  if d = 0 then s.retire (some (shapeK0 v.b v.w v.k x))
  else (s.modWave v.bid v.wid fun w => w.kwrite v.k d x).retire

/-- KMOV (R161). -/
def execKmov (d a : KNum) (s : State) : Out := s.onSlot fun v => .next (s.putMask v d (kread v a))
/-- KAND (R161). -/
def execKand (d a b : KNum) (s : State) : Out := s.onSlot fun v => .next (s.putMask v d (kread v a &&& kread v b))
/-- KOR (R161). -/
def execKor (d a b : KNum) (s : State) : Out := s.onSlot fun v => .next (s.putMask v d (kread v a ||| kread v b))
/-- KXOR (R161). -/
def execKxor (d a b : KNum) (s : State) : Out := s.onSlot fun v => .next (s.putMask v d (kread v a ^^^ kread v b))
/-- KANDN (R161). -/
def execKandn (d a b : KNum) (s : State) : Out := s.onSlot fun v => .next (s.putMask v d (kread v a &&& ~~~ kread v b))
/-- KNOT (R161). -/
def execKnot (d a : KNum) (s : State) : Out := s.onSlot fun v => .next (s.putMask v d (~~~ kread v a))
/-- KPOP (R161). -/
def execKpop (d : SReg) (a : KNum) (s : State) : Out :=
  s.onSlot fun v => .next (s.putScalar d (BitVec.ofNat 64 (popc32 (kread v a))))
/-- KFIRST (R161): 32 when no bit is set. -/
def execKfirst (d : SReg) (a : KNum) (s : State) : Out :=
  s.onSlot fun v => .next (s.putScalar d (BitVec.ofNat 64 (lowestBit (kread v a).toNat 32)))
/-- KSET (R161). -/
def execKset (d : KNum) (x : BitVec 32) (s : State) : Out := s.onSlot fun v => .next (s.putMask v d x)
/-- KGET (R161). -/
def execKget (d : SReg) (a : KNum) (n : BitVec 8) (s : State) : Out :=
  s.onSlot fun v =>
    if 31 < n.toNat then .next (s.trap cILLEGAL)
    else .next (s.putScalar d (if (kread v a).getLsbD n.toNat then 1 else 0))
/-- KSAVE (R161). -/
def execKsave (d : SReg) (a : KNum) (s : State) : Out :=
  s.onSlot fun v => .next (s.putScalar d ((kread v a).setWidth 64))
/-- KREST (R161). -/
def execKrest (d : KNum) (a : SReg) (s : State) : Out :=
  s.onSlot fun v => .next (s.putMask v d ((s.sread s.cur a).setWidth 32))
/-- SETEXEC (R161): k0 keeps the lanes whose element is not zero. -/
def execSetexec (a : VNum) (s : State) : Out :=
  s.onSlot fun v =>
    if outOfWindow v [a.toNat] then .next (s.trap cILLEGAL)
    else
      let x := s.vread v.bid v.w a.toNat
      let nz : Word32 := (List.range 32).foldl (fun m l => if lane x l = 0 then m else m ||| (1 <<< l)) 0
      .next (s.putMask v 0 (v.sl.k0 &&& nz))

end Sys2Proof.Machine
end

