-- ==== Sys2Proof/Machine/Scalar.lean ====
section
/-! DEFINITION. Majors 0x05 to 0x07, the scalar instructions (R162, R163): 64-bit values that wrap; waves and streams
alike (R219). -/

namespace Sys2Proof.Machine

/-- Source B: a register, or IMM32 sign-extended (R162). -/
def State.sB (s : State) (b : SSrc) : Word64 :=
  match b with
  | .reg n => s.sread s.cur n
  | .imm x => x.signExtend 64

/-- A scalar instruction of two sources: sD := f a b (R162). -/
def State.scalar2 (s : State) (d a : SReg) (b : SSrc) (f : Word64 → Word64 → Word64) : Out :=
  s.onAny (.next (s.putScalar d (f (s.sread s.cur a) (s.sB b))))

/-- A scalar instruction of one source. -/
def State.scalar1 (s : State) (d a : SReg) (f : Word64 → Word64) : Out :=
  s.onAny (.next (s.putScalar d (f (s.sread s.cur a))))

/-- The high 64 bits of the 128-bit product (R162). -/
def mulHigh (sgn : Bool) (a b : Word64) : Word64 := BitVec.ofInt 64 (sval sgn a * sval sgn b / 2 ^ 64)

/-- The quotient truncated toward zero, wrapped (R162, R163). -/
def quot (sgn : Bool) (a b : Word64) : Word64 := BitVec.ofInt 64 ((sval sgn a).tdiv (sval sgn b))

/-- The remainder, with the sign of a (R162, R163). -/
def remd (sgn : Bool) (a b : Word64) : Word64 := BitVec.ofInt 64 ((sval sgn a).tmod (sval sgn b))

/-- Bits [pos+len-1 : pos], extended (R162). -/
def bitField (sgn : Bool) (x : Word64) (pos len : Nat) : Word64 :=
  let y := x.toNat / 2 ^ pos % 2 ^ len
  if sgn ∧ 2 ^ len ≤ 2 * y then BitVec.ofInt 64 ((y : Int) - (2 ^ len : Nat)) else BitVec.ofNat 64 y

/-- Leading zero bits of a number of n bits. -/
def clz (x n : Nat) : Nat := n - bitLen x

/-- SADD (R162). -/
def execSadd (d a : SReg) (b : SSrc) (s : State) : Out := s.scalar2 d a b fun x y => x + y
/-- SSUB (R162). -/
def execSsub (d a : SReg) (b : SSrc) (s : State) : Out := s.scalar2 d a b fun x y => x - y
/-- SMUL (R162). -/
def execSmul (d a : SReg) (b : SSrc) (s : State) : Out := s.scalar2 d a b fun x y => x * y
/-- SMULH (R162). -/
def execSmulh (sgn : Bool) (d a : SReg) (b : SSrc) (s : State) : Out := s.scalar2 d a b (mulHigh sgn)
/-- SMAD (R162). -/
def execSmad (d a b c : SReg) (s : State) : Out := s.scalar2 d a (.reg b) fun x y => x * y + s.sread s.cur c
/-- SDIV (R162, R163): a zero divisor traps INTDIV. -/
def execSdiv (sgn : Bool) (d a : SReg) (b : SSrc) (s : State) : Out :=
  if s.sB b = 0 then s.onAny (.next (s.trap cINTDIV)) else s.scalar2 d a b (quot sgn)
/-- SREM (R162, R163): a zero divisor traps INTDIV. -/
def execSrem (sgn : Bool) (d a : SReg) (b : SSrc) (s : State) : Out :=
  if s.sB b = 0 then s.onAny (.next (s.trap cINTDIV)) else s.scalar2 d a b (remd sgn)
/-- SAND (R162). -/
def execSand (d a : SReg) (b : SSrc) (s : State) : Out := s.scalar2 d a b fun x y => x &&& y
/-- SOR (R162). -/
def execSor (d a : SReg) (b : SSrc) (s : State) : Out := s.scalar2 d a b fun x y => x ||| y
/-- SXOR (R162). -/
def execSxor (d a : SReg) (b : SSrc) (s : State) : Out := s.scalar2 d a b fun x y => x ^^^ y
/-- SSHL (R162): the count is b mod 64. -/
def execSshl (d a : SReg) (b : SSrc) (s : State) : Out := s.scalar2 d a b fun x y => x <<< (y.toNat % 64)
/-- SSHR (R162). -/
def execSshr (d a : SReg) (b : SSrc) (s : State) : Out := s.scalar2 d a b fun x y => x >>> (y.toNat % 64)
/-- SSRA (R162). -/
def execSsra (d a : SReg) (b : SSrc) (s : State) : Out := s.scalar2 d a b fun x y => x.sshiftRight (y.toNat % 64)
/-- SMIN (R162). -/
def execSmin (sgn : Bool) (d a : SReg) (b : SSrc) (s : State) : Out :=
  s.scalar2 d a b fun x y => if sval sgn x ≤ sval sgn y then x else y
/-- SMAX (R162). -/
def execSmax (sgn : Bool) (d a : SReg) (b : SSrc) (s : State) : Out :=
  s.scalar2 d a b fun x y => if sval sgn y ≤ sval sgn x then x else y
/-- SCMP (R147, R162). -/
def execScmp (cond : Cond) (sgn : Bool) (d a : SReg) (b : SSrc) (s : State) : Out :=
  s.scalar2 d a b fun x y => if condScalar cond sgn x y then 1 else 0
/-- SSEL (R162). -/
def execSsel (d a b c : SReg) (s : State) : Out :=
  s.scalar2 d a (.reg b) fun x y => if s.sread s.cur c ≠ 0 then x else y
/-- SMOV (R162). -/
def execSmov (d a : SReg) (s : State) : Out := s.scalar1 d a fun x => x
/-- SBFX (R162). -/
def execSbfx (sgn : Bool) (d a : SReg) (pos : BitVec 6) (len : BitVec 7) (s : State) : Out :=
  s.scalar1 d a fun x => bitField sgn x pos.toNat len.toNat
/-- SPOPC (R162). -/
def execSpopc (d a : SReg) (s : State) : Out := s.scalar1 d a fun x => BitVec.ofNat 64 (popc x.toNat 64)
/-- SCLZ (R162): 64 for zero. -/
def execSclz (d a : SReg) (s : State) : Out := s.scalar1 d a fun x => BitVec.ofNat 64 (clz x.toNat 64)
/-- SADDR (R162): a + b times scale + disp. -/
def execSaddr (d a b : SReg) (scale : BitVec 2) (disp : BitVec 32) (s : State) : Out :=
  s.scalar2 d a (.reg b) fun x y => x + (y <<< scale.toNat) + disp.signExtend 64
/-- SLI (R162). -/
def execSli (d : SReg) (x : BitVec 64) (s : State) : Out := s.onAny (.next (s.putScalar d x))

end Sys2Proof.Machine
end

