-- ==== Sys2Proof/Machine/VecInt.lean ====
section
/-! DEFINITION. Majors 0x08 to 0x0A: integer arithmetic, bits and fields, selection and moves, lane by lane (R169 to
R181). -/

namespace Sys2Proof.Machine

/-- Registers the operands of an instruction name in the window: destination and sources. -/
def binRegs (o : VBin) : List Nat := o.d.toNat :: vsrcRegs o.a ++ vsrcRegs o.b
def triRegs (o : VTri) : List Nat := o.d.toNat :: vsrcRegs o.a ++ vsrcRegs o.b ++ vsrcRegs o.c
def unRegs (o : VUn) : List Nat := o.d.toNat :: vsrcRegs o.a

/-- A lane-by-lane instruction: outside the window it is ILLEGAL (R38); else each lane of the effective mask takes its
result and the instruction retires (R169, R172, R173). -/
def State.lanewise (s : State) (regs : List Nat) (p : Pred) (pair : Bool) (d : VNum) (f : View → Nat → Nat) : Out :=
  s.onSlot fun v =>
    if outOfWindow v regs then .next (s.trap cILLEGAL)
    else .next (s.writeRegs v.bid v.wid (laneWrites pair d (effMask v p) (f v))).retire

/-- An integer of two sources: the exact result, then wrapped or saturated (R174). -/
def State.vint2 (s : State) (o : VBin) (f : Int → Int → Int) : Out :=
  s.lanewise (binRegs o) o.p o.ty.pair o.d fun v l =>
    let x := f (s.opInt v o.ty o.a l) (s.opInt v o.ty o.b l)
    resBits o.ty (if o.sat then clampTo o.ty x else wrapTo o.ty x)

/-- An integer of one source (R174). -/
def State.vint1 (s : State) (o : VUn) (f : Int → Int) : Out :=
  s.lanewise (unRegs o) o.p o.ty.pair o.d fun v l =>
    let x := f (s.opInt v o.ty o.a l)
    resBits o.ty (if o.sat then clampTo o.ty x else wrapTo o.ty x)

/-- Bits of two sources under X (R179). -/
def State.vbits2 (s : State) (o : VBin) (f : Nat → Nat → Nat) : Out :=
  s.lanewise (binRegs o) o.p o.ty.pair o.d fun v l =>
    f (s.opBits v o.ty o.a l) (s.opBits v o.ty o.b l) % 2 ^ o.ty.bits

/-- A shift: the count is the 32-bit operand, mod the width (R171, R179). -/
def State.vshift (s : State) (o : VBin) (f : Nat → Nat → Nat) : Out :=
  s.lanewise (binRegs o) o.p o.ty.pair o.d fun v l =>
    f (s.opBits v o.ty o.a l) (s.opBits v .n32 o.b l % o.ty.bits) % 2 ^ o.ty.bits

/-- VADD (R174). -/
def execVadd (o : VBin) (s : State) : Out := s.vint2 o fun a b => a + b
/-- VSUB (R174). -/
def execVsub (o : VBin) (s : State) : Out := s.vint2 o fun a b => a - b
/-- VMUL (R174). -/
def execVmul (o : VBin) (s : State) : Out := s.vint2 o fun a b => a * b
/-- VMULH (R174): floor of the product over 2^w. -/
def execVmulh (o : VBin) (s : State) : Out := s.vint2 o fun a b => a * b / (2 ^ o.ty.bits : Nat)
/-- VMAD (R174). -/
def execVmad (o : VTri) (s : State) : Out :=
  s.lanewise (triRegs o) o.p o.ty.pair o.d fun v l =>
    let x := s.opInt v o.ty o.a l * s.opInt v o.ty o.b l + s.opInt v o.ty o.c l
    resBits o.ty (if o.sat then clampTo o.ty x else wrapTo o.ty x)
/-- VMIN (R174). -/
def execVmin (o : VBin) (s : State) : Out := s.vint2 o fun a b => min a b
/-- VMAX (R174). -/
def execVmax (o : VBin) (s : State) : Out := s.vint2 o fun a b => max a b
/-- VABS (R174). -/
def execVabs (o : VUn) (s : State) : Out := s.vint1 o fun a => (a.natAbs : Int)
/-- VNEG (R174). -/
def execVneg (o : VUn) (s : State) : Out := s.vint1 o fun a => -a

/-- The sum or difference with carry: the value and the carry or borrow out (R175). -/
def State.carryOp (s : State) (o : VCarry) (f : Int → Int → Int → Int) (out : Int → Bool) : Out :=
  s.onSlot fun v =>
    if outOfWindow v (o.d.toNat :: vsrcRegs o.a ++ vsrcRegs o.b) then .next (s.trap cILLEGAL)
    else
      let m := effMask v o.p
      let x := fun l => f (s.opInt v .n32 o.a l) (s.opInt v .n32 o.b l) (if (kread v o.kc).getLsbD l then 1 else 0)
      let t := s.writeRegs v.bid v.wid (laneWrites false o.d m fun l => resBits .n32 (wrapTo .n32 (x l)))
      .next (t.writeMask v o.kd m fun l => out (x l)).retire

/-- VADDC (R175). -/
def execVaddc (o : VCarry) (s : State) : Out := s.carryOp o (fun a b c => a + b + c) fun x => decide (2 ^ 32 ≤ x)
/-- VSUBB (R175). -/
def execVsubb (o : VCarry) (s : State) : Out := s.carryOp o (fun a b c => a - b - c) fun x => decide (x < 0)

/-- VSAT (R176): a taken as signed, clamped into the range of width w. -/
def execVsat (o : VBin) (s : State) : Out :=
  s.lanewise (binRegs o) o.p o.ty.pair o.d fun v l =>
    let a := intOf (if o.ty.pair then .s64 else .s32) (s.opBits v o.ty o.a l)
    let w := max 1 (min o.ty.bits (s.opBits v .n32 o.b l))
    resBits o.ty (if o.ty.isSigned then max (-(2 ^ (w - 1) : Nat)) (min ((2 ^ (w - 1) : Nat) - 1) a)
      else max 0 (min ((2 ^ w : Nat) - 1) a))

/-- VDOT4 (R177): four products of bytes and C, exactly, then one wrap or clamp as s32. -/
def execVdot4 (o : VTri) (s : State) : Out :=
  s.lanewise (triRegs o) o.p false o.d fun v l =>
    let a := s.opBits v .b32 o.a l
    let b := s.opBits v .b32 o.b l
    let x := (List.range 4).foldl (fun x i => x + intOf o.ty (a / 256 ^ i) * intOf o.ty (b / 256 ^ i)) (s.opInt v .s32 o.c l)
    resBits .s32 (if o.sat then clampTo .s32 x else wrapTo .s32 x)

/-- VCLZ (R178): a 32-bit result. -/
def execVclz (o : VUn) (s : State) : Out :=
  s.lanewise (unRegs o) o.p false o.d fun v l => clz (s.opBits v o.ty o.a l) o.ty.bits
/-- VPOPC (R178): a 32-bit result. -/
def execVpopc (o : VUn) (s : State) : Out :=
  s.lanewise (unRegs o) o.p false o.d fun v l => popc (s.opBits v o.ty o.a l) o.ty.bits

/-- VAND (R179). -/
def execVand (o : VBin) (s : State) : Out := s.vbits2 o Nat.land
/-- VOR (R179). -/
def execVor (o : VBin) (s : State) : Out := s.vbits2 o Nat.lor
/-- VXOR (R179). -/
def execVxor (o : VBin) (s : State) : Out := s.vbits2 o Nat.xor
/-- VNOT (R179). -/
def execVnot (o : VUn) (s : State) : Out :=
  s.lanewise (unRegs o) o.p o.ty.pair o.d fun v l => 2 ^ o.ty.bits - 1 - s.opBits v o.ty o.a l
/-- VSHL (R179). -/
def execVshl (o : VBin) (s : State) : Out := s.vshift o fun a n => a * 2 ^ n
/-- VSHR (R179). -/
def execVshr (o : VBin) (s : State) : Out := s.vshift o fun a n => a / 2 ^ n
/-- VSRA (R179): filled with the top bit of a. -/
def execVsra (o : VBin) (s : State) : Out :=
  s.vshift o fun a n => ((intOf (if o.ty.pair then .s64 else .s32) a / (2 ^ n : Nat)) % (2 ^ o.ty.bits : Nat)).toNat

/-- VBFX (R180). -/
def execVbfx (o : VField) (s : State) : Out :=
  s.lanewise (o.d.toNat :: vsrcRegs o.a) o.p false o.d fun v l =>
    (bitField o.ty.isSigned (BitVec.ofNat 64 (s.opBits v .b32 o.a l)) o.pos.toNat o.len.toNat).toNat % 2 ^ 32
/-- VBFI (R180): the other bits of the destination stay. -/
def execVbfi (o : VField) (s : State) : Out :=
  s.lanewise (o.d.toNat :: vsrcRegs o.a) o.p false o.d fun v l =>
    let d := s.opBits v .b32 (.vec o.d) l
    let a := s.opBits v .b32 o.a l
    d - d / 2 ^ o.pos.toNat % 2 ^ o.len.toNat * 2 ^ o.pos.toNat + a % 2 ^ o.len.toNat * 2 ^ o.pos.toNat

/-- VSEL (R181). -/
def execVsel (p : Pred) (ty : Ty) (d : VNum) (a b : VSrc) (kc : KNum) (s : State) : Out :=
  s.lanewise (d.toNat :: vsrcRegs a ++ vsrcRegs b) p ty.pair d fun v l =>
    if (kread v kc).getLsbD l then s.opBits v ty a l else s.opBits v ty b l

/-- VCMP (R147, R172, R181). -/
def execVcmp (o : VCmp) (s : State) : Out :=
  s.onSlot fun v =>
    if outOfWindow v (vsrcRegs o.a ++ vsrcRegs o.b) then .next (s.trap cILLEGAL)
    else .next (s.writeMask v o.kd (effMask v o.p) fun l =>
      condInt o.cond (s.opInt v o.ty o.a l) (s.opInt v o.ty o.b l)).retire

/-- VMOV (R181). -/
def execVmov (o : VUn) (s : State) : Out :=
  s.lanewise (unRegs o) o.p o.ty.pair o.d fun v l => s.opBits v o.ty o.a l
/-- VLI (R181). -/
def execVli (p : Pred) (d : VNum) (x : BitVec 32) (s : State) : Out :=
  s.lanewise [d.toNat] p false d fun _ _ => x.toNat
/-- VMOVS (R181): lane n whatever the mask. -/
def execVmovs (ty : Ty) (d : SReg) (a : VSrc) (n : BitVec 8) (s : State) : Out :=
  s.onSlot fun v =>
    if outOfWindow v (vsrcRegs a) ∨ 31 < n.toNat then .next (s.trap cILLEGAL)
    else .next (s.putScalar d (BitVec.ofNat 64 (s.opBits v ty a n.toNat)))

end Sys2Proof.Machine
end

