-- ==== Sys2Proof/Machine/Float.lean ====
section
/-! DEFINITION. Majors 0x0C to 0x0E, 0x10 and 0x11: floating point, conversion, containers, and the correctly rounded
functions (R182 to R192). -/

namespace Sys2Proof.Machine

/-- The rounded lanes of a float instruction: an exception that FPXEN enables traps FPX and nothing is written (R182,
R184). -/
def State.fltLanes (s : State) (regs : List Nat) (p : Pred) (pair : Bool) (d : VNum) (f : View → Nat → Nat × Exc) : Out :=
  s.onSlot fun v =>
    let m := effMask v p
    if outOfWindow v regs then .next (s.trap cILLEGAL)
    else if anyMeets ((lanesOf m).map fun l => (f v l).2) v.b.kern.fpxen then .next (s.trap cFPX)
    else .next (s.writeRegs v.bid v.wid (laneWrites pair d m fun l => (f v l).1)).retire

/-- A float of two sources: the exact value with its validity, rounded once (R184). -/
def State.flt2 (s : State) (o : VBin) (f : FVal → FVal → FVal × Bool) : Out :=
  s.fltLanes (binRegs o) o.p o.ty.pair o.d fun v l =>
    let y := f (s.opFlt v o.ty o.a l) (s.opFlt v o.ty o.b l)
    let r := (fmtOf o.ty).round o.rm y.1
    (r.1, if y.2 then Exc.invalid else r.2)

/-- A float of two sources that neither rounds nor raises (R184). -/
def State.fltExact2 (s : State) (o : VBin) (f : FVal → FVal → FVal) : Out :=
  s.lanewise (binRegs o) o.p o.ty.pair o.d fun v l =>
    ((fmtOf o.ty).round .rn (f (s.opFlt v o.ty o.a l) (s.opFlt v o.ty o.b l))).1

/-- FADD (R184). -/
def execFadd (o : VBin) (s : State) : Out := s.flt2 o (FVal.add o.rm)
/-- FSUB (R184). -/
def execFsub (o : VBin) (s : State) : Out := s.flt2 o fun a b => a.add o.rm b.neg
/-- FMUL (R184). -/
def execFmul (o : VBin) (s : State) : Out := s.flt2 o FVal.mul
/-- FFMA (R184): one rounding. -/
def execFfma (o : VTri) (s : State) : Out :=
  s.fltLanes (triRegs o) o.p o.ty.pair o.d fun v l =>
    let y := FVal.fma o.rm (s.opFlt v o.ty o.a l) (s.opFlt v o.ty o.b l) (s.opFlt v o.ty o.c l)
    let r := (fmtOf o.ty).round o.rm y.1
    (r.1, if y.2 then Exc.invalid else r.2)
/-- FMIN (R184). -/
def execFmin (o : VBin) (s : State) : Out := s.fltExact2 o FVal.minNum
/-- FMAX (R184). -/
def execFmax (o : VBin) (s : State) : Out := s.fltExact2 o FVal.maxNum

/-- FABS (R185): the sign bit cleared. -/
def execFabs (o : VUn) (s : State) : Out :=
  s.lanewise (unRegs o) o.p o.ty.pair o.d fun v l => s.opBits v o.ty o.a l % 2 ^ (o.ty.bits - 1)
/-- FNEG (R185): the sign bit inverted. -/
def execFneg (o : VUn) (s : State) : Out :=
  s.lanewise (unRegs o) o.p o.ty.pair o.d fun v l => Nat.xor (s.opBits v o.ty o.a l) (2 ^ (o.ty.bits - 1))
/-- FCLASS (R185): a 32-bit class word. -/
def execFclass (o : VUn) (s : State) : Out :=
  s.lanewise (unRegs o) o.p false o.d fun v l => (fmtOf o.ty).classOf (s.opBits v o.ty o.a l)
/-- FFLOOR (R185). -/
def execFfloor (o : VUn) (s : State) : Out :=
  s.lanewise (unRegs o) o.p o.ty.pair o.d fun v l =>
    ((fmtOf o.ty).round .rn ((s.opFlt v o.ty o.a l).integral .rd).1).1
/-- FRINT (R185). -/
def execFrint (o : VUn) (s : State) : Out :=
  s.lanewise (unRegs o) o.p o.ty.pair o.d fun v l =>
    ((fmtOf o.ty).round .rn ((s.opFlt v o.ty o.a l).integral o.rm).1).1

/-- a times 2^b (R185). An exponent beyond 8,192 either way rounds as 8,192 does in every format. -/
def FVal.scale (a : FVal) (b : Int) : FVal :=
  match a with
  | .fin neg m e => .fin neg m (e + max (-8192) (min 8192 b))
  | x => x

/-- FSCALE (R185). -/
def execFscale (o : VBin) (s : State) : Out :=
  s.fltLanes (binRegs o) o.p o.ty.pair o.d fun v l =>
    (fmtOf o.ty).round o.rm ((s.opFlt v o.ty o.a l).scale (s.opInt v .s32 o.b l))

/-- FCMP (R172, R186). -/
def execFcmp (o : VCmp) (s : State) : Out :=
  s.onSlot fun v =>
    if outOfWindow v (vsrcRegs o.a ++ vsrcRegs o.b) then .next (s.trap cILLEGAL)
    else .next (s.writeMask v o.kd (effMask v o.p) fun l =>
      condFloat o.cond (s.opFlt v o.ty o.a l) (s.opFlt v o.ty o.b l)).retire

/-- Whether a type counts as an integer for CVT (R188). -/
def cvtInt (t : Ty) : Bool := t.isInt || decide (t = .s4)
/-- Whether a type is tapered (R57). -/
def isTapered (t : Ty) : Bool := decide (t = .t8) || decide (t = .t6) || decide (t = .t4)

/-- The value of a source of CVT (R57, R60, R188). -/
def cvtVal (t : Ty) (x : Nat) : FVal :=
  if cvtInt t then FVal.ofInt (intOf t x)
  else if isTapered t then taperedVal (taperedN t) (taperedEs t) x
  else (fmtOf t).read x

/-- Convert one lane (R62, R188): the bits written and the exceptions. -/
def cvtLane (dt st : Ty) (sat : Bool) (x : Nat) : Nat × Exc :=
  if cvtInt dt then
    if cvtInt st then (resBits dt (if sat then clampTo dt (intOf st x) else wrapTo dt (intOf st x)), Exc.none)
    else
      let r := toInteger dt (cvtVal st x)
      (resBits dt r.1, if isTapered st then Exc.none else r.2)
  else if isTapered dt then (toTapered dt (cvtVal st x), Exc.none)
  else
    let r := (fmtOf dt).round .rn (cvtVal st x)
    (r.1, if isTapered st then Exc.none else r.2)

/-- CVT (R188). -/
def execCvt (p : Pred) (dt st : Ty) (sat : Bool) (d : VNum) (a : VSrc) (s : State) : Out :=
  s.fltLanes (d.toNat :: vsrcRegs a) p dt.pair d fun v l => cvtLane dt st sat (s.opBits v st a l)

/-- PACK (R189, R190). -/
def execPack (ty : Ty) (d : VNum) (a : VSrc) (q : BitVec 8) (s : State) : Out :=
  s.onSlot fun v =>
    if v.w.split ∨ outOfWindow v (d.toNat :: vsrcRegs a) ∨ 7 < q.toNat then .next (s.trap cILLEGAL)
    else
      let c := mkCont ty ((List.range (contE ty)).map fun e => s.opBits v .b32 a e)
      .next (s.vmerge v.bid v.wid d.toNat (0xF <<< (4 * q.toNat)) (BitVec.ofNat 1024 (c * 2 ^ (128 * q.toNat)))).retire

/-- Container q of a source (R189). -/
def State.contOf (s : State) (v : View) (a : VSrc) (q : Nat) : Nat :=
  (List.range 4).foldl (fun x j => x + s.opBits v .b32 a (4 * q + j) * 2 ^ (32 * j)) 0

/-- UNPACK (R64, R189, R191). -/
def execUnpack (ty : Ty) (d : VNum) (a : VSrc) (q : BitVec 8) (s : State) : Out :=
  s.onSlot fun v =>
    if v.w.split ∨ outOfWindow v (d.toNat :: vsrcRegs a) ∨ 7 < q.toNat then .next (s.trap cILLEGAL)
    else
      let c := s.contOf v a q.toNat
      if !contOk ty c then .next s.uceCur
      else .next (s.vmerge v.bid v.wid d.toNat 0xFFFFFFFF (ofLanes fun e =>
        if e < contE ty then
          (if ty = .s4 then BitVec.ofInt 32 (s4Val (contEl ty c e)) else BitVec.ofNat 32 (contEl ty c e))
        else 0)).retire

/-- CTAG (R189, R192). -/
def execCtag (ty : Ty) (d : SReg) (a : VSrc) (s : State) : Out :=
  s.onSlot fun v =>
    if v.w.split ∨ outOfWindow v (vsrcRegs a) then .next (s.trap cILLEGAL)
    else
      let x := (List.range 8).foldl (fun x q =>
        let c := s.contOf v a q
        x + contTagOf c * 16 ^ q + (if contParOk c then 2 ^ (32 + q) else 0) + (if contOk ty c then 2 ^ (40 + q) else 0)) 0
      .next (s.putScalar d (BitVec.ofNat 64 x))

/-- An instruction of major 0x11: rounded with round_even; it completes later under its lookahead, but at once while FPXEN
is not zero (R127, R183, R187). -/
def State.fltLong (s : State) (regs : List Nat) (p : Pred) (pair : Bool) (d : VNum) (la : Look)
    (f : View → Nat → Nat × Exc) : Out :=
  s.onSlot fun v =>
    let m := effMask v p
    if outOfWindow v regs then .next (s.trap cILLEGAL)
    else if anyMeets ((lanesOf m).map fun l => (f v l).2) v.b.kern.fpxen then .next (s.trap cFPX)
    else .next (s.issueRegs v (if v.b.kern.fpxen = 0 then la.toNat else 0) (laneWrites pair d m fun l => (f v l).1))

/-- A one-source instruction of major 0x11. -/
def State.fltLong1 (s : State) (o : VUn) (f : FVal → Nat × Exc) : Out :=
  s.fltLong (unRegs o) o.p o.ty.pair o.d o.la fun v l => f (s.opFlt v o.ty o.a l)

/-- FDIV (R187). -/
def execFdiv (o : VBin) (s : State) : Out :=
  s.fltLong (binRegs o) o.p o.ty.pair o.d o.la fun v l =>
    (fmtOf o.ty).div .rn (s.opFlt v o.ty o.a l) (s.opFlt v o.ty o.b l)
/-- FSQRT (R187). -/
def execFsqrt (o : VUn) (s : State) : Out := s.fltLong1 o (fmtOf o.ty).sqrt
/-- FRCP (R187). -/
def execFrcp (o : VUn) (s : State) : Out := s.fltLong1 o (fmtOf o.ty).rcp
/-- FRSQ (R187). -/
def execFrsq (o : VUn) (s : State) : Out := s.fltLong1 o (fmtOf o.ty).rsq
/-- FEXP2 (R187). -/
def execFexp2 (o : VUn) (s : State) : Out := s.fltLong1 o (fmtOf o.ty).exp2
/-- FLOG2 (R187). -/
def execFlog2 (o : VUn) (s : State) : Out := s.fltLong1 o (fmtOf o.ty).log2

end Sys2Proof.Machine
end

