-- ==== Sys2Proof/Machine/Planes.lean ====
section
/-! DEFINITION. Planes: fold registers and records (R76, R77, R84, R85), where elements live (R78 to R80), schedules (R86,
R88), the computing instructions (R196 to R198), matching between waves (R82, R199), and PLD and PST (R212). -/

namespace Sys2Proof.Machine

/-- A fold register read field by field (R76); extents and grid are the numbers themselves. -/
structure Fold where
  ty : Ty
  patchX : Bool
  patchY : Bool
  pack : Nat
  gx : Nat
  gy : Nat
  vx : Nat
  vy : Nat
  depth : Nat
  vz : Nat
  vw : Nat
  zs : Nat
  ws : Nat
  /-- Fill codes: XLO, XHI, YLO, YHI, ZLO, ZHI, WLO, WHI. -/
  fills : List Nat
  ix : Nat
  set : Bool
  deriving DecidableEq, Repr

/-- Bits [hi:lo] of 128 bits. -/
def bits128 (x : BitVec 128) (hi lo : Nat) : Nat := x.toNat / 2 ^ lo % 2 ^ (hi - lo + 1)

/-- Read a fold register; a TYPE of 0 is unset (R76). -/
def foldOf (x : BitVec 128) : Fold :=
  { ty := (Ty.ofCode (BitVec.ofNat 5 (bits128 x 35 31))).getD .none, patchX := x.getLsbD 36, patchY := x.getLsbD 37,
    pack := bits128 x 39 38, gx := bits128 x 44 40 + 1, gy := bits128 x 49 45 + 1, vx := bits128 x 61 50 + 1,
    vy := bits128 x 73 62 + 1, depth := bits128 x 75 74, vz := bits128 x 82 76 + 1, vw := bits128 x 89 83 + 1,
    zs := bits128 x 96 90, ws := bits128 x 103 97,
    fills := (List.range 8).map fun i => bits128 x (105 + 2 * i) (104 + 2 * i),
    ix := bits128 x 127 120, set := decide (bits128 x 35 31 ≠ 0) }

/-- Positions of an axis that each lane holds (R78). -/
def Fold.nx (f : Fold) : Nat := (f.vx + f.gx - 1) / f.gx
def Fold.ny (f : Fold) : Nat := (f.vy + f.gy - 1) / f.gy

/-- The packing factor (R77). -/
def Fold.pk (f : Fold) : Nat := 32 / max 8 f.ty.bits

/-- Elements in one register. -/
def Fold.slots (f : Fold) : Nat := if f.pack = 0 then 1 else f.pk

/-- Registers of one plane, and of the whole (R80). -/
def Fold.p (f : Fold) : Nat := if f.pack = 0 then f.nx * f.ny else f.nx * f.ny / f.pk
def Fold.t (f : Fold) : Nat := f.p + (f.vz - 1) * f.zs + (f.vw - 1) * f.ws

/-- The extent of an axis. -/
def Fold.ext (f : Fold) : Axis → Nat
  | .x => f.vx
  | .y => f.vy
  | .z => f.vz
  | .w => f.vw

/-- A position of the virtual plane. -/
structure Elt where
  x : Nat
  y : Nat
  z : Nat
  w : Nat
  deriving DecidableEq, Repr

def Elt.at (e : Elt) : Axis → Nat
  | .x => e.x
  | .y => e.y
  | .z => e.z
  | .w => e.w
def Elt.put (e : Elt) (a : Axis) (i : Nat) : Elt :=
  match a with
  | .x => { e with x := i }
  | .y => { e with y := i }
  | .z => { e with z := i }
  | .w => { e with w := i }

/-- Where an element lives: grid lane, wave, register offset and slot (R78). -/
def Fold.place (f : Fold) (e : Elt) : Nat × Nat × Nat × Nat :=
  let gx := if f.patchX then e.x / f.nx else e.x % f.gx
  let ix := if f.patchX then e.x % f.nx else e.x / f.gx
  let gy := if f.patchY then e.y / f.ny else e.y % f.gy
  let iy := if f.patchY then e.y % f.ny else e.y / f.gy
  let d := e.z * f.zs + e.w * f.ws
  match f.pack with
  | 2 => (gx, gy, ix * (f.ny / f.pk) + iy / f.pk + d, iy % f.pk)
  | 1 => (gx, gy, iy * (f.nx / f.pk) + ix / f.pk + d, ix % f.pk)
  | _ => (gx, gy, iy * f.nx + ix + d, 0)

/-- The depth and the offset inside one plane of a register offset; none for a register between planes (R80). -/
def Fold.depthOf (f : Fold) (r : Nat) : Option (Nat × Nat × Nat) :=
  let w := if f.ws = 0 then 0 else min (r / f.ws) (f.vw - 1)
  let r := r - w * f.ws
  let z := if f.zs = 0 then 0 else min (r / f.zs) (f.vz - 1)
  let r := r - z * f.zs
  if r < f.p then some (z, w, r) else none

/-- The element that a register position holds; none for a pad position (R79). -/
def Fold.elt (f : Fold) (gx gy r slot : Nat) : Option Elt :=
  match f.depthOf r with
  | none => none
  | some (z, w, q) =>
    let ixy := match f.pack with
      | 2 => (q / (f.ny / f.pk), q % (f.ny / f.pk) * f.pk + slot)
      | 1 => (q % (f.nx / f.pk) * f.pk + slot, q / (f.nx / f.pk))
      | _ => (q % f.nx, q / f.nx)
    let x := if f.patchX then gx * f.nx + ixy.1 else ixy.1 * f.gx + gx
    let y := if f.patchY then gy * f.ny + ixy.2 else ixy.2 * f.gy + gy
    if x < f.vx ∧ y < f.vy then some ⟨x, y, z, w⟩ else none

/-- The bits of an element in a register (R78). -/
def Fold.get (f : Fold) (x : Word32) (slot : Nat) : Nat := x.toNat / 2 ^ (f.ty.bits * slot) % 2 ^ f.ty.bits

/-- Put an element into a register: packed into its slot, else extended over the whole (R78). -/
def Fold.ins (f : Fold) (x : Word32) (slot e : Nat) : Word32 :=
  if f.pack = 0 then BitVec.ofNat 32 (extBits f.ty e)
  else BitVec.ofNat 32 (x.toNat - f.get x slot * 2 ^ (f.ty.bits * slot) + e % 2 ^ f.ty.bits * 2 ^ (f.ty.bits * slot))

/-- The grid lanes as a mask. -/
def Fold.mask (f : Fold) : Word32 := BitVec.ofNat 32 (2 ^ f.gx - 1)

/-- Whether a fold register image is valid in a block (R76, R77, R80). -/
def Fold.ok (f : Fold) (x : BitVec 128) (width height : Nat) : Bool :=
  let fill := fun i => (f.fills[i]?).getD 0
  decide (bits128 x 30 0 = 0)
    && (match f.ty with
      | .s8 => true | .n8 => true | .s16 => true | .n16 => true | .s32 => true | .n32 => true | .f16 => true
      | .bf16 => true | .f32 => true | .b32 => true
      | _ => false)
    && decide (f.gx ≤ width) && decide (f.gy ≤ height)
    && (List.range 4).all (fun a => decide ((fill (2 * a) = 1) = (fill (2 * a + 1) = 1)))
    && (match f.pack with
      | 0 => true
      | 1 => decide (f.ty.bits < 32) && f.patchX && decide (f.nx % f.pk = 0)
      | 2 => decide (f.ty.bits < 32) && f.patchY && decide (f.ny % f.pk = 0)
      | _ => false)
    && (match f.depth with
      | 0 => decide (f.zs = 0) && decide (f.ws = 0) && decide (f.vz = 1) && decide (f.vw = 1)
      | 1 => decide (f.p ≤ f.zs) && decide (f.ws = 0) && decide (f.vw = 1)
      | 2 => decide (f.p ≤ f.zs) && decide (f.zs * f.vz ≤ f.ws)
      | _ => false)
    && decide (f.t ≤ 128)

/-- A step word (R84). -/
structure PStep where
  mask : Nat
  permute : Bool
  axisY : Bool
  lanes : Int
  src : Nat
  dst : Nat
  dst2 : Option Nat
  whole : Bool
  sslot : Nat
  dslot : Nat

/-- Read a step word (R84). -/
def stepOf (x : BitVec 128) : PStep :=
  let ln := bits128 x 60 55
  { mask := bits128 x 127 96, permute := x.getLsbD 62, axisY := x.getLsbD 61,
    lanes := if ln < 32 then (ln : Int) else (ln : Int) - 64, src := bits128 x 54 48, dst := bits128 x 47 41,
    dst2 := if bits128 x 40 34 = 0x7F then none else some (bits128 x 40 34), whole := x.getLsbD 33,
    sslot := bits128 x 32 31, dslot := bits128 x 30 29 }

/-- The grid extent along a step's axis. -/
def Fold.grid (f : Fold) (y : Bool) : Nat := if y then f.gy else f.gx

/-- Whether a step word is valid, apart from its offsets (R84, R85). A plane with PACK = 0 has one slot: its steps name slot 0. In a
refold between folds of different PACK the source's fold decides (log 50). -/
def Fold.stepOk (f : Fold) (x : BitVec 128) : Bool :=
  let s := stepOf x
  let g := f.grid s.axisY
  decide (bits128 x 95 64 = 0) && decide (bits128 x 28 0 = 0) && !x.getLsbD 63 && decide (s.mask < 2 ^ g)
    && (if s.permute then s.dst2.isNone && decide (s.lanes = 0) else decide (s.lanes.natAbs < g))
    && decide (s.sslot < f.slots) && decide (s.dslot < f.slots) && (s.whole || decide (f.pack ≠ 0))

/-- A schedule entry (R84): OP, AXIS, ARG as its 16 bits, FIRST, COUNT. -/
structure PEnt where
  op : Nat
  axis : Nat
  arg : Nat
  first : Nat
  count : Nat

/-- Read an entry (R84). -/
def entOf (x : Nat) : PEnt :=
  { op := x / 2 ^ 56 % 256, axis := x / 2 ^ 54 % 4, arg := x / 2 ^ 32 % 65536, first := x / 65536 % 65536, count := x % 65536 }

/-- ARG as a signed distance. -/
def PEnt.dist (e : PEnt) : Int := if e.arg < 32768 then (e.arg : Int) else (e.arg : Int) - 65536

/-- Whether an entry runs once over the whole plane (R86). -/
def PEnt.once (e : PEnt) : Bool := decide (e.op < 2) && decide (2 ≤ e.axis)

/-- The axis of a code. -/
def axisOf : Nat → Axis
  | 0 => .x
  | 1 => .y
  | 2 => .z
  | _ => .w

/-- Whether a step's offsets lie below their limits (R85). -/
def offsetsOk (s : PStep) (ls ld : Nat) : Bool :=
  decide (s.src < ls) && decide (s.dst < ld) && (match s.dst2 with
    | some d => decide (d < ld)
    | none => true)

/-- Whether two folds agree as REFOLD needs (R88). -/
def Fold.agrees (f g : Fold) : Bool :=
  decide (f.ty = g.ty) && decide (f.gx = g.gx) && decide (f.gy = g.gy) && decide (f.vx = g.vx) && decide (f.vy = g.vy)
    && decide (f.vz = g.vz) && decide (f.vw = g.vw) && decide (f.depth = g.depth)

/-- A record in memory: image, entries, step words (R84). -/
structure FoldRec where
  image : BitVec 128
  head : List Byte
  ents : List Nat
  steps : List (BitVec 128)

/-- Read a record from its bytes (R84). -/
def recOf (d : List Byte) : FoldRec :=
  let nent := fld d 16 2
  let nstep := fld d 18 2
  let base := (32 + 8 * nent + 15) / 16 * 16
  { image := BitVec.ofNat 128 (fld d 0 16), head := d.take 32,
    ents := (List.range nent).map fun i => fld d (32 + 8 * i) 8,
    steps := (List.range nstep).map fun i => BitVec.ofNat 128 (fld d (base + 16 * i) 16) }

/-- Bytes of a record from its first 32 (R84). -/
def recLen (d : List Byte) : Nat := (32 + 8 * fld d 16 2 + 15) / 16 * 16 + 16 * fld d 18 2

/-- Whether one entry is valid (R79, R84, R85, R88). A transpose entry of a fold that PTRANS cannot have makes the record invalid; a
pass step in an entry of AXIS Z or W does not, and it is run as any other (R80, R88, log 50). -/
def FoldRec.entOk (r : FoldRec) (f : Fold) (nfold : Nat) (target : Nat → Option (BitVec 128)) (x : Nat) : Bool :=
  let e := entOf x
  let tf := if e.op = 2 then (target e.arg).map foldOf else some f
  decide (x / 2 ^ 48 % 64 = 0) && decide (1 ≤ e.count) && decide (e.count ≤ 4096) && decide (e.first + e.count ≤ r.steps.length)
    && (match e.op with
      | 0 => decide (1 ≤ e.dist.natAbs) && decide (e.dist.natAbs < f.ext (axisOf e.axis))
      | 1 => decide (1 ≤ e.dist.natAbs) && decide (e.dist.natAbs < f.ext (axisOf e.axis))
      | 2 => decide (e.axis = 0) && decide (e.arg < nfold) && (match tf with
        | some g => f.agrees g
        | none => false)
      | 3 => decide (e.axis = 0) && decide (e.arg = 0) && decide (f.vx = f.vy) && decide (f.gx = f.gy)
      | _ => false)
    && ((r.steps.drop e.first).take e.count).all fun w =>
      offsetsOk (stepOf w) (if e.once then f.t else f.p) (if e.once then f.t else (tf.getD f).p)

/-- Whether a record is valid (R77, R85). -/
def FoldRec.ok (r : FoldRec) (width height nfold : Nat) (target : Nat → Option (BitVec 128)) : Bool :=
  let f := foldOf r.image
  let keys := r.ents.map fun x => x / 2 ^ 32
  f.ok r.image width height && zeros r.head 20 12 && decide (1 ≤ r.ents.length) && decide (r.ents.length ≤ 64)
    && decide (r.steps.length ≤ 4096) && decide (keys.eraseDups.length = keys.length)
    && r.steps.all f.stepOk && r.ents.all (r.entOk f nfold target)

/-- Read the first n bytes of fold record ix of the issuer's kernel (R194): a header tells its length. -/
def State.foldBytes (s : State) (kern : Kernel) (ix : Nat) (whole : Bool) : MemRes :=
  match s.memGet (kern.foldtab + 8 * ix) 8 with
  | .ok s a =>
    (match s.memGet (leNat a) 32 with
    | .ok s h => if whole ∧ fld h 16 2 ≤ 64 ∧ fld h 18 2 ≤ 4096 then s.memGet (leNat a) (recLen h) else .ok s h
    | r => r)
  | r => r

/-- Read the images of the records that refold entries name (R85). -/
def State.foldTargets (s : State) (kern : Kernel) : List Nat → Tbl (BitVec 128) → MemRes × Tbl (BitVec 128)
  | [], acc => (.ok s [], acc)
  | i :: t, acc =>
    match s.foldBytes kern i false with
    | .ok s d => s.foldTargets kern t (tset acc i (BitVec.ofNat 128 (fld d 0 16)))
    | r => (r, acc)

/-- Read and check the record of FOLDSET (R77, R85): it writes the fold register or traps ILLEGAL. The image's FOLDIX is kept as it
stands there (R76, log 50). -/
def State.foldRecord (s : State) (v : View) (f : FNum) (d : List Byte) : Out :=
  let r := recOf d
  let ts := (r.ents.map entOf).filterMap fun e => if e.op = 2 ∧ e.arg < v.b.kern.nfold then some e.arg else none
  match s.foldTargets v.b.kern ts.eraseDups [] with
  | (.ok t _, tab) =>
    if decide (fld d 16 2 ≤ 64) && decide (fld d 18 2 ≤ 4096) && r.ok v.b.kern.blockX v.b.nwaves v.b.kern.nfold (tget tab) then
      .next (t.modWave v.bid v.wid fun w => { w with folds := cset 0 w.folds f.toNat r.image }).retire
    else .next (s.trap cILLEGAL)
  | (x, _) => s.memStop x 1

/-- FOLDSET (R194). It waits for the slot's instructions in flight (R83). -/
def execFoldset (f : FNum) (ix : BitVec 32) (s : State) : Out :=
  s.onSlot fun v =>
    if v.w.split ∨ v.b.kern.nfold ≤ ix.toNat then .next (s.trap cILLEGAL)
    else if !v.sl.flights.isEmpty then .next (s.completeOldest v.bid v.wid v.k)
    else match s.foldBytes v.b.kern ix.toNat true with
      | .ok t d => t.foldRecord v f d
      | r => s.memStop r 1

/-- The sources of the participating waves: the issue of each, by wave. -/
abbrev Rows := Tbl PlaneIssue

/-- A register of the source plane of a wave. -/
def Rows.reg (rows : Rows) (gy r : Nat) : VReg :=
  match tget rows gy with
  | some i => (i.src[r]?).getD 0
  | none => 0

/-- The destination being built: registers by 128 times the wave plus the offset. -/
abbrev Plane := Tbl VReg
def outKey (gy r : Nat) : Nat := 128 * gy + r

/-- Put the value of a step at a lane of the destination (R86): a slot takes its own bits alone, in a register without packing too
(R88, log 50). -/
def putStep (b : Nat) (whole : Bool) (slot : Nat) (out : Plane) (gx gy r : Nat) (val : Word32) : Plane :=
  let old := cget 0 out (outKey gy r)
  let x := lane old gx
  let m : Word32 := BitVec.ofNat 32 ((2 ^ b - 1) * 2 ^ (b * slot))
  let y := if whole then val else (x &&& ~~~m) ||| ((val <<< (b * slot)) &&& m)
  cset 0 out (outKey gy r) (setLane old gx y)

/-- One step for one grid lane (R86). -/
def runStepLane (f : Fold) (rows : Rows) (so d : Nat) (s : PStep) (out : Plane) (gx gy : Nat) : Plane :=
  let g := f.grid s.axisY
  let p := if s.axisY then gy else gx
  let x := lane (rows.reg gy (so + s.src)) gx
  let val := if s.whole then x else BitVec.ofNat 32 (f.get x s.sslot)
  let q := if s.permute then p else (((p : Int) + s.lanes) % (g : Int)).toNat
  let tx := if s.axisY then gx else q
  let ty := if s.axisY then q else gy
  if s.mask.testBit q then putStep f.ty.bits s.whole s.dslot out tx ty (d + s.dst) val
  else match s.permute, s.dst2 with
    | false, some r => putStep f.ty.bits s.whole s.dslot out tx ty (d + r) val
    | _, _ => out

/-- All steps at one depth (R86). -/
def runSteps (f : Fold) (rows : Rows) (so d : Nat) (steps : List (BitVec 128)) (out : Plane) : Plane :=
  steps.foldl (fun out w => rows.foldl (fun out row =>
    (List.range f.gx).foldl (fun out gx => runStepLane f rows so d (stepOf w) out gx row.1) out) out) out

/-- Zero the pad positions of a destination register of a wave (R79, R86). -/
def Fold.pads (f : Fold) (gy r : Nat) (x : VReg) : VReg :=
  ofLanes fun gx =>
    if gx < f.gx then
      let y := lane x gx
      if f.pack = 0 then (if (f.elt gx gy r 0).isSome then y else 0)
      else (List.range f.pk).foldl (fun y sl => if (f.elt gx gy r sl).isSome then y else f.ins y sl 0) y
    else 0

/-- A binary operation of R196 on element bits. -/
def planeOp (op : RedOp) (t : Ty) (x y : Nat) : Nat :=
  if t.isFloat then
    let f := fmtOf t
    let z := match op with
      | .min => (f.read x).minNum (f.read y)
      | .max => (f.read x).maxNum (f.read y)
      | _ => ((f.read x).add .rn (f.read y)).1
    (f.round .rn z).1
  else match op with
    | .add => (x + y) % 2 ^ t.bits
    | .min => if intOf t x ≤ intOf t y then x else y
    | .max => if intOf t y ≤ intOf t x then x else y
    | .and => Nat.land x y
    | .or => Nat.lor x y

/-- The tree of R196 over n elements from i0. -/
def tree (f : Nat → Nat → Nat) (get : Nat → Nat) : Nat → Nat → Nat → Nat
  | 0, i0, _ => get i0
  | fuel + 1, i0, n =>
    if n ≤ 1 then get i0
    else
      let h := 2 ^ Nat.log2 (n - 1)
      f (tree f get fuel i0 h) (tree f get fuel (i0 + h) (n - h))

/-- An element of the source plane (R78). -/
def Rows.elem (rows : Rows) (f : Fold) (e : Elt) : Nat :=
  let p := f.place e
  f.get (lane (rows.reg p.2.1 p.2.2.1) p.1) p.2.2.2

/-- An out-of-range index of PGATH (R198). -/
def gatherFill (j v fill : Nat) : Option Nat :=
  match fill with
  | 1 => some (j % v)
  | 2 => some (v - 1)
  | 3 => some (if j % (2 * v) < v then j % (2 * v) else 2 * v - j % (2 * v) - 1)
  | _ => none

/-- The code of the HI fill of an axis. -/
def Fold.hiFill (f : Fold) (a : Axis) : Nat := (f.fills[2 * a.code.toNat + 1]?).getD 0

/-- One element of the destination of a computing instruction (R196 to R198): `gy` is the wave that holds it, `pos` its
place. -/
def planeElem (f : Fold) (rows : Rows) (op : PlaneOp) (e : Elt) : Nat :=
  match op with
  | .sched _ _ => 0
  | .spread a => rows.elem f (e.put a 0)
  | .fold a o =>
    if e.at a = 0 then tree (planeOp o f.ty) (fun i => rows.elem f (e.put a i)) 13 0 (f.ext a) else 0
  | .scan a o seg =>
    (List.range (e.at a + 1)).foldl (fun r i =>
      let x := rows.elem f (e.put a i)
      if i = 0 ∨ (decide (i < 32) && seg.getLsbD i) then x else planeOp o f.ty r x) 0
  | .gath a ix =>
    let p := f.place e
    let j := f.get (lane ((ix[p.2.2.1]?).getD 0) p.1) p.2.2.2
    if j < f.ext a then rows.elem f (e.put a j)
    else match gatherFill j (f.ext a) (f.hiFill a) with
      | some j => rows.elem f (e.put a j)
      | none => 0

/-- A destination register of a computing instruction for one wave; pads are zero (R79, R196). -/
def planeReg (f : Fold) (rows : Rows) (op : PlaneOp) (gy r : Nat) : VReg :=
  ofLanes fun gx =>
    if gx < f.gx then
      (List.range f.slots).foldl (fun y sl => match f.elt gx gy r sl with
        | some e => f.ins y sl (planeElem f rows op e)
        | none => y) 0
    else 0

/-- What a wave writes: the registers of its destination plane, in order (R86, R196). -/
def planeRow (rows : Rows) (gy : Nat) : List VReg :=
  match tget rows gy with
  | none => []
  | some i =>
    let f := foldOf i.fold
    let g := foldOf i.fold2
    match i.op with
    | .sched once steps =>
      let out : Plane :=
        if once then runSteps f rows 0 0 steps []
        else (List.range f.vz).foldl (fun out z => (List.range f.vw).foldl (fun out w =>
          runSteps f rows (z * f.zs + w * f.ws) (z * g.zs + w * g.ws) steps out) out) []
      (List.range g.t).map fun r => g.pads gy r (cget 0 out (outKey gy r))
    | op => (List.range f.t).map fun r => planeReg f rows op gy r

/-- The writes of a plane instruction: every grid lane of the destination registers, whatever the mask (R81, R196). -/
def planeWrites (vd : Nat) (m : Word32) (regs : List VReg) : List (VNum × Word32 × VReg) :=
  regs.zipIdx.map fun e => (BitVec.ofNat 7 (vd + e.2), m, e.1)

/-- Whether the steps exchange rows: some pass along Y (R82). -/
def crossSteps (l : List (BitVec 128)) : Bool := l.any fun w => !(stepOf w).permute && (stepOf w).axisY

/-- Fire a matched cross-wave instruction: every wave 0 to GY writes its rows and retires; a difference traps ILLEGAL in
each (R82, R199). -/
def State.planeFire (s : State) (bid : Nat) (rows : Rows) (key : List Nat) : State :=
  let clear := fun (s : State) => s.modBlk bid fun b => { b with
    planeSet := rows.foldl (fun m e => m &&& ~~~ ((1 : Word32) <<< e.1)) b.planeSet,
    waves := rows.foldl (fun t e => tmod t e.1 fun w => { w with plane := none }) b.waves }
  if rows.all fun e => decide (e.2.key = key) then
    clear (rows.foldl (fun (s : State) (e : Nat × PlaneIssue) =>
      ((s.writeRegs bid e.1 (planeWrites e.2.vd (foldOf e.2.fold2).mask (planeRow rows e.1))).modSlot bid e.1 0
        fun x => x.resumeRetired).snapCheck bid) s)
  else
    clear (rows.foldl (fun (s : State) (e : Nat × PlaneIssue) => match s.view bid e.1 0 with
      | some v => s.trapSlot bid e.1 0 cILLEGAL 0 v.sl.ir.pc v.sl.ir.pc
      | none => s) s)

/-- The rows of the waves 0 to GY, when all of them have issued (R82). -/
def Block.planeRows (b : Block) (gy : Nat) : Option Rows :=
  (List.range (gy + 1)).foldr (fun w r => match r, (tget b.waves w).bind fun x => x.plane with
    | some t, some i => some ((w, i) :: t)
    | _, _ => none) (some [])

/-- Fire the lowest waiting instruction whose partners have all issued. -/
def State.planeCheck (s : State) (bid : Nat) : State :=
  match s.blk bid with
  | none => s
  | some b =>
    match b.waves.findSome? fun e => (e.2.plane.bind fun (i : PlaneIssue) =>
      (b.planeRows i.gy).map fun (r : Rows) => (r, i.key)) with
    | some (rows, key) => s.planeFire bid rows key
    | none => s

/-- Issue a plane instruction whose operands are read: alone, or waiting for its partners (R82, R83). -/
def State.planeIssue (s : State) (v : View) (cross : Bool) (i : PlaneIssue) (la : Nat) : State :=
  if cross then
    (s.modBlk v.bid fun b => { b with
      planeSeq := if b.planeSet = 0 then b.planeSeq + 1 else b.planeSeq,
      planeSet := b.planeSet ||| (1 <<< v.wid),
      waves := tmod b.waves v.wid fun w => { (w.setSlot v.k { w.slot v.k with status := .plane, ir := s.ir }) with
        plane := some i } }).planeCheck v.bid
  else s.issueRegs v la (planeWrites i.vd (foldOf i.fold2).mask (planeRow [(v.wid, i)] v.wid))

/-- The checks that every plane instruction passes (R81, R193): the fold is set, TYPE is 0 or the fold's, both planes lie
inside the window. -/
def planeBad (v : View) (ty : Ty) (f g : Fold) (d a : VNum) : Bool :=
  v.w.split || !f.set || !g.set || (decide (ty ≠ .none) && decide (ty ≠ f.ty)) || decide (v.w.win < a.toNat + f.t)
    || decide (v.w.win < d.toNat + g.t)

/-- The fold register of a wave. -/
def Wave.fold (w : Wave) (f : FNum) : BitVec 128 := cget 0 w.folds f.toNat

/-- The registers of a plane as they are at issue (R83). -/
def State.planeSrc (s : State) (v : View) (a n : Nat) : List VReg := (List.range n).map fun r => s.vread v.bid v.w (a + r)

/-- The registers that a plane instruction reads: its source plane, and its destination where the grid leaves lanes out (R41,
R342). -/
def State.planeReads (s : State) (v : View) (rd : List Nat) (g : Fold) (d : Nat) : Except Nat State :=
  s.readRegs v (rd ++ if g.mask = 0xFFFFFFFF then [] else (List.range g.t).map fun r => d + r)

/-- The registers of a plane. -/
def Fold.regsAt (f : Fold) (a : Nat) : List Nat := (List.range f.t).map fun r => a + r

/-- An instruction that runs a schedule entry (R195), found by OP, AXIS and ARG; `cross` says that it exchanges rows whatever its
steps. It reads the record at its issue (R83): a fault that it meets there is its own, and the record is not checked again (log 50). -/
def State.planeSched (s : State) (ty : Ty) (la : Look) (d a : VNum) (fs ft : FNum) (minor op axis : Nat)
    (arg : Fold → Option Nat) (cross : Bool) : Out :=
  s.onSlot fun v =>
    let f := foldOf (v.w.fold fs)
    let g := foldOf (v.w.fold ft)
    if planeBad v ty f g d a then .next (s.trap cILLEGAL)
    else if f.gy ≤ v.wid then .next s.retire
    else if !v.sl.flights.isEmpty then .next (s.completeOldest v.bid v.wid v.k)
    else match s.foldBytes v.b.kern f.ix true with
      | .ok t bytes =>
        let r := recOf bytes
        match r.ents.findIdx? fun x => decide ((entOf x).op = op) && decide ((entOf x).axis = axis) && decide (some (entOf x).arg = arg g) with
        | none => .next (s.trap cILLEGAL)
        | some n =>
          let e := entOf ((r.ents[n]?).getD 0)
          let steps := (r.steps.drop e.first).take e.count
          match t.planeReads v (f.regsAt a.toNat) g d.toNat with
          | .error p => .next (s.uceReg v p)
          | .ok t => .next (t.planeIssue v ((cross || crossSteps steps) && decide (1 < f.gy))
            { key := [f.ix, minor, n, a.toNat, d.toNat], gy := f.gy - 1, op := .sched e.once steps, vd := d.toNat,
              fold := v.w.fold fs, fold2 := v.w.fold ft, src := t.planeSrc v a.toNat f.t } la.toNat)
      | r => s.memStop r 1

/-- A distance as the 16 bits of ARG; none beyond 16 bits (R195). -/
def distArg (d : BitVec 32) : Option Nat := if -32768 ≤ d.toInt ∧ d.toInt ≤ 32767 then some (d.toNat % 65536) else none

/-- REFOLD (R88, R195). -/
def execRefold (ty : Ty) (la : Look) (d a : VNum) (fs ft : FNum) (s : State) : Out :=
  s.planeSched ty la d a fs ft 1 2 0 (fun g => some g.ix) true
/-- PSHIFT (R195). -/
def execPshift (o : PMove) (s : State) : Out :=
  s.planeSched o.ty o.la o.d o.a o.f o.f 2 0 o.axis.code.toNat (fun _ => distArg o.dist) false
/-- PROT (R195). -/
def execProt (o : PMove) (s : State) : Out :=
  s.planeSched o.ty o.la o.d o.a o.f o.f 3 1 o.axis.code.toNat (fun _ => distArg o.dist) false
/-- PTRANS (R88, R195). -/
def execPtrans (ty : Ty) (la : Look) (d a : VNum) (f : FNum) (s : State) : Out :=
  s.planeSched ty la d a f f 8 3 0 (fun _ => some 0) true

/-- A computing instruction (R196 to R199): `bad` are its own checks; `extra` what else must agree. -/
def State.planeCalc (s : State) (o : PComp) (minor : Nat) (extra : List Nat) (bad : Fold → View → Bool)
    (op : View → Fold → PlaneOp) (more : Fold → List Nat := fun _ => []) : Out :=
  s.onSlot fun v =>
    let f := foldOf (v.w.fold o.f)
    if planeBad v o.ty f f o.d o.a || bad f v then .next (s.trap cILLEGAL)
    else if f.gy ≤ v.wid then .next s.retire
    else if !v.sl.flights.isEmpty then .next (s.completeOldest v.bid v.wid v.k)
    else match s.planeReads v (f.regsAt o.a.toNat ++ more f) f o.d.toNat with
      | .error p => .next (s.uceReg v p)
      | .ok s => .next (s.planeIssue v (decide (o.axis = .y) && decide (1 < f.gy))
      { key := [f.ix, minor, o.axis.code.toNat, o.a.toNat, o.d.toNat] ++ extra, gy := f.gy - 1, op := op v f, vd := o.d.toNat,
        fold := v.w.fold o.f, fold2 := v.w.fold o.f, src := s.planeSrc v o.a.toNat f.t } o.la.toNat)

/-- .and and .or are for integers and b32 (R196). -/
def redBad (op : RedOp) (f : Fold) : Bool := f.ty.isFloat && (decide (op = .and) || decide (op = .or))

/-- PSPREAD (R196). -/
def execPspread (o : PComp) (s : State) : Out := s.planeCalc o 4 [] (fun _ _ => false) fun _ _ => .spread o.axis
/-- PFOLD (R196). -/
def execPfold (o : PComp) (op : RedOp) (s : State) : Out :=
  s.planeCalc o 5 [op.code.toNat] (fun f _ => redBad op f) fun _ _ => .fold o.axis op
/-- PSCAN (R196, R197). -/
def execPscan (o : PComp) (op : RedOp) (kseg : KNum) (s : State) : Out :=
  s.planeCalc o 6 [op.code.toNat, kseg.toNat]
    (fun f _ => redBad op f || (decide (kseg ≠ 0) && (decide (o.axis ≠ .x) || decide (1 < f.nx))))
    fun v _ => .scan o.axis op (if kseg = 0 then 0 else kread v kseg)
/-- PGATH (R196, R198). -/
def execPgath (o : PComp) (ix : VNum) (s : State) : Out :=
  s.planeCalc o 7 [ix.toNat] (fun f v => decide (v.w.win < ix.toNat + f.t))
    (fun v f => .gath o.axis (s.planeSrc v ix.toNat f.t)) fun f => f.regsAt ix.toNat

/-- The elements of a plane that one wave holds: lane, register offset, slot and image offset (R78, R212). -/
def Fold.held (f : Fold) (gy : Nat) : List (Nat × Nat × Nat × Nat) :=
  (List.range f.gx).flatMap fun gx => (List.range f.t).flatMap fun r => (List.range f.slots).filterMap fun sl =>
    (f.elt gx gy r sl).map fun e => (gx, r, sl, f.ty.bytes * (e.x + f.vx * (e.y + f.vy * (e.z + f.vz * e.w))))

/-- The accesses of PLD and PST: one for each element a wave holds, at its scratch offset (R212). -/
def planeReqs (f : Fold) (gy : Nat) (base : Word64) : List (Nat × Nat × Nat × Nat) :=
  (f.held gy).map fun e => (e.1, e.2.1, e.2.2.1, (base + BitVec.ofNat 64 e.2.2.2).toNat)

/-- What stops a plane transfer: an element outside the scratch allocation (R96), lowest address first. -/
def planeScrBad (b : Block) (n : Nat) (l : List (Nat × Nat × Nat × Nat)) : Option (Nat × Nat × Nat) :=
  lowestBad (l.flatMap fun e => (LaneReq.parts ⟨e.1, e.2.2.2, 0, 0⟩ n).filterMap fun p =>
    if b.kern.shared < p.va + p.n then some (p.va, e.1, cPROTFAULT) else none)

/-- A plane transfer: the common checks, then the scratch accesses (R96, R116, R212). -/
def State.planeXfer (s : State) (ty : Ty) (d : VNum) (base : SReg) (disp : Option (BitVec 32)) (f : FNum) (writes : Bool)
    (go : State → View → Fold → List (Nat × Nat × Nat × Nat) → State) : Out :=
  s.onSlot fun v =>
    let g := foldOf (v.w.fold f)
    if planeBad v ty g g d d then .next (s.trap cILLEGAL)
    else if g.gy ≤ v.wid then .next s.retire
    else if v.sl.flights.any Flight.isMem then .next (s.completeOldest v.bid v.wid v.k)
    else
      let l := planeReqs g v.wid (sreadW v.w v.k base + dispOf disp)
      match planeScrBad v.b g.ty.bytes l with
      | some (va, lane, code) => .next (s.memFault .again code va lane 0)
      | none =>
        if l.any fun e => v.b.sbWaits e.2.2.2 g.ty.bytes writes then
          .next (s.block v.bid v.wid v.k (.scratch
            { kind := if writes then .store else .load, scratch := true, ty := g.ty, lanes := l.map fun e => ⟨e.1, e.2.2.2, 0, 0⟩,
              ord := .none, scope := .blk, strong := false, vd := none, sd := none, kd := none, cnt := none, pc := s.ir.pc }))
        else if !writes && l.any (fun e => s.scrPoison v.bid v.b e.2.2.2 g.ty.bytes) then .next s.uceCur
        else match if writes then s.readRegs v (g.regsAt d.toNat) else s.planeReads v [] g d.toNat with
          | .error p => .next (s.uceReg v p)
          | .ok s => .next (go s v g l)

/-- PLD (R212): every position the wave holds, pads zero. -/
def execPld (la : Look) (ty : Ty) (d : VNum) (base : SReg) (disp : Option (BitVec 32)) (f : FNum) (s : State) : Out :=
  s.planeXfer ty d base disp f false fun s v g l =>
    let regs := l.foldl (fun (t : Tbl VReg) e =>
      let x := cget 0 t e.2.1
      cset 0 t e.2.1 (setLane x e.1 (g.ins (lane x e.1) e.2.2.1 (leNat (s.scrBytes v.bid v.b e.2.2.2 g.ty.bytes))))) []
    s.issueRegs v la.toNat (planeWrites d.toNat g.mask ((List.range g.t).map fun r => cget 0 regs r))

/-- PST (R212): every element the wave holds, no byte for a pad. -/
def execPst (ty : Ty) (base : SReg) (disp : Option (BitVec 32)) (d : VNum) (f : FNum) (s : State) : Out :=
  s.planeXfer ty d base disp f true fun s v g l =>
    (l.foldl (fun (t : State) e =>
      t.scrWrite v.bid v.b e.2.2.2 (toLE g.ty.bytes (g.get (lane (s.vread v.bid v.w (d.toNat + e.2.1)) e.1) e.2.2.1))) s).retire

end Sys2Proof.Machine
end

