-- ==== Sys2Proof/Machine/Waves.lean ====
section
/-! DEFINITION. Major 0x14: VOTE and REGROUP (R200 to R202). -/

namespace Sys2Proof.Machine

/-- What a slot gives at its VOTE: each lane of its effective mask, with its value and its membership mask (R200). -/
def State.voteIssue (s : State) (v : View) (p : Pred) (op : RedOp) (ty : Ty) (a : VSrc) (m : Option VNum) (g : Nat) : GIssue :=
  { slot := v.k, kind := 1, g := g, m := m.isSome, scope := .blk, op := op, ty := ty,
    lanes := (lanesOf (effMask v p)).map fun l => (l, BitVec.ofNat 32 (s.opBits v ty a l),
      match m with
      | some n => lane (s.vread v.bid v.w n.toNat) l
      | none => 0) }

/-- VOTE (R200, R201): the slot waits until every participant has contributed; one of a group opens the interval (R344). -/
def execVote (p : Pred) (op : RedOp) (ty : Ty) (d : SReg) (a : VSrc) (m : Option VNum) (g : Option (BitVec 8)) (s : State) : Out :=
  s.onSlot fun v =>
    if outOfWindow v (vsrcRegs a ++ (m.map fun n => n.toNat).toList) ∨ s.scalarOver d then .next (s.trap cILLEGAL)
    else match g with
      | none => .next (s.joinGroup v (.vote 256 d (decide (ty = .s32))) (s.voteIssue v p op ty a m 256))
      | some n =>
        match s.groupOf v.b v.w n.toNat with
        | none => .next (s.trap cILLEGAL)
        | some _ =>
          .next ((s.openInterval v.bid).joinGroup v (.vote n.toNat d (decide (ty = .s32))) (s.voteIssue v p op ty a m n.toNat))

/-- REGROUP (R202): the group must hold exactly two members, both waves of the issuing block. -/
def execRegroup (d : SReg) (g : BitVec 8) (s : State) : Out :=
  s.onSlot fun v =>
    match s.groupOf v.b v.w g.toNat with
    | none => .next (s.trap cILLEGAL)
    | some (gr, x, _) =>
      if (gr.alive x).length ≠ 2 ∨ (gr.alive x).any (fun i => decide ((gr.member x i).1 ≠ v.b.blockId)) then .next (s.trap cILLEGAL)
      else .next ((s.openInterval v.bid).joinGroup v (.regroup g.toNat d)
        { slot := v.k, kind := 2, g := g.toNat, m := false, lanes := [], scope := .blk, op := .add, ty := .none })

end Sys2Proof.Machine
end

