-- ==== Sys2Proof/Machine/MemoryOps.lean ====
section
/-! DEFINITION. Majors 0x15, 0x16, 0x18 and 0x19 but for the plane transfers: loads, stores, prefetches, scratch accesses,
atomics and fences (R203 to R217). -/

namespace Sys2Proof.Machine

/-- The requests of the lanes of the effective mask (R204). -/
def State.laneReqs (s : State) (v : View) (p : Pred) (ad : MAddr) (data cmp : Nat → Nat) : List LaneReq :=
  (lanesOf (effMask v p)).map fun l => ⟨l, (s.ea v ad l).toNat, data l, cmp l⟩

/-- A memory instruction of a slot: outside the window it is ILLEGAL (R38), else its access is issued. -/
def State.memOp (s : State) (regs : List Nat) (la : Look) (f : View → Access) : Out :=
  s.onSlot fun v => if outOfWindow v regs then .next (s.trap cILLEGAL) else s.issueAccess v (f v) la.toNat

/-- LD (R204, R206, R207). -/
def execLd (p : Pred) (la : Look) (ty : Ty) (mo : MOrd) (d : VNum) (ad : MAddr) (s : State) : Out :=
  s.memOp (d.toNat :: idxRegs ad.idx) la fun v =>
    { kind := .load, scratch := false, ty := ty, lanes := s.laneReqs v p ad (fun _ => 0) (fun _ => 0), ord := mo.ord,
      scope := mo.scope, strong := mo.strong, vd := some d, sd := none, kd := none, cnt := none, pc := s.ir.pc }

/-- ST (R204 to R206, R208). -/
def execSt (p : Pred) (ty : Ty) (mo : MOrd) (ad : MAddr) (x : MData) (s : State) : Out :=
  s.memOp (idxRegs ad.idx ++ dataRegs x) 0 fun v =>
    { kind := .store, scratch := false, ty := ty, lanes := s.laneReqs v p ad (s.storeBits v ty x) (fun _ => 0), ord := mo.ord,
      scope := mo.scope, strong := mo.strong, vd := none, sd := none, kd := none, cnt := none, pc := s.ir.pc }

/-- ST.cnt (R209, R313): register C holds the address of the barrier object. -/
def execStCnt (p : Pred) (ty : Ty) (ord : Ord) (scope : Scope) (ad : MAddr) (x : MData) (c : SReg) (s : State) : Out :=
  s.memOp (idxRegs ad.idx ++ dataRegs x) 0 fun v =>
    { kind := .store, scratch := false, ty := ty, lanes := s.laneReqs v p ad (s.storeBits v ty x) (fun _ => 0), ord := ord,
      scope := scope, strong := false, vd := none, sd := none, kd := none, cnt := some (s.sread s.cur c).toNat,
      pc := s.ir.pc }

/-- A loaded element as LDC writes it (R207). -/
def ldcVal (ty : Ty) (x : Nat) : Word64 := if ty.isSigned then BitVec.ofInt 64 (intOf ty x) else BitVec.ofNat 64 x

/-- The uniform address of LDC (R204, R206), for a slot or a stream. -/
def State.uniformEa (s : State) (ad : MAddr) : Word64 :=
  let ix : Word64 := match ad.idx with
    | .sca n => s.sread s.cur n
    | .vec _ => 0
  s.sread s.cur ad.base + (ix <<< ad.scale.toNat) + dispOf ad.disp

/-- LDC of a stream (R207, R219): it reads at once. -/
def State.ldcStream (s : State) (ty : Ty) (mo : MOrd) (d : SReg) (ad : MAddr) : Out :=
  match s.memGet (s.uniformEa ad).toNat ty.bytes mo.strong with
  | .ok s x =>
    let s := s.putScalar d (ldcVal ty (leNat x))
    .next (if ordAcqs mo.ord then s.acquireSide (coreOf s.cur.block) mo.scope else s)
  | r => s.memStop r 1

/-- LDC (R206, R207): once, at the uniform address, whatever k0 holds. -/
def execLdc (la : Look) (ty : Ty) (mo : MOrd) (d : SReg) (ad : MAddr) (s : State) : Out :=
  match s.cur with
  | .stream _ _ _ => s.onAny (s.ldcStream ty mo d ad)
  | .slot _ _ _ => s.onSlot fun v =>
    if s.scalarOver d then .next (s.trap cILLEGAL)
    else s.issueAccess v
      { kind := .load, scratch := false, ty := ty, lanes := [⟨0, (s.uniformEa ad).toNat, 0, 0⟩], ord := mo.ord,
        scope := mo.scope, strong := mo.strong, vd := none, sd := some d, kd := none, cnt := none, pc := s.ir.pc } la.toNat

/-- Fill the line of an address into the column cache ways, where that can be done (R207). -/
def State.prefetch (s : State) (bid va : Nat) : State :=
  let c := coreOf bid
  if !anyMode (s.core c).colWays 0 16 then s
  else
    let lo := va / 256 * 256
    match s.locate bid lo ⟨true, false, false⟩ with
    | (s, .ok (.dram pa cell)) =>
      if s.parks pa cell ∨ s.poisoned cell 256 then s
      else [0, 64, 128, 192].foldl (fun (s : State) o => s.fillSector c ((cell + o) / 64)) s
    | (s, .ok (.host pa)) => [0, 64, 128, 192].foldl (fun (s : State) o => (s.hostLoad c false (pa + o) 1).1) s
    | (s, _) => s

/-- PREF (R206, R207): it never faults and no ordering rule counts it. -/
def execPref (p : Pred) (ad : MAddr) (s : State) : Out :=
  s.onSlot fun v =>
    if outOfWindow v (idxRegs ad.idx) then .next (s.trap cILLEGAL)
    else .next ((lanesOf (effMask v p)).foldl (fun (t : State) l => t.prefetch v.bid (s.ea v ad l).toNat) s).retire

/-- LDS (R204, R210, R211). -/
def execLds (p : Pred) (la : Look) (ty : Ty) (d : VNum) (ad : MAddr) (s : State) : Out :=
  s.memOp (d.toNat :: idxRegs ad.idx) la fun v =>
    { kind := .load, scratch := true, ty := ty, lanes := s.laneReqs v p ad (fun _ => 0) (fun _ => 0), ord := .none,
      scope := .blk, strong := false, vd := some d, sd := none, kd := none, cnt := none, pc := s.ir.pc }

/-- STS (R204, R210, R211). -/
def execSts (p : Pred) (ty : Ty) (ad : MAddr) (x : MData) (s : State) : Out :=
  s.memOp (idxRegs ad.idx ++ dataRegs x) 0 fun v =>
    { kind := .store, scratch := true, ty := ty, lanes := s.laneReqs v p ad (s.storeBits v ty x) (fun _ => 0), ord := .none,
      scope := .blk, strong := false, vd := none, sd := none, kd := none, cnt := none, pc := s.ir.pc }

/-- The vector registers an atomic names (R213). -/
def atomRegs : AtomForm → List Nat
  | .noRet d => [d.toNat]
  | .ret d c => (d.map fun n => n.toNat).toList ++ [c.toNat]
  | .cas d _ c => [d.toNat, c.toNat]

/-- The data of an atomic for a lane, and its compare value: vD's lane before the instruction writes it (R213, R214). -/
def State.atomData (s : State) (v : View) (ty : Ty) (f : AtomForm) (l : Nat) : Nat :=
  match f with
  | .noRet d => s.opBits v ty (.vec d) l
  | .ret _ c => s.opBits v ty (.vec c) l
  | .cas _ _ c => s.opBits v ty (.vec c) l
def State.atomCmp (s : State) (v : View) (ty : Ty) (f : AtomForm) (l : Nat) : Nat :=
  match f with
  | .noRet _ => 0
  | .ret (some d) _ => s.opBits v ty (.vec d) l
  | .ret none _ => 0
  | .cas d _ _ => s.opBits v ty (.vec d) l

/-- Where the old value of an atomic goes, and its success bits. -/
def atomDst : AtomForm → Option VNum
  | .noRet _ => none
  | .ret d _ => d
  | .cas d _ _ => some d
def atomMask : AtomForm → Option KNum
  | .cas _ kd _ => some kd
  | _ => none

/-- The access of an atomic (R214): at .dev or .sys it is strong. -/
def State.atomAccess (s : State) (v : View) (p : Pred) (scratch : Bool) (op : AtomOp) (ty : Ty) (ord : Ord) (scope : Scope)
    (ad : MAddr) (f : AtomForm) : Access :=
  { kind := .atomic op, scratch := scratch, ty := ty, lanes := s.laneReqs v p ad (s.atomData v ty f) (s.atomCmp v ty f),
    ord := ord, scope := scope, strong := decide (scope = .dev) || decide (scope = .sys), vd := atomDst f, sd := none,
    kd := atomMask f, cnt := none, pc := s.ir.pc }

/-- ATOM (R213, R214). -/
def execAtom (p : Pred) (la : Look) (op : AtomOp) (ty : Ty) (ord : Ord) (scope : Scope) (ad : MAddr) (f : AtomForm) (s : State) : Out :=
  s.memOp (idxRegs ad.idx ++ atomRegs f) la fun v => s.atomAccess v p false op ty ord scope ad f

/-- ATOMS (R213, R214). -/
def execAtoms (p : Pred) (la : Look) (op : AtomOp) (ty : Ty) (ad : MAddr) (f : AtomForm) (s : State) : Out :=
  s.memOp (idxRegs ad.idx ++ atomRegs f) la fun v => s.atomAccess v p true op ty .none .blk ad f

/-- FENCE (R215 to R217): vertical writes land first, then the release side, then the acquire side. -/
def execFence (kind : Ord) (scope : Scope) (vh : Bool) (s : State) : Out :=
  s.onAny (
    let c := coreOf s.cur.block
    if ordRels kind ∧ s.releaseWaits s.cur scope then .next s.inRelease
    else
      let s := if vh then s.landAll c else s
      let s := if ordRels kind then s.releaseSide c (some s.cur.block) scope else s
      let s := if ordAcqs kind then s.acquireSide c scope else s
      .next s.retire)

end Sys2Proof.Machine
end

