-- ==== Sys2Proof/Machine/Matrix.lean ====
section
/-! DEFINITION. The matrix and counting array, majors 0x1A to 0x1E: operand maps, tiles and shadows, products step by step,
counting, drains, and the issue-budget governor (R34, R65 to R75, R101, R224 to R231, R287). -/

namespace Sys2Proof.Machine

/-- The lowest of GOVBUDGET, the power cap and the thermal cap of the core's stook (R287, R360, R361). -/
def State.govBudgetOf (s : State) (c : Nat) : Nat :=
  let b := (s.core c).govBudget
  let b := match s.fw.powerCap with
    | some p => min b p
    | none => b
  match s.fw.thermal.find? fun e => decide (e.stook = stookOf c) with
  | some e => min b e.cap
  | none => b

/-- Go on to the window of 64 clocks that the clock is in; a hold lasts to the end of its window (R287). -/
def State.govRoll (s : State) (c : Nat) : State :=
  let n := s.clock / 64
  s.modCore c fun k =>
    if k.govWindow = n then k
    else { k.heldTo (64 * (k.govWindow + 1)) with
      govHeld := none, govWho := [], govPrev := if n = k.govWindow + 1 then k.govUsed else 0, govUsed := 0, govWindow := n }

/-- The allowance of the present window; none when there is no cap (R287). -/
def State.govAllow (s : State) (c : Nat) : Option Nat :=
  let b := s.govBudgetOf c
  if 0xFFFF ≤ b then none else some (min (max b 8) ((s.core c).govPrev + max (max b 8 / 4) 8))

/-- Charge an issue of a stream to its window, or hold it (R287): false when held. The clocks count while any issue is held. -/
def State.govern (s : State) (c who cost : Nat) : State × Bool :=
  let others := fun (k : Core) => k.govWho.filter fun x => decide (x ≠ who)
  let s := s.govRoll c
  let go := match s.govAllow c with
    | none => true
    | some a => decide ((s.core c).govUsed + cost ≤ a)
  if go then (s.modCore c fun k => { k.heldTo s.clock with
      govHeld := if (others k).isEmpty then none else some s.clock, govWho := others k, govUsed := k.govUsed + cost }, true)
  else (s.modCore c fun k => { k.heldTo s.clock with govHeld := some s.clock, govWho := who :: others k }, false)

/-- An issue that waits after it was charged is charged when it issues again (R287). -/
def State.uncharge (s : State) (c cost : Nat) : State := s.modCore c fun k => { k with govUsed := k.govUsed - cost }

/-- GOVERNOR_WINDOW (R287): the next window begins for a core. -/
def execGovernorWindow (core : Nat) (s : State) : Out := .next (s.govRoll core)

def Mat.queue (m : Mat) (n : Nat) : List MatOp :=
  if n = 0 then m.queue0 else if n = 1 then m.queue1 else if n = 2 then m.queue2 else m.queue3
def Mat.setQueue (m : Mat) (n : Nat) (q : List MatOp) : Mat :=
  if n = 0 then { m with queue0 := q } else if n = 1 then { m with queue1 := q }
  else if n = 2 then { m with queue2 := q } else { m with queue3 := q }

def State.modMat (s : State) (bid : Nat) (f : Mat → Mat) : State := s.modBlk bid fun b => { b with mat := f b.mat }

/-- An instruction of the matrix stream; any other issuer takes ILLEGAL (R219). -/
def State.onMat (s : State) (f : Nat → Block → Out) : Out :=
  match s.cur with
  | .slot _ _ _ => s.onSlot fun _ => .next (s.trap cILLEGAL)
  | .stream bid e ix => match (s.blk bid).bind fun b => (b.stream e ix).map fun _ => b with
    | none => .fault .noIssuer
    | some b => match e with
      | .mat => f bid b
      | _ => .next (s.trap cILLEGAL)

/-- A matrix instruction that acts at once: it waits until its stream has no product left, then passes the governor (R34,
R224). -/
def State.matNow (s : State) (str : BitVec 2) (cost : Nat) (f : State → Nat → Block → Out) : Out :=
  s.onMat fun bid b =>
    if !(b.mat.queue str.toNat).isEmpty then .next s
    else match s.govern (coreOf bid) (4 * bid + str.toNat) cost with
      | (t, false) => .next t
      | (t, true) => f t bid b

/-- A cell of a tile. -/
def tileCell (t : Tbl Word32) (i j : Nat) : Word32 := cget 0 t (32 * i + j)

/-- A tile from its cells: the zero cells are not listed. -/
def mkTile (f : Nat → Nat → Word32) : Tbl Word32 :=
  (List.range 1024).filterMap fun c => if f (c / 32) (c % 32) = 0 then none else some (c, f (c / 32) (c % 32))

/-- Tile z, or its shadow (R225). -/
def Mat.tile (m : Mat) (spec : Bool) (z : Nat) : Tbl Word32 := cget [] (if spec then m.zs else m.z) z
def Mat.setTile (m : Mat) (spec : Bool) (z : Nat) (t : Tbl Word32) : Mat :=
  if spec then { m with zs := cset [] m.zs z t } else { m with z := cset [] m.z z t }

/-- Write a tile of a block, counting the copy of the snapshot (R343). -/
def State.putTile (s : State) (bid : Nat) (spec : Bool) (z : Nat) (t : Tbl Word32) : State :=
  (s.modMat bid fun m => m.setTile spec z t).touch bid (if spec then .shadow z else .tile z)

/-- Scratch range of a matrix instruction: the bounds before the alignment (R226, R228). -/
def scrRange (b : Block) (off n align : Nat) : Option Nat :=
  if b.kern.shared < off + n then some cPROTFAULT else if off % align ≠ 0 then some cALIGN else none

/-- A fault of a matrix instruction in scratch or in a B view: no walker takes it (R223). -/
def State.matFault (s : State) (code off : Nat) : Out := .next (s.memFault .again code off 0 0)

/-- The types of an operand map (R226). -/
def mapTy : Ty → Bool
  | .f64 => true | .f32 => true | .bf16 => true | .f16 => true | .s8 => true | .t8 => true | .t6 => true | .t4 => true
  | .s4 => true
  | _ => false

/-- MMAP (R226). -/
def execMmap (str : BitVec 2) (m : MNum) (off : BitVec 32) (s : State) : Out :=
  s.matNow str 1 fun s bid b =>
    match scrRange b off.toNat 32 32 with
    | some c => s.matFault c off.toNat
    | none =>
      if s.scrPoison bid b off.toNat 32 then .next s.uceCur
      else
      let d := s.scrBytes bid b off.toNat 32
      let flags := fld d 13 1
      match Ty.ofCode (BitVec.ofNat 5 (fld d 12 1)) with
      | none => .next (s.trap cILLEGAL)
      | some ty =>
        if !mapTy ty ∨ 31 < fld d 12 1 ∨ 3 < flags ∨ flags = 1 ∨ !zeros d 14 18 then .next (s.trap cILLEGAL)
        else
          let r : MapRec := { base := fld d 0 4, lstride := fld d 4 4, kstride := fld d 8 4, ty := ty,
                              bways := decide (flags % 2 = 1), roleB := decide (2 ≤ flags), cursor := 0, shadow := 0 }
          .next (s.modMat bid fun x => { x with maps := tset x.maps m.toNat r }).retire

/-- The ways in B mode, ascending (R101). -/
def Core.bWays (c : Core) : List Nat := (List.range 16).filter fun i => decide (modeAt c.colWays i = 2)

/-- The column-store byte of offset o in column j's B view (R101, R226). -/
def Core.bAddr (c : Core) (j o : Nat) : Nat := ((c.bWays[o / 32768]?).getD 0) * 0x100000 + j * 32768 + o % 32768

/-- Bytes of each column's B view. -/
def Core.bLen (c : Core) : Nat := c.bWays.length * 32768

/-- Write bytes of a column's B view (R227, R343). -/
def State.bWrite (s : State) (bid j o : Nat) (d : List Byte) : State :=
  d.zipIdx.foldl (fun (s : State) (e : Byte × Nat) =>
    let a := (s.core (coreOf bid)).bAddr j (o + e.2)
    (s.modCore (coreOf bid) fun k => { k with column := cset 0 k.column a e.1, columnBad := sectorsLeft k.columnBad a 1 }).touch bid (.columnLine (a / 256))) s

/-- The sources of MLDB, column by column (R227): from scratch, or from global memory as weak loads. -/
def State.mldbCols (s : State) (bid : Nat) (b : Block) (scr : Bool) (dst src stride len : Nat) : Nat → MemRes
  | 0 => .ok s []
  | n + 1 =>
    match s.mldbCols bid b scr dst src stride len n with
    | .ok s _ =>
      let a := (src + n * stride) % 2 ^ 64
      if scr then
        (if b.kern.shared < a + len then .fault s cPROTFAULT a
        else if s.scrPoison bid b a len then .uce s
        else .ok (s.bWrite bid n dst (s.scrBytes bid b a len)) [])
      else (match s.memGet a len with
        | .ok s d => .ok (s.bWrite bid n dst d) []
        | r => r)
    | r => r

/-- MLDB (R227); it waits for a change of COLWAYS (R99). -/
def execMldb (str : BitVec 2) (scr : Bool) (d a b : SReg) (len : BitVec 32) (s : State) : Out :=
  s.matNow str 1 fun s bid blk =>
    let dst := (s.sread s.cur d).toNat
    if !blk.columnRight then .next (s.trap cILLEGAL)
    else if (s.core (coreOf bid)).colChange.isSome then .next (s.uncharge (coreOf bid) 1)
    else if (s.core (coreOf bid)).bLen < dst + len.toNat then s.matFault cPROTFAULT dst
    else match s.mldbCols bid blk scr dst (s.sread s.cur a).toNat (s.sread s.cur b).toNat len.toNat 32 with
      | .ok t _ => .next (t.retire.snapCheck bid)
      | .wait t => .next (t.uncharge (coreOf bid) 1)
      | .stall => .next (s.uncharge (coreOf bid) 1)
      | r => s.memStop r (if scr then 0 else 1)

/-- MZERO (R228). -/
def execMzero (str : BitVec 2) (spec : Bool) (z : ZNum) (s : State) : Out :=
  s.matNow str 1 fun s bid _ => .next ((s.putTile bid spec z.toNat []).retire.snapCheck bid)

/-- The scratch offset of a matrix instruction: base plus signed displacement (R228, R231). -/
def State.matOff (s : State) (a : SReg) (disp : BitVec 32) : Nat := (s.sread s.cur a + disp.signExtend 64).toNat

/-- MLDZ (R228): raw cells, transposed under .tr. -/
def execMldz (str : BitVec 2) (spec tr : Bool) (z : ZNum) (a : SReg) (disp : BitVec 32) (s : State) : Out :=
  s.matNow str 1 fun s bid b =>
    let off := s.matOff a disp
    match scrRange b off 4096 4 with
    | some c => s.matFault c off
    | none =>
      if s.scrPoison bid b off 4096 then .next s.uceCur
      else .next ((s.putTile bid spec z.toNat (mkTile fun i j =>
        BitVec.ofNat 32 (leNat (s.scrBytes bid b (off + 4 * (if tr then 32 * j + i else 32 * i + j)) 4)))).retire.snapCheck bid)

/-- Row i of a tile as containers (R63, R228): cells as f32, converted under R62; unused elements take code 0. -/
def rowConts (t : Ty) (row : Nat → Word32) : List Byte :=
  let e := contE t
  let code := fun j => if 32 ≤ j then 0 else (cvtLane t .f32 false (row j).toNat).1 % 2 ^ contW t
  (List.range ((32 + e - 1) / e)).flatMap fun k => toLE 16 (mkCont t ((List.range e).map fun x => code (k * e + x)))

/-- MSTZ (R228). -/
def execMstz (str : BitVec 2) (tr : Bool) (ty : Ty) (a : SReg) (disp : BitVec 32) (z : ZNum) (s : State) : Out :=
  s.matNow str 1 fun s bid b =>
    let off := s.matOff a disp
    let t := b.mat.tile false z.toNat
    let bytes : List Byte := match ty with
      | .none => (List.range 1024).flatMap fun c =>
          toLE 4 (if tr then tileCell t (c % 32) (c / 32) else tileCell t (c / 32) (c % 32)).toNat
      | ty => (List.range 32).flatMap fun i => rowConts ty fun j => tileCell t i j
    match scrRange b off bytes.length (if ty = .none then 4 else 16) with
    | some c => s.matFault c off
    | none => .next ((s.scrWrite bid b off bytes).retire.snapCheck bid)

/-- Bytes of the operand of one step (R226). -/
def stepBytes : Ty → Nat
  | .f32 => 4
  | .f64 => 8
  | .bf16 => 8
  | .f16 => 8
  | _ => 16

/-- The first address of an operand: row or column i, step s of the instruction (R226). -/
def MapRec.addr (m : MapRec) (i s : Nat) : Nat := m.base + (if m.bways then 0 else i * m.lstride) + (m.cursor + s) * m.kstride

/-- Whether every operand of an instruction lies in its space and is aligned: the addresses grow with row and step, so
the last bounds all, and the alignment of all follows from the first, the second row and the second step (R226). -/
def State.mapBad (s : State) (bid : Nat) (b : Block) (m : MapRec) (steps : Nat) : Option Nat :=
  let n := stepBytes m.ty
  let lim := if m.bways then (s.core (coreOf bid)).bLen else b.kern.shared
  if lim < m.addr 31 (steps - 1) + n then some cPROTFAULT
  else if m.addr 0 0 % n ≠ 0 ∨ m.addr 1 0 % n ≠ 0 ∨ (1 < steps ∧ m.addr 0 1 % n ≠ 0) then some cALIGN
  else none

/-- The operand bytes of a step (R226). -/
def State.operand (s : State) (bid : Nat) (b : Block) (m : MapRec) (i st : Nat) : List Byte :=
  let n := stepBytes m.ty
  let a := m.addr i st
  if m.bways then (List.range n).map fun k => cget 0 (s.core (coreOf bid)).column ((s.core (coreOf bid)).bAddr i (a + k))
  else s.scrBytes bid b a n

/-- Whether an operand's bytes are poisoned (R341, R342). -/
def State.operandPoison (s : State) (bid : Nat) (b : Block) (m : MapRec) (i st : Nat) : Bool :=
  if m.bways then sectorsBad (s.core (coreOf bid)).columnBad ((s.core (coreOf bid)).bAddr i (m.addr i st)) (stepBytes m.ty)
  else s.scrPoison bid b (m.addr i st) (stepBytes m.ty)

/-- The element values of an operand, ascending k (R60, R226). -/
def opVals (t : Ty) (d : List Byte) : List FVal :=
  match t with
  | .f64 => [f64F.read (leNat d)]
  | .f32 => [f32F.read (leNat d)]
  | .bf16 => (List.range 4).map fun k => bf16F.read (fld d (2 * k) 2)
  | .f16 => (List.range 4).map fun k => f16F.read (fld d (2 * k) 2)
  | .s8 => d.map fun x => FVal.ofInt x.toInt
  | t => (List.range (contE t)).map fun k => taperedVal (taperedN t) (taperedEs t) (contEl t (leNat d) k)

/-- The exact sum of the products of one step (R65, R66). -/
def dotExact (a b : List FVal) : FVal :=
  match (a.zip b).map fun e => (e.1.mul e.2).1 with
  | [] => .fin false 0 0
  | x :: t => t.foldl (fun r y => (r.add .rn y).1) x

/-- A finite value that is an integer, as one. -/
def FVal.toIntExact : FVal → Int
  | .fin neg m e => sInt neg (m * 2 ^ e.toNat)
  | _ => 0

/-- One step of one cell (R65): the accumulator is 64 bits for f64, else 32. -/
def cellStep (t : Ty) (acc : Nat) (a b : List FVal) : Nat :=
  match t with
  | .f64 => (f64F.round .rn (FVal.fma .rn (a.headD .nan) (b.headD .nan) (f64F.read acc)).1).1
  | .f32 => (f32F.round .rn (FVal.fma .rn (a.headD .nan) (b.headD .nan) (f32F.read acc)).1).1
  | .s8 => (((acc : Int) + (dotExact a b).toIntExact) % 2 ^ 32).toNat
  | _ => (f32F.round .rn ((f32F.read acc).add .rn (dotExact a b)).1).1

/-- A map as an instruction reads it: under .spec its shadow cursor (R225). -/
def MapRec.at (m : MapRec) (spec : Bool) : MapRec := if spec then { m with cursor := m.shadow } else m

/-- Advance a map's cursors (R225, R229). -/
def Mat.advance (m : Mat) (n : Nat) (spec : Bool) (steps : Nat) : Mat :=
  { m with maps := tmod m.maps n fun r =>
    if spec then { r with shadow := r.shadow + steps } else { r with cursor := r.cursor + steps, shadow := r.shadow + steps } }

/-- The maps of a product, checked: loaded, with its TYPE, roles A and B (R30, R229, R231). -/
def Mat.pair (m : Mat) (ty : Ty) (spec : Bool) (ma mb : MNum) : Option (MapRec × MapRec) :=
  match tget m.maps ma.toNat, tget m.maps mb.toNat with
  | some a, some b =>
    if a.ty = ty ∧ b.ty = ty ∧ !a.roleB ∧ b.roleB then some (a.at spec, b.at spec) else none
  | _, _ => none

/-- MMA (R229): it is checked when it issues, and its steps follow one by one (R34). -/
def execMma (str : BitVec 2) (spec : Bool) (ty : Ty) (z : ZNum) (ma mb : MNum) (steps : BitVec 32) (s : State) : Out :=
  s.onMat fun bid b =>
    match b.mat.pair ty spec ma mb with
    | none => .next (s.trap cILLEGAL)
    | some (ra, rb) =>
      if rb.bways ∧ (s.core (coreOf bid)).colChange.isSome then .next s
      else match s.mapBad bid b ra steps.toNat, s.mapBad bid b rb steps.toNat with
        | some c, _ => s.matFault c (ra.addr 0 0)
        | none, some c => s.matFault c (rb.addr 0 0)
        | none, none =>
          let op : MatOp := { spec := spec, cnt := false, ty := ty, z := z.toNat, ma := ra, mb := rb, steps := steps.toNat,
                              done := 0, set := 0, pc := s.ir.pc }
          .next (s.modMat bid fun m =>
            let m := (m.advance ma.toNat spec steps.toNat).advance mb.toNat spec steps.toNat
            m.setQueue str.toNat (m.queue str.toNat ++ [op])).retire

/-- Whether an operand passes the container check, where it is a container (R64). -/
def operandOk (t : Ty) (d : List Byte) : Bool := !t.isCont || contOk t (leNat d)

/-- The 32 operands of one side at a step; none when a container fails its check or the bytes are poisoned (R64, R229, R341). -/
def State.side (s : State) (bid : Nat) (b : Block) (m : MapRec) (st : Nat) : Option (List (List Byte)) :=
  let l := (List.range 32).map fun i => s.operand bid b m i st
  if l.all (operandOk m.ty) && !(List.range 32).any fun i => s.operandPoison bid b m i st then some l else none

/-- One step of an MMA over every cell (R65, R66, R229). -/
def State.mmaStep (s : State) (bid : Nat) (b : Block) (op : MatOp) : Option State :=
  match s.side bid b op.ma op.done, s.side bid b op.mb op.done with
  | some da, some db =>
    let va := da.map (opVals op.ty)
    let vb := db.map (opVals op.ty)
    let lo := b.mat.tile op.spec op.z
    let hi := b.mat.tile op.spec (op.z + 1)
    let new := fun i j => cellStep op.ty
      ((tileCell lo i j).toNat + if op.ty = .f64 then (tileCell hi i j).toNat * 2 ^ 32 else 0) ((va[i]?).getD []) ((vb[j]?).getD [])
    let s := s.putTile bid op.spec op.z (mkTile fun i j => BitVec.ofNat 32 (new i j))
    some (if op.ty = .f64 then s.putTile bid op.spec (op.z + 1) (mkTile fun i j => BitVec.ofNat 32 (new i j / 2 ^ 32)) else s)
  | _, _ => none

/-- The class table entry of a product, and the value of a class; a set never loaded is all NONE (R69, R231). -/
def TableSet.classOf (t : Option TableSet) (a b : Nat) : Option Nat := (t.bind fun x => x.cls[16 * a + b]?).getD none
def TableSet.valueOf (t : Option TableSet) (c : Nat) : Int := (t.bind fun x => x.vals[c]?).getD 0

/-- One container step of an MCNT over every cell (R72): the counters, and the depth. -/
def State.cntStep (s : State) (bid : Nat) (b : Block) (op : MatOp) : Option State :=
  match s.side bid b op.ma op.done, s.side bid b op.mb op.done with
  | some da, some db =>
    let codes := fun (d : List Byte) => (List.range 30).map fun e => contEl op.ty (leNat d) e
    let ca := da.map codes
    let cb := db.map codes
    let t := tget b.mat.sets op.set
    let old := cget [] b.mat.bank op.z
    let cell := fun (c : Nat) =>
      (((ca[c / 32]?).getD []).zip ((cb[c % 32]?).getD [])).foldl (fun (r : Tbl Nat) e =>
        match TableSet.classOf t e.1 e.2 with
        | some k => cset 0 r k (cget 0 r k + 1)
        | none => r) (cget [] old c)
    let bank : Tbl (Tbl Nat) := (List.range 1024).filterMap fun c => if cell c = [] then none else some (c, cell c)
    some ((s.modMat bid fun m => { m with
      bank := cset [] m.bank op.z bank,
      depth := m.depth.set op.z ((m.depth[op.z]?).getD 0 + 30) }).touch bid (.bank op.z))
  | _, _ => none

/-- The number of a bank (R68). -/
def bankIx : Bank → Nat
  | .c0 => 0
  | .c1 => 1
  | .c2 => 2

/-- MCNT (R72, R231): the depth check and its first container step when it issues; the other steps follow, reserved. -/
def execMcnt (str : BitVec 2) (ty : Ty) (c : Bank) (ma mb : MNum) (steps : BitVec 32) (set : BitVec 2) (s : State) : Out :=
  s.matNow str 4 fun s bid b =>
    let k := bankIx c
    match b.mat.pair ty false ma mb with
    | none => .next (s.trap cILLEGAL)
    | some (ra, rb) =>
      if rb.bways ∧ (s.core (coreOf bid)).colChange.isSome then .next (s.uncharge (coreOf bid) 4)
      else match s.mapBad bid b ra steps.toNat, s.mapBad bid b rb steps.toNat with
        | some e, _ => s.matFault e (ra.addr 0 0)
        | none, some e => s.matFault e (rb.addr 0 0)
        | none, none =>
          if 4095 < (b.mat.depth[k]?).getD 0 + (b.mat.reserved[k]?).getD 0 + 30 * steps.toNat then .next (s.trap cCNTDEPTH)
          else
            let op : MatOp := { spec := false, cnt := true, ty := ty, z := k, ma := ra, mb := rb, steps := steps.toNat,
                                done := 0, set := set.toNat, pc := s.ir.pc }
            match s.cntStep bid b op with
            | none => .next s.uceCur
            | some t =>
              .next ((t.modMat bid fun m =>
                let m := (m.advance ma.toNat false steps.toNat).advance mb.toNat false steps.toNat
                if steps.toNat ≤ 1 then m
                else { m with reserved := m.reserved.set k ((m.reserved[k]?).getD 0 + 30 * (steps.toNat - 1)) }.setQueue str.toNat
                  [{ op with done := 1 }]).retire.snapCheck bid)

/-- Governor units of a step (R287). -/
def stepCost (op : MatOp) : Nat :=
  if op.cnt then 4
  else match op.ty with
    | .t8 => 6
    | .f32 => 2
    | _ => 8

/-- After a step of the head of a queue. -/
def Mat.stepped (m : Mat) (n : Nat) (op : MatOp) (rest : List MatOp) : Mat :=
  let m := m.setQueue n (if op.done + 1 < op.steps then { op with done := op.done + 1 } :: rest else rest)
  if op.cnt then { m with reserved := m.reserved.set op.z ((m.reserved[op.z]?).getD 0 - 30) } else m

/-- MATRIX_STEP (R34, R65, R75): one step of the product at the head of a stream, under the governor. -/
def execMatrixStep (block : Nat) (str : BitVec 2) (s : State) : Out :=
  match s.blk block with
  | none => .next s
  | some b =>
    match b.mat.queue str.toNat with
    | [] => .next s
    | op :: rest =>
      if b.frozen ≠ .no ∨ s.stopped then .next s
      else match s.govern (coreOf block) (4 * block + str.toNat) (stepCost op) with
        | (t, false) => .next t
        | (t, true) =>
          match if op.cnt then t.cntStep block b op else t.mmaStep block b op with
          | none => .next (t.uce block cUCE op.pc.toNat 0)
          | some t => .next ((t.modMat block fun m => m.stepped str.toNat op rest).snapCheck block)

/-- The fault of a scaling vector that is no multiple of 128 or lies beyond the allocation (R230). -/
def scaleRange (b : Block) (off : Nat) : Option Nat :=
  if off % 128 ≠ 0 ∨ b.kern.shared < off + 128 then some cPROTFAULT else none

/-- MSCALE (R67, R230). -/
def execMscale (str : BitVec 2) (spec : Bool) (ty : Ty) (zd za : ZNum) (offA offB : BitVec 32) (s : State) : Out :=
  s.matNow str 1 fun s bid b =>
    match scaleRange b offA.toNat, scaleRange b offB.toNat with
    | some c, _ => s.matFault c offA.toNat
    | none, some c => s.matFault c offB.toNat
    | none, none =>
      if s.scrPoison bid b offA.toNat 128 ∨ s.scrPoison bid b offB.toNat 128 then .next s.uceCur
      else
      let vec := fun (off i : Nat) => f32F.read (leNat (s.scrBytes bid b (off + 4 * i) 4))
      let out := b.mat.tile spec zd.toNat
      let part := b.mat.tile spec za.toNat
      let val := fun (x : Word32) => if ty = .s32 then FVal.ofInt x.toInt else f32F.read x.toNat
      .next ((s.putTile bid spec zd.toNat (mkTile fun i j =>
        let t := f32F.read (f32F.round .rn ((vec offA.toNat i).mul (vec offB.toNat j)).1).1
        BitVec.ofNat 32 (f32F.round .rn (FVal.fma .rn t (val (tileCell part i j)) (f32F.read (tileCell out i j).toNat)).1).1)).retire.snapCheck bid)

/-- MCOMMIT (R225): the named shadows and every shadow cursor. -/
def execMcommit (str : BitVec 2) (z : ZNum) (n1 : BitVec 4) (s : State) : Out :=
  s.matNow str 1 fun s bid b =>
    if 15 < z.toNat + n1.toNat then .next (s.trap cILLEGAL)
    else
      let s := (List.range (n1.toNat + 1)).foldl (fun (s : State) i =>
        s.putTile bid false (z.toNat + i) (b.mat.tile true (z.toNat + i))) s
      .next ((s.modMat bid fun m => { m with maps := tmapv m.maps fun r => { r with cursor := r.shadow } }).retire.snapCheck bid)

/-- MDISCARD (R225): the named tiles and every cursor. -/
def execMdiscard (str : BitVec 2) (z : ZNum) (n1 : BitVec 4) (s : State) : Out :=
  s.matNow str 1 fun s bid b =>
    if 15 < z.toNat + n1.toNat then .next (s.trap cILLEGAL)
    else
      let s := (List.range (n1.toNat + 1)).foldl (fun (s : State) i =>
        s.putTile bid true (z.toNat + i) (b.mat.tile false (z.toNat + i))) s
      .next ((s.modMat bid fun m => { m with maps := tmapv m.maps fun r => { r with shadow := r.cursor } }).retire.snapCheck bid)

/-- Two counters' tables added, class by class. -/
def addCounts (a b : Tbl Nat) : Tbl Nat := b.foldl (fun r e => cset 0 r e.1 (cget 0 r e.1 + e.2)) a

/-- MMERGE (R73). -/
def execMmerge (str : BitVec 2) (c : Bank) (s : State) : Out :=
  s.matNow str 1 fun s bid b =>
    let k := bankIx c
    let dk := (b.mat.depth[k]?).getD 0
    let d2 := (b.mat.depth[2]?).getD 0
    if 2 ^ 28 - 1 < d2 + dk then .next (s.trap cCNTDEPTH)
    else .next (((s.modMat bid fun m => { m with
        bank := cset [] (cset [] m.bank 2 ((cget [] m.bank k).foldl (fun t e => cset [] t e.1 (addCounts (cget [] t e.1) e.2)) (cget [] m.bank 2))) k [],
        depth := (m.depth.set 2 (d2 + dk)).set k 0 }).touch bid (.bank k)).touch bid (.bank 2) |>.retire |>.snapCheck bid)

/-- The exact sum of a cell's counts (R74). -/
def cellSum (t : Option TableSet) (counts : Tbl Nat) : Int :=
  counts.foldl (fun r e => r + (e.2 : Int) * TableSet.valueOf t e.1) 0

/-- S times 2^E (R74). -/
def scaled (x e : Int) : FVal := .fin (decide (x < 0)) x.natAbs e

/-- MDRAIN (R74, R231): to a tile with one rounding, or to scratch as s64; the bank is cleared. -/
def execMdrain (str : BitVec 2) (set : BitVec 2) (c : Bank) (tgt : DrainTarget) (s : State) : Out :=
  s.matNow str 1 fun s bid b =>
    let k := bankIx c
    let t := tget b.mat.sets set.toNat
    let bank := cget [] b.mat.bank k
    let sum := fun (i j : Nat) => cellSum t (cget [] bank (32 * i + j))
    let clear := fun (s : State) => ((s.modMat bid fun m => { m with
      bank := cset [] m.bank k [], depth := m.depth.set k 0 }).touch bid (.bank k)).retire.snapCheck bid
    match tgt with
    | .tile z =>
      let old := b.mat.tile false z.toNat
      let e := (t.map fun x => x.exp).getD 0
      .next (clear (s.putTile bid false z.toNat (mkTile fun i j =>
        BitVec.ofNat 32 (f32F.round .rn ((f32F.read (tileCell old i j).toNat).add .rn (scaled (sum i j) e)).1).1)))
    | .scratch base disp =>
      let off := s.matOff base disp
      match scrRange b off 8192 8 with
      | some e => s.matFault e off
      | none =>
        .next (clear (s.scrWrite bid b off ((List.range 1024).flatMap fun x =>
          toLE 8 ((sum (x / 32) (x % 32)) % 2 ^ 64).toNat)))

/-- T4 magnitudes in quarters (R58). -/
def quarters (c : Nat) : Int :=
  let m := fun i => (([0, 1, 2, 3, 4, 6, 8, 16] : List Int)[i]?).getD 0
  if c < 8 then m c else -(m (16 - c))

/-- A default table set: which pairs count, the product of two codes, and the positive values (R70, R71). -/
def defaultSet (none_ : Nat → Bool) (prod : Nat → Nat → Int) (ps : List Nat) (exp : Int) : TableSet :=
  { cls := (List.range 256).map fun x =>
      let a := x / 16
      let b := x % 16
      if none_ a ∨ none_ b then none
      else (ps.findIdx? fun p => decide (p = (prod a b).natAbs)).map fun i => if prod a b < 0 then ps.length + i else i,
    vals := ps.map Int.ofNat ++ ps.map fun p => -(Int.ofNat p),
    exp := exp }

/-- The default t4 set (R70): products of quarters are sixteenths. -/
def defaultT4 : TableSet :=
  defaultSet (fun c => decide (c = 0) || decide (c = 8)) (fun a b => quarters a * quarters b)
    [1, 2, 3, 4, 6, 8, 9, 12, 16, 18, 24, 32, 36, 48, 64, 96, 128, 256] (-4)

/-- The default s4 set (R71). -/
def defaultS4 : TableSet :=
  defaultSet (fun c => decide (c = 0)) (fun a b => s4Val a * s4Val b)
    [1, 2, 3, 4, 5, 6, 7, 8, 9, 10, 12, 14, 15, 16, 18, 20, 21, 24, 25, 28, 30, 32, 35, 36, 40, 42, 48, 49, 56, 64] 0

/-- A table set from its 400-byte image (R69). -/
def tableOf (d : List Byte) : TableSet :=
  { cls := (d.take 256).map fun x => if x.getLsbD 6 then none else some (x.toNat % 64),
    vals := (List.range 64).map fun c => (BitVec.ofNat 16 (fld d (256 + 2 * c) 2)).toInt,
    exp := (BitVec.ofNat 6 (fld d 384 1)).toInt }

/-- The matrix context of a block at bind (R30, R68). -/
def Mat.fresh : Mat :=
  { z := [], zs := [], bank := [], depth := [0, 0, 0], reserved := [0, 0, 0], maps := [],
    sets := [(0, defaultT4), (1, defaultS4)], queue0 := [], queue1 := [], queue2 := [], queue3 := [] }

end Sys2Proof.Machine
end

