-- ==== Sys2Proof/Machine/Tensors.lean ====
section
/-! DEFINITION. What the commands of the engines read and write: places in scratch, in a context's memory and at peers, tensors and
their owner tables, and the units of a tensor copy (R63, R89 to R92, R232, R233). -/

namespace Sys2Proof.Machine

/-- An instruction of waves and of the streams of one engine; any other stream takes ILLEGAL (R219). -/
def State.onEngine (s : State) (e : Engine) (f : Out) : Out :=
  match s.cur with
  | .slot _ _ _ => s.onAny f
  | .stream _ g _ => if g = e then s.onAny f else s.onAny (.next (s.trap cILLEGAL))

def State.modCmd (s : State) (id : Nat) (f : Cmd → Cmd) : State := { s with cmds := tmod s.cmds id f }

/-- One side of an element or piece of a copy. -/
inductive Place where
  /-- A scratch offset. -/
  | scr (off : Nat)
  /-- A virtual address of the context. -/
  | va (a : Nat)
  /-- A byte of a peer's vault, named by an owner table (R90). -/
  | peer (node pa : Nat)
  /-- An owner entry that is not valid (R91). -/
  | bad
  deriving DecidableEq, Repr

/-- The place `n` bytes further on. -/
def Place.add (p : Place) (n : Nat) : Place :=
  match p with
  | .scr o => .scr (o + n)
  | .va a => .va (a + n)
  | .peer k a => .peer k (a + n)
  | .bad => .bad

/-- The address a fault at this place reports. -/
def Place.addr : Place → Nat
  | .scr o => o
  | .va a => a
  | .peer _ a => a
  | .bad => 0

/-- Access kinds that a fault entry records for a fault at this place: none for scratch (R323). -/
def Place.kinds (p : Place) (k : Nat) : Nat :=
  match p with
  | .va _ => k
  | _ => 0

/-- What a piece of a command did. -/
inductive CmdRes where
  | ok (s : State)
  | fault (code va kinds : Nat)
  | uce (s : State)
  | wait (s : State)
  | stall

/-- Continue after an access of a command. A piece that faults has no effect. -/
def MemRes.thenDo (r : MemRes) (kinds : Nat) (f : State → List Byte → CmdRes) : CmdRes :=
  match r with
  | .ok s d => f s d
  | .fault _ c va => .fault c va kinds
  | .uce s => .uce s
  | .wait s => .wait s
  | .stall => .stall

/-- Read a sector of a peer for a command: the answer that has come, else a request leaves (R256). -/
def State.cmdAsk (s : State) (id : Nat) (c : Cmd) (n va : Nat) (node pa : Nat) : MemRes :=
  match tget c.answers (sectorKey va) with
  | some x => .ok s ((toLE 64 x).drop (va % 64) |>.take n)
  | none =>
    let q := s.askPeer c.who (some id) c.tag node (pa / 64 * 64) 64 .load .b32 0 0 (sectorKey va) []
    .wait (q.1.modCmd id fun x => { x with asks := x.asks ++ [(q.2, sectorKey va)] })

/-- Write bytes of one sector of a peer for a command. -/
def State.cmdTell (s : State) (id : Nat) (c : Cmd) (d : List Byte) (node pa : Nat) : State :=
  ((s.openInterval c.block).askPeer c.who (some id) c.tag node pa d.length .store .b32 0 0 0 d).1

/-- Whether a peer may be addressed by a context (R266): cause of the fault, if any. -/
def State.peerBad (s : State) (t : Tag) (node : Nat) : Option Nat :=
  let x := s.ctx t.slot
  if node / 4096 ≠ s.nodeId / 4096 then some cATTRFAULT
  else if !x.rcd.peers.contains node ∨ x.unreachable.contains node then some cPROTFAULT else none

/-- Whether a scratch range lies in the block's allocation (R96). -/
def Block.scrOk (b : Block) (off n : Nat) : Bool := decide (off + n ≤ b.kern.shared)

/-- Read a place for a command: weak (R232). -/
def State.placeGet (s : State) (id : Nat) (c : Cmd) (p : Place) (n : Nat) : MemRes :=
  match p with
  | .scr off => match s.blk c.block with
    | none => .stall
    | some b => if b.scrOk off n then (if s.scrPoison c.block b off n then .uce s else .ok s (s.scrBytes c.block b off n)) else .fault s cPROTFAULT off
  | .va a => getPieces (fun s va n => s.pieceRead c.block va n false fun s node pa => s.cmdAsk id c n va node pa)
      (n / 64 + 2) s a n []
  | .peer node pa => match s.peerBad c.tag node with
    | some k => .fault s k pa
    | none => getPieces (fun s pa n => s.cmdAsk id c n pa node pa) (n / 64 + 2) s pa n []
  | .bad => .fault s cPROTFAULT 0

/-- Write a place for a command: weak (R232). -/
def State.placePut (s : State) (id : Nat) (c : Cmd) (p : Place) (d : List Byte) : MemRes :=
  match p with
  | .scr off => match s.blk c.block with
    | none => .stall
    | some b => if b.scrOk off d.length then .ok (s.scrWrite c.block b off d) [] else .fault s cPROTFAULT off
  | .va a => putPieces (fun s va d => s.pieceWrite c.block va d fun s node pa => s.cmdTell id c d node pa)
      (d.length / 64 + 2) s a d
  | .peer node pa => match s.peerBad c.tag node with
    | some k => .fault s k pa
    | none => putPieces (fun s pa d => .ok (s.cmdTell id c d node pa) []) (d.length / 64 + 2) s pa d
  | .bad => .fault s cPROTFAULT 0

/-- Move `n` bytes from one place to another. -/
def State.movePiece (s : State) (id : Nat) (c : Cmd) (d a : Place) (n : Nat) : CmdRes :=
  (s.placeGet id c a n).thenDo (a.kinds 1) fun s x => (s.placePut id c d x).thenDo (d.kinds 2) fun s _ => .ok s

/-- Exchange the bytes of two places (R234). -/
def State.swapPiece (s : State) (id : Nat) (c : Cmd) (d a : Place) (n : Nat) : CmdRes :=
  (s.placeGet id c a n).thenDo (a.kinds 1) fun s x => (s.placeGet id c d n).thenDo (d.kinds 1) fun s y =>
    (s.placePut id c d x).thenDo (d.kinds 2) fun s _ => (s.placePut id c a y).thenDo (a.kinds 2) fun s _ => .ok s

/-- The place of a byte of a side that a flag makes scratch. -/
def sidePlace (scr : Bool) (a : Nat) : Place := if scr then .scr a else .va (a % 2 ^ 64)

/-! ### Tensors -/

/-- A signed 64-bit number read from bytes. -/
def s64Of (x : Nat) : Int := (BitVec.ofNat 64 x).toInt

/-- A tensor descriptor (R89). -/
def Tensor.parse (d : List Byte) : Tensor :=
  { rank := fld d 0 1, ty := (Ty.ofCode (BitVec.ofNat 5 (fld d 1 1))).getD .none, packed := decide (fld d 2 1 = 1),
    owner := if fld d 3 1 % 2 = 1 then some (fld d 96 8) else none,
    extent := (List.range 6).map fun k => fld d (8 + 4 * k) 4, stride := (List.range 6).map fun k => s64Of (fld d (32 + 8 * k) 8),
    block := (List.range 6).map fun k => fld d (80 + 2 * k) 2, base := fld d 104 8 }

def Tensor.ext (t : Tensor) (k : Nat) : Nat := (t.extent[k]?).getD 0
def Tensor.str (t : Tensor) (k : Nat) : Int := (t.stride[k]?).getD 0
def Tensor.blk (t : Tensor) (k : Nat) : Nat := (t.block[k]?).getD 0

/-- Whether the descriptor bytes are well formed (R89): reserved fields zero, a rank, a type and a packing that exist,
dimensions beyond the rank zero (log 17). -/
def tensorOk (d : List Byte) : Bool :=
  let t := Tensor.parse d
  decide (1 ≤ t.rank) && decide (t.rank ≤ 6) && decide (fld d 2 1 ≤ 1) && decide (fld d 3 1 ≤ 1) && zeros d 4 4 && zeros d 92 4
    && zeros d 112 16 && decide (fld d 1 1 ≤ 17) && decide (t.ty ≠ .none) && (t.packed == t.ty.isCont)
    && (List.range 6).all (fun k => decide (k < t.rank) || (decide (t.ext k = 0) && decide (t.str k = 0) && decide (t.blk k = 0)))
    && (!t.packed || (decide (t.str 0 = 0) && decide (t.str 1 % 16 = 0) && decide (t.blk 0 % contE t.ty = 0)))

/-- Elements of dimension 0 in one unit of storage: 1, or those of a container; and the bytes of a unit (R63, R89). -/
def Tensor.per (t : Tensor) : Nat := if t.packed then contE t.ty else 1
def Tensor.unit (t : Tensor) : Nat := if t.packed then 16 else t.ty.bytes

/-- The block number of an element (R90). -/
def Tensor.bn (t : Tensor) (ix : List Nat) : Nat :=
  ((List.range t.rank).foldl (fun (r : Nat × Nat) k =>
    let b := t.blk k
    if b = 0 then r else (r.1 + (ix[k]?).getD 0 / b * r.2, r.2 * ((t.ext k + b - 1) / b))) (0, 1)).1

/-- The byte offset of an element within its block, or from BASE where no owner table is present (R90, log 18). -/
def Tensor.off (t : Tensor) (ix : List Nat) : Int :=
  (List.range t.rank).foldl (fun (o : Int) k =>
    let i := (ix[k]?).getD 0
    let i := if t.owner.isSome ∧ t.blk k ≠ 0 then i % t.blk k else i
    if t.packed ∧ k = 0 then o + 16 * (i / contE t.ty : Nat) else o + (i : Int) * t.str k) 0

/-- Where an element lies (R90, R91). A block of the own package lies in the context's aperture. -/
def State.tensorPlace (s : State) (tag : Tag) (t : Tensor) (owners : Tbl (BitVec 128)) (scr : Bool) (ix : List Nat) : Place :=
  match t.owner with
  | none =>
    let a := (t.base : Int) + t.off ix
    if scr then (if 0 ≤ a then .scr a.toNat else .bad) else .va (a % 2 ^ 64).toNat
  | some _ =>
    let e := (cget 0 owners (t.bn ix)).toNat
    let v := e % 2 ^ 32
    if e < 2 ^ 127 ∨ vaultBytes ≤ v then .bad
    else
      let node := e / 2 ^ 108 % 2 ^ 19
      let o : Int := ((e / 2 ^ 99 % 512 * 0x100000000 + v : Nat) : Int) + t.off ix
      if node = s.nodeId then
        .va (((if tag.slot = 0 then 0x100000000000 else (s.ctx tag.slot).rcd.aperture : Nat) : Int) + o).toNat
      else .peer node (0x100000000000 + o).toNat

/-- Every index below the counts, dimension 0 innermost; a count of 0 stands for a dimension that is not there. -/
def indexes : List Nat → List (List Nat)
  | [] => [[]]
  | n :: t => (indexes t).flatMap fun r => (List.range (max n 1)).map fun i => i :: r

/-- Exchange dimensions 0 and 1 (R92). -/
def swap01 : List Nat → List Nat
  | a :: b :: t => b :: a :: t
  | l => l

/-- Range from the lowest to the highest byte of a region of a tensor without an owner table (R234). -/
def Tensor.span (t : Tensor) (start count : List Nat) : Int × Int :=
  let r := (List.range t.rank).foldl (fun (r : Int × Int) k =>
    let a := (start[k]?).getD 0
    let n := (count[k]?).getD 0
    let st : Int := if t.packed ∧ k = 0 then 16 else t.str k
    let lo : Int := if t.packed ∧ k = 0 then ((a / contE t.ty : Nat) : Int) else a
    let hi : Int := if t.packed ∧ k = 0 then (((a + n - 1) / contE t.ty : Nat) : Int) else ((a + n - 1 : Nat) : Int)
    (r.1 + min (lo * st) (hi * st), r.2 + max (lo * st) (hi * st))) ((t.base : Int), (t.base : Int))
  (r.1, r.2 + t.unit)

/-- The units of a tensor copy, in the order they are performed: by chunk, and within it by destination offset. A chunk is a
tensor block where a side has an owner table, else 256 bytes of the destination, with all of an 8-byte word that begins in them
(R91, R116, R232, log 18). -/
def tensorUnits (d a : Tensor) (start count : List Nat) (tr inplace : Bool) : List TUnit :=
  let cnt := match count with
    | n :: t => (n + d.per - 1) / d.per :: t
    | [] => []
  let dcount := if tr then swap01 count else count
  let lo := (d.span (count.map fun _ => 0) dcount).1
  let us := (indexes cnt).filterMap fun r =>
    let r : List Nat := r.zipIdx.map fun (e : Nat × Nat) => if e.2 = 0 then e.1 * d.per else e.1
    let src : List Nat := r.zipIdx.map fun (e : Nat × Nat) => e.1 + (start[e.2]?).getD 0
    let n := min d.per ((count[0]?).getD 0 - (r[0]?).getD 0)
    let dst : List Nat := if inplace then (swap01 r).zipIdx.map fun (e : Nat × Nat) => e.1 + (start[e.2]?).getD 0 else if tr then swap01 r else r
    if inplace ∧ (r[1]?).getD 0 ≤ (r[0]?).getD 0 then none
    else
      let o := (d.off dst + d.base - lo).toNat
      let ch := match d.owner, a.owner with
        | none, none => (o - (d.off dst + d.base).toNat % 8) / 256
        | _, _ => (if d.owner.isSome then d.bn dst else 0) * 2 ^ 64 + if a.owner.isSome then a.bn src else 0
      some (o, TUnit.mk ch dst src n)
  (us.zipIdx.foldl (fun (t : Tbl TUnit) e => tset t ((e.1.2.chunk * 2 ^ 80 + e.1.1) * 2 ^ 80 + e.2) e.1.2) []).map fun e => e.2

/-- The bytes of the destination container of a unit: the container itself when all of it is copied, else its elements put
into what stands there. What is wrong with the TAG or a parity bit of a container that gives elements stays wrong in the result:
a copy checks nothing and makes no bad container good; `keeps` says that the old container keeps elements of the tensor (R63, R64,
log 16). -/
def mergeCont (t : Ty) (start n : Nat) (c1 c2 old : Nat) (keeps : Bool) : Nat :=
  let e := contE t
  let k := start % e
  if k = 0 ∧ n = e then c1
  else
    let els := (List.range e).map fun j => if j < n then (if k + j < e then contEl t c1 (k + j) else contEl t c2 (k + j - e)) else contEl t old j
    let gave := c1 :: ((if e < k + n then [c2] else []) ++ if keeps then [old] else [])
    let tag := ((gave.map contTagOf).find? fun x => decide (x ≠ contTag t)).getD (contTag t)
    let odd := fun (q : Nat) => gave.any fun c => decide (parity30 c (30 * q) ≠ c / 2 ^ (124 + q) % 2)
    [0, 1, 2, 3].foldl (fun x q => if odd q then x ^^^ 2 ^ (124 + q) else x)
      (mkCont t els ^^^ (tag ^^^ contTag t) * 2 ^ 120)

/-- Perform one unit of a tensor copy. -/
def State.tensorPiece (s : State) (id : Nat) (c : Cmd) (d a : Tensor) (inplace : Bool) (u : TUnit) : CmdRes :=
  let pd := s.tensorPlace c.tag d c.ownersD c.fl.scrD u.d
  let at_ := fun (ix : List Nat) => s.tensorPlace c.tag a c.ownersA c.fl.scrS ix
  let pa := at_ u.a
  if inplace then s.swapPiece id c pd pa d.unit
  else if !d.packed then s.movePiece id c pd pa d.unit
  else
    let i0 := (u.a[0]?).getD 0
    if i0 % d.per = 0 ∧ u.n = d.per then s.movePiece id c pd pa 16
    else
      let last := i0 + u.n - 1
      let pa2 := if last / d.per = i0 / d.per then pa else at_ (last :: u.a.drop 1)
      let keeps := decide ((u.d[0]?).getD 0 + u.n < d.ext 0)
      (s.placeGet id c pa 16).thenDo (pa.kinds 1) fun s x => (s.placeGet id c pa2 16).thenDo (pa2.kinds 1) fun s y =>
        (s.placeGet id c pd 16).thenDo (pd.kinds 1) fun s z =>
          (s.placePut id c pd (toLE 16 (mergeCont d.ty i0 u.n (leNat x) (leNat y) (leNat z) keeps))).thenDo (pd.kinds 2) fun s _ => .ok s

/-- Read the owner entries that a side's region needs, before the first data read (R91). -/
def State.readOwners (s : State) (id : Nat) (c : Cmd) (dst : Bool) (tbl : Nat) : List Nat → CmdRes
  | [] => .ok s
  | n :: t =>
    ((s.placeGet id c (.va ((tbl + 16 * n) % 2 ^ 64)) 16).thenDo 1 fun s d =>
      let e := BitVec.ofNat 128 (leNat d)
      (CmdRes.ok (s.modCmd id fun x => if dst then { x with ownersD := tset x.ownersD n e } else { x with ownersA := tset x.ownersA n e })))
    |> fun r => match r with
      | .ok s => s.readOwners id c dst tbl t
      | r => r

end Sys2Proof.Machine
end

