-- ==== Sys2Proof/Machine/Tiles.lean ====
section
/-! DEFINITION. The operations of a tile body, element by element of their destinations (R297): block products, counted products,
scaling, reductions, and the elements of elementwise maps, each as the instructions that it stands for compute it (R65 to R67, R72 to
R74, R196). -/

namespace Sys2Proof.Machine

/-- Elements of a tensor. -/
def Tensor.count (t : Tensor) : Nat := (List.range t.rank).foldl (fun n k => n * t.ext k) 1

/-- Element e of a tensor, dimension 0 innermost. -/
def Tensor.ixOf (t : Tensor) (e : Nat) : List Nat :=
  ((List.range t.rank).foldl (fun (r : List Nat × Nat) k => (r.1 ++ [r.2 % max (t.ext k) 1], r.2 / max (t.ext k) 1)) ([], e)).1

/-- The index of row i and column j of a matrix: the last index of R297 is the innermost dimension (log 6). -/
def matIx (i j : Nat) : List Nat := [j, i]

/-- A vector of f32 at an address (R67, R297). -/
def vectorAt (a : Nat) : Tensor :=
  { rank := 1, ty := .f32, packed := false, owner := none, extent := [2 ^ 32], stride := [4], block := [0], base := a }

/-- Do something with the place of an element; an owner table gives it (R90). -/
def State.elemAt (s : State) (id : Nat) (c : Cmd) (t : Tensor) (ix : List Nat) (f : State → Place → CmdRes) : CmdRes :=
  match t.owner with
  | none => f s (s.tensorPlace c.tag t [] false ix)
  | some tb => (s.placeGet id c (.va ((tb + 16 * t.bn ix) % 2 ^ 64)) 16).thenDo 1 fun s d =>
      f s (s.tensorPlace c.tag t [(t.bn ix, BitVec.ofNat 128 (leNat d))] false ix)

/-- Read an element: its bits, or its code in its container, which must pass its check (R63, R64). -/
def State.elemGet (s : State) (id : Nat) (c : Cmd) (t : Tensor) (ix : List Nat) (f : State → Nat → CmdRes) : CmdRes :=
  s.elemAt id c t ix fun s p => (s.placeGet id c p t.unit).thenDo (p.kinds 1) fun s d =>
    if !t.packed then f s (leNat d)
    else if contOk t.ty (leNat d) then f s (contEl t.ty (leNat d) ((ix[0]?).getD 0 % contE t.ty)) else .uce s

/-- Read elements in order. -/
def State.elemsGet (s : State) (id : Nat) (c : Cmd) (t : Tensor) : List (List Nat) → List Nat → (State → List Nat → CmdRes) → CmdRes
  | [], acc, f => f s acc
  | ix :: l, acc, f => s.elemGet id c t ix fun s x => s.elemsGet id c t l (acc ++ [x]) f

/-- Write an element of a plain tensor. -/
def State.elemPut (s : State) (id : Nat) (c : Cmd) (t : Tensor) (ix : List Nat) (x : Nat) : CmdRes :=
  s.elemAt id c t ix fun s p => (s.placePut id c p (toLE t.unit x)).thenDo (p.kinds 2) fun s _ => .ok s

/-- The value of an element in a product (R60, R65). -/
def elemVal (t : Ty) (x : Nat) : FVal :=
  match t with
  | .s8 => FVal.ofInt (intOf .s8 x)
  | .t8 => taperedVal (taperedN t) (taperedEs t) x
  | .t6 => taperedVal (taperedN t) (taperedEs t) x
  | t => (fmtOf t).read x

/-- Elements of K in one step (R65). -/
def kStep : Ty → Nat
  | .bf16 => 4
  | .f16 => 4
  | .t8 => 15
  | .t6 => 20
  | .s8 => 16
  | _ => 1

/-- Apply the steps of a product to a cell, in ascending k (R65, R66, R297). -/
def dotSteps (t : Ty) : Nat → Nat → List FVal → List FVal → Nat
  | 0, acc, _, _ => acc
  | fuel + 1, acc, a, b =>
    if a.isEmpty then acc
    else dotSteps t fuel (cellStep t acc (a.take (kStep t)) (b.take (kStep t))) (a.drop (kStep t)) (b.drop (kStep t))

/-- What is added to a cell of a counted product (R72 to R74): the exact sum of the values of its classes. -/
def countedSum (t : Option TableSet) (a b : List Nat) : FVal :=
  scaled ((a.zip b).foldl (fun r e => match TableSet.classOf t e.1 e.2 with
    | some k => r + TableSet.valueOf t k
    | none => r) 0) ((t.map fun x => x.exp).getD 0)

/-- D[i][j] + (B[i] × C[j]) × A[i][j], as MSCALE rounds (R67). -/
def scaleCell (ty : Ty) (d a b c : Nat) : Nat :=
  let t := (f32F.round .rn ((f32F.read b).mul (f32F.read c)).1).1
  let x := if ty = .s32 then FVal.ofInt (intOf .s32 a) else f32F.read a
  (f32F.round .rn (FVal.fma .rn (f32F.read t) x (f32F.read d)).1).1

/-- Put a value into lane l of register n of the wave that issued a command. -/
def State.laneIn (s : State) (c : Cmd) (n l x : Nat) : State :=
  match c.who with
  | .slot b w _ => s.vmerge b w n ((1 : Word32) <<< l) (setLane 0 l (BitVec.ofNat 32 x))
  | .stream _ _ _ => s

/-- Lane l of register n of the wave that issued a command. -/
def State.laneOut (s : State) (c : Cmd) (n l : Nat) : Nat :=
  match c.who with
  | .slot b w k => match s.view b w k with
    | some v => (lane (s.vread b v.w n) l).toNat
    | none => 0
  | .stream _ _ _ => 0

/-- Element p of the destination of a tile operation (R297). Of a map, the elements of A come into lanes of v0 and those of B into
lanes of v1, and lanes of v2 go to D. -/
def State.tilePiece (s : State) (id : Nat) (c : Cmd) (j : TileJob) (p : Nat) : CmdRes :=
  let ix := j.d.ixOf p
  let i := (ix[1]?).getD 0
  let n := (ix[0]?).getD 0
  let put := fun (s : State) (x : Nat) => s.elemPut id c j.d ix x
  let b := j.b.getD j.a
  let row := (List.range (j.a.ext 0)).map fun k => matIx i k
  let col := (List.range (j.a.ext 0)).map fun k => matIx k n
  match j.kind with
  | .product => s.elemGet id c j.d ix fun s d => s.elemsGet id c j.a row [] fun s x => s.elemsGet id c b col [] fun s y =>
      put s (dotSteps j.ty (x.length + 1) d (x.map (elemVal j.ty)) (y.map (elemVal j.ty)))
  | .counted => s.elemGet id c j.d ix fun s d => s.elemsGet id c j.a row [] fun s x => s.elemsGet id c b col [] fun s y =>
      put s (f32F.round .rn ((f32F.read d).add .rn (countedSum j.set x y)).1).1
  | .scale => s.elemGet id c j.d ix fun s d => s.elemGet id c j.a ix fun s x => s.elemGet id c b [i] fun s y =>
      s.elemGet id c (j.c.getD b) [n] fun s z => put s (scaleCell j.ty d x y z)
  | .reduce op => s.elemsGet id c j.a ((List.range (j.a.ext j.axis)).map fun k => ix.set j.axis k) [] fun s x =>
      put s (tree (planeOp op j.ty) (fun k => (x[k]?).getD 0) (x.length + 1) 0 x.length)
  | .elemIn => match p % 2, j.b with
    | 0, _ => s.elemGet id c j.a (j.a.ixOf (j.e0 + p / 2)) fun s x => .ok (s.laneIn c 0 (p / 2) (extBits j.ty x % 2 ^ 32))
    | _, some b => s.elemGet id c b (b.ixOf (j.e0 + p / 2)) fun s x => .ok (s.laneIn c 1 (p / 2) (extBits j.ty x % 2 ^ 32))
    | _, none => .ok s
  | .elemOut => s.elemPut id c j.d (j.d.ixOf (j.e0 + p)) (s.laneOut c 2 p)

end Sys2Proof.Machine
end

