-- ==== Sys2Proof/Machine/Copies.lean ====
section
/-! DEFINITION. The copy engine: linear and tensor copies, gathers and scatters as commands that run beside their issuer,
the range scoreboard they hold, their chunks, and the wait for them (R115 to R117, R232 to R236). -/

namespace Sys2Proof.Machine

/-! ### Running a command -/

/-- The units of a command's tensor copy. -/
def CmdOp.units : CmdOp → List TUnit
  | .tensor _ _ _ _ us => us
  | _ => []

/-- A command's acquire, and the reading of its owner entries, before its first read (R91, R232). -/
def State.cmdBegin (s : State) (id : Nat) (c : Cmd) : CmdRes :=
  if c.acquired then .ok s
  else
    let s0 := if ordAcqs c.fl.ord then s.acquireSide c.core c.fl.scope else s
    let fin := fun (s : State) => CmdRes.ok (s.modCmd id fun x => { x with acquired := true, answers := [] })
    match c.op with
    | .tensor d a _ _ us =>
      let need := fun (t : Tensor) (l : List (List Nat)) => ((l.map t.bn).eraseDups)
      let r := match d.owner with
        | some tb => s0.readOwners id c true tb (need d (us.map fun (u : TUnit) => u.d))
        | none => .ok s0
      match r with
      | .ok s => (match a.owner with
        | some tb => (match s.readOwners id c false tb (need a (us.flatMap fun (u : TUnit) =>
              [u.a, match u.a with | i :: t => (i + u.n - 1) :: t | [] => []])) with
          | .ok s => fin s
          | r => r)
        | none => fin s)
      | r => r
    | _ => fin s0

/-- One piece from position `pos`, with its length: of a linear copy up to the end of the chunk, with all of the last 8-byte word of
the destination, cut only where the destination's sector or the source's page ends (R232, R233, R325). -/
def State.cmdPiece (s : State) (id : Nat) (c : Cmd) : Nat × CmdRes :=
  let p := c.pos
  match c.op with
  | .linear d a len =>
    let q := 256 * (p / 256 + 1)
    let n := min (min len (q + (8 - (d + q) % 8) % 8) - p) (min (64 - (d + p) % 64) (0x10000 - (a + p) % 0x10000))
    (n, s.movePiece id c (sidePlace c.fl.scrD (d + p)) (sidePlace c.fl.scrS (a + p)) n)
  | .gath d a b _ z =>
    let pi := sidePlace c.scrI (b + 4 * p)
    (1, (s.placeGet id c pi 4).thenDo (pi.kinds 1) fun s i =>
      s.movePiece id c (sidePlace c.fl.scrD (d + p * z)) (sidePlace c.fl.scrS (a + leNat i * z)) z)
  | .scat d a b _ z =>
    let pi := sidePlace c.scrI (b + 4 * p)
    (1, (s.placeGet id c pi 4).thenDo (pi.kinds 1) fun s i =>
      s.movePiece id c (sidePlace c.fl.scrD (d + leNat i * z)) (sidePlace c.fl.scrS (a + p * z)) z)
  | .tensor d a _ inplace us =>
    match us[p]? with
    | some u => (1, s.tensorPiece id c d a inplace u)
    | none => (1, .stall)
  | .coll => (1, .stall)
  | .tile j => (1, s.tilePiece id c j p)

/-- The chunk of a position: 256 bytes of a linear copy, 64 elements of a gather or scatter, the chunk of a tensor unit. -/
def CmdOp.chunkOf (op : CmdOp) (p : Nat) : Nat :=
  match op with
  | .linear _ _ _ => p / 256
  | .gath _ _ _ _ _ => p / 64
  | .scat _ _ _ _ _ => p / 64
  | .tensor _ _ _ _ us => (us[p]?).elim 0 fun u => u.chunk
  | .coll => 0
  | .tile _ => p

/-- Whether a copy releases its chunks one by one: a plain CPY (R116). -/
def CmdOp.plain : CmdOp → Bool
  | .linear _ _ _ => true
  | .tensor d a tr _ _ => !tr && d.owner.isNone && a.owner.isNone
  | _ => false

/-- Release the chunks of the destination range that are performed (R116). -/
def State.releaseChunks (s : State) (id : Nat) : State :=
  match tget s.cmds id with
  | none => s
  | some c =>
    if !c.op.plain then s
    else
      let n := if c.total ≤ c.pos then 2 ^ 64 else 256 * c.op.chunkOf c.pos
      s.modBlk c.block fun b => { b with sb := b.sb.map fun e =>
        if e.cmd = id ∧ e.dst then { e with released := min e.len n } else e }

/-- A fault of a command (R223): PAGEFAULT pauses it on a fault entry; any other stops its block, and the policy receives
it. -/
def State.cmdFault (s : State) (id : Nat) (c : Cmd) (code va kinds : Nat) : State :=
  let st := stookOf c.core
  if code = cPAGEFAULT then
    match s.faultJoin st c.tag va code kinds none (some id) with
    | none => s
    | some (s, st, ix) => s.modCmd id fun x => { x with fault := some (st, ix) }
  else
    let s := if kinds = 0 then s else s.faultRecord st c.tag va code kinds
    (s.modCmd id fun x => { x with stopped := true }).toPolicy c.block .fault 3 code c.pc.toNat 0

/-- Perform pieces while they lie in the chunk; its writes may find no room in the snapshot store (R344). -/
def State.cmdRun (s : State) (id chunk : Nat) : Nat → State
  | 0 => s
  | fuel + 1 =>
    match tget s.cmds id with
    | none => s
    | some c =>
      if c.total ≤ c.pos ∨ c.op.chunkOf c.pos ≠ chunk then s.snapCheck c.block
      else match s.cmdPiece id c with
        | (n, .ok t) => (t.modCmd id fun x => { x with pos := c.pos + n, answers := [] }).cmdRun id chunk fuel
        | (_, .fault code va kinds) => s.cmdFault id c code va kinds
        | (_, .uce t) => (t.modCmd id fun x => { x with stopped := true }).uce c.block cUCE c.pc.toNat 0
        | (_, .wait t) => t
        | (_, .stall) => s

/-- Whether a command can go on: not waiting, not stopped, its block not frozen but by the watchdog (R223, R348). -/
def State.cmdReady (s : State) (c : Cmd) : Bool :=
  c.asks.isEmpty && c.fault.isNone && !c.stopped && !s.stopped && (match s.blk c.block with
    | some b => decide (b.frozen = .no) || decide (b.frozen = .watchdog)
    | none => decide (c.op = .coll))

/-- COPY_CHUNK_PERFORMED (R91, R116, R223, R233, R235): the command performs its next chunk. -/
def execCopyChunkPerformed (cmd : Nat) (s : State) : Out :=
  match tget s.cmds cmd with
  | none => .next s
  | some c =>
    if !s.cmdReady c ∨ c.total ≤ c.pos then .next s
    else .next (match s.cmdBegin cmd c with
      | .ok t => (t.cmdRun cmd (c.op.chunkOf c.pos) (c.total + 1)).releaseChunks cmd
      | .fault code va kinds => s.cmdFault cmd c code va kinds
      | .uce t => (t.modCmd cmd fun x => { x with stopped := true }).uce c.block cUCE c.pc.toNat 0
      | .wait t => t
      | .stall => s)

/-- Whether writes of a command to peers are not answered (R216). -/
def State.cmdWritesOut (s : State) (cmd : Nat) : Bool := s.links.any fun e => decide (e.2.cmd = some cmd) && e.2.write

/-- Whether an acknowledgement of such a write is late (R330). -/
def State.cmdWritesLate (s : State) (cmd : Nat) : Bool := s.links.any fun e => decide (e.2.cmd = some cmd) && e.2.write && e.2.late

/-- COMMAND_COMPLETE (R116, R232): its release is done, then its scoreboard entry clears and it is gone. -/
def execCommandComplete (cmd : Nat) (s : State) : Out :=
  match tget s.cmds cmd with
  | none => .next s
  | some c =>
    if c.op = .coll ∨ !s.cmdReady c ∨ c.pos < c.total then .next s
    else if ordRels c.fl.ord ∧ c.fl.scope = .sys ∧ s.cmdWritesOut cmd then
      .next (if s.cmdWritesLate cmd then
        ({ s with links := s.links.filter fun e => decide (e.2.cmd ≠ some cmd) }.modCmd cmd fun x => { x with stopped := true }).uce c.block cUCE c.pc.toNat 0
      else s)
    else
      let s := if !c.acquired ∧ ordAcqs c.fl.ord then s.acquireSide c.core c.fl.scope else s
      let s := if ordRels c.fl.ord then s.releaseSide c.core (some c.block) c.fl.scope else s
      .next ({ s with cmds := tdel s.cmds cmd }.modBlk c.block fun b => { b with sb := b.sb.filter fun e => decide (e.cmd ≠ cmd) })

/-! ### Issue -/

/-- The commands of a block that hold a scoreboard entry. -/
def Block.sbHeld (b : Block) : Nat := ((b.sb.map fun e => e.cmd).eraseDups).length

/-- Issue a command with the scratch ranges it writes or reads: it stalls without a free scoreboard entry, when its
destination meets one that is held, or when the core holds 48 commands (R115, R232). -/
def State.issueCmd (s : State) (op : CmdOp) (fl : CmdFlags) (scrI : Bool) (total : Nat) (ranges : List (Bool × Nat × Nat)) : Out :=
  match s.blk s.cur.block with
  | none => .fault .noIssuer
  | some b =>
    let c := coreOf s.cur.block
    if 48 ≤ (s.cmds.filter fun e => decide (e.2.core = c) && decide (e.2.op ≠ .coll)).length then .next s
    else if !ranges.isEmpty ∧ (16 ≤ b.sbHeld ∨ ranges.any fun r => r.1 && b.sb.any fun e =>
        e.dst && decide (r.2.1 < e.lo + e.len) && decide (e.lo < r.2.1 + r.2.2)) then .next s
    else
      let id := s.nextId
      let cmd : Cmd := { core := c, block := s.cur.block, who := s.cur, tag := b.tag, op := op, fl := fl, scrI := scrI, pos := 0,
                         total := total, acquired := false, pc := s.ir.pc, fault := none, stopped := false, ownersD := [],
                         ownersA := [], asks := [], answers := [] }
      let s := { s with nextId := id + 1, cmds := tset s.cmds id cmd }
      .next (s.modBlk s.cur.block fun b => { b with sb := b.sb ++ ranges.map fun r => SbEntry.mk id r.2.1 r.2.2 r.1 0 }).retire

/-- The ranges that the sides of a command in scratch take (R115). -/
def sideRange (scr dst : Bool) (lo n : Nat) : List (Bool × Nat × Nat) := if scr then [(dst, lo, n)] else []

/-- Whether two ranges share a byte. -/
def rangesMeet (a n b m : Int) : Bool := decide (a < b + m) && decide (b < a + n)

/-- CPY, linear form (R233, R234). -/
def State.cpyLinear (s : State) (fl : CmdFlags) (d a len : Nat) : Out :=
  if fl.scrD = fl.scrS ∧ rangesMeet d len a len then .next (s.trap cCOPYOVERLAP)
  else s.issueCmd (.linear d a len) fl false len (sideRange fl.scrD true d len ++ sideRange fl.scrS false a len)

/-- The ILLEGAL cases of the tensor form (R92, R233). -/
def tensorBad (fl : CmdFlags) (tr : Bool) (dd da dr : List Byte) : Bool :=
  let d := Tensor.parse dd
  let a := Tensor.parse da
  let start := (List.range 6).map fun k => fld dr (4 * k) 4
  let count := (List.range 6).map fun k => fld dr (24 + 4 * k) 4
  let dcount := if tr then swap01 count else count
  !tensorOk dd || !tensorOk da || !zeros dr 48 16 || decide (d.ty ≠ a.ty) || (d.packed != a.packed)
    || (List.range 6).any (fun k =>
      let n := (count[k]?).getD 0
      (if k < a.rank then decide (n = 0) else decide (n ≠ 0)) || decide (a.ext k < (start[k]?).getD 0 + n)
        || decide (d.ext k < (dcount[k]?).getD 0))
    || (tr && (a.packed || decide (a.rank < 2) || decide (d.rank < 2)))
    || (fl.scrD && d.owner.isSome) || (fl.scrS && a.owner.isSome)

/-- CPY, tensor form, once its records are read (R233, R234). -/
def State.cpyTensor (s : State) (fl : CmdFlags) (tr : Bool) (dd da dr : List Byte) : Out :=
  let d := Tensor.parse dd
  let a := Tensor.parse da
  let start := (List.range 6).map fun k => fld dr (4 * k) 4
  let count := (List.range 6).map fun k => fld dr (24 + 4 * k) 4
  if tensorBad fl tr dd da dr then .next (s.trap cILLEGAL)
  else
    let inplace := tr && decide (dd = da) && decide (fl.scrD = fl.scrS) && decide ((start[0]?) = (start[1]?))
      && decide ((count[0]?) = (count[1]?))
    let sd := d.span (start.map fun _ => 0) (if tr then swap01 count else count)
    let sa := a.span start count
    let meet : Bool := match d.owner, a.owner with
      | some x, some y => decide (x = y)
      | none, none => decide (fl.scrD = fl.scrS) && rangesMeet sd.1 (sd.2 - sd.1) sa.1 (sa.2 - sa.1)
      | _, _ => false
    if meet ∧ !inplace then .next (s.trap cCOPYOVERLAP)
    else
      let us := tensorUnits d a start count tr inplace
      s.issueCmd (.tensor d a tr inplace us) fl false us.length
        (sideRange fl.scrD true (if inplace then sa.1 else sd.1).toNat (if inplace then sa.2 - sa.1 else sd.2 - sd.1).toNat
          ++ sideRange fl.scrS false sa.1.toNat (sa.2 - sa.1).toNat)

/-- CPY (R232 to R234): the tensor form first reads its descriptors and its region record. -/
def execCpy (fl : CmdFlags) (form : CpyForm) (s : State) : Out :=
  s.onEngine .copy (match form with
    | .linear d a len => s.cpyLinear fl (s.sread s.cur d).toNat (s.sread s.cur a).toNat len.toNat
    | .tensor d a c tr =>
      match s.memGet (s.sread s.cur d).toNat 128 with
      | .ok s dd => (match s.memGet (s.sread s.cur a).toNat 128 with
        | .ok s da => (match s.memGet (s.sread s.cur c).toNat 64 with
          | .ok s dr => s.cpyTensor fl tr dd da dr
          | r => s.memStop r 1)
        | r => s.memStop r 1)
      | r => s.memStop r 1)

/-- A scratch side that indices address: from its base to the end of the allocation (R115). -/
def State.restOfScratch (s : State) (lo : Nat) : Nat :=
  match s.blk s.cur.block with
  | some b => b.kern.shared - lo
  | none => 0

/-- GATH and SCAT: what they share (R235). -/
def State.gather (s : State) (o : Gather) (scat : Bool) : Out :=
  s.onEngine .copy (
    let d := (s.sread s.cur o.d).toNat
    let a := (s.sread s.cur o.a).toNat
    let b := (s.sread s.cur o.b).toNat
    let n := (s.sread s.cur o.c).toNat
    let z := o.ty.bytes
    if 16777216 < n then .next (s.trap cILLEGAL)
    else
      let ranges := if n = 0 then []
        else sideRange o.fl.scrD true d (if scat then s.restOfScratch d else n * z)
          ++ sideRange o.fl.scrS false a (if scat then n * z else s.restOfScratch a)
          ++ sideRange o.scrI false b (4 * n)
      s.issueCmd (if scat then .scat d a b n z else .gath d a b n z) o.fl o.scrI n ranges)

/-- GATH (R235). -/
def execGath (o : Gather) (s : State) : Out := s.gather o false

/-- SCAT (R235). -/
def execScat (o : Gather) (s : State) : Out := s.gather o true

/-- CPYQ (R236): it stalls until at most n of the issuer's commands are in flight. -/
def execCpyq (d : SReg) (n : BitVec 8) (s : State) : Out :=
  s.onEngine .copy (
    let k := (s.cmds.filter fun e => decide (e.2.who = s.cur) && decide (e.2.op ≠ .coll)).length
    if 48 < n.toNat then .next (s.trap cILLEGAL)
    else if n.toNat < k then .next s
    else .next (s.putScalar d (BitVec.ofNat 64 k)))

end Sys2Proof.Machine
end

