-- ==== Sys2Proof/Machine/Barriers.lean ====
section
/-! DEFINITION. Barriers: the block barrier, numbered barriers, groups, and barrier objects in memory with their waiters
(R237 to R241, R303, R308 to R314). -/

namespace Sys2Proof.Machine

/-- BAR (R237, R308): the slot retires and waits; the wave arrives under R45. -/
def execBar (s : State) : Out :=
  s.onSlot fun v =>
    .next ((s.retire.modWave v.bid v.wid fun w =>
      { (w.setSlot v.k { w.slot v.k with status := .bar }) with barIssued := v.k :: w.barIssued }).tryBar v.bid v.wid)

/-- BARRIER_CLOSE_DONE (R237, R308, R343): products in progress complete first; then the interval closes. -/
def execBarrierCloseDone (block : Nat) (s : State) : Out :=
  match s.blk block with
  | none => .next s
  | some b =>
    if b.closing ∧ b.frozen = .no ∧ b.mat.queue0.isEmpty ∧ b.mat.queue1.isEmpty ∧ b.mat.queue2.isEmpty ∧ b.mat.queue3.isEmpty then
      .next (s.closeBar block)
    else .next s

/-- Whether every earlier instruction of a stream has been performed, commands of the copy engine aside (R238); what it sent to
peers is waited for beside this. -/
def State.streamIdle (s : State) (b : Block) (who : Issuer) (e : Engine) : Bool :=
  (decide (e ≠ .mat) || (b.mat.queue0.isEmpty && b.mat.queue1.isEmpty && b.mat.queue2.isEmpty && b.mat.queue3.isEmpty))
    && !s.sends.any (fun x => decide (x.2.who = who) && x.2.status.isNone) && !s.colls.any (fun x => decide (x.2.who = who))

/-- BARN of a slot (R238, R310). -/
def State.barnSlot (s : State) (v : View) (i : BarnIssue) : Out :=
  let x := v.b.nbar i.n
  let mine := v.w.barn.filter fun j => decide (j.n = i.n)
  let second := x.warr.getLsbD v.wid
  let counts := (i.count :: mine.map fun j => j.count).filter fun c => decide (c ≠ 0)
  let want := counts.headD 0
  if mine.any fun j => decide (j.slot = v.k) then .next s
  else if counts.any (fun c => decide (c ≠ want)) || (!second && decide (want ≠ 0) && decide (x.count ≠ 0) && decide (want ≠ x.count)) then
    .next (s.trap cILLEGAL)
  else match i.rcv with
    | some d => if s.scalarOver d then .next (s.trap cILLEGAL) else .next (go s x second)
    | none => .next (go s x second)
where
  go (s : State) (x : NBar) (second : Bool) : State :=
    let s := s.setPending s.cur fun l => l ++ i.rcv.toList
    let s := if second then
        s.modSlot v.bid v.wid v.k fun z => { z with status := .barn i.n x.parity true, ir := s.ir }
      else
        s.retire.modSlot v.bid v.wid v.k fun z => { z with status := if i.arv then .run else .barn i.n x.parity false }
    (s.modWave v.bid v.wid fun w => { w with barn := w.barn ++ [i] }).tryBarn v.bid v.wid i.n

/-- BARN of a stream (R238, R309). -/
def State.barnStream (s : State) (bid : Nat) (b : Block) (e : Engine) (ix : Nat) (i : BarnIssue) : Out :=
  let x := b.nbar i.n
  if !s.streamIdle b s.cur e then .next s
  else if s.writesOut s.cur then .next s.inRelease
  else
    let pend := s.setPending s.cur fun l => l ++ i.rcv.toList
    if x.sarr.contains (e, ix) then
      .next ((pend.modStream bid e ix fun z => { z with status := .barn i.n x.parity true, ir := s.ir, barn := some i }).modBlk bid
        fun b => b.setNbar i.n { b.nbar i.n with held := (b.nbar i.n).held ++ [.stream bid e ix] })
    else if i.count ≠ 0 ∧ x.count ≠ 0 ∧ i.count ≠ x.count then .next (s.trap cILLEGAL)
    else
      .next (((pend.retire.modStream bid e ix fun z => { z with status := if i.arv then .run else .barn i.n x.parity false }).recordStream
        bid e ix i).checkPhase bid i.n)

/-- BARN (R238). -/
def execBarn (arv : Bool) (rcv : Option SReg) (n : BitVec 8) (count : BitVec 7) (dlv : Option SReg) (s : State) : Out :=
  match s.cur with
  | .stream bid e ix => (match (s.blk bid).bind fun b => (b.stream e ix).map fun _ => b with
    | none => .fault .noIssuer
    | some b => s.barnStream bid b e ix ⟨0, n.toNat, count.toNat, dlv.map fun d => s.sread s.cur d, rcv, arv⟩)
  | .slot _ _ _ => s.onSlot fun v =>
    s.barnSlot v ⟨v.k, n.toNat, count.toNat, dlv.map fun d => s.sread s.cur d, rcv, arv⟩

/-- GBAR (R239, R303): its release side, then the wave waits for its group. -/
def execGbar (scope : Scope) (g : BitVec 8) (m : Option VNum) (s : State) : Out :=
  s.onSlot fun v =>
    if outOfWindow v ((m.map fun n => n.toNat).toList) then .next (s.trap cILLEGAL)
    else if (s.groupOf v.b v.w g.toNat).isNone then .next (s.trap cILLEGAL)
    else if s.releaseWaits s.cur scope then .next s.inRelease
    else
      let mask := fun (l : Nat) => match m with
        | some n => lane (s.vread v.bid v.w n.toNat) l
        | none => 0
      let i : GIssue := { slot := v.k, kind := 0, g := g.toNat, m := m.isSome,
                          lanes := (lanesOf v.sl.k0).map fun l => (l, if m.isSome then 1 else 0, mask l),
                          scope := scope, op := .add, ty := .none }
      .next ((s.releaseSide (coreOf v.bid) (some v.bid) scope).joinGroup v (.gbar g.toNat) i)

/-! ### Barrier objects -/

/-- Bytes of an object at its home (R240). -/
def State.objBytes (s : State) (key n : Nat) : List Byte :=
  (List.range n).map fun i => if 0x40000000000000 ≤ key then cget 0 s.hostMem (key - 0x40000000000000 + i) else s.dramByte (key + i)

/-- Write bytes of an object at its home. -/
def State.objPut (s : State) (key : Nat) (d : List Byte) : State :=
  if 0x40000000000000 ≤ key then
    { s with hostMem := d.zipIdx.foldl (fun (m : Mem) (e : Byte × Nat) => cset 0 m (key - 0x40000000000000 + e.2) e.1) s.hostMem }
  else s.dramWrite key d

/-- Whether a waiter's condition holds of the 64 bytes of its object (R241, R245, R311, R339). -/
def Waiter.holds (w : Waiter) (d : List Byte) : Bool :=
  match w.target with
  | some t => decide (t ≤ fld d 0 8)
  | none => (fld d 8 8).testBit w.chunk || decide (fld d 16 8 ≠ 0)

/-- A waiter is released: its instruction completes and performs its acquire side (R311). -/
def State.releaseWaiter (s : State) (w : Waiter) : State :=
  let s := { s with waiters := s.waiters.filter fun x => decide (x.who ≠ w.who) }
  let s := if w.acq then s.acquireSide (coreOf w.who.block) w.scope else s
  match w.who with
  | .slot b i k => s.modSlot b i k fun z => if z.status = .obj then z.resumeRetired else z
  | .stream b e ix => s.modStream b e ix fun z => if z.status = .obj then { z with status := .run, pc := z.ir.succ } else z

/-- Test the registered waiters of an object against its new contents; one that polls reads in its own time (R311, R312). -/
def State.testWaiters (s : State) (key : Nat) : State :=
  (s.waiters.filter fun w => decide (w.cell = key) && !w.polling && w.holds (s.objBytes key 64)).foldl
    (fun s w => s.releaseWaiter w) s

/-- Add to the COUNT of an object at its home, one by one, testing the waiters at each (R209, R241, R311). -/
def State.objAdd (s : State) (key : Nat) : Nat → State
  | 0 => s
  | n + 1 => ((s.objPut key (toLE 8 (fld (s.objBytes key 8) 0 8 + 1))).testWaiters key).objAdd key n

/-- An issuer waits with this status, its PC at its instruction. -/
def State.setWait (s : State) (st : SlotStatus) : State :=
  match s.cur with
  | .slot b w k => s.modSlot b w k fun z => { z with status := st, ir := s.ir }
  | .stream b e ix => s.modStream b e ix fun z => { z with status := st, ir := s.ir }

/-- The address of an object for the issuing instruction: a fault, a wait until its home is ready and the increments before it
have taken their time (R250), or the object. -/
def State.onObj (s : State) (va : Nat) (nd : Need) (kinds : Nat) (f : State → Obj → Out) : Out :=
  match s.findObj s.cur.block va nd with
  | (t, .ok o) => if s.countsOut s.cur then .next s else f t o
  | (t, .error c) => if c = 0 then .next s else .next (t.memFault .again c va 0 kinds)

/-- An object of this package as the issuer's core reaches it: its own copies of the line go home first (R250). -/
def State.nearObj (s : State) (o : Obj) : State :=
  if 0x40000000000000 ≤ o.key then s else s.toHome (coreOf s.cur.block) o.key 64

/-- Whether an object's line is poisoned (R326). -/
def State.objPoisoned (s : State) (o : Obj) (n : Nat) : Bool := decide (o.key < 0x40000000000000) && s.poisoned o.key n

/-- An update of a barrier object that a peer holds: the issuer waits for the home's acknowledgement and then retires (R250,
R256). -/
def State.askObj (s : State) (node pa n : Nat) (k : AccKind) (x : Nat) (d : List Byte) : State :=
  let q := s.askPeer s.cur none (s.tagOf s.cur) node pa n k .n64 x 0 objKey d
  (q.1.setAsks s.cur [(q.2, objKey)] (s.answersOf s.cur)).setWait .reply

/-- Whether the home of a peer's object has acknowledged the update that the issuer sent. -/
def State.objAcked (s : State) : Bool := (tget (s.answersOf s.cur) objKey).isSome

/-- BOINIT (R241, R311, R314). -/
def execBoinit (_scope : Scope) (a : SReg) (v : BitVec 32) (s : State) : Out :=
  s.onAny (if s.objAcked then .next s.retire else s.onObj (s.sread s.cur a).toNat ⟨false, true, false⟩ 2 fun s o =>
    let s := s.openInterval s.cur.block
    let d := toLE 8 v.toNat ++ List.replicate 56 (0 : Byte)
    match o.node with
    | some n => .next (s.askObj n o.key 64 .store 0 d)
    | none =>
      let s := (s.nearObj o).objPut o.key d
      .next (((s.unpoison o.key 64).testWaiters o.key)).retire)

/-- BOARR (R241, R311, R314). -/
def execBoarr (ord : Ord) (scope : Scope) (a : SReg) (n : BitVec 8) (s : State) : Out :=
  s.onAny (if s.objAcked then .next s.retire else s.onObj (s.sread s.cur a).toNat ⟨true, true, false⟩ 4 fun t o =>
    let c := coreOf s.cur.block
    if ordRels ord ∧ s.releaseWaits s.cur scope then .next s.inRelease
    else if o.node.isNone ∧ s.objPoisoned o 8 then .next t.uceCur
    else
      let t := if ordRels ord then t.releaseSide c (some s.cur.block) scope else t
      let t := t.openInterval s.cur.block
      match o.node with
      | some k => .next (t.askObj k o.key 8 (.atomic .add) n.toNat [])
      | none => .next ((t.nearObj o).objAdd o.key n.toNat).retire)

/-- Ask a peer for the line of an object it holds, for a waiter that polls. -/
def State.pollPeer (s : State) (w : Waiter) (node : Nat) : State :=
  let q := s.askPeer w.who none w.tag node w.cell 64 .load .b32 0 0 pollKey []
  q.1

/-- Wait until a condition holds of an object: the instruction completes at once, or a waiter is registered, which polls
where its slice has no free entry, and where the home is a peer's or the host's (R311, R312, log 19). -/
def State.waitObj (s : State) (va : Nat) (target : Option Nat) (chunk : Nat) (acq : Bool) (scope : Scope) : Out :=
  s.onObj va ⟨true, false, false⟩ 1 fun s o =>
    let w : Waiter :=
      { since := s.clock, who := s.cur, tag := s.tagOf s.cur, cell := o.key, peer := o.node, target := target, chunk := chunk, slice := o.slice,
        acq := acq, scope := scope,
        polling := decide (o.slice = 1024) || decide (64 ≤ (s.waiters.filter fun x => decide (x.slice = o.slice) && !x.polling).length) }
    match o.node with
    | some n => .next ({ s.setWait .obj with waiters := s.waiters ++ [w] }.pollPeer w n)
    | none =>
      if s.objPoisoned o 64 then .next s.uceCur
      else
        let s := s.nearObj o
        if w.holds ((List.range 64).map fun i =>
            if 0x40000000000000 ≤ o.key then cget 0 s.hostMem (o.key - 0x40000000000000 + i) else s.homeByte (some s.cur.block) (o.key + i)) then
          .next (if acq then s.retire.acquireSide (coreOf s.cur.block) scope else s.retire)
        else .next { s.setWait .obj with waiters := s.waiters ++ [w] }

/-- BOWAIT (R241, R311). -/
def execBowait (ord : Ord) (scope : Scope) (a b : SReg) (v : BitVec 32) (s : State) : Out :=
  s.onAny (s.waitObj (s.sread s.cur a).toNat (some (s.sread s.cur b + v.setWidth 64).toNat) 0 (ordAcqs ord) scope)

/-- COUNTED_ARRIVAL (R209, R268, R313): the increments of one counted store reach the object's home. -/
def execCountedArrival (ix : Nat) (s : State) : Out :=
  match s.cnts[ix]? with
  | none => .next s
  | some c =>
    let s := { s with cnts := s.cnts.eraseIdx ix }
    if !s.tagLive c.tag then .next s.dropStale
    else match c.node with
      | none => .next (s.objAdd c.obj c.n)
      | some node =>
        .next (s.askPeer c.who none c.tag node c.obj 8 (.atomic .add) .n64 c.n 0 cntKey []).1

/-- Whether a waiter that polls is to read its object again: 256 clocks after it last did (R312). -/
def Waiter.pollDue (w : Waiter) (now : Nat) : Bool := w.polling && decide (w.since + 256 ≤ now)

/-- WAITER_POLL (R312): a waiter that holds no entry reads the object again, every 256 clocks; a peer's object when the read
before has been answered. -/
def execWaiterPoll (ix : Nat) (s : State) : Out :=
  match s.waiters[ix]? with
  | none => .next s
  | some w =>
    let t : State := { s with waiters := s.waiters.map fun (x : Waiter) => if x.who = w.who then { x with since := s.clock } else x }
    if !w.pollDue s.clock then .next s
    else match w.peer with
      | some n => if s.links.any fun e => decide (e.2.who = w.who) && decide (e.2.lane = pollKey) then .next s else .next (t.pollPeer w n)
      | none => .next (if w.holds (s.objBytes w.cell 64) then s.releaseWaiter w else t)

end Sys2Proof.Machine
end

