-- ==== Sys2Proof/Machine/Messages.lean ====
section
/-! DEFINITION. Messages between cores: sends, posted receives, overflow queues, arrivals and statuses (R109 to R111, R242 to
R244). -/

namespace Sys2Proof.Machine

/-- A peer word (R242). -/
structure PeerWord where
  node : Nat
  any : Bool
  core : Nat
  tag : Nat
  deriving DecidableEq, Repr

def PeerWord.parse (x : Word64) : PeerWord := ⟨bitsOf x 63 45, x.getLsbD 41, bitsOf x 40 32, bitsOf x 31 0⟩

/-- The word that names a sender (R243). -/
def peerWord (node core tag : Nat) : Nat := node % 2 ^ 19 * 2 ^ 45 + core % 512 * 2 ^ 32 + tag % 2 ^ 32

/-- The data of a message packet: destination core, source core, tag, job, length, payload (log 11). -/
def msgData (dest src tag job : Nat) (d : List Byte) : List Byte :=
  toLE 2 dest ++ toLE 2 src ++ toLE 4 tag ++ toLE 4 job ++ toLE 4 d.length ++ d

/-- The receiving context of a message on this package (R109). -/
def State.receiver (s : State) (t : Tag) (job : Nat) : Option Nat :=
  if job = 0 then some t.slot
  else (s.ctxs.find? fun e => decide (e.2.state = .live) && decide (e.2.rcd.job = job)).map fun e => e.1

/-- Whether a send to a node has no receiver from the start: status 3 (R109, R243, R266, R331). -/
def State.noReceiver (s : State) (t : Tag) (p : PeerWord) : Bool :=
  let x := s.ctx t.slot
  if p.node = s.nodeId then false
  else decide (99 < p.node / 4096) || decide (x.rcd.job = 0) || !x.rcd.peers.contains p.node || x.unreachable.contains p.node

/-- A send leaves: by packet to a peer, or to a core of this package (R109, R332). -/
def State.sendMsg (s : State) (id : Nat) (t : Tag) (p : PeerWord) (d : List Byte) : State :=
  let c := coreOf s.cur.block
  let job := (s.ctx t.slot).rcd.job
  if s.noReceiver t p then
    { s with sends := tmod s.sends id fun (x : Send) => { x with status := some 3 } }
  else if p.node = s.nodeId then
    { s with msgs := s.msgs ++ [{ send := id, srcNode := s.nodeId, srcCore := c, tag := t, mtag := p.tag, dest := p.core, job := job,
                                  data := d, rid := 0, age := 0, since := s.clock, rcvSlot := 0 }] }
  else
    { s with links := tset s.links (id % 65536) ⟨s.cur, none, t, p.node, s.clock, false, false, sendKey, id⟩ }.sendPacket
      (s.packet t p.node .message (p.core % 256) 0 0 (id % 65536) 0 (msgData p.core c p.tag job d))

/-- XSEND (R242, R243, R344). -/
def execXsend (scr : Bool) (d a b : SReg) (len : BitVec 32) (s : State) : Out :=
  s.onEngine .msg (
    let p := PeerWord.parse (s.sread s.cur a)
    let src := (s.sread s.cur b).toNat
    let c := coreOf s.cur.block
    if p.any ∨ s.scalarOver d then .next (s.trap cILLEGAL)
    else if 64 ≤ (s.sends.filter fun e => decide (e.2.core = c) && e.2.status.isNone).length then .next s
    else match s.blk s.cur.block with
      | none => .fault .noIssuer
      | some blk =>
        let r : MemRes := if scr then
            (if blk.scrOk src len.toNat then (if s.scrPoison s.cur.block blk src len.toNat then .uce s else .ok s (s.scrBytes s.cur.block blk src len.toNat)) else .fault s cPROTFAULT src)
          else s.memGet src len.toNat
        match r with
        | .ok s x =>
          let s := s.openInterval s.cur.block
          let id := s.nextId
          let s := { s with nextId := id + 1, sends := tset s.sends id ⟨s.cur, c, d, blk.tag, none⟩ }
          let s := if d = 0 then s else s.setPending s.cur fun l => l ++ [d]
          .next (s.sendMsg id blk.tag p x).retire
        | r => s.memStop r (if scr then 0 else 1))

/-- Whether a posted receive takes a message (R110). -/
def Post.takes (p : Post) (slot : Nat) (m : Msg) : Bool :=
  decide (p.state = 0) && p.msg.isNone && decide (p.tag.slot = slot) && decide (p.mtag = m.mtag) && (match p.src with
    | none => true
    | some x => decide (x = (m.srcNode, m.srcCore)))

/-- The record of a receive (R243). -/
def msgRecord (m : Msg) : List Byte := toLE 8 (peerWord m.srcNode m.srcCore m.mtag) ++ toLE 1 m.data.length ++ [1] ++ toLE 6 0

/-- Write the buffer of a receive: payload at 0, then the record at 64 (R243, log 20). A scratch buffer is that of the block that
issued the receive, wherever it is bound. -/
def State.writeBuffer (s : State) (c : Nat) (p : Post) (m : Msg) : UnitRes :=
  if p.scr then
    match (s.findBlk p.grid p.blockId).bind fun bid => (s.blk bid).map fun b => (bid, b) with
    | none => .park
    | some (bid, b) =>
      if b.scrOk p.buf 80 then .done ((s.scrWrite bid b p.buf m.data).scrWrite bid b (p.buf + 64) (msgRecord m)) []
      else .fail s cPROTFAULT p.buf
  else
    match s.unitPut c p.tag p.buf m.data with
    | .done s r => match s.unitPut c p.tag (p.buf + 64) (msgRecord m) with
      | .done s q => .done s (r ++ q)
      | x => x
    | x => x

/-- A page fault of a unit's write opens an entry, unless the granule has one (R323). -/
def State.unitFault (s : State) (c : Nat) (t : Tag) (code va : Nat) : State :=
  if code ≠ cPAGEFAULT ∨ s.faults.any fun e => decide (e.2.granule = va / 0x10000 * 0x10000) && decide (e.2.tag = t) then s
  else match s.faultJoin (stookOf c) t va code 2 none none with
    | some (s, _, _) => s
    | none => s

/-- Give a message to a receive of a core: the receive is done once both writes are performed (R243). While they cannot be, it
holds the message, and its unit tries again (log 20). -/
def State.takeMsg (s : State) (c ix : Nat) (p : Post) (m : Msg) : State :=
  let put := fun (s : State) (p : Post) => s.modCore c fun k => { k with posts := tset k.posts ix p }
  match s.writeBuffer c p m with
  | .done s rids => put s (if rids.isEmpty then { p with state := 1, msg := none } else { p with msg := some m, rids := rids })
  | .park => put s { p with msg := some m }
  | .fail s code va => put (s.unitFault c p.tag code va) { p with msg := some m }

/-- A receive whose buffer is not written goes on: the writes that are on their way have been acknowledged, or it tries again. -/
def State.retryPost (s : State) (c ix : Nat) (p : Post) : State :=
  match p.msg with
  | none => s
  | some m =>
    if p.rids.isEmpty then s.takeMsg c ix p m
    else if p.rids.any fun r => (tget s.links r).isSome then s
    else s.modCore c fun k => { k with posts := tset k.posts ix { p with state := 1, msg := none, rids := [] } }

/-- Every receive that holds a message goes on. -/
def State.retryPosts (s : State) : State :=
  s.cores.foldl (fun s e => e.2.posts.foldl (fun s p => s.retryPost e.1 p.1 p.2) s) s

/-- The oldest posted receive of a core that takes a message (R110). -/
def Core.match_ (k : Core) (slot : Nat) (m : Msg) : Option (Nat × Post) :=
  (k.posts.filter fun e => decide (e.1 < 64) && e.2.takes slot m).foldl (fun r e => match r with
    | none => some e
    | some x => if e.2.seq < x.2.seq then some e else some x) none

/-- The age of a message that a unit holds (R270). -/
def Msg.ageNow (m : Msg) (now : Nat) : Nat := min 4095 (m.age + microsUp (now - m.since))

/-- Report the status of a message to its sender: its send is filled, or a response leaves for the peer (R243). -/
def State.reportMsg (s : State) (m : Msg) (st : Nat) : State :=
  if m.srcNode = s.nodeId then
    { s with sends := tmod s.sends m.send fun (x : Send) => { x with status := some st } }
  else s.sendPacket { s.packet m.tag m.srcNode .response (m.dest % 256) 0 0 m.rid (m.ageNow s.clock) (toLE 1 st) with src := m.srcNode }

/-- A message meets the receives of its receiving context: it is taken, queued or refused (R110, R111). -/
def State.deliver (s : State) (m : Msg) (slot : Nat) : State :=
  let c := m.dest
  match (s.core c).match_ slot m with
  | some (ix, p) => (s.takeMsg c ix p m).reportMsg m 0
  | none =>
    let k := s.core c
    let quota := (cget (0, 0) k.quota slot).2
    if (k.ovf.filter fun x => decide (x.rcvSlot = slot)).length < quota then
      (s.setCore c { k with ovf := k.ovf ++ [{ m with rcvSlot := slot }] }).reportMsg m 0
    else
      let s := if k.msgovf.contains slot then s
        else (s.setCore c { k with msgovf := slot :: k.msgovf }).postEvent ⟨slot, (s.ctx slot).inc⟩
          { ty := 7, cause := cMSGOVF, qix := 0, blockId := 0, kernel := 0, faultPc := 0, core := c, skid := 0, interval := 0 }
      s.reportMsg m 1

/-- MESSAGE_ARRIVAL (R109 to R111, R268, R270): message `ix` reaches its core, unless an earlier one from the same core to the same
core is still on its way. One whose tag is stale, or a peer's that is too old, is dropped; a number that no core has, or that is
left without a unit, gives status 3 (R243, R353). -/
def execMessageArrival (ix : Nat) (s : State) : Out :=
  match s.msgs[ix]? with
  | none => .next s
  | some m =>
    if (s.msgs.take ix).any fun x => decide (x.srcNode = m.srcNode) && decide (x.srcCore = m.srcCore) && decide (x.dest = m.dest) then .next s
    else
      let s := { s with msgs := s.msgs.eraseIdx ix }
      if (m.srcNode = s.nodeId ∧ !s.tagLive m.tag) ∨ (m.srcNode ≠ s.nodeId ∧ 2000 ≤ m.ageNow s.clock) then .next s.dropStale
      else if 512 ≤ m.dest ∨ s.unitFallow .core m.dest then .next (s.reportMsg m 3)
      else match s.receiver m.tag m.job with
        | none => .next (s.reportMsg m 3)
        | some slot => .next (s.deliver m slot)

/-- SEND_STATUS_RETURN (R243): the pending register is filled. -/
def execSendStatusReturn (send : Nat) (s : State) : Out :=
  match tget s.sends send with
  | none => .next s
  | some x => match x.status with
    | none => .next s
    | some st =>
      let s := { s with sends := tdel s.sends send }
      .next (if x.d = 0 then s else s.fillPending x.who x.d (BitVec.ofNat 64 st))

/-- A receive handle (R243). -/
def postHandle (ix gen core : Nat) : Word64 := BitVec.ofNat 64 (ix % 64 + gen % 256 * 2 ^ 8 + core % 512 * 2 ^ 32)

/-- The key of a receive that was never posted: its INDEX and GEN (R110). -/
def takenKey (ix gen : Nat) : Nat := 64 + ix + 64 * gen

/-- Post a receive, or let it take a queued message at once (R110). -/
def State.newPost (s : State) (c key gen ix : Nat) (q : Post) (m : Option Msg) : State :=
  let s := s.modCore c fun k => { k with posts := tset k.posts key q, postGens := cset 0 k.postGens ix gen, postSeq := k.postSeq + 1 }
  match m with
  | none => s
  | some m => (s.takeMsg c key q m).modCore c fun k =>
    { k with ovf := k.ovf.erase m, msgovf := k.msgovf.filter fun x => decide (x ≠ q.tag.slot) }

/-- XPOST (R110, R243): a receive that an entry of the overflow queue matches takes it at once and is never posted; else it is
posted, and a full quota gives bit 63. -/
def execXpost (scr : Bool) (d a b : SReg) (tag : BitVec 32) (s : State) : Out :=
  s.onEngine .msg (
    let p := PeerWord.parse (s.sread s.cur a)
    let c := coreOf s.cur.block
    let k := s.core c
    let t := s.tagOf s.cur
    let used := (k.posts.filter fun e => decide (e.1 < 64) && decide (e.2.tag.slot = t.slot)).length
    let free := tfree k.posts 64 0
    let ix := free % 64
    let gen := (cget 0 k.postGens ix + 1) % 256
    match s.blk s.cur.block with
    | none => .fault .noIssuer
    | some blk =>
      let q : Post := { gen := gen, tag := t, src := if p.any then none else some (p.node, p.core), mtag := tag.toNat,
                        buf := (s.sread s.cur b).toNat, scr := scr, grid := blk.grid, blockId := blk.blockId, state := 0,
                        seq := k.postSeq, msg := none, rids := [] }
      if s.scalarOver d then .next (s.trap cILLEGAL)
      else
        let s := s.openInterval s.cur.block
        match k.ovf.find? fun m => decide (m.rcvSlot = t.slot) && q.takes t.slot m with
        | some m => .next ((s.newPost c (takenKey ix gen) gen ix q (some m)).putScalar d (postHandle ix gen c))
        | none =>
          if (cget (0, 0) k.quota t.slot).1 ≤ used ∨ 64 ≤ free then .next (s.putScalar d (BitVec.ofNat 64 (2 ^ 63)))
          else .next ((s.newPost c ix gen ix q none).putScalar d (postHandle ix gen c)))

/-- The receive that a handle of the issuer's context names, on any core of the package (R243, R244): core, key and receive. -/
def State.postOf (s : State) (h : Word64) : Option (Nat × Nat × Post) :=
  let c := bitsOf h 40 32
  let ix := bitsOf h 5 0
  let gen := bitsOf h 15 8
  let at_ := fun (key : Nat) => match tget (s.core c).posts key with
    | none => none
    | some p => if p.gen = gen ∧ p.tag = s.tagOf s.cur then some (c, key, p) else none
  if bitsOf h 63 41 ≠ 0 ∨ bitsOf h 31 16 ≠ 0 ∨ bitsOf h 7 6 ≠ 0 then none
  else (at_ ix).or (at_ (takenKey ix gen))

/-- Free a receive. -/
def State.freePost (s : State) (c ix : Nat) : State := s.modCore c fun k => { k with posts := tdel k.posts ix }

/-- XPROBE (R244, R344): a receive that is done is reported once; with .wait a pending one blocks the slot (R37). -/
def execXprobe (wait : Bool) (d a : SReg) (s : State) : Out :=
  s.onEngine .msg (
    if s.scalarOver d then .next (s.trap cILLEGAL)
    else match s.postOf (s.sread s.cur a) with
      | none => .next (s.putScalar d 3)
      | some (c, ix, p) =>
        if p.state = 0 then (if wait then .next (s.blockCur (.post c ix p.gen)) else .next (s.putScalar d 0))
        else
          let s := ((s.freePost c ix).openInterval s.cur.block).acquireSide (coreOf s.cur.block) .dev
          .next (s.putScalar d 1))

/-- XCANCEL (R244, R344). -/
def execXcancel (d a : SReg) (s : State) : Out :=
  s.onEngine .msg (
    if s.scalarOver d then .next (s.trap cILLEGAL)
    else
      let r := s.postOf (s.sread s.cur a)
      let s := s.openInterval s.cur.block
      match r with
      | none => .next (s.putScalar d 3)
      | some (c, ix, p) => .next ((s.freePost c ix).putScalar d (if p.state = 0 ∧ p.msg.isNone then 2 else 1)))

end Sys2Proof.Machine
end

