-- ==== Sys2Proof/Machine/Collectives.lean ====
section
/-! DEFINITION. Collective plans: COLL, the contributions of the ranks, the inner nodes of the tree that a core forms, the chunks
they complete, aborts, and WAITCHUNK (R245, R335 to R339). What goes up the tree, and what comes back, is in Ops. -/

namespace Sys2Proof.Machine

/-- A plan record (R335). -/
def planOf (d : List Byte) (ranks : List (Nat × Nat)) (locs : List Nat) : Plan :=
  { op := fld d 0 1, red := fld d 1 1, dtype := fld d 2 1, nchunk := fld d 3 1, chunk := fld d 4 4, ranks := ranks,
    sw := decide (fld d 12 4 % 2 = 1), locs := locs, planid := fld d 16 8 }

/-- A rank word: node and core (R335). -/
def rankOf (x : Nat) : Nat × Nat := (x / 2 ^ 32 % 2 ^ 19, x % 512)

/-- Whether the fields of a plan record are in range (R335). -/
def planRecOk (d : List Byte) : Bool :=
  let p := planOf d [] []
  let red := decide (p.op = 1) || decide (p.op = 2)
  decide (1 ≤ p.op) && decide (p.op ≤ 4) && (if red then decide (p.red ≤ 2) else decide (p.red = 0))
    && (decide (p.dtype = 5) || decide (p.dtype = 10) || decide (p.dtype = 11)) && decide (1 ≤ p.nchunk) && decide (p.nchunk ≤ 64)
    && decide (p.chunk % 256 = 0) && decide (256 ≤ p.chunk) && decide (p.chunk ≤ 0x1000000) && decide (2 ≤ fld d 8 4)
    && decide (fld d 8 4 ≤ 409600) && decide (fld d 12 4 ≤ 1) && decide (p.planid < 2 ^ 48) && decide (fld d 24 8 % 8 = 0)
    && zeros d 40 24 && (!p.sw || decide (fld d 32 8 ≠ 0))

/-- Whether its rank words are in range: each names a core of a package, none twice, and those of a plan that reduces in switches lie
in one domain (R13, R331, R335). -/
def planRanksOk (d : List Byte) (words : List Nat) : Bool :=
  let p := planOf d (words.map rankOf) []
  words.all (fun x => decide (x < 2 ^ 51) && decide (x % 2 ^ 32 < 512)) && p.ranks.all (fun r => decide (r.1 / 4096 ≤ 99))
    && decide (words.eraseDups.length = words.length)
    && (!p.sw || p.ranks.all fun r => decide (r.1 / 4096 = (p.ranks.headD (0, 0)).1 / 4096))

/-- The DTYPE of a plan (R335). -/
def Plan.ty (p : Plan) : Ty := if p.dtype = 5 then .s32 else if p.dtype = 10 then .bf16 else .f32
/-- Its operator (R335). -/
def Plan.redOp (p : Plan) : RedOp := if p.red = 0 then .add else if p.red = 1 then .min else .max
/-- Whether it reduces. -/
def Plan.reduces (p : Plan) : Bool := decide (p.op = 1) || decide (p.op = 2)
/-- The rank whose data chunk c copies, for the two that do not reduce (R338). -/
def Plan.srcRank (p : Plan) (c : Nat) : Nat := if p.op = 3 then c % p.ranks.length else 0
/-- Whether a rank gives data to chunk c. -/
def Plan.gives (p : Plan) (r c : Nat) : Bool := p.reduces || decide (r = p.srcRank c)
/-- Whether a rank's DST receives chunk c (R338). -/
def Plan.takes (p : Plan) (r c : Nat) : Bool := decide (p.op ≠ 2) || decide (r = c % p.ranks.length)

/-- What an inner node makes of its inputs: the operator on each element, the lower ranks on the left; or the input that has data
(R338). -/
def Plan.join (p : Plan) (a b : List Byte) : List Byte :=
  if p.reduces then
    let z := p.ty.bytes
    (List.range (p.chunk / z)).flatMap fun e => toLE z (planeOp p.redOp p.ty (fld a (z * e) z) (fld b (z * e) z))
  else if a.isEmpty then b else a

/-- Whether a contribution is one to chunk c of an instance at its core, from a subtree or as its result (R337). -/
def Contrib.isOf (e : Contrib) (x : Coll) (node : Option (Nat × Nat)) (c : Nat) : Bool :=
  decide (e.core = x.core) && decide (e.planid = x.plan.planid) && decide (e.epoch = x.epoch) && decide (e.node = node) && decide (e.chunk = c)

/-- The bytes of chunk c that a core has from a subtree, or as its result, when all have come; none where it gives no data. -/
def State.chunkOf (s : State) (x : Coll) (node : Option (Nat × Nat)) (c : Nat) : Option (List Byte) :=
  let l := s.contribs.filter fun e => e.isOf x node c && !e.abort
  if l.any fun e => e.data.isEmpty then some []
  else
    let ps := (List.range (x.plan.chunk / 256)).map fun i => l.find? fun e => decide (e.off = 256 * i) && decide (256 ≤ e.data.length)
    if ps.all fun p => p.isSome then some (ps.flatMap fun p => ((p.map fun e => e.data).getD []).take 256) else none

/-- Whether an abort for chunk c has come from a subtree, or in place of its result (R339). -/
def State.heardAbort (s : State) (x : Coll) (node : Option (Nat × Nat)) (c : Nat) : Bool :=
  s.contribs.any fun e => e.isOf x node c && e.abort

/-- The inner nodes of chunk c that a core forms and has not formed, the lowest first. -/
def Coll.toForm (x : Coll) (c : Nat) : List (Nat × Nat) :=
  ((x.plan.own x.rank).reverse.filter fun e => !x.formed.contains (c, e.2.2)).map fun e => e.2

/-- The two subtrees of an inner node. -/
def halves (e : Nat × Nat) : (Nat × Nat) × (Nat × Nat) := ((e.1, treeSplit e.2), (e.1 + treeSplit e.2, e.2 - treeSplit e.2))

/-- An inner node of chunk c, formed by this core, whose two inputs have come, with its output (R338). -/
def State.nodeReady (s : State) (x : Coll) (c : Nat) : Option ((Nat × Nat) × List Byte) :=
  (x.toForm c).findSome? fun e =>
    match s.chunkOf x (some (halves e).1) c, s.chunkOf x (some (halves e).2) c with
    | some a, some b => some (e, x.plan.join a b)
    | _, _ => none

/-- One of them that has met an abort (R339). -/
def State.nodeAborted (s : State) (x : Coll) (c : Nat) : Option (Nat × Nat) :=
  (x.toForm c).find? fun e => s.heardAbort x (some (halves e).1) c || s.heardAbort x (some (halves e).2) c

/-- The scope of a collective's releases of its chunks: its own, or .dev where none is given (R245). -/
def Coll.rel (x : Coll) : Scope := if x.ord = .none ∧ x.scope = .blk then .dev else x.scope

def State.modColl (s : State) (id : Nat) (f : Coll → Coll) : State := { s with colls := tmod s.colls id f }

/-- OR a word into a barrier object at its home: CHUNKS at 8, ABORTED at 16 (R240, R245, R339). -/
def State.objOr (s : State) (x : Coll) (off v : Nat) : State :=
  match x.onode with
  | none => (s.objPut (x.obj + off) (toLE 8 (Nat.lor (fld (s.objBytes (x.obj + off) 8) 0 8) v))).testWaiters x.obj
  | some n => (s.askPeer x.who none x.tag n (x.obj + off) 8 (.atomic .or) .n64 v 0 noKey []).1

/-- Add 1 to the COUNT of a collective's object. -/
def State.objOne (s : State) (x : Coll) : State :=
  match x.onode with
  | none => s.objAdd x.obj 1
  | some n => (s.askPeer x.who none x.tag n x.obj 8 (.atomic .add) .n64 1 0 noKey []).1

/-- Whether a release of the instance at a scope waits for its peers (R216). -/
def State.collWaits (s : State) (id : Nat) (sc : Scope) : Bool := decide (sc = .sys) && s.cmdWritesOut id

/-- Whether a collective's last release may be performed: at its scope, and where a chunk was aborted also at that of its chunks. -/
def State.collEnds (s : State) (id : Nat) (x : Coll) : Bool :=
  !(ordRels x.ord && s.collWaits id x.scope) && !(decide (x.abort ≠ 0) && s.collWaits id x.rel)

/-- The end of an instance: ABORTED if a chunk was, COUNT advances, the command's release is performed, and the instance is over
(R245, R339). -/
def State.collOver (s : State) (id : Nat) (x : Coll) : State :=
  let s := if x.abort = 0 then s else (s.releaseSide x.core (some x.block) x.rel).objOr x 16 1
  let s := s.objOne x
  let s := if ordRels x.ord then s.releaseSide x.core (some x.block) x.scope else s
  let s := ({ s with colls := tdel s.colls id, cmds := tdel s.cmds id } : State).collForget x
  if x.gone.isEmpty then s else { s with collDead := x :: s.collDead }

/-- The instance ends when no chunk of it is outstanding (R245, R339). -/
def State.collFinish (s : State) (id : Nat) : State :=
  match tget s.colls id with
  | none => s
  | some x => if x.openChunks.isEmpty && s.collEnds id x then s.collOver id x else s

/-- Read `n` words of `z` bytes for the issuer. -/
def wordsOf (z : Nat) (d : List Byte) (n : Nat) : List Nat := (List.range n).map fun i => fld d (z * i) z

/-- A rank registers its tag with every package that holds another rank and that it may address (R333, R339). -/
def State.collRegister (s : State) (x : Coll) : State :=
  let nodes := ((x.plan.ranks.map fun r => r.1).eraseDups).filter fun n => decide (n ≠ s.nodeId) && !s.collBarred x n
  nodes.foldl (fun (s : State) n => s.sendPacket (s.packet x.tag n .contribution 0 x.plan.planid (collAux x.epoch false 0) 0 0
    (contribData 0 x.rank 0 0 false []))) s

/-- The other slot of the issuer's wave, where it waits at its COLL, has reached it with this one: it goes on (R45). -/
def State.collMeet (s : State) : State :=
  match s.cur with
  | .slot b w k => s.modSlot b w (1 - k) fun z => if z.status = .blocked .coll then z.resumeRetired else z
  | .stream _ _ _ => s

/-- Whether the other slot of a split wave is live and has not reached a COLL (R45). -/
def State.collAlone (s : State) : Bool :=
  match s.cur with
  | .slot b w k => match s.view b w (1 - k) with
    | some v => v.sl.live && decide (v.sl.status ≠ .blocked .coll)
    | none => false
  | .stream _ _ _ => false

/-- Start a collective once its records are read (R245, R337, R344). -/
def State.collStart (s : State) (ord : Ord) (scope : Scope) (p : Plan) (arg : List Byte) (o : Obj) : Out :=
  match s.blk s.cur.block with
  | none => .fault .noIssuer
  | some b =>
    let c := coreOf s.cur.block
    let rank := fld arg 16 4
    if p.ranks[rank]? ≠ some (s.nodeId, c) ∨ !zeros arg 24 8 then .next (s.trap cILLEGAL)
    else
      let s := s.openInterval s.cur.block
      let s := if ordAcqs ord then s.acquireSide c scope else s
      let id := s.nextId
      let x : Coll :=
        { who := s.cur, was := s.cur, core := c, block := s.cur.block, tag := b.tag, plan := p, src := fld arg 0 8, dst := fld arg 8 8, rank := rank,
          epoch := fld arg 20 4, obj := o.key, onode := o.node, ord := ord, scope := scope, pc := s.ir.pc, sent := [], formed := [],
          gone := [], wrote := [], done := 0, abort := 0 }
      let io : Cmd :=
        { core := c, block := s.cur.block, who := s.cur, tag := b.tag, op := .coll, fl := ⟨ord, scope, false, false⟩, scrI := false,
          pos := 0, total := 0, acquired := true, pc := s.ir.pc, fault := none, stopped := false, ownersD := [], ownersA := [],
          asks := [], answers := [] }
      let t : State := { s with nextId := id + 1, colls := tset s.colls id x, cmds := tset s.cmds id io }
      .next (t.collRegister x).collMeet.retire

/-- COLL (R45, R245, R335, R337): it reads the plan, the ranks, the switch words and the argument block, and starts. -/
def execColl (ord : Ord) (scope : Scope) (a b : SReg) (plan : BitVec 32) (s : State) : Out :=
  s.onEngine .coll (
    match s.kernOf s.cur.block with
    | none => .fault .noIssuer
    | some kern =>
      let arg := (s.sread s.cur a).toNat
      if kern.nplan ≤ plan.toNat then .next (s.trap cILLEGAL)
      else if s.collAlone then .next (s.setWait (.blocked .coll))
      else if 16 ≤ (s.colls.filter fun e => decide (e.2.core = coreOf s.cur.block)).length then .next s
      else match s.memGet (kern.plantab + 8 * plan.toNat) 8 with
        | .ok s p =>
          if leNat p % 64 ≠ 0 then .next (s.trap cILLEGAL)
          else match s.memGet (leNat p) 64 with
          | .ok s d =>
            let n := fld d 8 4
            let sw := fld d 32 8
            if !planRecOk d ∨ arg % 32 ≠ 0 then .next (s.trap cILLEGAL)
            else (match s.memGet (fld d 24 8) (8 * n) with
            | .ok s ws => (match s.memGet sw (if sw = 0 then 0 else 2 * (n - 1)) with
              | .ok s ls => (match s.memGet arg 32 with
                | .ok s y =>
                  if !planRanksOk d (wordsOf 8 ws n) then .next (s.trap cILLEGAL)
                  else s.onObj (s.sread s.cur b).toNat ⟨true, true, false⟩ 4 fun s o =>
                    s.collStart ord scope (planOf d ((wordsOf 8 ws n).map rankOf) (wordsOf 2 ls (ls.length / 2))) y o
                | r => s.memStop r 1)
              | r => s.memStop r 1)
            | r => s.memStop r 1)
          | r => s.memStop r 1
        | r => s.memStop r 1)

/-! ### The chunks -/

/-- Send a subtree's output for chunk c: its pieces. -/
def State.collSend (s : State) (x : Coll) (lo n c : Nat) (d : List Byte) : State :=
  (chunkPieces d).foldl (fun (s : State) e => s.collUp x lo n c e.1 e.2 false) s

/-- A rank contributes its leaf of chunk c to the inner node that takes it (R337, R338); a node that the context may not address stops
the collective (R266). -/
def State.collContribute (s : State) (id : Nat) (x : Coll) (io : Cmd) (c : Nat) : CmdRes :=
  let sent := fun (s : State) (d : List Byte) =>
    CmdRes.ok ((s.modColl id fun x => { x with sent := c :: x.sent }).collSend x x.rank 1 c d)
  if (s.collDest x x.rank 1).any fun e => s.collBarred x e.1 then .fault cPROTFAULT 0 0
  else if !x.plan.gives x.rank c then sent s []
  else (s.placeGet id io (.va (x.src + c * x.plan.chunk)) x.plan.chunk).thenDo 1 sent

/-- Form an inner node: its output goes up the tree. The root's goes to every rank, to each whose DST takes it with the data, once
all have registered (R338, R339). -/
def State.collForm (s : State) (id : Nat) (x : Coll) (c : Nat) (e : Nat × Nat) (d : List Byte) : CmdRes :=
  let n := x.plan.ranks.length
  let mark := fun (s : State) => s.modColl id fun x => { x with formed := (c, e.2) :: x.formed }
  match s.collDest x e.1 e.2 with
  | some (dest, _) => if s.collBarred x dest then .fault cPROTFAULT 0 0 else .ok ((mark s).collSend x e.1 e.2 c d)
  | none =>
    if x.plan.ranks.zipIdx.any fun r => decide (r.1.1 ≠ s.nodeId) && (s.collTag x r.2).isNone then .stall
    else .ok ((List.range n).foldl (fun (s : State) q =>
      (chunkPieces (if x.plan.takes q c then d else [])).foldl (fun (s : State) p => s.resultTo x q c p.1 p.2 false) s) (mark s))

/-- Write chunk c's result, where DST takes it; its bit is still to be set (R338). -/
def State.collWrite (s : State) (id : Nat) (x : Coll) (io : Cmd) (c : Nat) (d : List Byte) : CmdRes :=
  let fin := fun (s : State) => CmdRes.ok (s.modColl id fun x => { x with wrote := c :: x.wrote })
  if d.isEmpty then fin s
  else (s.placePut id io (.va (x.dst + c * x.plan.chunk)) d).thenDo 2 fun s _ => fin s

/-- Set the bit of a chunk that is written, as a release at the collective's scope (R216, R245, R330). -/
def State.collBit (s : State) (id : Nat) (x : Coll) (c : Nat) : CmdRes :=
  if s.collWaits id x.rel then (if s.cmdWritesLate id then .uce s else .stall)
  else .ok (((s.releaseSide x.core (some x.block) x.rel).objOr x 8 (2 ^ c)).modColl id fun x => { x with done := x.done ||| (1 <<< c) })

/-- What the unit of a rank does next for a chunk whose bit is not set: it contributes its leaf, forms an inner node, writes the
result, sets the bit (R245, R338). -/
def State.collNext (s : State) (id : Nat) (x : Coll) (io : Cmd) (c : Nat) : CmdRes :=
  if !x.sent.contains c then s.collContribute id x io c
  else match s.nodeReady x c with
    | some (e, d) => s.collForm id x c e d
    | none =>
      if x.wrote.contains c then s.collBit id x c
      else match s.chunkOf x none c with
        | some d => (match s.collWrite id x io c d with
          | .ok t => (match tget t.colls id with
            | some y => (match t.collBit id y c with
              | .stall => .ok t
              | r => r)
            | none => .ok t)
          | r => r)
        | none => .stall

/-- The block that a fault of a collective stops: its own, or the block of its issuer once that was restored (R47, R223). -/
def State.collBlock (s : State) (io : Cmd) : Nat := if (s.blk io.block).isSome then io.block else io.who.block

/-- What a step of a collective did: the answers used are forgotten, a fault goes the way of a command's (R223). -/
def State.collDid (s : State) (id : Nat) (io : Cmd) (r : CmdRes) : State :=
  match r with
  | .ok t => t.modCmd id fun y => { y with answers := [] }
  | .fault code va kinds => s.cmdFault id { io with block := s.collBlock io } code va kinds
  | .uce t =>
    (({ t with links := t.links.filter fun e => !(decide (e.2.cmd = some id) && e.2.late) } : State).modCmd id fun y =>
      { y with stopped := true }).uce (s.collBlock io) cUCE io.pc.toNat 0
  | .wait t => t
  | .stall => s

/-- Whether a kept contribution to chunk c belongs to another plan: its core holds no instance of its own (R337). -/
def State.collClashes (s : State) (x : Coll) (c : Nat) (e : Contrib) : Bool :=
  decide (e.core = x.core) && decide (e.epoch = x.epoch) && decide (e.chunk = c) && decide (e.planid ≠ x.plan.planid)
    && !s.colls.any fun k => decide (k.2.core = e.core) && decide (k.2.epoch = e.epoch) && decide (k.2.plan.planid = e.planid)

/-- A contribution has met a different PLANID: it is gone, and the block of every COLL that holds the instance is stopped (R223,
R337). -/
def State.collClash (s : State) (x : Coll) (c : Nat) : State :=
  let hold := (s.colls.filter fun k => decide (k.2.plan.planid = x.plan.planid) && decide (k.2.epoch = x.epoch)).map fun k => k.1
  hold.foldl (fun (s : State) id => match tget s.cmds id with
    | some io => s.cmdFault id { io with block := s.collBlock io } cILLEGAL 0 0
    | none => s) { s with contribs := s.contribs.filter fun e => !s.collClashes x c e }

/-- COLL_CHUNK_COMPLETE (R245, R338): what its unit does next for the chunk; the last chunk ends the instance, and a release that
waits for peers is looked at again. -/
def execCollChunkComplete (inst chunk : Nat) (s : State) : Out :=
  match tget s.colls inst, tget s.cmds inst with
  | some x, some io =>
    if x.plan.nchunk ≤ chunk ∨ !s.cmdReady io then .next s
    else if (x.done ||| x.abort).getLsbD chunk then
      .next (if x.openChunks.isEmpty && !s.collEnds inst x && s.cmdWritesLate inst then s.collDid inst io (.uce s) else s.collFinish inst)
    else if s.contribs.any fun e => s.collClashes x chunk e then .next (s.collClash x chunk)
    else .next ((s.collDid inst io (s.collNext inst x io chunk)).collFinish inst)
  | _, _ => .next s

/-- COLL_ABORT_RECEIVED (R339): an inner node that has met an abort sends one in place of its output; an abort in place of the result
ends the chunk, for which nothing is written; the last one ends the instance. -/
def execCollAbortReceived (inst chunk : Nat) (s : State) : Out :=
  match tget s.colls inst with
  | none => .next s
  | some x =>
    if x.plan.nchunk ≤ chunk ∨ (x.done ||| x.abort).getLsbD chunk then .next s
    else if s.heardAbort x none chunk then
      .next ((s.modColl inst fun x => { x with abort := x.abort ||| (1 <<< chunk) }).collFinish inst)
    else match s.nodeAborted x chunk with
      | none => .next s
      | some e => .next ((s.modColl inst fun x => { x with
          formed := (chunk, e.2) :: x.formed,
          gone := if (x.plan.parent e.1 e.2).isNone then chunk :: x.gone else x.gone }).collAbort x e.1 e.2 chunk)

/-- Whether an abort for a chunk that is open waits for the unit. -/
def State.abortWaits (s : State) (x : Coll) (c : Nat) : Bool := s.heardAbort x none c || (s.nodeAborted x c).isSome

/-- Whether the remote-incarnation entry of a packet's sender admits it (R266). -/
def State.admits (s : State) (pk : Packet) : Bool :=
  decide (tget s.peersInc (pk.src * 1024 + pk.tagSlot) = some (true, pk.tagInc))

/-- Whether the entry names the incarnation of a packet's sender, dead or not. -/
def State.knows (s : State) (pk : Packet) : Bool := ((tget s.peersInc (pk.src * 1024 + pk.tagSlot)).map fun e => e.2) == some pk.tagInc

/-- What a packet of plan traffic brings to a core (R328; the places of the fields in its data are log 11's). -/
def planContrib (pk : Packet) : Contrib :=
  { core := fld pk.data 0 2, planid := pk.addr, epoch := pk.aux / 2 ^ 16,
    node := if pk.kind = .result then none else some (fld pk.data 2 4, fld pk.data 6 4), chunk := pk.aux % 256, off := fld pk.data 10 4,
    data := pk.data.drop 15, abort := decide (pk.aux / 256 % 2 = 1) }

/-- A rank registers its tag: the unit that forms the root owes it the aborts that it has sent to others (R339). -/
def State.receiveTag (s : State) (y : CollTag) : State :=
  if s.collTags.any fun e => decide (e.planid = y.planid) && decide (e.epoch = y.epoch) && decide (e.rank = y.rank) then s
  else
    let roots := ((s.colls.map fun e => e.2) ++ s.collDead).filter fun x =>
      decide (x.plan.planid = y.planid) && decide (x.epoch = y.epoch) && x.isRoot
    roots.foldl (fun (s : State) x => x.gone.foldl (fun (s : State) c => s.resultTo x y.rank c 0 [] true) s)
      { s with collTags := y :: s.collTags }

/-- CONTRIBUTION_ARRIVAL (R266, R268, R328, R337, R339): a contribution is judged by its sender's entry; a result, and an abort that
bears the tag which its receiver registered, by that tag; an abort that a killed rank sends under its own tag is admitted while the
entry names its incarnation (log 21). A subtree of no rank registers a tag. -/
def execContributionArrival (pk : Packet) (s : State) : Out :=
  let x := planContrib pk
  let here := s.tagLive ⟨pk.tagSlot, pk.tagInc⟩
  match pk.kind with
  | .contribution =>
    if 2000 ≤ pk.age then .next s.dropStale
    else if x.abort ∧ fld pk.data 14 1 = 1 then .next (if here then s.receiveContrib x else s.dropStale)
    else if s.admits pk ∨ (x.abort ∧ s.knows pk) then
      .next (if fld pk.data 6 4 = 0 then s.receiveTag ⟨x.planid, x.epoch, fld pk.data 2 4, ⟨pk.tagSlot, pk.tagInc⟩⟩ else s.receiveContrib x)
    else .next (s.dropStale.reply pk .staleRefusal 0 [])
  | .result => if here ∧ pk.age < 2000 then .next (s.receiveContrib x) else .next s.dropStale
  | _ => .next s

/-- WAITCHUNK (R245, R311). -/
def execWaitchunk (ord : Ord) (scope : Scope) (a : SReg) (c : BitVec 32) (s : State) : Out :=
  s.onEngine .coll (
    if 63 < c.toNat then .next (s.trap cILLEGAL)
    else s.waitObj (s.sread s.cur a).toNat none c.toNat (ordAcqs ord) scope)

end Sys2Proof.Machine
end

