-- ==== Sys2Proof/Machine/QueueOps.lean ====
section
/-! DEFINITION. LAUNCH, QPUSH and QPOP, and the host's append (R246, R276 to R279). -/

namespace Sys2Proof.Machine

/-- Check the address of an entry before anything is done: alignment, translation and rights; it waits for its home, and for a change
of the column window (R99, R246, R359). None: it may be accessed. -/
def State.entryCheck (s : State) (va : Nat) (nd : Need) (kinds : Nat) : Option Out :=
  if va % 128 ≠ 0 then some (.next (s.memFault .again cALIGN va 0 0))
  else if s.windowShut s.cur.block va then some (.next s)
  else match s.locate s.cur.block va nd with
    | (t, .error c) => some (if c = cUCE then .next t.uceCur else .next (t.memFault .again c va 0 kinds))
    | (_, .ok (.dram pa cell)) => if s.parks pa cell then some (.next s) else none
    | (_, .ok _) => none

/-- Append an entry to a queue of the issuer's context (R246): its release side, the entry, the event at the home, the status.
The interval opens (R344). -/
def State.append (s : State) (d a b : SReg) (kind : Nat) : Out :=
  s.onSlot fun v =>
    let va := (s.sread s.cur b).toNat
    let c := coreOf v.bid
    if s.scalarOver d then .next (s.trap cILLEGAL)
    else if s.releaseWaits s.cur .sys then .next s.inRelease
    else match s.entryCheck va ⟨true, false, false⟩ 1 with
      | some o => o
      | none =>
        let s := s.releaseSide c (some v.bid) .sys
        match s.memGet va 128 with
        | .ok s e =>
          let r := s.qappend c v.b.tag (s.sread s.cur a).toNat (some kind) e
          .next (r.1.putScalar d r.2)
        | r => s.memStop r 1

/-- LAUNCH (R246): an entry on a launch queue. -/
def execLaunch (d a b : SReg) (s : State) : Out := s.append d a b 1

/-- QPUSH (R246): an entry on a data queue. -/
def execQpush (d a b : SReg) (s : State) : Out := s.append d a b 2

/-- QPOP (R246): the entry at HEAD of a data queue, then the acquire side. -/
def execQpop (d a b : SReg) (s : State) : Out :=
  s.onSlot fun v =>
    let va := (s.sread s.cur b).toNat
    let c := coreOf v.bid
    if s.scalarOver d then .next (s.trap cILLEGAL)
    else match s.entryCheck va ⟨false, true, false⟩ 2 with
      | some o => o
      | none =>
        let s := s.openInterval v.bid
        match s.qpopEntry c v.b.tag (s.sread s.cur a).toNat with
        | (s, st, e) =>
          let r : MemRes := if st.toNat % 256 = 0 then s.memPut va e else .ok s []
          match r with
          | .ok s _ => .next ((s.acquireSide c .sys).putScalar d st)
          | r => s.memStop r 2

/-- The slot and header address of the queue whose header lies at a cell: one that is open, before one that is withdrawn (R277). -/
def State.queueAt (s : State) (cell : Nat) : Option (Nat × Nat) :=
  let l := s.ctxs.flatMap fun e => (e.2.qcells.filter fun q => decide (q.2 = cell)).map fun q => (e.1, q.1, e.2.withdrawn)
  ((l.find? fun x => !x.2.2).or l.head?).map fun x => (x.1, x.2.1)

/-- Bring a cell's sectors home from every core's cache ways and bus. -/
def State.allHome (s : State) (cell n : Nat) : State :=
  s.cores.foldl (fun s e => s.toHome e.1 cell n) s

/-- HOST_APPEND (R279): the home appends the entry of the staging record and writes the status word back. Both addresses are
physical, of package memory (log 22). The request bears the tag of slot 0, which is always live (R263, R354); it waits in order while
a home is not ready (R359). -/
def execHostAppend (header staging : Nat) (s : State) : Out :=
  match cellOf header, cellOf staging with
  | some h, some g =>
    if header % 256 ≠ 0 ∨ staging % 256 ≠ 0 then .next s
    else if !s.hostHeld.isEmpty ∨ s.parks header h ∨ s.parks staging g then
      .next { s with hostHeld := s.hostHeld ++ [.write (header + 48) (toLE 8 staging)] }
    else
      let e := (List.range 128).map fun i => s.dramByte (g + i)
      let r := match s.queueAt h with
        | some (k, q) => if (s.ctx k).withdrawn then (s, qStatus 2 0) else s.qappend fwCore ⟨k, (s.ctx k).inc⟩ q none e
        | none => (s, qStatus 3 0)
      .next (r.1.dramWrite (g + 128) (toLE 8 r.2.toNat))
  | _, _ => .next s

end Sys2Proof.Machine
end

