-- ==== Sys2Proof/Machine/Streams.lean ====
section
/-! DEFINITION. Sequencer streams: FORK, RDV and the end of a stream (R31, R32, R220 to R222). -/

namespace Sys2Proof.Machine

/-- Sequencer contexts of an engine on a core (R31). -/
def engineContexts : Engine → Nat
  | .mat => 16
  | .copy => 16
  | .msg => 8
  | .coll => 8

/-- The sequencer contexts of an engine that streams hold on a core. -/
def State.heldContexts (s : State) (c : Nat) (e : Engine) : List Nat :=
  s.blocks.flatMap fun k => if coreOf k.1 = c then (k.2.streams.filter fun x => decide (x.eng = e)).map fun x => x.ix else []

/-- The free contexts of an engine on a core. -/
def State.freeContexts (s : State) (c : Nat) (e : Engine) : List Nat :=
  let held := s.heldContexts c e
  (List.range (engineContexts e)).filter fun i => !held.contains i

/-- The context a FORK takes: the block's own for the matrix engine, else one that is free, and no rule says which (R221,
R285, log 3). -/
def State.freeContext (s : State) (v : View) (e : Engine) : State × Option Nat :=
  match e with
  | .mat => (s, match v.b.matCtx with
    | some n => if (v.b.stream .mat n).isSome then none else some n
    | none => none)
  | _ => s.choose (s.freeContexts (coreOf v.bid) e)

/-- A stream at its first instruction, with the forking slot's scalars (R221). -/
def newStream (e : Engine) (ix gen : Nat) (pc : Pc) (regs : Tbl Word64) (wave : Nat) : Stream :=
  { eng := e, ix := ix, hix := ix, gen := gen, pc := pc, sregs := regs, wave := wave, status := .run, pending := [], exited := false,
    ir := ⟨0, 0, 0, none⟩, expand := none, cause := 0, faultPc := 0, replay := .none, asks := [], answers := [], barn := none,
    predicted := none }

/-- The handle of a stream (R221). -/
def forkHandle (gen bslot : Nat) (e : Engine) (ix : Nat) : Word64 :=
  BitVec.ofNat 64 (gen % 65536 * 2 ^ 16 + bslot % 64 * 2 ^ 10 + e.code.toNat * 2 ^ 8 + ix % 16)

/-- FORK (R31, R32, R220, R221): it waits for pending scalars, which it copies, and for a free context. -/
def execFork (e : Engine) (d : SReg) (off : BitVec 32) (s : State) : Out :=
  s.onSlot fun v =>
    if (e = .mat ∧ v.b.matCtx.isNone) ∨ s.scalarOver d then .next (s.trap cILLEGAL)
    else if !v.sl.pending.isEmpty then .next s
    else match s.freeContext v e with
      | (_, none) => .next s
      | (s, some ix) =>
        let c := coreOf v.bid
        let key := e.code.toNat * 16 + ix
        let gen := (cget 0 (s.core c).seqGens key + 1) % 65536
        let regs : Tbl Word64 := (List.range 64).foldl (fun t n => cset 0 t n (sreadW v.w v.k (BitVec.ofNat 6 n))) []
        let s := s.modCore c fun k => { k with seqGens := cset 0 k.seqGens key gen }
        let s := s.modBlk v.bid fun b => { b with streams := b.streams ++ [newStream e ix gen (s.ir.target off) regs v.wid] }
        .next (s.putScalar d (forkHandle gen v.b.hslot e ix))

/-- RDV (R222): an ended stream completes it at once; else the slot is blocked until the stream has ended (R37). -/
def execRdv (a : SReg) (s : State) : Out :=
  s.onSlot fun v =>
    let h := s.sread s.cur a
    let e := Engine.ofCode (h.extractLsb' 8 2)
    let ix := bitsOf h 3 0
    if bitsOf h 63 32 ≠ 0 ∨ bitsOf h 7 4 ≠ 0 ∨ bitsOf h 15 10 ≠ v.b.hslot % 64 ∨ engineContexts e ≤ ix then .next (s.trap cILLEGAL)
    else if v.b.streams.any fun x => decide (x.eng = e) && decide (x.hix = ix) && decide (x.gen = bitsOf h 31 16) then
      .next (s.blockCur (.stream v.bid e ix (bitsOf h 31 16)))
    else .next s.retire

/-- Whether every command of a stream has been performed (R221). -/
def State.streamDone (s : State) (b : Block) (who : Issuer) (e : Engine) : Bool :=
  s.streamIdle b who e && !s.cmds.any (fun x => decide (x.2.who = who))

/-- STREAM_END (R32, R221): a stream that has executed EXIT ends when all its commands are performed, and its context is free. -/
def execStreamEnd (block : Nat) (e : Engine) (ix : Nat) (s : State) : Out :=
  match (s.blk block).bind fun b => (b.stream e ix).map fun x => (b, x) with
  | none => .next s
  | some (b, x) =>
    if x.exited ∧ b.frozen = .no ∧ s.streamDone b (.stream block e ix) e then
      .next (s.modBlk block fun b => { b with streams := b.streams.filter fun y => !(decide (y.eng = e) && decide (y.ix = ix)) })
    else .next s

end Sys2Proof.Machine
end

