-- ==== Sys2Proof/Machine/Contexts.lean ====
section
/-! DEFINITION. The context table: CTXKILL, CTXSTART, RECLAIM and their events, and PATCH (R167, R168, R262 to R275). -/

namespace Sys2Proof.Machine

/-- Clocks in 2 ms (R4, R270). -/
def clocks2ms : Nat := 5000000

/-- A privileged instruction ordered as FENCE.ar at .sys, whose interval opens; while its release side waits the slot is blocked
(R146, R167, R344). -/
def State.privFence (s : State) (d : SReg) (f : State → View → Out) : Out :=
  s.onSlot fun v =>
    if !v.b.priv then .next (s.trap cPRIV)
    else if s.scalarOver d then .next (s.trap cILLEGAL)
    else if s.releaseWaits s.cur .sys then .next (if s.writesLate s.cur then s.inRelease else s.blockCur .acks)
    else f ((s.releaseSide (coreOf v.bid) (some v.bid) .sys).acquireSide (coreOf v.bid) .sys) v

/-- A slot that waited for the context table completes with this status (R262). -/
def State.ctxDone (s : State) (who : Issuer) (d : SReg) (x : Word64) : State :=
  match who with
  | .slot b w k =>
    (s.modSlot b w k fun z => match z.status with
      | .ctxwait _ _ _ => z.resumeRetired
      | _ => z).swrite who d x
  | .stream _ _ _ => s

/-- The register that a waiting slot fills. -/
def State.ctxReg (s : State) (who : Issuer) : SReg :=
  match who with
  | .slot b w k => match s.view b w k with
    | some v => (match v.sl.status with
      | .ctxwait _ _ d => d
      | _ => 0)
    | none => 0
  | .stream _ _ _ => 0

/-- The status that the slot number alone gives (R263, R275). -/
def slotStatus (v : View) (x : Word64) : Option Nat :=
  if 1023 < x.toNat then some 2
  else if x = 0 then some 1
  else if x.toNat = v.b.tag.slot then some 2 else none

/-- An instruction reaches the context table while its slot is starting: it waits there behind those that came before (R262). -/
def State.ctxSubmit (s : State) (slot op : Nat) (d : SReg) : State :=
  (s.setWait (.ctxwait slot op d)).modCtx slot fun c => { c with queue := c.queue ++ [(s.cur, op)] }

/-- CTXKILL (R262, R267, R275). -/
def execCtxkill (d a : SReg) (s : State) : Out :=
  s.privFence d fun s v =>
    let x := s.sread s.cur a
    match slotStatus v x with
    | some st => .next (s.putScalar d (BitVec.ofNat 64 st))
    | none => match (s.ctx x.toNat).state with
      | .live => .next ((s.killBegin x.toNat).putScalar d 0)
      | .starting => .next (s.ctxSubmit x.toNat 0 d)
      | _ => .next (s.putScalar d 1)

/-- KILL_APPLIED (R262, R267): every local unit has reported; T_k is fixed. -/
def execKillApplied (slot : Nat) (s : State) : Out :=
  .next (if (s.ctx slot).state = .killing then s.modCtx slot fun c => { c with state := .reclaiming, tk := s.clock } else s)

/-- RECLAIM (R262, R271, R275). -/
def execReclaim (d a : SReg) (s : State) : Out :=
  s.privFence d fun s v =>
    let x := s.sread s.cur a
    match slotStatus v x with
    | some st => .next (s.putScalar d (BitVec.ofNat 64 st))
    | none =>
      let wait := (s.setWait (.ctxwait x.toNat 2 d)).modCtx x.toNat fun c => { c with reclaimers := c.reclaimers ++ [s.cur] }
      match (s.ctx x.toNat).state with
      | .free => .next (s.putScalar d 1)
      | .live => .next (s.putScalar d 1)
      | .starting => .next (s.ctxSubmit x.toNat 2 d)
      | .killing => .next wait
      | .reclaiming => .next wait

/-- Whether a flit begins a packet that this package created for a context slot (R328). -/
def SentFlit.ofTag (x : SentFlit) (node slot : Nat) : Bool :=
  x.head && ((pktParse x.payload).map fun pk => ofSlot pk node slot).getD false

/-- Whether a link port holds a packet of a slot's tag that the next hop has not acknowledged (R271). -/
def State.portHolds (s : State) (slot : Nat) : Bool :=
  s.ports.any fun p => p.2.txq.any (fun h => ofSlot h.pk s.nodeId slot)
    || p.2.unacked.any fun x => x.ofTag s.nodeId slot

/-- Requests of a slot's tags that a local unit still holds (R271). -/
def State.outstanding (s : State) (slot : Nat) : Bool :=
  s.portHolds slot || s.msgs.any (fun m => decide (m.tag.slot = slot) && decide (m.srcNode = s.nodeId)) || s.cnts.any (fun c => decide (c.tag.slot = slot))
    || s.cmds.any (fun c => decide (c.2.tag.slot = slot)) || s.lazies.any (fun r => decide (r.tag.slot = slot))

/-- RECLAIM_COMPLETE (R271): nothing is outstanding and, where the link was used, 2 ms have passed since T_k. -/
def execReclaimComplete (slot : Nat) (s : State) : Out :=
  let c := s.ctx slot
  if c.state = .reclaiming ∧ !c.reclaimers.isEmpty ∧ !s.outstanding slot ∧ (!c.usedLink ∨ c.tk + clocks2ms ≤ s.clock) then
    let s := c.reclaimers.foldl (fun (s : State) w => s.ctxDone w (s.ctxReg w) 0) s
    .next (s.modCtx slot fun c => { c with state := .free, reclaimers := [] })
  else .next s

/-- A context record (R265), with its tables still to be read. -/
def CtxRec.parse (d : List Byte) : CtxRec :=
  { priv := decide (fld d 0 8 % 2 = 1), link := decide (fld d 0 8 / 2 % 2 = 1), ptroot := fld d 8 8, aperture := fld d 16 8,
    queues := [], saveArea := fld d 40 8, saveLen := fld d 48 8, eventq := fld d 56 8, policy := fld d 64 1, peers := [],
    job := fld d 84 4 }

/-- The checks of R265 on the bytes of the record alone. -/
def ctxRecOk (d : List Byte) : Bool :=
  decide (fld d 0 8 < 4) && decide (fld d 8 8 % 4096 = 0) && decide (fld d 16 8 % 0x20000000000 = 0) && decide (fld d 32 2 ≤ 64)
    && zeros d 34 6 && decide (fld d 40 8 % 4096 = 0) && decide (fld d 48 8 % 4096 = 0) && decide (fld d 64 1 ≤ 1) && zeros d 65 7
    && decide (fld d 72 8 % 16 = 0) && decide (fld d 80 4 ≤ 409599) && (decide (fld d 80 4 = 0) || decide (fld d 0 8 / 2 % 2 = 1))
    && zeros d 88 40

/-- Whether 256 bytes of a queue header can be read in a context. -/
def State.headerReads (s : State) (c : Nat) (t : Tag) (va : Nat) : Bool := ((s.sysBytes c t va 256).2).isSome

/-- The complete record, with its tables read through the new context's page table; none when it is invalid (R265). -/
def State.ctxRecord (s : State) (c slot : Nat) (d : List Byte) : Option CtxRec :=
  let r := CtxRec.parse d
  let inc := ((s.ctx slot).inc + 1) % 1024
  let t : Tag := ⟨slot, inc⟩
  let s := s.modCtx slot fun x => { x with rcd := r, inc := inc }
  let clash := decide (r.job ≠ 0) && s.ctxs.any fun e => decide (e.1 ≠ slot) && decide (e.2.rcd.job = r.job)
    && (decide (e.2.state = .starting) || decide (e.2.state = .live))
  if !ctxRecOk d ∨ clash then none
  else match (s.sysBytes c t (fld d 72 8) (4 * fld d 80 4)).2, (s.sysBytes c t (fld d 24 8) (8 * fld d 32 2)).2 with
    | some ps, some qs =>
      let peers := wordsOf 4 ps (fld d 80 4)
      let queues := wordsOf 8 qs (fld d 32 2)
      if peers.contains s.nodeId ∨ peers.eraseDups.length ≠ peers.length ∨ peers.any (fun p => decide (2 ^ 19 ≤ p)) then none
      else if queues.all (fun q => s.headerReads c t q) ∧ (r.eventq = 0 ∨ s.headerReads c t r.eventq) then
        some { r with queues := queues, peers := peers }
      else none
    | _, _ => none

/-- The queues that a record names, each with the cell of its header (R272, R277). -/
def State.queueCells (s : State) (c : Nat) (t : Tag) (r : CtxRec) : List (Nat × Nat) :=
  (r.queues ++ if r.eventq = 0 then [] else [r.eventq]).filterMap fun q =>
    match (s.translate c t q ⟨false, false, false⟩).2 with
    | .ok (.dram _ cell) => if q % 256 = 0 then some (q, cell) else none
    | _ => none

/-- Start a slot (R272): its incarnation advances, its queues open, its announcements leave, and the CTXSTART waits. -/
def State.ctxBegin (s : State) (slot : Nat) (r : CtxRec) (d : SReg) : State :=
  let inc := ((s.ctx slot).inc + 1) % 1024
  let t : Tag := ⟨slot, inc⟩
  let s := (s.setWait (.ctxwait slot 1 d)).modCtx slot fun c => { c with
    state := .starting, inc := inc, rcd := r, withdrawn := false, usedLink := false, startedAt := s.clock, waitPeers := r.peers,
    unreachable := [], starter := some s.cur, reclaimers := [], queue := [], qcells := [] }
  let s := (s.modCtx slot fun c => { c with qcells := s.queueCells fwCore t r }).closeQueues t 0
  r.peers.foldl (fun (s : State) n =>
    let rid := s.nextId % 65536
    { s with nextId := s.nextId + 1, links := tset s.links rid ⟨s.cur, none, t, n, s.clock, false, false, announceKey, slot⟩ }.sendPacket
      (s.packet t n .announcement 0 0 0 rid 0 [])) s

/-- CTXSTART (R262, R265, R272, R275). -/
def execCtxstart (d a b : SReg) (s : State) : Out :=
  s.privFence d fun s v =>
    let x := s.sread s.cur a
    match slotStatus v x with
    | some st => .next (s.putScalar d (BitVec.ofNat 64 st))
    | none => if (s.sread s.cur b).toNat % 128 ≠ 0 then .next (s.putScalar d 3) else match s.memGet (s.sread s.cur b).toNat 128 with
      | .ok s rd => (match s.ctxRecord (coreOf v.bid) x.toNat rd with
        | none => .next (s.putScalar d 3)
        | some r => match (s.ctx x.toNat).state with
          | .free => .next (s.ctxBegin x.toNat r d)
          | .starting => .next (s.ctxSubmit x.toNat 1 d)
          | _ => .next (s.putScalar d 1))
      | r => s.memStop r 1

/-- The table takes an instruction that waited for a start, by the row of the state then reached (R262). -/
def State.ctxServe (s : State) (slot : Nat) (e : Issuer × Nat) : State :=
  let done := fun (s : State) (st : Word64) => s.ctxDone e.1 (s.ctxReg e.1) st
  match e.2, (s.ctx slot).state with
  | 0, .live => done (s.killBegin slot) 0
  | 2, .killing => s.modCtx slot fun c => { c with reclaimers := c.reclaimers ++ [e.1] }
  | 2, .reclaiming => s.modCtx slot fun c => { c with reclaimers := c.reclaimers ++ [e.1] }
  | _, _ => done s 1

/-- START_ACKNOWLEDGED (R262, R272): every local unit and every peer has acknowledged or timed out; what reached the table
meanwhile acts in the order of its arrival. -/
def execStartAcknowledged (slot : Nat) (s : State) : Out :=
  let c := s.ctx slot
  if c.state = .starting ∧ c.waitPeers.isEmpty then
    let s : State := match c.starter with
      | some w => s.ctxDone w (s.ctxReg w) (BitVec.ofNat 64 (c.inc * 65536))
      | none => s
    .next (c.queue.foldl (fun s e => s.ctxServe slot e) (s.modCtx slot fun c => { c with state := .live, starter := none, queue := [] }))
  else .next s

/-- PEER_ANNOUNCE_TIMEOUT (R272): a peer that has not acknowledged within 2 ms is unreachable for this incarnation. -/
def execPeerAnnounceTimeout (slot node : Nat) (s : State) : Out :=
  let c := s.ctx slot
  if c.state = .starting ∧ c.waitPeers.contains node ∧ c.startedAt + clocks2ms ≤ s.clock then
    .next (s.modCtx slot fun c => { c with waitPeers := c.waitPeers.filter fun n => decide (n ≠ node), unreachable := c.unreachable ++ [node] })
  else .next s

/-- Kernels that the issuer's context has bound (R289), its own block's among them. -/
def State.kernelsOf (s : State) (t : Tag) : List Kernel :=
  (s.blocks.filterMap fun e => if e.2.tag = t then some e.2.kern else none)
    ++ s.kernels.filterMap fun e => if e.1 / 2 ^ 57 = t.slot * 1024 + t.inc then some e.2 else none

/-- Whether a range lies wholly within a kernel's text or dictionary table (R168). -/
def Kernel.holds (k : Kernel) (lo n : Nat) : Bool :=
  (decide (k.text ≤ lo) && decide (lo + n ≤ k.text + k.textLen)) || (decide (k.dict ≤ lo) && decide (lo + n ≤ k.dict + 16 * k.ndict))

/-- Write bytes of one sector for the patch engine: at the home, by translation without a right (log 23). -/
def State.patchPiece (s : State) (c : Nat) (t : Tag) (va : Nat) (d : List Byte) : MemRes :=
  match s.translate c t va ⟨false, false, false⟩ with
  | (s, .error k) => .fault s k va
  | (s, .ok (.dram pa cell)) =>
    if s.parks pa cell then .stall
    else
      let s := s.cores.foldl (fun s e => s.toHome e.1 cell d.length) s
      .ok ((s.dramWrite cell d).unpoison cell d.length) []
  | (s, .ok (.host pa)) => .ok { s with hostMem := d.zipIdx.foldl (fun (m : Mem) (e : Byte × Nat) => cset 0 m (pa + e.2) e.1) s.hostMem } []
  | (s, .ok _) => .fault s cATTRFAULT va

/-- The patch engine's write of a range (R168, R301): then every instruction cache and every expanded dictionary code of the
package is gone, and what the range held of a translation is code no more. -/
def State.patchWrite (s : State) (c : Nat) (t : Tag) (va : Nat) (d : List Byte) : MemRes :=
  match putPieces (fun s va d => s.patchPiece c t va d) (d.length / 64 + 2) s va d with
  | .ok s _ =>
    .ok { s with
      tiles := s.tiles.filter fun x => decide (x.tag ≠ t) || decide (x.lo + x.len ≤ va) || decide (va + d.length ≤ x.lo),
      cores := tmapv s.cores fun k => { k with icache := [] },
      blocks := tmapv s.blocks fun b => { b with
        waves := tmapv b.waves fun w => { w with s0 := { w.s0 with expand := none }, s1 := { w.s1 with expand := none } },
        streams := b.streams.map fun x => { x with expand := none } } } []
  | r => r

/-- The kernel whose dictionary table holds a range (R168, R302). -/
def dictOfRange (ks : List Kernel) (lo n : Nat) : Option Nat :=
  (ks.find? fun k => decide (k.dict ≤ lo) && decide (lo + n ≤ k.dict + 16 * k.ndict)).map fun k => k.addr

/-- The patch that a descriptor asks for; none where the descriptor is invalid (R168). -/
def State.patchOf (s : State) (v : View) (x : List Byte) : Option PatchRun :=
  let lo := fld x 0 8
  let len := fld x 16 4
  let ks := s.kernelsOf v.b.tag
  if lo % 32 ≠ 0 ∨ len % 32 ≠ 0 ∨ len = 0 ∨ 65536 < len ∨ !zeros x 20 12 ∨ !ks.any (fun k => k.holds lo len) then none
  else some { who := s.cur, tag := v.b.tag, pc := s.ir.pc, lo := lo, len := len, src := fld x 8 8, dict := dictOfRange ks lo len }

/-- Steps 3 to 5 of R168, once its turn has come and all that it covers is parked; until then the issuer is blocked. -/
def State.patchRun (s : State) (v : View) (p : PatchRun) (d : SReg) : Out :=
  if !s.patchReady p.who then .next (s.blockCur .patch)
  else match s.memGet p.src p.len with
    | .ok s y => match s.patchWrite (coreOf v.bid) v.b.tag p.lo y with
      | .ok s _ => .next ({ s with patches := s.patches.filter fun q => decide (q.who ≠ p.who) && s.patchAlive q }.putScalar d 0)
      | r => s.memStop r 2
    | r => s.memStop r 1

/-- PATCH (R167, R168, R302): the patch engine takes the patches one at a time, in the order in which they reach it. -/
def execPatch (d a : SReg) (s : State) : Out :=
  s.privFence d fun s v =>
    match s.patches.find? fun p => decide (p.who = s.cur) && decide (p.pc = s.ir.pc) with
    | some p => s.patchRun v p d
    | none => match s.memGet (s.sread s.cur a).toNat 32 with
      | .ok s x => match s.patchOf v x with
        | none => .next (s.putScalar d 3)
        | some p => { s with patches := s.patches.filter (fun (q : PatchRun) => decide (q.who ≠ p.who)) ++ [p] }.patchRun v p d
      | r => s.memStop r 1

end Sys2Proof.Machine
end

