-- ==== Sys2Proof/Machine/LinkOps.lean ====
section
/-! DEFINITION. What reaches the package over the link: requests of peers, announcements and kills, responses, ages and
timeouts (R256, R266, R268, R270, R330, R334); flits and the states of the ports (R327 to R330). -/

namespace Sys2Proof.Machine

/-! ### Requests of peers -/

/-- The words of a write packet: number in the line, byte mask, bytes (R105, log 11). -/
def writeWords (pk : Packet) : List (Nat × Nat × List Byte) :=
  ((List.range 32).filter fun w => pk.aux.testBit w).zipIdx.map fun e =>
    (e.1, fld pk.data (9 * e.2) 1, (pk.data.drop (9 * e.2 + 1)).take 8)

/-- Write the masked bytes of a word; a whole word at once (R105). -/
def State.putWord (s : State) (cell mask : Nat) (d : List Byte) : State :=
  if mask = 255 ∧ d.length = 8 then s.dramWrite cell d
  else d.zipIdx.foldl (fun (s : State) (e : Byte × Nat) => if mask.testBit e.2 then s.dramWrite (cell + e.2) [e.1] else s) s

/-- A peer's write at its home: one line under its word and byte masks (R105, R208, R311, R326). -/
def State.peerWrite (s : State) (pk : Packet) (line : Nat) : State :=
  let ws := writeWords pk
  let s := ws.foldl (fun (s : State) w => s.putWord (line + 8 * w.1) w.2.1 w.2.2) s
  (List.range 4).foldl (fun (s : State) k =>
    let here := ws.filter fun w => decide (w.1 / 8 = k)
    let s := if here.length = 8 ∧ here.all fun w => decide (w.2.1 = 255) then s.unpoison (line + 64 * k) 64 else s
    if here.isEmpty then s else s.testWaiters (line + 64 * k)) s

/-- A peer's atomic at its home: the new state and the old value (R213, R214, R241). -/
def State.peerAtomic (s : State) (pk : Packet) (cell : Nat) (op : AtomOp) (t : Ty) : State × List Byte :=
  let n := t.bytes
  let old := (List.range n).map fun i => s.dramByte (cell + i)
  ((s.dramWrite cell (toLE n (atomNew op t (leNat old) (fld pk.data 0 n) (fld pk.data n n)))).testWaiters (cell / 64 * 64), old)

/-- Perform an admitted request at its home, as a strong access, and answer it (R107, R256, R266, R333): a read with the sector, or
with the half-line where AUX asks for it (log 11). What meets poison, or a vault made fallow, is answered with an error (R326, R352). One
whose codes or address name nothing is lost (log 25). -/
def State.servePeer (s : State) (pk : Packet) (cell : Nat) : State :=
  match pk.kind with
  | .read =>
    let n := if pk.aux % 2 = 1 then 128 else 64
    let lo := cell / n * n
    let s := s.vaultRead lo n
    if s.poisoned lo n then s.reply pk .response 1 (List.replicate n 0)
    else s.reply pk .response 0 ((List.range n).map fun i => s.dramByte (lo + i))
  | .write =>
    if s.unitFallow .vault (vaultOf cell) then s.reply pk .response 1 [] else (s.peerWrite pk (cell / 256 * 256)).reply pk .response 0 []
  | .atomic =>
    let s := s.vaultRead cell 8
    match AtomOp.ofCode (BitVec.ofNat 4 (pk.aux / 32)), Ty.ofCode (BitVec.ofNat 5 pk.aux) with
    | some op, some t =>
      if cell % t.bytes ≠ 0 ∨ t.bytes = 0 then s
      else if s.poisoned cell t.bytes then s.reply pk .response 1 (List.replicate 64 0)
      else
        let r := s.peerAtomic pk cell op t
        r.1.reply pk .response 0 (List.replicate (pk.addr % 64) 0 ++ r.2)
    | _, _ => s
  | _ => s

/-- A request that a home takes: performed, or held while its home or vault is not ready, and behind those that its home slice holds
already (R256, R359). -/
def State.takePeer (s : State) (h : HeldReq) : State :=
  match cellOf h.pk.addr with
  | none => s
  | some cell =>
    if 2000 ≤ h.age s.clock then s.dropStale
    else if s.parks h.pk.addr cell ∨ s.heldReqs.any fun q => decide (homeSlice q.pk.addr = homeSlice h.pk.addr) then { s with heldReqs := s.heldReqs ++ [h] }
    else s.servePeer { h.pk with age := h.age s.clock } cell

/-- The message that a packet carries (log 11). -/
def msgOf (pk : Packet) (now : Nat) : Msg :=
  { send := 0, srcNode := pk.src, srcCore := fld pk.data 2 2, tag := ⟨pk.tagSlot, pk.tagInc⟩, mtag := fld pk.data 4 4,
    dest := fld pk.data 0 2, job := fld pk.data 8 4, data := (pk.data.drop 16).take (min 64 (fld pk.data 12 4)), rid := pk.rid,
    age := pk.age, since := now, rcvSlot := 0 }

/-- PEER_REQUEST (R266, R268, R269, R334): judged once, by the sender's entry. -/
def execPeerRequest (pk : Packet) (s : State) : Out :=
  if pk.dest ≠ s.nodeId ∨ !(decide (pk.kind = .read) || decide (pk.kind = .write) || decide (pk.kind = .atomic) || decide (pk.kind = .message)) then
    .next s
  else if 2000 ≤ pk.age then .next s.dropStale
  else if !s.admits pk then .next (s.dropStale.reply pk .staleRefusal 0 [])
  else if pk.kind = .message then .next { s with msgs := s.msgs ++ [msgOf pk s.clock] }
  else .next (s.takePeer ⟨pk, s.clock⟩)

/-- ANNOUNCEMENT (R266). -/
def execAnnouncement (pk : Packet) (s : State) : Out :=
  if pk.dest ≠ s.nodeId ∨ pk.kind ≠ .announcement ∨ 2000 ≤ pk.age then .next s
  else .next ({ s with peersInc := tset s.peersInc (pk.src * 1024 + pk.tagSlot) (true, pk.tagInc) }.reply pk .acknowledgement 0 [])

/-- Whether a held packet carries the tag of a packet. -/
def sameTag (a b : Packet) : Bool := decide (a.src = b.src) && decide (a.tagSlot = b.tagSlot) && decide (a.tagInc = b.tagInc)

/-- KILL_PACKET (R266): the entry is dead and what units hold with that tag is dropped. -/
def execKillPacket (pk : Packet) (s : State) : Out :=
  if pk.dest ≠ s.nodeId ∨ pk.kind ≠ .kill ∨ 2000 ≤ pk.age then .next s
  else
    let s : State := if s.admits pk then
        { s with
          peersInc := tset s.peersInc (pk.src * 1024 + pk.tagSlot) (false, pk.tagInc),
          heldReqs := s.heldReqs.filter fun h => !sameTag h.pk pk,
          msgs := s.msgs.filter fun m => !(decide (m.srcNode = pk.src) && decide (m.tag = ⟨pk.tagSlot, pk.tagInc⟩)) }
      else s
    .next (s.reply pk .acknowledgement 0 [])

/-! ### Responses -/

/-- The UCE treatment of the block of an issuer that waits (R330, R341). -/
def State.uceOf (s : State) (who : Issuer) : State :=
  match who with
  | .slot b w k => match s.view b w k with
    | none => s
    | some v => ({ s with cur := who, ir := v.sl.ir }.modSlot b w k fun (x : Slot) =>
        { x with asks := [], answers := [], status := if x.status = SlotStatus.reply ∨ x.status = SlotStatus.obj then .run else x.status }).uceCur
  | .stream b e ix => ({ s with cur := who, ir := match (s.blk b).bind fun x => x.stream e ix with
      | some x => x.ir
      | none => ⟨0, 0, 0, none⟩ }.modStream b e ix fun (x : Stream) =>
        { x with asks := [], answers := [], status := if x.status = SlotStatus.reply ∨ x.status = SlotStatus.obj then .run else x.status }).uceCur

/-- Whether the party that made a request still waits for its answer. -/
def State.awaited (s : State) (rid : Nat) (e : LinkReq) : Bool :=
  match e.cmd with
  | some id => (match tget s.cmds id with
    | some c => c.asks.contains (rid, e.lane)
    | none => false)
  | none => (match e.who with
    | .slot b w k => (match s.view b w k with
      | some v => v.sl.asks.contains (rid, e.lane)
      | none => false)
    | .stream b x ix => (match (s.blk b).bind fun q => q.stream x ix with
      | some q => q.asks.contains (rid, e.lane)
      | none => false))

/-- A status without requests out goes on. -/
def wakeIf (asks : List (Nat × Nat)) (st : SlotStatus) : SlotStatus := if asks.isEmpty ∧ st = .reply then .run else st

/-- Give an answer to the party that waits for it. -/
def State.answer (s : State) (rid : Nat) (e : LinkReq) (x : Nat) : State :=
  let out := fun (l : List (Nat × Nat)) => l.filter fun a => decide (a ≠ (rid, e.lane))
  match e.cmd with
  | some id => s.modCmd id fun c => { c with asks := out c.asks, answers := tset c.answers e.lane x }
  | none => match e.who with
    | .slot b w k => s.modSlot b w k fun v =>
      { v with asks := out v.asks, answers := tset v.answers e.lane x, status := wakeIf (out v.asks) v.status }
    | .stream b g ix => s.modStream b g ix fun v =>
      { v with asks := out v.asks, answers := tset v.answers e.lane x, status := wakeIf (out v.asks) v.status }

/-- Whether a waiter of a peer's object still waits for the read that polls it (R312). -/
def State.polling (s : State) (e : LinkReq) : Bool :=
  decide (e.lane = pollKey) && s.waiters.any fun w => decide (w.who = e.who) && decide (w.cell = e.addr)

/-- A request has failed (R330): a write that nothing awaits is late, and the release that waits for it takes the treatment; one of a
unit is forgotten. Else the entry is freed, and the party that still waits takes the UCE treatment: a command, or an issuer of
the tag (R341, R347). -/
def State.failReq (s : State) (rid : Nat) (e : LinkReq) : State :=
  if !s.tagLive e.tag ∨ e.who = nobody ∧ e.cmd.isNone then { s with links := tdel s.links rid }
  else if e.writes ∧ !s.awaited rid e then { s with links := tset s.links rid { e with late := true } }
  else if !s.awaited rid e ∧ !s.polling e then { s with links := tdel s.links rid }
  else
  let s : State := { s with links := tdel s.links rid }
  match e.cmd with
  | some id => match tget s.cmds id with
    | some c => (s.modCmd id fun c => { c with stopped := true, asks := [], answers := [] }).uce c.block cUCE c.pc.toNat 0
    | none => s
  | none => if s.tagOf e.who = e.tag then s.uceOf e.who else s

/-- What a poll of a peer's barrier object found (R311, R312). -/
def State.polled (s : State) (e : LinkReq) (d : List Byte) : State :=
  match s.waiters.find? fun w => decide (w.who = e.who) && decide (w.cell = e.addr) with
  | some w => if w.holds d then s.releaseWaiter w else s
  | none => s

/-- Free the entry of a request. -/
def State.freeReq (s : State) (rid : Nat) : State := { s with links := tdel s.links rid }

/-- RESPONSE_ARRIVAL (R253, R256, R268, R272): the entry is freed. A response to a tag that is not live, or to no entry, is an
orphan; the acknowledgement of a kill has no entry. A stale refusal of a message gives status 2; of a load or an atomic, the
UCE treatment; of a write, what a late acknowledgement gives (log 24). -/
def execResponseArrival (pk : Packet) (s : State) : Out :=
  if pk.dest ≠ s.nodeId ∨ !(decide (pk.kind = .response) || decide (pk.kind = .staleRefusal) || decide (pk.kind = .acknowledgement))
      ∨ 2000 ≤ pk.age then .next s
  else
    match tget s.links pk.rid with
    | none => .next (if pk.kind = .acknowledgement then s else s.dropStale)
    | some e =>
      if e.tag ≠ ⟨pk.tagSlot, pk.tagInc⟩ then .next (if pk.kind = .acknowledgement then s else s.dropStale)
      else if e.lane = announceKey then
        .next ((s.freeReq pk.rid).modCtx e.addr fun c =>
          if c.inc = e.tag.inc then { c with waitPeers := c.waitPeers.filter fun n => decide (n ≠ e.node) } else c)
      else if !s.tagLive e.tag then .next (s.freeReq pk.rid).dropStale
      else if e.lane = sendKey then
        let st := if pk.kind = .staleRefusal then 2 else fld pk.data 0 1
        .next { s.freeReq pk.rid with sends := tmod s.sends e.addr fun (x : Send) => { x with status := some st } }
      else if pk.kind = .staleRefusal ∨ pk.aux = 1 then
        .next (s.failReq pk.rid e)
      else if e.lane = pollKey then .next ((s.freeReq pk.rid).polled e (pk.data.take 64))
      else if s.awaited pk.rid e then .next ((s.freeReq pk.rid).answer pk.rid e (leNat (pk.data.drop (e.addr % 64))))
      else .next (s.freeReq pk.rid)

/-! ### Ages and timeouts -/

/-- AGE_EXPIRY (R270, R334, R359): what carries this request number and has reached 2 ms is discarded wherever it stands: a
request at a home, a packet at a port. -/
def execAgeExpiry (rid : Nat) (s : State) : Out :=
  let old := fun (h : HeldReq) => decide (h.pk.rid = rid) && decide (2000 ≤ h.age s.clock)
  let n := (s.heldReqs.filter old).length + (s.msgs.filter fun m => decide (m.srcNode ≠ s.nodeId) && decide (m.rid = rid)
    && decide (2000 ≤ m.ageNow s.clock)).length
  let t : State := { s with
    heldReqs := s.heldReqs.filter fun h => !old h,
    msgs := s.msgs.filter fun m => !(decide (m.srcNode ≠ s.nodeId) && decide (m.rid = rid) && decide (2000 ≤ m.ageNow s.clock)),
    ports := tmapv s.ports fun p => { p with txq := p.txq.filter fun h => !old h } }
  .next ((List.range n).foldl (fun (t : State) _ => t.dropStale) t)

/-- Clocks in 3 ms (R330). -/
def clocks3ms : Nat := 7500000

/-- LINK_REQUEST_TIMEOUT (R330): no response 3 ms after the request was created. -/
def execLinkRequestTimeout (rid : Nat) (s : State) : Out :=
  match tget s.links rid with
  | none => .next s
  | some e =>
    if s.clock < e.created + clocks3ms ∨ e.lane = sendKey ∨ e.lane = announceKey then .next s
    else .next (s.failReq rid e)

/-! ### Flits -/

/-- The event of a packet that a port received. -/
def packetEvent (pk : Packet) : Instr :=
  match pk.kind with
  | .read => .peerRequest pk
  | .write => .peerRequest pk
  | .atomic => .peerRequest pk
  | .message => .peerRequest pk
  | .announcement => .announcement pk
  | .kill => .killPacket pk
  | .contribution => .contributionArrival pk
  | .result => .contributionArrival pk
  | .response => .responseArrival pk
  | .staleRefusal => .responseArrival pk
  | .acknowledgement => .responseArrival pk

/-- Credits returned in the control of a flit, by virtual channel: five bits a channel (R327, log 4). -/
def returned (x : Nat) : List Nat := (List.range 4).map fun v => x / 32 ^ v % 32

/-- The flits that are left of those not acknowledged: the credits of a channel acknowledge its oldest (R327, log 4). -/
def ackFlits : List Nat → List SentFlit → List SentFlit
  | _, [] => []
  | l, x :: t =>
    if (l[x.vc]?).getD 0 = 0 then x :: ackFlits l t else ackFlits (l.zipIdx.map fun e => if e.2 = x.vc then e.1 - 1 else e.1) t

/-- A port takes back the credits that a flit returns, and what they acknowledge (R327, R329). -/
def Port.credit (p : Port) (x : Nat) : Port :=
  let l := returned x
  { p with credits := p.credits.zipIdx.map fun e => min 32 (e.1 + (l[e.2]?).getD 0), unacked := ackFlits l p.unacked }

/-- Take flits of a channel into the receive buffers, or out of them; the credit of what is out is owed (R329). -/
def Port.bufferIn (p : Port) (vc : Nat) : Port := { p with free := p.free.zipIdx.map fun e => if e.2 = vc then e.1 - 1 else e.1 }
def Port.bufferOut (p : Port) (vc n : Nat) : Port :=
  { p with
    free := p.free.zipIdx.map fun e => if e.2 = vc then min 32 (e.1 + n) else e.1,
    owed := p.owed.zipIdx.map fun e => if e.2 = vc then e.1 + n else e.1 }

/-- A port that is up takes a good flit into its buffer: a packet is whole when as many flits have come as its header says; the answer
is its bytes and since when the port held it (R327, R328, R329). -/
def Port.takeFlit (p : Port) (now : Nat) (payload : List Byte) : Port × Option (List Byte × Nat) :=
  let since := if p.rxFlits.isEmpty then now else p.rxSince
  let l := p.rxFlits ++ [payload]
  let h := leNat ((l.headD []).take 32)
  let n := h / 2 ^ 168 % 4 + 1
  let vc := h / 2 ^ 184 % 4
  let p := p.bufferIn vc
  if l.length = n then ({ p.bufferOut vc n with rxFlits := [], rxSeq := (p.rxSeq + 1) % 4096 }, some (l.flatten, since))
  else ({ p with rxFlits := l, rxSince := since, rxSeq := (p.rxSeq + 1) % 4096 }, none)

/-- FLIT_RECEIVE (R327 to R329, R334): checked by CRC and sequence number; a packet that is whole takes the port's residence into its
age and is judged next. -/
def execFlitReceive (port : Nat) (flit : List Byte) (s : State) : Out :=
  let p := s.port port
  let ctl := fld flit 248 8
  if !p.isUp ∨ flit.length ≠ 256 ∨ BitVec.ofNat 32 (ctl / 2 ^ 32) ≠ Config.crc32 (flit.take 252) ∨ ctl / 2 ^ 20 % 4096 ≠ p.rxSeq then .next s
  else
    let r := (p.credit (ctl % 2 ^ 20)).takeFlit s.clock (flit.take 248)
    let s := (s.setPort port r.1).pumpPort port
    match r.2.bind fun x => (pktParse x.1).map fun pk => ({ pk with age := min 4095 (pk.age + max 1 (microsUp (s.clock - x.2))) } : Packet) with
    | some pk => .next (if pk.dest = s.nodeId then { s with agenda := .event (packetEvent pk) :: s.agenda } else s)
    | none => .next s

/-- FLIT_REPLAY (R327): the unacknowledged flits travel again, in order. -/
def execFlitReplay (port : Nat) (s : State) : Out :=
  let p := s.port port
  .next (if p.isUp ∧ !p.unacked.isEmpty then s.setPort port (p.replay s.clock 1) else s)

/-! ### Port states (R330) -/

/-- Number of link ports (R9). -/
def nPorts : Nat := 36

/-- Set or clear a READY bit (R165). -/
def State.setReady (s : State) (c : UnitClass) (n : Nat) (b : Bool) : State :=
  let x := cget 0 s.ready (unitCode c)
  { s with ready := cset 0 s.ready (unitCode c) (if b then x ||| ((1 : BitVec 1024) <<< n) else x &&& ~~~ ((1 : BitVec 1024) <<< n)) }

/-- A port in its new state, shown in READYMAP. -/
def State.movePort (s : State) (n : Nat) (p : Port) : State := (s.setPort n p).setReady .port n p.isUp

/-- A port that goes down loses the packets it held. -/
def Port.lost (p : Port) : Port :=
  { p with state := .down, unacked := [], rxFlits := [], txq := [], owed := [0, 0, 0, 0], free := [32, 32, 32, 32] }

/-- A port that begins training. -/
def Port.train (p : Port) (now : Nat) : Port := { p with state := .training, trainStart := now }

/-- PORT_ENABLE (R330). -/
def execPortEnable (port : Nat) (s : State) : Out :=
  let p := s.port port
  .next (if port < nPorts ∧ p.state = .down then s.movePort port (p.train s.clock) else s)

/-- Clocks in 100 ms and in 10 ms (R330). -/
def clocks100ms : Nat := 250000000
def clocks10ms : Nat := 25000000
def clocks100us : Nat := 250000

/-- The lanes of a port that are not fallow (R352). -/
def Port.lanes (p : Port) : List Nat := (List.range 4).filter fun i => !p.dead.contains i

/-- Lanes that fail to train are counted (R349). -/
def State.laneFails (s : State) (port : Nat) (l : List Nat) : State :=
  l.foldl (fun (s : State) i => s.countErr .lane (4 * port + i) .training) s

/-- Flits of a channel that wait for acknowledgement. -/
def Port.inFlight (p : Port) (vc : Nat) : Nat := (p.unacked.filter fun x => decide (x.vc = vc)).length

/-- A port comes up: credits are reset, but for those that the flits to be replayed take, and replay resumes at the first of these
(R330). -/
def Port.comeUp (p : Port) (now lanes : Nat) : Port :=
  Port.replay { p with
    state := .up lanes, credits := (List.range 4).map fun v => 32 - p.inFlight v, owed := [0, 0, 0, 0] } now 0

/-- TRAINING_PASS (R330): up at the width that passed, of lanes that are not fallow; the lowest of them are those that passed (log 4). -/
def execTrainingPass (port lanes : Nat) (s : State) : Out :=
  let p := s.port port
  if p.state = .training ∧ (lanes = 1 ∨ lanes = 2 ∨ lanes = 4) ∧ lanes ≤ p.lanes.length ∧ s.clock < p.trainStart + clocks100ms then
    .next (((s.movePort port (p.comeUp s.clock lanes)).pumpPort port).laneFails port (p.lanes.drop lanes))
  else .next s

/-- TRAINING_TIMEOUT (R330): no lane passed. -/
def execTrainingTimeout (port : Nat) (s : State) : Out :=
  let p := s.port port
  .next (if p.state = .training ∧ p.trainStart + clocks100ms ≤ s.clock then (s.movePort port p.lost).laneFails port p.lanes else s)

/-- REPLAY_RATE_EXCEEDED (R330): more than one replay in 10^6 flits over a millisecond. -/
def execReplayRateExceeded (port : Nat) (s : State) : Out :=
  let p := s.port port
  match p.state with
  | .up w =>
    if p.flits < 1000000 * p.replays then
      .next (s.movePort port { p with state := .degraded w, retrainAt := s.clock + clocks10ms, flits := 0, replays := 0 })
    else .next s
  | _ => .next s

/-- RETRAIN_DUE (R330). -/
def execRetrainDue (port : Nat) (s : State) : Out :=
  let p := s.port port
  match p.state with
  | .degraded _ => .next (if p.retrainAt ≤ s.clock then s.movePort port (p.train s.clock) else s)
  | _ => .next s

/-- LANE_FAIL (R330): flits in flight stay for replay. -/
def execLaneFail (port lane : Nat) (s : State) : Out :=
  let p := s.port port
  .next (if p.isUp ∧ lane < 4 then s.movePort port (p.train s.clock) else s)

/-- PORT_DISABLE (R330): as training failure. -/
def execPortDisable (port : Nat) (s : State) : Out :=
  let p := s.port port
  .next (if p.state ≠ .fallow then s.movePort port p.lost else s)

end Sys2Proof.Machine
end

