-- ==== Sys2Proof/Machine/Grids.lean ====
section
/-! DEFINITION. Kernels and grids: the binding of a kernel (R288 to R290), the take of a launch packet (R280, R281), its groups
(R304, R305), and the completion of a grid (R282). -/

namespace Sys2Proof.Machine

/-! ### Kernels -/

/-- The fields of a kernel header (R288). -/
def Kernel.parse (addr : Nat) (d : List Byte) : Kernel :=
  let fl := fld d 3 1
  { addr := addr, fpxen := BitVec.ofNat 8 (fld d 2 1), column := fl.testBit 0, matrix := fl.testBit 1, coresident := fl.testBit 2,
    idempotent := fl.testBit 3, sigauto := fl.testBit 4, blockX := fld d 4 1, blockY := fld d 5 1, regs := 8 * fld d 6 1,
    csetmask := fld d 7 1, shared := fld d 12 4, intervals := fld d 16 2, ndict := fld d 18 2, nfold := fld d 20 2, nplan := fld d 22 2,
    nbind := fld d 24 4, fifos := fld d 28 1, text := fld d 32 8, textLen := fld d 40 4, entry := fld d 44 4, stubOff := fld d 48 4,
    spareOff := fld d 52 4, handler := fld d 56 8, dict := fld d 64 8, foldtab := fld d 72 8, plantab := fld d 80 8,
    csets := fld d 88 8, bindtab := fld d 96 8, odrax := fld d 104 8 }

/-- REASON 1: the version (R289). -/
def versionBad (minor : Nat) (d : List Byte) : Bool := decide (fld d 10 1 ≠ 3) || decide (minor < fld d 9 1)

/-- REASON 2: a field out of its range, or a reserved bit (R288, R289). -/
def fieldsBad (d : List Byte) (k : Kernel) : Bool :=
  decide (32 ≤ fld d 2 1) || decide (32 ≤ fld d 3 1) || decide (k.blockX = 0) || decide (32 < k.blockX) || decide (k.blockY = 0)
    || decide (32 < k.blockY) || decide (k.regs < 16) || decide (128 < k.regs) || decide (16 ≤ k.csetmask) || decide (fld d 11 1 ≠ 0)
    || decide (k.shared % 256 ≠ 0) || decide (0x100000 < k.shared) || decide (1024 < k.ndict) || decide (256 < k.nfold)
    || decide (256 < k.nplan) || decide (4096 < k.nbind) || decide (8 < k.fifos) || !zeros d 29 3 || decide (k.textLen % 32 ≠ 0)
    || !zeros d 128 128

/-- REASON 3: an address or offset out of its alignment (R288, R293). -/
def alignBad (k : Kernel) : Bool :=
  decide (k.text % 32 ≠ 0) || decide (k.entry % 32 ≠ 0) || decide (k.stubOff % 32 ≠ 0) || decide (k.spareOff % 32 ≠ 0)
    || decide (k.handler % 32 ≠ 0) || decide (k.dict % 16 ≠ 0) || decide (k.csets % 16 ≠ 0) || decide (k.bindtab % 32 ≠ 0)
    || decide (k.odrax % 64 ≠ 0)

/-- Whether two regions share a byte. -/
def regionsMeet (a b : Nat × Nat) : Bool := decide (a.1 < b.2) && decide (b.1 < a.2) && decide (a.1 < a.2) && decide (b.1 < b.2)

/-- Whether some two of a list of regions share a byte. -/
def someMeet : List (Nat × Nat) → Bool
  | [] => false
  | a :: t => t.any (fun b => regionsMeet a b) || someMeet t

/-- REASON 4: regions that overlap or leave the text (R289). -/
def regionsBad (k : Kernel) : Bool :=
  let rs := [(k.text + k.entry, k.text + k.entry + 32), (k.text + k.stubOff, k.text + k.stubOff + 32 * k.nbind),
             (k.text + k.spareOff, k.text + max k.spareOff k.textLen)]
    ++ if k.handler = 0 then [] else [(k.handler, k.handler + 32)]
  decide (k.textLen < k.spareOff) || someMeet rs || rs.any fun r => decide (r.1 < k.text) || decide (k.text + k.textLen < r.2)

/-- Whether a binding entry breaks R300. -/
def entryBad (k : Kernel) (nfunc : Nat) (d : List Byte) : Bool :=
  let pc := fld d 8 8
  !(decide (fld d 0 1 = 0) || decide (fld d 0 1 = 2)) || !zeros d 1 3 || decide (nfunc ≤ fld d 4 4) || !zeros d 16 16
    || (if fld d 0 1 = 2 then decide (pc % 32 ≠ 0) || !k.hasText pc || k.inStubs pc else decide (pc ≠ 0))

/-- REASON 5: the binding table (R289, R300). -/
def State.bindtabBad (s : State) (t : Tag) (k : Kernel) : Bool :=
  if k.nbind = 0 then false
  else match (s.sysBytes fwCore t k.bindtab (32 * k.nbind)).2 with
    | none => true
    | some d =>
      let nfunc := match (s.sysBytes fwCore t k.odrax 64).2 with
        | some o => fld o 4 4
        | none => 0
      (List.range k.nbind).any fun i => entryBad k nfunc ((d.drop (32 * i)).take 32)

/-- The first REASON that applies to a header, or 0 (R289). -/
def State.bindReason (s : State) (t : Tag) (k : Kernel) (d : List Byte) : Nat :=
  if versionBad s.fw.minor d then 1
  else if fieldsBad d k then 2
  else if alignBad k then 3
  else if regionsBad k then 4
  else if s.bindtabBad t k then 5 else 0

/-- The key of a bound kernel: its context's tag and its address. -/
def kernKey (t : Tag) (addr : Nat) : Nat := (t.slot * 1024 + t.inc) * 2 ^ 57 + addr % 2 ^ 57

/-- A kernel has failed: STATE and REASON, and the firmware watches its header for the STATE 1 that software writes (R289,
R290). -/
def State.failKernel (s : State) (t : Tag) (addr reason : Nat) : State :=
  let s := s.sysHead t addr [3, BitVec.ofNat 8 reason]
  match (s.translate fwCore t addr ⟨true, false, false⟩).2 with
  | .ok (.dram _ cell) => { s with failed := cell :: s.failed.filter fun c => decide (c ≠ cell) }
  | _ => s

/-- Software has written STATE 1 into the header of a failed kernel: REASON is 0 again (R290). -/
def State.reloads (s : State) : State :=
  s.failed.foldl (fun (s : State) cell =>
    if s.dramByte cell = 1 then
      { s.dramWrite (cell + 1) [0] with failed := s.failed.filter fun c => decide (c ≠ cell) } else s) s

/-- The kernel that a packet names, bound by this take if it was loaded (R289, R290): none when it is not bound. The firmware's
counts begin with the header that it copies; RUNNING goes on where grids of an earlier load still run. -/
def State.takeKernel (s : State) (t : Tag) (addr : Nat) : State × Option Kernel :=
  let fail := fun (s : State) (reason : Nat) => (s.failKernel t addr reason, (none : Option Kernel))
  if addr % 256 ≠ 0 then (s, none)
  else match s.sysBytes fwCore t addr 256 with
    | (s, none) => (s, none)
    | (s, some d) =>
      match fld d 0 1 with
      | 0 => (s, none)
      | 1 =>
        let k := Kernel.parse addr d
        let r := s.bindReason t k d
        if r = 0 then
          let run := ((tget s.kcounts (kernKey t addr)).map fun e => e.1).getD (fld d 112 8)
          ({ s.sysHead t addr [2, 0] with
              kernels := tset s.kernels (kernKey t addr) k, kcounts := tset s.kcounts (kernKey t addr) (run, fld d 120 8) }, some k)
        else fail s r
      | 2 => match tget s.kernels (kernKey t addr) with
        | some k => (s, some k)
        | none => fail s 2
      | 3 => (s, none)
      | _ => fail s 2

/-! ### Groups -/

/-- The member words of a group, as BLOCKID and wave (R304); none when one breaks R305. -/
def membersOf (g : Grid) (d : List Byte) (n : Nat) : Option (List (Nat × Nat)) :=
  let ws := wordsOf 8 d n
  let ms := ws.map fun w => (w % 2 ^ 32, w / 2 ^ 32)
  if ms.any fun m => decide (32 ≤ m.2) || decide (g.gx * g.gy * g.gz ≤ m.1) || decide (g.kern.blockY ≤ m.2) then none
  else if ms.eraseDups.length ≠ ms.length then none else some ms

/-- A group at the start of its grid. -/
def newGroup (all : Bool) (members : List (Nat × Nat)) (fault : Nat) : Group :=
  { all := all, members := members, fault := fault, mism := 0, ended := [], gathering := false, m := false, mask := 0, arrived := [],
    held := [], vote := [], regroup := [] }

/-- Entry n of a group table: none when it breaks R305, no group when it is unused (R304). -/
def State.readGroup (s : State) (g : Grid) (d : List Byte) : Option (Option Group) :=
  let n := fld d 0 4
  let all := decide (fld d 4 4 = 1)
  if 1 < fld d 4 4 ∨ 1048576 < n ∨ !zeros d 24 8 ∨ (all ∧ (n ≠ 0 ∨ fld d 8 8 ≠ 0)) ∨ fld d 8 8 % 8 ≠ 0 ∨ fld d 16 8 % 32 ≠ 0 then none
  else if all then some (some (newGroup true [] (fld d 16 8)))
  else if n = 0 then some none
  else match (s.sysBytes fwCore g.tag (fld d 8 8) (8 * n)).2 with
    | none => none
    | some m => (membersOf g m n).map fun l => some (newGroup false l (fld d 16 8))

/-- The groups of a grid, read when its packet is taken; none when the packet is rejected (R305, log 26). -/
def State.readGroups (s : State) (g : Grid) : Option (Tbl Group) :=
  if g.groupsPtr = 0 then some []
  else if g.groupsPtr % 256 ≠ 0 then none
  else match (s.sysBytes fwCore g.tag g.groupsPtr 8192).2 with
    | none => none
    | some d =>
      let es := (List.range 256).map fun i => (i, s.readGroup g ((d.drop (32 * i)).take 32))
      if es.any fun e => e.2.isNone then none
      else
        let gs : Tbl Group := es.filterMap fun e => match e.2 with
          | some (some x) => some (e.1, x)
          | _ => none
        let alls := (gs.filter fun e => e.2.all).length
        let named := gs.flatMap fun e => e.2.members
        if 4 < alls ∨ named.any fun m => decide (4 < alls + (named.filter fun x => decide (x = m)).length) then none else some gs

/-- The memberships of a wave: group numbers and member indices (R305). -/
def Grid.membersAt (g : Grid) (blockId wave : Nat) : List (Nat × Nat) :=
  g.groups.filterMap fun e =>
    if e.2.all then some (e.1, blockId * g.kern.blockY + wave)
    else (e.2.members.findIdx? fun m => decide (m = (blockId, wave))).map fun i => (e.1, i)

/-! ### Taking a packet -/

/-- A candidate: its deadline, arrival, context slot, queue index, tag and header (R281). -/
structure Cand where
  d : Nat
  arrival : Nat
  qix : Nat
  tag : Tag
  h : QHdr

/-- The packet at HEAD of a launch queue, zeros where its ring cannot be read. -/
def State.headPacket (s : State) (t : Tag) (h : QHdr) : List Byte :=
  ((s.sysBytes fwCore t (h.ring + h.head % 2 ^ h.log2 * 128) 128).2).getD (List.replicate 128 0)

/-- The candidates: the head packet of each open launch queue, by context slot and queue index (R281). -/
def State.candidates (s : State) : List Cand :=
  s.ctxs.flatMap fun e =>
    let t : Tag := ⟨e.1, e.2.inc⟩
    if e.2.state ≠ .live ∨ e.2.withdrawn then []
    else e.2.rcd.queues.zipIdx.filterMap fun q =>
      match (s.qread fwCore t q.1).2 with
      | none => none
      | some h =>
        if !h.ok ∨ h.kind ≠ 1 ∨ h.state ≠ 0 ∨ h.head = h.tail then none
        else
          let arr := ((s.arrivals.find? fun a => decide (a.1 = h.cell) && decide (a.2.1 = h.head)).map fun a => a.2.2).getD 0
          let dl := fld (s.headPacket t h) 48 8
          some { d := if dl = 0 then arr + h.slack else dl, arrival := arr, qix := q.2, tag := t, h := h }

/-- The candidate that is taken: least deadline, ties by arrival, then in the list's order (R281). -/
def bestCand (l : List Cand) : Option Cand :=
  l.foldl (fun r c => match r with
    | none => some c
    | some b => if c.d < b.d ∨ (c.d = b.d ∧ c.arrival < b.arrival) then some c else r) none

/-- Whether a grid's completion signal may be written (R280). -/
def State.signalOk (s : State) (t : Tag) (sig : Nat) : Bool :=
  decide (sig % 8 = 0) && (match (s.translate fwCore t sig ⟨false, true, false⟩).2 with
    | .ok _ => true
    | .error _ => false)

/-- The grid of a packet (R280). -/
def gridOf (t : Tag) (k : Kernel) (d : List Byte) : Grid :=
  { tag := t, kern := k, gx := fld d 8 2, gy := fld d 10 2, gz := fld d 12 2, args := fld d 16 8, groupsPtr := fld d 24 8,
    signal := fld d 32 8, sigValue := fld d 40 8, groups := [], exited := 0 }

/-- The checks of R280 on a packet and its kernel. -/
def State.packetOk (s : State) (d : List Byte) (g : Grid) : Bool :=
  decide (fld d 14 1 = g.kern.blockX) && decide (fld d 15 1 = g.kern.blockY) && decide (g.gx * g.gy * g.gz ≠ 0)
    && decide (g.gx * g.gy * g.gz ≤ 2 ^ 32 - 1) && zeros d 56 72 && (decide (g.signal = 0) || s.signalOk g.tag g.signal)

/-- An event of a packet. -/
def packetRec (ty qix kernel : Nat) : EventRec :=
  { ty := ty, cause := 0, qix := qix, blockId := 0, kernel := kernel, faultPc := 0, core := 0, skid := 0, interval := 0 }

/-- Reject a packet: none while the home of its SIGNAL is not ready (R280, R359). -/
def State.rejectPacket (s : State) (t : Tag) (qix : Nat) (d : List Byte) : Option State :=
  let s := s.postEvent t (packetRec 2 qix (fld d 0 8))
  let sig := fld d 32 8
  if sig ≠ 0 ∧ s.signalOk t sig then
    match s.unitPut fwCore t sig (toLE 8 (2 ^ 64 - 1)) with
    | .done s _ => some s
    | .park => none
    | .fail s _ _ => some s
  else some s

/-- Add to RUNNING of a kernel, modulo 2^64 (R288, R290). -/
def State.addRunning (s : State) (t : Tag) (k : Kernel) (n : Nat) : State :=
  let c := cget (0, 0) s.kcounts (kernKey t k.addr)
  let r := (c.1 + n) % 2 ^ 64
  { s.sysHead t (k.addr + 112) (toLE 8 r) with kcounts := tset s.kcounts (kernKey t k.addr) (r, c.2) }

/-- Validate a packet and queue its blocks for binding, ascending BLOCKID (R280, R281, R305). -/
def State.takePacket (s : State) (t : Tag) (qix : Nat) (d : List Byte) : Option State :=
  match s.takeKernel t (fld d 0 8) with
  | (s, none) => s.rejectPacket t qix d
  | (s, some k) =>
    let g := gridOf t k d
    match s.packetOk d g, s.readGroups g with
    | true, some gs =>
      let id := s.gridSeq
      some { s.addRunning t k 1 with
        gridSeq := id + 1, grids := tset s.grids id { g with groups := gs },
        tobind := s.tobind ++ (List.range (g.gx * g.gy * g.gz)).map fun b => ⟨id, b, false⟩ }
    | _, _ => s.rejectPacket t qix d

/-- PACKET_TAKE (R280, R281): HEAD advances at the header's home; a late packet is counted and reported. A take that would write to a
home that is not ready is made later (R359). -/
def execPacketTake (u : State) : Out :=
  let s := u
  if !s.fw.running then .next s
  else match bestCand s.candidates with
    | none => .next s
    | some c =>
      let d := s.headPacket c.tag c.h
      let s := s.dramWrite (c.h.cell + 24) (toLE 8 (c.h.head + 1))
      let s := { s with arrivals := s.arrivals.filter fun a => !(decide (a.1 = c.h.cell) && decide (a.2.1 = c.h.head)) }
      let s := if c.d < s.ns then
          (s.dramWrite (c.h.cell + 40) (toLE 8 (c.h.missed + 1))).postEvent c.tag (packetRec 1 c.qix (fld d 0 8))
        else s
      .next ((s.takePacket c.tag c.qix d).getD u)

/-! ### Completion -/

/-- GRID_COMPLETE (R282, R290): every block has exited; RUNNING falls, then SIGVALUE is written to SIGNAL, in peer memory too, or event
8 says that it could not be. It waits while the home of SIGNAL is not ready (R359). -/
def execGridComplete (grid : Nat) (u : State) : Out :=
  let s := u
  match tget s.grids grid with
  | none => .next s
  | some g =>
    if !s.fw.running ∨ g.exited ≠ g.gx * g.gy * g.gz then .next s
    else
      let s := { s with grids := tdel s.grids grid }.addRunning g.tag g.kern (2 ^ 64 - 1)
      if g.signal = 0 then .next s
      else match s.unitPut fwCore g.tag g.signal (toLE 8 g.sigValue) with
        | .done s _ => .next s
        | .park => .next u
        | .fail s _ _ => .next (s.postEvent g.tag (packetRec 8 0 g.kern.addr))

end Sys2Proof.Machine
end

