-- ==== Sys2Proof/Machine/Placing.lean ====
section
/-! DEFINITION. Placing and binding blocks: placement by the firmware and its free choices (R284, R285), compaction (R286), the
bind of a new block (R30, R113, R284, R291, R343) and of a saved one (R47, R316), and the entry of waves into the active set
(R37). -/

namespace Sys2Proof.Machine

/-! ### What a core has free -/

/-- A run of the slow file in use: a wave of a block, its base and length (R36). -/
structure Run where
  bid : Nat
  wid : Nat
  base : Nat
  len : Nat
  active : Bool

/-- Insert a run by its base. -/
def insertRun (x : Run) : List Run → List Run
  | [] => [x]
  | y :: t => if x.base ≤ y.base then x :: y :: t else y :: insertRun x t

/-- Whether a bind record of a core has no block yet. -/
def State.unbound (s : State) (c slot : Nat) : Bool := (s.blk (32 * c + slot)).isNone

/-- The records of a core whose blocks are not bound yet. -/
def State.waiting (s : State) (c : Nat) : Tbl BindRec := (s.core c).recs.filter fun e => s.unbound c e.1

/-- The runs of a core by base; what a record has reserved never moves (R286). -/
def State.runs (s : State) (c : Nat) : List Run :=
  let bs := s.blocks.flatMap fun e => if coreOf e.1 = c then
    e.2.waves.map fun w => ⟨e.1, w.1, w.2.runBase, w.2.runLen, w.2.active⟩ else []
  let rs := (s.waiting c).map fun e => ⟨32 * c + e.1, 32, 8 * e.2.slowBase, e.2.slowLen, true⟩
  (bs ++ rs).foldl (fun l x => insertRun x l) []

/-- The 8-aligned bases at which n registers are free (R284, R286). -/
def freeBases (rs : List Run) (n : Nat) : List Nat :=
  ((List.range 1024).map fun i => 8 * i).filter fun b =>
    decide (b + n ≤ 8192) && rs.all fun r => decide (b + n ≤ r.base) || decide (r.base + r.len ≤ b)

/-- Registers free in total. -/
def freeRegs (rs : List Run) : Nat := 8192 - rs.foldl (fun n r => n + r.len) 0

/-- Move the run of a wave that is not active (R286); its snapshot moves with it. -/
def State.moveRun (s : State) (c : Nat) (r : Run) (base : Nat) : State :=
  if base = r.base then s
  else
    let l := (List.range r.len).map fun i => (s.core c).reg (r.base + i)
    let mine := fun (i : Nat) => decide (r.base ≤ i) && decide (i < r.base + r.len)
    let here := fun (m : List Nat) => (m.filter mine).map fun i => i - r.base + base
    let s := s.modCore c fun k =>
      let y := { k with
        fast := k.fast.filter fun e => !mine e.1, bad := k.bad.filter fun i => !mine i, soft := k.soft.filter fun i => !mine i }.putRun base l
      { y with bad := y.bad ++ here k.bad, soft := y.soft ++ here k.soft }
    s.modBlk r.bid fun b =>
      { (b.modWave r.wid fun w => { w with runBase := base }) with
        snap := b.snap.map fun n => { n with waves := tmod n.waves r.wid fun w => { w with runBase := base } } }

/-- Compaction: runs of pending waves in ascending base order, each to the lowest 8-aligned place at or above the end of the
run before it (R286). -/
def compacted : Nat → List Run → List (Run × Nat)
  | _, [] => []
  | at_, r :: t =>
    let dst := if r.active then r.base else (at_ + 7) / 8 * 8
    (r, dst) :: compacted (dst + r.len) t

def State.compact (s : State) (c : Nat) : State := (compacted 0 (s.runs c)).foldl (fun (s : State) e => s.moveRun c e.1 e.2) s

/-- Scratch ranges that blocks and records of a core hold: base and length. -/
def State.scratchHeld (s : State) (c : Nat) : List (Nat × Nat) :=
  (s.blocks.filterMap fun e => if coreOf e.1 = c then some (e.2.scratchBase, e.2.kern.shared) else none)
    ++ (s.waiting c).map fun e => (256 * e.2.scratchBase, e.2.shared)

/-- Scratch bases at which n bytes are free, wholly in banks in scratch mode (R93). -/
def State.freeScratch (s : State) (c n : Nat) : List Nat :=
  if n = 0 then [0]
  else
    let held := s.scratchHeld c
    let ok := (List.range 32).filter fun i => decide (modeAt (s.core c).bankMode i = 1)
    ((List.range 4096).map fun i => 256 * i).filter fun b =>
      decide (b + n ≤ 0x100000) && ((List.range ((b + n - 1) / 32768 - b / 32768 + 1)).all fun i => ok.contains (b / 32768 + i))
        && held.all fun h => decide (h.2 = 0) || decide (b + n ≤ h.1) || decide (h.1 + h.2 ≤ b)

/-- The banks that are FIFO allocations of blocks and records of a core (R95). -/
def State.fifoHeld (s : State) (c : Nat) : BitVec 32 :=
  (s.waiting c).foldl (fun m e => m ||| e.2.fifoMask) (s.blocks.foldl (fun m e => if coreOf e.1 = c then m ||| e.2.fifoMask else m) 0)

/-- Banks that hold no allocation, the scratch range at `base` among the allocations (R95). -/
def State.freeBanks (s : State) (c base n : Nat) : List Nat :=
  let held := (base, n) :: s.scratchHeld c
  (List.range 32).filter fun i =>
    !(s.fifoHeld c).getLsbD i
      && held.all fun h => decide (h.2 = 0) || decide (h.1 + h.2 ≤ 32768 * i) || decide (32768 * (i + 1) ≤ h.1)

/-- Choose n of a list; none when it is shorter. -/
def State.chooseN (s : State) : Nat → List Nat → List Nat → State × Option (List Nat)
  | 0, _, acc => (s, some acc)
  | n + 1, l, acc => match s.choose l with
    | (s, none) => (s, none)
    | (s, some x) => s.chooseN n (l.filter fun y => decide (y ≠ x)) (acc ++ [x])

/-- Matrix contexts of a core that no block has (R31, R285). -/
def State.freeMat (s : State) (c : Nat) : List Nat :=
  (List.range 16).filter fun i =>
    !(s.blocks.any fun e => decide (coreOf e.1 = c) && decide (e.2.matCtx = some i))
      && !((s.waiting c).any fun e => e.2.matrix && decide (e.2.matCtx = i))

/-- Bind slots of a core that are free (R284). -/
def State.freeSlots (s : State) (c : Nat) : List Nat :=
  (List.range 32).filter fun i => s.unbound c i && (tget (s.core c).recs i).isNone

/-- Waves resident on a core, those of its records among them (R36). -/
def State.residents (s : State) (c : Nat) : Nat :=
  s.blocks.foldl (fun n e => if coreOf e.1 = c then n + e.2.nwaves else n) ((s.waiting c).foldl (fun n e => n + e.2.nwaves) 0)

/-- Whether the column-owner right of a core is held (R98). -/
def State.columnHeld (s : State) (c : Nat) : Bool :=
  s.blocks.any (fun e => decide (coreOf e.1 = c) && e.2.columnRight) || (s.waiting c).any fun e => e.2.columnRight

/-! ### Placement -/

/-- What a block asks of a core: its kernel, grid, and the saved block if it was saved. -/
structure Want where
  g : Grid
  kern : Kernel
  saved : Option Saved

def State.wantOf (s : State) (x : ToBind) : Option Want :=
  match tget s.grids x.grid with
  | none => none
  | some g =>
    if x.saved then (s.saves.find? fun y => decide (y.grid = x.grid) && decide (y.blockId = x.blockId)).map fun y => ⟨g, g.kern, some y⟩
    else some ⟨g, g.kern, none⟩

/-- Registers of the slow file that a block needs in one run (R284). -/
def Want.regs (w : Want) : Nat :=
  match w.saved with
  | some y => y.blk.waves.foldl (fun n e => n + e.2.runLen) 0
  | none => w.kern.blockY * w.kern.regs

/-- Sequencer contexts of the other engines that a saved block's streams take up again (R316). -/
def State.contextsFit (s : State) (c : Nat) (w : Want) : Bool :=
  match w.saved with
  | none => true
  | some y => [Engine.copy, Engine.msg, Engine.coll].all fun e =>
      decide ((y.blk.streams.filter fun x => decide (x.eng = e)).length ≤ (s.freeContexts c e).length)

/-- The partition of each wave: the firmware's free choice (R285). -/
def State.chooseParts (s : State) : Nat → State × Nat
  | 0 => (s, 0)
  | n + 1 => match s.choose [0, 1, 2, 3] with
    | (s, p) => let r := s.chooseParts n; (r.1, 4 * r.2 + p.getD 0)

/-- Whether a core is one on which a block may be bound, its run and its places in the core store aside: ready, not fallow, with
room for its waves, and the column right and sequencer contexts that it asks for (R36, R98, R285, R350). -/
def State.suits (s : State) (c : Nat) (w : Want) : Bool :=
  s.unitReady .core c && !s.unitFallow .core c && !s.quits.contains c && decide (s.residents c + w.kern.blockY ≤ 64)
    && !(w.kern.column && s.columnHeld c) && s.contextsFit c w

/-- Whether the firmware asks a core to compact for a block: it has as many free registers as the block needs, but no such run
(R286). -/
def State.asksCompact (s : State) (c : Nat) (w : Want) : Bool :=
  s.suits c w && (freeBases (s.runs c) w.regs).isEmpty && decide (w.regs ≤ freeRegs (s.runs c))

/-- Place a block on a core: its record, if every resource is free there after any compaction (R284, R285, R286, log 3, log 27). -/
def State.placeOn (s : State) (c : Nat) (x : ToBind) (w : Want) : Option State :=
  let k := w.kern
  if !s.suits c w then none
  else
    let (s, slot) := s.choose (s.freeSlots c)
    let (s, mat) := if k.matrix then s.choose (s.freeMat c) else (s, some 0)
    let (s, scr) := s.choose ((s.freeScratch c k.shared).filter fun b => decide (k.fifos ≤ (s.freeBanks c b k.shared).length))
    let (s, banks) := s.chooseN k.fifos (s.freeBanks c (scr.getD 0) k.shared) []
    let s := if s.asksCompact c w then s.compact c else s
    let (s, base) := s.choose (freeBases (s.runs c) w.regs)
    let (s, parts) := s.chooseParts k.blockY
    match slot, mat, scr, banks, base with
    | some slot, some mat, some scr, some banks, some base =>
      let fifo : BitVec 32 := banks.foldl (fun m i => m ||| (1 <<< i)) 0
      let r : BindRec :=
        { valid := true, restore := x.saved, columnRight := k.column, matrix := k.matrix, tag := w.g.tag, blockId := x.blockId,
          kern := k.addr, posX := x.blockId % w.g.gx, posY := x.blockId / w.g.gx % w.g.gy, posZ := x.blockId / (w.g.gx * w.g.gy),
          nwaves := k.blockY, win := k.regs / 8, slowBase := base / 8, slowLen := w.regs, scratchBase := scr / 256, shared := k.shared,
          matCtx := mat, parts := BitVec.ofNat 64 parts,
          divBase := match w.saved with
            | some y => y.blk.divBase
            | none => Config.divBase c slot % 2 ^ 57,
          spillBase := match w.saved with
            | some y => y.blk.spillBase
            | none => Config.spillBase c slot % 2 ^ 57,
          divLen := match w.saved with
            | some y => y.blk.divLen / 1024
            | none => Config.divLen c slot % 65535 + 1,
          spillLen := match w.saved with
            | some y => y.blk.spillLen / 4096
            | none => Config.spillLen c slot % 65535 + 1,
          fifoMask := fifo, grid := x.grid }
      let s := s.modCore c fun k => { k with recs := tset k.recs slot r }
      some (if banks.isEmpty then s else s.setBankMode c (BitVec.ofNat 64 (banks.foldl (fun (m : Nat) i =>
        m - m / 4 ^ i % 4 * 4 ^ i + 2 * 4 ^ i) (s.core c).bankMode.toNat)))
    | _, _, _, _, _ => none

/-- The lowest core on which a block fits (R285). -/
def State.placeFrom (s : State) (x : ToBind) (w : Want) : Nat → Nat → Option State
  | 0, _ => none
  | n + 1, c => match s.placeOn c x w with
    | some s => some s
    | none => s.placeFrom x w n (c + 1)

/-- Place blocks in order, all or none (R285). -/
def State.placeAll (s : State) : List ToBind → Option State
  | [] => some s
  | x :: t => match s.wantOf x with
    | none => none
    | some w => match s.placeFrom x w 512 0 with
      | none => none
      | some s => s.placeAll t

/-- COMPACTION (R286): a bind that waits has asked the core for it. -/
def execCompaction (core : Nat) (s : State) : Out :=
  match s.tobind.head?.bind s.wantOf with
  | some w => .next (if s.asksCompact core w then s.compact core else s)
  | none => .next s

/-- Whether a bind that waits has asked a core for a compaction that would move a run (R286). -/
def State.compactDue (s : State) (c : Nat) : Bool :=
  match s.tobind.head?.bind s.wantOf with
  | some w => s.asksCompact c w && (compacted 0 (s.runs c)).any fun e => decide (e.1.base ≠ e.2)
  | none => false

/-- BLOCK_PLACEMENT (R44, R285): the head of the queue, or every block of a .coresident grid at once. It goes on while the management
core of a block's stook is not ready or fallow: the one image binds for every stook (log 68). -/
def execBlockPlacement (s : State) : Out :=
  if !s.fw.running then .next s
  else match s.tobind with
    | [] => .next s
    | x :: t =>
      let all := match tget s.grids x.grid with
        | some g => g.kern.coresident && !x.saved
        | none => false
      let now := if all then (x :: t).takeWhile fun y => decide (y.grid = x.grid) && !y.saved else [x]
      match s.placeAll now with
      | some u => .next { u with tobind := s.tobind.drop now.length }
      | none => .next s

/-! ### Bind -/

/-- A wave at its first instruction (R113). -/
def freshWave (entry : Pc) (k0 : Word32) (part base win : Nat) (regs : Tbl Word64) (members : List (Nat × Nat)) : Wave :=
  { live := true, s0 := { Slot.off with status := .run, pc := entry, k0 := k0, emask := k0 }, s1 := Slot.off, sregs := regs, kregs := [],
    folds := [], part := part, active := false, runBase := base, runLen := win, bottom := 0, base := 0, win := win, wins := [],
    openCalls := 0, spillTop := 0, spills := [], dstack := [], dmem := 0, dcont := [], split := false, dom0 := 0, dom1 := 0, downer := 0,
    presplit := 0, uconf := false, rmClass := 0, rmWord := 0, halted := false, barIssued := [], barn := [], plane := none,
    gslots := [], members := members }

/-- A block with nothing in it yet, as its record and kernel give it (R284). -/
def blockOf (r : BindRec) (k : Kernel) (slot : Nat) (priv : Bool) (now ms : Nat) : Block :=
  { tag := r.tag, grid := r.grid, blockId := r.blockId, posX := r.posX, posY := r.posY, posZ := r.posZ, priv := priv, kern := k,
    nwaves := r.nwaves, waves := [], scratchBase := 256 * r.scratchBase, columnRight := r.columnRight,
    matCtx := if r.matrix then some r.matCtx else none, mat := Mat.fresh, fifoMask := r.fifoMask, fifos := [], hslot := slot,
    divBase := r.divBase, divLen := 1024 * r.divLen, spillBase := r.spillBase, spillLen := 4096 * r.spillLen, streams := [],
    nbars := [], barArr := 0, closing := false, interval := 0, planeSet := 0, planeSeq := 0, sb := [], versBudget := 0x100000,
    vers := [], vclean := [], versLines := [], isOpen := true, rolled := false, snap := none, touched := [], frozen := .no, wdStart := now,
    wdMs := ms, preempt := none }

/-- The matrix context of a new block, with the kernel's own table sets (R30, R291). -/
def State.matOf (s : State) (t : Tag) (k : Kernel) : Mat :=
  let one := fun (l : Tbl TableSet) (n : Nat) =>
    match k.csetmask.testBit n, (s.sysBytes fwCore t (k.csets + 512 * n) 400).2 with
    | true, some d => tset l n (tableOf d)
    | _, _ => l
  { Mat.fresh with sets := (List.range 4).foldl one Mat.fresh.sets }

/-- Whether a resource that a record names is still held by another block (R284). -/
def State.bindWaits (s : State) (c slot : Nat) (r : BindRec) : Bool :=
  !s.unbound c slot || s.blocks.any fun e =>
    decide (coreOf e.1 = c) && ((r.columnRight && e.2.columnRight) || (r.matrix && decide (e.2.matCtx = some r.matCtx))
      || decide (e.2.fifoMask &&& r.fifoMask ≠ 0)
      || (decide (256 * r.scratchBase < e.2.scratchBase + e.2.kern.shared) && decide (e.2.scratchBase < 256 * r.scratchBase + r.shared))
      || e.2.waves.any fun w => decide (8 * r.slowBase < w.2.runBase + w.2.runLen) && decide (w.2.runBase < 8 * r.slowBase + r.slowLen))

/-- Divide what is left among contexts: the firmware's free choice, the last takes the rest (R110, log 3). -/
def State.shares (s : State) : List Nat → Nat → List (Nat × Nat) → State × List (Nat × Nat)
  | [], _, acc => (s, acc)
  | [x], left, acc => (s, acc ++ [(x, left)])
  | x :: t, left, acc =>
    let n := Config.freeChoice s.freeIx % (left + 1)
    ({ s with freeIx := s.freeIx + 1 }).shares t (left - n) (acc ++ [(x, n)])

/-- The quotas of the contexts bound on a core; a queue that takes messages again under its new share reports anew when it is full
(R110, R111). -/
def State.setQuotas (s : State) (c : Nat) : State :=
  let slots := ((s.blocks.filterMap fun e => if coreOf e.1 = c then some e.2.tag.slot else none).eraseDups)
  let (s, ps) := s.shares slots 64 []
  let (s, os) := s.shares slots 256 []
  let q := slots.foldl (fun (q : Tbl (Nat × Nat)) x =>
    tset q x (((ps.find? fun e => decide (e.1 = x)).map fun e => e.2).getD 0, ((os.find? fun e => decide (e.1 = x)).map fun e => e.2).getD 0)) []
  s.modCore c fun k => { k with
    quota := q,
    msgovf := k.msgovf.filter fun x => decide ((cget (0, 0) q x).2 ≤ (k.ovf.filter fun m => decide (m.rcvSlot = x)).length) }

/-- Bind a new block (R28, R30, R113, R284, R305, R343). -/
def State.bindNew (s : State) (c slot : Nat) (r : BindRec) (g : Grid) : State :=
  let bid := 32 * c + slot
  let win := 8 * r.win
  let b := blockOf r g.kern slot (s.ctx r.tag.slot).rcd.priv s.clock (s.ctx r.tag.slot).watchdogMs
  let regs : Tbl Word64 := cset 0 (cset 0 (cset 0 [] 1 (BitVec.ofNat 64 g.args)) 2 (BitVec.ofNat 64 g.groupsPtr)) 3
    (BitVec.ofNat 64 (g.gx + g.gy * 2 ^ 16 + g.gz * 2 ^ 32))
  let wave := fun (w : Nat) => freshWave (BitVec.ofNat 57 (g.kern.text + g.kern.entry)) b.present (r.parts.toNat / 4 ^ w % 4)
    (8 * r.slowBase + w * win) win regs (g.membersAt r.blockId w)
  let b := { b with
    waves := (List.range r.nwaves).map fun w => (w, wave w),
    mat := if r.matrix then s.matOf r.tag g.kern else Mat.fresh }
  let s := s.modCore c fun k => k.putRun (8 * r.slowBase) (List.replicate (r.nwaves * win) 0)
  ((s.setBlk bid b).setQuotas c).takeSnapshot bid

/-! ### The barrier section (R315) -/

/-- Stream bits of SARR: 16 times the engine plus the context (R315). -/
def sarrBits (l : List (Engine × Nat)) : Nat := l.foldl (fun m e => Nat.lor m (2 ^ (16 * e.1.code.toNat + e.2))) 0

/-- The bit of a held arrival; the matrix stream's is in its own state (R315). -/
def heldBit : Issuer → Option Nat
  | .slot _ w _ => some w
  | .stream _ .mat _ => none
  | .stream _ .copy ix => some (32 + ix)
  | .stream _ .msg ix => some (48 + ix)
  | .stream _ .coll ix => some (56 + ix)

/-- Record n of the section. -/
def NBar.bytes (x : NBar) : List Byte :=
  toLE 4 x.warr.toNat ++ toLE 1 x.count ++ toLE 1 ((if x.parity then 1 else 0) + (match x.dwave with
    | some w => 2 + 4 * w
    | none => 0)) ++ toLE 2 0 ++ toLE 8 (sarrBits x.sarr) ++ toLE 8 x.value.toNat
    ++ toLE 8 (x.held.foldl (fun m h => match heldBit h with
      | some i => Nat.lor m (2 ^ i)
      | none => m) 0)

/-- The 544 bytes of a block's barrier section (R315). -/
def Block.section_ (b : Block) : List Byte :=
  toLE 4 b.barArr.toNat ++ toLE 4 b.interval ++ toLE 4 b.hslot ++ toLE 4 b.planeSet.toNat ++ toLE 4 b.planeSeq ++ toLE 12 0
    ++ (List.range 16).flatMap fun n => (b.nbar n).bytes

/-- The context that a stream of a saved block takes on its new core: pairs of old and new (R316). -/
abbrev Moves := List ((Engine × Nat) × Nat)

def movedTo (m : Moves) (e : Engine) (ix : Nat) : Nat := ((m.find? fun x => decide (x.1 = (e, ix))).map fun x => x.2).getD ix

/-- An issuer of a saved block under its new names. -/
def movedWho (m : Moves) (bid : Nat) : Issuer → Issuer
  | .slot _ w k => .slot bid w k
  | .stream _ e ix => .stream bid e (movedTo m e ix)

/-- Numbered barrier n as the section holds it, with what its participants' own state holds (R315, R316). -/
def nbarOf (m : Moves) (bid : Nat) (old : NBar) (d : List Byte) : NBar :=
  let fl := fld d 5 1
  let bits := fun (n : Nat) (x : Nat) => (List.range n).filter fun i => x.testBit i
  { parity := fl.testBit 0, warr := BitVec.ofNat 32 (fld d 0 4), count := fld d 4 1, value := BitVec.ofNat 64 (fld d 16 8),
    dwave := if fl.testBit 1 then some (fl / 4 % 32) else none,
    sarr := (bits 64 (fld d 8 8)).map fun i =>
      let e := Engine.ofCode (BitVec.ofNat 2 (i / 16)); (e, movedTo m e (i % 16)),
    held := ((bits 64 (fld d 24 8)).map fun i =>
        if i < 32 then Issuer.slot bid i 0
        else if i < 48 then .stream bid .copy (movedTo m .copy (i - 32))
        else if i < 56 then .stream bid .msg (movedTo m .msg (i - 48))
        else .stream bid .coll (movedTo m .coll (i - 56)))
      ++ (old.held.filter fun h => (heldBit h).isNone).map (movedWho m bid),
    rcv := old.rcv.map fun e => (movedWho m bid e.1, e.2) }

/-- Load the section into a block (R315, R316). -/
def Block.loadSection (b : Block) (m : Moves) (bid : Nat) (d : List Byte) : Block :=
  { b with
    barArr := BitVec.ofNat 32 (fld d 0 4), interval := fld d 4 4, hslot := fld d 8 4 % 64, planeSet := BitVec.ofNat 32 (fld d 12 4),
    planeSeq := fld d 16 4,
    nbars := (List.range 16).map fun n => (n, nbarOf m bid (b.nbar n) ((d.drop (32 + 32 * n)).take 32)) }

/-- The contexts that the streams of a saved block take (R285, R316). -/
def State.chooseMoves (s : State) (c : Nat) (mat : Option Nat) : List Stream → List (Engine × Nat) → Moves → State × Moves
  | [], _, acc => (s, acc)
  | x :: t, used, acc =>
    match x.eng with
    | .mat => s.chooseMoves c mat t used (acc ++ [((.mat, x.ix), mat.getD x.ix)])
    | e =>
      match s.choose ((s.freeContexts c e).filter fun i => !used.contains (e, i)) with
      | (s, some i) => s.chooseMoves c mat t ((e, i) :: used) (acc ++ [((e, x.ix), i)])
      | (s, none) => s.chooseMoves c mat t used acc

/-- Put the runs of a saved block into one run of its new core (R284): the waves with their new bases. -/
def placeWaves (parts : Nat) : Nat → Tbl Wave → Tbl Wave
  | _, [] => []
  | at_, (n, w) :: t => (n, { w with runBase := at_, active := false, part := parts / 4 ^ n % 4 }) :: placeWaves parts (at_ + w.runLen) t

/-- The collectives that a saved block left in progress are its own again: it waits for them where it ends (R29, R47, R282). -/
def State.rejoin (s : State) (f : Issuer → Issuer) (ids : List Nat) : State :=
  let who := fun (id : Nat) (i : Issuer) => match tget s.colls id with
    | some x => if ids.contains id then f x.was else i
    | none => i
  { s with
    colls := s.colls.map fun (e : Nat × Coll) => (e.1, { e.2 with who := who e.1 e.2.who }),
    cmds := s.cmds.map fun (e : Nat × Cmd) => (e.1, { e.2 with who := who e.1 e.2.who }) }

/-- Restore a saved block (R47, R95, R315, R316): it takes no snapshot, and its interval is open (R343, R344). What its new
core holds clean is not served to it. -/
def State.bindSaved (s : State) (c slot : Nat) (r : BindRec) (y : Saved) : State :=
  let bid := 32 * c + slot
  let (s, mv) := s.chooseMoves c (if r.matrix then some r.matCtx else none) y.blk.streams [] []
  let new := blockOf r y.blk.kern slot y.blk.priv s.clock (s.ctx r.tag.slot).watchdogMs
  let b := { y.blk with
    scratchBase := new.scratchBase, matCtx := new.matCtx, fifoMask := new.fifoMask, divBase := new.divBase, divLen := new.divLen,
    spillBase := new.spillBase, spillLen := new.spillLen, wdStart := s.clock, wdMs := new.wdMs, preempt := none,
    waves := placeWaves r.parts.toNat (8 * r.slowBase) y.blk.waves,
    streams := y.blk.streams.map fun (x : Stream) => { x with ix := movedTo mv x.eng x.ix } }
  let (s, sec) := s.sysBytes fwCore y.blk.tag y.area 544
  let b := b.loadSection mv bid (sec.getD y.blk.section_)
  let s := s.modCore c fun k =>
    let k := y.vregs.foldl (fun (k : Core) e => match tget b.waves e.1 with
      | some w => k.putRun w.runBase e.2
      | none => k) k
    { k with
      store := memReplace k.store b.scratchBase b.kern.shared (y.scratch.map fun e => ⟨e.1 + b.scratchBase, e.2⟩),
      colWays := if b.columnRight then y.colWays else k.colWays,
      column := if b.columnRight then y.column else k.column }
  let s := (s.acquireSide c .sys).rejoin (movedWho mv bid) y.colls
  let s := { s with saves := s.saves.filter fun x => !(decide (x.grid = y.grid) && decide (x.blockId = y.blockId)) }
  (s.setBlk bid b).setQuotas c

/-- BIND (R284): the dispatch hardware binds what a valid record says once nothing that it names is held, and
not on a core that is to be replaced (R350). -/
def execBind (core slot : Nat) (s : State) : Out :=
  match tget (s.core core).recs slot with
  | none => .next s
  | some r =>
    if 32 ≤ slot ∨ 512 ≤ core ∨ !r.valid ∨ s.quits.contains core ∨ s.bindWaits core slot r then .next s
    else match tget s.grids r.grid with
      | none => .next s
      | some g =>
        if r.restore then
          match s.saves.find? fun y => decide (y.grid = r.grid) && decide (y.blockId = r.blockId) with
          | some y => .next (s.bindSaved core slot r y)
          | none => .next s
        else .next (s.bindNew core slot r g)

/-! ### The active set -/

/-- Take a wave out of a partition's list. -/
def Core.unpend (c : Core) (p key : Nat) : Core := c.setPend p ((c.pend p).filter fun i => decide (i ≠ key))

/-- ACTIVE_SET_ENTRY (R37, R43): the head of the list enters a free slot of its partition. -/
def execActiveSetEntry (core part : Nat) (s : State) : Out :=
  match (s.core core).pend (part % 4) with
  | [] => .next s
  | key :: _ =>
    if 4 ≤ part ∨ 4 ≤ s.activeIn core part then .next s
    else
      let s := s.modCore core fun c => c.unpend part key
      .next (s.modWave (32 * core + key / 32) (key % 32) fun w => if w.live && w.runnable then { w with active := true } else w)

end Sys2Proof.Machine
end

