-- ==== Sys2Proof/Machine/Lifecycle.lean ====
section
/-! DEFINITION. How a block leaves its core: exit (R29), pre-emption by drain, save and flush (R46, R47, R306, R315), and the
watchdog with the release of a frozen block (R348). -/

namespace Sys2Proof.Machine

/-! ### Exit -/

/-- Whether a send of a block is not complete. -/
def State.sendsOut (s : State) (bid : Nat) : Bool := s.sends.any fun e => decide (e.2.who.block = bid)

/-- Whether a collective that a block issued, before a save of it too, is in progress (R47). -/
def State.collsOut (s : State) (bid : Nat) : Bool := s.colls.any fun e => decide (e.2.who.block = bid)

/-- Whether a request of a block to a peer is not answered. -/
def State.linksOut (s : State) (bid : Nat) : Bool := s.links.any fun e => decide (e.2.who.block = bid)

/-- Whether one of them is a write whose acknowledgement is late (R330). -/
def State.linksLate (s : State) (bid : Nat) : Bool := s.links.any fun e => decide (e.2.who.block = bid) && e.2.late

/-- BLOCK_EXIT (R29, R217, R282): when all waves, streams and commands of a block have ended and its writes to peers are
acknowledged, its vertical writes land, every dirty line of the core goes home, its versions are committed, and its
resources are released. -/
def execBlockExit (block : Nat) (s : State) : Out :=
  match s.blk block with
  | none => .next s
  | some b =>
    let c := coreOf block
    if b.frozen ≠ .no ∨ b.waves.any (fun w => w.2.live) ∨ !b.streams.isEmpty ∨ s.cmds.any (fun e => decide (e.2.block = block))
        ∨ s.collsOut block ∨ s.sendsOut block then .next s
    else if s.linksOut block then
      .next (if s.linksLate block then
        { s with links := s.links.filter fun e => !(decide (e.2.who.block = block) && e.2.late) }.uce block cUCE 0 0 else s)
    else
      let s := ((s.landAll c).writeBackAll c).commit block
      let s := s.dropBlock block
      .next { s with grids := tmod s.grids b.grid fun g => { g with exited := g.exited + 1 } }

/-! ### Pre-emption -/

/-- Whether a wave of the block is in a group with a member outside it (R306). -/
def State.groupsCross (s : State) (b : Block) : Bool :=
  match tget s.grids b.grid with
  | none => false
  | some g => g.groups.any fun e =>
      (List.range g.kern.blockY).any (fun w => (g.membersAt b.blockId w).any fun m => decide (m.1 = e.1))
        && (if e.2.all then decide (1 < g.gx * g.gy * g.gz) else e.2.members.any fun m => decide (m.1 ≠ b.blockId))

/-- The treatment of a block: the first row of R46 that matches, and never flush for a block whose groups cross (R306). -/
def State.treatment (s : State) (b : Block) : Preempt :=
  let d := b.kern.intervals
  let c := b.interval
  if 0 < d ∧ d ≤ c + 1 then .drain
  else if b.kern.idempotent ∧ (4 * c < d ∨ (d = 0 ∧ c = 0)) ∧ !s.groupsCross b then .flush
  else .save

/-- Whether the commands and sends of a block that its treatment waits for are performed: all for a flush, all but
collectives for a save; and no slot or stream waits for an answer (R47). -/
def State.settled (s : State) (bid : Nat) (b : Block) (colls : Bool) : Bool :=
  !s.cmds.any (fun e => decide (e.2.block = bid) && decide (e.2.op ≠ .coll)) && !(colls && s.collsOut bid) && !s.sendsOut bid && !b.closing
    && b.waves.all (fun w => w.2.s0.asks.isEmpty && w.2.s1.asks.isEmpty && calm w.2.s0 && calm w.2.s1)
    && b.streams.all fun x => x.asks.isEmpty
where
  calm (x : Slot) : Bool := match x.status with
    | .reply => false
    | .ctxwait _ _ _ => false
    | _ => true

/-- A slot as it is saved: one that was parked on a fault or on a binding entry, waited on a barrier object, or had given up its place
until it need not wait, does again on restore what it had issued (R47, R301). -/
def Slot.saved (x : Slot) : Slot :=
  match x.status with
  | .parked _ _ => { x with status := .run }
  | .binding _ => { x with status := .run }
  | .obj => { x with status := .run }
  | .blocked _ => { x with status := .run }
  | _ => x

/-- The same of a stream: it stops at an instruction boundary (R223). -/
def Stream.saved (x : Stream) : Stream :=
  match x.status with
  | .parked _ _ => { x with status := .run }
  | .obj => { x with status := .run }
  | _ => x

/-- The block as a save records it. -/
def Block.savedAs (b : Block) : Block :=
  { b with
    waves := tmapv b.waves fun w => { w with active := false, s0 := w.s0.saved, s1 := w.s1.saved },
    streams := b.streams.map Stream.saved, snap := none, touched := [], isOpen := true, rolled := false, vers := [], vclean := [], versLines := [],
    preempt := none, sb := [] }

/-! ### The save area (R47, R95, R315; the places of what lies behind the barrier section are log 8's) -/

/-- A record of the save area: what it holds, of which wave, tile or FIFO, at which place, and the bytes. -/
def saveRec (kind a b : Nat) (d : List Byte) : List Byte := toLE 1 kind ++ toLE 1 d.length ++ toLE 2 a ++ toLE 4 b ++ d

/-- Records of a table: one for each entry. -/
def saveTbl (kind a n : Nat) (l : List (Nat × Nat)) : List Byte := l.flatMap fun e => saveRec kind a e.1 (toLE n e.2)

/-- A wave's scalar, mask and fold registers, private copies and divergence stack, its registers in the run being `regs`. -/
def Wave.image (w : Wave) (n : Nat) (regs : List VReg) : List Byte :=
  saveTbl 1 n 128 ((regs.zipIdx.filter fun e => decide (e.1 ≠ 0)).map fun e => (e.2 + w.bottom, e.1.toNat))
    ++ saveTbl 2 n 8 (w.sregs.map fun e => (e.1, e.2.toNat)) ++ saveTbl 3 n 4 (w.kregs.map fun e => (e.1, e.2.toNat))
    ++ saveTbl 4 n 16 (w.folds.map fun e => (e.1, e.2.toNat)) ++ saveTbl 5 (2 * n) 8 (w.s0.priv.map fun e => (e.1, e.2.toNat))
    ++ saveTbl 5 (2 * n + 1) 8 (w.s1.priv.map fun e => (e.1, e.2.toNat))
    ++ saveTbl 6 n 16 (w.dstack.zipIdx.map fun e => (e.2, e.1.emask.toNat + e.1.mask.toNat * 2 ^ 32 + e.1.pc.toNat * 2 ^ 64))
    ++ saveRec 7 n 0 (toLE 4 w.dmem)

/-- An operand map as a number: TYPE, flags, base and strides, cursor and shadow (R226). -/
def MapRec.code (m : MapRec) : Nat :=
  m.ty.code.toNat + (if m.bways then 2 ^ 8 else 0) + (if m.roleB then 2 ^ 9 else 0) + m.base * 2 ^ 64 + m.lstride * 2 ^ 128
    + m.kstride * 2 ^ 192 + m.cursor * 2 ^ 256 + m.shadow * 2 ^ 320

/-- The matrix sequencer context: z tiles, shadows, count banks, their depths, operand maps and table sets. -/
def Mat.image (m : Mat) : List Byte :=
  m.z.flatMap (fun e => saveTbl 8 e.1 4 (e.2.map fun x => (x.1, x.2.toNat)))
    ++ m.zs.flatMap (fun e => saveTbl 9 e.1 4 (e.2.map fun x => (x.1, x.2.toNat)))
    ++ m.bank.flatMap (fun e => e.2.flatMap fun x => saveTbl 10 e.1 8 (x.2.map fun y => (64 * x.1 + y.1, y.2)))
    ++ saveTbl 11 0 8 (m.depth.zipIdx.map fun e => (e.2, e.1)) ++ saveTbl 12 0 48 (m.maps.map fun e => (e.1, e.2.code))
    ++ m.sets.flatMap fun e =>
      saveTbl 13 e.1 1 (e.2.cls.zipIdx.map fun x => (x.2, x.1.getD 255))
        ++ saveTbl 14 e.1 8 ((e.2.vals ++ [e.2.exp]).zipIdx.map fun x => (x.2, (BitVec.ofInt 64 x.1).toNat))

/-- The entry counts of a block's FIFOs, and their entries with the oldest first (R95). -/
def fifoImage (l : Tbl (List (BitVec 128))) : List Byte :=
  l.flatMap fun e => saveRec 15 e.1 e.2.length [] ++ saveTbl 16 e.1 16 (e.2.zipIdx.map fun x => (x.2, x.1.toNat))

/-- What a save writes for a block: the barrier section, the length of the rest, and the rest. -/
def Saved.image (y : Saved) : List Byte :=
  let d := y.blk.waves.flatMap (fun e => e.2.image e.1 (((y.vregs.find? fun v => decide (v.1 = e.1)).map fun v => v.2).getD []))
    ++ saveTbl 17 0 1 (y.scratch.map fun e => (e.1, e.2.toNat)) ++ saveTbl 18 0 1 (y.column.map fun e => (e.1, e.2.toNat))
    ++ (if y.blk.matCtx.isSome then y.blk.mat.image else []) ++ fifoImage y.blk.fifos
  y.blk.section_ ++ toLE 8 d.length ++ d

/-- The place that the firmware's save request names: in the save area, behind what the context's saved blocks hold (R315). -/
def State.savePlace (s : State) (t : Tag) : Nat :=
  s.saves.foldl (fun n y => if y.blk.tag = t then max n ((y.area + y.len + 63) / 64 * 64) else n) (s.ctx t.slot).rcd.saveArea

/-- Save a block (R47, R315, R344): the interval commits and its snapshot is discarded; what it stored is brought home. A
collective in progress goes on under its context tag. -/
def State.saveBlock (s : State) (bid : Nat) : State :=
  match s.blk bid with
  | none => s
  | some _ =>
    let c := coreOf bid
    let s := (((s.openInterval bid).landAll c).writeBackAll c)
    match s.blk bid with
    | none => s
    | some b =>
      let y : Saved :=
        { grid := b.grid, blockId := b.blockId, blk := b.savedAs, vregs := b.waves.map fun e => (e.1, s.runRegs bid e.2),
          scratch := (memSlice (s.core c).store b.scratchBase b.kern.shared).map fun e => (e.1 - b.scratchBase, e.2),
          column := if b.columnRight then s.columnImage bid else [], colWays := (s.core c).colWays, area := s.savePlace b.tag, len := 0,
          colls := (s.colls.filter fun e => decide (e.2.who.block = bid)).map fun e => e.1 }
      let d := y.image
      let y := { y with len := d.length }
      let s : State := (s.sysPut fwCore b.tag y.area d).1
      let off := fun (n : Nat) (i : Nat) => if i = bid then detached bid n else i
      let s : State := { s with
        colls := s.colls.map fun (e : Nat × Coll) =>
          if y.colls.contains e.1 then (e.1, { e.2 with block := off e.1 e.2.block, was := e.2.who, who := nobody }) else e,
        cmds := s.cmds.map fun (e : Nat × Cmd) =>
          if y.colls.contains e.1 then (e.1, { e.2 with block := off e.1 e.2.block, who := nobody }) else e,
        saves := s.saves ++ [y], tobind := s.tobind ++ [⟨b.grid, b.blockId, true⟩] }
      s.dropBlock bid

/-- A group whose members all lie in a block that begins afresh begins afresh too. -/
def resetGroups (g : Grid) (blockId : Nat) : Grid :=
  { g with groups := tmapv g.groups fun x =>
      let own := if x.all then decide (g.gx * g.gy * g.gz = 1) else x.members.all fun m => decide (m.1 = blockId)
      if own then newGroup x.all x.members x.fault else x }

/-- Flush a block and queue it again from its start (R47). -/
def State.flushBlock (s : State) (bid : Nat) : State :=
  match s.blk bid with
  | none => s
  | some b =>
    let s := (s.discard bid).dropBlock bid
    { s with grids := tmod s.grids b.grid fun g => resetGroups g b.blockId, tobind := s.tobind ++ [⟨b.grid, b.blockId, false⟩] }

/-- A pre-emption under way goes on: a block that is settled is saved or flushed (R47). -/
def State.preemptOne (s : State) (bid : Nat) : State :=
  match s.blk bid with
  | none => s
  | some b => match b.preempt with
    | some .save => if s.settled bid b false then s.saveBlock bid else s
    | some .flush => if s.settled bid b true then s.flushBlock bid else s
    | _ => s

/-- Every pre-emption under way goes on. -/
def State.preemptions (s : State) : State :=
  (s.blocks.filter fun e => e.2.leaving).foldl (fun (s : State) e => s.preemptOne e.1) s

/-- PREEMPT_REQUEST (R46, R47): each block of the core is given its treatment. -/
def execPreemptRequest (core : Nat) (s : State) : Out :=
  if !s.fw.running then .next s
  else
    let one := fun (e : Nat × Block) =>
      if coreOf e.1 = core && e.2.preempt.isNone then (e.1, { e.2 with preempt := some (s.treatment e.2) }) else e
    let s : State := { s with blocks := s.blocks.map one }
    .next s.preemptions

/-! ### The watchdog -/

/-- Clocks in a millisecond (R4). -/
def clocksMs : Nat := 2500000

/-- Whether the watchdog of a block has expired (R348). -/
def State.expired (s : State) (b : Block) : Bool :=
  decide (b.frozen = .no) && !b.closing && b.waves.any (fun w => w.2.live)
    && decide (b.wdStart + b.wdMs * clocksMs ≤ s.clock)

/-- WATCHDOG (R51, R348): the block is frozen, and its context's policy is told as event 4. -/
def execWatchdog (block : Nat) (s : State) : Out :=
  match s.blk block with
  | none => .next s
  | some b => .next (if s.expired b then s.toPolicy block .watchdog 4 cWATCHDOG 0 0 else s)

/-- A slot that a release sets going: one that was stopped goes on at its resume point (R49, R158, R348). -/
def Slot.released (x : Slot) : Slot := if x.status = .stopped then { x with status := .run, pc := x.resume } else x

/-- BLOCK_RELEASE (R223, R348): the slots, streams and commands of a frozen block go on, and its watchdog restarts. -/
def execBlockRelease (block : Nat) (s : State) : Out :=
  match s.blk block with
  | none => .next s
  | some b =>
    if b.frozen = .no then .next s
    else .next { s.modBlk block fun b => { b with
        frozen := .no, wdStart := s.clock, wdMs := (s.ctx b.tag.slot).watchdogMs, waves := tmapv b.waves fun w => { w with s0 := w.s0.released, s1 := w.s1.released } } with
      cmds := s.cmds.map fun (e : Nat × Cmd) => if e.2.block = block ∨ e.2.who.block = block then (e.1, { e.2 with stopped := false }) else e }

end Sys2Proof.Machine
end

