-- ==== Sys2Proof/Machine/TileSteps.lean ====
section
/-! DEFINITION. How a wave runs translated code of a tile body (R297, log 6): at its first byte the operation's operands are read and
its command begins; eight bytes on the wave waits until the command has completed; then the code that follows goes on. -/

namespace Sys2Proof.Machine

/-- The tile code that begins at an address of a block's context. -/
def State.tileCodeAt (s : State) (t : Tag) (va : Nat) : Option TileCode :=
  s.tiles.find? fun x => decide (x.tag = t) && decide (x.lo ≤ va) && decide (va < x.lo + x.len)

/-- Read what the argument block names at these offsets (R113, R297): an address, or so many bytes at it. -/
def State.tileReads (s : State) : List (Nat × Nat) → List (List Byte) → (State → List (List Byte) → Out) → Out
  | [], acc, f => f s acc
  | (off, n) :: l, acc, f =>
    match s.memGet ((s.sread s.cur 1).toNat + off) 8 with
    | .ok s d => if n = 0 then s.tileReads l (acc ++ [d]) f
      else (match s.memGet (leNat d) n with
        | .ok s x => s.tileReads l (acc ++ [x]) f
        | r => s.memStop r 1)
    | r => s.memStop r 1

/-- The accumulator of a product (R65). -/
def accTy : Ty → Ty
  | .f64 => .f64
  | .s8 => .s32
  | _ => .f32

/-- Whether two tensors have the same rank and extents. -/
def sameShape (a b : Tensor) : Bool := decide (a.rank = b.rank) && decide (a.extent = b.extent)

/-- Whether the operands of an operation fit it: ranks, types and extents (R65, R67, R297). -/
def TileJob.fits (j : TileJob) : Bool :=
  let ty := fun (t : Tensor) (x : Ty) => decide (t.ty = x)
  match j.kind with
  | .product => match j.b with
    | some b => decide (j.d.rank = 2) && decide (j.a.rank = 2) && decide (b.rank = 2) && ty j.a j.ty && ty b j.ty && ty j.d (accTy j.ty)
        && decide (j.a.ext 0 = b.ext 1) && decide (j.d.ext 0 = b.ext 0) && decide (j.d.ext 1 = j.a.ext 1)
    | none => false
  | .counted => match j.b with
    | some b => decide (j.d.rank = 2) && decide (j.a.rank = 2) && decide (b.rank = 2) && ty j.a j.ty && ty b j.ty && ty j.d .f32
        && decide (j.a.ext 0 = b.ext 1) && decide (j.d.ext 0 = b.ext 0) && decide (j.d.ext 1 = j.a.ext 1)
    | none => false
  | .scale => decide (j.d.rank = 2) && sameShape j.d j.a && ty j.d .f32 && ty j.a j.ty
  | .reduce _ => decide (j.axis < j.a.rank) && ty j.a j.ty && ty j.d j.ty && decide (j.d.rank = j.a.rank)
      && decide (j.d.extent = j.a.extent.set j.axis 1)
  | .elemIn => ty j.a j.ty && !j.a.packed && (match j.b with
      | some b => sameShape j.a b && ty b j.ty
      | none => true)
  | .elemOut => ty j.d j.ty && !j.d.packed

/-- The most products that the merge bank counts (R68, R73). -/
def countDepth : Nat := 2 ^ 28 - 1

/-- Begin the command of an operation, and what else the code does then, unless it cannot be issued yet. -/
def State.tileIssue (s : State) (j : TileJob) (total : Nat) (also : State → State) : Out :=
  if !j.fits then .next (s.trap cILLEGAL)
  else if j.kind = .counted ∧ countDepth < 30 * ((j.a.ext 0 + 29) / 30) then .next (s.trap cCNTDEPTH)
  else match s.issueCmd (.tile j) ⟨.none, .blk, false, false⟩ false total [] with
    | .next t => .next (if t.nextId = s.nextId then t else also t)
    | r => r

/-- Lanes of a round of a map: those that are present, as far as there are elements. -/
def mapLanes (b : Block) (total e0 : Nat) : Nat := min b.kern.blockX (total - e0)

/-- Set k0 to the lanes below n (R28, R154). -/
def State.lanesOn (s : State) (n : Nat) : State :=
  match s.cur with
  | .slot b w k => match s.view b w k with
    | some v => s.modSlot b w k fun x => { x with k0 := shapeK0 v.b v.w k (BitVec.ofNat 32 (2 ^ n - 1)) }
    | none => s
  | .stream _ _ _ => s

/-- A tensor from its descriptor, none where it breaks R89. -/
def tensorOf (d : List Byte) : Option Tensor := if tensorOk d then some (Tensor.parse d) else none

/-- The operation of a record on its operands; one with a descriptor that breaks R89 takes ILLEGAL. -/
def State.tileOp (s : State) (r : TileRec) (b : Block) : Out :=
  let go := fun (s : State) (kind : TileKind) (d a : Option Tensor) (x y : Option Tensor) =>
    match d, a with
    | some d, some a => s.tileIssue ⟨kind, r.ty, r.axis, d, a, x, y, tget b.mat.sets r.mode, 0⟩ d.count id
    | _, _ => .next (s.trap cILLEGAL)
  let t := fun (l : List (List Byte)) (k : Nat) => tensorOf ((l[k]?).getD [])
  let v := fun (l : List (List Byte)) (k : Nat) => some (vectorAt (leNat ((l[k]?).getD [])))
  match r.op with
  | 1 => s.tileReads [(r.d, 128), (r.a, 128), (r.c, 64)] [] fun s l =>
      s.cpyTensor ⟨.none, .blk, false, false⟩ false ((l[0]?).getD []) ((l[1]?).getD []) ((l[2]?).getD [])
  | 2 => s.tileReads [(r.d, 128), (r.a, 128), (r.b, 128)] [] fun s l => go s .product (t l 0) (t l 1) (t l 2) none
  | 3 => s.tileReads [(r.d, 128), (r.a, 128), (r.b, 128)] [] fun s l => go s .counted (t l 0) (t l 1) (t l 2) none
  | 4 => s.tileReads [(r.d, 128), (r.a, 128), (r.b, 0), (r.c, 0)] [] fun s l => go s .scale (t l 0) (t l 1) (v l 2) (v l 3)
  | _ => s.tileReads [(r.d, 128), (r.a, 128)] [] fun s l =>
      go s (.reduce ((RedOp.ofCode (BitVec.ofNat 3 r.mode)).getD .add)) (t l 0) (t l 1) none none

/-- Where a count of elements says that a map has come to its end. -/
def mapDone : Word64 := 0xFFFFFFFFFFFFFFFF

/-- The beginning of tile code (R297): a map takes the elements of its next lanes into v0 and v1, and gives those of v2 to D. -/
def State.tileBegin (s : State) (w : TileWork) (b : Block) : Out :=
  match w with
  | .op r => s.tileOp r b
  | .mapIn r cnt =>
    let e0 := (s.sread s.cur cnt).toNat
    s.tileReads ([(r.a, 128)] ++ if r.b = 0 then [] else [(r.b, 128)]) [] fun s l =>
      match tensorOf ((l[0]?).getD []) with
      | some a =>
        let x := (l[1]?).bind tensorOf
        if (l[1]?).isSome ∧ x.isNone then .next (s.trap cILLEGAL)
        else s.tileIssue ⟨.elemIn, r.ty, 0, a, a, x, none, none, e0⟩ (2 * mapLanes b a.count e0) fun t =>
          { t with cur := s.cur }.lanesOn (mapLanes b a.count e0)
      | none => .next (s.trap cILLEGAL)
  | .mapOut r cnt _ =>
    let e0 := (s.sread s.cur cnt).toNat
    s.tileReads [(r.d, 128)] [] fun s l =>
      match tensorOf ((l[0]?).getD []) with
      | some d => s.tileIssue ⟨.elemOut, r.ty, 0, d, d, none, none, none, e0⟩ (mapLanes b d.count e0) fun t =>
          t.swrite s.cur cnt (if d.count ≤ e0 + b.kern.blockX then mapDone else BitVec.ofNat 64 (e0 + b.kern.blockX))
      | none => .next (s.trap cILLEGAL)

/-- The end of tile code: a run begins (R133) with the code that follows it, or with the map's next round. -/
def State.tileEnd (s : State) (x : TileCode) (bid wid k : Nat) : State :=
  let pc := match x.work with
    | .mapOut _ cnt back => if s.sread s.cur cnt = mapDone then x.lo + x.len else back
    | _ => x.lo + x.len
  s.modSlot bid wid k fun (y : Slot) => { y.begin 0 with pc := BitVec.ofNat 57 pc }

/-- One issue of a wave in tile code: none where its PC is at neither of the two places, or where it must do something else first. -/
def State.tileStep (s : State) (bid wid k : Nat) : Option Out :=
  match s.view bid wid k with
  | none => none
  | some v =>
    let pc := v.sl.pc.toNat
    if s.stopped ∨ v.b.frozen ≠ .no ∨ v.w.halted ∨ !v.w.active ∨ v.sl.status ≠ .run ∨ v.sl.replay ≠ .none ∨ v.sl.expand.isSome
        ∨ (!v.sl.held.isEmpty && !v.sl.flights.any Flight.isMem && !v.sl.unreplayed) ∨ v.b.leaving then none
    else match s.tileCodeAt v.b.tag pc with
      | none => none
      | some x =>
        if pc ≠ x.lo ∧ pc ≠ x.lo + 8 then none
        else
          let s := { s with cur := .slot bid wid k, ir := ⟨0, 8, v.sl.pc, none⟩ }
          some (if !v.sl.flights.isEmpty then .next (s.completeOldest bid wid k)
            else if s.patchParks (.slot bid wid k) v.b v.sl.pc then .next s
            else if pc = x.lo then s.tileBegin x.work v.b
            else if s.cmds.any fun e => decide (e.2.who = .slot bid wid k) && decide (e.2.pc.toNat = x.lo) then .next s
            else .next (s.tileEnd x bid wid k))

/-- The same of any issuer: streams run no tile code. -/
def State.tileFor (s : State) (who : Issuer) : Option Out :=
  match who with
  | .slot b w k => s.tileStep b w k
  | .stream _ _ _ => none

end Sys2Proof.Machine
end

