-- ==== Sys2Proof/Machine/LoopBodies.lean ====
section
/-! DEFINITION. Loop bodies of a container as a translator reads them (R121, R294, R296): the records, their nesting, the virtual
registers that they name, and the places of those in the window of the function. -/

namespace Sys2Proof.Machine

/-! ### The vector registers that an instruction word names -/

/-- Where a word names a register: in a field of R121, in source C of R122, or in MOD. -/
inductive Fld where
  | d | a | b | c | m
  deriving DecidableEq, Repr

/-- The lowest bit and the width of a field. -/
def Fld.lo : Fld → Nat
  | .d => 14
  | .a => 22
  | .b => 30
  | .c => 64
  | .m => 57
def Fld.bits : Fld → Nat
  | .m => 7
  | _ => 8

/-- How much a vector operand names: a register, a pair (R124), or a plane (R80). -/
inductive Span where
  | one | pair | plane
  deriving DecidableEq, Repr

/-- A vector operand of an instruction: its field, its code, what it names, and whether it is written. -/
structure VOp where
  f : Fld
  n : Nat
  span : Span
  wr : Bool
  deriving DecidableEq, Repr

def spanOf (t : Ty) : Span := if t.pair then .pair else .one
def dstOp (t : Ty) (n : VNum) : List VOp := [⟨.d, n.toNat, spanOf t, true⟩]
def srcOp (f : Fld) (t : Ty) : VSrc → List VOp
  | .vec n => [⟨f, n.toNat, spanOf t, false⟩]
  | _ => []
def unOps (o : VUn) : List VOp := dstOp o.ty o.d ++ srcOp .a o.ty o.a
def binOps (o : VBin) : List VOp := dstOp o.ty o.d ++ srcOp .a o.ty o.a ++ srcOp .b o.ty o.b
/-- Source B is one register, a count (R171). -/
def countOps (o : VBin) : List VOp := dstOp o.ty o.d ++ srcOp .a o.ty o.a ++ srcOp .b .n32 o.b
def triOps (o : VTri) : List VOp := dstOp o.ty o.d ++ srcOp .a o.ty o.a ++ srcOp .b o.ty o.b ++ srcOp .c o.ty o.c
def carryOps (o : VCarry) : List VOp := dstOp .n32 o.d ++ srcOp .a .n32 o.a ++ srcOp .b .n32 o.b
def cmpOps (o : VCmp) : List VOp := srcOp .a o.ty o.a ++ srcOp .b o.ty o.b
def idxOp (ad : MAddr) : List VOp := match ad.idx with
  | .vec n => [⟨.b, n.toNat, .one, false⟩]
  | .sca _ => []
def dataOp (t : Ty) : MData → List VOp
  | .vec n => [⟨.d, n.toNat, spanOf t, false⟩]
  | .sca _ => []
def modOp : Option VNum → List VOp
  | some n => [⟨.m, n.toNat, .one, false⟩]
  | none => []
def planeOps (d a : VNum) : List VOp := [⟨.d, d.toNat, .plane, true⟩, ⟨.a, a.toNat, .plane, false⟩]
def atomOps (t : Ty) (ad : MAddr) : AtomForm → List VOp
  | .noRet n => ⟨.d, n.toNat, spanOf t, false⟩ :: idxOp ad
  | .ret d c => (d.toList.flatMap (dstOp t)) ++ ⟨.c, c.toNat, spanOf t, false⟩ :: idxOp ad
  | .cas d _ c => dstOp t d ++ ⟨.c, c.toNat, spanOf t, false⟩ :: idxOp ad

/-- The vector operands of an instruction of majors 0x08 to 0x11, and of the mask, system and move instructions. -/
def aluOps : Instr → List VOp
  | .vadd o => binOps o
  | .vsub o => binOps o
  | .vmul o => binOps o
  | .vmulh o => binOps o
  | .vmad o => triOps o
  | .vaddc o => carryOps o
  | .vsubb o => carryOps o
  | .vmin o => binOps o
  | .vmax o => binOps o
  | .vabs o => unOps o
  | .vneg o => unOps o
  | .vsat o => countOps o
  | .vdot4 o => triOps o
  | .vclz o => dstOp .n32 o.d ++ srcOp .a o.ty o.a
  | .vpopc o => dstOp .n32 o.d ++ srcOp .a o.ty o.a
  | .vand o => binOps o
  | .vor o => binOps o
  | .vxor o => binOps o
  | .vnot o => unOps o
  | .vshl o => countOps o
  | .vshr o => countOps o
  | .vsra o => countOps o
  | .vbfx o => dstOp o.ty o.d ++ srcOp .a o.ty o.a
  | .vbfi o => dstOp o.ty o.d ++ srcOp .a o.ty o.a
  | .vsel _ ty d a b _ => dstOp ty d ++ srcOp .a ty a ++ srcOp .b ty b
  | .vcmp o => cmpOps o
  | .vmov o => unOps o
  | .vli _ d _ => dstOp .n32 d
  | .vmovs ty _ a _ => srcOp .a ty a
  | .fadd o => binOps o
  | .fsub o => binOps o
  | .fmul o => binOps o
  | .ffma o => triOps o
  | .fmin o => binOps o
  | .fmax o => binOps o
  | .fabs o => unOps o
  | .fneg o => unOps o
  | .fclass o => dstOp .n32 o.d ++ srcOp .a o.ty o.a
  | .ffloor o => unOps o
  | .frint o => unOps o
  | .fscale o => countOps o
  | .fcmp o => cmpOps o
  | .cvt _ dt st _ d a => dstOp dt d ++ srcOp .a st a
  | .pack _ d a _ => dstOp .n32 d ++ srcOp .a .n32 a
  | .unpack _ d a _ => dstOp .n32 d ++ srcOp .a .n32 a
  | .ctag _ _ a => srcOp .a .n32 a
  | .fdiv o => binOps o
  | .fsqrt o => unOps o
  | .frcp o => unOps o
  | .frsq o => unOps o
  | .fexp2 o => unOps o
  | .flog2 o => unOps o
  | .setexec a => srcOp .a .n32 (.vec a)
  | .sread (.vec d) _ _ => dstOp .n32 d
  | _ => []

/-- The vector operands of the plane, group and memory instructions. -/
def memOps : Instr → List VOp
  | .refold _ _ d a _ _ => planeOps d a
  | .pshift o => planeOps o.d o.a
  | .prot o => planeOps o.d o.a
  | .pspread o => planeOps o.d o.a
  | .pfold o _ => planeOps o.d o.a
  | .pscan o _ _ => planeOps o.d o.a
  | .pgath o ix => planeOps o.d o.a ++ [⟨.m, ix.toNat, .plane, false⟩]
  | .ptrans _ _ d a _ => planeOps d a
  | .pld _ _ d _ _ _ => [⟨.d, d.toNat, .plane, true⟩]
  | .pst _ _ _ d _ => [⟨.d, d.toNat, .plane, false⟩]
  | .vote _ _ ty _ a m _ => srcOp .a ty a ++ modOp m
  | .gbar _ _ m => modOp m
  | .ld _ _ ty _ d ad => dstOp ty d ++ idxOp ad
  | .st _ ty _ ad v => dataOp ty v ++ idxOp ad
  | .stCnt _ ty _ _ ad v _ => dataOp ty v ++ idxOp ad
  | .pref _ ad => idxOp ad
  | .lds _ _ ty d ad => dstOp ty d ++ idxOp ad
  | .sts _ ty ad v => dataOp ty v ++ idxOp ad
  | .atom _ _ _ ty _ _ ad f => atomOps ty ad f
  | .atoms _ _ _ ty ad f => atomOps ty ad f
  | _ => []

/-- Every vector operand of an instruction. -/
def vecOps (i : Instr) : List VOp := aluOps i ++ memOps i

/-- Registers that a plane may take (R80). -/
def planeMost : Nat := 32

/-- The registers that an operand names from its first on. -/
def Span.regs (x : Span) (n : Nat) : List Nat :=
  match x with
  | .one => [n]
  | .pair => [n, n + 1]
  | .plane => (List.range planeMost).map fun i => n + i

/-- Put another code into a field of a word. -/
def setField (w : InstrWord) (f : Fld) (n : Nat) : InstrWord :=
  (w &&& ~~~ (BitVec.ofNat 128 ((2 ^ f.bits - 1) * 2 ^ f.lo))) ||| BitVec.ofNat 128 (n * 2 ^ f.lo)

/-! ### Records -/

/-- A record of a loop body as it acts (R296). An instruction keeps its word and the high bits of its fields D, A, B and C. -/
inductive LItem where
  | ins (i : Instr) (w : InstrWord) (hi : List Nat)
  | loop (n : SReg)
  | endLoop
  | cond (k : KNum)
  | els
  | endIf
  deriving DecidableEq, Repr

/-- A record with its index, and how many records it takes. -/
structure LRec where
  ix : Nat
  n : Nat
  it : LItem
  deriving DecidableEq, Repr

/-- The high bits of the virtual register that an operand names: a register in MOD has none. -/
def hiOf_ (hi : List Nat) (f : Fld) : Nat :=
  match f with
  | .d => (hi[0]?).getD 0
  | .a => (hi[1]?).getD 0
  | .b => (hi[2]?).getD 0
  | .c => (hi[3]?).getD 0
  | .m => 0

/-- The virtual register of an operand (R296). -/
def VOp.virt (hi : List Nat) (o : VOp) : Nat := 128 * hiOf_ hi o.f + o.n

/-- Whether a loop body may hold an instruction (R296). -/
def loopAllows (i : Instr) : Bool :=
  match i with
  | .dictionaryWord _ _ _ _ _ => false
  | .call _ _ _ _ => true
  | .ret _ _ => true
  | .exit _ => true
  | i => decide ((fieldsOf i).major ≠ 1) && decide ((fieldsOf i).major ≠ 2)

/-- Whether the virtual registers of an instruction are named as R296 says: below NVREG, a pair from an even one, and no high bits in
a field that names none. -/
def virtsOk (nv : Nat) (i : Instr) (hi : List Nat) : Bool :=
  (vecOps i).all (fun o => (match o.span with
    | .pair => decide (o.virt hi + 1 < nv) && decide (o.virt hi % 2 = 0)
    | _ => decide (o.virt hi < nv)))
    && [Fld.d, .a, .b, .c].all fun f => decide (hiOf_ hi f = 0) || (vecOps i).any fun o => decide (o.f = f)

/-- One record, with the next one at hand for a word of 128 bits; none where it breaks R296. -/
def parseRec (nv ix : Nat) (r next : List Byte) : Option LRec :=
  let x := leNat r
  let hi := [x / 2 ^ 96 % 16, x / 2 ^ 100 % 16, x / 2 ^ 104 % 16, x / 2 ^ 108 % 16]
  let w := x % 2 ^ 64
  let code := x / 2 ^ 112 % 256
  let a := BitVec.ofNat 8 (w / 2 ^ 22)
  let wide := decide (w % 4 = 2)
  let y := leNat next
  if x / 2 ^ 120 ≠ 0 then none
  else match code with
    | 0 =>
      let word : InstrWord := BitVec.ofNat 128 (w + if wide then y % 2 ^ 64 * 2 ^ 64 else x / 2 ^ 64 % 2 ^ 32 * 2 ^ 64)
      if w % 4 = 3 ∨ w / 2 ^ 48 % 16 ≠ 0 ∨ (w % 4 ≠ 1 ∧ x / 2 ^ 64 % 2 ^ 32 ≠ 0) ∨ (wide ∧ y / 2 ^ 64 ≠ 2 ^ 48) then none
      else match decode word with
        | .ok i => if loopAllows i && virtsOk nv i hi then some ⟨ix, if wide then 2 else 1, .ins i word hi⟩ else none
        | .error _ => none
    | 2 => if a.toNat / 64 = 2 then some ⟨ix, 1, .loop (a.setWidth 6)⟩ else none
    | 3 => some ⟨ix, 1, .endLoop⟩
    | 4 => if a.toNat / 16 = 12 then some ⟨ix, 1, .cond (a.setWidth 4)⟩ else none
    | 5 => some ⟨ix, 1, .els⟩
    | 6 => some ⟨ix, 1, .endIf⟩
    | _ => none

/-- The records of a body's data, from index ix on. -/
def parseRecs (nv : Nat) : Nat → Nat → List (List Byte) → Option (List LRec)
  | 0, _, _ => some []
  | _, _, [] => some []
  | fuel + 1, ix, r :: t =>
    (parseRec nv ix r (t.headD [])).bind fun x =>
      if x.n = 2 ∧ t.isEmpty then none
      else (parseRecs nv fuel (ix + x.n) (if x.n = 2 then t.drop 1 else t)).map fun l => x :: l

/-- Whether loops and ifs nest properly, to a depth of at most 64 (R296): the stack holds false for a loop, true for an if, none for
an if past its else. -/
def nestOk : List (Option Bool) → List LRec → Bool
  | st, [] => st.isEmpty
  | st, r :: t => match r.it, st with
    | .ins _ _ _, _ => nestOk st t
    | .loop _, _ => decide (st.length < 64) && nestOk (some false :: st) t
    | .cond _, _ => decide (st.length < 64) && nestOk (some true :: st) t
    | .endLoop, some false :: u => nestOk u t
    | .els, some true :: u => nestOk (none :: u) t
    | .endIf, some true :: u => nestOk u t
    | .endIf, none :: u => nestOk u t
    | _, _ => false

/-- The records whose indexes lie in a range, none where its ends cut a record. -/
def recsIn (l : List LRec) (first count : Nat) : Option (List LRec) :=
  let m := l.filter fun r => decide (first ≤ r.ix) && decide (r.ix < first + count)
  if m.all (fun r => decide (r.ix + r.n ≤ first + count)) && (match m with
    | r :: _ => decide (r.ix = first)
    | [] => false) then some m else none

/-- The records of a loop body; none where it breaks R294 or R296. -/
def loopRecs (d : List Byte) : Option (List LRec) :=
  let n := fld d 4 4
  (parseRecs (fld d 12 4) (n + 1) 0 ((List.range n).map fun i => (d.drop (32 + 16 * i)).take 16)).bind fun l =>
    if nestOk [] l then some l else none

/-! ### Virtual registers in the window -/

/-- Where a virtual register is named, from its first mention to its last (R296, log 6). -/
structure Hull where
  v : Nat
  /-- It stands for a pair. -/
  pair : Bool
  lo : Nat
  hi : Nat
  /-- Its first mention reads it, or writes it under a predicate. -/
  early : Bool
  deriving DecidableEq, Repr

/-- The vector operands of a record with their virtual registers. -/
def LRec.virts (r : LRec) : List (VOp × Nat) :=
  match r.it with
  | .ins i _ hi => (vecOps i).map fun o => (o, o.virt hi)
  | _ => []

/-- Whether an instruction is predicated. -/
def predicated (w : InstrWord) : Bool := decide (w.extractLsb' 38 4 ≠ 0)

/-- The registers of a record: their numbers, and whether the record reads them or writes them only in part. -/
def LRec.mentions (r : LRec) : List (Nat × Bool) :=
  r.virts.flatMap fun e =>
    let part := match r.it with
      | .ins _ w _ => !e.1.wr || predicated w
      | _ => true
    (match e.1.span with
      | .pair => [e.2, e.2 + 1]
      | _ => [e.2]).map fun v => (v, part)

/-- The even registers that are named as pairs. -/
def pairBases (l : List LRec) : List Nat :=
  (l.flatMap fun r => r.virts.filterMap fun e => if e.1.span = .pair then some e.2 else none).eraseDups

/-- The hull of the register or pair of a virtual register: a pair is one unit. -/
def unitOf (pairs : List Nat) (v : Nat) : Nat × Bool :=
  if pairs.contains v then (v, true) else if pairs.contains (v - 1) ∧ v % 2 = 1 then (v - 1, true) else (v, false)

/-- Add one mention to the hulls. -/
def mention (hs : List Hull) (u : Nat × Bool) (ix : Nat) (part : Bool) : List Hull :=
  if hs.any fun h => decide (h.v = u.1) then hs.map fun h => if h.v = u.1 then { h with hi := max h.hi ix } else h
  else hs ++ [⟨u.1, u.2, ix, ix, part⟩]

/-- The loops of a list of records, inner ones first: index of the loop record and of its end. -/
def loopSpans : List Nat → List LRec → List (Nat × Nat)
  | _, [] => []
  | st, r :: t => match r.it, st with
    | .loop _, st => loopSpans (r.ix :: st) t
    | .endLoop, o :: u => (o, r.ix) :: loopSpans u t
    | _, st => loopSpans st t

/-- A hull that leaves a loop, or whose register is read in it before it is written whole, spans the loop. -/
def Hull.spread (h : Hull) (loops : List (Nat × Nat)) : Hull :=
  loops.foldl (fun h e =>
    let inside := decide (e.1 ≤ h.lo) && decide (h.hi ≤ e.2)
    let meets := decide (h.lo ≤ e.2) && decide (e.1 ≤ h.hi)
    if meets && (!inside || h.early) then { h with lo := min h.lo e.1, hi := max h.hi e.2 } else h) h

/-- The hulls of the records. -/
def hullsOf (l : List LRec) : List Hull :=
  let pairs := pairBases l
  let loops := loopSpans [] l
  (l.foldl (fun hs r => r.mentions.foldl (fun hs e => mention hs (unitOf pairs e.1) r.ix e.2) hs) []).map fun h => h.spread loops

def Hull.width (h : Hull) : Nat := if h.pair then 2 else 1

/-- Registers live at a record (R296). -/
def liveAt (hs : List Hull) (ix : Nat) : Nat :=
  hs.foldl (fun n h => if h.lo ≤ ix ∧ ix ≤ h.hi then n + h.width else n) 0

/-- Whether the records name planes. -/
def namesPlanes (l : List LRec) : Bool := l.any fun r => r.virts.any fun e => decide (e.1.span = .plane)

/-- Whether the records call another function: its window takes in the caller's last eight registers (R151). -/
def callsOut (l : List LRec) : Bool := l.any fun r => match r.it with
  | .ins (.call _ _ _ _) _ _ => true
  | _ => false

/-- Where each unit goes in a window of so many registers, by hulls in order of their beginning: a virtual register below the window
to the register of its number while that is free, any other to the lowest register, or aligned pair, that is free. The first eight
registers, which the caller sees, the last eight where another function is called, and all of them beside planes or code taken from
the scalar level (`fixed`), keep their numbers. None where no register is free (log 6). -/
def placeUnits (win : Nat) (fixed calls : Bool) (busy : List (Nat × Nat × Nat)) : List Hull → Tbl Nat → Option (Tbl Nat)
  | [], m => some m
  | h :: t, m =>
    let pinned := decide (h.v + h.width ≤ win) && (fixed || decide (h.v < 8) || (calls && decide (win - 8 ≤ h.v)))
    let free := fun (p : Nat) => (List.range h.width).all fun i => !busy.any fun x =>
      decide (x.1 = p + i) && decide (x.2.1 ≤ h.hi) && decide (h.lo ≤ x.2.2)
    let cand := (if h.v + h.width ≤ win then [h.v] else []) ++ if pinned || fixed then [] else
      (List.range win).filter fun p => decide (p % h.width = 0) && decide (p + h.width ≤ win)
        && !(decide (p < 8) || (calls && decide (win - 8 ≤ p + 1)))
    match cand.find? free with
    | some p => placeUnits win fixed calls (busy ++ (List.range h.width).map fun i => (p + i, h.lo, h.hi)) t (tset m h.v p)
    | none => none

/-- Insert a hull in order of its beginning, those that keep their numbers first. -/
def insertHull (h : Hull) : List Hull → List Hull
  | [] => [h]
  | x :: t => if (h.v < 8 ∧ 8 ≤ x.v) ∨ ((h.v < 8 ↔ x.v < 8) ∧ h.lo < x.lo) then h :: x :: t else x :: insertHull h t

/-- The places of the virtual registers of records in a window; `busy` are registers that other code uses: number, from record, up to
record. -/
def placesOf (win : Nat) (busy : List (Nat × Nat × Nat)) (l : List LRec) : Option (Tbl Nat) :=
  placeUnits win (namesPlanes l || !busy.isEmpty) (callsOut l) busy ((hullsOf l).foldl (fun m h => insertHull h m) []) []

/-- The register of a virtual register. -/
def placeOfVirt (pairs : List Nat) (m : Tbl Nat) (v : Nat) : Nat :=
  let u := unitOf pairs v
  (tget m u.1).getD u.1 + (v - u.1)

/-- The native word of an instruction record: every vector operand names its place. -/
def nativeWord (pairs : List Nat) (m : Tbl Nat) (i : Instr) (w : InstrWord) (hi : List Nat) : InstrWord :=
  (vecOps i).foldl (fun w o => setField w o.f (placeOfVirt pairs m (o.virt hi))) w

end Sys2Proof.Machine
end

