-- ==== Sys2Proof/Machine/Lowering.lean ====
section
/-! DEFINITION. From records to text: how a translator lowers loops and ifs, takes regions from the scalar level, lays the text out
under R144 and sets lookahead under R142 (R296, R298, R299). The rule of lowering is the model's (log 6). -/

namespace Sys2Proof.Machine

/-! ### Texts -/

/-- An instruction of a text: its offset, its word and its bytes. -/
structure TInstr where
  off : Nat
  word : InstrWord
  len : Nat
  i : Instr
  deriving DecidableEq, Repr

/-- The instructions of a text in layout order; none where a word crosses a fetch boundary or is no instruction (R118,
R119, R295). -/
def textInstrs (d : List Byte) : Nat → Nat → Option (List TInstr)
  | 0, _ => some []
  | fuel + 1, o =>
    if d.length ≤ o then some []
    else
      let w : InstrWord := BitVec.ofNat 128 (leNat ((d.drop o).take 16))
      let n := wordBytes w
      let w := w &&& BitVec.ofNat 128 (2 ^ (8 * n) - 1)
      if 32 < o % 32 + n then none
      else match decode w with
        | .error _ => none
        | .ok i => (textInstrs d fuel (succAt (BitVec.ofNat 57 o) n).toNat).map fun l => ⟨o, w, n, i⟩ :: l

/-- The terminators (R131). -/
def isTerminator : Instr → Bool
  | .bra _ _ _ => true
  | .bru _ _ _ _ _ _ _ => true
  | .brz _ _ _ _ _ => true
  | .loop _ _ _ _ => true
  | .call _ _ _ _ => true
  | .ret _ _ => true
  | .split _ _ _ => true
  | .join _ _ => true
  | .exit _ => true
  | .yield _ => true
  | .trap _ _ => true
  | .trapret _ _ => true
  | .halt _ => true
  | .nop (.w128 _) => true
  | _ => false

/-- Whether control never goes on at the successor of an instruction. -/
def neverFalls : Instr → Bool
  | .bra _ _ _ => true
  | .ret _ _ => true
  | .join _ _ => true
  | .exit _ => true
  | .trapret _ _ => true
  | _ => false

/-- An instruction in the 128-bit form of a terminator, its SIG to be computed (R131). -/
def longForm : Instr → Instr
  | .bra o p _ => .bra o p (some 0)
  | .bru c g a b o p _ => .bru c g a b o p (some 0)
  | .brz n k o p _ => .brz n k o p (some 0)
  | .loop d o p _ => .loop d o p (some 0)
  | .call d w t _ => .call d w t (some 0)
  | .ret a _ => .ret a (some 0)
  | .split k o _ => .split k o (some 0)
  | .join o _ => .join o (some 0)
  | .exit _ => .exit (some 0)
  | .yield _ => .yield (some 0)
  | .trap n _ => .trap n (some 0)
  | .trapret a _ => .trapret a (some 0)
  | .halt _ => .halt (some 0)
  | i => i

/-- An instruction with its offset (R122). -/
def withOff (o : BitVec 32) : Instr → Instr
  | .bra _ p t => .bra o p t
  | .bru c g a b _ p t => .bru c g a b o p t
  | .brz n k _ p t => .brz n k o p t
  | .loop d _ p t => .loop d o p t
  | .split k _ t => .split k o t
  | .join _ t => .join o t
  | i => i

/-! ### Code before layout -/

/-- An instruction before it has an address: the label its offset names, the place it was translated from (level and record or
byte), and whether its lookahead is to be set. -/
structure EIns where
  i : Instr
  w : InstrWord
  dst : Option Nat
  src : Option (Nat × Nat)
  la : Bool
  pad : Bool
  deriving DecidableEq, Repr

/-- What a translator emits, in layout order. -/
inductive Emit where
  | ins (x : EIns)
  | label (n : Nat)
  | align
  | tile (w : TileWork) (back : Option Nat)
  deriving DecidableEq, Repr

/-- An instruction that the translator makes itself. -/
def made (i : Instr) (dst : Option Nat := none) : Emit := .ins ⟨i, encode i, dst, none, true, false⟩

/-- A terminator that the translator makes itself: under SIGAUTO in its 128-bit form (R299). -/
def madeTerm (sig : Bool) (i : Instr) (dst : Option Nat) : Emit := made (if sig then longForm i else i) dst

/-- The mask registers that a word may name, in a field or in MOD (R121, R122). -/
def masksOf (w : InstrWord) : List Nat :=
  let x := w.toNat
  ((x / 2 ^ 38 % 16) :: (List.range 9).map fun i => x / 2 ^ (52 + i) % 16)
    ++ ([14, 22, 30, 64, 72].filter fun b => decide (x / 2 ^ b % 256 / 16 = 12)).map fun b => x / 2 ^ b % 16

/-- What lowering may use: whether terminators take SIG, the places of virtual registers, and scalars and masks that no record
names. -/
structure LowerEnv where
  sig : Bool
  pairs : List Nat
  place : Tbl Nat
  scal : List SReg
  masks : List KNum

/-- A loop or an if that is open, with the code before it: of an if, its mask and, past its else, the code of the lanes that have
it. -/
inductive OpenRec where
  | loop (n : SReg) (before : List Emit)
  | cond (k : KNum) (before : List Emit) (yes : Option (List Emit))

/-- The code of a loop (R296): its count goes into a scalar of the translator's, which LOOP counts down. -/
def lowerLoop (env : LowerEnv) (t n : SReg) (l : Nat) (body : List Emit) : List Emit :=
  [made (.smov t n), madeTerm env.sig (.bru .eq true t 0 0 false none) (some (l + 1)), .label l] ++ body
    ++ [madeTerm env.sig (.loop t 0 true none) (some l), .label (l + 1)]

/-- Whether code leaves the function, or calls another, which a split wave may not (R151, R155). -/
def leavesSplit (l : List Emit) : Bool := l.any fun e => match e with
  | .ins x => (match x.i with
    | .call _ _ _ _ => true
    | .ret _ _ => true
    | .exit _ => true
    | _ => false)
  | .tile _ _ => true
  | _ => false

/-- The code of an if by SPLIT and JOIN (R155, R296): the lanes that have the mask go to the target. -/
def lowerSplit (env : LowerEnv) (k : KNum) (l : Nat) (yes no : List Emit) : List Emit :=
  [madeTerm env.sig (.split k 0 none) (some l)] ++ no ++ [madeTerm env.sig (.join 0 none) (some (l + 1)), .label l] ++ yes
    ++ [madeTerm env.sig (.join 0 none) (some (l + 1)), .label (l + 1)]

/-- The code of an if by masks and branches (R296): `t` keeps the execution mask, `u` the lanes of the other side. -/
def lowerMask (env : LowerEnv) (k t u : KNum) (l : Nat) (yes no : List Emit) : List Emit :=
  [made (.kmov t 0), made (.kandn u 0 k), made (.kand 0 0 k), madeTerm env.sig (.brz false 0 0 false none) (some l)] ++ yes
    ++ [.label l, made (.kmov 0 u), madeTerm env.sig (.brz false 0 0 false none) (some (l + 1))] ++ no
    ++ [.label (l + 1), made (.kmov 0 t)]

/-- A region that is taken from the scalar level: its records, and the text in their place (R299). -/
structure Taken where
  first : Nat
  count : Nat
  code : List Emit

/-- Lower records one after the other: `st` are the open loops and ifs, `cur` the code of the innermost, `l` the next label. None where
the translator has no register for a loop or an if. -/
def lowerRecs (env : LowerEnv) (takes : List Taken) : List OpenRec → List Emit → Nat → List LRec → Option (List Emit × Nat)
  | _, cur, l, [] => some (cur, l)
  | st, cur, l, r :: t =>
    match takes.find? fun x => decide (x.first ≤ r.ix) && decide (r.ix < x.first + x.count) with
    | some x => lowerRecs env takes st (if r.ix = x.first then cur ++ x.code else cur) l t
    | none =>
      match r.it, st with
      | .ins i w hi, _ =>
        let w := nativeWord env.pairs env.place i w hi
        let i := match decode w with
          | .ok j => j
          | .error _ => i
        let j := if env.sig then longForm i else i
        lowerRecs env takes st (cur ++ [.ins ⟨j, if j = i then w else encode j, none, some (2, r.ix), true, false⟩]) l t
      | .loop n, _ => lowerRecs env takes (.loop n cur :: st) [] l t
      | .cond k, _ => lowerRecs env takes (.cond k cur none :: st) [] l t
      | .els, .cond k b none :: u => lowerRecs env takes (.cond k b (some cur) :: u) [] l t
      | .endLoop, .loop n b :: u =>
        (match env.scal[(u.filter fun f => match f with
            | .loop _ _ => true
            | _ => false).length]? with
        | some x => lowerRecs env takes u (b ++ lowerLoop env x n l cur) (l + 2) t
        | none => none)
      | .endIf, .cond k b y :: u =>
        let yes := y.getD cur
        let no := if y.isSome then cur else []
        let n := 2 * (u.filter fun f => match f with
          | .cond _ _ _ => true
          | _ => false).length
        if leavesSplit (yes ++ no) then (match env.masks[n]?, env.masks[n + 1]? with
          | some a, some c => lowerRecs env takes u (b ++ lowerMask env k a c l yes no) (l + 2) t
          | _, _ => none)
        else lowerRecs env takes u (b ++ lowerSplit env k l yes no) (l + 2) t
      | _, _ => none

/-! ### Layout (R144) -/

/-- A NOP that layout puts in. -/
def padNop (f : NopForm) : EIns := ⟨.nop f, encode (.nop f), none, none, false, true⟩

/-- Code with its offsets: the last emitted first. -/
structure Laid where
  off : Nat
  code : List (Nat × Emit)

/-- Put one instruction at the next offset. -/
def Laid.put (x : Laid) (e : EIns) : Laid :=
  { off := (succAt (BitVec.ofNat 57 x.off) (wordBytes e.w)).toNat, code := (x.off, .ins e) :: x.code }

/-- Before an instruction that would cross a fetch boundary, a NOP of 64 or 96 bits (R144). -/
def Laid.room (x : Laid) (n : Nat) : Laid :=
  let b := 32 - x.off % 32
  if n ≤ b then x else if b = 12 then x.put (padNop .w96) else if b = 8 then x.put (padNop .w64) else { x with off := x.off + b }

/-- Pad to a fetch boundary (R144). -/
def Laid.alignTo (x : Laid) : Nat → Laid
  | 0 => x
  | n + 1 => if x.off % 32 = 0 then x else (x.put (padNop (if x.off % 8 = 4 then .w96 else .w64))).alignTo n

/-- Whether what was laid last falls through from no terminator. -/
def Laid.falls (x : Laid) : Bool := match x.code with
  | (_, .ins e) :: _ => !isTerminator e.i
  | _ => false

/-- Bytes of the code of a tile operation: the translator's own, which the manual leaves open (log 6). -/
def tileBytes (w : TileWork) : List Byte :=
  let r := match w with
    | .op r => r
    | .mapIn r _ => r
    | .mapOut r _ _ => r
  padTo 32 ((Config.tileText [r.op, (r.ty.code).toNat, r.mode, r.axis, r.d, r.a, r.b, r.c, r.ref]).take 4096 ++ [0])

/-- Lay one piece of code; under SIGAUTO a 128-bit NOP stands before a label that a non-terminator falls into (R144). -/
def Laid.step (sig : Bool) (x : Laid) (e : Emit) : Laid :=
  match e with
  | .ins y => (x.room (wordBytes y.w)).put y
  | .label _ =>
    let x := if sig && x.falls then (x.room 16).put ⟨.nop (.w128 0), encode (.nop (.w128 0)), none, none, false, false⟩ else x
    { x with code := (x.off, e) :: x.code }
  | .align =>
    let x := x.alignTo 4
    { x with code := (x.off, e) :: x.code }
  | .tile w _ =>
    let x := x.alignTo 4
    { off := x.off + (tileBytes w).length, code := (x.off, e) :: x.code }

/-- The code with its offsets, in layout order, and its size. -/
def layOut (sig : Bool) (l : List Emit) : List (Nat × Emit) × Nat :=
  let x := l.foldl (Laid.step sig) ⟨0, []⟩
  (x.code.reverse, (x.off + 31) / 32 * 32)

/-- The offset of a label. -/
def labelAt (l : List (Nat × Emit)) (n : Nat) : Nat :=
  ((l.find? fun e => decide (e.2 = .label n)).map fun e => e.1).getD 0

/-! ### Lookahead (R142) -/

/-- The long-latency class (R127). -/
def longLatency (i : Instr) : Bool :=
  let f := fieldsOf i
  match f.major.toNat, f.minor.toNat with
  | 0x11, _ => true
  | 0x12, m => decide (m ≠ 0)
  | 0x15, m => decide (m = 0) || decide (m = 2)
  | 0x16, m => decide (m = 0) || decide (m = 2)
  | 0x18, _ => true
  | _, _ => false

/-- Whether an instruction reads or writes a register that another, of the long-latency class, writes (R142). -/
def touchesResult (x y : EIns) : Bool :=
  let regs := fun (o : VOp) => o.span.regs o.n
  let wr := (vecOps x.i).flatMap fun o => if o.wr then regs o else []
  let sc := match x.i with
    | .ldc _ _ _ d _ => [d]
    | _ => []
  let ks := match x.i with
    | .atom _ _ _ _ _ _ _ (.cas _ k _) => [k.toNat]
    | .atoms _ _ _ _ _ (.cas _ k _) => [k.toNat]
    | _ => []
  ((vecOps y.i).any fun o => (regs o).any wr.contains) || (instrScalars y.i).any sc.contains || (masksOf y.w).any ks.contains

/-- The instructions that may overtake one of the long-latency class (R142): up to 15, as far as the first that names its result, that
R128 makes wait, or that a label stands at; at a region of the scalar level the count ends too. -/
def lookCount (x : EIns) : List (Nat × Emit) → Nat → Nat
  | [], n => n
  | e :: t, n =>
    if 15 ≤ n then 15
    else match e.2 with
      | .ins y => if y.pad then lookCount x t n
        else if touchesResult x y || closesWindow y.i then n else lookCount x t (n + 1)
      | _ => n

/-- Set the lookahead of the instructions that the translator gives one (R142, R296). -/
def setLooks : List (Nat × Emit) → List (Nat × Emit)
  | [] => []
  | e :: t =>
    (match e.2 with
    | .ins x => if x.la && longLatency x.i then
        let w := x.w ||| BitVec.ofNat 128 (lookCount x t 0 * 2 ^ 48)
        (e.1, .ins { x with w := w, i := match decode w with
          | .ok i => i
          | .error _ => x.i }) else e
    | _ => e) :: setLooks t

/-- The instructions of laid-out code with their offsets filled in, each with its source. -/
def finish (l : List (Nat × Emit)) : List (TInstr × Option (Nat × Nat)) :=
  l.filterMap fun e => match e.2 with
    | .ins x =>
      let i := match x.dst with
        | some n => withOff (BitVec.ofInt 32 ((((labelAt l n : Nat) : Int) - (e.1 : Nat)) / 4)) x.i
        | none => x.i
      let w := if x.dst.isSome then encode i else x.w
      some (⟨e.1, w, wordBytes w, i⟩, x.src)
    | _ => none

/-- The tile operations of laid-out code: offset, length and what they do. -/
def tilesIn (l : List (Nat × Emit)) : List (Nat × Nat × TileWork) :=
  l.filterMap fun e => match e.2 with
    | .tile w back =>
      let w := match w, back with
        | .mapOut r c _, some n => .mapOut r c (labelAt l n)
        | w, _ => w
      some (e.1, (tileBytes w).length, w)
    | _ => none

end Sys2Proof.Machine
end

