-- ==== Sys2Proof/Machine/Paging.lean ====
section
/-! DEFINITION. Walks on their own, and what becomes of fault entries: RESULT, and the host fault queue (R49, R320 to R324,
R355). -/

namespace Sys2Proof.Machine

/-- PAGE_WALK (R320, R321): a walker walks for a context; the leaf it finds is cached. Every access walks for itself where no
entry is cached, and its faults are its own; a walk that no access waits for records none (log 29). -/
def execPageWalk (ctx va : Nat) (write atomic fetch : Bool) (s : State) : Out :=
  let nd : Need := ⟨!fetch && (!write || atomic), write || atomic, fetch⟩
  .next (s.translate fwCore ⟨ctx, (s.ctx ctx).inc⟩ va nd).1

/-- RESULT 1: an access attached to an entry is replayed (R49, R323). -/
def State.resumeFault (s : State) (stook ix : Nat) (who : Issuer) : State :=
  match who with
  | .slot b w k => s.modSlot b w k fun x => if x.status = .parked stook ix then { x with status := .run } else x
  | .stream b e n => s.modStream b e n fun x => if x.status = .parked stook ix then { x with status := .run } else x

/-- RESULT 2: a slot takes PAGEFAULT to its handler; a stream stops its block (R158, R223, R323). -/
def State.refuseFault (s : State) (stook ix : Nat) (who : Issuer) : State :=
  match who with
  | .slot b w k => match s.view b w k with
    | some v => if v.sl.status = .parked stook ix then s.enterHandler b w k v.sl.resume v.sl.replay cPAGEFAULT else s
    | none => s
  | .stream b e n => match (s.blk b).bind fun x => x.stream e n with
    | some x => if x.status = .parked stook ix then
        (s.modStream b e n fun x => { x with status := .run }).stopStream b e n cPAGEFAULT x.ir.pc false else s
    | none => s

/-- RESULT 2 for a command: it stops its block (R223). -/
def State.refuseCmd (s : State) (id : Nat) : State :=
  match tget s.cmds id with
  | some c => (s.modCmd id fun c => { c with fault := none, stopped := true }).toPolicy c.block .fault 3 cPAGEFAULT c.pc.toNat 0
  | none => s

/-- RESULT acts on every attached access together, and the entry is freed (R323). -/
def State.faultDone (s : State) (stook ix : Nat) (resolved : Bool) : State :=
  let key := 256 * stook + ix
  match tget s.faults key with
  | none => s
  | some e =>
    let s := { s with faults := tdel s.faults key }.writeEntry key e (if resolved then 1 else 2)
    if resolved then
      e.cmds.foldl (fun (s : State) id => s.modCmd id fun c => { c with fault := none })
        (e.slots.foldl (fun (s : State) w => s.resumeFault stook ix w) s)
    else e.cmds.foldl (fun (s : State) id => s.refuseCmd id) (e.slots.foldl (fun (s : State) w => s.refuseFault stook ix w) s)

/-- FAULT_RESULT (R323, R324). -/
def execFaultResult (stook slot : Nat) (resolved : Bool) (s : State) : Out :=
  .next (if slot < 256 then s.faultDone stook slot resolved else s)

/-- Append 128 bytes to the host fault queue, a data queue at a physical address; none when it is not registered, full, closed or
invalid, or a home of it is not ready (R276, R355, R359). -/
def State.faultAppend (s : State) (d : List Byte) : Option State :=
  let va := s.faultq.toNat / 256 * 256
  if !s.faultq.getLsbD 0 ∨ va = 0 ∨ ((cellOf va).map (s.parks va)).getD true then none
  else match s.qread fwCore ⟨0, (s.ctx 0).inc⟩ va with
    | (s, some h) =>
      let ring := h.ring + h.tail % 2 ^ h.log2 * 128
      if !h.ok ∨ h.kind ≠ 2 ∨ h.state = 1 ∨ (h.tail + 2 ^ 64 - h.head) % 2 ^ 64 = 2 ^ h.log2 then none
      else match cellOf ring with
        | some cell => if s.parks ring cell then none
          else some ((s.dramWrite cell d).dramWrite (h.cell + 16) (toLE 8 (h.tail + 1)))
        | none => none
    | (_, none) => none

/-- Whether an entry is to be forwarded now: at once, then every 100 µs (R355). -/
def State.forwardDue (s : State) (e : FaultEntry) : Bool :=
  !e.forwarded && (match e.tried with
    | none => true
    | some t => decide (t + clocks100us ≤ s.clock))

/-- FAULT_FORWARD (R323, R355): an entry that the firmware does not own goes to the driver; while that cannot be, it stays, and the
firmware tries again 100 µs later. -/
def execFaultForward (stook slot : Nat) (s : State) : Out :=
  let key := 256 * stook + slot
  match tget s.faults key with
  | none => .next s
  | some e =>
    if !s.fw.running ∨ 256 ≤ slot ∨ !s.forwardDue e then .next s
    else match s.faultAppend (e.bytes 0 ++ toLE 8 (Config.faultBase stook + 32 * slot) ++ toLE 88 0) with
      | some t => .next { t with faults := tset t.faults key { e with forwarded := true } }
      | none => .next { s with faults := tset s.faults key { e with tried := some s.clock } }

/-- A write of FAULTQ: its reserved bits read as zero (R355). -/
def State.setFaultq (s : State) (v : BitVec 64) : State := { s with faultq := v &&& 0x00FFFFFFFFFFFF01 }

/-- FAULTQ_WRITE (R355). -/
def execFaultqWrite (v : BitVec 64) (s : State) : Out := .next (s.setFaultq v)

/-- Open entries whose RESULT a write of these cells has set act on their accesses (R323, R355). -/
def State.pollResults (s : State) (cell n : Nat) : State :=
  s.faults.foldl (fun (s : State) e =>
    match cellOf (Config.faultBase (e.1 / 256) + 32 * (e.1 % 256) + 24) with
    | some c =>
      let r := leNat ((List.range 4).map fun i => s.dramByte (c + i))
      if c < cell + n ∧ cell < c + 4 ∧ (r = 1 ∨ r = 2) then s.faultDone (e.1 / 256) (e.1 % 256) (decide (r = 1)) else s
    | none => s) s

end Sys2Proof.Machine
end

