-- ==== Sys2Proof/Machine/Translation.lean ====
section
/-! DEFINITION. Lazy binding: the Odrax container, the translator at its three levels, and the end of a translation (R293 to
R302). -/

namespace Sys2Proof.Machine

/-! ### Bodies -/

/-- A relocation: its KIND and WHERE (R294). -/
structure Reloc where
  kind : Nat
  at_ : Nat
  deriving DecidableEq, Repr

/-- Bytes of data of a body at its level (R294). -/
def dataBytes (lvl n : Nat) : Nat := if lvl = 1 then 32 * n else if lvl = 2 then 16 * n else n

/-- The relocations of a body whose data holds n bytes. -/
def relocsOf (d : List Byte) (n : Nat) : List Reloc :=
  (wordsOf 8 (d.drop (32 + n)) (fld d 8 4)).map fun w => ⟨w / 2 ^ 40 % 256, w % 2 ^ 32⟩

/-- Whether a body keeps the rules of R294 at its level. -/
def bodyOk (lvl : Nat) (d : List Byte) : Bool :=
  let n := dataBytes lvl (fld d 4 4)
  decide (32 ≤ d.length) && decide (fld d 0 1 = lvl) && zeros d 1 3 && zeros d 16 16 && decide (fld d 8 4 ≤ 65535)
    && (if lvl = 2 then decide (fld d 12 4 ≤ 2048) else decide (fld d 12 4 = 0)) && (decide (lvl ≠ 3) || decide (n % 32 = 0))
    && decide (32 + n + 8 * fld d 8 4 ≤ d.length)
    && (wordsOf 8 (d.drop (32 + n)) (fld d 8 4)).all fun w =>
      decide (w / 2 ^ 48 = 0) && decide (w / 2 ^ 32 % 256 = 0) && (decide (w / 2 ^ 40 = 1) || decide (w / 2 ^ 40 = 2))

/-! ### The scalar level -/

/-- Whether an instruction is a dictionary word. -/
def isDictWord : Instr → Bool
  | .dictionaryWord _ _ _ _ _ => true
  | _ => false

/-- The offset field of an instruction that names a place in the text, and the s of a run that begins there, none for a
stream's (R131, R133, R220). -/
def placeOf : Instr → Option (BitVec 32 × Option (BitVec 32))
  | .bra o _ _ => some (o, some 0)
  | .bru _ _ _ _ o _ _ => some (o, some 0)
  | .brz _ _ o _ _ => some (o, some 0)
  | .loop _ o _ _ => some (o, some 0)
  | .call _ _ (.off o) _ => some (o, some 0x6B31)
  | .split _ o _ => some (o, some 0x6B33)
  | .join o _ => some (o, some 0x6B35)
  | .fork _ _ o => some (o, none)
  | _ => none

/-- The s of the run after a terminator; TRAP's successor goes on with the s before it (R133). -/
def afterTerm (i : Instr) (before : BitVec 32) : BitVec 32 :=
  match i with
  | .call _ _ _ _ => 0x6B32
  | .split _ _ _ => 0x6B34
  | .trap _ _ => before
  | _ => 0

/-- The place an instruction names, as an offset in the text. -/
def TInstr.target (x : TInstr) : Option Int :=
  match placeOf x.i with
  | some (o, _) => some ((x.off : Int) + 4 * o.toInt)
  | none => none

/-- Whether a relocation of a kind names an instruction. -/
def relocAt (rs : List Reloc) (kind off : Nat) : Bool := rs.any fun r => decide (r.kind = kind) && decide (r.at_ = off)

/-- Whether every place that instructions name lies in a range of the text (R295, R298). -/
def staysIn (lo hi : Nat) (rs : List Reloc) (l : List TInstr) : Bool :=
  l.all fun x => relocAt rs 1 x.off || (match x.target with
    | some t => decide ((lo : Int) ≤ t) && decide (t < (hi : Int))
    | none => true)

/-- Whether instructions may stand in a scalar body: no dictionary word, every terminator in its 128-bit form (R295). -/
def scalarForm (l : List TInstr) : Bool := l.all fun x => !isDictWord x.i && (!isTerminator x.i || decide (x.len = 16))

/-- Whether a text keeps the rules of R295: no transfer leaves it, by an offset or past its end. -/
def textOk (n : Nat) (rs : List Reloc) (l : List TInstr) : Bool :=
  scalarForm l && staysIn 0 n rs l && (match l.getLast? with
    | some x => neverFalls x.i
    | none => false)

/-- What relocation reads: the lowest stub of each function and the index of each plan (R294). -/
structure RelocEnv where
  kern : Kernel
  funcs : List Nat
  /-- PLANID and NCHUNK of each plan. -/
  plans : List (Nat × Nat)

/-- The lowest plan whose PLANID has these low bits (R294). -/
def RelocEnv.plan (env : RelocEnv) (id : Nat) : Option Nat := env.plans.findIdx? fun q => decide (q.1 % 2 ^ 32 = id)

/-- Apply a relocation to the instruction it names; none where it finds no stub or plan, or another instruction (R294). The
text stands at `base`. -/
def TInstr.relocate (env : RelocEnv) (base : Nat) (x : TInstr) (r : Reloc) : Option TInstr :=
  match r.kind, x.i with
  | 1, .call d w (.off f) t =>
    (env.funcs.findIdx? fun g => decide (g = f.toNat)).map fun i =>
      let dst : Int := ((env.kern.text + env.kern.stubOff + 32 * i : Nat) : Int) - ((base + x.off : Nat) : Int)
      let j : Instr := .call d w (.off (BitVec.ofInt 32 (dst / 4))) t
      { x with i := j, word := encode j }
  | 2, .coll o sc a b p =>
    (env.plan p.toNat).map fun i =>
      let j : Instr := .coll o sc a b (BitVec.ofNat 32 i)
      { x with i := j, word := encode j }
  | _, _ => none

/-- Apply one relocation to a text. -/
def relocText (env : RelocEnv) (base : Nat) (l : List TInstr) (r : Reloc) : Option (List TInstr) :=
  match l.find? fun x => decide (x.off = r.at_) with
  | none => none
  | some x => (x.relocate env base r).map fun y => l.map fun z => if z.off = x.off then y else z

/-- Apply every relocation. -/
def relocAll (env : RelocEnv) (base : Nat) : List Reloc → List TInstr → Option (List TInstr)
  | [], l => some l
  | r :: t, l => (relocText env base l r).bind fun m => relocAll env base t m

/-- Where runs begin, and with which s (R133). -/
def runStarts (rs : List Reloc) (l : List TInstr) : List (Nat × BitVec 32) :=
  l.filterMap fun x =>
    if rs.any fun r => decide (r.at_ = x.off) then none
    else match placeOf x.i, x.target with
      | some (_, some s), some t => some (t.toNat, s)
      | _, _ => none

/-- Recompute SIG of every terminator over its run (R132, R133, R295). -/
def signText (starts : List (Nat × BitVec 32)) : BitVec 32 → List TInstr → List TInstr
  | _, [] => []
  | s, x :: t =>
    let s := match starts.find? fun e => decide (e.1 = x.off) with
      | some e => e.2
      | none => s
    let g := signFold s x.word 0 0
    let g := if writesK0 x.i then markFold g else g
    if isTerminator x.i then
      { x with word := (x.word &&& BitVec.ofNat 128 (2 ^ 104 - 1)) ||| ((g.extractLsb' 0 24).setWidth 128 <<< 104) }
        :: signText starts (afterTerm x.i s) t
    else x :: signText starts g t

/-- A text with its instructions written into it. -/
def layText (d : List Byte) (l : List TInstr) : List Byte :=
  l.foldl (fun d x => d.take x.off ++ toLE x.len x.word.toNat ++ d.drop (x.off + x.len)) d

/-- The translation of a scalar body for an address (R294, R295). -/
def translateScalar (env : RelocEnv) (base : Nat) (d : List Byte) : Option (List Byte) :=
  if !bodyOk 3 d then none
  else
    let n := fld d 4 4
    let rs := relocsOf d n
    match textInstrs ((d.drop 32).take n) (n / 8 + 1) 0 with
    | none => none
    | some l =>
      if !textOk n rs l then none
      else (relocAll env base rs l).map fun m =>
        layText ((d.drop 32).take n) (if env.kern.sigauto then signText (runStarts rs l) 0x6B31 m else m)

/-! ### Cross-references (R298) -/

/-- An entry of the cross-reference table. -/
structure XRef where
  lvl : Nat
  first : Nat
  count : Nat
  lfirst : Nat
  lcount : Nat
  deriving DecidableEq, Repr

/-- What a function's record names, as the translator reads it (R293): bodies, empty where absent, and cross-references. -/
structure Bodies where
  tile : List Byte
  loop : List Byte
  scalar : List Byte
  xref : List (Option XRef)
  win : Nat

/-- An entry of 24 bytes; none where a reserved byte is not zero or a field is out of its range. -/
def xrefOf (d : List Byte) : Option XRef :=
  let x : XRef := ⟨fld d 0 1, fld d 4 4, fld d 8 4, fld d 12 4, fld d 16 4⟩
  if (x.lvl = 1 ∨ x.lvl = 2) ∧ zeros d 1 3 ∧ zeros d 20 4 ∧ 1 ≤ x.count ∧ (x.lvl = 1 ∨ (x.lfirst % 32 = 0 ∧ x.lcount % 32 = 0)) then some x
  else none

/-- Whether an entry's range shares a record with that of another of its level. -/
def xrefMeets (l : List (Option XRef)) (i : Nat) (x : XRef) : Bool :=
  l.zipIdx.any fun e => match e.1 with
    | some y => decide (e.2 ≠ i) && decide (y.lvl = x.lvl) && decide (x.first < y.first + y.count) && decide (y.first < x.first + x.count)
    | none => false

/-- The entries of the table, by index; none for one that counts as missing. -/
def xrefsOf (d : List Byte) (n : Nat) : List (Option XRef) :=
  let l := (List.range n).map fun i => xrefOf ((d.drop (8 + 24 * i)).take 24)
  l.zipIdx.map fun e => e.1.bind fun x => if xrefMeets l e.2 x then none else some x

/-- The text of a scalar body that keeps R294, as instructions, with its relocations. -/
def scalarText (d : List Byte) : Option (List TInstr × List Reloc) :=
  if !bodyOk 3 d then none
  else (textInstrs ((d.drop 32).take (fld d 4 4)) (fld d 4 4 / 8 + 1) 0).map fun l => (l, relocsOf d (fld d 4 4))

/-- The instructions of a range of a scalar body that a region may be taken from: it begins with one, ends after one, and is left only
past its end, or by RET or EXIT (R298). -/
def rangeText (d : List Byte) (x : XRef) : Option (List TInstr) :=
  (scalarText d).bind fun e =>
    let m := e.1.filter fun i => decide (x.lfirst ≤ i.off) && decide (i.off < x.lfirst + x.lcount)
    let ends := m.all fun i => decide (i.off + i.len ≤ x.lfirst + x.lcount)
    let starts := match m with
      | i :: _ => decide (i.off = x.lfirst)
      | [] => false
    if x.lfirst + x.lcount ≤ fld d 4 4 && starts && ends && scalarForm m && staysIn x.lfirst (x.lfirst + x.lcount) e.2 m then some m else none

/-! ### Lowering a function (R296, R297, R299) -/

/-- Why a level gives no code: it is as if absent, or the function fails (R294, R298). -/
inductive NoCode where
  | absent | failed
  deriving DecidableEq, Repr

/-- The code of a region taken from the scalar level; under SIGAUTO a run begins at it (R144, R299). -/
def takenCode (sig : Bool) (m : List TInstr) : List Emit :=
  .align :: (if sig then [made (.nop .w64), made (.nop .w64), made (.nop (.w128 0))] else [])
    ++ m.map fun i => Emit.ins ⟨i.i, i.word, none, some (3, i.off), false, false⟩

/-- Scalars that the translator may use for its own counts: those that the function names nowhere, from s62 down (log 6). -/
def freeScalars (l : List LRec) (text : List TInstr) : List SReg :=
  let used := (l.flatMap fun r => match r.it with
    | .ins i _ _ => instrScalars i
    | .loop n => [n]
    | _ => []) ++ text.flatMap fun x => instrScalars x.i
  (((List.range 60).map fun i => BitVec.ofNat 6 (62 - i)).filter fun n => !used.contains n)

/-- The same of mask registers. -/
def freeMasks (l : List LRec) (text : List TInstr) : List KNum :=
  let used := (l.flatMap fun r => match r.it with
    | .ins _ w _ => masksOf w
    | .cond k => [k.toNat]
    | _ => []) ++ text.flatMap fun x => masksOf x.word
  ((List.range 15).map fun i => BitVec.ofNat 4 (15 - i)).filter fun n => !used.contains n.toNat

/-- The virtual registers live into or out of a region of records (R298). -/
def liveAcross (hs : List Hull) (x : XRef) : List Nat :=
  (hs.filter fun h => decide (h.lo < x.first + x.count) && decide (x.first ≤ h.hi)
    && (decide (h.lo < x.first) || decide (x.first + x.count ≤ h.hi))).map fun h => h.v + h.width - 1

/-- The entry of the table for a region of a loop body that cannot be expressed there: what it is taken from, unless it breaks R298. -/
def takeRegion (f : Bodies) (sig : Bool) (l : List LRec) (hs : List Hull) (x : XRef) : Option Taken :=
  match recsIn l x.first x.count, rangeText f.scalar x with
  | some m, some t => if nestOk [] m && (liveAcross hs x).all fun v => decide (v < f.win) then some ⟨x.first, x.count, takenCode sig t⟩ else none
  | _, _ => none

/-- Lower loop records: a region in which more registers are live than the window holds is taken from the scalar level, for that
region alone (R296, R299). `l` is the next label. -/
def lowerLoopRange (f : Bodies) (sig : Bool) (scal : List SReg) (l : Nat) (m : List LRec) : Option (List Emit × Nat) :=
  let hs := hullsOf m
  let tooMany := (m.filter fun r => decide (f.win < liveAt hs r.ix)).map fun r => r.ix
  let ents := f.xref.filterMap fun e => e.bind fun x =>
    if x.lvl = 2 ∧ tooMany.any (fun i => decide (x.first ≤ i) && decide (i < x.first + x.count)) then some x else none
  if tooMany.any fun i => !ents.any fun x => decide (x.first ≤ i) && decide (i < x.first + x.count) then none
  else match ents.mapM (takeRegion f sig m hs) with
    | none => none
    | some tk =>
      let gone := fun (r : LRec) => tk.any fun x => decide (x.first ≤ r.ix) && decide (r.ix < x.first + x.count)
      let kept := m.filter fun r => !gone r
      let text := ents.flatMap fun x => (rangeText f.scalar x).getD []
      let busy := ents.flatMap fun x => ((rangeText f.scalar x).getD []).flatMap fun i =>
        ((vecOps i.i).flatMap fun o => o.span.regs o.n).eraseDups.map fun v => (v, x.first, x.first + x.count - 1)
      let busy := busy.filter fun e => !hs.any fun h => decide (h.v = e.1)
      match placesOf f.win busy kept with
      | none => none
      | some pl => lowerRecs ⟨sig, pairBases kept, pl, scal, freeMasks m text⟩ tk [] [] l m

/-- A record of a tile body (R297); none where a reserved byte is not zero. -/
def tileRecOf (d : List Byte) : Option (Option TileRec) :=
  if !zeros d 4 4 ∨ !zeros d 28 4 then none
  else some ((Ty.ofCode (BitVec.ofNat 5 (fld d 1 1))).bind fun ty => if 32 ≤ fld d 1 1 then none else
    some ⟨fld d 0 1, ty, fld d 2 1, fld d 3 1, fld d 8 4, fld d 12 4, fld d 16 4, fld d 20 4, fld d 24 4⟩)

/-- The element types of a product (R297). -/
def productTy : Ty → Bool
  | .f64 => true | .f32 => true | .bf16 => true | .f16 => true | .t8 => true | .t6 => true | .s8 => true
  | _ => false

/-- Whether the translator expresses a record at the tile level: its OP, TYPE, MODE and AXIS as R297 gives them. -/
def tileExpresses (env : RelocEnv) (r : TileRec) : Bool :=
  let plain := decide (r.mode = 0) && decide (r.axis = 0)
  match r.op with
  | 1 => plain && decide (r.ref = 0)
  | 2 => plain && decide (r.ref = 0) && productTy r.ty
  | 3 => decide (r.mode < 4) && decide (r.axis = 0) && decide (r.ref = 0) && (decide (r.ty = .t4) || decide (r.ty = .s4))
  | 4 => plain && decide (r.ref = 0) && (decide (r.ty = .f32) || decide (r.ty = .s32))
  | 5 => plain && !r.ty.isCont && !r.ty.pair && decide (r.ty ≠ .none)
  | 6 => decide (r.axis < 6) && decide (r.ref = 0) && !r.ty.isCont && decide (r.ty ≠ .none) && (match RedOp.ofCode (BitVec.ofNat 3 r.mode) with
      | some .and => decide (r.mode < 8) && r.ty.isInt
      | some .or => decide (r.mode < 8) && r.ty.isInt
      | some _ => decide (r.mode < 8)
      | none => false)
  | 7 => plain && (env.plan r.ref).isSome && decide (r.a < 2 ^ 31) && decide (r.d < 2 ^ 31)
  | _ => false

/-- Read an 8-byte address of the argument block, that s1 names, into a scalar (R113, R297). -/
def argInto (x : SReg) (off : Nat) : Emit :=
  made (.ldc 0 .n64 ⟨.none, .blk, false⟩ x ⟨1, .sca 0, 0, some (BitVec.ofNat 32 off)⟩)

/-- The code of a collective (R297, R338): it starts with A as its argument block and D as its barrier object, and its chunks are waited
for, one by one. -/
def lowerColl (x y : SReg) (plan nchunk : Nat) (r : TileRec) : List Emit :=
  [argInto x r.a, argInto y r.d, made (.coll .none .dev x y (BitVec.ofNat 32 plan))]
    ++ (List.range nchunk).map fun c => made (.waitchunk .acq .dev y (BitVec.ofNat 32 c))

/-- The code of an elementwise map (R297): round by round, the elements of the next lanes come in, the loop range gives the function,
and the results go out; k0 is as it was at the end. -/
def lowerMap (x y : SReg) (r : TileRec) (l : Nat) (fn : List Emit) : List Emit :=
  [made (.ksave y 0), made (.sli x 0), .label l, .tile (.mapIn r x) none] ++ fn ++ [.tile (.mapOut r x 0) (some l), made (.krest 0 y)]

/-- Lower one record of a tile body; none where a cross-reference that it needs is missing. -/
def lowerTile (env : RelocEnv) (f : Bodies) (lrecs : List LRec) (scal : List SReg) (l : Nat) (r : TileRec) : Option (List Emit × Nat) :=
  let sig := env.kern.sigauto
  match r.op, scal with
  | 5, x :: y :: rest => match (f.xref[r.ref]?).join with
    | some e => if e.lvl ≠ 1 then none else (recsIn lrecs e.lfirst e.lcount).bind fun m =>
        if !nestOk [] m then none
        else (lowerLoopRange f sig rest (l + 1) m).map fun c => (lowerMap x y r l c.1, c.2)
    | none => none
  | 7, x :: y :: _ => (env.plan r.ref).map fun p => (lowerColl x y p (((env.plans[p]?).map fun q => q.2).getD 0) r, l)
  | _, _ => some ([.tile (.op r) none], l)

/-- Lower the records of a tile body, each at its level or, with the region of the entry that names it, at the loop level (R299). -/
def lowerTiles (env : RelocEnv) (f : Bodies) (lrecs : List LRec) (scal : List SReg) :
    List (Nat × Option TileRec) → List Emit → Nat → Nat → Option (List Emit)
  | [], cur, _, _ => some cur
  | (ix, r) :: t, cur, l, skip =>
    if ix < skip then lowerTiles env f lrecs scal t cur l skip
    else
      let ent := f.xref.findSome? fun e => e.bind fun x => if x.lvl = 1 ∧ x.first ≤ ix ∧ ix < x.first + x.count then some x else none
      let expressed := fun (y : Nat × Option TileRec) => (y.2.map (tileExpresses env)).getD false
      let bad := match ent with
        | some x => ((ix, r) :: t).any fun y => decide (y.1 < x.first + x.count) && !expressed y
        | none => !expressed (ix, r)
      if !bad then match r.bind fun r => lowerTile env f lrecs scal l r with
        | some c => lowerTiles env f lrecs scal t (cur ++ c.1) c.2 skip
        | none => none
      else match ent with
        | none => none
        | some x =>
          if x.first ≠ ix then none
          else match (recsIn lrecs x.lfirst x.lcount).bind fun m => if nestOk [] m then lowerLoopRange f env.kern.sigauto scal l m else none with
            | some c => lowerTiles env f lrecs scal t (cur ++ c.1) c.2 (x.first + x.count)
            | none => none

/-- A function's return, through the link register that CALL takes by default (R150, log 6). -/
def returns (sig : Bool) : Emit := madeTerm sig (.ret 63 none) none

/-- What a translation gives: its bytes, and the code of tile operations in them: offset, length and what they do. -/
structure Output where
  bytes : List Byte
  tiles : List (Nat × Nat × TileWork)
  deriving DecidableEq, Repr

/-- Apply the relocations of the bodies to finished code; none where one finds no stub or plan (R294). -/
def relocCode (env : RelocEnv) (base : Nat) (rs : Nat → List Reloc) (l : List (TInstr × Option (Nat × Nat))) : Option (List TInstr) :=
  l.mapM fun e => match e.2 with
    | none => some e.1
    | some (lvl, at_) => match (rs lvl).find? fun r => decide (r.at_ = at_) with
      | some r => e.1.relocate env base r
      | none => some e.1

/-- Put tile code into a text. -/
def layTiles (d : List Byte) (l : List (Nat × Nat × TileWork)) : List Byte :=
  l.foldl (fun d e => d.take e.1 ++ tileBytes e.2.2 ++ d.drop (e.1 + e.2.1)) d

/-- Finish code for an address: offsets, lookahead, relocations, SIG and bytes (R142, R144, R294, R299). -/
def assemble (env : RelocEnv) (f : Bodies) (base : Nat) (code : List Emit) : Option Output :=
  let sig := env.kern.sigauto
  let lay := layOut sig code
  let placed := setLooks lay.1
  let tiles := tilesIn placed
  let rs := fun (lvl : Nat) => if lvl = 2 then relocsOf f.loop (dataBytes 2 (fld f.loop 4 4)) else relocsOf f.scalar (fld f.scalar 4 4)
  (relocCode env base rs (finish placed)).map fun l =>
    let starts := (tiles.map fun e => (e.1 + e.2.1, (0 : BitVec 32))) ++ runStarts [] l
    ⟨layTiles (layText (List.replicate lay.2 0) (if sig then signText starts 0x6B31 l else l)) tiles, tiles⟩

/-- Whether every relocation of a loop body names an instruction of it that its kind is for (R294). -/
def relocsNamed (rs : List Reloc) (l : List LRec) : Bool :=
  rs.all fun r => l.any fun x => decide (x.ix = r.at_) && (match x.it, r.kind with
    | .ins (.call _ _ (.off _) _) _ _, 1 => true
    | .ins (.coll _ _ _ _ _) _ _, 2 => true
    | _, _ => false)

/-- The loop records of a function, as far as the body can be translated (R294, R296). -/
def loopsOf (f : Bodies) : Option (List LRec) :=
  if f.loop.isEmpty ∨ !bodyOk 2 f.loop then none
  else (loopRecs f.loop).bind fun l => if relocsNamed (relocsOf f.loop (dataBytes 2 (fld f.loop 4 4))) l then some l else none

/-- The text of a function's scalar body, empty where there is none. -/
def textOf (f : Bodies) : List TInstr := ((scalarText f.scalar).map fun e => e.1).getD []

/-- Translation at the tile level (R297, R299). A tile body has no instruction that a relocation could name. -/
def translateTile (env : RelocEnv) (f : Bodies) (base : Nat) : Except NoCode Output :=
  if f.tile.isEmpty ∨ !bodyOk 1 f.tile ∨ fld f.tile 8 4 ≠ 0 then .error .absent
  else match ((List.range (fld f.tile 4 4)).mapM fun i => (tileRecOf ((f.tile.drop (32 + 32 * i)).take 32)).map fun r => (i, r)) with
    | none => .error .absent
    | some l =>
      let lr := (loopsOf f).getD []
      match lowerTiles env f lr (freeScalars lr (textOf f)) l [] 0 0 with
      | none => .error .failed
      | some c => (assemble env f base (c ++ [returns env.kern.sigauto])).elim (.error .failed) .ok

/-- Translation at the loop level (R296, R299). -/
def translateLoop (env : RelocEnv) (f : Bodies) (base : Nat) : Except NoCode Output :=
  match loopsOf f with
  | none => .error .absent
  | some l =>
    match lowerLoopRange f env.kern.sigauto (freeScalars l (textOf f)) 0 l with
    | none => .error .failed
    | some c => (assemble env f base (c.1 ++ [returns env.kern.sigauto])).elim (.error .absent) .ok

/-- A translation for an address: at the highest level present that can be translated (R294, R299). -/
def translateFn (env : RelocEnv) (f : Bodies) (base : Nat) : Option Output :=
  let scalar := (translateScalar env base f.scalar).map fun d => Output.mk d []
  match translateTile env f base with
  | .ok x => some x
  | .error .failed => none
  | .error .absent => match translateLoop env f base with
    | .ok x => some x
    | .error .failed => none
    | .error .absent => scalar

/-! ### Events -/

/-- The request of a binding entry that waits, or that is being translated. -/
def State.lazyAt (s : State) (entry : Nat) (started : Bool) : Option LazyReq :=
  s.lazies.find? fun r => decide (r.entry = entry) && decide (r.started = started)

/-- A body that a function record names: empty when it is absent, not aligned to 32, or cannot be read (R293, R294). -/
def State.bodyAt (s : State) (t : Tag) (rec_ : List Byte) (off : Nat) : List Byte :=
  if fld rec_ off 8 % 32 ≠ 0 then [] else ((s.sysBytes fwCore t (fld rec_ off 8) (fld rec_ (off + 8) 8)).2).getD []

/-- What the translator reads of the container: the function record, the three bodies and the cross-references (R293, R298). -/
def State.lazyInput (s : State) (r : LazyReq) : Option (List (List Byte)) :=
  match (s.sysBytes fwCore r.tag r.kern.odrax 64).2 with
  | none => none
  | some h =>
    if r.kern.odrax = 0 ∨ fld h 0 4 ≠ 1 ∨ fld h 4 4 ≤ r.fn then none
    else (s.sysBytes fwCore r.tag (fld h 8 8 + 64 * r.fn) 64).2.map fun f =>
      let x := fld f 48 8
      let n := fld (((s.sysBytes fwCore r.tag x 8).2).getD []) 0 8
      [f, s.bodyAt r.tag f 0, s.bodyAt r.tag f 16, s.bodyAt r.tag f 32,
       if x = 0 ∨ 65535 < n then [] else ((s.sysBytes fwCore r.tag x (8 + 24 * n)).2).getD []]

/-- LAZY_TRANSLATE (R299, R301): the firmware reads the function and translates it. -/
def execLazyTranslate (entry : Nat) (s : State) : Out :=
  match s.lazyAt entry false with
  | none => .next s
  | some r => if !s.fw.running then .next s
    else .next { s with lazies := s.lazies.map fun (q : LazyReq) => if q = r then { q with input := s.lazyInput q, started := true } else q }

/-- What relocation reads of a kernel: FUNC of its binding entries, PLANIDs of its plans (R294). -/
def State.relocEnv (s : State) (t : Tag) (k : Kernel) : RelocEnv :=
  { kern := k,
    funcs := (List.range k.nbind).map fun i => fld (((s.sysBytes fwCore t (k.bindtab + 32 * i) 32).2).getD []) 4 4,
    plans := (List.range k.nplan).map fun i =>
      let p := leNat (((s.sysBytes fwCore t (k.plantab + 8 * i) 8).2).getD [])
      let d := ((s.sysBytes fwCore t p 64).2).getD []
      (fld d 16 8, fld d 12 4) }

/-- The translation of a request for an address (R299): of what was read of the container, none where that could not be. -/
def State.translation (s : State) (r : LazyReq) (base : Nat) : Option Output :=
  match r.input with
  | some [f, tile, loop, scalar, xref] =>
    translateFn (s.relocEnv r.tag r.kern) ⟨tile, loop, scalar, xrefsOf xref (fld xref 0 8), fld f 56 2⟩ base
  | _ => none

/-- The event that ends translating wakes every wave parked on the entry (R301). -/
def State.wakeBinding (s : State) (entry : Nat) : State :=
  { s with blocks := tmapv s.blocks fun b => { b with waves := tmapv b.waves fun w =>
      { w with
        s0 := if w.s0.status = .binding entry then { w.s0 with status := .run } else w.s0,
        s1 := if w.s1.status = .binding entry then { w.s1 with status := .run } else w.s1 } } }

/-- Write the end of a translation into its entry: bound at an address, or failed (R300, R301). -/
def State.endBinding (s : State) (r : LazyReq) (pc : Option Nat) : State :=
  let s := { s with lazies := s.lazies.filter fun q => decide (q ≠ r) }
  match pc with
  | some p => ((s.dramWrite (r.entry + 8) (toLE 8 p)).dramWrite r.entry [2]).wakeBinding r.entry
  | none => (s.dramWrite r.entry [3]).wakeBinding r.entry

/-- The output of a translation among what has reached the patch engine (R302). -/
def outputRun (r : LazyReq) : PatchRun := ⟨nobody, r.tag, 0, 0, 0, r.entry, none⟩

/-- The output of a request leaves the patch engine. -/
def State.outputGone (s : State) (r : LazyReq) : State :=
  { s with patches := s.patches.filter fun p => !(decide (p.who = nobody) && decide (p.src = r.entry)) }

/-- Write an output through the patch engine at SPAREOFF + SPAREUSED, advance SPAREUSED, and bind the entry; an output that would pass
TEXTLEN, or cannot be written, fails it (R301). It waits for what executes in its range. -/
def State.putOutput (s : State) (r : LazyReq) (used : Nat) (x : Output) : State :=
  let base := r.kern.text + r.kern.spareOff + used
  let n := x.bytes.length
  if r.kern.textLen < r.kern.spareOff + used + n then (s.outputGone r).endBinding r none
  else if s.patchWaits ⟨nobody, r.tag, 0, base, n, r.entry, none⟩ then s
  else match s.patchWrite fwCore r.tag base x.bytes with
    | .ok t _ =>
      let run := (cget (0, 0) s.kcounts (kernKey r.tag r.kern.addr)).1
      let t := { t.sysHead r.tag (r.kern.addr + 120) (toLE 8 (used + n)) with
        kcounts := tset t.kcounts (kernKey r.tag r.kern.addr) (run, used + n),
        tiles := t.tiles ++ x.tiles.map fun (e : Nat × Nat × TileWork) => TileCode.mk r.tag (base + e.1) e.2.1 (match e.2.2 with
          | .mapOut q c b => .mapOut q c (base + b)
          | w => w) }
      (t.outputGone r).endBinding r (some base)
    | .stall => s
    | _ => (s.outputGone r).endBinding r none

/-- TRANSLATION_COMPLETE (R301, R302): the output goes to the patch engine, and is written when its turn has come; a function that
cannot be translated has failed. -/
def execTranslationComplete (entry : Nat) (s : State) : Out :=
  match s.lazyAt entry true with
  | none => .next s
  | some r =>
    let used := (cget (0, 0) s.kcounts (kernKey r.tag r.kern.addr)).2
    if !s.fw.running then .next s
    else match s.translation r (r.kern.text + r.kern.spareOff + used) with
      | none => .next (s.endBinding r none)
      | some x =>
        let s := if s.patches.contains (outputRun r) then s else { s with patches := s.patches ++ [outputRun r] }
        .next (if s.patchNow = some (outputRun r) then s.putOutput r used x else s)

end Sys2Proof.Machine
end

