-- ==== Sys2Proof/Machine/Agents.lean ====
section
/-! DEFINITION. What memory and the host do of themselves: write-backs, landing vertical writes, host accesses and snoops, a
vault that becomes ready (R105, R217, R255, R279, R359); and the completions of lookahead and the reserved encodings (R128,
R135, R137). -/

namespace Sys2Proof.Machine

/-- WRITE_BACK (R105, R205, R248, R251, R264): below 512, a core writes back its stores to a 256-byte line, each after every older store
of it, and gives up its copies of the line's sectors; at 512, the home slice writes the line back to its vault. -/
def execWriteBack (core line : Nat) (s : State) : Out :=
  .next (if core < fwCore then
      (s.writeBack core (256 * line) 256).modCore core fun k => { k with cache := k.cache.filter fun e => decide (e.1 / 4 ≠ line) }
    else if core = fwCore then s.lineOut line else s)

/-- VERTICAL_WRITE_LAND (R217). -/
def execVerticalWriteLand (core : Nat) (s : State) : Out := .next (s.landOne core)

/-! ### The host -/

/-- Write bytes at a home for the host: waiters are tested and RESULTs seen (R255, R279, R311, R323). In a vault made fallow nothing
is written (R352). -/
def State.hostWrite (s : State) (cell : Nat) (d : List Byte) : State :=
  if s.unitFallow .vault (vaultOf cell) then s
  else
    let s := (s.dramWrite cell d).unpoison cell d.length
    let s := (List.range (d.length / 64 + 2)).foldl (fun (s : State) i => s.testWaiters ((cell / 64 + i) * 64)) s
    s.pollResults cell d.length

/-- Add to what the host is answered. -/
def State.tellHost (s : State) (r : HostReply) : State := { s with hostReply := s.hostReply ++ [r] }

/-- A CXL.mem access of the host to one line at its home: strong, at .sys. Eight aligned bytes on APPEND are an append (R255,
R279). A poisoned sector is read with the mark of poison (R341). -/
def State.hostAccess (s : State) (a : HostAccess) (cell : Nat) : Out :=
  match a with
  | .read _ n =>
    let s := s.vaultRead cell n
    .next (s.tellHost (.data ((List.range n).map fun i => s.dramByte (cell + i)) (s.poisoned cell n)))
  | .write pa d =>
    if d.length = 8 ∧ pa % 8 = 0 ∧ s.onAppend cell then execHostAppend (pa - 48) (leNat d) s
    else .next (s.hostWrite cell d)
  | _ => .next s

/-- The address of a host access to device memory. -/
def hostAddr : HostAccess → Nat
  | .read pa _ => pa
  | .write pa _ => pa
  | _ => 0

/-- A host access line by line: 64 bytes at a time (R255). -/
def hostPieces (a : HostAccess) : List HostAccess :=
  match a with
  | .read pa n => (List.range ((pa % 64 + n + 63) / 64)).map fun i =>
      let lo := max pa (pa / 64 * 64 + 64 * i)
      .read lo (min (pa + n) (pa / 64 * 64 + 64 * i + 64) - lo)
  | .write pa d => (List.range ((pa % 64 + d.length + 63) / 64)).map fun i =>
      let lo := max pa (pa / 64 * 64 + 64 * i)
      .write lo ((d.drop (lo - pa)).take (min (pa + d.length) (pa / 64 * 64 + 64 * i + 64) - lo))
  | _ => []

/-- Perform the lines of a host access, in order. -/
def State.hostSteps (s : State) (l : List HostAccess) : State :=
  l.foldl (fun (s : State) a => match cellOf (hostAddr a) with
    | some cell => (match s.hostAccess a cell with
      | .next t => t
      | _ => s)
    | none => s) s

/-- A CXL.mem access (R255, R359): it waits while one of its homes is not ready, and behind what was received before it. Outside
package memory there is nothing. -/
def State.hostMemory (s : State) (a : HostAccess) : State :=
  let homes := (hostPieces a).map fun x => (hostAddr x, cellOf (hostAddr x))
  if homes.any fun x => x.2.isNone then s
  else if !s.hostHeld.isEmpty ∨ homes.any fun x => (x.2.map (s.parks x.1)).getD false then { s with hostHeld := s.hostHeld ++ [a] }
  else { s with hostReply := [] }.hostSteps (hostPieces a)

/-- A byte of BAR0: FAULTQ stands at 0 (R355); the rest the manual does not describe (log 69). -/
def State.barByte (s : State) (off : Nat) : Byte := if off < 8 then s.faultq.extractLsb' (8 * off) 8 else Config.barByte off

/-- The five measurement blocks (R357). -/
def State.measurements (s : State) : List (List Byte) :=
  [Config.bootRomDigest, Config.sha512 s.fw.image ++ toLE 4 s.fw.imageVer, s.fw.microcode.flatten, toLE 8 s.versionReg.toNat,
   Config.fuseBlock ++ toLE 4 s.fw.minVer ++ toLE 1 (8 - s.spareCores.sum) ++ toLE 1 (16 - s.spareSlices.sum)]

/-- HOST_MEM_ACCESS (R255, R279, R354 to R358): CXL.mem and BAR0 while the firmware runs; configuration and DOE in recovery too, and
before the image is verified Request Retry Status for configuration. CXL.io requests act in the order in which they come. Every
request bears the tag of slot 0, which is always live (R263). -/
def execHostMemAccess (a : HostAccess) (s : State) : Out :=
  let fresh : State := { s with hostReply := [] }
  .next (match a with
    | .configRead reg => fresh.tellHost (if s.fw.running ∨ s.fw.recovery then
        .data (toLE 4 (Config.configSpace reg).toNat) false else .retry)
    | .configWrite _ _ => if s.fw.running ∨ s.fw.recovery then s else fresh.tellHost .retry
    | .doe msg => if s.fw.running ∨ s.fw.recovery then
        fresh.tellHost (.data (Config.spdmReply msg s.measurements) false) else s
    | .barRead off n => if s.fw.running then fresh.tellHost (.data ((List.range n).map fun i => s.barByte (off + i)) false) else s
    | .barWrite off d => if s.fw.running ∧ off = 0 ∧ d.length = 8 then s.setFaultq (BitVec.ofNat 64 (leNat d)) else s
    | _ => if s.fw.running then s.hostMemory a else s)

/-- HOST_SNOOP (R255): every core's copy of a 64-byte line of host memory is gone. -/
def execHostSnoop (line : Nat) (s : State) : Out :=
  .next (s.cores.foldl (fun (s : State) e => s.modCore e.1 fun k => { k with cache := tdel k.cache (hostKey (64 * line)) }) s)

/-! ### Units becoming ready -/

/-- Requests of peers that were held and can go on (R359). -/
def State.serveHeld (s : State) : State :=
  let l := s.heldReqs
  l.foldl (fun (s : State) h => s.takePeer h) { s with heldReqs := [] }

/-- Host accesses that were held and can go on, in order: the first that still waits holds those behind it (R255). -/
def State.serveHost (s : State) : State :=
  let l := s.hostHeld
  l.foldl (fun (s : State) a => match execHostMemAccess a s with
    | .next t => t
    | _ => s) { s with hostHeld := [] }

/-- A unit is ready: READYMAP shows it, and what was parked for it goes on (R358, R359). -/
def State.readyUp (s : State) (c : UnitClass) (n : Nat) : State := ((s.setReady c n true).serveHeld).serveHost

/-- Units of a class (R13, R165). -/
def unitCount : UnitClass → Nat
  | .core => 512 | .slice => 1024 | .vault => 512 | .port => 36 | .copyEngine => 512 | .mgmt => 4 | .lane => 144

/-- VAULT_READY (R359): the vault's bit is set and what was parked at its cells completes; accesses of slots issue again of
themselves. -/
def execVaultReady (v : Nat) (s : State) : Out :=
  .next (if v < 512 ∧ !s.unitFallow .vault v then s.readyUp .vault v else s)

/-! ### Lookahead and reserved encodings -/

/-- LONG_LATENCY_COMPLETE (R127, R128): the oldest instruction in flight of a slot completes. -/
def execLongLatencyComplete (block wave slot : Nat) (s : State) : Out :=
  match s.view block wave slot with
  | none => .next s
  | some v =>
    if v.b.frozen = .no ∧ v.sl.status = .run ∧ !v.sl.flights.isEmpty then .next (s.completeOldest block wave slot) else .next s

/-- RESERVED_ENCODING (R135, R137): majors 0x28 to 0x3E trap UNIMPL; an unassigned minor of a privileged major traps PRIV
without privilege; every other word of reserved space, major 0x3F among them, traps ILLEGAL. -/
def execReservedEncoding (major _ : BitVec 6) (s : State) : Out :=
  s.onAny (
    let m := major.toNat
    .next (s.trap (if 0x28 ≤ m ∧ m ≤ 0x3E then cUNIMPL
      else if 0x25 ≤ m ∧ m ≤ 0x27 ∧ !s.privileged then cPRIV else cILLEGAL)))

end Sys2Proof.Machine
end

