-- ==== Sys2Proof/Machine/Firmware.lean ====
section
/-! DEFINITION. Reset and bring-up, self-tests, fallow units and spares, temperature, and the sideband (R18, R349 to R353, R356
to R361). -/

namespace Sys2Proof.Machine

/-! ### Fallow units -/

/-- Show a number as left without a unit (R165, R353). -/
def State.setFallow (s : State) (c : UnitClass) (n : Nat) : State :=
  { s.setReady c n false with
    fallow := cset 0 s.fallow (unitCode c) (cget 0 s.fallow (unitCode c) ||| ((1 : BitVec 1024) <<< n)), replaceFlag := true }

/-- Use a spare of a stook (R18, R353). -/
def useSpare (l : List Nat) (stook : Nat) : List Nat := l.zipIdx.map fun e => if e.2 = stook then e.1 - 1 else e.1

/-- Spares left for a unit (R18, log 32). -/
def State.sparesFor (s : State) (c : UnitClass) (n : Nat) : Nat :=
  match c with
  | .core => (s.spareCores[n / 128]?).getD 0
  | .slice => (s.spareSlices[n / 256]?).getD 0
  | _ => 0

/-- The core that a spare is when it takes a number at run time (R350): the column store is the one of the number. Its own registers,
BANKMODE, GOVBUDGET and GOVSTALL among them, and its memories are as after a reset; the tables of messages and bind records, the
generations of handles and the logical time come with the number (the manual names none of these: log 70). -/
def Core.spare (k : Core) : Core :=
  { Core.reset with
    colWays := k.colWays, colChange := k.colChange, column := k.column, columnBad := k.columnBad, time := k.time, posts := k.posts,
    postGens := k.postGens, postSeq := k.postSeq, ovf := k.ovf, quota := k.quota, msgovf := k.msgovf, seqGens := k.seqGens, recs := k.recs }

/-- A spare takes a number, and the errors counted for the unit that had it are no more its own; a pool that is used up sets REPLACE
(R350, R351, R353, log 32). -/
def State.takeSpare (s : State) (c : UnitClass) (n : Nat) : State :=
  let s := { s with
    replaceFlag := s.replaceFlag || decide (s.sparesFor c n ≤ 1),
    errs := s.errs.filter fun e => !(decide (e.unit = c) && decide (e.n = n)) }
  match c with
  | .core => { (((s.landAll n).writeBackAll n).modCore n Core.spare) with spareCores := useSpare s.spareCores (n / 128) }
  | .slice => { s with spareSlices := useSpare s.spareSlices (n / 256) }
  | _ => s

/-- The interleaved address of a cell (R102). -/
def interOf (cell : Nat) : Nat :=
  let r := cell % vaultBytes / 4096
  (r * 512 + (((vaultOf cell ^^^ (r % 512)) ^^^ (r / 512 % 512)) ^^^ (r / 0x40000 % 4))) * 4096 + cell % 4096

/-- Whether a cell's line has its home in a slice, through either view (R104). -/
def homedIn (n cell : Nat) : Bool :=
  decide (homeSlice (interOf cell) = n)
    || decide (homeSlice (0x100000000000 + vaultOf cell * 0x100000000 + cell % vaultBytes) = n)

/-- The blocks with versions in a slice have their intervals opened and committed (R351). -/
def State.openVersions (s : State) (n : Nat) : State :=
  s.blocks.foldl (fun (s : State) e => if e.2.vers.any fun v => homedIn n v.1 then s.openInterval e.1 else s) s

/-- A slice is emptied (R351): the versions in it are committed, and its dirty lines written back, with their poison; what it held of
page tables is gone. -/
def State.emptySlice (s : State) (n : Nat) : State :=
  let s := s.openVersions n
  let s := (s.lines.filter fun e => homedIn n (256 * e.1)).foldl (fun (s : State) e => s.lineOut e.1) s
  { s with xlat := tdel s.xlat n }

/-- Set POISON in a leaf that maps a page in a vault. A page of the interleaved view lies in no one vault: of it the cells alone are
lost (R319, R352, log 71). -/
def State.poisonLeaf (s : State) (v lvl pa : Nat) : State :=
  match s.ptRead pa, cellOf pa with
  | .ok e, some cell =>
    let page := bitsOf e 43 12 * 0x10000
    if e.getLsbD 0 && e.getLsbD 1 && leafOk e lvl && decide (bitsOf e 11 10 = 0) && isPinned page
        && decide ((cellOf page).map vaultOf = some v) then s.dramWrite (cell + 7) [(e ||| 0x8000000000000000).extractLsb' 56 8]
    else s
  | _, _ => s

/-- Set POISON in the leaves of a page table that map pages in a vault, from a table of a level downward (R318, R352). -/
def State.poisonPages (s : State) (v : Nat) : Nat → Nat → State
  | 0, p => (List.range 32).foldl (fun (s : State) i => s.poisonLeaf v 0 (p + 8 * i)) s
  | l + 1, p => (List.range 512).foldl (fun (s : State) i =>
    match s.ptRead (p + 8 * i) with
    | .error _ => s
    | .ok e =>
      if e.getLsbD 0 = false then s
      else if e.getLsbD 1 then s.poisonLeaf v (l + 1) (p + 8 * i)
      else s.poisonPages v l (bitsOf e 47 8 * 256)) s

/-- The firmware poisons the pages of a vault in every context's table, and invalidates what is cached of the tables (R322, R352). -/
def State.loseVault (s : State) (v : Nat) : State :=
  let s := s.ctxs.foldl (fun (s : State) e =>
    if e.1 = 0 ∨ e.2.state ≠ .live then s else s.poisonPages v 4 e.2.rcd.ptroot) s
  { s with xlat := [], cores := tmapv s.cores fun k => { k with tlb := [] } }

/-- A lane is lost to its port (R352): the port trains anew at a smaller width; with no lane left it is fallow. -/
def State.loseLane (s : State) (n : Nat) : State :=
  let p := s.port (n / 4)
  let p := { p with dead := n % 4 :: p.dead }
  if p.lanes.isEmpty then (s.setPort (n / 4) { p.lost with state := .fallow }).setFallow .port (n / 4)
  else if p.isUp then s.movePort (n / 4) (p.train s.clock)
  else s.setPort (n / 4) p

/-- What making a unit fallow does to the work on it (R350 to R352). -/
def State.quitUnit (s : State) (c : UnitClass) (n : Nat) : State :=
  match c with
  | .core => match execPreemptRequest n s with
    | .next t => t
    | _ => s
  | .slice => s.emptySlice n
  | .vault => s.loseVault n
  | .port => s.setPort n { (s.port n).lost with state := .fallow }
  | .lane => s.loseLane n
  | _ => s

/-- A unit that has no more work on it: a spare takes the number, or the number is left without a unit (R353). -/
def State.replaceUnit (s : State) (c : UnitClass) (n : Nat) : State :=
  if 0 < s.sparesFor c n then s.takeSpare c n else s.setFallow c n

/-- The firmware's number of errors of a unit, of a kind, in the last hours (R349). -/
def State.errCount (s : State) (c : UnitClass) (n : Nat) (k : ErrKind) (hours : Nat) : Nat :=
  (s.errs.filter fun e => decide (e.unit = c) && decide (e.n = n) && decide (e.kind = k) && decide (s.clock < e.time + hours * clocksHour)).length

/-- Whether a unit has reached a threshold (R349). -/
def State.crossed (s : State) (c : UnitClass) (n : Nat) : Bool :=
  match c with
  | .core => decide (3 ≤ s.errCount c n .uncorrectable 24) || decide (1000 < s.errCount c n .corrected 1)
  | .slice => decide (3 ≤ s.errCount c n .uncorrectable 24) || decide (1000 < s.errCount c n .corrected 1)
  | .vault => decide (0 < s.errCount c n .worn 24) || decide (64 ≤ s.errCount c n .poisoned 24)
  | .lane => decide (3 ≤ s.errCount c n .training 1)
  | _ => false

/-- The units that the firmware is to make fallow: those that have reached a threshold, and cores that are to be replaced and have no
block any more (R349, R350). -/
def State.fallowDue (s : State) : List (UnitClass × Nat) :=
  let over_ := (s.errs.map fun e => (e.unit, e.n)).eraseDups.filter fun u =>
    !s.unitFallow u.1 u.2 && !(decide (u.1 = .core) && s.quits.contains u.2) && s.crossed u.1 u.2
  over_ ++ (s.quits.filter fun n => !s.blocks.any fun e => decide (coreOf e.1 = n)).map fun n => (.core, n)

/-- UNIT_FALLOW (R18, R349 to R353). A core is first bound to no more and its blocks are pre-empted; when it has none, a spare takes its
number. A slice is emptied, a vault's pages poisoned, and a lane taken from its port. A number that no spare takes is left without a
unit, and REPLACE is set. -/
def execUnitFallow (c : UnitClass) (n : Nat) (s : State) : Out :=
  if !s.fw.running ∨ unitCount c ≤ n ∨ s.unitFallow c n then .next s
  else match c with
    | .core =>
      if s.quits.contains n then
        .next (if s.blocks.any fun e => decide (coreOf e.1 = n) then s else { s with quits := s.quits.filter fun i => decide (i ≠ n) }.replaceUnit .core n)
      else execPreemptRequest n { s with quits := n :: s.quits, replaceFlag := s.replaceFlag || decide (s.sparesFor .core n = 0) }
    | c => .next ((s.quitUnit c n).replaceUnit c n)

/-- SELF_TEST_PASS (R358): READY is set; a link port is ready in its own states only (R330). -/
def execSelfTestPass (c : UnitClass) (n : Nat) (s : State) : Out :=
  if !s.fw.running ∨ unitCount c ≤ n ∨ s.unitFallow c n ∨ c = .port then .next s else .next (s.readyUp c n)

/-- SELF_TEST_FAIL (R358): a spare takes the number and tests in turn, or the number is fallow. -/
def execSelfTestFail (c : UnitClass) (n : Nat) (s : State) : Out :=
  if !s.fw.running ∨ unitCount c ≤ n ∨ s.unitFallow c n then .next s
  else if 0 < s.sparesFor c n then .next ((s.takeSpare c n).setReady c n false)
  else .next ((s.quitUnit c n).setFallow c n)

/-! ### Reset -/

/-- The package after its rails have settled (R356, R358, R360, log 30): the flash image, the fuses, the spares used and the
fallow units, its place in the system, THERMTRIP, the fallow lanes and host memory are what they were. -/
def State.coldStart (s : State) : State :=
  { State.reset with
    agenda := s.agenda, freeIx := s.freeIx, hostMem := s.hostMem, fallow := s.fallow, spareCores := s.spareCores,
    spareSlices := s.spareSlices, replaceFlag := s.replaceFlag, thermtrip := s.thermtrip, nodeId := s.nodeId,
    ports := (s.ports.filter fun e => !e.2.dead.isEmpty || decide (e.2.state = .fallow)).map fun e =>
      (e.1, { Port.reset with dead := e.2.dead, state := if e.2.state = .fallow then .fallow else .down }),
    fw := { Firmware.reset with image := s.fw.image, imageVer := s.fw.imageVer, minVer := s.fw.minVer } }

/-- The boot ROM: an image that verifies, with a security version at least the fused minimum, runs; any other leaves the
part in recovery (R356). Bring-up writes the package's route table (R332). -/
def State.boot (s : State) : State :=
  let ok := Config.imageAccepted s.fw.image && decide (s.fw.minVer ≤ Config.imageVersion s.fw.image)
  { s with routes := if ok then routeTable s.nodeId else s.routes, fw := { s.fw with running := ok, recovery := !ok, imageVer := Config.imageVersion s.fw.image } }

/-- RESET (R263, R356, R358). The self-tests that follow are events of their own. -/
def execReset (s : State) : Out := .next s.coldStart.boot

/-- PERST (R360): a fundamental reset of the host port, which bring-up follows. -/
def execPerst (s : State) : Out := .next s.coldStart.boot

/-! ### Temperature -/

/-- The package stops (R360). -/
def State.trip (s : State) : State := { s with stopped := true, thermtrip := true, replaceFlag := true }

/-- THERMTRIP (R360): a die is at 115 degrees. -/
def execThermtrip (s : State) : Out := .next s.trip

/-- The stook of a die of the sideband's numbering (log 33). -/
def stookOfDie (die : Nat) : Nat := die / 16

def State.thermalOf (s : State) (stook : Nat) : Option Thermal := s.fw.thermal.find? fun e => decide (e.stook = stook)

/-- Set or remove the thermal cap of a stook. -/
def State.setThermal (s : State) (stook : Nat) (x : Option Thermal) : State :=
  { s with fw := { s.fw with thermal := (s.fw.thermal.filter fun e => decide (e.stook ≠ stook)) ++ x.toList } }

/-- TEMP_REPORT (R360): degrees in sixteenths. Above 105 the stook is capped, first at 256; a cap that was doubling halves
again. At 115 the package stops. -/
def execTempReport (die : Nat) (t : Int) (s : State) : Out :=
  if !s.fw.running ∨ 64 ≤ die then .next s
  else
    let k := stookOfDie die
    let s := { s with fw := { s.fw with temps := tset s.fw.temps die t } }
    if 115 * 16 ≤ t then .next s.trip
    else if 105 * 16 < t then
      .next (match s.thermalOf k with
        | none => s.setThermal k (some ⟨k, 256, false, s.clock⟩)
        | some x => if x.doubling then s.setThermal k (some ⟨k, max 8 (x.cap / 2), false, s.clock⟩) else s)
    else .next s

/-- Whether a die of a stook is at 100 degrees or more. -/
def State.hot (s : State) (stook : Nat) : Bool := s.fw.temps.any fun e => decide (stookOfDie e.1 = stook) && decide (100 * 16 ≤ e.2)

/-- THERMAL_CAP_TIMER (R360): every 10 ms the cap halves while a die is hot, never below 8, else doubles; past 512 it is
removed. -/
def execThermalCapTimer (stook : Nat) (s : State) : Out :=
  match s.thermalOf stook with
  | none => .next s
  | some x =>
    if s.clock < x.since + clocks10ms then .next s
    else if s.hot stook then .next (s.setThermal stook (some ⟨stook, max 8 (x.cap / 2), false, s.clock⟩))
    else .next (s.setThermal stook (if 512 < 2 * x.cap then none else some ⟨stook, 2 * x.cap, true, s.clock⟩))

/-! ### The sideband (R357, R361) -/

/-- What a sideband command returns; none is an error code. -/
def State.replyWith (s : State) (r : Option (List Byte)) : State := { s with fw := { s.fw with reply := r } }

/-- READ_READY (R165, R361): the READY and FALLOW fields. -/
def execReadReady (cls word : Nat) (s : State) : Out :=
  .next (s.replyWith (if cls ≤ 5 ∧ word < 64 then some (toLE 4 (s.readymapReg cls word).toNat) else none))

/-- READ_HEALTH (R165, R361). -/
def execReadHealth (s : State) : Out := .next (s.replyWith (some (toLE 8 s.healthReg.toNat)))

/-- READ_TEMP (R361): a die that has not reported gives no temperature (log 31). -/
def execReadTemp (die : Nat) (s : State) : Out :=
  .next (s.replyWith (if die < 64 then (tget s.fw.temps die).map fun t => toLE 2 (BitVec.ofInt 16 t).toNat else none))

/-- POWER_CAP (R361). -/
def execPowerCap (watts : Nat) (s : State) : Out :=
  if watts < 500 ∨ 2800 < watts then .next (s.replyWith none)
  else .next { s.replyWith (some []) with
    fw := { s.fw with reply := some [], powerCap := if watts = 2800 then none else some (max 8 (512 * watts / 2800)) } }

/-- WATCHDOG of the sideband (R348, R361). -/
def execWatchdogSet (slot ms : Nat) (s : State) : Out :=
  if 1023 < slot ∨ ms < 1 ∨ 60000 < ms then .next (s.replyWith none)
  else .next ((s.modCtx slot fun c => { c with watchdogMs := ms }).replyWith (some []))

/-- CLEAR_TRIP (R360, R361). -/
def execClearTrip (s : State) : Out := .next { s.replyWith (some []) with thermtrip := false }

/-- SPDM (R357). -/
def execSpdm (msg : List Byte) (s : State) : Out := .next (s.replyWith (some (Config.spdmReply msg s.measurements)))

/-- MICROCODE_UPDATE (R357): signed; one that raises VERSION.MINOR only between grids; measurement 3 is extended. -/
def execMicrocodeUpdate (image : List Byte) (s : State) : Out :=
  let m := Config.imageMinor image
  if !s.fw.running ∨ !Config.imageAccepted image ∨ (s.fw.minor < m ∧ (!s.grids.isEmpty ∨ s.kcounts.any fun e => decide (e.2.1 ≠ 0))) then .next s
  else .next { s with fw := { s.fw with
    microcode := s.fw.microcode ++ [Config.sha512 image], minor := max s.fw.minor m } }

/-- SECURITY_VERSION_RAISE (R356): a signed command raises the fused minimum. -/
def execSecurityVersionRaise (v : Nat) (signed : List Byte) (s : State) : Out :=
  .next (if s.fw.running ∧ Config.commandSigned (toLE 4 v ++ signed) ∧ s.fw.minVer ≤ v then
    { s with fw := { s.fw with minVer := v } } else s)

end Sys2Proof.Machine
end

