-- ==== Sys2Proof/Machine/Dispatch.lean ====
section
/-! DEFINITION. One arm per instruction: each calls its meaning. -/

namespace Sys2Proof.Machine

/-- The effect of one instruction or event. -/
def exec (i : Instr) (s : State) : Host.Outcome State Fault Refusal :=
  match i with
  | .nop x0 => Sys2Proof.Machine.execNop x0 s
  | .dictionaryWord x0 x1 x2 x3 x4 => Sys2Proof.Machine.execDictionaryWord x0 x1 x2 x3 x4 s
  | .bra x0 x1 x2 => Sys2Proof.Machine.execBra x0 x1 x2 s
  | .bru x0 x1 x2 x3 x4 x5 x6 => Sys2Proof.Machine.execBru x0 x1 x2 x3 x4 x5 x6 s
  | .brz x0 x1 x2 x3 x4 => Sys2Proof.Machine.execBrz x0 x1 x2 x3 x4 s
  | .loop x0 x1 x2 x3 => Sys2Proof.Machine.execLoop x0 x1 x2 x3 s
  | .call x0 x1 x2 x3 => Sys2Proof.Machine.execCall x0 x1 x2 x3 s
  | .ret x0 x1 => Sys2Proof.Machine.execRet x0 x1 s
  | .split x0 x1 x2 => Sys2Proof.Machine.execSplit x0 x1 x2 s
  | .join x0 x1 => Sys2Proof.Machine.execJoin x0 x1 s
  | .exit x0 => Sys2Proof.Machine.execExit x0 s
  | .yield x0 => Sys2Proof.Machine.execYield x0 s
  | .trap x0 x1 => Sys2Proof.Machine.execTrap x0 x1 s
  | .trapret x0 x1 => Sys2Proof.Machine.execTrapret x0 x1 s
  | .halt x0 => Sys2Proof.Machine.execHalt x0 s
  | .haltRelease x0 x1 => Sys2Proof.Machine.execHaltRelease x0 x1 s
  | .sread x0 x1 x2 => Sys2Proof.Machine.execSread x0 x1 x2 s
  | .swrite x0 x1 => Sys2Proof.Machine.execSwrite x0 x1 s
  | .swriteBankmode x0 => Sys2Proof.Machine.execSwriteBankmode x0 s
  | .swriteColways x0 => Sys2Proof.Machine.execSwriteColways x0 s
  | .swriteVersionbudget x0 => Sys2Proof.Machine.execSwriteVersionbudget x0 s
  | .tlbinv x0 x1 x2 x3 => Sys2Proof.Machine.execTlbinv x0 x1 x2 x3 s
  | .icinv x0 x1 x2 => Sys2Proof.Machine.execIcinv x0 x1 x2 s
  | .kmov x0 x1 => Sys2Proof.Machine.execKmov x0 x1 s
  | .kand x0 x1 x2 => Sys2Proof.Machine.execKand x0 x1 x2 s
  | .kor x0 x1 x2 => Sys2Proof.Machine.execKor x0 x1 x2 s
  | .kxor x0 x1 x2 => Sys2Proof.Machine.execKxor x0 x1 x2 s
  | .kandn x0 x1 x2 => Sys2Proof.Machine.execKandn x0 x1 x2 s
  | .knot x0 x1 => Sys2Proof.Machine.execKnot x0 x1 s
  | .kpop x0 x1 => Sys2Proof.Machine.execKpop x0 x1 s
  | .kfirst x0 x1 => Sys2Proof.Machine.execKfirst x0 x1 s
  | .kset x0 x1 => Sys2Proof.Machine.execKset x0 x1 s
  | .kget x0 x1 x2 => Sys2Proof.Machine.execKget x0 x1 x2 s
  | .ksave x0 x1 => Sys2Proof.Machine.execKsave x0 x1 s
  | .krest x0 x1 => Sys2Proof.Machine.execKrest x0 x1 s
  | .setexec x0 => Sys2Proof.Machine.execSetexec x0 s
  | .sadd x0 x1 x2 => Sys2Proof.Machine.execSadd x0 x1 x2 s
  | .ssub x0 x1 x2 => Sys2Proof.Machine.execSsub x0 x1 x2 s
  | .smul x0 x1 x2 => Sys2Proof.Machine.execSmul x0 x1 x2 s
  | .smulh x0 x1 x2 x3 => Sys2Proof.Machine.execSmulh x0 x1 x2 x3 s
  | .smad x0 x1 x2 x3 => Sys2Proof.Machine.execSmad x0 x1 x2 x3 s
  | .sdiv x0 x1 x2 x3 => Sys2Proof.Machine.execSdiv x0 x1 x2 x3 s
  | .srem x0 x1 x2 x3 => Sys2Proof.Machine.execSrem x0 x1 x2 x3 s
  | .sand x0 x1 x2 => Sys2Proof.Machine.execSand x0 x1 x2 s
  | .sor x0 x1 x2 => Sys2Proof.Machine.execSor x0 x1 x2 s
  | .sxor x0 x1 x2 => Sys2Proof.Machine.execSxor x0 x1 x2 s
  | .sshl x0 x1 x2 => Sys2Proof.Machine.execSshl x0 x1 x2 s
  | .sshr x0 x1 x2 => Sys2Proof.Machine.execSshr x0 x1 x2 s
  | .ssra x0 x1 x2 => Sys2Proof.Machine.execSsra x0 x1 x2 s
  | .smin x0 x1 x2 x3 => Sys2Proof.Machine.execSmin x0 x1 x2 x3 s
  | .smax x0 x1 x2 x3 => Sys2Proof.Machine.execSmax x0 x1 x2 x3 s
  | .scmp x0 x1 x2 x3 x4 => Sys2Proof.Machine.execScmp x0 x1 x2 x3 x4 s
  | .ssel x0 x1 x2 x3 => Sys2Proof.Machine.execSsel x0 x1 x2 x3 s
  | .smov x0 x1 => Sys2Proof.Machine.execSmov x0 x1 s
  | .sbfx x0 x1 x2 x3 x4 => Sys2Proof.Machine.execSbfx x0 x1 x2 x3 x4 s
  | .spopc x0 x1 => Sys2Proof.Machine.execSpopc x0 x1 s
  | .sclz x0 x1 => Sys2Proof.Machine.execSclz x0 x1 s
  | .saddr x0 x1 x2 x3 x4 => Sys2Proof.Machine.execSaddr x0 x1 x2 x3 x4 s
  | .sli x0 x1 => Sys2Proof.Machine.execSli x0 x1 s
  | .vadd x0 => Sys2Proof.Machine.execVadd x0 s
  | .vsub x0 => Sys2Proof.Machine.execVsub x0 s
  | .vmul x0 => Sys2Proof.Machine.execVmul x0 s
  | .vmulh x0 => Sys2Proof.Machine.execVmulh x0 s
  | .vmad x0 => Sys2Proof.Machine.execVmad x0 s
  | .vaddc x0 => Sys2Proof.Machine.execVaddc x0 s
  | .vsubb x0 => Sys2Proof.Machine.execVsubb x0 s
  | .vmin x0 => Sys2Proof.Machine.execVmin x0 s
  | .vmax x0 => Sys2Proof.Machine.execVmax x0 s
  | .vabs x0 => Sys2Proof.Machine.execVabs x0 s
  | .vneg x0 => Sys2Proof.Machine.execVneg x0 s
  | .vsat x0 => Sys2Proof.Machine.execVsat x0 s
  | .vdot4 x0 => Sys2Proof.Machine.execVdot4 x0 s
  | .vclz x0 => Sys2Proof.Machine.execVclz x0 s
  | .vpopc x0 => Sys2Proof.Machine.execVpopc x0 s
  | .vand x0 => Sys2Proof.Machine.execVand x0 s
  | .vor x0 => Sys2Proof.Machine.execVor x0 s
  | .vxor x0 => Sys2Proof.Machine.execVxor x0 s
  | .vnot x0 => Sys2Proof.Machine.execVnot x0 s
  | .vshl x0 => Sys2Proof.Machine.execVshl x0 s
  | .vshr x0 => Sys2Proof.Machine.execVshr x0 s
  | .vsra x0 => Sys2Proof.Machine.execVsra x0 s
  | .vbfx x0 => Sys2Proof.Machine.execVbfx x0 s
  | .vbfi x0 => Sys2Proof.Machine.execVbfi x0 s
  | .vsel x0 x1 x2 x3 x4 x5 => Sys2Proof.Machine.execVsel x0 x1 x2 x3 x4 x5 s
  | .vcmp x0 => Sys2Proof.Machine.execVcmp x0 s
  | .vmov x0 => Sys2Proof.Machine.execVmov x0 s
  | .vli x0 x1 x2 => Sys2Proof.Machine.execVli x0 x1 x2 s
  | .vmovs x0 x1 x2 x3 => Sys2Proof.Machine.execVmovs x0 x1 x2 x3 s
  | .fadd x0 => Sys2Proof.Machine.execFadd x0 s
  | .fsub x0 => Sys2Proof.Machine.execFsub x0 s
  | .fmul x0 => Sys2Proof.Machine.execFmul x0 s
  | .ffma x0 => Sys2Proof.Machine.execFfma x0 s
  | .fmin x0 => Sys2Proof.Machine.execFmin x0 s
  | .fmax x0 => Sys2Proof.Machine.execFmax x0 s
  | .fabs x0 => Sys2Proof.Machine.execFabs x0 s
  | .fneg x0 => Sys2Proof.Machine.execFneg x0 s
  | .fclass x0 => Sys2Proof.Machine.execFclass x0 s
  | .ffloor x0 => Sys2Proof.Machine.execFfloor x0 s
  | .frint x0 => Sys2Proof.Machine.execFrint x0 s
  | .fscale x0 => Sys2Proof.Machine.execFscale x0 s
  | .fcmp x0 => Sys2Proof.Machine.execFcmp x0 s
  | .cvt x0 x1 x2 x3 x4 x5 => Sys2Proof.Machine.execCvt x0 x1 x2 x3 x4 x5 s
  | .pack x0 x1 x2 x3 => Sys2Proof.Machine.execPack x0 x1 x2 x3 s
  | .unpack x0 x1 x2 x3 => Sys2Proof.Machine.execUnpack x0 x1 x2 x3 s
  | .ctag x0 x1 x2 => Sys2Proof.Machine.execCtag x0 x1 x2 s
  | .fdiv x0 => Sys2Proof.Machine.execFdiv x0 s
  | .fsqrt x0 => Sys2Proof.Machine.execFsqrt x0 s
  | .frcp x0 => Sys2Proof.Machine.execFrcp x0 s
  | .frsq x0 => Sys2Proof.Machine.execFrsq x0 s
  | .fexp2 x0 => Sys2Proof.Machine.execFexp2 x0 s
  | .flog2 x0 => Sys2Proof.Machine.execFlog2 x0 s
  | .foldset x0 x1 => Sys2Proof.Machine.execFoldset x0 x1 s
  | .refold x0 x1 x2 x3 x4 x5 => Sys2Proof.Machine.execRefold x0 x1 x2 x3 x4 x5 s
  | .pshift x0 => Sys2Proof.Machine.execPshift x0 s
  | .prot x0 => Sys2Proof.Machine.execProt x0 s
  | .pspread x0 => Sys2Proof.Machine.execPspread x0 s
  | .pfold x0 x1 => Sys2Proof.Machine.execPfold x0 x1 s
  | .pscan x0 x1 x2 => Sys2Proof.Machine.execPscan x0 x1 x2 s
  | .pgath x0 x1 => Sys2Proof.Machine.execPgath x0 x1 s
  | .ptrans x0 x1 x2 x3 x4 => Sys2Proof.Machine.execPtrans x0 x1 x2 x3 x4 s
  | .vote x0 x1 x2 x3 x4 x5 x6 => Sys2Proof.Machine.execVote x0 x1 x2 x3 x4 x5 x6 s
  | .regroup x0 x1 => Sys2Proof.Machine.execRegroup x0 x1 s
  | .ld x0 x1 x2 x3 x4 x5 => Sys2Proof.Machine.execLd x0 x1 x2 x3 x4 x5 s
  | .st x0 x1 x2 x3 x4 => Sys2Proof.Machine.execSt x0 x1 x2 x3 x4 s
  | .stCnt x0 x1 x2 x3 x4 x5 x6 => Sys2Proof.Machine.execStCnt x0 x1 x2 x3 x4 x5 x6 s
  | .ldc x0 x1 x2 x3 x4 => Sys2Proof.Machine.execLdc x0 x1 x2 x3 x4 s
  | .pref x0 x1 => Sys2Proof.Machine.execPref x0 x1 s
  | .lds x0 x1 x2 x3 x4 => Sys2Proof.Machine.execLds x0 x1 x2 x3 x4 s
  | .sts x0 x1 x2 x3 => Sys2Proof.Machine.execSts x0 x1 x2 x3 s
  | .pld x0 x1 x2 x3 x4 x5 => Sys2Proof.Machine.execPld x0 x1 x2 x3 x4 x5 s
  | .pst x0 x1 x2 x3 x4 => Sys2Proof.Machine.execPst x0 x1 x2 x3 x4 s
  | .atom x0 x1 x2 x3 x4 x5 x6 x7 => Sys2Proof.Machine.execAtom x0 x1 x2 x3 x4 x5 x6 x7 s
  | .atoms x0 x1 x2 x3 x4 x5 => Sys2Proof.Machine.execAtoms x0 x1 x2 x3 x4 x5 s
  | .fence x0 x1 x2 => Sys2Proof.Machine.execFence x0 x1 x2 s
  | .mmap x0 x1 x2 => Sys2Proof.Machine.execMmap x0 x1 x2 s
  | .mldb x0 x1 x2 x3 x4 x5 => Sys2Proof.Machine.execMldb x0 x1 x2 x3 x4 x5 s
  | .mzero x0 x1 x2 => Sys2Proof.Machine.execMzero x0 x1 x2 s
  | .mldz x0 x1 x2 x3 x4 x5 => Sys2Proof.Machine.execMldz x0 x1 x2 x3 x4 x5 s
  | .mstz x0 x1 x2 x3 x4 x5 => Sys2Proof.Machine.execMstz x0 x1 x2 x3 x4 x5 s
  | .mma x0 x1 x2 x3 x4 x5 x6 => Sys2Proof.Machine.execMma x0 x1 x2 x3 x4 x5 x6 s
  | .mscale x0 x1 x2 x3 x4 x5 x6 => Sys2Proof.Machine.execMscale x0 x1 x2 x3 x4 x5 x6 s
  | .mcommit x0 x1 x2 => Sys2Proof.Machine.execMcommit x0 x1 x2 s
  | .mdiscard x0 x1 x2 => Sys2Proof.Machine.execMdiscard x0 x1 x2 s
  | .specResolve x0 => Sys2Proof.Machine.execSpecResolve x0 s
  | .mcnt x0 x1 x2 x3 x4 x5 x6 => Sys2Proof.Machine.execMcnt x0 x1 x2 x3 x4 x5 x6 s
  | .mmerge x0 x1 => Sys2Proof.Machine.execMmerge x0 x1 s
  | .mdrain x0 x1 x2 x3 => Sys2Proof.Machine.execMdrain x0 x1 x2 x3 s
  | .governorWindow x0 => Sys2Proof.Machine.execGovernorWindow x0 s
  | .cpy x0 x1 => Sys2Proof.Machine.execCpy x0 x1 s
  | .copyChunkPerformed x0 => Sys2Proof.Machine.execCopyChunkPerformed x0 s
  | .commandComplete x0 => Sys2Proof.Machine.execCommandComplete x0 s
  | .gath x0 => Sys2Proof.Machine.execGath x0 s
  | .scat x0 => Sys2Proof.Machine.execScat x0 s
  | .cpyq x0 x1 => Sys2Proof.Machine.execCpyq x0 x1 s
  | .bar => Sys2Proof.Machine.execBar s
  | .barrierCloseDone x0 => Sys2Proof.Machine.execBarrierCloseDone x0 s
  | .barn x0 x1 x2 x3 x4 => Sys2Proof.Machine.execBarn x0 x1 x2 x3 x4 s
  | .gbar x0 x1 x2 => Sys2Proof.Machine.execGbar x0 x1 x2 s
  | .boinit x0 x1 x2 => Sys2Proof.Machine.execBoinit x0 x1 x2 s
  | .boarr x0 x1 x2 x3 => Sys2Proof.Machine.execBoarr x0 x1 x2 x3 s
  | .bowait x0 x1 x2 x3 x4 => Sys2Proof.Machine.execBowait x0 x1 x2 x3 x4 s
  | .countedArrival x0 => Sys2Proof.Machine.execCountedArrival x0 s
  | .waiterPoll x0 => Sys2Proof.Machine.execWaiterPoll x0 s
  | .xsend x0 x1 x2 x3 x4 => Sys2Proof.Machine.execXsend x0 x1 x2 x3 x4 s
  | .messageArrival x0 => Sys2Proof.Machine.execMessageArrival x0 s
  | .sendStatusReturn x0 => Sys2Proof.Machine.execSendStatusReturn x0 s
  | .xpost x0 x1 x2 x3 x4 => Sys2Proof.Machine.execXpost x0 x1 x2 x3 x4 s
  | .xprobe x0 x1 x2 => Sys2Proof.Machine.execXprobe x0 x1 x2 s
  | .xcancel x0 x1 => Sys2Proof.Machine.execXcancel x0 x1 s
  | .coll x0 x1 x2 x3 x4 => Sys2Proof.Machine.execColl x0 x1 x2 x3 x4 s
  | .contributionArrival x0 => Sys2Proof.Machine.execContributionArrival x0 s
  | .collChunkComplete x0 x1 => Sys2Proof.Machine.execCollChunkComplete x0 x1 s
  | .collAbortReceived x0 x1 => Sys2Proof.Machine.execCollAbortReceived x0 x1 s
  | .waitchunk x0 x1 x2 x3 => Sys2Proof.Machine.execWaitchunk x0 x1 x2 x3 s
  | .launch x0 x1 x2 => Sys2Proof.Machine.execLaunch x0 x1 x2 s
  | .qpush x0 x1 x2 => Sys2Proof.Machine.execQpush x0 x1 x2 s
  | .qpop x0 x1 x2 => Sys2Proof.Machine.execQpop x0 x1 x2 s
  | .hostAppend x0 x1 => Sys2Proof.Machine.execHostAppend x0 x1 s
  | .fork x0 x1 x2 => Sys2Proof.Machine.execFork x0 x1 x2 s
  | .streamEnd x0 x1 x2 => Sys2Proof.Machine.execStreamEnd x0 x1 x2 s
  | .rdv x0 => Sys2Proof.Machine.execRdv x0 s
  | .ctxkill x0 x1 => Sys2Proof.Machine.execCtxkill x0 x1 s
  | .killApplied x0 => Sys2Proof.Machine.execKillApplied x0 s
  | .ctxstart x0 x1 x2 => Sys2Proof.Machine.execCtxstart x0 x1 x2 s
  | .startAcknowledged x0 => Sys2Proof.Machine.execStartAcknowledged x0 s
  | .peerAnnounceTimeout x0 x1 => Sys2Proof.Machine.execPeerAnnounceTimeout x0 x1 s
  | .reclaim x0 x1 => Sys2Proof.Machine.execReclaim x0 x1 s
  | .reclaimComplete x0 => Sys2Proof.Machine.execReclaimComplete x0 s
  | .patch x0 x1 => Sys2Proof.Machine.execPatch x0 x1 s
  | .peerRequest x0 => Sys2Proof.Machine.execPeerRequest x0 s
  | .announcement x0 => Sys2Proof.Machine.execAnnouncement x0 s
  | .killPacket x0 => Sys2Proof.Machine.execKillPacket x0 s
  | .responseArrival x0 => Sys2Proof.Machine.execResponseArrival x0 s
  | .ageExpiry x0 => Sys2Proof.Machine.execAgeExpiry x0 s
  | .linkRequestTimeout x0 => Sys2Proof.Machine.execLinkRequestTimeout x0 s
  | .flitReceive x0 x1 => Sys2Proof.Machine.execFlitReceive x0 x1 s
  | .flitReplay x0 => Sys2Proof.Machine.execFlitReplay x0 s
  | .portEnable x0 => Sys2Proof.Machine.execPortEnable x0 s
  | .trainingPass x0 x1 => Sys2Proof.Machine.execTrainingPass x0 x1 s
  | .trainingTimeout x0 => Sys2Proof.Machine.execTrainingTimeout x0 s
  | .replayRateExceeded x0 => Sys2Proof.Machine.execReplayRateExceeded x0 s
  | .retrainDue x0 => Sys2Proof.Machine.execRetrainDue x0 s
  | .laneFail x0 x1 => Sys2Proof.Machine.execLaneFail x0 x1 s
  | .portDisable x0 => Sys2Proof.Machine.execPortDisable x0 s
  | .packetTake => Sys2Proof.Machine.execPacketTake s
  | .blockPlacement => Sys2Proof.Machine.execBlockPlacement s
  | .compaction x0 => Sys2Proof.Machine.execCompaction x0 s
  | .bind x0 x1 => Sys2Proof.Machine.execBind x0 x1 s
  | .activeSetEntry x0 x1 => Sys2Proof.Machine.execActiveSetEntry x0 x1 s
  | .blockExit x0 => Sys2Proof.Machine.execBlockExit x0 s
  | .gridComplete x0 => Sys2Proof.Machine.execGridComplete x0 s
  | .preemptRequest x0 => Sys2Proof.Machine.execPreemptRequest x0 s
  | .watchdog x0 => Sys2Proof.Machine.execWatchdog x0 s
  | .blockRelease x0 => Sys2Proof.Machine.execBlockRelease x0 s
  | .pageWalk x0 x1 x2 x3 x4 => Sys2Proof.Machine.execPageWalk x0 x1 x2 x3 x4 s
  | .faultResult x0 x1 x2 => Sys2Proof.Machine.execFaultResult x0 x1 x2 s
  | .faultForward x0 x1 => Sys2Proof.Machine.execFaultForward x0 x1 s
  | .faultqWrite x0 => Sys2Proof.Machine.execFaultqWrite x0 s
  | .lazyTranslate x0 => Sys2Proof.Machine.execLazyTranslate x0 s
  | .translationComplete x0 => Sys2Proof.Machine.execTranslationComplete x0 s
  | .writeBack x0 x1 => Sys2Proof.Machine.execWriteBack x0 x1 s
  | .verticalWriteLand x0 => Sys2Proof.Machine.execVerticalWriteLand x0 s
  | .hostMemAccess x0 => Sys2Proof.Machine.execHostMemAccess x0 s
  | .hostSnoop x0 => Sys2Proof.Machine.execHostSnoop x0 s
  | .vaultReady x0 => Sys2Proof.Machine.execVaultReady x0 s
  | .reset => Sys2Proof.Machine.execReset s
  | .selfTestPass x0 x1 => Sys2Proof.Machine.execSelfTestPass x0 x1 s
  | .selfTestFail x0 x1 => Sys2Proof.Machine.execSelfTestFail x0 x1 s
  | .unitFallow x0 x1 => Sys2Proof.Machine.execUnitFallow x0 x1 s
  | .tempReport x0 x1 => Sys2Proof.Machine.execTempReport x0 x1 s
  | .thermalCapTimer x0 => Sys2Proof.Machine.execThermalCapTimer x0 s
  | .thermtrip => Sys2Proof.Machine.execThermtrip s
  | .perst => Sys2Proof.Machine.execPerst s
  | .readReady x0 x1 => Sys2Proof.Machine.execReadReady x0 x1 s
  | .readHealth => Sys2Proof.Machine.execReadHealth s
  | .readTemp x0 => Sys2Proof.Machine.execReadTemp x0 s
  | .powerCap x0 => Sys2Proof.Machine.execPowerCap x0 s
  | .watchdogSet x0 x1 => Sys2Proof.Machine.execWatchdogSet x0 x1 s
  | .spdm x0 => Sys2Proof.Machine.execSpdm x0 s
  | .microcodeUpdate x0 => Sys2Proof.Machine.execMicrocodeUpdate x0 s
  | .securityVersionRaise x0 x1 => Sys2Proof.Machine.execSecurityVersionRaise x0 x1 s
  | .matrixStep x0 x1 => Sys2Proof.Machine.execMatrixStep x0 x1 s
  | .longLatencyComplete x0 x1 x2 => Sys2Proof.Machine.execLongLatencyComplete x0 x1 x2 s
  | .reservedEncoding x0 x1 => Sys2Proof.Machine.execReservedEncoding x0 x1 s
  | .clearTrip => Sys2Proof.Machine.execClearTrip s

end Sys2Proof.Machine
end

