-- ==== Sys2Proof/Machine/Turn.lean ====
section
/-! DEFINITION. What happens next: what is due in the package, whose turn it is (R43), the passing of a clock, and the
placing of one instruction where the next step fetches. -/

namespace Sys2Proof.Machine

/-- What memory does of itself (R105, R217, R251, R270, R334): the oldest store of each core and one of its clean copies leave it, a
line of a slice is written back, a write lands from the bus, and requests that are too old are discarded. -/
def State.memoryDue (s : State) : List AgendaItem :=
  let outs := s.cores.flatMap fun e =>
    ((e.2.wq.head?.map fun x => AgendaItem.event (.writeBack e.1 (x.addr / 256))).toList)
      ++ (e.2.cache.head?.map fun x => AgendaItem.event (.writeBack e.1 (x.1 / 4))).toList
  let lines := (s.lines.head?.map fun e => AgendaItem.event (.writeBack fwCore e.1)).toList
  let lands := s.cores.filterMap fun e => if e.2.wq.any fun x => x.bus then some (AgendaItem.event (.verticalWriteLand e.1)) else none
  let old := (s.heldReqs.filter fun h => decide (2000 ≤ h.age s.clock)).map fun h => AgendaItem.event (.ageExpiry h.pk.rid)
  let oldMsgs := (s.msgs.filter fun m => decide (m.srcNode ≠ s.nodeId) && decide (2000 ≤ m.ageNow s.clock)).map fun m =>
    AgendaItem.event (.ageExpiry m.rid)
  outs ++ lines ++ lands ++ old ++ oldMsgs

/-- What a collective may do next at one of its units (R245, R338, R339): an abort that waits, the next step of an open chunk, or, with
no chunk open, its end. -/
def State.collsDue (s : State) : List AgendaItem :=
  s.colls.flatMap fun e =>
    if e.2.openChunks.isEmpty then [AgendaItem.event (.collChunkComplete e.1 0)]
    else e.2.openChunks.map fun c =>
      if s.abortWaits e.2 c then AgendaItem.event (.collAbortReceived e.1 c) else AgendaItem.event (.collChunkComplete e.1 c)

/-- What the firmware has to do (R285, R286, R323, R349, R350, R355, R360). -/
def State.firmwareDue (s : State) : List AgendaItem :=
  let takes := if s.arrivals.isEmpty then [] else [AgendaItem.event .packetTake]
  let places := if s.tobind.isEmpty then [] else [AgendaItem.event .blockPlacement]
  let packs := ((s.blocks.map fun e => coreOf e.1).eraseDups.filter s.compactDue).map fun c => AgendaItem.event (.compaction c)
  let fwds := s.faults.filterMap fun e =>
    if s.forwardDue e.2 then some (AgendaItem.event (.faultForward (e.1 / 256) (e.1 % 256))) else none
  let units := s.fallowDue.map fun u => AgendaItem.event (.unitFallow u.1 u.2)
  let caps := s.fw.thermal.filterMap fun x =>
    if s.clock < x.since + clocks10ms then none else some (AgendaItem.event (.thermalCapTimer x.stook))
  takes ++ places ++ packs ++ fwds ++ units ++ caps

/-- What may happen next of itself: the issuers that can issue, and the events of engines, messages, barrier objects,
memory, firmware, watchdogs and link timers that are due (R43, log 2). -/
def State.due (s : State) : List AgendaItem :=
  let slots := s.blocks.flatMap fun e => e.2.waves.flatMap fun w =>
    (if w.2.active ∧ w.2.s0.status = .run then [AgendaItem.issue (.slot e.1 w.1 0)] else [])
      ++ (if w.2.active ∧ w.2.s1.status = .run then [AgendaItem.issue (.slot e.1 w.1 1)] else [])
  let streams := s.blocks.flatMap fun e => e.2.streams.filterMap fun x =>
    if x.status = .run ∧ !x.exited then some (AgendaItem.issue (.stream e.1 x.eng x.ix)) else none
  let ends := s.blocks.flatMap fun e => e.2.streams.filterMap fun x =>
    if x.exited then some (AgendaItem.event (.streamEnd e.1 x.eng x.ix)) else none
  let exits := s.blocks.filterMap fun e =>
    if e.2.waves.all (fun w => !w.2.live) then some (AgendaItem.event (.blockExit e.1))
    else if e.2.closing then some (AgendaItem.event (.barrierCloseDone e.1)) else none
  let mats := s.blocks.flatMap fun e =>
    (if e.2.mat.queue0.isEmpty then [] else [AgendaItem.event (.matrixStep e.1 0)])
      ++ (if e.2.mat.queue1.isEmpty then [] else [AgendaItem.event (.matrixStep e.1 1)])
      ++ (if e.2.mat.queue2.isEmpty then [] else [AgendaItem.event (.matrixStep e.1 2)])
      ++ (if e.2.mat.queue3.isEmpty then [] else [AgendaItem.event (.matrixStep e.1 3)])
  let specs := s.blocks.flatMap fun e => e.2.streams.filterMap fun x =>
    if x.predicted.isSome then some (AgendaItem.event (.specResolve e.1)) else none
  let cmds := s.cmds.filterMap fun e =>
    if e.2.op = CmdOp.coll then none
    else if e.2.pos < e.2.total then some (AgendaItem.event (.copyChunkPerformed e.1)) else some (AgendaItem.event (.commandComplete e.1))
  let acts := s.cores.flatMap fun e => (List.range 4).filterMap fun p =>
    if (e.2.pend p).isEmpty ∨ 4 ≤ s.activeIn e.1 p then none else some (AgendaItem.event (.activeSetEntry e.1 p))
  let msgs := (List.range s.msgs.length).map fun i => AgendaItem.event (.messageArrival i)
  let sends := s.sends.filterMap fun e => if e.2.status.isSome then some (AgendaItem.event (.sendStatusReturn e.1)) else none
  let cnts := (List.range s.cnts.length).map fun i => AgendaItem.event (.countedArrival i)
  let polls := s.waiters.zipIdx.filterMap fun e =>
    if e.1.pollDue s.clock then some (AgendaItem.event (.waiterPoll e.2)) else none
  let lazies := s.lazies.map fun r =>
    if r.started then AgendaItem.event (.translationComplete r.entry) else AgendaItem.event (.lazyTranslate r.entry)
  let kills := s.ctxs.filterMap fun e =>
    match e.2.state with
    | .killing => some (AgendaItem.event (.killApplied e.1))
    | .starting => some (AgendaItem.event (.startAcknowledged e.1))
    | .reclaiming => some (AgendaItem.event (.reclaimComplete e.1))
    | _ => none
  let binds := s.cores.flatMap fun e => e.2.recs.filterMap fun r =>
    if r.2.valid ∧ s.unbound e.1 r.1 then some (AgendaItem.event (.bind e.1 r.1)) else none
  let ended := s.grids.filterMap fun e =>
    if e.2.exited = e.2.gx * e.2.gy * e.2.gz then some (AgendaItem.event (.gridComplete e.1)) else none
  let dogs := s.blocks.filterMap fun e => if s.expired e.2 then some (AgendaItem.event (.watchdog e.1)) else none
  let lates := s.links.filterMap fun e =>
    if e.2.late ∨ s.clock < e.2.created + clocks3ms ∨ e.2.lane = sendKey ∨ e.2.lane = announceKey then none
    else some (AgendaItem.event (.linkRequestTimeout e.1))
  let lost := s.ctxs.flatMap fun e =>
    if e.2.state = .starting ∧ e.2.startedAt + clocks2ms ≤ s.clock then
      e.2.waitPeers.map fun n => AgendaItem.event (.peerAnnounceTimeout e.1 n) else []
  let ports := s.ports.filterMap fun e =>
    match e.2.state with
    | .training => if e.2.trainStart + clocks100ms ≤ s.clock then some (AgendaItem.event (.trainingTimeout e.1)) else none
    | .degraded _ => if e.2.retrainAt ≤ s.clock then some (AgendaItem.event (.retrainDue e.1)) else none
    | .up _ => if e.2.flits < 1000000 * e.2.replays then some (AgendaItem.event (.replayRateExceeded e.1)) else none
    | _ => none
  slots ++ streams ++ ends ++ exits ++ mats ++ specs ++ cmds ++ acts ++ msgs ++ sends ++ cnts ++ polls ++ s.collsDue
    ++ lazies ++ kills ++ binds ++ ended ++ dogs ++ lates ++ lost ++ ports ++ s.memoryDue ++ s.firmwareDue

/-- Whether an event reaches a stopped package: its management block and its resets do (R360, R361). -/
def whileStopped : Instr → Bool
  | .reset => true
  | .perst => true
  | .readReady _ _ => true
  | .readHealth => true
  | .readTemp _ => true
  | .powerCap _ => true
  | .watchdogSet _ _ => true
  | .spdm _ => true
  | .clearTrip => true
  | _ => false

/-- In a stopped package nothing issues and no clock passes (R360). -/
def stoppedItem (x : AgendaItem) : AgendaItem :=
  match x with
  | .event i => if whileStopped i then x else .elapse 0
  | _ => .elapse 0

/-- The order in which what is due is served: what was due before and is still, the oldest first, then what has become due; so
everything that stays due is served (R43, log 2). -/
def State.turns (s : State) : List AgendaItem :=
  let l := s.due
  (s.queue.filter fun x => l.contains x) ++ l.filter fun x => !s.queue.contains x

/-- Take what happens next: the head of the agenda, else the head of what is due (log 2). -/
def State.pick (s : State) : State × AgendaItem :=
  match s.agenda with
  | x :: t => ({ s with agenda := t }, if s.stopped then stoppedItem x else x)
  | [] =>
    if s.stopped then (s, .elapse 0)
    else match s.turns with
      | x :: t => ({ s with queue := t }, x)
      | [] => (s, .elapse 0)

/-- The beginning of a step: a clock passes, receives that hold a message and headers of failed kernels are looked at, the scheduler
looks at the waves, and pre-emptions under way go on (R4, R37, R47, R243, R290). -/
def State.tick (s : State) : State :=
  if s.stopped then s else ({ s with clock := s.clock + 1 }.retryPosts.reloads.schedule).preemptions

/-- A stretch of clocks (R4). -/
def State.elapse (s : State) (n : Nat) : State := { s with clock := s.clock + n }

/-! ### One instruction placed where the next step fetches (log 14) -/

/-- A kernel of one wave of 32 lanes and 16 registers, its text of 64 KiB at physical address 0x10000, no table, no handler. -/
def fetchKernel : Kernel :=
  { addr := 0, fpxen := 0, column := false, matrix := false, coresident := false, idempotent := false, sigauto := false,
    blockX := 32, blockY := 1, regs := 16, csetmask := 0, shared := 0, intervals := 0, ndict := 0, nfold := 0, nplan := 0,
    nbind := 0, fifos := 0, text := 0x10000, textLen := 0x10000, entry := 0, stubOff := 0, spareOff := 0, handler := 0,
    dict := 0, foldtab := 0, plantab := 0, csets := 0, bindtab := 0, odrax := 0 }

/-- Its bind record in slot 0 of core 0, for context slot 0. -/
def fetchRec : BindRec :=
  { valid := true, restore := false, columnRight := false, matrix := false, tag := ⟨0, 0⟩, blockId := 0, kern := 0, posX := 0,
    posY := 0, posZ := 0, nwaves := 1, win := 2, slowBase := 0, slowLen := 16, shared := 0, scratchBase := 0, matCtx := 0, parts := 0,
    divBase := 0, spillBase := 0, divLen := 0, spillLen := 0, fifoMask := 0, grid := 0 }

/-- Its block, with the wave at its first instruction in the active set (R113, R284). -/
def fetchBlk (now : Nat) : Block :=
  { blockOf fetchRec fetchKernel 0 true now 2000 with
    waves := [(0, { freshWave 0x10000 0xFFFFFFFF 0 0 16 [] [] with active := true })] }

/-- A ready unit of a class. -/
def State.makeReady (s : State) (c : UnitClass) (n : Nat) : State := s.setReady c n true

/-- The bytes of an instruction at the wave's PC, its home slice and vault ready, the block bound, and its slot next on the
agenda. -/
def State.placeWord (s : State) (nbits w : Nat) : State :=
  let pa := 0x10000
  match cellOf pa with
  | none => s
  | some cell =>
    let s := ((s.dramWrite cell (toLE 16 (w % 2 ^ nbits))).makeReady .slice (homeSlice pa)).makeReady .vault (vaultOf cell)
    { s with agenda := [.issue (.slot 0 0 0)], blocks := tset s.blocks 0 (fetchBlk s.clock), stopped := false }

end Sys2Proof.Machine
end

