-- ==== Sys2Proof/Machine/Step.lean ====
section
/-! DEFINITION. One step: a clock passes, the scheduler looks at the waves, and what is next happens: an event, a stretch
of time, or the next instruction of an issuer, fetched, decoded and executed. -/

namespace Sys2Proof.Machine

/-- One issue of an issuer: the instruction at its PC is executed, with what is in flight settled before a trap (R49); translated
code of a tile body does what it stands for (R297). -/
def stepIssue (s : State) (who : Issuer) : Host.Outcome State Fault Refusal :=
  match s.tileFor who with
  | some r => r
  | none => match s.prepare who with
    | .act t => .next (s.settleFor who t)
    | .run t i => match exec i t with
      | .next u => .next (t.settle u)
      | .fault f => .fault f
      | .refused r => .refused r

/-- One step of the package. -/
def step (s : State) : Host.Outcome State Fault Refusal :=
  match s.tick.pick with
  | (s, .event i) => exec i s
  | (s, .elapse n) => .next (s.elapse n)
  | (s, .issue who) => stepIssue s who

/-- The machine with an instruction as the very next that a wave issues (log 14 says how a program comes to run). -/
def State.withFetchWord (s : State) (nbits w : Nat) : State := s.placeWord nbits w

end Sys2Proof.Machine
end

