-- ==== Sys2Proof/Safety.lean ====
section
/-! DEFINITION. What the claims are stated with: an issuer that exists, room in the snapshot store, an instruction that
retires, and what it leaves as it was. -/

namespace Sys2Proof.Machine

/-- The issuing slot exists, and this is how it stands (R22). -/
structure State.Slotted (s : State) (v : View) : Prop where
  cur : s.cur = .slot v.bid v.wid v.k
  view : s.view v.bid v.wid v.k = some v

/-- The issuing stream exists, and this is how it stands (R31). -/
structure State.Streamed (s : State) (b : Nat) (e : Engine) (ix : Nat) (x : Stream) : Prop where
  cur : s.cur = .stream b e ix
  found : ((s.blk b).bind fun y => y.stream e ix) = some x

/-- The issuing party exists. -/
def State.HasIssuer (s : State) : Prop :=
  (∃ v, s.Slotted v) ∨ ∃ b e ix x, s.Streamed b e ix x

/-- The snapshot store of the issuer's core holds what it holds and `n` bytes more, or the block's interval is open
(R343, R344); streams keep none. -/
def State.Room (s : State) (n : Nat) : Prop :=
  ∀ b w k x, s.cur = .slot b w k → s.blk b = some x → x.isOpen = true ∨ s.snapUsed (coreOf b) + n ≤ 0x200000

/-- The signature after an instruction is folded, and after the mask marker when it wrote k0 (R132). -/
def Slot.sigAfter (x : Slot) (ir : IR) (k0 : Option Word32) : BitVec 32 :=
  if x.noFold then x.sig
  else match k0 with
    | none => signFold x.sig ir.word x.k0 x.emask
    | some _ => markFold (signFold x.sig ir.word x.k0 x.emask)

/-- The slot after its instruction retired and goes on at `npc`, with the k0 it wrote: the trap registers, the frame, the
stores held, the pending registers and the replay stay; what is in flight or held counts one younger instruction (R49, R119, R128,
R132). -/
def Slot.after (x : Slot) (ir : IR) (k0 : Option Word32) (npc : Pc) : Slot :=
  { x with
    pc := npc, status := .run, ir := ir, expand := none, answers := [], noFold := false,
    sig := x.sigAfter ir k0, k0 := k0.getD x.k0, emask := k0.getD x.emask,
    flights := x.flights.map fun f => { f with left := f.left - 1, younger := f.younger + 1 },
    held := x.held.map fun f => { f with younger := f.younger + 1 } }

/-- The stream after its instruction retired and goes on at `npc`. -/
def Stream.after (x : Stream) (ir : IR) (npc : Pc) : Stream :=
  { x with pc := npc, status := .run, ir := ir, expand := none, answers := [] }

/-- The issuer's instruction retired and it goes on at `npc`: its private copies or scalars apart, it is as `after` says. -/
def State.Went (s t : State) (k0 : Option Word32) (npc : Pc) : Prop :=
  match s.cur with
  | .slot b w k => ∃ v u, s.view b w k = some v ∧ t.view b w k = some u ∧
      u.sl = { v.sl.after s.ir k0 npc with priv := u.sl.priv }
  | .stream b e ix => ∃ x y, ((s.blk b).bind fun z => z.stream e ix) = some x ∧
      ((t.blk b).bind fun z => z.stream e ix) = some y ∧ y = { x.after s.ir npc with sregs := y.sregs }

/-- The state with the registers of the issuer covered: its own sequencing state, the scalar and mask registers of its
wave, the vector registers of its core with their error marks, and which units its block has copied. -/
def State.covered (s : State) : State :=
  match s.cur with
  | .slot b w k => ((s.modWave b w fun x => { x with sregs := [], kregs := [] }.setSlot k Slot.off).modBlk b fun x =>
      { x with touched := [] }).modCore (coreOf b) fun c => { c with slow := [], fast := [], bad := [], soft := [] }
  | .stream b e ix => (s.modStream b e ix fun x =>
      { x with pc := 0, status := .off, ir := ⟨0, 0, 0, none⟩, expand := none, answers := [], sregs := [] }).modCore (coreOf b)
        fun c => { c with slow := [], fast := [], bad := [], soft := [] }

/-- What an instruction leaves as it was: everything but the issuer's registers; of these every scalar but `sd`, every mask
register from k1 on but `kd`, and every place of the vector file but `vp`; and every byte of memory. -/
structure State.Kept (s t : State) (sd : Option SReg) (kd : Option KNum) (vp : List Nat) : Prop where
  rest : t.covered = s.covered
  scalars : ∀ who n, some n ≠ sd → t.sread who n = s.sread who n
  masks : ∀ b w k v u, s.view b w k = some v → t.view b w k = some u → ∀ n, n ≠ 0 → some n ≠ kd → kread u n = kread v n
  vectors : ∀ c p, (c = coreOf s.cur.block → p ∉ vp) → (t.core c).reg p = (s.core c).reg p
  marks : ∀ c p, p ∈ (t.core c).bad → p ∈ (s.core c).bad
  memory : ∀ cell, t.dramByte cell = s.dramByte cell
  host : ∀ pa, cget 0 t.hostMem pa = cget 0 s.hostMem pa

/-- The canonical form of a memory (keys rising, no zero listed): equal memories are equal data. -/
def Memory.wf (m : Mem) : Bool := cwf 0 m

/-- The canonical form of the lines at the homes: numbers rising, and in each line the offsets of its bytes (R105). -/
def Memory.linesWf (l : Tbl SLine) : Bool := twf l && l.all fun e => twf e.2.data

/-- The memories of the package keep their canonical form. -/
def State.MemWf (s : State) : Prop := Memory.wf s.dram = true ∧ Memory.wf s.hostMem = true ∧ Memory.linesWf s.lines = true

/-! ### Results, on numbers -/

/-- A condition of R147 between two integers. -/
def condHolds (c : Cond) (a b : Int) : Bool :=
  match c with
  | .eq => decide (a = b)
  | .ne => !decide (a = b)
  | .lt => decide (a < b)
  | .le => decide (a < b) || decide (a = b)
  | .gt => decide (b < a)
  | .ge => !decide (a < b)

/-- Source B of a scalar instruction: a register, or the immediate sign-extended (R162). -/
def State.scalarB (s : State) : SSrc → Word64
  | .reg n => s.sread s.cur n
  | .imm x => BitVec.ofInt 64 x.toInt

/-- The number a scalar stands for under the types n64 and s64 (R147). -/
def num (sgn : Bool) (x : Word64) : Int := if sgn then x.toInt else (x.toNat : Int)

/-- A field of `len` bits as an integer, under the types n64 and s64 (R162). -/
def fieldNum (sgn : Bool) (y : Int) (len : Nat) : Int := if sgn = true ∧ 2 ^ len ≤ 2 * y then y - 2 ^ len else y

/-- Destination and result of a scalar instruction that traps on no value, as a number that is taken modulo 2^64 (R162). -/
def scalarRule (s : State) : Instr → Option (SReg × Int)
  | .sadd d a b => some (d, num false (s.sread s.cur a) + num false (s.scalarB b))
  | .ssub d a b => some (d, num false (s.sread s.cur a) - num false (s.scalarB b))
  | .smul d a b => some (d, num false (s.sread s.cur a) * num false (s.scalarB b))
  | .smulh sgn d a b => some (d, num sgn (s.sread s.cur a) * num sgn (s.scalarB b) / 2 ^ 64)
  | .smad d a b c => some (d, num false (s.sread s.cur a) * num false (s.sread s.cur b) + num false (s.sread s.cur c))
  | .sand d a b => some (d, ((s.sread s.cur a).toNat &&& (s.scalarB b).toNat : Nat))
  | .sor d a b => some (d, ((s.sread s.cur a).toNat ||| (s.scalarB b).toNat : Nat))
  | .sxor d a b => some (d, ((s.sread s.cur a).toNat ^^^ (s.scalarB b).toNat : Nat))
  | .sshl d a b => some (d, num false (s.sread s.cur a) * 2 ^ ((s.scalarB b).toNat % 64))
  | .sshr d a b => some (d, num false (s.sread s.cur a) / 2 ^ ((s.scalarB b).toNat % 64))
  | .ssra d a b => some (d, num true (s.sread s.cur a) / 2 ^ ((s.scalarB b).toNat % 64))
  | .smin sgn d a b => some (d, min (num sgn (s.sread s.cur a)) (num sgn (s.scalarB b)))
  | .smax sgn d a b => some (d, max (num sgn (s.sread s.cur a)) (num sgn (s.scalarB b)))
  | .scmp c sgn d a b => some (d, if condHolds c (num sgn (s.sread s.cur a)) (num sgn (s.scalarB b)) then 1 else 0)
  | .ssel d a b c => some (d, if s.sread s.cur c = 0 then num false (s.sread s.cur b) else num false (s.sread s.cur a))
  | .smov d a => some (d, num false (s.sread s.cur a))
  | .sbfx sgn d a pos len => some (d, fieldNum sgn (num false (s.sread s.cur a) / 2 ^ pos.toNat % 2 ^ len.toNat) len.toNat)
  | .spopc d a => some (d, (((List.range 64).filter fun i => (s.sread s.cur a).getLsbD i).length : Nat))
  | .sclz d a => some (d, if s.sread s.cur a = 0 then 64 else 63 - (Nat.log2 (s.sread s.cur a).toNat : Nat))
  | .saddr d a b scale disp => some (d, num false (s.sread s.cur a) + num false (s.sread s.cur b) * 2 ^ scale.toNat + disp.toInt)
  | .sli d x => some (d, num false x)
  | _ => none

/-- An exact integer result fitted to an integer type: clamped with SAT, else wrapped into its range (R53, R174). -/
def fitTo (t : Ty) (sat : Bool) (x : Int) : Int :=
  let h : Int := 2 ^ (t.bits - 1)
  let w : Int := 2 ^ t.bits
  if t.isSigned then (if sat then max (-h) (min (h - 1) x) else (x + h) % w - h)
  else (if sat then max 0 (min (w - 1) x) else x % w)

/-- Leading zero bits of a number of n bits (R178). -/
def leadingZeros (x n : Nat) : Int := if x = 0 then n else (n : Int) - 1 - (Nat.log2 x : Nat)

/-- Set bits of a number of n bits (R178). -/
def setBits (x n : Nat) : Int := (((List.range n).filter fun i => x.testBit i).length : Nat)

/-- What a lane-by-lane instruction names and gives: the registers the window must hold, its predicate, whether the result takes
a pair, its destination, and the result of a lane as an integer of which the low 32 or 64 bits are taken. -/
structure LaneRule where
  regs : List Nat
  p : Pred
  pair : Bool
  d : VNum
  f : Nat → Int

def binRule (o : VBin) (f : Nat → Int) : LaneRule := ⟨o.d.toNat :: vsrcRegs o.a ++ vsrcRegs o.b, o.p, o.ty.pair, o.d, f⟩
def triRule (o : VTri) (pair : Bool) (f : Nat → Int) : LaneRule :=
  ⟨o.d.toNat :: vsrcRegs o.a ++ vsrcRegs o.b ++ vsrcRegs o.c, o.p, pair, o.d, f⟩
def unRule (o : VUn) (pair : Bool) (f : Nat → Int) : LaneRule := ⟨o.d.toNat :: vsrcRegs o.a, o.p, pair, o.d, f⟩

/-- The integer instructions of majors 0x08 to 0x0A, with their exact results (R174 to R181). -/
def intRule (s : State) (v : View) : Instr → Option LaneRule
  | .vadd o => some (binRule o fun l => fitTo o.ty o.sat (s.opInt v o.ty o.a l + s.opInt v o.ty o.b l))
  | .vsub o => some (binRule o fun l => fitTo o.ty o.sat (s.opInt v o.ty o.a l - s.opInt v o.ty o.b l))
  | .vmul o => some (binRule o fun l => fitTo o.ty o.sat (s.opInt v o.ty o.a l * s.opInt v o.ty o.b l))
  | .vmulh o => some (binRule o fun l => s.opInt v o.ty o.a l * s.opInt v o.ty o.b l / 2 ^ o.ty.bits)
  | .vmad o => some (triRule o o.ty.pair fun l =>
      fitTo o.ty o.sat (s.opInt v o.ty o.a l * s.opInt v o.ty o.b l + s.opInt v o.ty o.c l))
  | .vmin o => some (binRule o fun l => min (s.opInt v o.ty o.a l) (s.opInt v o.ty o.b l))
  | .vmax o => some (binRule o fun l => max (s.opInt v o.ty o.a l) (s.opInt v o.ty o.b l))
  | .vabs o => some (unRule o o.ty.pair fun l => fitTo o.ty o.sat (max (s.opInt v o.ty o.a l) (-(s.opInt v o.ty o.a l))))
  | .vneg o => some (unRule o o.ty.pair fun l => fitTo o.ty o.sat (-(s.opInt v o.ty o.a l)))
  | .vsat o => some (binRule o fun l =>
      let a : Int := intOf (if o.ty.pair then .s64 else .s32) (s.opBits v o.ty o.a l)
      let w := max 1 (min o.ty.bits (s.opBits v .n32 o.b l))
      if o.ty.isSigned then max (-2 ^ (w - 1)) (min (2 ^ (w - 1) - 1) a) else max 0 (min (2 ^ w - 1) a))
  | .vdot4 o => some (triRule o false fun l =>
      let p := fun i => intOf o.ty (s.opBits v .b32 o.a l / 2 ^ (8 * i)) * intOf o.ty (s.opBits v .b32 o.b l / 2 ^ (8 * i))
      fitTo .s32 o.sat (s.opInt v .s32 o.c l + p 0 + p 1 + p 2 + p 3))
  | .vclz o => some (unRule o false fun l => leadingZeros (s.opBits v o.ty o.a l) o.ty.bits)
  | .vpopc o => some (unRule o false fun l => setBits (s.opBits v o.ty o.a l) o.ty.bits)
  | .vand o => some (binRule o fun l => (s.opBits v o.ty o.a l &&& s.opBits v o.ty o.b l : Nat))
  | .vor o => some (binRule o fun l => (s.opBits v o.ty o.a l ||| s.opBits v o.ty o.b l : Nat))
  | .vxor o => some (binRule o fun l => (s.opBits v o.ty o.a l ^^^ s.opBits v o.ty o.b l : Nat))
  | .vnot o => some (unRule o o.ty.pair fun l => -1 - (s.opBits v o.ty o.a l : Int))
  | .vshl o => some (binRule o fun l => (s.opBits v o.ty o.a l : Int) * 2 ^ (s.opBits v .n32 o.b l % o.ty.bits))
  | .vshr o => some (binRule o fun l => (s.opBits v o.ty o.a l : Int) / 2 ^ (s.opBits v .n32 o.b l % o.ty.bits))
  | .vsra o => some (binRule o fun l =>
      intOf (if o.ty.pair then .s64 else .s32) (s.opBits v o.ty o.a l) / 2 ^ (s.opBits v .n32 o.b l % o.ty.bits))
  | .vbfx o => some ⟨o.d.toNat :: vsrcRegs o.a, o.p, false, o.d, fun l =>
      fieldNum o.ty.isSigned ((s.opBits v .b32 o.a l : Int) / 2 ^ o.pos.toNat % 2 ^ o.len.toNat) o.len.toNat⟩
  | .vbfi o => some ⟨o.d.toNat :: vsrcRegs o.a, o.p, false, o.d, fun l =>
      let d : Int := s.opBits v .b32 (.vec o.d) l
      d + ((s.opBits v .b32 o.a l : Int) % 2 ^ o.len.toNat - d / 2 ^ o.pos.toNat % 2 ^ o.len.toNat) * 2 ^ o.pos.toNat⟩
  | .vsel p ty d a b kc => some ⟨d.toNat :: vsrcRegs a ++ vsrcRegs b, p, ty.pair, d, fun l =>
      if (kread v kc).getLsbD l then (s.opBits v ty a l : Int) else s.opBits v ty b l⟩
  | .vmov o => some (unRule o o.ty.pair fun l => s.opBits v o.ty o.a l)
  | .vli p d x => some ⟨[d.toNat], p, false, d, fun _ => x.toNat⟩
  | _ => none

/-- A result of lanes: the slot's instruction retires, the lanes of the effective mask of the destination take the low bits of
the result, its other lanes and everything else stay (R169, R172, R173). -/
def State.LanesDone (s t : State) (v : View) (p : Pred) (pair : Bool) (d : VNum) (f : Nat → Int) : Prop :=
  s.Went t none s.ir.succ
  ∧ s.Kept t none none (if pair then [v.w.phys d.toNat, v.w.phys (d + 1).toNat] else [v.w.phys d.toNat])
  ∧ (∀ l, l < 32 → lane (t.vread v.bid v.w d.toNat) l
      = if (effMask v p).getLsbD l then BitVec.ofInt 32 (f l) else lane (s.vread v.bid v.w d.toNat) l)
  ∧ (pair = true → ∀ l, l < 32 → lane (t.vread v.bid v.w (d + 1).toNat) l
      = if (effMask v p).getLsbD l then BitVec.ofInt 32 (f l / 2 ^ 32) else lane (s.vread v.bid v.w (d + 1).toNat) l)

/-- Room for the copies of a result (R343). -/
def State.LaneRoom (s : State) (pair : Bool) : Prop := s.Room (if pair then 256 else 128)

/-- Every register that is named lies in the wave's window (R38). -/
def View.InWindow (v : View) (regs : List Nat) : Prop := ∀ n, n ∈ regs → n < v.w.win

/-- The rounded bits of an exact value, with the exceptions; invalid where the operation has no value (R54, R56, R184). -/
def rounded (t : Ty) (rm : Rm) (y : FVal × Bool) : Nat × Exc :=
  let r := (fmtOf t).round rm y.1
  (r.1, if y.2 then Exc.invalid else r.2)

/-- What a floating-point instruction names and gives: the bits of a lane and the exceptions it raises. -/
structure FloatRule where
  regs : List Nat
  p : Pred
  pair : Bool
  d : VNum
  la : Look
  f : Nat → Nat × Exc

def binFloat (o : VBin) (f : Nat → Nat × Exc) : FloatRule := ⟨o.d.toNat :: vsrcRegs o.a ++ vsrcRegs o.b, o.p, o.ty.pair, o.d, 0, f⟩
def unFloat (o : VUn) (pair : Bool) (f : Nat → Nat × Exc) : FloatRule := ⟨o.d.toNat :: vsrcRegs o.a, o.p, pair, o.d, 0, f⟩

/-- The instructions of majors 0x0C to 0x0E that write a vector register (R184, R185, R188): exact, then rounded once. -/
def floatRule (s : State) (v : View) : Instr → Option FloatRule
  | .fadd o => some (binFloat o fun l => rounded o.ty o.rm ((s.opFlt v o.ty o.a l).add o.rm (s.opFlt v o.ty o.b l)))
  | .fsub o => some (binFloat o fun l => rounded o.ty o.rm ((s.opFlt v o.ty o.a l).add o.rm (s.opFlt v o.ty o.b l).neg))
  | .fmul o => some (binFloat o fun l => rounded o.ty o.rm ((s.opFlt v o.ty o.a l).mul (s.opFlt v o.ty o.b l)))
  | .ffma o => some ⟨o.d.toNat :: vsrcRegs o.a ++ vsrcRegs o.b ++ vsrcRegs o.c, o.p, o.ty.pair, o.d, 0, fun l =>
      rounded o.ty o.rm (FVal.fma o.rm (s.opFlt v o.ty o.a l) (s.opFlt v o.ty o.b l) (s.opFlt v o.ty o.c l))⟩
  | .fmin o => some (binFloat o fun l =>
      (((fmtOf o.ty).round .rn ((s.opFlt v o.ty o.a l).minNum (s.opFlt v o.ty o.b l))).1, Exc.none))
  | .fmax o => some (binFloat o fun l =>
      (((fmtOf o.ty).round .rn ((s.opFlt v o.ty o.a l).maxNum (s.opFlt v o.ty o.b l))).1, Exc.none))
  | .fabs o => some (unFloat o o.ty.pair fun l => (s.opBits v o.ty o.a l % 2 ^ (o.ty.bits - 1), Exc.none))
  | .fneg o => some (unFloat o o.ty.pair fun l => ((s.opBits v o.ty o.a l + 2 ^ (o.ty.bits - 1)) % 2 ^ o.ty.bits, Exc.none))
  | .fclass o => some (unFloat o false fun l => ((fmtOf o.ty).classOf (s.opBits v o.ty o.a l), Exc.none))
  | .ffloor o => some (unFloat o o.ty.pair fun l => (((fmtOf o.ty).round .rn ((s.opFlt v o.ty o.a l).integral .rd).1).1, Exc.none))
  | .frint o => some (unFloat o o.ty.pair fun l => (((fmtOf o.ty).round .rn ((s.opFlt v o.ty o.a l).integral o.rm).1).1, Exc.none))
  | .fscale o => some (binFloat o fun l => (fmtOf o.ty).round o.rm ((s.opFlt v o.ty o.a l).scale (s.opInt v .s32 o.b l)))
  | .cvt p dt st sat d a => some ⟨d.toNat :: vsrcRegs a, p, dt.pair, d, 0, fun l => cvtLane dt st sat (s.opBits v st a l)⟩
  | _ => none

/-- The instructions of major 0x11, rounded to nearest even (R187). -/
def longRule (s : State) (v : View) : Instr → Option FloatRule
  | .fdiv o => some { binFloat o fun l => (fmtOf o.ty).div .rn (s.opFlt v o.ty o.a l) (s.opFlt v o.ty o.b l) with la := o.la }
  | .fsqrt o => some { unFloat o o.ty.pair fun l => (fmtOf o.ty).sqrt (s.opFlt v o.ty o.a l) with la := o.la }
  | .frcp o => some { unFloat o o.ty.pair fun l => (fmtOf o.ty).rcp (s.opFlt v o.ty o.a l) with la := o.la }
  | .frsq o => some { unFloat o o.ty.pair fun l => (fmtOf o.ty).rsq (s.opFlt v o.ty o.a l) with la := o.la }
  | .fexp2 o => some { unFloat o o.ty.pair fun l => (fmtOf o.ty).exp2 (s.opFlt v o.ty o.a l) with la := o.la }
  | .flog2 o => some { unFloat o o.ty.pair fun l => (fmtOf o.ty).log2 (s.opFlt v o.ty o.a l) with la := o.la }
  | _ => none

/-- No lane of the effective mask raises an exception that FPXEN enables (R182). -/
def View.Quiet (v : View) (r : FloatRule) : Prop :=
  ∀ l, l < 32 → (effMask v r.p).getLsbD l = true → (r.f l).2.meets v.b.kern.fpxen = false

/-- What an instruction that writes a mask register lane by lane names and gives (R172, R175, R181, R186). -/
structure MaskRule where
  regs : List Nat
  p : Pred
  kd : KNum
  f : Nat → Bool

/-- VCMP and FCMP (R181, R186). -/
def compareRule (s : State) (v : View) : Instr → Option MaskRule
  | .vcmp o => some ⟨vsrcRegs o.a ++ vsrcRegs o.b, o.p, o.kd, fun l => condHolds o.cond (s.opInt v o.ty o.a l) (s.opInt v o.ty o.b l)⟩
  | .fcmp o => some ⟨vsrcRegs o.a ++ vsrcRegs o.b, o.p, o.kd, fun l => condFloat o.cond (s.opFlt v o.ty o.a l) (s.opFlt v o.ty o.b l)⟩
  | _ => none

/-- The value an instruction writes to a mask register whole (R161). -/
def maskRule (s : State) (v : View) : Instr → Option (KNum × Word32)
  | .kmov d a => some (d, kread v a)
  | .kand d a b => some (d, kread v a &&& kread v b)
  | .kor d a b => some (d, kread v a ||| kread v b)
  | .kxor d a b => some (d, kread v a ^^^ kread v b)
  | .kandn d a b => some (d, kread v a &&& ~~~ kread v b)
  | .knot d a => some (d, ~~~ kread v a)
  | .kset d x => some (d, x)
  | .krest d a => some (d, (s.sread s.cur a).extractLsb' 0 32)
  | _ => none

/-- The scalar that an instruction takes from masks, lanes or containers (R161, R181, R192), as a number. -/
def gatherRule (s : State) (v : View) : Instr → Option (SReg × Int)
  | .kpop d a => some (d, setBits (kread v a).toNat 32)
  | .kfirst d a => some (d, match (List.range 32).find? fun i => (kread v a).getLsbD i with
      | some i => (i : Int)
      | none => 32)
  | .kget d a n => some (d, if (kread v a).getLsbD n.toNat then 1 else 0)
  | .ksave d a => some (d, (kread v a).toNat)
  | .vmovs ty d a n => some (d, s.opBits v ty a n.toNat)
  | _ => none

/-! ### Traps and terminators -/

/-- CAUSE of a precise trap: the code, PRECISE, and the slot that took it (R52). -/
def preciseCause (code k : Nat) : Word64 := BitVec.ofNat 64 (code + 2 ^ 8 + k % 2 * 2 ^ 9)

/-- The slot at the entry of its trap handler: the frame, the handler's address, s zero and the entry mask k0; CAUSE, FAULTPC and
SKID describe the trap; k0, registers and window are unchanged (R48, R52, R158). -/
def Slot.atHandler (x : Slot) (handler : Nat) (cause : Word64) (faultPc resume : Pc) : Slot :=
  { x with
    cause := cause, faultPc := faultPc, skid := 0,
    frame := { resume := resume, k0 := x.k0, sig := x.sig, emask := x.emask, replay := .none, skid := 0 },
    inHandler := true, pc := BitVec.ofNat 57 handler, sig := 0, emask := x.k0,
    status := .run, replay := .none, expand := none, noFold := false }

/-- The issuing slot takes a precise trap into its kernel's handler, and nothing else changes (R48, R158). -/
def State.Traps (s t : State) (v : View) (code : Nat) (resume : Pc) : Prop :=
  t = s.modSlot v.bid v.wid v.k fun x => x.atHandler v.b.kern.handler (preciseCause code v.k) s.ir.pc resume

/-- The slot can enter a handler: its kernel has one, and it is not in it (R158). -/
def View.Handles (v : View) : Prop := v.sl.inHandler = false ∧ v.b.kern.handler ≠ 0

/-- The SIG of a terminator holds: it is written short, or it is the low 24 bits of s after the terminator's own fold (R131,
R132); streams check none. -/
def State.SigHolds (s : State) (t : Term) : Prop :=
  ∀ b w k v sig, s.cur = .slot b w k → s.view b w k = some v → t = some sig → (v.sl.sigAfter s.ir none).extractLsb' 0 24 = sig

/-- The slot at the start of the run that follows a terminator: s has its start value and the entry mask is k0 (R133). -/
def Slot.atRun (x : Slot) (ir : IR) (npc : Pc) (sig : BitVec 32) : Slot := { x.after ir none npc with sig := sig, emask := x.k0 }

/-- The issuer's terminator retired, and the run that follows begins at `npc`: its private copies or scalars apart, the issuer is
as `atRun` says. -/
def State.Began (s t : State) (npc : Pc) (sig : BitVec 32) : Prop :=
  match s.cur with
  | .slot b w k => ∃ v u, s.view b w k = some v ∧ t.view b w k = some u ∧
      u.sl = { v.sl.atRun s.ir npc sig with priv := u.sl.priv }
  | .stream b e ix => ∃ x y, ((s.blk b).bind fun z => z.stream e ix) = some x ∧
      ((t.blk b).bind fun z => z.stream e ix) = some y ∧ y = { x.after s.ir npc with sregs := y.sregs }

/-- Where a branch, a LOOP or a 128-bit NOP goes on, and the scalar it writes (R148, R157). -/
def branchRule (s : State) : Instr → Option (Term × Pc × Option (SReg × Word64))
  | .nop (.w128 sig) => some (some sig, s.ir.succ, none)
  | .bra off _ t => some (t, s.ir.target off, none)
  | .bru c sgn a b off _ t =>
    some (t, if condHolds c (num sgn (s.sread s.cur a)) (num sgn (s.sread s.cur b)) then s.ir.target off else s.ir.succ, none)
  | .loop d off _ t =>
    some (t, if s.sread s.cur d - 1 = 0 then s.ir.succ else s.ir.target off, some (d, s.sread s.cur d - 1))
  | _ => none

/-- The matrix stream awaits a scalar that its branch tests (R35, R218). -/
def State.Predicts (s : State) (i : Instr) : Prop :=
  match s.cur, i with
  | .stream _ .mat _, .bru _ _ a b _ _ _ => a ∈ s.pendingRegs ∨ b ∈ s.pendingRegs
  | .stream _ .mat _, .loop d _ _ _ => d ∈ s.pendingRegs
  | _, _ => False

/-- A listed wave of the issuer's core is eligible: it is live, not halted, has a slot that runs, and its block is not frozen (R37). -/
def State.Waiting (s : State) (v : View) (e : Nat) : Prop :=
  ∃ y, s.view (32 * coreOf v.bid + e / 32) (e % 32) 0 = some y ∧ y.w.live = true ∧ y.w.runnable = true ∧ y.b.frozen = .no

/-! ### System registers -/

/-- A word from its fields: lowest bit, width and value of each (R165). -/
def ofFields (l : List (Nat × Nat × Nat)) : Word64 := BitVec.ofNat 64 ((l.map fun f => f.2.2 % 2 ^ f.2.1 * 2 ^ f.1).sum)

/-- The 16 flags of a unit class from unit 16·word on (R165). -/
def flags16 (m : BitVec 1024) (word : Nat) : Nat :=
  ((List.range 16).map fun i => if m.getLsbD (16 * word + i) then 2 ^ i else 0).sum

/-- The system registers that are the same for every party of a block, by their fields (R165). -/
def blockFields (s : State) (b : Block) (wave : Nat) : SysReg → List (Nat × Nat × Nat)
  | .version => [(16, 8, 3), (8, 8, s.fw.minor), (0, 8, 0)]
  | .health => [(24, 8, s.spareCores.sum), (16, 8, s.spareSlices.sum), (1, 1, if s.thermtrip then 1 else 0),
      (0, 1, if s.replaceFlag then 1 else 0)]
  | .ctxid => [(0, 64, b.tag.slot)]
  | .incarn => [(0, 64, (s.ctx b.tag.slot).inc)]
  | .staledrop => [(0, 64, s.staleDrop)]
  | .waveid => [(0, 64, wave)]
  | .blockid => [(0, 64, b.blockId)]
  | .gridx => [(0, 64, b.posX)]
  | .gridy => [(0, 64, b.posY)]
  | .gridz => [(0, 64, b.posZ)]
  | .versionbudget => [(0, 64, b.versBudget)]
  | _ => []

/-- What a slot reads from a system register (R27, R52, R93, R97, R99, R134, R165). -/
def sysRule (s : State) (v : View) (r : SysReg) : Word64 :=
  let c := s.core (coreOf v.bid)
  match r with
  | .readymap => ofFields [(52, 4, v.w.rmClass), (32, 12, v.w.rmWord), (16, 16, flags16 (cget 0 s.fallow v.w.rmClass) v.w.rmWord),
      (0, 16, flags16 (cget 0 s.ready v.w.rmClass) v.w.rmWord)]
  | .wstatus => ofFields [(8, 24, v.w.dstack.length + v.w.dmem), (3, 1, if v.w.spills = [] then 0 else 1), (2, 1, v.k),
      (1, 1, if v.w.split then 1 else 0), (0, 1, if v.w.uconf then 1 else 0)]
  | .sigreg => ofFields [(32, 32, v.sl.emask.toNat), (0, 32, v.sl.sig.toNat)]
  | .cause => v.sl.cause
  | .faultpc => ofFields [(0, 57, v.sl.faultPc.toNat)]
  | .skid => ofFields [(0, 4, v.sl.skid)]
  | .bankmode => c.bankMode
  | .colways => c.colWays
  | .colstat => match c.colChange with
    | none => 0
    | some x => ofFields [(48, 1, 1), (32, 16, (((List.range 16).filter fun i => (c.linesOut x).any fun e => decide (e.2 = i)).map fun i => 2 ^ i).sum),
        (0, 17, min (c.linesOut x).length 0x1FFFF)]
  | .govbudget => ofFields [(0, 64, c.govBudget)]
  | .govstall => ofFields [(0, 64, match c.govHeld with
      | some t => (c.govStall + (s.clock - t)) % 2 ^ 48
      | none => c.govStall)]
  | r => ofFields (blockFields s v.b v.wid r)

/-- The registers that streams may read (R219). -/
def streamRegs : List SysReg := [.version, .ctxid, .incarn, .waveid, .blockid, .gridx, .gridy, .gridz]

/-- The two-bit field i of a mode register (R93, R97). -/
def modeField (x : Word64) (i : Nat) : Nat := (x.extractLsb' (2 * i) 2).toNat

/-- A cached translation that TLBINV leaves: of another slot, or, where one page goes, of another address (R166, R321). -/
def XEnt.Survives (e : XEnt) (kind : BitVec 2) (va slot : Nat) : Prop :=
  (kind ≤ 1 ∧ e.tag.slot ≠ slot)
  ∨ (kind = 0 ∧ ((e.lvl = none ∧ e.pre / 0x4000 ≠ va / 0x40000000) ∨ ∃ l, e.lvl = some l ∧ e.pre ≠ ptPre va l))

/-! ### Memory -/

/-- Every scalar, mask and vector register is as it was. -/
structure State.RegsKept (s t : State) : Prop where
  scalars : ∀ who n, t.sread who n = s.sread who n
  masks : ∀ b w k v u, s.view b w k = some v → t.view b w k = some u → ∀ n, n ≠ 0 → kread u n = kread v n
  vectors : ∀ c p, (t.core c).reg p = (s.core c).reg p

/-- The slot has nothing in flight, no store held behind a load, and no answer of a peer. -/
structure View.Calm (v : View) : Prop where
  flights : v.sl.flights = []
  held : v.sl.held = []
  answers : v.sl.answers = []

/-- No register of a core and no sector of its stores holds an error (R326, R342). -/
structure State.Clean (s : State) (c : Nat) : Prop where
  regs : (s.core c).bad = [] ∧ (s.core c).soft = []
  stores : (s.core c).storeBad = [] ∧ (s.core c).columnBad = []

/-- A core that caches nothing: no way is a cache way, and every store of it is at its home. -/
structure State.Bare (s : State) (c : Nat) : Prop where
  ways : (s.core c).hasCache = false
  cache : (s.core c).cache = []
  stores : (s.core c).wq = []

/-- A core that holds no copy of memory: its cache ways are empty, and every store of it is at its home. -/
structure State.Empty (s : State) (c : Nat) : Prop where
  cache : (s.core c).cache = []
  stores : (s.core c).wq = []

/-- A block whose stores go straight to their homes: its interval is open, it has no version, no release of the issuer waits for a
peer, and its counted stores are performed (R209, R216, R250, R252). -/
structure State.Direct (s : State) (v : View) : Prop where
  bare : s.Bare (coreOf v.bid)
  opened : v.b.isOpen = true
  vers : v.b.vers = []
  cleans : v.b.vclean = []
  lines : v.b.versLines = []
  sorted : twf s.blocks = true ∧ twf s.cores = true
  acked : s.writesOut s.cur = false
  counted : s.countsOut s.cur = false

/-- The `n` bytes from an address on lead, under a right, to package DRAM from `pa` and `cell` on, at homes that are ready and
without poison, in vaults that read without error (R102, R320, R326, R359). -/
structure State.Lands (s : State) (bid va : Nat) (nd : Need) (pa cell n : Nat) : Prop where
  found : ∀ i, i < n → s.locate bid (va + i) nd = (s, .ok (.dram (pa + i) (cell + i)))
  ready : ∀ i, i < n → s.parks (pa + i) (cell + i) = false
  clean : ∀ i, i < n → s.poisoned (cell + i) 1 = false
  sound : ∀ i, i < n → (cell + i) / 64 ∉ s.vaultBad

/-- The bytes of a byte memory from `lo` on as a number, lowest first (R2). -/
def numberAt (m : Nat → Byte) (lo n : Nat) : Nat := leNat ((List.range n).map fun i => m (lo + i))

/-- Byte i of a number (R2). -/
def byteOf (x i : Nat) : Byte := BitVec.ofNat 8 (x / 2 ^ (8 * i))

/-- A byte memory after the lanes below `j` of a mask wrote `n` bytes each, in ascending order, but for the bytes that `drop` names:
`f` gives what a lane writes, from the number that stood there (R205, R214, R279). -/
def lanesWrite (drop : Nat → Bool) (m : Word32) (at_ : Nat → Nat) (n : Nat) (f : Nat → Nat → Nat) (mem : Nat → Byte) : Nat → Nat → Byte
  | 0 => mem
  | j + 1 =>
    let g := lanesWrite drop m at_ n f mem j
    if m.getLsbD j then fun x => if at_ j ≤ x ∧ x < at_ j + n ∧ drop x = false then byteOf (f j (numberAt g (at_ j) n)) (x - at_ j) else g x else g

/-- A load or a store in flight, as an instruction issues it; an atomic (R203 to R214). -/
def accessRule (s : State) (v : View) : Instr → Option (List Nat × Look × Access)
  | .ld p la ty mo d ad => some (d.toNat :: idxRegs ad.idx, la,
      ⟨.load, false, ty, s.laneReqs v p ad (fun _ => 0) (fun _ => 0), mo.ord, mo.scope, mo.strong, some d, none, none, none, s.ir.pc⟩)
  | .ldc la ty mo d ad => some ([], la,
      ⟨.load, false, ty, [⟨0, (s.uniformEa ad).toNat, 0, 0⟩], mo.ord, mo.scope, mo.strong, none, some d, none, none, s.ir.pc⟩)
  | .lds p la ty d ad => some (d.toNat :: idxRegs ad.idx, la,
      ⟨.load, true, ty, s.laneReqs v p ad (fun _ => 0) (fun _ => 0), .none, .blk, false, some d, none, none, none, s.ir.pc⟩)
  | .atom p la op ty o sc ad f => some (idxRegs ad.idx ++ atomRegs f, la,
      ⟨.atomic op, false, ty, s.laneReqs v p ad (s.atomData v ty f) (s.atomCmp v ty f), o, sc,
        decide (sc = .dev) || decide (sc = .sys), atomDst f, none, atomMask f, none, s.ir.pc⟩)
  | .atoms p la op ty ad f => some (idxRegs ad.idx ++ atomRegs f, la,
      ⟨.atomic op, true, ty, s.laneReqs v p ad (s.atomData v ty f) (s.atomCmp v ty f), .none, .blk, false, atomDst f, none,
        atomMask f, none, s.ir.pc⟩)
  | _ => none

/-- The new value of an atomic (R213), as a number of which the low bits of the type are taken. -/
def atomRule (op : AtomOp) (ty : Ty) (m c d : Nat) : Nat :=
  match op with
  | .add => if ty = .f32 then ((fmtOf .f32).round .rn (((fmtOf .f32).read m).add .rn ((fmtOf .f32).read c)).1).1 else m + c
  | .min => if fieldNum ty.isSigned m ty.bits < fieldNum ty.isSigned c ty.bits then m else c
  | .max => if fieldNum ty.isSigned m ty.bits < fieldNum ty.isSigned c ty.bits then c else m
  | .and => m &&& c
  | .or => m ||| c
  | .xor => m ^^^ c
  | .exch => c
  | .cas => if m = d then c else m

/-- The state after the acquire side on a core that caches nothing: its time passes every lease (R216). -/
def State.acquired (s : State) (c : Nat) (acq : Bool) (sc : Scope) : State :=
  s.modCore c fun k => { k with time := if acq = true ∧ (sc = .dev ∨ sc = .sys) then k.time + 1 else k.time }

/-- Results of an atomic: the old values go to the lanes of its destination, and the success bits to its mask (R172, R214). -/
def State.AtomDone (s t : State) (v : View) (ty : Ty) (m : Word32) (f : AtomForm) (old : Nat → Nat) (cmp : Nat → Nat) : Prop :=
  s.Went t none s.ir.succ
  ∧ (match atomDst f with
    | none => ∀ p, (t.core (coreOf v.bid)).reg p = (s.core (coreOf v.bid)).reg p
    | some d =>
      (∀ l, l < 32 → lane (t.vread v.bid v.w d.toNat) l
        = if m.getLsbD l then BitVec.ofInt 32 (fieldNum ty.isSigned (old l) ty.bits) else lane (s.vread v.bid v.w d.toNat) l)
      ∧ (ty.pair = true → ∀ l, l < 32 → lane (t.vread v.bid v.w (d + 1).toNat) l
        = if m.getLsbD l then BitVec.ofInt 32 ((old l : Int) / 2 ^ 32) else lane (s.vread v.bid v.w (d + 1).toNat) l))
  ∧ ∀ kd, atomMask f = some kd → ∃ u, t.view v.bid v.wid v.k = some u ∧ ∀ l, l < 32 → (kread u kd).getLsbD l
      = if (v.w.domain v.k).getLsbD l then m.getLsbD l && decide (old l = cmp l) else (kread v kd).getLsbD l

/-- The places of the vector file that an atomic writes. -/
def atomPlaces (v : View) (ty : Ty) (f : AtomForm) : List Nat :=
  match atomDst f with
  | none => []
  | some d => if ty.pair then [v.w.phys d.toNat, v.w.phys (d + 1).toNat] else [v.w.phys d.toNat]

/-! ### Planes -/

/-- The element at a position of a plane (R78), from the registers of its waves: `src` gives register r of wave w. -/
def Fold.elemOf (f : Fold) (src : Nat → Nat → VReg) (e : Elt) : Nat :=
  f.get (lane (src (f.place e).2.1 (f.place e).2.2.1) (f.place e).1) (f.place e).2.2.2

/-- A position of the virtual plane (R76). -/
def Fold.has (f : Fold) (e : Elt) : Prop := e.x < f.vx ∧ e.y < f.vy ∧ e.z < f.vz ∧ e.w < f.vw

/-- A reduction of the elements of a row (R196): in any order for integers and bits, by the tree of R196 for floats. -/
def reduceRule (op : RedOp) (t : Ty) (x : Nat → Nat) (n : Nat) : Nat :=
  if t.isFloat then tree (planeOp op t) x 13 0 n
  else match op with
    | .add => ((List.range n).map x).sum % 2 ^ t.bits
    | .min => (List.range n).foldl (fun r i => if fieldNum t.isSigned (x i) t.bits < fieldNum t.isSigned r t.bits then x i else r) (x 0)
    | .max => (List.range n).foldl (fun r i => if fieldNum t.isSigned r t.bits < fieldNum t.isSigned (x i) t.bits then x i else r) (x 0)
    | .and => (List.range n).foldl (fun r i => r &&& x i) (x 0)
    | .or => (List.range n).foldl (fun r i => r ||| x i) 0

/-- A running reduction that starts again where its segment mask says (R196, R197). -/
def scanRule (op : RedOp) (t : Ty) (x : Nat → Nat) (seg : Word32) : Nat → Nat
  | 0 => x 0
  | i + 1 => if i + 1 < 32 ∧ seg.getLsbD (i + 1) = true then x (i + 1) else planeOp op t (scanRule op t x seg i) (x (i + 1))

/-- The element an index of PGATH takes, after the HI fill of the axis; none for a zero (R79, R198). -/
def indexRule (j n fill : Nat) : Option Nat :=
  if j < n then some j
  else if fill = 1 then some (j % n)
  else if fill = 2 then some (n - 1)
  else if fill = 3 then some (if j % (2 * n) < n then j % (2 * n) else 2 * n - 1 - j % (2 * n))
  else none

/-- The computing instructions of R196 to R198: operands, whether their own checks pass, and each element of the result. -/
def calcRule (s : State) (v : View) (f : Fold) (x : Elt → Nat) : Instr → Option (PComp × Bool × (Elt → Nat))
  | .pspread o => some (o, true, fun e => x (e.put o.axis 0))
  | .pfold o op => some (o, !f.ty.isFloat || (decide (op ≠ .and) && decide (op ≠ .or)),
      fun e => if e.at o.axis = 0 then reduceRule op f.ty (fun i => x (e.put o.axis i)) (f.ext o.axis) else 0)
  | .pscan o op k => some (o, (!f.ty.isFloat || (decide (op ≠ .and) && decide (op ≠ .or)))
        && (decide (k = 0) || (decide (o.axis = .x) && decide (f.nx = 1))),
      fun e => scanRule op f.ty (fun i => x (e.put o.axis i)) (if k = 0 then 0 else kread v k) (e.at o.axis))
  | .pgath o ix => some (o, decide (ix.toNat + f.t ≤ v.w.win), fun e =>
      match indexRule (f.elemOf (fun _ r => s.vread v.bid v.w (ix.toNat + r)) e) (f.ext o.axis) (f.hiFill o.axis) with
      | some j => x (e.put o.axis j)
      | none => 0)
  | _ => none

/-- The checks of R193 pass: the wave is not split, the fold is set and valid, TYPE is 0 or the fold's, the plane at each base
lies inside the window. -/
structure View.PlaneOk (v : View) (ty : Ty) (n : FNum) (bases : List Nat) : Prop where
  whole : v.w.split = false
  first : v.k = 0
  set : (foldOf (v.w.fold n)).set = true
  valid : (foldOf (v.w.fold n)).ok (v.w.fold n) v.b.kern.blockX v.b.nwaves = true
  width : v.b.kern.blockX ≤ 32
  type : ty = .none ∨ ty = (foldOf (v.w.fold n)).ty
  inside : ∀ a, a ∈ bases → a + (foldOf (v.w.fold n)).t ≤ v.w.win
  window : v.w.win ≤ 128

/-- The registers of wave `wid` from `d` on hold the elements of a plane that lie in it, and zero at pad positions; lanes off the grid
stay (R78, R79). -/
def State.PlaneHeld (s t : State) (bid wid : Nat) (f : Fold) (d : Nat) (val : Elt → Nat) : Prop :=
  ∀ v u, s.view bid wid 0 = some v → t.view bid wid 0 = some u →
    (∀ e, f.has e → (f.place e).2.1 = wid → f.elemOf (fun _ r => t.vread bid u.w (d + r)) e = val e)
    ∧ (∀ gx r sl, gx < f.gx → r < f.t → sl < f.slots → f.elt gx wid r sl = none →
        f.get (lane (t.vread bid u.w (d + r)) gx) sl = 0)
    ∧ ∀ l r, f.gx ≤ l → l < 32 → r < f.t → lane (t.vread bid u.w (d + r)) l = lane (s.vread bid v.w (d + r)) l

/-- A plane instruction of one wave: it retires, its destination holds the plane, and nothing else changes. -/
def State.PlaneDone (s t : State) (v : View) (f : Fold) (d : VNum) (val : Elt → Nat) : Prop :=
  s.Went t none s.ir.succ ∧ s.Kept t none none ((List.range f.t).map fun r => v.w.phys (d.toNat + r))
  ∧ s.PlaneHeld t v.bid v.wid f d.toNat val

/-- What the last step that writes a slot of a lane of the destination puts there (R84, R86), for a wave whose steps pass no row
to another wave: `so` is the depth's first source register, `q` the offset of the destination in its depth. -/
def schedRule (f : Fold) (wid so : Nat) (x : Nat → VReg) (steps : List (BitVec 128)) (gx q sl : Nat) : Nat :=
  match steps.reverse.find? fun w =>
      let st := stepOf w
      (if st.mask.testBit (if st.axisY then wid else gx) then decide (st.dst = q) else !st.permute && decide (st.dst2 = some q))
        && (st.whole || decide (st.dslot = sl)) with
  | some w =>
    let st := stepOf w
    f.get (lane (x (so + st.src)) (if st.permute ∨ st.axisY then gx else (((gx : Int) - st.lanes) % (f.gx : Int)).toNat))
      (if st.whole then sl else st.sslot)
  | none => 0

/-- The instructions that run a schedule entry (R88, R195): type, lookahead, destination, source, the two folds, and what finds the
entry. -/
def moveRule (v : View) : Instr → Option (Ty × Look × VNum × VNum × FNum × FNum × (PEnt → Bool))
  | .pshift o => some (o.ty, o.la, o.d, o.a, o.f, o.f, fun e =>
      decide (e.op = 0) && decide (e.axis = o.axis.code.toNat) && decide (e.dist = o.dist.toInt))
  | .prot o => some (o.ty, o.la, o.d, o.a, o.f, o.f, fun e =>
      decide (e.op = 1) && decide (e.axis = o.axis.code.toNat) && decide (e.dist = o.dist.toInt))
  | .ptrans ty la d a f => some (ty, la, d, a, f, f, fun e => decide (e.op = 3) && decide (e.axis = 0) && decide (e.arg = 0))
  | .refold ty la d a fs ft => some (ty, la, d, a, fs, ft, fun e =>
      decide (e.op = 2) && decide (e.axis = 0) && decide (e.arg = (foldOf (v.w.fold ft)).ix))
  | _ => none

/-- The byte offset of an element in the dense image of a plane (R212). -/
def Fold.imageAt (f : Fold) (e : Elt) : Nat := f.ty.bytes * (e.x + f.vx * (e.y + f.vy * (e.z + f.vz * e.w)))

/-! ### Votes, groups, barriers -/

/-- The value of a vote over the lanes that count, in order (R200). -/
def voteRule (op : RedOp) (t : Ty) (l : List Nat) (x : Nat → Int) : Int :=
  match op with
  | .add => fitTo t false (l.map x).sum
  | .min => l.foldl (fun r i => min r (x i)) (if t.isSigned then 2 ^ 31 - 1 else 2 ^ 32 - 1)
  | .max => l.foldl (fun r i => max r (x i)) (if t.isSigned then -2 ^ 31 else 0)
  | .and => (l.foldl (fun r i => r &&& (x i).toNat) (2 ^ 32 - 1) : Nat)
  | .or => (l.foldl (fun r i => r ||| (x i).toNat) 0 : Nat)

/-- The slot is alone in its wave: the other slot is not live (R45). -/
def View.Alone (v : View) : Prop := v.k = 0 ∧ v.w.split = false ∧ v.w.s1.live = false

/-- The block of the issuer, its interval open, with nothing cached by its core and no version (R252). -/
structure State.DirectIn (s : State) (bid : Nat) (b : Block) : Prop where
  blk : s.blk bid = some b
  cur : s.cur.block = bid
  bare : s.Bare (coreOf bid)
  opened : b.isOpen = true
  vers : b.vers = []
  cleans : b.vclean = []
  lines : b.versLines = []
  sorted : twf s.blocks = true ∧ twf s.cores = true
  acked : s.writesOut s.cur = false
  counted : s.countsOut s.cur = false

/-- A barrier object of package memory at an address: its home is ready and without poison, its vault reads without error,
and its words are no APPEND (R240, R279, R311). -/
structure State.ObjAt (s : State) (bid va : Nat) (nd : Need) (o : Obj) : Prop where
  found : s.findObj bid va nd = (s, .ok o)
  here : o.node = none
  dram : o.key < 2 ^ 48
  clean : s.poisoned o.key 64 = false
  sound : ∀ i, i < 64 → (o.key + i) / 64 ∉ s.vaultBad
  plain : ∀ i, i < 24 → s.onAppend (o.key + i) = false

/-- The COUNT of a barrier object of package memory (R240). -/
def State.countAt (s : State) (key : Nat) : Nat := numberAt s.dramByte key 8

/-- Package memory is as it was but for the COUNT of an object (R240). -/
def State.CountIs (s t : State) (key n : Nat) : Prop :=
  ∀ c, t.dramByte c = if key ≤ c ∧ c < key + 8 then byteOf n (c - key) else s.dramByte c

/-! ### The matrix array -/

/-- A matrix stream of a block, with no product left on the stream `str` that its instruction names, and its governor lets an issue of
this cost pass (R34, R224, R287); `room` is what the copies of its result take (R343). -/
structure State.MatReady (s : State) (b ix : Nat) (x : Stream) (y : Block) (str : BitVec 2) (cost room : Nat) : Prop where
  stream : s.Streamed b .mat ix x
  blk : s.blk b = some y
  idle : y.mat.queue str.toNat = []
  pass : (s.govern (coreOf b) (4 * b + str.toNat) cost).2 = true
  copies : y.isOpen = true ∨ s.snapUsed (coreOf b) + room ≤ 0x200000

/-- The stream's instruction retired, its issue is charged, and apart from the matrix context, the column store and scratch of the
block, which `z` tells, nothing changed. -/
def State.MatDone (s t : State) (b : Nat) (str : BitVec 2) (cost : Nat) (z : Block) : Prop :=
  s.Went t none s.ir.succ ∧ t.blk b = some z
  ∧ (((s.govern (coreOf b) (4 * b + str.toNat) cost).1.modBlk b fun q => { q with mat := z.mat, touched := z.touched }).modCore (coreOf b) fun k =>
      { k with store := (t.core (coreOf b)).store, column := (t.core (coreOf b)).column, storeBad := (t.core (coreOf b)).storeBad,
               columnBad := (t.core (coreOf b)).columnBad }).Kept t none none []

/-- The core's scratch and column bytes are as they were. -/
def State.StoresKept (s t : State) (c : Nat) : Prop :=
  (∀ a, cget 0 (t.core c).store a = cget 0 (s.core c).store a) ∧ ∀ a, cget 0 (t.core c).column a = cget 0 (s.core c).column a

/-- Only the tiles of the list, or shadows with `spec`, are other than they were; each has the cells that `f` gives. -/
def Mat.TilesAre (m n : Mat) (spec : Bool) (zs : List Nat) (f : Nat → Nat → Nat → Word32) : Prop :=
  n = { m with z := n.z, zs := n.zs }
  ∧ (∀ sp z, ¬(sp = spec ∧ z ∈ zs) → n.tile sp z = m.tile sp z)
  ∧ ∀ z i j, z ∈ zs → i < 32 → j < 32 → tileCell (n.tile spec z) i j = f z i j

/-- A scratch byte of a block (R210). -/
def State.scrAt (s : State) (bid : Nat) (b : Block) (a : Nat) : Byte := cget 0 (s.core (coreOf bid)).store (b.scratchBase + a)

/-- One step of a product for one cell (R65, R66): exact products and sum, and one rounding. -/
def stepRule (t : Ty) (acc : Nat) (a b : List FVal) : Nat :=
  match t with
  | .s8 => (((acc : Int) + ((a.zip b).map fun (e : FVal × FVal) => e.1.toIntExact * e.2.toIntExact).sum) % 2 ^ 32).toNat
  | .f64 => (rounded .f64 .rn (FVal.fma .rn (a.headD .nan) (b.headD .nan) ((fmtOf .f64).read acc))).1
  | .f32 => (rounded .f32 .rn (FVal.fma .rn (a.headD .nan) (b.headD .nan) ((fmtOf .f32).read acc))).1
  | _ => (rounded .f32 .rn (((fmtOf .f32).read acc).add .rn (dotExact a b))).1

/-- The counter of a class at a cell of a bank (R68). -/
def Mat.count (m : Mat) (k i j c : Nat) : Nat := cget 0 (cget [] (cget [] m.bank k) (32 * i + j)) c

/-- The tables of the counters list each key once, and classes below 64 (R68). -/
def Mat.CountsOk (m : Mat) : Prop :=
  ∀ k, twf (cget [] m.bank k) = true
    ∧ ∀ n, twf (cget [] (cget [] m.bank k) n) = true ∧ ∀ e, e ∈ cget [] (cget [] m.bank k) n → e.1 < 64

/-- How many of the 30 products of a cell fall into a class at a step (R69, R72). -/
def classHits (t : Option TableSet) (a b : List Nat) (c : Nat) : Nat :=
  ((List.range 30).filter fun e => decide (TableSet.classOf t ((a[e]?).getD 0) ((b[e]?).getD 0) = some c)).length

/-- The sum that a cell's counts stand for, in units of 2^E (R74). -/
def Mat.cellTotal (m : Mat) (t : Option TableSet) (k i j : Nat) : Int :=
  ((List.range 64).map fun c => (m.count k i j c : Int) * TableSet.valueOf t c).sum

/-- The allowance of a governor window (R287). -/
def allowance (cap prev : Nat) : Nat := min (max cap 8) (prev + max (max cap 8 / 4) 8)

/-! ### Containers -/

/-- Container q of a source: lanes 4q to 4q+3, lowest first (R189). -/
def State.containerAt (s : State) (v : View) (a : VSrc) (q : Nat) : Nat :=
  ((List.range 4).map fun j => s.opBits v .b32 a (4 * q + j) * 2 ^ (32 * j)).sum

/-- The instructions of R189: the registers that the window must hold. -/
def contRule : Instr → Option (List Nat)
  | .pack _ d a _ => some (d.toNat :: vsrcRegs a)
  | .unpack _ d a _ => some (d.toNat :: vsrcRegs a)
  | .ctag _ _ a => some (vsrcRegs a)
  | _ => none

/-! ### Copies, and what events leave as it was -/

/-- Every byte of memory, scratch and column store, and every scalar, mask and vector register is as it was, but for the bytes of
DRAM, of a core's scratch and of the host that are named. -/
structure State.Steady (s t : State) (dram : Nat → Prop) (scr : Nat → Nat → Prop) (host : Nat → Prop) : Prop where
  regs : s.RegsKept t
  memory : ∀ c, ¬ dram c → t.dramByte c = s.dramByte c
  hostMem : ∀ a, ¬ host a → cget 0 t.hostMem a = cget 0 s.hostMem a
  store : ∀ c a, ¬ scr c a → cget 0 (t.core c).store a = cget 0 (s.core c).store a
  column : ∀ c a, cget 0 (t.core c).column a = cget 0 (s.core c).column a

/-- All registers and all bytes of memory, scratch and column store are as they were. -/
def State.Still (s t : State) : Prop := s.Steady t (fun _ => False) (fun _ _ => False) fun _ => False

/-- An issuer whose command finds room: a slot or a copy stream, below 48 commands on its core, a free scoreboard entry where the command
takes scratch, and no destination that is held where its own lies (R115, R219, R232). -/
structure State.CmdRoom (s : State) (y : Block) (dst : Option (Nat × Nat)) (scr : Bool) : Prop where
  issuer : s.HasIssuer
  engine : ∀ b e ix, s.cur = .stream b e ix → e = .copy
  blk : s.blk s.cur.block = some y
  copies : s.Room 0
  few : (s.cmds.filter fun e => decide (e.2.core = coreOf s.cur.block) && decide (e.2.op ≠ .coll)).length < 48
  entries : scr = true → ((y.sb.map fun e => e.cmd).eraseDups).length < 16
  free : ∀ lo n, dst = some (lo, n) → ∀ e, e ∈ y.sb → e.dst = true → lo + n ≤ e.lo ∨ e.lo + e.len ≤ lo

/-- A command was issued: it is listed under a new number with its scratch ranges, and its issuer goes on (R115, R232). -/
def State.CmdIssued (s t : State) (y : Block) (op : CmdOp) (fl : CmdFlags) (scrI : Bool) (total : Nat)
    (ranges : List (Bool × Nat × Nat)) : Prop :=
  s.Went t none s.ir.succ ∧ t.nextId = s.nextId + 1
  ∧ t.cmds = tset s.cmds s.nextId ⟨coreOf s.cur.block, s.cur.block, s.cur, y.tag, op, fl, scrI, 0, total, false, s.ir.pc, none, false,
      [], [], [], []⟩
  ∧ ∃ z, t.blk s.cur.block = some z ∧ z.sb = y.sb ++ ranges.map (fun r => ⟨s.nextId, r.2.1, r.2.2, r.1, 0⟩)
    ∧ (({ s with cmds := t.cmds, nextId := t.nextId }).modBlk s.cur.block fun q => { q with sb := z.sb }).Kept t none none []

/-- A command of a block that is bound and not frozen: it has its acquire behind it, waits for nothing and did not stop (R223). -/
structure State.CmdGoes (s : State) (id : Nat) (c : Cmd) (y : Block) : Prop where
  found : tget s.cmds id = some c
  blk : s.blk c.block = some y
  thawed : y.frozen = .no
  opened : y.isOpen = true
  home : c.core = coreOf c.block
  acquired : c.acquired = true
  asks : c.asks = []
  fault : c.fault = none
  going : c.stopped = false
  powered : s.stopped = false
  bare : s.Bare (coreOf c.block)

/-- Where a chunk that ends at `q` bytes is cut: at the end of the destination's 8-byte word there, or at the end of the source's page,
whichever is first (R232, R233). -/
def wordEnd (d q : Nat) : Nat := q + (8 - (d + q) % 8) % 8
def pageEnd (a q : Nat) : Nat := q + (0x10000 - (a + q) % 0x10000) % 0x10000

/-- The command stands at a new position; a plain copy's destination range is released up to there, rounded to its chunks (R116). -/
def State.CmdAt (s t : State) (id : Nat) (c : Cmd) (y : Block) (n : Nat) : Prop :=
  tget t.cmds id = some { c with pos := n, answers := [] } ∧ (∀ k, k ≠ id → tget t.cmds k = tget s.cmds k)
  ∧ ∃ z, t.blk c.block = some z ∧ z.sb = y.sb.map fun e => if e.cmd = id ∧ e.dst = true ∧ c.op.plain = true
    then { e with released := min e.len (if n < c.total then n / 256 * 256 else 2 ^ 64) } else e

/-! ### Messages -/

/-- A slot of a wave that is not split, or a stream: an engine may fill its scalars. -/
def State.Party (s : State) (who : Issuer) : Prop :=
  match who with
  | .slot b w k => ∃ v, s.view b w k = some v ∧ v.w.split = false
  | .stream b e ix => ∃ x, ((s.blk b).bind fun z => z.stream e ix) = some x

/-- The issuer of a message instruction: a slot or a message stream of a block with an open interval (R219, R344). -/
structure State.MsgReady (s : State) (b : Nat) (y : Block) (d : SReg) : Prop where
  issuer : s.HasIssuer
  engine : ∀ b e ix, s.cur = .stream b e ix → e = .msg
  block : s.DirectIn b y
  room : s.scalarOver d = false

/-- The receive that a handle names: index, generation and core, of the issuer's context (R243); `key` is where the core lists it, a
receive that took a queued message at once apart from the posted ones (R110). -/
structure State.Handle (s : State) (h : Word64) (c ix key : Nat) (p : Post) (t : Tag) : Prop where
  posted : tget (s.core c).posts key = some p
  place : key = ix ∨ (key = 64 + ix + 64 * p.gen ∧ ∀ q, tget (s.core c).posts ix = some q → ¬ (q.gen = p.gen ∧ q.tag = t))
  owner : p.tag = t
  small : ix < 64 ∧ c < 512 ∧ p.gen < 256
  bits : h.toNat = ix + p.gen * 2 ^ 8 + c * 2 ^ 32

/-- A receive takes a message for a context: it is open, its tag and its source agree (R110). -/
def Post.Fits (p : Post) (slot : Nat) (m : Msg) : Prop :=
  p.state = 0 ∧ p.msg = none ∧ p.tag.slot = slot ∧ p.mtag = m.mtag ∧ (p.src = none ∨ p.src = some (m.srcNode, m.srcCore))

/-- The oldest posted receive of a core that takes a message for a context (R110). -/
def Core.Takes (k : Core) (slot : Nat) (m : Msg) (ix : Nat) (p : Post) : Prop :=
  ix < 64 ∧ tget k.posts ix = some p ∧ p.Fits slot m
  ∧ ∀ i q, i < 64 → tget k.posts i = some q → q.Fits slot m → i = ix ∨ p.seq < q.seq

/-- A message of this package that has arrived at a core, the first of those on their way from its core to that one, and whose context is
live: it serves its own context, and a status goes back to its send (R109, R268). -/
structure State.Arrived (s : State) (n : Nat) (m : Msg) (x : Send) : Prop where
  here : s.msgs[n]? = some m
  first : ∀ i e, i < n → s.msgs[i]? = some e → ¬ (e.srcNode = m.srcNode ∧ e.srcCore = m.srcCore ∧ e.dest = m.dest)
  unit : m.dest < 512 ∧ s.unitFallow .core m.dest = false
  own : m.srcNode = s.nodeId
  job : m.job = 0
  live : s.tagLive m.tag = true
  sent : tget s.sends m.send = some x
  short : m.data.length ≤ 64

/-! ### Collectives -/

/-- The `n` bytes that a block reads from a virtual address on, at homes in package DRAM (R102, R320). -/
def State.ReadsAs (s : State) (b va n : Nat) (d : List Byte) : Prop :=
  ∃ pa cell, s.Lands b va ⟨true, false, false⟩ pa cell n ∧ d = (List.range n).map fun i => s.homeByte (some b) (cell + i)

/-- A collective instance whose unit can go on with chunk `c`: its bit is not set, nothing waits for its object, which lies in package
memory, no write of it to a peer is out, and no contribution of another plan stands in its way (R245, R337, R338). -/
structure State.CollHas (s : State) (id c : Nat) (x : Coll) (io : Cmd) (y : Block) : Prop where
  inst : tget s.colls id = some x
  cmd : tget s.cmds id = some io
  ready : s.cmdReady io = true
  same : io.block = x.block
  blk : s.blk x.block = some y
  core : coreOf x.block = x.core
  bare : s.Bare x.core
  opened : y.isOpen = true
  vers : y.vers = [] ∧ y.vclean = [] ∧ y.versLines = []
  sorted : twf s.blocks = true ∧ twf s.cores = true
  acked : s.cmdWritesOut id = false
  count : x.plan.nchunk ≤ 64 ∧ x.plan.chunk % 256 = 0
  chunk : c < x.plan.nchunk
  waits : (x.done ||| x.abort).getLsbD c = false
  near : x.onode = none
  obj : x.obj < 2 ^ 48
  plain : ∀ i, i < 24 → s.onAppend (x.obj + i) = false
  quiet : ∀ w, w ∈ s.waiters → w.cell ≠ x.obj
  agrees : ∀ e, e ∈ s.contribs → e.core = x.core → e.epoch = x.epoch → e.chunk = c → e.planid = x.plan.planid

/-- Every inner node that this rank's unit forms has been formed, and its leaf is sent (R335, R338). -/
def Coll.Spent (x : Coll) (c : Nat) : Prop := c ∈ x.sent ∧ ∀ e, e ∈ x.plan.own x.rank → (c, e.2.2) ∈ x.formed

/-- A plan whose ranks are all cores of this package: no packet of it leaves, and no switch forms a node. -/
def State.PlanHere (s : State) (p : Plan) : Prop := p.sw = false ∧ ∀ r, r ∈ p.ranks → r.1 = s.nodeId

/-- Element e of the bytes of a chunk, of `z` bytes. -/
def chunkElt (z e : Nat) (d : List Byte) : Nat := leNat ((d.drop (z * e)).take z)

/-- The pieces of a chunk's bytes as they reach a core (R328, R337). -/
def piecesTo (x : Coll) (core : Nat) (node : Option (Nat × Nat)) (c : Nat) (d : List Byte) : List Contrib :=
  (chunkPieces d).map fun p => ⟨core, x.plan.planid, x.epoch, node, c, p.1, p.2, false⟩

/-- The bit of a chunk in CHUNKS (R240). -/
def chunkBit (c : Nat) : BitVec 64 := BitVec.ofNat 64 (2 ^ c)

/-! ### Queues and streams -/

/-- A queue of a context at an address: its header in package DRAM, registered and open, with KIND, LOG2, RING, TAIL and HEAD (R276, R277),
as a core that caches nothing finds it. -/
structure State.QueueIs (s : State) (c : Nat) (t : Tag) (va cell kind lg ring tail head : Nat) : Prop where
  found : ∃ pa, s.translate c t va ⟨true, true, false⟩ = (s, .ok (.dram pa cell))
  aligned : va % 256 = 0 ∧ cell % 256 = 0
  plain : ∀ i, i < 256 → (i < 48 ∨ 56 ≤ i) → s.onAppend (cell + i) = false
  kindAt : numberAt s.dramByte cell 1 = kind
  kinds : kind = 1 ∨ kind = 2
  opened : numberAt s.dramByte (cell + 1) 1 ≠ 1
  lgAt : numberAt s.dramByte (cell + 2) 1 = lg
  size : 1 ≤ lg ∧ lg ≤ 20
  ringAt : numberAt s.dramByte (cell + 8) 8 = ring
  ringOk : ring % 128 = 0
  tailAt : numberAt s.dramByte (cell + 16) 8 = tail
  headAt : numberAt s.dramByte (cell + 24) 8 = head
  zero : ∀ i, (3 ≤ i ∧ i < 8) ∨ (64 ≤ i ∧ i < 256) → s.dramByte (cell + i) = 0
  listed : va ∈ (s.ctx t.slot).rcd.queues ∨ (va ≠ 0 ∧ (s.ctx t.slot).rcd.eventq = va)
  live : (s.ctx t.slot).withdrawn = false
  empty : s.Empty c

/-- The instructions that append an entry: status register, queue, entry, and the KIND they ask for (R246). -/
def appendRule : Instr → Option (SReg × SReg × SReg × Nat)
  | .launch d a b => some (d, a, b, 1)
  | .qpush d a b => some (d, a, b, 2)
  | _ => none

/-- Package DRAM after an entry of 128 bytes was put at `slot`, and a header's word `at_` was set; bytes of APPEND stay (R246, R279). -/
def State.EntryPut (s t : State) (slot at_ word : Nat) (e : Nat → Byte) : Prop :=
  ∀ c, t.dramByte c = if at_ ≤ c ∧ c < at_ + 8 then byteOf word (c - at_) else if slot ≤ c ∧ c < slot + 128 ∧ s.onAppend c = false then e (c - slot)
    else s.dramByte c

/-! ### Contexts -/

/-- A privileged slot whose FENCE.ar at .sys, with which its instruction begins, has nothing to wait for (R146, R167). -/
structure State.Governs (s : State) (v : View) (d : SReg) : Prop where
  slot : s.Slotted v
  direct : s.Direct v
  priv : v.b.priv = true
  room : s.scalarOver d = false

/-- The state after that fence: the time of the core passes every lease (R216). -/
def State.fenced (s : State) (v : View) : State := s.acquired (coreOf v.bid) true .sys

/-- A status was written and nothing else happened (R262). -/
def State.Answers (s t : State) (v : View) (d : SReg) (x : Word64) : Prop :=
  s.Went t none s.ir.succ ∧ (s.fenced v).Kept t (some d) none [] ∧ t.sread s.cur d = if d = 0 then 0 else x

/-- A slot of a whole wave that waits for the context table, with the register it fills (R262). -/
structure State.CtxWaits (s : State) (v : View) (slot op : Nat) (d : SReg) : Prop where
  view : s.view v.bid v.wid v.k = some v
  whole : v.w.split = false
  first : v.k < 2
  waits : v.sl.status = .ctxwait slot op d

/-- The waiting slot went on with a status, and every other scalar and every byte of memory is as it was. -/
def State.CtxGoes (s t : State) (v : View) (d : SReg) (x : Word64) : Prop :=
  (∃ u, t.view v.bid v.wid v.k = some u ∧ u.sl = { v.sl.after v.sl.ir none v.sl.ir.succ with priv := u.sl.priv })
  ∧ t.sread (.slot v.bid v.wid v.k) d = (if d = 0 then 0 else x) ∧ (∀ w n, n ≠ d → t.sread w n = s.sread w n)
  ∧ ∀ c, t.dramByte c = s.dramByte c

/-! ### The link -/

/-- A request of a peer that its home takes: addressed to this package, not too old, of a sender whose entry admits it, at an address whose
home is ready and holds back no earlier one (R256, R266, R334, R359). -/
structure State.PeerAsks (s : State) (pk : Packet) (cell : Nat) : Prop where
  here : pk.dest = s.nodeId
  young : pk.age < 2000
  known : tget s.peersInc (pk.src * 1024 + pk.tagSlot) = some (true, pk.tagInc)
  place : cellOf pk.addr = some cell
  ready : s.parks pk.addr cell = false
  first : ∀ q, q ∈ s.heldReqs → homeSlice q.pk.addr ≠ homeSlice pk.addr

/-- An answer for this package, to a request it has under the answer's number and tag, of a context that is live (R256, R268). -/
structure State.Answered (s : State) (pk : Packet) (e : LinkReq) : Prop where
  here : pk.dest = s.nodeId
  young : pk.age < 2000
  asked : tget s.links pk.rid = some e
  tag : e.tag = ⟨pk.tagSlot, pk.tagInc⟩
  live : s.tagLive e.tag = true

/-- The port of a number is in this state, shown in READYMAP, errors of these of its lanes are counted, and nothing else changed (R165,
R330, R349). -/
def State.PortIs (s t : State) (n : Nat) (p : Port) (up : Bool) (fails : List Nat) : Prop :=
  t = { s with ports := t.ports, ready := t.ready, errs := (s.laneFails n fails).errs } ∧ t.port n = p ∧ (∀ m, m ≠ n → t.port m = s.port m)
  ∧ ∀ c k, k < 1024 → (cget 0 t.ready c).getLsbD k = if c = 3 ∧ k = n then up else (cget 0 s.ready c).getLsbD k

/-! ### Grids and blocks -/

/-- The grid that a packet describes (R280). -/
def packetGrid (t : Tag) (k : Kernel) (d : List Byte) : Grid :=
  let f := fun (lo n : Nat) => leNat ((d.drop lo).take n)
  ⟨t, k, f 8 2, f 10 2, f 12 2, f 16 8, f 24 8, f 32 8, f 40 8, [], 0⟩

/-- An event of a packet (R280, R282, R283). -/
def launchEvent (ty qix kern : Nat) : EventRec := ⟨ty, 0, qix, 0, kern, 0, 0, 0, 0⟩

/-- The packet that the firmware takes next: a candidate below every other by deadline, then by arrival; `u` is the state once HEAD has
advanced, and once MISSED counts a packet that is late and event 1 tells of it (R281). -/
structure State.Takes (s u : State) (c : Cand) (d : List Byte) : Prop where
  running : s.fw.running = true
  listed : c ∈ s.candidates
  least : ∀ e, e ∈ s.candidates → e = c ∨ c.d < e.d ∨ (c.d = e.d ∧ c.arrival < e.arrival)
  packet : d = s.headPacket c.tag c.h
  after : let w := { s.dramWrite (c.h.cell + 24) (toLE 8 (c.h.head + 1)) with
      arrivals := s.arrivals.filter fun a => !(decide (a.1 = c.h.cell) && decide (a.2.1 = c.h.head)) }
    u = if s.ns ≤ c.d then w
      else (w.dramWrite (c.h.cell + 40) (toLE 8 (c.h.missed + 1))).postEvent c.tag (launchEvent 1 c.qix (leNat (d.take 8)))

/-- A block whose slots, streams, commands and sends have come to rest; a collective may go on (R47). -/
structure State.Settled (s : State) (b : Nat) (y : Block) : Prop where
  cmds : ∀ e, e ∈ s.cmds → e.2.block = b → e.2.op = .coll
  sends : ∀ e, e ∈ s.sends → e.2.who.block ≠ b
  opened : y.closing = false
  slots : ∀ e, e ∈ y.waves → ∀ x, (x = e.2.s0 ∨ x = e.2.s1) → x.asks = [] ∧ x.status ≠ .reply ∧ ∀ a o d, x.status ≠ .ctxwait a o d
  streams : ∀ x, x ∈ y.streams → x.asks = []

/-! ### Paging -/

/-- Index of an address in the page table of a level (R318). -/
def tableIndex (va : Nat) : Nat → Nat
  | 0 => va / 2 ^ 16 % 2 ^ 5
  | k + 1 => va / 2 ^ (21 + 9 * k) % 2 ^ 9

/-- The part of an address that an entry of a level translates, and the bytes that a leaf there maps, as a power of two (R318). -/
def levelBits : Nat → Nat
  | 0 => 16
  | k + 1 => 21 + 9 * k

/-- The bits of the PFN that must be zero in a leaf of a level (R319). -/
def pfnZeros : Nat → Nat
  | 0 => 0
  | 1 => 5
  | _ => 14

/-- No translation cache holds an entry of a tag that the firmware's walk of core number 512 would use (R321). -/
structure State.Uncached (s : State) (t : Tag) : Prop where
  core : ∀ x, x ∈ (s.core 512).tlb → x.tag ≠ t
  slice : ∀ n l x, tget s.xlat n = some l → x ∈ l → x.tag ≠ t

/-- The entries that a walk of an address reads at their homes, which are ready and without poison, down to a leaf at level `l`, in
tables from `p` on (R318 to R320). -/
structure State.WalksTo (s : State) (va root l : Nat) (p cell : Nat → Nat) (e : Nat → Word64) : Prop where
  root : p 4 = root
  level : l ≤ 2
  places : ∀ k, l ≤ k → k ≤ 4 → cellOf (p k + 8 * tableIndex va k) = some (cell k)
  ready : ∀ k, l ≤ k → k ≤ 4 → s.parks (p k + 8 * tableIndex va k) (cell k) = false ∧ s.poisoned (cell k) 8 = false
  reads : ∀ k, l ≤ k → k ≤ 4 → (e k).toNat = numberAt s.dramByte (cell k) 8
  tables : ∀ k, l < k → k ≤ 4 → (e k).extractLsb' 0 8 = 1 ∧ (e k).extractLsb' 48 16 = 0
    ∧ p (k - 1) = ((e k).extractLsb' 8 40).toNat * 256 ∧ (2 ≤ k → p (k - 1) % 4096 = 0) ∧ (cellOf (p (k - 1))).isSome = true
  leaf : (e l).extractLsb' 0 3 = 3 ∧ (e l).extractLsb' 6 3 = 0 ∧ ((e l).extractLsb' 12 14).toNat % 2 ^ pfnZeros l = 0

/-- A cached entry of a walk: a non-leaf entry, or the leaf, under its level (R321). -/
def walkEnt (t : Tag) (va k : Nat) (e : Word64) : XEnt := ⟨t, some k, va / 2 ^ levelBits k, e, true⟩

/-- A slot parked on a fault entry. -/
structure State.Parked (s : State) (v : View) (stook ix : Nat) : Prop where
  view : s.view v.bid v.wid v.k = some v
  first : v.k < 2
  waits : v.sl.status = .parked stook ix

/-! ### The host and the firmware -/

/-- The firmware runs, no host access waits, and every byte of this one has a cell at a home that is ready, in a vault that reads without
error (R102, R255, R359). -/
structure State.HostOpen (s : State) (pa n : Nat) (cell : Nat → Nat) : Prop where
  running : s.fw.running = true
  first : s.hostHeld = []
  some_ : 0 < n
  place : ∀ i, i < n → cellOf (pa + i) = some (cell i)
  ready : ∀ i, i < n → s.parks (pa + i) (cell i) = false
  sound : ∀ i, i < n → cell i / 64 ∉ s.vaultBad

/-- The sideband answers with these bytes, or with an error code; of the rest of the firmware's state nothing changed but what `f`
says (R361). -/
def State.Replies (s t : State) (r : Option (List Byte)) (f : Firmware → Firmware) : Prop :=
  t = { s with fw := f { s.fw with reply := r } }

/-- READYMAP's flag of a number of a class is as given, and every other is as it was (R165). -/
def FlagSet (s t : Tbl (BitVec 1024)) (c : UnitClass) (n : Nat) (b : Bool) : Prop :=
  ∀ q k, k < 1024 → (cget 0 t q).getLsbD k = if q = unitCode c ∧ k = n then b else (cget 0 s q).getLsbD k

/-- How many errors of a kind, in how many hours, make the firmware take a unit of a class out of use (R349). -/
def errorLimit : UnitClass → ErrKind → Option (Nat × Nat)
  | .core, .uncorrectable => some (3, 24)
  | .slice, .uncorrectable => some (3, 24)
  | .core, .corrected => some (1001, 1)
  | .slice, .corrected => some (1001, 1)
  | .vault, .worn => some (1, 24)
  | .vault, .poisoned => some (64, 24)
  | .lane, .training => some (3, 1)
  | _, _ => none

/-- A number of the firmware's that has its unit. -/
structure State.Unit (s : State) (c : UnitClass) (n : Nat) : Prop where
  running : s.fw.running = true
  inRange : n < unitCount c
  whole : s.unitFallow c n = false

/-! ### Tile bodies and loop bodies -/

/-- The address of an element of a tensor without an owner table: of a packed one, that of its container (R89). -/
def Tensor.elemAddr (t : Tensor) (ix : List Nat) : Int :=
  (t.base : Int) + ((List.range t.rank).map fun (k : Nat) =>
    if t.packed = true ∧ k = 0 then 16 * (((ix[0]?).getD 0 / contE t.ty : Nat) : Int) else (((ix[k]?).getD 0 : Nat) : Int) * (t.stride[k]?).getD 0).sum

/-- The element of a tensor in package DRAM as a block reads it: its bits, or its code in a container that passes its check (R63, R64,
R89). -/
def State.ElemIs (s : State) (b : Nat) (t : Tensor) (ix : List Nat) (x : Nat) : Prop :=
  t.owner = none ∧ ∃ va pa cell y : Nat, (va : Int) = t.elemAddr ix % 2 ^ 64 ∧ s.Lands b va ⟨true, false, false⟩ pa cell t.unit
    ∧ y = numberAt (s.homeByte (some b)) cell t.unit
    ∧ if t.packed = true then contOk t.ty y = true ∧ x = contEl t.ty y ((ix[0]?).getD 0 % contE t.ty) else x = y

/-- The place of an element of a plain tensor that may be written in package DRAM, off the core's own vault in the pinned view. -/
structure State.ElemAt (s : State) (b : Nat) (t : Tensor) (ix : List Nat) (va pa cell : Nat) : Prop where
  plain : t.owner = none ∧ t.packed = false
  addr : (va : Int) = t.elemAddr ix % 2 ^ 64
  lands : s.Lands b va ⟨false, true, false⟩ pa cell t.unit
  far : ∀ i, i < t.unit → isPinned (pa + i) = false ∨ vaultOf (cell + i) ≠ coreOf b
  bare : ∀ i, i < t.unit → s.onAppend (cell + i) = false

/-- A tile operation of a block performed its element: the command stands at the next, the element holds a value, and nothing else
changed. -/
def State.ElemDone (s t : State) (id : Nat) (c : Cmd) (y : Block) (d : Tensor) (cell x : Nat) : Prop :=
  s.CmdAt t id c y (c.pos + 1) ∧ (∀ i, i < d.unit → t.dramByte (cell + i) = byteOf x i)
  ∧ s.Steady t (fun a => cell ≤ a ∧ a < cell + d.unit) (fun _ _ => False) fun _ => False

/-- Elements of K that one step of a product takes (R65). -/
def stepWidth : Ty → Nat
  | .bf16 => 4
  | .f16 => 4
  | .t8 => 15
  | .t6 => 20
  | .s8 => 16
  | _ => 1

/-- A product's cell after all its steps in ascending k (R65, R66, R297). -/
def productRule (t : Ty) (x : Nat) (a b : List FVal) : Nat :=
  (List.range ((a.length + stepWidth t - 1) / stepWidth t)).foldl
    (fun acc r => stepRule t acc ((a.drop (stepWidth t * r)).take (stepWidth t)) ((b.drop (stepWidth t * r)).take (stepWidth t))) x

/-- The exact sum of a counted product, in units of 2^E of its table set (R72 to R74). -/
def countedRule (set : Option TableSet) (n : Nat) (a b : Nat → Nat) : FVal :=
  scaled ((List.range n).map fun k => match TableSet.classOf set (a k) (b k) with
    | some c => TableSet.valueOf set c
    | none => 0).sum ((set.map fun x => x.exp).getD 0)

/-- D + (B × C) × A (R67). -/
def scaleRule (ty : Ty) (d a b c : Nat) : Nat :=
  let r := fmtOf .f32
  let x := if ty = .s32 then FVal.ofInt (intOf .s32 a) else r.read a
  (rounded .f32 .rn (FVal.fma .rn (r.read (rounded .f32 .rn ((r.read b).mul (r.read c))).1) x (r.read d))).1

/-- A command of a tile operation that can perform its next element, of a block without versions. -/
structure State.TileGoes (s : State) (id : Nat) (c : Cmd) (y : Block) (j : TileJob) : Prop where
  goes : s.CmdGoes id c y
  op : c.op = .tile j
  more : c.pos < c.total
  vers : y.vers = [] ∧ y.vclean = [] ∧ y.versLines = []
  sorted : twf s.blocks = true

/-- Loops and ifs nest properly, to a depth (R296). -/
inductive Nested : Nat → List LRec → Prop where
  | nil (d : Nat) : Nested d []
  | ins (d : Nat) (r : LRec) (l : List LRec) (i : Instr) (w : InstrWord) (hi : List Nat) : r.it = .ins i w hi → Nested d l → Nested d (r :: l)
  | loop (d : Nat) (r e : LRec) (n : SReg) (x l : List LRec) : r.it = .loop n → e.it = .endLoop → Nested d x → Nested (d + 1) l →
      Nested (d + 1) (r :: x ++ e :: l)
  | cond (d : Nat) (r e : LRec) (k : KNum) (x l : List LRec) : r.it = .cond k → e.it = .endIf → Nested d x → Nested (d + 1) l →
      Nested (d + 1) (r :: x ++ e :: l)
  | condElse (d : Nat) (r m e : LRec) (k : KNum) (x z l : List LRec) : r.it = .cond k → m.it = .els → e.it = .endIf → Nested d x →
      Nested d z → Nested (d + 1) l → Nested (d + 1) (r :: x ++ m :: z ++ e :: l)

/-- Two registers or pairs are live at one record. -/
def Hull.Meets (h g : Hull) : Prop := h.lo ≤ g.hi ∧ g.lo ≤ h.hi

/-! ### Steps, and the form of the tables -/

/-- A slot that can issue at its PC: its block goes on, its wave is in the active set, nothing of it is in flight, held, pending or to be
done again, no register of its core holds an error, and no patch parks it (R36, R37, R128, R168, R218, R342). -/
structure State.Serves (u : State) (v : View) : Prop where
  powered : u.stopped = false
  slotted : u.Slotted v
  thawed : v.b.frozen = .no
  going : v.w.halted = false
  active : v.w.active = true
  run : v.sl.status = .run
  fresh : v.sl.replay = .none
  stays : v.b.leaving = false
  calm : v.Calm
  pending : v.sl.pending = []
  marks : (u.core (coreOf v.bid)).bad = [] ∧ (u.core (coreOf v.bid)).soft = []
  free : ∀ p, u.patchNow = some p → p.who = .slot v.bid v.wid v.k ∨ p.covers v.b v.sl.pc = false

/-- A stream that can issue at its PC. -/
structure State.Runs (u : State) (b : Nat) (e : Engine) (ix : Nat) (x : Stream) (y : Block) : Prop where
  powered : u.stopped = false
  streamed : u.Streamed b e ix x
  blk : u.blk b = some y
  thawed : y.frozen = .no
  stays : y.leaving = false
  going : x.exited = false
  run : x.status = .run
  fresh : x.replay = .none
  sure : x.predicted = none
  pending : x.pending = []
  free : ∀ p, u.patchNow = some p → p.who = .stream b e ix ∨ p.covers y x.pc = false

/-- A PC of a context is in no code of a tile operation (R297). -/
def State.NoTile (u : State) (t : Tag) (pc : Pc) : Prop := ∀ x, x ∈ u.tiles → x.tag = t → pc.toNat < x.lo ∨ x.lo + x.len ≤ pc.toNat

/-- The word at a PC, of `n` bytes, with the state once its block is in the instruction cache: in the text, outside the stubs, crossing
no 32-byte boundary, a dictionary word where the PC has a code index (R118 to R120, R149, R300). -/
structure State.Fetches (u : State) (kern : Kernel) (pc : Pc) (word : InstrWord) (n : Nat) (t : State) : Prop where
  text : kern.text ≤ pc.toNat / 4 * 4 ∧ pc.toNat / 4 * 4 < kern.text + kern.textLen
  body : kern.inStubs (pc.toNat / 4 * 4) = false
  block : ∃ blk, { u with ir := ⟨0, 8, pc, none⟩ }.fetchBlock (pc.toNat / 4 * 4) ⟨false, false, true⟩ = .block t blk
    ∧ word = wordAt blk (pc.toNat / 4 * 4 % 32)
  size : n = wordBytes word
  fits : pc.toNat / 4 * 4 % 32 + 8 ≤ 32 ∧ pc.toNat / 4 * 4 % 32 + n ≤ 32
  code : pc.toNat % 4 = 0 ∨ (word.extractLsb' 0 2 = 3 ∧ pc.toNat % 4 ≠ 3)

/-- The tables of a wave: the private copies of its slots have rising numbers. -/
def Wave.Rises (w : Wave) : Prop := twf w.s0.priv = true ∧ twf w.s1.priv = true

/-- The tables of a block: its waves and versions have rising keys, also in its snapshot. -/
def Block.Rises (b : Block) : Prop :=
  twf b.vers = true ∧ twf b.waves = true ∧ (∀ e, e ∈ b.waves → e.2.Rises)
  ∧ ∀ n, b.snap = some n → twf n.waves = true ∧ ∀ e, e ∈ n.waves → e.2.Rises

/-- The tables of the package whose order statements rely on have rising keys: the blocks, bound or saved, and what they hold; and the
cores, and the cache and the posted receives of each. -/
structure State.TablesRise (s : State) : Prop where
  blocks : twf s.blocks = true
  bound : ∀ e, e ∈ s.blocks → e.2.Rises
  saved : ∀ y, y ∈ s.saves → y.blk.Rises
  cores : twf s.cores = true ∧ ∀ e, e ∈ s.cores → twf e.2.cache = true ∧ twf e.2.posts = true

end Sys2Proof.Machine
end

