-- ==== Sys2Proof/Certificates/Slice0/Obligations.lean ====
section
/-! DEFINITION. The statements for the provers, from the numbered rules of the specification. -/

open Sys2Proof Sys2Proof.Machine

/-- R162 (its column of effects), R26, R145: every scalar instruction that traps on no value ends with its result in its destination, modulo
2^64, for waves and streams; s0 discards it. Its issuer goes on at the successor; nothing else changes. R26 and R145: while the wave is
split, the seventeenth scalar that a slot writes raises the precise trap ILLEGAL; an earlier one is seen by the writing slot alone. R163:
SDIV and SREM with a divisor that is not zero. The quotient is truncated toward zero and wraps, the remainder takes the sign of the
dividend. -/
def Obligations.ScalarResult : Prop :=
  (∀ (s : State) (i : Instr) (d : SReg) (x : Int), s.HasIssuer → s.Room 0 → scalarRule s i = some (d, x) → s.scalarOver d = false →
    ∃ t, exec i s = .next t ∧ t.sread s.cur d = (if d = 0 then 0 else BitVec.ofInt 64 x) ∧ s.Went t none s.ir.succ
      ∧ s.Kept t (some d) none [])
  ∧ ((∀ (s : State) (v : View) (i : Instr) (d : SReg) (x : Int), s.Slotted v → v.Handles → scalarRule s i = some (d, x) →
    v.w.split = true → d ≠ 0 → tget v.sl.priv d.toNat = none → 16 ≤ v.sl.priv.length →
    ∃ t, exec i s = .next t ∧ s.Traps t v cILLEGAL s.ir.pc)
  ∧ (∀ (s : State) (v : View) (i : Instr) (d : SReg) (x : Int), s.Slotted v → s.Room 0 → scalarRule s i = some (d, x) →
    v.w.split = true → v.k < 2 → v.sl.priv.length < 16 →
    ∃ t, exec i s = .next t ∧ ∀ n, t.sread (.slot v.bid v.wid (1 - v.k)) n = s.sread (.slot v.bid v.wid (1 - v.k)) n))
  ∧ (∀ (s : State) (i : Instr) (sgn : Bool) (d a : SReg) (b : SSrc), s.HasIssuer → s.Room 0 → s.scalarOver d = false →
    s.scalarB b ≠ 0 → (i = .sdiv sgn d a b ∨ i = .srem sgn d a b) →
    ∃ (t : State) (q r : Int), exec i s = .next t
      ∧ num sgn (s.sread s.cur a) = q * num sgn (s.scalarB b) + r ∧ r.natAbs < (num sgn (s.scalarB b)).natAbs
      ∧ (r = 0 ∨ (0 < r ↔ 0 < num sgn (s.sread s.cur a)))
      ∧ t.sread s.cur d = (if d = 0 then 0 else BitVec.ofInt 64 (if i = .sdiv sgn d a b then q else r))
      ∧ s.Went t none s.ir.succ ∧ s.Kept t (some d) none [])

/-- R163 whole: a zero divisor raises the precise trap INTDIV and leaves sD; −2^63 ÷ −1 gives −2^63 and the remainder 0 and does not trap; no
other scalar instruction traps on its values. -/
def Obligations.DivisionTraps : Prop :=
  (∀ (s : State) (v : View) (i : Instr) (sgn : Bool) (d a : SReg) (b : SSrc), s.Slotted v → v.Handles → s.scalarB b = 0 →
    (i = .sdiv sgn d a b ∨ i = .srem sgn d a b) →
    ∃ t, exec i s = .next t ∧ s.Traps t v cINTDIV s.ir.pc ∧ t.sread s.cur d = s.sread s.cur d)
  ∧ (∀ (s : State) (d a : SReg) (b : SSrc), s.HasIssuer → s.Room 0 → s.scalarOver d = false → d ≠ 0 →
    s.sread s.cur a = BitVec.intMin 64 → s.scalarB b = BitVec.allOnes 64 →
    ∃ t u, exec (.sdiv true d a b) s = .next t ∧ t.sread s.cur d = BitVec.intMin 64 ∧ s.Went t none s.ir.succ
      ∧ exec (.srem true d a b) s = .next u ∧ u.sread s.cur d = 0 ∧ s.Went u none s.ir.succ)
  ∧ (∀ (s : State) (i : Instr) (d : SReg) (x : Int), s.HasIssuer → s.Room 0 → scalarRule s i = some (d, x) →
    s.scalarOver d = false → ∃ t, exec i s = .next t ∧ s.Went t none s.ir.succ)

/-- R161 with R28, R132 and R154: a mask instruction gives k1 to k15 its value in the lanes of the slot's domain, and k0 its value within the
present lanes and the domain, with the mask marker. SETEXEC keeps in k0 the lanes whose element is not zero. R161, R181: the scalars that
KPOP, KFIRST, KGET, KSAVE and VMOVS give. -/
def Obligations.MaskResult : Prop :=
  ((∀ (s : State) (v : View) (i : Instr) (d : KNum) (x : Word32), s.Slotted v → s.Room 0 → maskRule s v i = some (d, x) → d ≠ 0 →
    ∃ t u, exec i s = .next t ∧ t.view v.bid v.wid v.k = some u ∧ s.Went t none s.ir.succ ∧ s.Kept t none (some d) []
      ∧ ∀ l, l < 32 → (kread u d).getLsbD l = if (v.w.domain v.k).getLsbD l then x.getLsbD l else (kread v d).getLsbD l)
  ∧ (∀ (s : State) (v : View) (i : Instr) (x : Word32), s.Slotted v → s.Room 0 → maskRule s v i = some (0, x) →
    ∃ t u, exec i s = .next t ∧ t.view v.bid v.wid v.k = some u ∧ kread u 0 = x &&& v.b.present &&& v.w.domain v.k
      ∧ s.Went t (some (kread u 0)) s.ir.succ ∧ s.Kept t none none [])
  ∧ (∀ (s : State) (v : View) (a : VNum), s.Slotted v → s.Room 0 → v.InWindow [a.toNat] →
    ∃ t u, exec (.setexec a) s = .next t ∧ t.view v.bid v.wid v.k = some u
      ∧ (∀ l, l < 32 → (kread u 0).getLsbD l = (v.sl.k0.getLsbD l && decide (lane (s.vread v.bid v.w a.toNat) l ≠ 0)
        && v.b.present.getLsbD l && (v.w.domain v.k).getLsbD l))
      ∧ s.Went t (some (kread u 0)) s.ir.succ ∧ s.Kept t none none []))
  ∧ (∀ (s : State) (v : View) (i : Instr) (d : SReg) (x : Int), s.Slotted v → s.Room 0 → i.wf = true → gatherRule s v i = some (d, x) →
    s.scalarOver d = false → (∀ ty a n, i = .vmovs ty d a n → v.InWindow (vsrcRegs a)) →
    ∃ t, exec i s = .next t ∧ t.sread s.cur d = (if d = 0 then 0 else BitVec.ofInt 64 x) ∧ s.Went t none s.ir.succ
      ∧ s.Kept t (some d) none [])

/-- R169, R172 to R181: the integer, bit, field and move instructions give each lane of the effective mask the exact result, wrapped or
clamped; the other lanes, every other register and all of memory stay. -/
def Obligations.IntegerLanes : Prop :=
  ∀ (s : State) (v : View) (i : Instr) (r : LaneRule), s.Slotted v → i.wf = true → intRule s v i = some r → v.InWindow r.regs →
    s.LaneRoom r.pair → ∃ t, exec i s = .next t ∧ s.LanesDone t v r.p r.pair r.d r.f

/-- R184, R185, R188: the floating-point and conversion instructions, where no lane raises an exception that FPXEN enables. R127, R183, R187:
the functions of major 0x11. With no lookahead, or while FPXEN is not zero, the result is written at once; else the instruction retires
and its result is in flight, to be written when it completes. R182: an exception that FPXEN enables in a lane of the effective mask raises
the precise trap FPX; no lane is written. -/
def Obligations.FloatLanes : Prop :=
  (∀ (s : State) (v : View) (i : Instr) (r : FloatRule), s.Slotted v → i.wf = true → floatRule s v i = some r → v.InWindow r.regs →
    s.LaneRoom r.pair → v.Quiet r → ∃ t, exec i s = .next t ∧ s.LanesDone t v r.p r.pair r.d fun l => ((r.f l).1 : Nat))
  ∧ ((∀ (s : State) (v : View) (i : Instr) (r : FloatRule), s.Slotted v → i.wf = true → longRule s v i = some r → v.InWindow r.regs →
    s.LaneRoom r.pair → v.Quiet r → (r.la = 0 ∨ v.b.kern.fpxen ≠ 0) →
    ∃ t, exec i s = .next t ∧ s.LanesDone t v r.p r.pair r.d fun l => ((r.f l).1 : Nat))
  ∧ (∀ (s : State) (v : View) (i : Instr) (r : FloatRule), s.Slotted v → s.Room 0 → i.wf = true → longRule s v i = some r →
    v.InWindow r.regs → v.b.kern.fpxen = 0 → r.la ≠ 0 →
    ∃ t u fl, exec i s = .next t ∧ t.view v.bid v.wid v.k = some u
      ∧ u.sl = { v.sl.after s.ir none s.ir.succ with
          flights := (v.sl.after s.ir none s.ir.succ).flights ++ [fl] }
      ∧ fl.left = r.la.toNat ∧ fl.younger = 0 ∧ fl.pc = s.ir.pc
      ∧ fl.op = .regs (laneWrites r.pair r.d (effMask v r.p) fun l => (r.f l).1) ∧ s.Kept t none none []))
  ∧ (∀ (s : State) (v : View) (i : Instr) (r : FloatRule) (l : Nat), s.Slotted v → v.Handles → i.wf = true →
    (floatRule s v i = some r ∨ longRule s v i = some r) → v.InWindow r.regs → l < 32 → (effMask v r.p).getLsbD l = true →
    (r.f l).2.meets v.b.kern.fpxen = true → ∃ t, exec i s = .next t ∧ s.Traps t v cFPX s.ir.pc)

/-- R175: the sum with carry and the difference with borrow of 32-bit lanes, and the mask of carries or borrows. R147, R172, R181, R186: VCMP
and FCMP give the lanes of the effective mask their bit and the rest of the slot's domain zero. -/
def Obligations.CarriesAndCompares : Prop :=
  (∀ (s : State) (v : View) (i : Instr) (o : VCarry) (f : Nat → Int), s.Slotted v → i.wf = true → s.LaneRoom false →
    v.InWindow (o.d.toNat :: vsrcRegs o.a ++ vsrcRegs o.b) →
    ((i = .vaddc o ∧ ∀ l, f l = s.opBits v .n32 o.a l + s.opBits v .n32 o.b l + (if (kread v o.kc).getLsbD l then 1 else 0))
      ∨ (i = .vsubb o ∧ ∀ l, f l = s.opBits v .n32 o.a l - s.opBits v .n32 o.b l - (if (kread v o.kc).getLsbD l then 1 else 0))) →
    ∃ t u, exec i s = .next t ∧ t.view v.bid v.wid v.k = some u ∧ s.Went t none s.ir.succ
      ∧ s.Kept t none (some o.kd) [v.w.phys o.d.toNat]
      ∧ (∀ l, l < 32 → lane (t.vread v.bid v.w o.d.toNat) l
          = if (effMask v o.p).getLsbD l then BitVec.ofInt 32 (f l) else lane (s.vread v.bid v.w o.d.toNat) l)
      ∧ ∀ l, l < 32 → (kread u o.kd).getLsbD l
          = if (v.w.domain v.k).getLsbD l then (effMask v o.p).getLsbD l && decide (f l < 0 ∨ 2 ^ 32 ≤ f l) else (kread v o.kd).getLsbD l)
  ∧ (∀ (s : State) (v : View) (i : Instr) (r : MaskRule), s.Slotted v → s.Room 0 → i.wf = true → compareRule s v i = some r →
    v.InWindow r.regs →
    ∃ t u, exec i s = .next t ∧ t.view v.bid v.wid v.k = some u ∧ s.Went t none s.ir.succ ∧ s.Kept t none (some r.kd) []
      ∧ ∀ l, l < 32 → (kread u r.kd).getLsbD l
          = if (v.w.domain v.k).getLsbD l then (effMask v r.p).getLsbD l && r.f l else (kread v r.kd).getLsbD l)

/-- R63, R64, R189 to R192: PACK makes a container of the elements of its source's lanes in four lanes of D; UNPACK spreads the elements of
one over the lanes, and a container that fails its checks is a UCE; CTAG gives the tags and checks of all eight. A split wave traps
ILLEGAL. -/
def Obligations.Containers : Prop :=
  (∀ (s : State) (v : View) (ty : Ty) (d : VNum) (a : VSrc) (q : BitVec 8), s.Slotted v → (Instr.pack ty d a q).wf = true →
    v.w.split = false → v.InWindow (d.toNat :: vsrcRegs a) → s.Room 128 →
    ∃ t c, exec (.pack ty d a q) s = .next t ∧ s.Went t none s.ir.succ ∧ s.Kept t none none [v.w.phys d.toNat]
      ∧ c < 2 ^ 128 ∧ contOk ty c = true ∧ (∀ e, e < contE ty → contEl ty c e = s.opBits v .b32 a e % 2 ^ contW ty)
      ∧ ∀ l, l < 32 → lane (t.vread v.bid v.w d.toNat) l
        = if l / 4 = q.toNat then BitVec.ofNat 32 (c / 2 ^ (32 * (l % 4))) else lane (s.vread v.bid v.w d.toNat) l)
  ∧ (∀ (s : State) (v : View) (ty : Ty) (d : VNum) (a : VSrc) (q : BitVec 8), s.Slotted v → (Instr.unpack ty d a q).wf = true →
    v.w.split = false → v.InWindow (d.toNat :: vsrcRegs a) → s.Room 128 → contOk ty (s.containerAt v a q.toNat) = true →
    ∃ t, exec (.unpack ty d a q) s = .next t ∧ s.Went t none s.ir.succ ∧ s.Kept t none none [v.w.phys d.toNat]
      ∧ ∀ l, l < 32 → lane (t.vread v.bid v.w d.toNat) l = if contE ty ≤ l then 0
        else BitVec.ofInt 32 (fieldNum (decide (ty = .s4)) (contEl ty (s.containerAt v a q.toNat) l) (contW ty)))
  ∧ (∀ (s : State) (v : View) (ty : Ty) (d : VNum) (a : VSrc) (q : BitVec 8), s.Slotted v → (Instr.unpack ty d a q).wf = true →
    v.w.split = false → v.InWindow (d.toNat :: vsrcRegs a) → contOk ty (s.containerAt v a q.toNat) = false →
    exec (.unpack ty d a q) s = .next s.uceCur)
  ∧ (∀ (s : State) (v : View) (ty : Ty) (d : SReg) (a : VSrc), s.Slotted v → v.w.split = false → v.InWindow (vsrcRegs a) →
    s.scalarOver d = false → s.Room 0 → d ≠ 0 →
    ∃ t x, exec (.ctag ty d a) s = .next t ∧ s.Went t none s.ir.succ ∧ s.Kept t (some d) none [] ∧ t.sread s.cur d = x
      ∧ x.extractLsb' 48 16 = 0 ∧ ∀ q, q < 8 → (x.extractLsb' (4 * q) 4).toNat = contTagOf (s.containerAt v a q)
        ∧ x.getLsbD (32 + q) = contParOk (s.containerAt v a q) ∧ x.getLsbD (40 + q) = contOk ty (s.containerAt v a q))
  ∧ (∀ (s : State) (v : View) (i : Instr) (regs : List Nat), s.Slotted v → v.Handles → contRule i = some regs →
    (v.w.split = true ∨ ∃ n, n ∈ regs ∧ v.w.win ≤ n) → ∃ t, exec i s = .next t ∧ s.Traps t v cILLEGAL s.ir.pc)

/-- R157: a NOP in its 64-bit and 96-bit forms has no effect other than its signature fold; the next instruction is its successor. R133, R148,
R157: BRA, BRU, BRZ, LOOP and the 128-bit NOP, whose SIG holds, go on at their target or successor, where a run begins with s zero; LOOP
writes sD before it tests it. Only the matrix stream's branch on a scalar it awaits goes on otherwise. R35: on the matrix stream a BRU or
LOOP on a scalar that is not delivered goes on by its prediction, and SPEC_RESOLVE, once the scalars are there, takes one from a LOOP's,
leaves a right prediction alone and restarts a wrong one at the other target. -/
def Obligations.Branches : Prop :=
  (∀ (s : State) (f : NopForm), s.HasIssuer → s.Room 0 → (∀ sig, f ≠ .w128 sig) →
    ∃ t, exec (.nop f) s = .next t ∧ s.Went t none s.ir.succ ∧ s.Kept t none none [])
  ∧ ((∀ (s : State) (i : Instr) (t : Term) (npc : Pc) (w : Option (SReg × Word64)), s.HasIssuer → branchRule s i = some (t, npc, w) →
    s.SigHolds t → ¬ s.Predicts i → (∀ d x, w = some (d, x) → d ≠ 0 ∧ s.scalarOver d = false) →
    ∃ u, exec i s = .next u ∧ s.Began u npc 0 ∧ s.Kept u (w.map Prod.fst) none [] ∧ ∀ d x, w = some (d, x) → u.sread s.cur d = x)
  ∧ (∀ (s : State) (v : View) (nz : Bool) (k : KNum) (off : BitVec 32) (pr : Bool) (t : Term), s.Slotted v → s.SigHolds t →
    ∃ u, exec (.brz nz k off pr t) s = .next u ∧ s.Kept u none none []
      ∧ s.Began u (if nz = decide (kread v k = 0) then s.ir.succ else s.ir.target off) 0))
  ∧ ((∀ (s : State) (b ix : Nat) (x : Stream) (c : Cond) (sgn : Bool) (m n : SReg) (off : BitVec 32) (pr : Bool) (t : Term),
    s.Streamed b .mat ix x → (m ∈ x.pending ∨ n ∈ x.pending) →
    ∃ u y, exec (.bru c sgn m n off pr t) s = .next u ∧ ((u.blk b).bind fun z => z.stream .mat ix) = some y
      ∧ y.pc = (if pr then s.ir.target off else s.ir.succ)
      ∧ y.predicted = some ⟨false, c, sgn, m, n, pr, s.ir.target off, s.ir.succ⟩ ∧ y.sregs = x.sregs ∧ y.status = .run)
  ∧ (∀ (s : State) (b ix : Nat) (x : Stream) (d : SReg) (off : BitVec 32) (pr : Bool) (t : Term), s.Streamed b .mat ix x → d ∈ x.pending →
    ∃ u y, exec (.loop d off pr t) s = .next u ∧ ((u.blk b).bind fun z => z.stream .mat ix) = some y
      ∧ y.pc = (if pr then s.ir.target off else s.ir.succ)
      ∧ y.predicted = some ⟨true, .ne, false, d, 0, pr, s.ir.target off, s.ir.succ⟩ ∧ y.sregs = x.sregs ∧ y.status = .run)
  ∧ (∀ (s : State) (b : Nat) (x : Stream) (q : Predicted) (a : Word64), ((s.blk b).bind fun z => z.streams.find? fun y =>
      decide (y.eng = .mat) && y.predicted.isSome) = some x → ((s.blk b).bind fun z => z.stream .mat x.ix) = some x →
    x.predicted = some q → q.a ∉ x.pending → q.b ∉ x.pending → (q.dec = true → q.a ≠ 0 ∧ q.b = 0) →
    a = (if q.dec then s.sread (.stream b .mat x.ix) q.a - 1 else s.sread (.stream b .mat x.ix) q.a) →
    ∃ u y, exec (.specResolve b) s = .next u ∧ ((u.blk b).bind fun z => z.stream .mat x.ix) = some y ∧ y.predicted = none
      ∧ y.pc = (if condHolds q.cond (num q.sgn a) (num q.sgn (s.sread (.stream b .mat x.ix) q.b)) = q.taken
          then x.pc else if q.taken then q.fallPc else q.takenPc)
      ∧ y.sregs = if q.dec then cset 0 x.sregs q.a.toNat a else x.sregs))

/-- R150, R151, R38, R39: CALL whose target is no stub and whose window fits the wave's run makes the new window, whose first eight registers
are the caller's last eight, and links in sD; RET to a window that is in the slow file takes the caller's window back. -/
def Obligations.CallAndReturn : Prop :=
  (∀ (s : State) (v : View) (d : SReg) (w8 : BitVec 8) (tgt : CallTarget) (t : Term) (a : Word64), s.Slotted v →
    (Instr.call d w8 tgt t).wf = true → s.SigHolds t → v.w.split = false → v.w.openCalls < 65535 → 8 ≤ v.w.win →
    (∀ o, tgt = .off o → a = (s.ir.target o).setWidth 64) → (∀ n, tgt = .reg n → a = s.sread s.cur n) → a.toNat < 2 ^ 57 →
    a.toNat % 4 = 0 → v.b.kern.stubAt a.toNat = none → v.w.base + v.w.win - 8 + 8 * w8.toNat - v.w.bottom ≤ v.w.runLen →
    v.w.base + v.w.win - 8 + 8 * w8.toNat - v.w.bottom ≤ 256 → twf (s.core (coreOf v.bid)).fast = true →
    ∃ u y, exec (.call d w8 tgt t) s = .next u ∧ u.view v.bid v.wid v.k = some y ∧ s.Began u (a.setWidth 57) 0x6B31
      ∧ y.w.base = v.w.base + v.w.win - 8 ∧ y.w.win = 8 * w8.toNat ∧ y.w.openCalls = v.w.openCalls + 1
      ∧ u.sread s.cur d = BitVec.ofNat 64 (v.w.win / 8 * 2 ^ 57 + s.ir.succ.toNat)
      ∧ (∀ n, n < 8 → y.w.phys n = v.w.phys (v.w.win - 8 + n) ∨ v.w.base < v.w.bottom)
      ∧ (s.modWave v.bid v.wid fun w => { w with
          wins := w.base :: w.wins, base := w.base + w.win - 8, win := 8 * w8.toNat, openCalls := w.openCalls + 1 }).Kept u (some d) none [])
  ∧ (∀ (s : State) (v : View) (a : SReg) (t : Term) (n8 : Nat) (pc : Pc), s.Slotted v → s.SigHolds t → v.w.split = false →
    0 < v.w.openCalls → (s.sread s.cur a).toNat = n8 * 2 ^ 57 + pc.toNat → 2 ≤ n8 → n8 ≤ 16 → pc.toNat % 4 = 0 →
    8 * n8 - 8 ≤ v.w.base → v.w.bottom ≤ v.w.base - (8 * n8 - 8) → v.w.base + 8 - v.w.bottom ≤ v.w.runLen →
    ∃ u y, exec (.ret a t) s = .next u ∧ u.view v.bid v.wid v.k = some y ∧ s.Began u pc 0x6B32
      ∧ y.w.base = v.w.base - (8 * n8 - 8) ∧ y.w.win = 8 * n8 ∧ y.w.openCalls + 1 = v.w.openCalls
      ∧ (s.modWave v.bid v.wid fun w => { w with
          base := w.base - (8 * n8 - 8), win := 8 * n8, openCalls := w.openCalls - 1,
          wins := w.wins.filter fun x => decide (x < v.w.base - (8 * n8 - 8)) }).Kept u none none [])

/-- R154, R155 (its rows for SPLIT), R133: with lanes on both sides SPLIT starts slot 1 on the taken lanes, or, when the wave is split, pushes
the not-taken lanes; with lanes on one side only, or none, the slot runs on alone. R155 (its rows for JOIN), R133: an unsplit wave goes on
at X; the owner of entries merges its top entry, from the chip or from memory, or exchanges it for its own continuation at X; a slot with
none waits at X; the second to come joins it, and slot 0 runs from X with the union of the masks. R26, its merge at JOIN: a scalar that
one side wrote takes that side's value; one that both wrote takes the value of the side whose domain holds the lowest lane of the mask
before the split, and UCONF is set; the others keep theirs. -/
def Obligations.SplitAndJoin : Prop :=
  ((∀ (s : State) (v : View) (k : KNum) (off : BitVec 32) (t : Term), s.Slotted v → s.SigHolds t → v.w.split = false → v.k = 0 →
    v.sl.k0 &&& kread v k ≠ 0 → v.sl.k0 &&& ~~~ kread v k ≠ 0 →
    exec (.split k off t) s = .next (s.modWave v.bid v.wid fun w => { w with
      split := true, dom0 := v.sl.k0 &&& ~~~ kread v k, dom1 := v.sl.k0 &&& kread v k, presplit := v.sl.k0,
      s0 := { v.sl.atRun s.ir s.ir.succ 0x6B34 with
        k0 := v.sl.k0 &&& ~~~ kread v k &&& v.b.present, emask := v.sl.k0 &&& ~~~ kread v k &&& v.b.present, priv := [] },
      s1 := { Slot.off with
        status := .run, pc := s.ir.target off, k0 := v.sl.k0 &&& kread v k, emask := v.sl.k0 &&& kread v k, sig := 0x6B33 } }))
  ∧ (∀ (s : State) (v : View) (k : KNum) (off : BitVec 32) (t : Term), s.Slotted v → s.SigHolds t →
    v.sl.k0 &&& kread v k ≠ 0 → v.sl.k0 &&& ~~~ kread v k = 0 →
    ∃ u, exec (.split k off t) s = .next u ∧ s.Began u (s.ir.target off) 0x6B33 ∧ s.Kept u none none [])
  ∧ (∀ (s : State) (v : View) (k : KNum) (off : BitVec 32) (t : Term), s.Slotted v → s.SigHolds t → v.sl.k0 &&& kread v k = 0 →
    ∃ u, exec (.split k off t) s = .next u ∧ s.Began u s.ir.succ 0x6B34 ∧ s.Kept u none none [])
  ∧ (∀ (s : State) (v : View) (k : KNum) (off : BitVec 32) (t : Term) (m : Word32), s.Slotted v → s.SigHolds t → v.w.split = true →
    v.sl.k0 &&& kread v k ≠ 0 → v.sl.k0 &&& ~~~ kread v k ≠ 0 → (v.w.dsdepth = 0 ∨ v.w.downer = v.k) → v.w.dstack.length < 16 →
    m = v.sl.k0 &&& kread v k &&& v.b.present &&& v.w.domain v.k →
    exec (.split k off t) s = .next (s.modWave v.bid v.wid fun w => { w with
      dstack := ⟨v.sl.emask, v.sl.k0 &&& ~~~ kread v k, s.ir.succ⟩ :: w.dstack, dcont := false :: w.dcont, downer := v.k }.setSlot v.k
        { v.sl.atRun s.ir (s.ir.target off) 0x6B33 with k0 := m, emask := m }))
  ∧ (∀ (s : State) (v : View) (k : KNum) (off : BitVec 32) (t : Term), s.Slotted v → s.SigHolds t → v.w.split = true →
    v.sl.k0 &&& kread v k ≠ 0 → v.sl.k0 &&& ~~~ kread v k ≠ 0 → v.w.dsdepth ≠ 0 → v.w.downer ≠ v.k → exec (.split k off t) s = .next s))
  ∧ ((∀ (s : State) (v : View) (off : BitVec 32) (t : Term), s.Slotted v → s.SigHolds t → v.w.split = false →
    ∃ u, exec (.join off t) s = .next u ∧ s.Began u (s.ir.target off) 0x6B35 ∧ s.Kept u none none [])
  ∧ (∀ (s : State) (v : View) (off : BitVec 32) (t : Term) (e : DEntry) (r : List DEntry) (m : Word32), s.Slotted v → s.SigHolds t →
    v.w.split = true → v.w.downer = v.k → v.w.dstack = e :: r →
    m = (if e.pc = s.ir.target off then v.sl.k0 ||| e.mask else e.mask) &&& v.b.present &&& v.w.domain v.k →
    exec (.join off t) s = .next (s.modWave v.bid v.wid fun w => { w with
      dstack := if e.pc = s.ir.target off then r else ⟨v.sl.emask, v.sl.k0, s.ir.target off⟩ :: r,
      dcont := if e.pc = s.ir.target off then w.dcont.drop 1 else true :: w.dcont.drop 1 }.setSlot v.k
        { v.sl.atRun s.ir e.pc (if e.pc = s.ir.target off ∨ v.w.dcont[0]? = some true then 0x6B35 else 0x6B34) with k0 := m, emask := m }))
  ∧ (∀ (s : State) (v : View) (off : BitVec 32) (t : Term) (d : List Byte) (e : DEntry) (m : Word32), s.Slotted v → s.SigHolds t →
    v.w.split = true → v.w.downer = v.k → v.w.dstack = [] → v.w.dmem ≠ 0 → s.memGet (v.b.divArea v.wid + 16 * (v.w.dmem - 1)) 16 = .ok s d →
    e = DEntry.parse d → e.pc = s.ir.target off → m = (v.sl.k0 ||| e.mask) &&& v.b.present &&& v.w.domain v.k →
    exec (.join off t) s = .next (s.modWave v.bid v.wid fun w => { w with dmem := w.dmem - 1, dcont := w.dcont.drop 1 }.setSlot v.k
        { v.sl.atRun s.ir (s.ir.target off) 0x6B35 with k0 := m, emask := m }))
  ∧ (∀ (s : State) (v : View) (off : BitVec 32) (t : Term), s.Slotted v → s.SigHolds t → v.w.split = true →
    v.w.dsdepth = 0 → (∀ y, v.other.status ≠ .join y) → v.other.status ≠ .exited →
    exec (.join off t) s = .next (s.modSlot v.bid v.wid v.k fun _ =>
      { v.sl.atRun s.ir (s.ir.target off) 0x6B35 with status := .join (s.ir.target off) }))
  ∧ (∀ (s : State) (v : View) (off : BitVec 32) (t : Term), s.Slotted v → s.SigHolds t → v.w.split = true → v.k < 2 →
    v.w.dsdepth = 0 → v.other.status = .join (s.ir.target off) →
    ∃ u y, exec (.join off t) s = .next u ∧ u.view v.bid v.wid 0 = some y ∧ y.w.split = false ∧ y.w.s1 = Slot.off
      ∧ y.w.s0.status = .run ∧ y.w.s0.pc = s.ir.target off ∧ y.w.s0.k0 = v.w.s0.k0 ||| v.w.s1.k0
      ∧ y.w.s0.emask = y.w.s0.k0 ∧ y.w.s0.sig = 0x6B35 ∧ y.w.s0.priv = [] ∧ y.w.kregs = v.w.kregs
      ∧ ∀ cell, u.dramByte cell = s.dramByte cell)
  ∧ (∀ (s : State) (v : View) (off : BitVec 32) (t : Term) (x : Pc), s.Slotted v → v.Handles → v.w.split = true →
    v.w.dsdepth = 0 → v.other.status = .join x → x ≠ s.ir.target off →
    ∃ u, exec (.join off t) s = .next u ∧ s.Traps u v cILLEGAL s.ir.pc))
  ∧ (∀ (s : State) (v : View) (off : BitVec 32) (t : Term), s.Slotted v → s.SigHolds t → v.w.split = true → v.k < 2 →
    v.w.dsdepth = 0 → v.other.status = .join (s.ir.target off) → twf v.w.s0.priv = true → twf v.w.s1.priv = true →
    (∀ l, l < 32 → (∀ j, j < l → v.w.presplit.getLsbD j = false) → v.w.presplit.getLsbD l = true →
      ∃ u y, exec (.join off t) s = .next u ∧ u.view v.bid v.wid 0 = some y
        ∧ (y.w.uconf = true ↔ v.w.uconf = true ∨ ∃ n, (tget v.w.s0.priv n).isSome = true ∧ (tget v.w.s1.priv n).isSome = true)
        ∧ ∀ n : SReg, n ≠ 0 → u.sread (.slot v.bid v.wid 0) n = match tget v.w.s0.priv n.toNat, tget v.w.s1.priv n.toNat with
          | none, none => cget 0 v.w.sregs n.toNat
          | some x, none => x
          | none, some z => z
          | some x, some z => if v.w.dom0.getLsbD l then x else z))

/-- R155 (its rows for EXIT), R221: the EXIT of an unsplit wave that is a member of no group ends the wave; of a split wave it ends the slot,
or leaves the wave to the slot that waits; the owner of entries may not; a stream that exits ends once its commands are done. R160: HALT
stops the wave at its successor, where a run begins, and posts a halt event to a context that has an event queue; the firmware's release
lets it go on. -/
def Obligations.RunEnds : Prop :=
  ((∀ (s : State) (v : View) (t : Term), s.Slotted v → s.SigHolds t → v.w.split = false → v.w.members = [] →
    ∃ u y, exec (.exit t) s = .next u ∧ u.view v.bid v.wid 0 = some y ∧ y.w.live = false ∧ y.w.active = false ∧ y.w.s0.status = .off
      ∧ y.w.s1.status = .off ∧ (v.wid < 32 → y.b.barArr.getLsbD v.wid = false) ∧ ∀ cell, u.dramByte cell = s.dramByte cell)
  ∧ (∀ (s : State) (v : View) (t : Term), s.Slotted v → v.Handles → v.w.split = true → v.w.dsdepth ≠ 0 → v.w.downer = v.k →
    ∃ u, exec (.exit t) s = .next u ∧ s.Traps u v cILLEGAL s.ir.pc)
  ∧ (∀ (s : State) (v : View) (t : Term) (x : Pc), s.Slotted v → s.SigHolds t → v.w.split = true → v.k < 2 → v.w.dsdepth = 0 →
    v.other.status = .join x →
    ∃ u y, exec (.exit t) s = .next u ∧ u.view v.bid v.wid 0 = some y ∧ y.w.split = false ∧ y.w.s1 = Slot.off ∧ y.w.s0.status = .run
      ∧ y.w.s0.pc = x ∧ y.w.s0.k0 = v.other.k0 ∧ y.w.s0.emask = v.other.k0 ∧ y.w.s0.sig = 0x6B35)
  ∧ (∀ (s : State) (b : Nat) (e : Engine) (ix : Nat) (x : Stream) (t : Term), s.Streamed b e ix x →
    ∃ u y, exec (.exit t) s = .next u ∧ ((u.blk b).bind fun z => z.stream e ix) = some y
      ∧ y = { x.after s.ir s.ir.succ with exited := true }))
  ∧ ((∀ (s : State) (v : View) (t : Term), s.Slotted v → s.SigHolds t → (s.ctx v.b.tag.slot).rcd.eventq = 0 →
    ∃ u, exec (.halt t) s = .next u ∧ s.Began u s.ir.succ 0 ∧ (s.modWave v.bid v.wid fun w => { w with halted := true }).Kept u none none [])
  ∧ (∀ (s : State) (b w : Nat), exec (.haltRelease b w) s = .next (s.modWave b w fun x => { x with halted := false })))

/-- R156 whole, R133: YIELD ends the run; where an eligible wave of the partition is pending, the whole wave leaves the active set for the
tail of its list. -/
def Obligations.YieldEndsRun : Prop :=
  (∀ (s : State) (v : View) (t : Term), s.Slotted v → s.SigHolds t → (∀ e, e ∈ (s.core (coreOf v.bid)).pend v.w.part → ¬ s.Waiting v e) →
    waveKey v.bid v.wid ∉ (s.core (coreOf v.bid)).pend v.w.part →
    ∃ u, exec (.yield t) s = .next u ∧ s.Began u s.ir.succ 0 ∧ s.Kept u none none [])
  ∧ (∀ (s : State) (v : View) (t : Term), s.Slotted v → s.SigHolds t → (∃ e, e ∈ (s.core (coreOf v.bid)).pend v.w.part ∧ s.Waiting v e) →
    waveKey v.bid v.wid ∉ (s.core (coreOf v.bid)).pend v.w.part → twf (s.core (coreOf v.bid)).fast = true →
    ∃ u y, exec (.yield t) s = .next u ∧ u.view v.bid v.wid v.k = some y ∧ y.sl = v.sl.atRun s.ir s.ir.succ 0 ∧ y.w.active = false
      ∧ (u.core (coreOf v.bid)).pend v.w.part = (s.core (coreOf v.bid)).pend v.w.part ++ [waveKey v.bid v.wid]
      ∧ (∀ c p, (u.core c).reg p = (s.core c).reg p) ∧ ∀ cell, u.dramByte cell = s.dramByte cell)

/-- R158: what taking a trap does. A slot that is in its handler, or whose kernel has none, stops, and its context's policy hears of it; any
other saves resume point, k0, s and entry mask, and goes to the handler. USERTRAP resumes at the TRAP's successor. -/
def Obligations.TrapEntry : Prop :=
  (∀ (s : State) (v : View) (n : BitVec 8) (t : Term), s.Slotted v → s.SigHolds t → v.Handles →
    ∃ u, exec (.trap n t) s = .next u ∧ s.Traps u v cUSERTRAP s.ir.succ)
  ∧ (∀ (s : State) (v : View) (n : BitVec 8) (t : Term), s.Slotted v → s.SigHolds t → ¬ v.Handles →
    (s.ctx v.b.tag.slot).rcd.policy ≠ 1 → (s.ctx v.b.tag.slot).rcd.eventq = 0 →
    exec (.trap n t) s = .next ((s.modSlot v.bid v.wid v.k fun x => { x with
        cause := preciseCause cUSERTRAP v.k, faultPc := s.ir.pc, skid := 0, status := .stopped, resume := s.ir.succ,
        replay := .none, expand := none }).modBlk v.bid fun b => { b with frozen := .fault }))
  ∧ (∀ (s : State) (bid wid k code : Nat) (resume : Pc) (rp : Replay) (v : View), s.view bid wid k = some v → v.Handles →
    s.enterHandler bid wid k resume rp code = s.modSlot bid wid k fun x => { x with
      frame := ⟨resume, x.k0, x.sig, x.emask, rp, x.skid⟩, inHandler := true, pc := BitVec.ofNat 57 v.b.kern.handler, sig := 0,
      emask := x.k0, status := .run, replay := .none, expand := none, noFold := false })

/-- R159 whole: TRAPRET outside a handler is ILLEGAL; in one it resumes at the saved point, replaying a memory fault's access, or at the PC in
sA, replaying nothing and ILLEGAL where that is no PC; k0 comes back within the present lanes and the domain. -/
def Obligations.TrapReturn : Prop :=
  (∀ (s : State) (v : View) (a : Option SReg) (t : Term), s.Slotted v → v.sl.inHandler = false → v.b.kern.handler ≠ 0 →
    ∃ u, exec (.trapret a t) s = .next u ∧ s.Traps u v cILLEGAL s.ir.pc)
  ∧ (∀ (s : State) (v : View) (t : Term), s.Slotted v → s.SigHolds t → v.sl.inHandler = true →
    exec (.trapret none t) s = .next (s.modSlot v.bid v.wid v.k fun x => { x with
      inHandler := false, status := .run, k0 := v.sl.frame.k0 &&& v.b.present &&& v.w.domain v.k, sig := v.sl.frame.sig,
      emask := v.sl.frame.emask, pc := v.sl.frame.resume, resume := v.sl.frame.resume, replay := v.sl.frame.replay, expand := none }))
  ∧ (∀ (s : State) (v : View) (a : SReg) (t : Term) (pc : Pc), s.Slotted v → s.SigHolds t → v.sl.inHandler = true →
    (s.sread s.cur a).toNat = pc.toNat → pc.toNat % 4 ≠ 3 →
    exec (.trapret (some a) t) s = .next (s.modSlot v.bid v.wid v.k fun x => { x with
      inHandler := false, status := .run, k0 := v.sl.frame.k0 &&& v.b.present &&& v.w.domain v.k, sig := v.sl.frame.sig,
      emask := v.sl.frame.emask, pc := pc, resume := pc, replay := .none, expand := none }))
  ∧ (∀ (s : State) (v : View) (a : SReg) (t : Term), s.Slotted v → v.sl.inHandler = true →
    (2 ^ 57 ≤ (s.sread s.cur a).toNat ∨ (s.sread s.cur a).toNat % 4 = 3) →
    exec (.trapret (some a) t) s = .next (s.trapSlot v.bid v.wid v.k cILLEGAL 0 s.ir.pc s.ir.pc))

/-- R129, R130: a dictionary word whose entry is in the instruction cache expands the code at the PC's index into what the issuer issues next,
the word itself folding nothing; a word with no code, with reserved bits or with an unused code that is not zero is ILLEGAL. -/
def Obligations.DictionaryExpands : Prop :=
  (∀ (s : State) (v : View) (count : BitVec 2) (c0 c1 c2 code : BitVec 16) (i : Nat) (blk : BitVec 256) (w : InstrWord), s.Slotted v →
    i < count.toNat → s.ir.pc.toNat % 4 = i → (count.toNat < 2 → c1 = 0) → (count.toNat < 3 → c2 = 0) →
    [c0, c1, c2][i]? = some code → (code.extractLsb' 0 10).toNat < v.b.kern.ndict →
    tget (s.core (coreOf v.bid)).icache (icKey v.b.tag ((v.b.kern.dict + 16 * (code.extractLsb' 0 10).toNat) / 32 * 32)) = some blk →
    dictAllowed (Fields.ofWord (blk.extractLsb' (8 * ((v.b.kern.dict + 16 * (code.extractLsb' 0 10).toNat) % 32)) 128)) = true →
    patchEntry (blk.extractLsb' (8 * ((v.b.kern.dict + 16 * (code.extractLsb' 0 10).toNat) % 32)) 128) (code.extractLsb' 10 6) = some w →
    exec (.dictionaryWord count 0 c0 c1 c2) s = .next (s.modSlot v.bid v.wid v.k fun x =>
      { x with expand := some (w &&& BitVec.ofNat 128 (2 ^ (8 * wordBytes w) - 1), decide (i + 1 = count.toNat)) }))
  ∧ (∀ (s : State) (v : View) (count : BitVec 2) (rsv : BitVec 12) (c0 c1 c2 : BitVec 16), s.Slotted v → v.Handles →
    s.ir.pc.toNat % 4 = 0 → (count = 0 ∨ rsv ≠ 0 ∨ (count.toNat < 2 ∧ c1 ≠ 0) ∨ (count.toNat < 3 ∧ c2 ≠ 0)) →
    ∃ t, exec (.dictionaryWord count rsv c0 c1 c2) s = .next t ∧ s.Traps t v cILLEGAL s.ir.pc)

/-- R164, R165, R219: SREAD gives a scalar the register as its fields say, LANEID gives each lane of the effective mask its number, and a
stream reads the eight registers it may read and takes ILLEGAL, which stops its block, for the others. -/
def Obligations.SystemRead : Prop :=
  (∀ (s : State) (v : View) (d : SReg) (r : SysReg), s.Slotted v → s.Room 0 → (Instr.sread (.sca d) r noPred).wf = true →
    s.scalarOver d = false →
    ∃ t, exec (.sread (.sca d) r noPred) s = .next t ∧ t.sread s.cur d = (if d = 0 then 0 else sysRule s v r)
      ∧ s.Went t none s.ir.succ ∧ s.Kept t (some d) none [])
  ∧ (∀ (s : State) (v : View) (d : VNum) (p : Pred), s.Slotted v → s.LaneRoom false → v.InWindow [d.toNat] →
    ∃ t, exec (.sread (.vec d) .laneid p) s = .next t ∧ s.LanesDone t v p false d fun l => (l : Nat))
  ∧ (∀ (s : State) (b : Nat) (e : Engine) (ix : Nat) (x : Stream) (y : Block) (d : SReg) (r : SysReg), s.Streamed b e ix x →
    s.blk b = some y → r ∈ streamRegs →
    ∃ t, exec (.sread (.sca d) r noPred) s = .next t
      ∧ t.sread s.cur d = (if d = 0 then 0 else ofFields (blockFields s y x.wave r))
      ∧ s.Went t none s.ir.succ ∧ s.Kept t (some d) none [])
  ∧ (∀ (s : State) (b : Nat) (e : Engine) (ix : Nat) (x : Stream) (d : SReg) (r : SysReg), s.Streamed b e ix x → r ∉ streamRegs →
    exec (.sread (.sca d) r noPred) s = .next (s.stopStream b e ix cILLEGAL s.ir.pc true))

/-- R27, R164, R165, R287: SWRITE of READYMAP sets the wave's selector, of WSTATUS clears UCONF where bit 0 is one, of GOVBUDGET and GOVSTALL
sets the governor's fields for a privileged wave; a write to a register that is read-only is ignored. VERSIONBUDGET takes a multiple of
256 up to 16 MiB. R93, R94: SWRITE BANKMODE by a privileged wave, no mode reserved and no held bank leaving scratch or FIFO mode, sets
every bank's mode; a bank that changes holds zeros, a bank that does not keeps its bytes. R97 to R99: SWRITE COLWAYS by the column-owner
block to modes that are not reserved. Its first issue begins the change, which COLSTAT.BUSY shows; it waits while a window access is out;
then the lines that leave are written back; then every way has its new mode at once, what changed holds zeros, and the wave goes on. To
the modes that stand already it changes nothing. R166: TLBINV by a privileged wave takes away the translations of a page of a context
slot, of a slot, or all, of the core or of every core and every slice; ICINV takes away the cached instruction blocks that hold a byte of
the range, or all for a length of zero, of the core or of every core. Nothing else changes. -/
def Obligations.SystemWrites : Prop :=
  ((∀ (s : State) (v : View) (a : SReg), s.Slotted v → s.Room 0 →
    ∃ t, exec (.swrite .readymap a) s = .next t ∧ s.Went t none s.ir.succ ∧ (s.modWave v.bid v.wid fun w => { w with
      rmClass := ((s.sread s.cur a).extractLsb' 52 4).toNat, rmWord := ((s.sread s.cur a).extractLsb' 32 12).toNat }).Kept t none none [])
  ∧ (∀ (s : State) (v : View) (a : SReg), s.Slotted v → s.Room 0 →
    ∃ t, exec (.swrite .wstatus a) s = .next t ∧ s.Went t none s.ir.succ ∧ (s.modWave v.bid v.wid fun w => { w with
      uconf := w.uconf && !(s.sread s.cur a).getLsbD 0 }).Kept t none none [])
  ∧ (∀ (s : State) (v : View) (a : SReg), s.Slotted v → s.Room 0 → v.b.priv = true →
    ∃ t, exec (.swrite .govbudget a) s = .next t ∧ s.Went t none s.ir.succ ∧ (s.modCore (coreOf v.bid) fun k => { k with
      govBudget := ((s.sread s.cur a).extractLsb' 0 16).toNat }).Kept t none none [])
  ∧ (∀ (s : State) (v : View) (a : SReg), s.Slotted v → s.Room 0 → v.b.priv = true →
    ∃ t, exec (.swrite .govstall a) s = .next t ∧ s.Went t none s.ir.succ ∧ (s.modCore (coreOf v.bid) fun k => { k with
      govStall := ((s.sread s.cur a).extractLsb' 0 48).toNat, govHeld := k.govHeld.map fun _ => s.clock }).Kept t none none [])
  ∧ (∀ (s : State) (v : View) (r : SysReg) (a : SReg), s.Slotted v → s.Room 0 → r ≠ .readymap → r ≠ .wstatus → r ≠ .govbudget →
    r ≠ .govstall → ∃ t, exec (.swrite r a) s = .next t ∧ s.Went t none s.ir.succ ∧ s.Kept t none none [])
  ∧ (∀ (s : State) (v : View) (a : SReg) (n : Nat), s.Slotted v → s.Room 0 → n = ((s.sread s.cur a).extractLsb' 0 25).toNat →
    n % 256 = 0 → n ≤ 0x1000000 →
    ∃ t, exec (.swriteVersionbudget a) s = .next t ∧ s.Went t none s.ir.succ
      ∧ (s.modBlk v.bid fun b => { b with versBudget := n }).Kept t none none []))
  ∧ (∀ (s : State) (v : View) (a : SReg) (x : Word64), s.Slotted v → s.Room 0 → v.b.priv = true → x = s.sread s.cur a →
    (∀ i, i < 32 → modeField x i ≠ 3 ∧ (modeField x i ≠ modeField (s.core (coreOf v.bid)).bankMode i →
      modeField (s.core (coreOf v.bid)).bankMode i = 0 ∨ s.bankHeld (coreOf v.bid) i = false)) →
    ∃ t, exec (.swriteBankmode a) s = .next t ∧ s.Went t none s.ir.succ ∧ (t.core (coreOf v.bid)).bankMode = x
      ∧ (∀ m, m < 0x100000 → cget 0 (t.core (coreOf v.bid)).store m
        = if modeField x (m / 32768) = modeField (s.core (coreOf v.bid)).bankMode (m / 32768)
          then cget 0 (s.core (coreOf v.bid)).store m else 0)
      ∧ (∀ who n, t.sread who n = s.sread who n)
      ∧ ((s.core (coreOf v.bid)).wq = [] → ∀ cell, t.dramByte cell = s.dramByte cell))
  ∧ (∀ (s : State) (v : View) (a : SReg) (x : Word64), s.Slotted v → s.Room 0 → v.b.columnRight = true →
    x = ((s.sread s.cur a).extractLsb' 0 32).setWidth 64 → (∀ i, i < 16 → modeField x i ≠ 3) →
    ((s.core (coreOf v.bid)).colChange = none → x ≠ (s.core (coreOf v.bid)).colWays →
      exec (.swriteColways a) s = .next (s.modCore (coreOf v.bid) fun k => { k with colChange := some x }))
    ∧ ((s.core (coreOf v.bid)).colChange = none → x = (s.core (coreOf v.bid)).colWays →
      ∃ t, exec (.swriteColways a) s = .next t ∧ s.Went t none s.ir.succ ∧ s.Kept t none none [])
    ∧ ((s.core (coreOf v.bid)).colChange = some x → s.windowOut (coreOf v.bid) = true → exec (.swriteColways a) s = .next s)
    ∧ ((s.core (coreOf v.bid)).colChange = some x → s.windowOut (coreOf v.bid) = false → (s.core (coreOf v.bid)).linesOut x ≠ [] →
      ∃ t u, exec (.swriteColways a) s = .next t ∧ (t.core (coreOf v.bid)).linesOut x = [] ∧ (t.core (coreOf v.bid)).colChange = some x
        ∧ (t.core (coreOf v.bid)).colWays = (s.core (coreOf v.bid)).colWays ∧ t.view v.bid v.wid v.k = some u ∧ u.sl = v.sl)
    ∧ ((s.core (coreOf v.bid)).colChange = some x → s.windowOut (coreOf v.bid) = false → (s.core (coreOf v.bid)).linesOut x = [] →
      ∃ t, exec (.swriteColways a) s = .next t ∧ s.Went t none s.ir.succ ∧ (t.core (coreOf v.bid)).colWays = x
        ∧ (t.core (coreOf v.bid)).colChange = none
        ∧ ∀ m, m < 0x1000000 → cget 0 (t.core (coreOf v.bid)).column m
          = if modeField x (m / 0x100000) = modeField (s.core (coreOf v.bid)).colWays (m / 0x100000)
            then cget 0 (s.core (coreOf v.bid)).column m else 0))
  ∧ ((∀ (s : State) (v : View) (dev : Bool) (kind : BitVec 2) (a b : SReg) (va slot : Nat), s.Slotted v → s.Room 0 → v.b.priv = true →
    kind ≠ 3 → va = (s.sread s.cur a).toNat → slot = ((s.sread s.cur b).extractLsb' 0 10).toNat →
    ∃ t, exec (.tlbinv dev kind a b) s = .next t ∧ s.Went t none s.ir.succ
      ∧ (∀ c e, e ∈ (t.core c).tlb ↔ e ∈ (s.core c).tlb ∧ ((dev = false ∧ c ≠ coreOf v.bid) ∨ e.Survives kind va slot))
      ∧ (∀ n e, e ∈ t.slCache n ↔ e ∈ s.slCache n ∧ (dev = false ∨ e.Survives kind va slot))
      ∧ (∀ who n, t.sread who n = s.sread who n) ∧ ∀ cell, t.dramByte cell = s.dramByte cell)
  ∧ (∀ (s : State) (v : View) (dev : Bool) (a b : SReg) (lo n : Nat), s.Slotted v → s.Room 0 → v.b.priv = true →
    lo = (s.sread s.cur a).toNat → n = (s.sread s.cur b).toNat →
    ∃ t, exec (.icinv dev a b) s = .next t ∧ s.Went t none s.ir.succ
      ∧ (∀ c e, e ∈ (t.core c).icache ↔ e ∈ (s.core c).icache ∧ ((dev = false ∧ c ≠ coreOf v.bid)
          ∨ (n ≠ 0 ∧ ∀ a, e.1 % 2 ^ 52 * 32 ≤ a → a < e.1 % 2 ^ 52 * 32 + 32 → ¬(lo ≤ a ∧ a < lo + n))))
      ∧ (∀ who n, t.sread who n = s.sread who n) ∧ ∀ cell, t.dramByte cell = s.dramByte cell))

/-- R146, R164: without privilege TLBINV, ICINV, CTXKILL, CTXSTART, RECLAIM, PATCH and the writes of BANKMODE, GOVBUDGET and GOVSTALL raise
the precise trap PRIV, and without the column-owner right the write of COLWAYS does; no register changes. R135, R137: a word of reserved
space traps: majors 0x28 to 0x3E with UNIMPL, an unassigned minor of a privileged major with PRIV in a wave without privilege, every other
word with ILLEGAL; a stream stops with the same code. -/
def Obligations.PrivilegeAndReserved : Prop :=
  (∀ (s : State) (v : View) (i : Instr), s.Slotted v → v.Handles →
    ((v.b.priv = false ∧ ((∃ dev kind a b, i = .tlbinv dev kind a b) ∨ (∃ dev a b, i = .icinv dev a b) ∨ (∃ a, i = .swriteBankmode a)
        ∨ (∃ a, i = .swrite .govbudget a) ∨ (∃ a, i = .swrite .govstall a) ∨ (∃ d a, i = .ctxkill d a ∨ i = .reclaim d a ∨ i = .patch d a)
        ∨ ∃ d a b, i = .ctxstart d a b))
      ∨ (v.b.columnRight = false ∧ ∃ a, i = .swriteColways a)) →
    ∃ t, exec i s = .next t ∧ s.Traps t v cPRIV s.ir.pc)
  ∧ (∀ (s : State) (m n : BitVec 6) (code : Nat),
    (∀ v, s.Slotted v → v.Handles → code = (if 0x28 ≤ m.toNat ∧ m.toNat ≤ 0x3E then cUNIMPL
        else if 0x25 ≤ m.toNat ∧ m.toNat ≤ 0x27 ∧ v.b.priv = false then cPRIV else cILLEGAL) →
      ∃ t, exec (.reservedEncoding m n) s = .next t ∧ s.Traps t v code s.ir.pc)
    ∧ ∀ b e ix x y, s.Streamed b e ix x → s.blk b = some y → code = (if 0x28 ≤ m.toNat ∧ m.toNat ≤ 0x3E then cUNIMPL
        else if 0x25 ≤ m.toNat ∧ m.toNat ≤ 0x27 ∧ y.priv = false then cPRIV else cILLEGAL) →
      exec (.reservedEncoding m n) s = .next (s.stopStream b e ix code s.ir.pc true))

/-- R204, R207, R172, R26: LD with no lookahead or with .acq gives each lane of the effective mask the bytes at its address, from their home,
sign- or zero-extended; LDC gives a scalar the bytes at the uniform address, for slots and streams. With .acq at .dev or .sys the core's
time passes every lease. Memory and every other register stay. -/
def Obligations.LoadGlobal : Prop :=
  (∀ (s : State) (v : View) (p : Pred) (la : Look) (ty : Ty) (mo : MOrd) (d : VNum) (ad : MAddr) (pa cell : Nat → Nat),
    s.Slotted v → (Instr.ld p la ty mo d ad).wf = true → v.Calm → s.Bare (coreOf v.bid) → s.LaneRoom ty.pair →
    v.InWindow (d.toNat :: idxRegs ad.idx) → (la = 0 ∨ mo.ord = .acq) → (mo.strong = true → s.countsOut s.cur = false) →
    (∀ l, l < 32 → (effMask v p).getLsbD l = true → s.Lands v.bid (s.ea v ad l).toNat ⟨true, false, false⟩ (pa l) (cell l) ty.bytes) →
    ∃ t, exec (.ld p la ty mo d ad) s = .next t
      ∧ (s.acquired (coreOf v.bid) (decide (mo.ord = Ord.acq)) mo.scope).LanesDone t v p ty.pair d fun l =>
        fieldNum ty.isSigned (numberAt (s.homeByte (some v.bid)) (cell l) ty.bytes) ty.bits)
  ∧ (∀ (s : State) (v : View) (la : Look) (ty : Ty) (mo : MOrd) (d : SReg) (ad : MAddr) (pa cell : Nat),
    s.Slotted v → (Instr.ldc la ty mo d ad).wf = true → v.Calm → s.Bare (coreOf v.bid) → s.Room 0 → s.scalarOver d = false →
    (la = 0 ∨ mo.ord = .acq) → (mo.strong = true → s.countsOut s.cur = false) →
    s.Lands v.bid (s.uniformEa ad).toNat ⟨true, false, false⟩ pa cell ty.bytes →
    ∃ t, exec (.ldc la ty mo d ad) s = .next t ∧ s.Went t none s.ir.succ
      ∧ (s.acquired (coreOf v.bid) (decide (mo.ord = Ord.acq)) mo.scope).Kept t (some d) none []
      ∧ t.sread s.cur d = if d = 0 then 0 else
        BitVec.ofInt 64 (fieldNum ty.isSigned (numberAt (s.homeByte (some v.bid)) cell ty.bytes) ty.bits))
  ∧ (∀ (s : State) (b : Nat) (e : Engine) (ix : Nat) (x : Stream) (la : Look) (ty : Ty) (mo : MOrd) (d : SReg) (ad : MAddr)
    (pa cell : Nat), s.Streamed b e ix x → (Instr.ldc la ty mo d ad).wf = true → s.Bare (coreOf b) →
    s.Lands b (s.uniformEa ad).toNat ⟨true, false, false⟩ pa cell ty.bytes →
    ∃ t, exec (.ldc la ty mo d ad) s = .next t ∧ s.Went t none s.ir.succ
      ∧ (s.acquired (coreOf b) (decide (mo.ord = Ord.acq)) mo.scope).Kept t (some d) none []
      ∧ t.sread s.cur d = if d = 0 then 0 else
        BitVec.ofInt 64 (fieldNum ty.isSigned (numberAt (s.homeByte (some b)) cell ty.bytes) ty.bits))

/-- R205, R208, R209, R252, R106: ST and ST.cnt write the low bytes of each lane of the effective mask at its address, ascending lanes, and no
other byte. Through an open interval they reach the home; ST.cnt also sends its object an increment for each lane. In a closed interval a
weak ST leaves a version that its block alone reads. A weak ST to the owner core's vault in the pinned view goes onto the upward bus. A
byte of APPEND takes no store (R279). -/
def Obligations.StoreGlobal : Prop :=
  (∀ (s : State) (v : View) (p : Pred) (ty : Ty) (mo : MOrd) (ad : MAddr) (x : MData) (pa cell : Nat → Nat),
    s.Slotted v → (Instr.st p ty mo ad x).wf = true → v.Calm → v.sl.unreplayed = false → s.Direct v →
    v.InWindow (idxRegs ad.idx ++ dataRegs x) →
    (∀ l, l < 32 → (effMask v p).getLsbD l = true → s.Lands v.bid (s.ea v ad l).toNat ⟨false, true, false⟩ (pa l) (cell l) ty.bytes) →
    (mo.strong = true ∨ ∀ l i, l < 32 → i < ty.bytes → isPinned (pa l + i) = false ∨ vaultOf (cell l + i) ≠ coreOf v.bid) →
    ∃ t, exec (.st p ty mo ad x) s = .next t ∧ s.Went t none s.ir.succ ∧ ({ s with lines := t.lines }).Kept t none none []
      ∧ ∀ c, t.dramByte c = lanesWrite s.onAppend (effMask v p) cell ty.bytes (fun l _ => s.storeBits v ty x l) s.dramByte 32 c)
  ∧ (∀ (s : State) (v : View) (p : Pred) (ty : Ty) (ord : Ord) (sc : Scope) (ad : MAddr) (x : MData) (c : SReg)
    (pa cell : Nat → Nat) (o : Obj), s.Slotted v → (Instr.stCnt p ty ord sc ad x c).wf = true → v.Calm → v.sl.unreplayed = false →
    s.Direct v →
    v.InWindow (idxRegs ad.idx ++ dataRegs x) → s.findObj v.bid (s.sread s.cur c).toNat ⟨true, true, false⟩ = (s, .ok o) →
    (∀ l, l < 32 → (effMask v p).getLsbD l = true → s.Lands v.bid (s.ea v ad l).toNat ⟨false, true, false⟩ (pa l) (cell l) ty.bytes) →
    effMask v p ≠ 0 →
    ∃ t, exec (.stCnt p ty ord sc ad x c) s = .next t ∧ s.Went t none s.ir.succ
      ∧ ({ s with lines := t.lines, cnts := s.cnts ++ [CntArr.mk s.cur v.b.tag o.key o.node (lanesOf (effMask v p)).length] }).Kept t none none []
      ∧ ∀ c, t.dramByte c = lanesWrite s.onAppend (effMask v p) cell ty.bytes (fun l _ => s.storeBits v ty x l) s.dramByte 32 c)
  ∧ (∀ (s : State) (v : View) (p : Pred) (ty : Ty) (ad : MAddr) (x : MData) (pa cell : Nat → Nat),
    s.Slotted v → (Instr.st p ty ⟨.none, .blk, false⟩ ad x).wf = true → v.Calm → v.sl.unreplayed = false →
    s.Bare (coreOf v.bid) → v.b.isOpen = false →
    256 * (v.b.versLines.length + 96) ≤ v.b.versBudget → s.Room 0 → v.InWindow (idxRegs ad.idx ++ dataRegs x) →
    (∀ l, l < 32 → (effMask v p).getLsbD l = true → s.Lands v.bid (s.ea v ad l).toNat ⟨false, true, false⟩ (pa l) (cell l) ty.bytes) →
    (∀ l i, l < 32 → i < ty.bytes → isPinned (pa l + i) = false ∨ vaultOf (cell l + i) ≠ coreOf v.bid) →
    ∃ t, exec (.st p ty ⟨.none, .blk, false⟩ ad x) s = .next t ∧ s.Went t none s.ir.succ ∧ s.RegsKept t
      ∧ (∀ c, t.homeByte (some v.bid) c
        = lanesWrite s.onAppend (effMask v p) cell ty.bytes (fun l _ => s.storeBits v ty x l) (s.homeByte (some v.bid)) 32 c)
      ∧ ∀ o c, o ≠ some v.bid → t.homeByte o c = s.homeByte o c)
  ∧ (∀ (s : State) (v : View) (p : Pred) (ty : Ty) (ad : MAddr) (x : MData) (pa cell l : Nat),
    s.Slotted v → (Instr.st p ty ⟨.none, .blk, false⟩ ad x).wf = true → v.Calm → v.sl.unreplayed = false → s.Direct v →
    v.InWindow (idxRegs ad.idx ++ dataRegs x) → l < 32 → effMask v p = BitVec.ofNat 32 (2 ^ l) → (s.ea v ad l).toNat % ty.bytes = 0 →
    s.Lands v.bid (s.ea v ad l).toNat ⟨false, true, false⟩ pa cell ty.bytes → isPinned pa = true → vaultOf cell = coreOf v.bid →
    ∃ t, exec (.st p ty ⟨.none, .blk, false⟩ ad x) s = .next t ∧ s.Went t none s.ir.succ
      ∧ (s.modCore (coreOf v.bid) fun k => { k with wq := (t.core (coreOf v.bid)).wq }).Kept t none none []
      ∧ ∃ w, (t.core (coreOf v.bid)).wq = [w] ∧ w.bus = true ∧ w.addr = cell ∧ w.block = none ∧ w.data.length = ty.bytes
        ∧ ∀ i, i < ty.bytes → w.data[i]? = some (byteOf (s.storeBits v ty x l) i))

/-- R96, R204, R210, R211: LDS and STS on the block's scratch, at offsets inside its allocation: each lane of the effective mask reads or
writes its bytes and no other byte changes. On a FIFO, STS appends an entry a lane and LDS pops one a lane, ascending lanes, when all of
them can. -/
def Obligations.ScratchAccess : Prop :=
  (∀ (s : State) (v : View) (p : Pred) (ty : Ty) (d : VNum) (ad : MAddr), s.Slotted v → (Instr.lds p 0 ty d ad).wf = true → v.Calm →
    s.LaneRoom ty.pair → v.InWindow (d.toNat :: idxRegs ad.idx) → v.b.sb = [] → s.Clean (coreOf v.bid) →
    (∀ l, l < 32 → (effMask v p).getLsbD l = true → v.b.fifoOf (s.ea v ad l).toNat = none
      ∧ (s.ea v ad l).toNat + ty.bytes ≤ v.b.kern.shared) →
    ∃ t, exec (.lds p 0 ty d ad) s = .next t ∧ s.LanesDone t v p ty.pair d fun l => fieldNum ty.isSigned
      (numberAt (fun a => cget 0 (s.core (coreOf v.bid)).store (v.b.scratchBase + a)) (s.ea v ad l).toNat ty.bytes) ty.bits)
  ∧ (∀ (s : State) (v : View) (p : Pred) (ty : Ty) (ad : MAddr) (x : MData), s.Slotted v → (Instr.sts p ty ad x).wf = true → v.Calm →
    v.sl.unreplayed = false → s.Room 24576 → v.InWindow (idxRegs ad.idx ++ dataRegs x) → v.b.sb = [] →
    (∀ l, l < 32 → (effMask v p).getLsbD l = true → v.b.fifoOf (s.ea v ad l).toNat = none
      ∧ (s.ea v ad l).toNat + ty.bytes ≤ v.b.kern.shared) →
    ∃ t, exec (.sts p ty ad x) s = .next t ∧ s.Went t none s.ir.succ
      ∧ (s.modCore (coreOf v.bid) fun k => { k with
        store := (t.core (coreOf v.bid)).store, storeBad := (t.core (coreOf v.bid)).storeBad }).Kept t none none []
      ∧ ∀ a, cget 0 (t.core (coreOf v.bid)).store a = lanesWrite (fun _ => false) (effMask v p) (fun l => v.b.scratchBase + (s.ea v ad l).toNat)
        ty.bytes (fun l _ => s.storeBits v ty x l) (fun a => cget 0 (s.core (coreOf v.bid)).store a) 32 a)
  ∧ (∀ (s : State) (v : View) (p : Pred) (ty : Ty) (ad : MAddr) (x : MData) (q : Nat), s.Slotted v →
    (Instr.sts p ty ad x).wf = true → v.Calm → v.sl.unreplayed = false → s.Room 0 → v.InWindow (idxRegs ad.idx ++ dataRegs x) → effMask v p ≠ 0 →
    (∀ l, l < 32 → (effMask v p).getLsbD l = true → v.b.fifoOf (s.ea v ad l).toNat = some q) →
    (cget [] v.b.fifos q).length + (lanesOf (effMask v p)).length ≤ 2048 →
    ∃ t u, exec (.sts p ty ad x) s = .next t ∧ t.view v.bid v.wid v.k = some u ∧ s.Went t none s.ir.succ
      ∧ (s.modBlk v.bid fun b => { b with fifos := u.b.fifos }).Kept t none none []
      ∧ (∀ r, r ≠ q → cget [] u.b.fifos r = cget [] v.b.fifos r)
      ∧ cget [] u.b.fifos q = cget [] v.b.fifos q ++ (lanesOf (effMask v p)).map fun l => BitVec.ofNat 128 (s.storeBits v ty x l))
  ∧ (∀ (s : State) (v : View) (p : Pred) (ty : Ty) (d : VNum) (ad : MAddr) (q : Nat), s.Slotted v →
    (Instr.lds p 0 ty d ad).wf = true → v.Calm → s.LaneRoom ty.pair → v.InWindow (d.toNat :: idxRegs ad.idx) → effMask v p ≠ 0 →
    (∀ l, l < 32 → (effMask v p).getLsbD l = true → v.b.fifoOf (s.ea v ad l).toNat = some q) →
    (lanesOf (effMask v p)).length ≤ (cget [] v.b.fifos q).length →
    ∃ t u, exec (.lds p 0 ty d ad) s = .next t ∧ t.view v.bid v.wid v.k = some u
      ∧ (∀ r, r ≠ q → cget [] u.b.fifos r = cget [] v.b.fifos r)
      ∧ cget [] u.b.fifos q = (cget [] v.b.fifos q).drop (lanesOf (effMask v p)).length
      ∧ (s.modBlk v.bid fun b => { b with fifos := u.b.fifos }).LanesDone t v p ty.pair d fun l =>
        fieldNum ty.isSigned (((cget [] v.b.fifos q)[((List.range l).filter fun j => (effMask v p).getLsbD j).length]?.map
          fun e => e.toNat % 2 ^ ty.bits).getD 0 : Nat) ty.bits)
  ∧ (∀ (s : State) (v : View) (p : Pred) (ty : Ty) (ad : MAddr) (x : MData) (q : Nat), s.Slotted v →
    (Instr.sts p ty ad x).wf = true → v.Calm → v.sl.unreplayed = false → v.InWindow (idxRegs ad.idx ++ dataRegs x) → q < v.b.kern.fifos → effMask v p ≠ 0 →
    (∀ l, l < 32 → (effMask v p).getLsbD l = true → v.b.fifoOf (s.ea v ad l).toNat = some q) →
    2048 < (cget [] v.b.fifos q).length + (lanesOf (effMask v p)).length → exec (.sts p ty ad x) s = .next s)

/-- R213, R214, R172: ATOM on package memory and ATOMS on scratch act lane by lane, ascending: a lane sees what lower lanes left at its
address, its new value is written there, and no other byte changes. The old values go to D and the success bits of a cas to its mask. -/
def Obligations.Atomics : Prop :=
  (∀ (s : State) (v : View) (p : Pred) (la : Look) (op : AtomOp) (ty : Ty) (ord : Ord) (sc : Scope) (ad : MAddr) (f : AtomForm)
    (pa cell : Nat → Nat) (mem : Nat → Nat → Byte), s.Slotted v → (Instr.atom p la op ty ord sc ad f).wf = true → v.Calm →
    s.Direct v → v.InWindow (idxRegs ad.idx ++ atomRegs f) → (la = 0 ∨ ord ≠ .none) →
    (∀ l, l < 32 → (effMask v p).getLsbD l = true → (s.ea v ad l).toNat % ty.bytes = 0
      ∧ s.Lands v.bid (s.ea v ad l).toNat ⟨true, true, false⟩ (pa l) (cell l) ty.bytes) →
    (∀ j c, mem j c = lanesWrite s.onAppend (effMask v p) cell ty.bytes
      (fun l m => atomRule op ty m (s.atomData v ty f l) (s.atomCmp v ty f l)) s.dramByte j c) →
    ∃ t, exec (.atom p la op ty ord sc ad f) s = .next t ∧ (∀ c, t.dramByte c = mem 32 c)
      ∧ (({ s with lines := t.lines }).acquired (coreOf v.bid) (decide (ord = Ord.acq) || decide (ord = Ord.ar)) sc).Kept t none (atomMask f)
        (atomPlaces v ty f)
      ∧ s.AtomDone t v ty (effMask v p) f (fun l => numberAt (mem l) (cell l) ty.bytes) (s.atomCmp v ty f))
  ∧ (∀ (s : State) (v : View) (p : Pred) (op : AtomOp) (ty : Ty) (ad : MAddr) (f : AtomForm) (mem : Nat → Nat → Byte),
    s.Slotted v → (Instr.atoms p 0 op ty ad f).wf = true → v.Calm → s.Room 24576 → v.InWindow (idxRegs ad.idx ++ atomRegs f) →
    v.b.sb = [] → s.Clean (coreOf v.bid) →
    (∀ l, l < 32 → (effMask v p).getLsbD l = true → v.b.fifoOf (s.ea v ad l).toNat = none ∧ (s.ea v ad l).toNat % ty.bytes = 0
      ∧ (s.ea v ad l).toNat + ty.bytes ≤ v.b.kern.shared) →
    (∀ j a, mem j a = lanesWrite (fun _ => false) (effMask v p) (fun l => v.b.scratchBase + (s.ea v ad l).toNat) ty.bytes
      (fun l m => atomRule op ty m (s.atomData v ty f l) (s.atomCmp v ty f l)) (fun a => cget 0 (s.core (coreOf v.bid)).store a) j a) →
    ∃ t, exec (.atoms p 0 op ty ad f) s = .next t ∧ (∀ a, cget 0 (t.core (coreOf v.bid)).store a = mem 32 a)
      ∧ (s.modCore (coreOf v.bid) fun k => { k with
        store := (t.core (coreOf v.bid)).store, storeBad := (t.core (coreOf v.bid)).storeBad }).Kept t none (atomMask f)
        (atomPlaces v ty f)
      ∧ s.AtomDone t v ty (effMask v p) f (fun l => numberAt (mem l) (v.b.scratchBase + (s.ea v ad l).toNat) ty.bytes)
        (s.atomCmp v ty f))

/-- R127, R128, R253: a long-latency load or atomic with a lookahead retires at once and is in flight; it completes, oldest first, by writing
its registers: a load at a home of package memory, or a result that was computed at issue. In a handler that a faulted load brought about,
a store retires and is held behind that load. -/
def Obligations.LookaheadFlights : Prop :=
  (∀ (s : State) (v : View) (i : Instr) (regs : List Nat) (la : Look) (a : Access), s.Slotted v → i.wf = true → v.Calm → s.Room 0 →
    accessRule s v i = some (regs, la, a) → v.InWindow regs → a.ord = .none → la ≠ 0 → s.windowWaits v.bid a = false →
    (∀ d, a.sd = some d → s.scalarOver d = false) →
    ∃ t u, exec i s = .next t ∧ t.view v.bid v.wid v.k = some u ∧ s.Kept t none none []
      ∧ u.sl = { v.sl.after s.ir none s.ir.succ with flights := [⟨.mem a, la.toNat, 0, s.ir.pc⟩] })
  ∧ (∀ (s : State) (v : View) (f : Flight) (r : List Flight) (d : VNum) (m : Word32) (x : VReg), s.cur = .slot v.bid v.wid v.k →
    s.view v.bid v.wid v.k = some v → v.b.frozen = .no → v.sl.status = .run → v.sl.flights = f :: r → f.op = .regs [(d, m, x)] →
    ∃ t u, exec (.longLatencyComplete v.bid v.wid v.k) s = .next t ∧ t.view v.bid v.wid v.k = some u ∧ u.sl = { v.sl with flights := r }
      ∧ s.Kept t none none [v.w.phys d.toNat]
      ∧ ∀ l, l < 32 → lane (t.vread v.bid v.w d.toNat) l
        = if m.getLsbD l then lane x l else lane (s.vread v.bid v.w d.toNat) l)
  ∧ (∀ (s : State) (v : View) (f : Flight) (r : List Flight) (a : Access) (d : VNum) (pa cell : Nat → Nat),
    s.cur = .slot v.bid v.wid v.k → s.view v.bid v.wid v.k = some v → v.b.frozen = .no → v.sl.status = .run → v.sl.flights = f :: r →
    v.sl.answers = [] → s.Bare (coreOf v.bid) → f.op = .mem a → a.kind = .load → a.scratch = false → a.ord = .none → a.cnt = none →
    (a.inOrder = true → s.countsOut s.cur = false) →
    a.vd = some d → a.sd = none → a.kd = none → a.ty.isMem = true → pairOk a.ty d = true → a.lanes.map LaneReq.lane = lanesOf a.mask →
    (∀ q, q ∈ a.lanes → q.lane < 32 ∧ s.Lands v.bid q.addr ⟨true, false, false⟩ (pa q.lane) (cell q.lane) a.ty.bytes) →
    ∃ t u, exec (.longLatencyComplete v.bid v.wid v.k) s = .next t ∧ t.view v.bid v.wid v.k = some u ∧ u.sl = { v.sl with flights := r }
      ∧ s.Kept t none none (if a.ty.pair then [v.w.phys d.toNat, v.w.phys (d + 1).toNat] else [v.w.phys d.toNat])
      ∧ (∀ l, l < 32 → lane (t.vread v.bid v.w d.toNat) l = if a.mask.getLsbD l
          then BitVec.ofInt 32 (fieldNum a.ty.isSigned (numberAt (s.homeByte (some v.bid)) (cell l) a.ty.bytes) a.ty.bits)
          else lane (s.vread v.bid v.w d.toNat) l)
      ∧ (a.ty.pair = true → ∀ l, l < 32 → lane (t.vread v.bid v.w (d + 1).toNat) l = if a.mask.getLsbD l
          then BitVec.ofNat 32 (numberAt (s.homeByte (some v.bid)) (cell l) a.ty.bytes / 2 ^ 32)
          else lane (s.vread v.bid v.w (d + 1).toNat) l))
  ∧ (∀ (s : State) (v : View) (p : Pred) (ty : Ty) (mo : MOrd) (ad : MAddr) (x : MData), s.Slotted v → (Instr.st p ty mo ad x).wf = true →
    v.Calm → s.Room 0 → v.sl.unreplayed = true → (s.core (coreOf v.bid)).colChange = none → v.InWindow (idxRegs ad.idx ++ dataRegs x) →
    ∃ t u f a, exec (.st p ty mo ad x) s = .next t ∧ t.view v.bid v.wid v.k = some u ∧ s.Kept t none none []
      ∧ u.sl = { v.sl.after s.ir none s.ir.succ with held := [f] } ∧ f.op = .mem a ∧ f.younger = 0 ∧ a.kind = .store
      ∧ a.lanes = s.laneReqs v p ad (s.storeBits v ty x) fun _ => 0)

/-- R215 to R217, R207, R251: FENCE. VH lands the upward bus first. Its release side at .dev or .sys commits the versions of the issuer's
block and leaves its core nothing dirty; after its acquire side there the core serves no copy that it took before; .blk and .core do
nothing. PREF writes no register and no memory, and brings a line into the column cache ways where there is one. -/
def Obligations.FenceAndPrefetch : Prop :=
  (∀ (s : State) (v : View) (k : Ord) (sc : Scope) (vh : Bool), s.Slotted v → s.Room 0 → s.writesOut s.cur = false → twf v.b.vers = true →
    ∃ t, exec (.fence k sc vh) s = .next t ∧ s.Went t none s.ir.succ ∧ s.RegsKept t
      ∧ (vh = true → ∀ w, w ∈ (t.core (coreOf v.bid)).wq → w.bus = false)
      ∧ (vh = false → sc ≠ .dev → sc ≠ .sys → s.Kept t none none [])
      ∧ (sc = .dev ∨ sc = .sys → (k = .rel ∨ k = .ar) → (∀ u, t.view v.bid v.wid v.k = some u → u.b.vers = [] ∧ u.b.isOpen = true)
          ∧ (∀ w, w ∈ (t.core (coreOf v.bid)).wq → w.bus = true)
          ∧ ((s.core (coreOf v.bid)).wq = [] → ∀ c, t.dramByte c = s.homeByte (some v.bid) c))
      ∧ (sc = .dev ∨ sc = .sys → (k = .acq ∨ k = .ar) → (s.core (coreOf v.bid)).time < (t.core (coreOf v.bid)).time
          ∧ ∀ key, (sc = .sys ∨ key < 2 ^ 48) → (t.core (coreOf v.bid)).serves key = none))
  ∧ (∀ (s : State) (b : Nat) (e : Engine) (ix : Nat) (x : Stream) (k : Ord) (sc : Scope) (vh : Bool), s.Streamed b e ix x →
    s.writesOut s.cur = false → ∃ t, exec (.fence k sc vh) s = .next t ∧ s.Went t none s.ir.succ ∧ s.RegsKept t)
  ∧ (∀ (s : State) (v : View) (p : Pred) (ad : MAddr), s.Slotted v → s.Room 0 → v.InWindow (idxRegs ad.idx) →
    ∃ t, exec (.pref p ad) s = .next t ∧ s.Went t none s.ir.succ ∧ s.RegsKept t ∧ (∀ c, t.dramByte c = s.dramByte c)
      ∧ (∀ c, cget 0 t.hostMem c = cget 0 s.hostMem c)
      ∧ (anyMode (s.core (coreOf v.bid)).colWays 0 16 = false → s.Kept t none none []))
  ∧ (∀ (s : State) (v : View) (p : Pred) (ad : MAddr) (l pa cell : Nat), s.Slotted v → s.Room 0 → v.InWindow (idxRegs ad.idx) →
    anyMode (s.core (coreOf v.bid)).colWays 0 16 = true → l < 32 → effMask v p = BitVec.ofNat 32 (2 ^ l) →
    s.locate v.bid ((s.ea v ad l).toNat / 256 * 256) ⟨true, false, false⟩ = (s, .ok (.dram pa cell)) → cell % 256 = 0 →
    s.parks pa cell = false → s.poisoned cell 256 = false →
    ∃ t, exec (.pref p ad) s = .next t ∧ ∀ j, j < 256 → ∃ x, (t.core (coreOf v.bid)).serves ((cell + j) / 64) = some x
      ∧ x.byte ((cell + j) % 64) = match (s.core (coreOf v.bid)).serves ((cell + j) / 64),
          (s.core (coreOf v.bid)).serves (sibling ((cell + j) / 64)) with
        | some y, some _ => y.byte ((cell + j) % 64)
        | _, _ => s.dramByte (cell + j))

/-- R49, R51, R52, R204, R214, R158: memory faults. An atomic on a misaligned address of one lane takes ALIGN, before any lane is performed:
the slot has folded, saves its successor with the access to be replayed and goes to its handler; CAUSE holds the code, the slot and the
lane and is not precise, SKID is 0. A scratch access outside the allocation takes PROTFAULT in the same way. -/
def Obligations.MemoryFaultEntry : Prop :=
  ∀ (s : State) (v : View) (i : Instr) (regs : List Nat) (la : Look) (a : Access) (l code : Nat), s.Slotted v → v.Handles →
    i.wf = true → v.Calm → accessRule s v i = some (regs, la, a) → s.windowWaits v.bid a = false → v.InWindow regs → (la = 0 ∨ a.ord ≠ .none) →
    (∃ q, a.lanes = [q] ∧ q.lane = l
      ∧ ((code = 0x13 ∧ q.addr % a.ty.bytes ≠ 0 ∧ ((∃ p op ty o sc ad f, i = .atom p la op ty o sc ad f)
            ∨ ∃ p op ty ad f, i = .atoms p la op ty ad f ∧ q.addr < 0x100000))
        ∨ (code = 0x11 ∧ v.b.kern.shared < q.addr + a.ty.bytes ∧ q.addr + a.ty.bytes < 0x100000 ∧ q.addr % a.ty.bytes = 0
          ∧ a.scratch = true))) →
    ∃ t, exec i s = .next t ∧ t = s.modSlot v.bid v.wid v.k fun x => { x with
      sig := 0, emask := x.k0, noFold := false, ir := s.ir, expand := none,
      cause := BitVec.ofNat 64 (code + v.k % 2 * 2 ^ 9 + l * 2 ^ 16), faultPc := s.ir.pc, skid := 0,
      frame := ⟨s.ir.succ, x.k0, x.sigAfter s.ir none, x.emask, .acc a 0, 0⟩, inHandler := true, replay := .none,
      resume := s.ir.succ, pc := BitVec.ofNat 57 v.b.kern.handler, status := .run }

/-- R78, R79, R81, R196 to R198, R127: PSPREAD, PFOLD, PSCAN and PGATH of one wave give every element of the destination plane its value, from
the source plane as it was at issue, and zero to the pads; with a lookahead the result is in flight. A wave above the fold's grid writes
nothing. R82, R199: along Y on a fold of several waves a computing instruction waits for its partners; the last wave to issue fires it:
every wave of the fold gets its rows of the result, from the sources as each gave them at its issue, and goes on at its successor. -/
def Obligations.PlaneComputing : Prop :=
  ((∀ (s : State) (v : View) (i : Instr) (o : PComp) (val : Elt → Nat) (f : Fold), s.Slotted v → i.wf = true → v.Calm →
    f = foldOf (v.w.fold o.f) → calcRule s v f (f.elemOf fun _ r => s.vread v.bid v.w (o.a.toNat + r)) i = some (o, true, val) →
    v.PlaneOk o.ty o.f [o.a.toNat, o.d.toNat] → v.wid < f.gy → (o.axis = .y → f.gy = 1) → s.Clean (coreOf v.bid) → o.la = 0 → s.Room 16384 →
    ∃ t, exec i s = .next t ∧ s.PlaneDone t v f o.d val)
  ∧ (∀ (s : State) (v : View) (i : Instr) (o : PComp) (val : Elt → Nat) (f : Fold), s.Slotted v → i.wf = true → v.Calm →
    f = foldOf (v.w.fold o.f) → calcRule s v f (f.elemOf fun _ r => s.vread v.bid v.w (o.a.toNat + r)) i = some (o, true, val) →
    v.PlaneOk o.ty o.f [o.a.toNat, o.d.toNat] → v.wid < f.gy → (o.axis = .y → f.gy = 1) → s.Clean (coreOf v.bid) → o.la ≠ 0 → s.Room 0 →
    ∃ t u w, exec i s = .next t ∧ t.view v.bid v.wid v.k = some u ∧ s.Kept t none none []
      ∧ u.sl = { v.sl.after s.ir none s.ir.succ with flights := [⟨.regs w, o.la.toNat, 0, s.ir.pc⟩] }
      ∧ s.PlaneHeld (s.writeRegs v.bid v.wid w) v.bid v.wid f o.d.toNat val)
  ∧ (∀ (s : State) (v : View) (i : Instr) (o : PComp) (val : Elt → Nat) (x : Elt → Nat), s.Slotted v → i.wf = true →
    calcRule s v (foldOf (v.w.fold o.f)) x i = some (o, true, val) → v.PlaneOk o.ty o.f [o.a.toNat, o.d.toNat] →
    (foldOf (v.w.fold o.f)).gy ≤ v.wid → s.Room 0 →
    ∃ t, exec i s = .next t ∧ s.Went t none s.ir.succ ∧ s.Kept t none none [])
  ∧ (∀ (s : State) (v : View) (i : Instr) (o : PComp) (ok : Bool) (val : Elt → Nat) (x : Elt → Nat), s.Slotted v → v.Handles →
    calcRule s v (foldOf (v.w.fold o.f)) x i = some (o, ok, val) →
    (ok = false ∨ v.w.split = true ∨ (foldOf (v.w.fold o.f)).set = false ∨ (o.ty ≠ .none ∧ o.ty ≠ (foldOf (v.w.fold o.f)).ty)
      ∨ v.w.win < o.a.toNat + (foldOf (v.w.fold o.f)).t ∨ v.w.win < o.d.toNat + (foldOf (v.w.fold o.f)).t) →
    ∃ t, exec i s = .next t ∧ s.Traps t v cILLEGAL s.ir.pc))
  ∧ ((∀ (s : State) (v : View) (i : Instr) (o : PComp) (val : Elt → Nat) (x : Elt → Nat), s.Slotted v → i.wf = true → v.Calm →
    calcRule s v (foldOf (v.w.fold o.f)) x i = some (o, true, val) → v.PlaneOk o.ty o.f [o.a.toNat, o.d.toNat] →
    v.wid < (foldOf (v.w.fold o.f)).gy → 1 < (foldOf (v.w.fold o.f)).gy → o.axis = .y → s.Clean (coreOf v.bid) →
    (∀ w y, tget v.b.waves w = some y → y.plane = none) →
    ∃ t u, exec i s = .next t ∧ t.view v.bid v.wid v.k = some u ∧ u.sl = { v.sl with status := .plane, ir := s.ir }
      ∧ (∀ who n, t.sread who n = s.sread who n) ∧ (∀ c p, (t.core c).reg p = (s.core c).reg p)
      ∧ u.b.planeSet = v.b.planeSet ||| BitVec.ofNat 32 (2 ^ v.wid))
  ∧ (∀ (s : State) (v : View) (i : Instr) (o : PComp) (op : RedOp) (val : Elt → Nat) (f : Fold) (src : Nat → Nat → VReg),
    s.Slotted v → v.Calm → (i = .pspread o ∨ i = .pfold o op ∨ i = .pscan o op 0) → i.wf = true → f = foldOf (v.w.fold o.f) →
    calcRule s v f (f.elemOf src) i = some (o, true, val) → v.PlaneOk o.ty o.f [o.a.toNat, o.d.toNat] →
    v.wid < f.gy → 1 < f.gy → o.axis = .y → s.Clean (coreOf v.bid) → v.b.isOpen = true → twf v.b.waves = true →
    (∀ r, r < f.t → src v.wid r = s.vread v.bid v.w (o.a.toNat + r)) →
    (∀ w y, tget v.b.waves w = some y → (w < f.gy ∧ w ≠ v.wid ∧ ∃ q, y.plane = some q) ∨ y.plane = none) →
    (∀ w, w < f.gy → w ≠ v.wid → ∃ y q, tget v.b.waves w = some y ∧ y.plane = some q ∧ y.s0.status = .plane ∧ y.split = false
      ∧ q.gy = f.gy - 1 ∧ q.vd = o.d.toNat ∧ q.fold = v.w.fold o.f ∧ q.fold2 = v.w.fold o.f
      ∧ q.src = (List.range f.t).map (src w)
      ∧ ((i = .pspread o ∧ q.op = .spread .y ∧ q.key = [f.ix, 4, 1, o.a.toNat, o.d.toNat])
        ∨ (i = .pfold o op ∧ q.op = .fold .y op ∧ q.key = [f.ix, 5, 1, o.a.toNat, o.d.toNat, op.code.toNat])
        ∨ (i = .pscan o op 0 ∧ q.op = .scan .y op 0 ∧ q.key = [f.ix, 6, 1, o.a.toNat, o.d.toNat, op.code.toNat, 0]))) →
    (∀ w z y x, tget v.b.waves w = some y → tget v.b.waves z = some x → w ≠ z →
      y.runBase + y.runLen ≤ x.runBase ∨ x.runBase + x.runLen ≤ y.runBase) →
    (∀ w y, tget v.b.waves w = some y → w < f.gy → y.base - y.bottom + o.d.toNat + f.t ≤ y.runLen) →
    ∃ t, exec i s = .next t ∧ s.Went t none s.ir.succ ∧ (∀ who n, t.sread who n = s.sread who n)
      ∧ (∀ c, t.dramByte c = s.dramByte c)
      ∧ ∀ w, w < f.gy → s.PlaneHeld t v.bid w f o.d.toNat val
        ∧ ∀ y, tget v.b.waves w = some y → w ≠ v.wid → ∃ u, t.view v.bid w 0 = some u ∧ u.w.plane = none
          ∧ u.sl = y.s0.after y.s0.ir none y.s0.ir.succ))

/-- R84, R86, R88, R195, R77, R194: PSHIFT, PROT, PTRANS and REFOLD of one wave run the entry of their record: each slot of each position of
the destination holds what the last step that writes it put there, zero where none does or where no element lies; without an entry they
are ILLEGAL. FOLDSET takes a record that is valid, and is ILLEGAL on any other, leaving its register. -/
def Obligations.PlaneSchedules : Prop :=
  (∀ (s : State) (v : View) (i : Instr) (ty : Ty) (d a : VNum) (fs ft : FNum) (want : PEnt → Bool) (f g : Fold) (bytes : List Byte)
    (x : Nat) (steps : List (BitVec 128)), s.Slotted v → i.wf = true → v.Calm → moveRule v i = some (ty, 0, d, a, fs, ft, want) →
    f = foldOf (v.w.fold fs) → g = foldOf (v.w.fold ft) → v.PlaneOk ty fs [a.toNat] → v.PlaneOk .none ft [d.toNat] →
    f.agrees g = true → v.wid < f.gy → s.Clean (coreOf v.bid) → s.Room 16384 → s.foldBytes v.b.kern f.ix true = .ok s bytes →
    (recOf bytes).ents.find? (fun y => want (entOf y)) = some x →
    steps = ((recOf bytes).steps.drop (entOf x).first).take (entOf x).count →
    (f.gy = 1 ∨ ((∀ w, w ∈ steps → (stepOf w).permute = true ∨ (stepOf w).axisY = false)
      ∧ ((∃ o, i = .pshift o) ∨ ∃ o, i = .prot o))) →
    (∀ w, w ∈ steps → f.stepOk w = true ∧ offsetsOk (stepOf w) (if (entOf x).once then f.t else f.p)
      (if (entOf x).once then g.t else g.p) = true) →
    ∃ t, exec i s = .next t ∧ s.Went t none s.ir.succ
      ∧ s.Kept t none none ((List.range g.t).map fun r => v.w.phys (d.toNat + r))
      ∧ (∀ gx r sl, gx < g.gx → r < g.t → sl < g.slots → g.get (lane (t.vread v.bid v.w (d.toNat + r)) gx) sl
        = match g.elt gx v.wid r sl with
          | none => 0
          | some e => if (entOf x).once then schedRule f v.wid 0 (fun r => s.vread v.bid v.w (a.toNat + r)) steps gx r sl
            else schedRule f v.wid (e.z * f.zs + e.w * f.ws) (fun r => s.vread v.bid v.w (a.toNat + r)) steps gx
              (r - (e.z * g.zs + e.w * g.ws)) sl)
      ∧ ∀ l r, g.gx ≤ l → l < 32 → r < g.t → lane (t.vread v.bid v.w (d.toNat + r)) l = lane (s.vread v.bid v.w (d.toNat + r)) l)
  ∧ (∀ (s : State) (v : View) (i : Instr) (ty : Ty) (la : Look) (d a : VNum) (fs ft : FNum) (want : PEnt → Bool) (bytes : List Byte),
    s.Slotted v → v.Handles → v.Calm → moveRule v i = some (ty, la, d, a, fs, ft, want) → v.PlaneOk ty fs [a.toNat] →
    v.PlaneOk .none ft [d.toNat] → v.wid < (foldOf (v.w.fold fs)).gy →
    s.foldBytes v.b.kern (foldOf (v.w.fold fs)).ix true = .ok s bytes →
    (recOf bytes).ents.find? (fun y => want (entOf y)) = none →
    ∃ t, exec i s = .next t ∧ s.Traps t v cILLEGAL s.ir.pc)
  ∧ (∀ (s : State) (v : View) (f : FNum) (ix : BitVec 32) (d : List Byte), s.Slotted v → v.Handles → v.Calm → s.Room 0 →
    v.w.split = false → ix.toNat < v.b.kern.nfold → s.foldBytes v.b.kern ix.toNat true = .ok s d →
    (∀ y, y ∈ (recOf d).ents → (entOf y).op ≠ 2) → fld d 16 2 ≤ 64 → fld d 18 2 ≤ 4096 →
    ∃ t, exec (.foldset f ix) s = .next t
      ∧ if (recOf d).ok v.b.kern.blockX v.b.nwaves v.b.kern.nfold (fun _ => none) = true
        then s.Went t none s.ir.succ ∧ (∀ u, t.view v.bid v.wid v.k = some u → u.w.fold f = (recOf d).image
            ∧ ∀ n, n ≠ f → u.w.fold n = v.w.fold n)
          ∧ (s.modWave v.bid v.wid fun w => { w with folds := cset 0 w.folds f.toNat (recOf d).image }).Kept t none none []
        else s.Traps t v cILLEGAL s.ir.pc)

/-- R212, R81, R96: PLD gives every element of the plane that the wave holds its bytes of the dense image in scratch, and zero to the pads;
PST writes every element the wave holds to its place of the image and no other byte. -/
def Obligations.PlaneTransfers : Prop :=
  (∀ (s : State) (v : View) (ty : Ty) (d : VNum) (base : SReg) (disp : Option (BitVec 32)) (f : FNum) (g : Fold) (o : Nat),
    s.Slotted v → (Instr.pld 0 ty d base disp f).wf = true → v.Calm → g = foldOf (v.w.fold f) → v.PlaneOk ty f [d.toNat] →
    v.wid < g.gy → v.b.sb = [] → s.Clean (coreOf v.bid) → s.Room 16384 → o = (s.sread s.cur base + dispOf disp).toNat →
    o + g.ty.bytes * (g.vx * g.vy * g.vz * g.vw) ≤ v.b.kern.shared → v.b.kern.shared ≤ 0x100000 →
    ∃ t, exec (.pld 0 ty d base disp f) s = .next t ∧ s.PlaneDone t v g d fun e =>
      numberAt (fun a => cget 0 (s.core (coreOf v.bid)).store (v.b.scratchBase + a)) (o + g.imageAt e) g.ty.bytes)
  ∧ (∀ (s : State) (v : View) (ty : Ty) (d : VNum) (base : SReg) (disp : Option (BitVec 32)) (f : FNum) (g : Fold) (o : Nat),
    s.Slotted v → (Instr.pst ty base disp d f).wf = true → v.Calm → g = foldOf (v.w.fold f) → v.PlaneOk ty f [d.toNat] →
    v.wid < g.gy → v.b.sb = [] → s.Clean (coreOf v.bid) → v.b.isOpen = true → o = (s.sread s.cur base + dispOf disp).toNat →
    o + g.ty.bytes * (g.vx * g.vy * g.vz * g.vw) ≤ v.b.kern.shared → v.b.kern.shared ≤ 0x100000 →
    ∃ t, exec (.pst ty base disp d f) s = .next t ∧ s.Went t none s.ir.succ
      ∧ (s.modCore (coreOf v.bid) fun k => { k with
        store := (t.core (coreOf v.bid)).store, storeBad := (t.core (coreOf v.bid)).storeBad }).Kept t none none []
      ∧ (∀ e, g.has e → (g.place e).2.1 = v.wid → ∀ i, i < g.ty.bytes →
        cget 0 (t.core (coreOf v.bid)).store (v.b.scratchBase + o + g.imageAt e + i)
          = byteOf (g.elemOf (fun _ r => s.vread v.bid v.w (d.toNat + r)) e) i)
      ∧ ∀ a, (∀ e i, g.has e → (g.place e).2.1 = v.wid → i < g.ty.bytes → a ≠ v.b.scratchBase + o + g.imageAt e + i) →
        cget 0 (t.core (coreOf v.bid)).store a = cget 0 (s.core (coreOf v.bid)).store a)

/-- R200, R201: a VOTE of the issuing wave alone gives sD the reduction of the lanes that take part, under the common mask where there is one;
a lane whose mask differs from the first lane's traps MASKMISMATCH with its number in AUX. A vote of a group waits for the other members,
and of a group that the wave is no member of is ILLEGAL. R202: REGROUP waits for the other wave of its group; then, if the donor's lanes
do not fit, both waves read zero and run on; else the lower wave takes the higher wave's lanes, one by one, into its lowest free lanes,
with its vector and mask registers, and reads which; the higher wave ends. -/
def Obligations.VotesAndRegrouping : Prop :=
  ((∀ (s : State) (v : View) (p : Pred) (op : RedOp) (ty : Ty) (d : SReg) (a : VSrc) (m : Option VNum) (mask : Word32),
    s.Slotted v → (Instr.vote p op ty d a m none).wf = true → v.Alone → v.w.gslots = [] →
    v.InWindow (vsrcRegs a ++ (m.map fun n => n.toNat).toList) → s.scalarOver d = false → s.findBlk v.b.grid v.b.blockId = some v.bid →
    (∀ l n, l < 32 → (effMask v p).getLsbD l = true → m = some n → lane (s.vread v.bid v.w n.toNat) l = mask) →
    ∃ t, exec (.vote p op ty d a m none) s = .next t ∧ s.Went t none s.ir.succ ∧ s.Kept t (some d) none []
      ∧ t.sread s.cur d = if d = 0 then 0 else BitVec.ofInt 64 (voteRule op ty
        ((List.range 32).filter fun l => (effMask v p).getLsbD l && (m.isNone || mask.getLsbD l)) fun l => s.opInt v ty a l))
  ∧ (∀ (s : State) (v : View) (p : Pred) (op : RedOp) (ty : Ty) (d : SReg) (a : VSrc) (n : VNum) (i l : Nat), s.Slotted v → v.Handles →
    (Instr.vote p op ty d a (some n) none).wf = true → v.Alone → v.w.gslots = [] → v.InWindow (vsrcRegs a ++ [n.toNat]) →
    s.scalarOver d = false → s.findBlk v.b.grid v.b.blockId = some v.bid → i < l → l < 32 →
    (effMask v p).getLsbD i = true → (∀ j, j < i → (effMask v p).getLsbD j = false) → (effMask v p).getLsbD l = true →
    lane (s.vread v.bid v.w n.toNat) l ≠ lane (s.vread v.bid v.w n.toNat) i →
    (∀ j, j < l → (effMask v p).getLsbD j = true → lane (s.vread v.bid v.w n.toNat) j = lane (s.vread v.bid v.w n.toNat) i) →
    ∃ t u, exec (.vote p op ty d a (some n) none) s = .next t ∧ t.view v.bid v.wid v.k = some u ∧ u.sl.inHandler = true
      ∧ u.sl.pc = BitVec.ofNat 57 v.b.kern.handler ∧ u.sl.cause = BitVec.ofNat 64 (0x08 + 2 ^ 8 + l * 2 ^ 16)
      ∧ u.sl.faultPc = s.ir.pc ∧ u.sl.frame.resume = s.ir.pc ∧ s.Kept t none none [])
  ∧ (∀ (s : State) (v : View) (p : Pred) (op : RedOp) (ty : Ty) (d : SReg) (a : VSrc) (m : Option VNum) (g : BitVec 8) (gr : Grid)
    (x : Group) (ix j : Nat), s.Slotted v → (Instr.vote p op ty d a m (some g)).wf = true → v.Alone → v.w.gslots = [] →
    v.InWindow (vsrcRegs a ++ (m.map fun n => n.toNat).toList) → s.scalarOver d = false →
    s.groupOf v.b v.w g.toNat = some (gr, x, ix) → j < gr.size x → j ∉ x.ended → j ≠ ix → (∀ e, e ∈ x.vote → e.1 ≠ j) →
    ∃ t u, exec (.vote p op ty d a m (some g)) s = .next t ∧ t.view v.bid v.wid v.k = some u
      ∧ u.sl = { v.sl with status := .vote g.toNat d (decide (ty = .s32)), ir := s.ir } ∧ u.b.isOpen = true ∧ s.RegsKept t)
  ∧ (∀ (s : State) (v : View) (p : Pred) (op : RedOp) (ty : Ty) (d : SReg) (a : VSrc) (m : Option VNum) (g : BitVec 8), s.Slotted v →
    v.Handles → s.groupOf v.b v.w g.toNat = none →
    ∃ t, exec (.vote p op ty d a m (some g)) s = .next t ∧ s.Traps t v cILLEGAL s.ir.pc))
  ∧ ((∀ (s : State) (v : View) (d : SReg) (g : BitVec 8) (gr : Grid) (x : Group) (ix : Nat), s.Slotted v → v.Alone → v.w.gslots = [] →
    s.groupOf v.b v.w g.toNat = some (gr, x, ix) → (gr.alive x).length = 2 →
    (∀ i, i ∈ gr.alive x → (gr.member x i).1 = v.b.blockId) → x.regroup = [] →
    ∃ t u, exec (.regroup d g) s = .next t ∧ t.view v.bid v.wid v.k = some u
      ∧ u.sl = { v.sl with status := .regroup g.toNat d, ir := s.ir } ∧ u.b.isOpen = true ∧ s.RegsKept t)
  ∧ (∀ (s : State) (v y : View) (d e : SReg) (g : BitVec 8) (gr : Grid) (x : Group) (ix j : Nat), s.Slotted v → v.Alone → y.Alone →
    v.w.gslots = [] → s.view v.bid y.wid 0 = some y → y.wid ≠ v.wid → y.sl.status = .regroup g.toNat e → d ≠ 0 → e ≠ 0 →
    s.groupOf v.b v.w g.toNat = some (gr, x, ix) → gr.alive x = [min ix j, max ix j] → ix ≠ j → gr.member x j = (v.b.blockId, y.wid) →
    gr.member x ix = (v.b.blockId, v.wid) → x.regroup = [j] → v.w.noRegroup = false → y.w.noRegroup = false → v.w.win = y.w.win →
    popc32 (v.b.present &&& ~~~ (if v.wid < y.wid then v.sl.k0 else y.sl.k0)) < popc32 (if v.wid < y.wid then y.sl.k0 else v.sl.k0) →
    ∃ t, exec (.regroup d g) s = .next t ∧ s.Went t none s.ir.succ ∧ t.sread s.cur d = 0 ∧ t.sread (.slot v.bid y.wid 0) e = 0
      ∧ (∃ u, t.view v.bid y.wid 0 = some u ∧ u.sl = y.sl.after y.sl.ir none y.sl.ir.succ)
      ∧ ∀ c p, (t.core c).reg p = (s.core c).reg p)
  ∧ (∀ (s : State) (v y a b : View) (d e : SReg) (g : BitVec 8) (gr : Grid) (x : Group) (ix j : Nat) (tgt : Nat → Nat) (m : Word32),
    s.Slotted v → v.Alone → y.Alone → v.w.gslots = [] → s.view v.bid y.wid 0 = some y → y.wid ≠ v.wid →
    y.sl.status = .regroup g.toNat e → d ≠ 0 → e ≠ 0 → s.groupOf v.b v.w g.toNat = some (gr, x, ix) →
    gr.alive x = [min ix j, max ix j] → ix ≠ j → gr.member x j = (v.b.blockId, y.wid) → gr.member x ix = (v.b.blockId, v.wid) →
    x.regroup = [j] → v.w.noRegroup = false → y.w.noRegroup = false → v.w.win = y.w.win →
    ((v.wid < y.wid ∧ a = v ∧ b = y) ∨ (y.wid < v.wid ∧ a = y ∧ b = v)) → b.wid < 2 ^ 31 →
    (∀ l k, l < 32 → k < 32 → b.sl.k0.getLsbD l = true → b.sl.k0.getLsbD k = true → l < k → tgt l < tgt k) →
    (∀ l, l < 32 → b.sl.k0.getLsbD l = true → tgt l < 32 ∧ (v.b.present &&& ~~~ a.sl.k0).getLsbD (tgt l) = true) →
    (∀ k, k < 32 → (m.getLsbD k = true ↔ ∃ l, l < 32 ∧ b.sl.k0.getLsbD l = true ∧ tgt l = k)) →
    (∀ k i, k < i → i < 32 → m.getLsbD i = true → (v.b.present &&& ~~~ a.sl.k0).getLsbD k = true → m.getLsbD k = true) →
    (a.w.runBase + a.w.runLen ≤ b.w.runBase ∨ b.w.runBase + b.w.runLen ≤ a.w.runBase) →
    a.w.base - a.w.bottom + a.w.win ≤ a.w.runLen → b.w.base - b.w.bottom + b.w.win ≤ b.w.runLen →
    s.Clean (coreOf v.bid) → (∀ q, q ∈ b.w.members → q.1 = g.toNat) → x.vote = [] → x.gathering = false → x.held = [] →
    ∃ t u w, exec (.regroup d g) s = .next t ∧ t.view v.bid a.wid 0 = some u ∧ t.view v.bid b.wid 0 = some w
      ∧ u.sl.status = .run ∧ u.sl.k0 = a.sl.k0 ||| m ∧ u.sl.pc = (if a.wid = v.wid then s.ir.succ else y.sl.ir.succ)
      ∧ t.sread (.slot v.bid a.wid 0) (if a.wid = v.wid then d else e) = BitVec.ofNat 64 (2 ^ 63 + b.wid * 2 ^ 32 + m.toNat)
      ∧ (∀ n l, n < a.w.win → l < 32 → lane (t.vread v.bid u.w n) l
        = if m.getLsbD l then ((List.range 32).find? fun k => b.sl.k0.getLsbD k && decide (tgt k = l)).elim 0 fun k =>
            lane (s.vread v.bid b.w n) k
          else lane (s.vread v.bid a.w n) l)
      ∧ (∀ (n : KNum) l, n ≠ 0 → l < 32 → (kread u n).getLsbD l
        = if m.getLsbD l then ((List.range 32).find? fun k => b.sl.k0.getLsbD k && decide (tgt k = l)).elim false fun k =>
            (kread b n).getLsbD k
          else (kread a n).getLsbD l)
      ∧ w.w.live = false ∧ w.w.active = false ∧ w.w.s0.status = .off))

/-- R45, R237, R308, R310: BAR makes a slot wait; its wave arrives when each of its live slots has; the barrier closes when every wave that
has not ended has arrived. When closing is done the versions are committed, the interval is counted, its snapshot is taken, and every wave
goes on. R239, R303: GBAR without a mask. A member that arrives before the others waits, after its release side; the last to arrive ends
the phase, and it and every member that waits go on at their successors. A wave that is no member is ILLEGAL. -/
def Obligations.Barriers : Prop :=
  ((∀ (s : State) (v : View), s.Slotted v → s.Room 0 → v.wid < 32 →
    (∀ j, j ∈ v.w.liveSlots → j = v.k ∨ j ∈ v.w.barIssued) → v.k < 2 →
    ∃ t u, exec .bar s = .next t ∧ t.view v.bid v.wid v.k = some u
      ∧ u.sl = { v.sl.after s.ir none s.ir.succ with status := .bar } ∧ u.b.barArr = v.b.barArr ||| BitVec.ofNat 32 (2 ^ v.wid)
      ∧ (u.b.closing = true ↔ v.b.closing = true
        ∨ ∀ e, e ∈ v.b.waves → e.2.live = true → e.1 = v.wid ∨ v.b.barArr.getLsbD e.1 = true)
      ∧ s.RegsKept t ∧ ∀ c, t.dramByte c = s.dramByte c)
  ∧ (∀ (s : State) (v : View), s.Slotted v → s.Room 0 → v.k < 2 → v.other.live = true → (1 - v.k) ∉ v.w.barIssued →
    ∃ t u, exec .bar s = .next t ∧ t.view v.bid v.wid v.k = some u
      ∧ u.sl = { v.sl.after s.ir none s.ir.succ with status := .bar } ∧ u.b.barArr = v.b.barArr ∧ u.b.closing = v.b.closing
      ∧ s.RegsKept t)
  ∧ (∀ (s : State) (bid : Nat) (b : Block), s.blk bid = some b → b.closing = true → b.frozen = .no → b.mat.queue0 = [] →
    b.mat.queue1 = [] → b.mat.queue2 = [] → b.mat.queue3 = [] → twf b.vers = true →
    ∃ t u, exec (.barrierCloseDone bid) s = .next t ∧ t.blk bid = some u ∧ u.interval = b.interval + 1 ∧ u.wdStart = s.clock
      ∧ u.barArr = 0 ∧ u.closing = false ∧ u.isOpen = false ∧ u.rolled = false ∧ u.vers = [] ∧ u.touched = []
      ∧ (∃ n, u.snap = some n ∧ n.n = b.interval + 1)
      ∧ (∀ c, t.dramByte c = s.homeByte (some bid) c) ∧ (∀ who n, t.sread who n = s.sread who n)
      ∧ ∀ w y, tget b.waves w = some y → ∃ z, tget u.waves w = some z ∧ z.barIssued = []
        ∧ z.s0 = { y.s0 with status := if y.s0.status = .bar then .run else y.s0.status }
        ∧ z.s1 = { y.s1 with status := if y.s1.status = .bar then .run else y.s1.status }))
  ∧ ((∀ (s : State) (v : View) (sc : Scope) (g : BitVec 8) (gr : Grid) (x : Group) (ix j : Nat), s.Slotted v → v.Alone → v.w.gslots = [] →
    s.groupOf v.b v.w g.toNat = some (gr, x, ix) → s.writesOut s.cur = false → x.gathering = false → x.arrived = [] → x.held = [] →
    j < gr.size x → j ≠ ix → j ∉ x.ended →
    ∃ t u gr' x', exec (.gbar sc g none) s = .next t ∧ t.view v.bid v.wid v.k = some u
      ∧ u.sl = { v.sl with status := .gbar g.toNat, ir := s.ir } ∧ tget t.grids v.b.grid = some gr'
      ∧ tget gr'.groups g.toNat = some x' ∧ x' = { x with gathering := true, m := false, mask := 0, arrived := [ix] }
      ∧ (sc = .dev ∨ sc = .sys → u.b.isOpen = true) ∧ s.RegsKept t)
  ∧ (∀ (s : State) (v : View) (sc : Scope) (g : BitVec 8) (gr : Grid) (x : Group) (ix : Nat), s.Slotted v → v.Alone → v.w.gslots = [] →
    s.groupOf v.b v.w g.toNat = some (gr, x, ix) → s.writesOut s.cur = false → x.gathering = true → x.m = false → ix ∉ x.arrived →
    x.held = [] → gr.member x ix = (v.b.blockId, v.wid) → s.findBlk v.b.grid v.b.blockId = some v.bid →
    (∀ i, i < gr.size x → i = ix ∨ i ∈ x.ended ∨ i ∈ x.arrived) →
    (∀ i, i ∈ x.arrived → gr.member x i ≠ (v.b.blockId, v.wid)) →
    ∃ t gr' x', exec (.gbar sc g none) s = .next t ∧ s.Went t none s.ir.succ ∧ tget t.grids v.b.grid = some gr'
      ∧ tget gr'.groups g.toNat = some x' ∧ x'.gathering = false ∧ x'.arrived = [] ∧ s.RegsKept t
      ∧ ∀ i bid y, i ∈ x.arrived → s.findBlk v.b.grid (gr.member x i).1 = some bid → s.view bid (gr.member x i).2 0 = some y →
        y.sl.status = .gbar g.toNat →
        ∃ u, t.view bid (gr.member x i).2 0 = some u ∧ u.sl = y.sl.after y.sl.ir none y.sl.ir.succ)
  ∧ (∀ (s : State) (v : View) (sc : Scope) (g : BitVec 8), s.Slotted v → v.Handles → s.groupOf v.b v.w g.toNat = none →
    ∃ t, exec (.gbar sc g none) s = .next t ∧ s.Traps t v cILLEGAL s.ir.pc))

/-- R45, R238, R309: BARN of a wave. An arrival that does not complete the phase is recorded, with its count, value and receiver, and waits
unless .arv; one that completes it opens the next phase, releases the waves that arrived, of which a slot whose wave has not waits on, and
gives the receiver the phase's value; a second arrival stalls and counts in the next phase; another count is ILLEGAL and is not recorded. -/
def Obligations.NumberedBarriers : Prop :=
  (∀ (s : State) (v : View) (arv : Bool) (rcv : Option SReg) (n : BitVec 8) (count : BitVec 7) (dlv : Option SReg) (x : NBar),
    s.Slotted v → (Instr.barn arv rcv n count dlv).wf = true → s.Room 0 → v.Alone → v.wid < 32 → v.w.barn = [] →
    (∀ d, rcv = some d → s.scalarOver d = false) → x = v.b.nbar n.toNat → x.warr.getLsbD v.wid = false →
    (count = 0 ∨ x.count = 0 ∨ count.toNat = x.count) →
    ((x.count = 0 ∧ count = 0) ∨ x.arrivals + 1 < max x.count count.toNat) →
    ∃ t u, exec (.barn arv rcv n count dlv) s = .next t ∧ t.view v.bid v.wid v.k = some u
      ∧ u.sl = { v.sl.after s.ir none s.ir.succ with
        status := if arv then .run else .barn n.toNat x.parity false, pending := v.sl.pending ++ rcv.toList }
      ∧ u.b.nbar n.toNat = { x with
          warr := x.warr ||| BitVec.ofNat 32 (2 ^ v.wid), count := max x.count count.toNat,
          rcv := x.rcv ++ rcv.toList.map fun d => (.slot v.bid v.wid v.k, d),
          value := (match dlv with
            | some a => if (x.dwave.elim true fun w => decide (v.wid < w)) then s.sread s.cur a else x.value
            | none => x.value),
          dwave := (match dlv with
            | some _ => if (x.dwave.elim true fun w => decide (v.wid < w)) then some v.wid else x.dwave
            | none => x.dwave) }
      ∧ s.RegsKept t)
  ∧ (∀ (s : State) (v : View) (arv : Bool) (rcv : Option SReg) (n : BitVec 8) (count : BitVec 7) (dlv : Option SReg) (x : NBar)
    (val : Word64), s.Slotted v → (Instr.barn arv rcv n count dlv).wf = true → s.Room 0 → v.Alone → v.wid < 32 → v.w.barn = [] →
    v.sl.pending = [] → (∀ d, rcv = some d → s.scalarOver d = false) → x = v.b.nbar n.toNat → x.warr.getLsbD v.wid = false →
    x.held = [] → x.rcv = [] → (∀ w y k, tget v.b.waves w = some y → (y.slot k).status ≠ .barn n.toNat x.parity true) →
    (count = 0 ∨ x.count = 0 ∨ count.toNat = x.count) → max x.count count.toNat ≠ 0 →
    max x.count count.toNat ≤ x.arrivals + 1 →
    val = (match dlv with
      | some a => if (x.dwave.elim true fun w => decide (v.wid < w)) then s.sread s.cur a else x.value
      | none => x.value) →
    ∃ t u, exec (.barn arv rcv n count dlv) s = .next t ∧ t.view v.bid v.wid v.k = some u ∧ s.Went t none s.ir.succ
      ∧ u.b.nbar n.toNat = NBar.idle (!x.parity) ∧ (∀ d, rcv = some d → t.sread s.cur d = if d = 0 then 0 else val)
      ∧ (∀ who d, ((∃ k, who = .slot v.bid v.wid k) → rcv ≠ some d) → t.sread who d = s.sread who d)
      ∧ (∀ w y, tget v.b.waves w = some y → w ≠ v.wid → ∃ z, tget u.b.waves w = some z
        ∧ z.s0 = { y.s0 with status := if y.s0.status = .barn n.toNat x.parity false
            then (if x.warr.getLsbD w then .run else .barn n.toNat (!x.parity) false) else y.s0.status })
      ∧ ∀ c, t.dramByte c = s.dramByte c)
  ∧ (∀ (s : State) (v : View) (arv : Bool) (rcv : Option SReg) (n : BitVec 8) (count : BitVec 7) (dlv : Option SReg) (x : NBar),
    s.Slotted v → v.Alone → v.w.barn = [] → (∀ d, rcv = some d → s.scalarOver d = false) → x = v.b.nbar n.toNat →
    x.warr.getLsbD v.wid = true →
    ∃ t u, exec (.barn arv rcv n count dlv) s = .next t ∧ t.view v.bid v.wid v.k = some u
      ∧ u.sl = { v.sl with status := .barn n.toNat x.parity true, ir := s.ir, pending := v.sl.pending ++ rcv.toList }
      ∧ u.b.nbar n.toNat = { x with held := x.held ++ [.slot v.bid v.wid 0] } ∧ s.RegsKept t)
  ∧ (∀ (s : State) (v : View) (arv : Bool) (rcv : Option SReg) (n : BitVec 8) (count : BitVec 7) (dlv : Option SReg), s.Slotted v →
    v.Handles → v.w.barn = [] → (v.b.nbar n.toNat).warr.getLsbD v.wid = false → count ≠ 0 → (v.b.nbar n.toNat).count ≠ 0 →
    count.toNat ≠ (v.b.nbar n.toNat).count →
    ∃ t, exec (.barn arv rcv n count dlv) s = .next t ∧ s.Traps t v cILLEGAL s.ir.pc)

/-- R209, R240, R241, R311 to R314: BOINIT gives a barrier object its 64 bytes, BOARR adds to its COUNT, which releases a waiter whose target
some value on the way reaches; BOWAIT completes when COUNT has reached its target, else registers a waiter. The increments of a counted
store arrive, or are dropped with a stale tag; a waiter that polls reads the object every 256 clocks. -/
def Obligations.BarrierObjects : Prop :=
  (∀ (s : State) (bid : Nat) (b : Block) (sc : Scope) (a : SReg) (n : BitVec 32) (o : Obj), s.HasIssuer → s.DirectIn bid b →
    s.ObjAt bid (s.sread s.cur a).toNat ⟨false, true, false⟩ o → (∀ w, w ∈ s.waiters → w.cell ≠ o.key) →
    ∃ t, exec (.boinit sc a n) s = .next t ∧ s.Went t none s.ir.succ
      ∧ ({ s with lines := t.lines, poison := t.poison }).Kept t none none []
      ∧ ∀ c, t.dramByte c = if o.key ≤ c ∧ c < o.key + 64 ∧ s.onAppend c = false then byteOf n.toNat (c - o.key) else s.dramByte c)
  ∧ (∀ (s : State) (bid : Nat) (b : Block) (ord : Ord) (sc : Scope) (a : SReg) (n : BitVec 8) (o : Obj), s.HasIssuer → s.DirectIn bid b →
    s.ObjAt bid (s.sread s.cur a).toNat ⟨true, true, false⟩ o → (∀ w, w ∈ s.waiters → w.cell ≠ o.key) →
    ∃ t, exec (.boarr ord sc a n) s = .next t ∧ s.Went t none s.ir.succ ∧ ({ s with lines := t.lines }).Kept t none none []
      ∧ s.CountIs t o.key (s.countAt o.key + n.toNat))
  ∧ (∀ (s : State) (bid : Nat) (b : Block) (ord : Ord) (sc : Scope) (a : SReg) (n : BitVec 8) (o : Obj) (w : Waiter) (tgt : Nat)
    (y : View), s.HasIssuer → s.DirectIn bid b → s.ObjAt bid (s.sread s.cur a).toNat ⟨true, true, false⟩ o → s.waiters = [w] →
    w.cell = o.key → w.polling = false → w.peer = none → w.target = some tgt → w.who = .slot y.bid y.wid y.k → s.view y.bid y.wid y.k = some y →
    y.sl.status = .obj → w.who ≠ s.cur → y.k < 2 → (∀ c i k, s.cur = .slot c i k → k < 2) → s.countAt o.key < tgt → tgt ≤ s.countAt o.key + n.toNat →
    s.countAt o.key + n.toNat < 2 ^ 64 →
    ∃ t u, exec (.boarr ord sc a n) s = .next t ∧ s.Went t none s.ir.succ ∧ t.waiters = [] ∧ t.view y.bid y.wid y.k = some u
      ∧ u.sl = y.sl.after y.sl.ir none y.sl.ir.succ ∧ s.CountIs t o.key (s.countAt o.key + n.toNat))
  ∧ (∀ (s : State) (bid : Nat) (b : Block) (ord : Ord) (sc : Scope) (a r : SReg) (n : BitVec 32) (o : Obj) (tgt : Nat), s.HasIssuer →
    s.DirectIn bid b → s.ObjAt bid (s.sread s.cur a).toNat ⟨true, false, false⟩ o →
    tgt = ((s.sread s.cur r).toNat + n.toNat) % 2 ^ 64 → (Instr.bowait ord sc a r n).wf = true →
    if tgt ≤ s.countAt o.key then
      ∃ t, exec (.bowait ord sc a r n) s = .next t ∧ s.Went t none s.ir.succ
        ∧ (s.acquired (coreOf bid) (decide (ord = Ord.acq)) sc).Kept t none none []
    else ∃ t w, exec (.bowait ord sc a r n) s = .next t ∧ t = { s.setWait .obj with waiters := s.waiters ++ [w] } ∧ w.who = s.cur
      ∧ w.tag = b.tag ∧ w.cell = o.key ∧ w.peer = none ∧ w.target = some tgt ∧ w.acq = decide (ord = Ord.acq) ∧ w.scope = sc)
  ∧ (∀ (s : State) (ix : Nat) (c : CntArr), s.cnts[ix]? = some c → s.tagLive c.tag = true → c.node = none → c.obj < 2 ^ 48 →
    c.obj % 64 = 0 → (∀ i, i < 8 → s.onAppend (c.obj + i) = false) →
    (∀ w, w ∈ s.waiters → w.cell ≠ c.obj) →
    ∃ t, exec (.countedArrival ix) s = .next t ∧ s.CountIs t c.obj (s.countAt c.obj + c.n)
      ∧ t = { s with cnts := s.cnts.eraseIdx ix, lines := t.lines })
  ∧ (∀ (s : State) (ix : Nat) (c : CntArr), s.cnts[ix]? = some c → s.tagLive c.tag = false →
    exec (.countedArrival ix) s = .next { s with cnts := s.cnts.eraseIdx ix, staleDrop := min (s.staleDrop + 1) (2 ^ 48 - 1) })
  ∧ (∀ (s : State) (ix : Nat) (w : Waiter), s.waiters[ix]? = some w → (w.polling = false ∨ s.clock < w.since + 256) →
    exec (.waiterPoll ix) s = .next s)
  ∧ (∀ (s : State) (ix : Nat) (w : Waiter) (tgt : Nat) (y : View), s.waiters[ix]? = some w → w.polling = true → w.since + 256 ≤ s.clock →
    w.peer = none → w.cell < 2 ^ 48 → w.target = some tgt → w.who = .slot y.bid y.wid y.k → s.view y.bid y.wid y.k = some y →
    y.sl.status = .obj →
    if tgt ≤ s.countAt w.cell then
      ∃ t u, exec (.waiterPoll ix) s = .next t ∧ (∀ x, x ∈ t.waiters ↔ x ∈ s.waiters ∧ x.who ≠ w.who)
        ∧ t.view y.bid y.wid y.k = some u ∧ u.sl = y.sl.after y.sl.ir none y.sl.ir.succ ∧ ∀ c, t.dramByte c = s.dramByte c
    else exec (.waiterPoll ix) s = .next { s with waiters := s.waiters.map fun x => if x.who = w.who then { x with since := s.clock } else x })

/-- R34, R225, R227, R228: MZERO zeros a tile; MLDZ loads one from scratch; MSTZ stores one there, raw or as containers; MCOMMIT and MDISCARD
copy shadows to tiles or tiles to shadows, with the cursors of the maps. No other tile, byte or register changes. R226, R227, R98: MMAP
loads a map from its record, both cursors zero; a record that breaks its rules is ILLEGAL, which stops the block. MLDB copies bytes of
scratch, or of package memory, into every column's B view, for the column-owner block alone. -/
def Obligations.MatrixTiles : Prop :=
  ((∀ (s : State) (b ix : Nat) (x : Stream) (y : Block) (str : BitVec 2) (spec : Bool) (z : Sys2Proof.ZNum), s.MatReady b ix x y str 1 4096 →
    ∃ t w, exec (.mzero str spec z) s = .next t ∧ s.MatDone t b str 1 w ∧ s.StoresKept t (coreOf b)
      ∧ y.mat.TilesAre w.mat spec [z.toNat] fun _ _ _ => 0)
  ∧ (∀ (s : State) (b ix : Nat) (x : Stream) (y : Block) (str : BitVec 2) (spec tr : Bool) (z : Sys2Proof.ZNum) (a : SReg) (disp : BitVec 32)
    (o : Nat), s.MatReady b ix x y str 1 4096 → o = (s.sread s.cur a + disp.signExtend 64).toNat → o + 4096 ≤ y.kern.shared → o % 4 = 0 →
    s.scrPoison b y o 4096 = false → ∃ t w, exec (.mldz str spec tr z a disp) s = .next t ∧ s.MatDone t b str 1 w ∧ s.StoresKept t (coreOf b)
      ∧ y.mat.TilesAre w.mat spec [z.toNat] fun _ i j =>
        BitVec.ofNat 32 (numberAt (s.scrAt b y) (o + 4 * (if tr then 32 * j + i else 32 * i + j)) 4))
  ∧ (∀ (s : State) (b ix : Nat) (x : Stream) (y : Block) (str : BitVec 2) (tr : Bool) (z : Sys2Proof.ZNum) (a : SReg) (disp : BitVec 32) (o : Nat),
    s.MatReady b ix x y str 1 8192 → o = (s.sread s.cur a + disp.signExtend 64).toNat → o + 4096 ≤ y.kern.shared → o % 4 = 0 →
    ∃ t w, exec (.mstz str tr .none a disp z) s = .next t ∧ s.MatDone t b str 1 w ∧ w.mat = y.mat
      ∧ (∀ c, cget 0 (t.core (coreOf b)).column c = cget 0 (s.core (coreOf b)).column c)
      ∧ (∀ i j k, i < 32 → j < 32 → k < 4 → t.scrAt b y (o + 4 * (if tr then 32 * j + i else 32 * i + j) + k)
        = byteOf (tileCell (y.mat.tile false z.toNat) i j).toNat k)
      ∧ ∀ c, (c < y.scratchBase + o ∨ y.scratchBase + o + 4096 ≤ c) →
        cget 0 (t.core (coreOf b)).store c = cget 0 (s.core (coreOf b)).store c)
  ∧ (∀ (s : State) (b ix : Nat) (x : Stream) (y : Block) (str : BitVec 2) (ty : Ty) (z : Sys2Proof.ZNum) (a : SReg) (disp : BitVec 32) (o n : Nat),
    s.MatReady b ix x y str 1 8192 → ty.isCont = true → n = (32 + contE ty - 1) / contE ty →
    o = (s.sread s.cur a + disp.signExtend 64).toNat → o + 512 * n ≤ y.kern.shared → o % 16 = 0 →
    ∃ t w, exec (.mstz str false ty a disp z) s = .next t ∧ s.MatDone t b str 1 w ∧ w.mat = y.mat
      ∧ (∀ i k, i < 32 → k < n → contOk ty (numberAt (t.scrAt b y) (o + 16 * (n * i + k)) 16) = true
        ∧ ∀ e, e < contE ty → contEl ty (numberAt (t.scrAt b y) (o + 16 * (n * i + k)) 16) e
          = if 32 ≤ k * contE ty + e then 0
            else (cvtLane ty .f32 false (tileCell (y.mat.tile false z.toNat) i (k * contE ty + e)).toNat).1 % 2 ^ contW ty)
      ∧ ∀ c, (c < y.scratchBase + o ∨ y.scratchBase + o + 512 * n ≤ c) →
        cget 0 (t.core (coreOf b)).store c = cget 0 (s.core (coreOf b)).store c)
  ∧ (∀ (s : State) (b ix : Nat) (x : Stream) (y : Block) (str : BitVec 2) (z : Sys2Proof.ZNum) (n1 : BitVec 4), s.MatReady b ix x y str 1 65536 →
    z.toNat + n1.toNat ≤ 15 →
    (∃ t w m, exec (.mcommit str z n1) s = .next t ∧ s.MatDone t b str 1 w ∧ s.StoresKept t (coreOf b)
      ∧ y.mat.TilesAre m false ((List.range (n1.toNat + 1)).map fun i => z.toNat + i) (fun z i j => tileCell (y.mat.tile true z) i j)
      ∧ w.mat = { m with maps := w.mat.maps }
      ∧ ∀ n, tget w.mat.maps n = (tget y.mat.maps n).map fun r => { r with cursor := r.shadow })
    ∧ ∃ t w m, exec (.mdiscard str z n1) s = .next t ∧ s.MatDone t b str 1 w ∧ s.StoresKept t (coreOf b)
      ∧ y.mat.TilesAre m true ((List.range (n1.toNat + 1)).map fun i => z.toNat + i) (fun z i j => tileCell (y.mat.tile false z) i j)
      ∧ w.mat = { m with maps := w.mat.maps }
      ∧ ∀ n, tget w.mat.maps n = (tget y.mat.maps n).map fun r => { r with shadow := r.cursor })
  ∧ (∀ (s : State) (b ix : Nat) (x : Stream) (y : Block) (str : BitVec 2) (spec tr : Bool) (z : Sys2Proof.ZNum) (a : SReg) (disp : BitVec 32)
    (o : Nat), s.MatReady b ix x y str 1 0 → o = (s.sread s.cur a + disp.signExtend 64).toNat → y.kern.shared < o + 4096 →
    exec (.mldz str spec tr z a disp) s = .next ((s.govern (coreOf b) (4 * b + str.toNat) 1).1.stopStream b .mat ix cPROTFAULT s.ir.pc false))
  ∧ (∀ (s : State) (b ix : Nat) (x : Stream) (y : Block) (str : BitVec 2) (spec tr : Bool) (z : Sys2Proof.ZNum) (a : SReg) (disp : BitVec 32)
    (o : Nat), s.MatReady b ix x y str 1 0 → o = (s.sread s.cur a + disp.signExtend 64).toNat → o + 4096 ≤ y.kern.shared → o % 4 = 0 →
    s.scrPoison b y o 4096 = true →
    exec (.mldz str spec tr z a disp) s = .next (s.govern (coreOf b) (4 * b + str.toNat) 1).1.uceCur))
  ∧ ((∀ (s : State) (b ix : Nat) (x : Stream) (y : Block) (str : BitVec 2) (m : MNum) (off : BitVec 32) (ty : Ty) (fl : Nat),
    s.MatReady b ix x y str 1 0 → off.toNat % 32 = 0 → off.toNat + 32 ≤ y.kern.shared → s.scrPoison b y off.toNat 32 = false →
    numberAt (s.scrAt b y) (off.toNat + 12) 1 = ty.code.toNat → mapTy ty = true → fl = numberAt (s.scrAt b y) (off.toNat + 13) 1 →
    (fl = 0 ∨ fl = 2 ∨ fl = 3) → (∀ i, i < 18 → s.scrAt b y (off.toNat + 14 + i) = 0) →
    ∃ t w r, exec (.mmap str m off) s = .next t ∧ s.MatDone t b str 1 w ∧ s.StoresKept t (coreOf b)
      ∧ w.mat = { y.mat with maps := w.mat.maps } ∧ tget w.mat.maps m.toNat = some r ∧ (∀ n, n ≠ m.toNat → tget w.mat.maps n = tget y.mat.maps n)
      ∧ r = ⟨numberAt (s.scrAt b y) off.toNat 4, numberAt (s.scrAt b y) (off.toNat + 4) 4, numberAt (s.scrAt b y) (off.toNat + 8) 4, ty,
        decide (fl = 3), decide (2 ≤ fl), 0, 0⟩)
  ∧ (∀ (s : State) (b ix : Nat) (x : Stream) (y : Block) (str : BitVec 2) (m : MNum) (off : BitVec 32), s.MatReady b ix x y str 1 0 →
    off.toNat % 32 = 0 → off.toNat + 32 ≤ y.kern.shared → s.scrPoison b y off.toNat 32 = false →
    (17 < numberAt (s.scrAt b y) (off.toNat + 12) 1 ∨ numberAt (s.scrAt b y) (off.toNat + 13) 1 = 1
      ∨ 3 < numberAt (s.scrAt b y) (off.toNat + 13) 1 ∨ ∃ i, i < 18 ∧ s.scrAt b y (off.toNat + 14 + i) ≠ 0) →
    exec (.mmap str m off) s = .next ((s.govern (coreOf b) (4 * b + str.toNat) 1).1.stopStream b .mat ix cILLEGAL s.ir.pc true))
  ∧ (∀ (s : State) (b ix : Nat) (x : Stream) (y : Block) (str : BitVec 2) (scr : Bool) (d a r : SReg) (len : BitVec 32)
    (dst src stride : Nat) (pa cell : Nat → Nat), s.MatReady b ix x y str 1 0 → (Instr.mldb str scr d a r len).wf = true →
    y.isOpen = true → y.columnRight = true → (s.core (coreOf b)).colChange = none → dst = (s.sread s.cur d).toNat →
    src = (s.sread s.cur a).toNat → stride = (s.sread s.cur r).toNat → src + 31 * stride < 2 ^ 63 →
    dst + len.toNat ≤ (s.core (coreOf b)).bLen →
    (scr = true → src + 31 * stride + len.toNat ≤ y.kern.shared
      ∧ ∀ j, j < 32 → s.scrPoison b y (src + j * stride) len.toNat = false) →
    (scr = false → s.Bare (coreOf b) ∧ ∀ j, j < 32 → s.Lands b (src + j * stride) ⟨true, false, false⟩ (pa j) (cell j) len.toNat) →
    ∃ t w, exec (.mldb str scr d a r len) s = .next t ∧ s.MatDone t b str 1 w ∧ w.mat = y.mat
      ∧ (∀ c, cget 0 (t.core (coreOf b)).store c = cget 0 (s.core (coreOf b)).store c)
      ∧ (∀ j i, j < 32 → i < len.toNat → cget 0 (t.core (coreOf b)).column ((s.core (coreOf b)).bAddr j (dst + i))
        = if scr then s.scrAt b y (src + j * stride + i) else s.homeByte (some b) (cell j + i))
      ∧ ∀ c, (∀ j i, j < 32 → i < len.toNat → c ≠ (s.core (coreOf b)).bAddr j (dst + i)) →
        cget 0 (t.core (coreOf b)).column c = cget 0 (s.core (coreOf b)).column c)
  ∧ (∀ (s : State) (b ix : Nat) (x : Stream) (y : Block) (str : BitVec 2) (scr : Bool) (d a r : SReg) (len : BitVec 32),
    s.MatReady b ix x y str 1 0 → y.columnRight = false →
    exec (.mldb str scr d a r len) s = .next ((s.govern (coreOf b) (4 * b + str.toNat) 1).1.stopStream b .mat ix cILLEGAL s.ir.pc true)))

/-- R34, R65 to R67, R229, R230: MMA joins its stream's queue and advances its maps; MATRIX_STEP takes the head of a queue one step on: every
cell of the tile gets the exact sum of the step's products, rounded once; MSCALE scales a tile by a row and a column vector and adds it. -/
def Obligations.MatrixProducts : Prop :=
  (∀ (s : State) (b ix : Nat) (x : Stream) (y : Block) (str : BitVec 2) (spec : Bool) (ty : Ty) (z : Sys2Proof.ZNum) (ma mb : MNum) (steps : BitVec 32)
    (ra rb : MapRec), s.Streamed b .mat ix x → s.blk b = some y → (Instr.mma str spec ty z ma mb steps).wf = true →
    tget y.mat.maps ma.toNat = some ra → tget y.mat.maps mb.toNat = some rb → ra.ty = ty → rb.ty = ty → ra.roleB = false →
    rb.roleB = true → ma ≠ mb → (s.core (coreOf b)).colChange = none → s.mapBad b y (ra.at spec) steps.toNat = none →
    s.mapBad b y (rb.at spec) steps.toNat = none →
    ∃ t w, exec (.mma str spec ty z ma mb steps) s = .next t ∧ s.Went t none s.ir.succ ∧ t.blk b = some w
      ∧ (s.modBlk b fun q => { q with mat := w.mat }).Kept t none none []
      ∧ w.mat.queue str.toNat = y.mat.queue str.toNat ++ [⟨spec, false, ty, z.toNat, ra.at spec, rb.at spec, steps.toNat, 0, 0, s.ir.pc⟩]
      ∧ (∀ n, n < 4 → n ≠ str.toNat → w.mat.queue n = y.mat.queue n) ∧ w.mat.z = y.mat.z ∧ w.mat.zs = y.mat.zs ∧ w.mat.bank = y.mat.bank
      ∧ ∀ n r, tget y.mat.maps n = some r → tget w.mat.maps n = some (if n = ma.toNat ∨ n = mb.toNat
          then { r with cursor := if spec then r.cursor else r.cursor + steps.toNat, shadow := r.shadow + steps.toNat } else r))
  ∧ (∀ (s : State) (b : Nat) (y : Block) (str : BitVec 2) (op : MatOp) (rest : List MatOp) (va vb : List (List Byte)), s.blk b = some y →
    y.mat.queue str.toNat = op :: rest → op.cnt = false → y.frozen = .no → s.stopped = false →
    (s.govern (coreOf b) (4 * b + str.toNat) (stepCost op)).2 = true → (y.isOpen = true ∨ s.snapUsed (coreOf b) + 8192 ≤ 0x200000) →
    s.side b y op.ma op.done = some va → s.side b y op.mb op.done = some vb →
    ∃ t w m, exec (.matrixStep b str) s = .next t ∧ t.blk b = some w ∧ s.StoresKept t (coreOf b)
      ∧ (∀ who n, t.sread who n = s.sread who n) ∧ (∀ c, t.dramByte c = s.dramByte c)
      ∧ y.mat.TilesAre m op.spec (if op.ty = .f64 then [op.z, op.z + 1] else [op.z]) (fun q i j =>
        BitVec.ofNat 32 (stepRule op.ty ((tileCell (y.mat.tile op.spec op.z) i j).toNat
            + if op.ty = .f64 then (tileCell (y.mat.tile op.spec (op.z + 1)) i j).toNat * 2 ^ 32 else 0)
          (opVals op.ty ((va[i]?).getD [])) (opVals op.ty ((vb[j]?).getD [])) / 2 ^ (32 * (q - op.z))))
      ∧ w.mat = m.setQueue str.toNat (if op.done + 1 < op.steps then { op with done := op.done + 1 } :: rest else rest))
  ∧ (∀ (s : State) (b ix : Nat) (x : Stream) (y : Block) (str : BitVec 2) (spec : Bool) (ty : Ty) (zd za : Sys2Proof.ZNum) (oa ob : BitVec 32),
    s.MatReady b ix x y str 1 4096 → (ty = .f32 ∨ ty = .s32) → oa.toNat % 128 = 0 → ob.toNat % 128 = 0 →
    oa.toNat + 128 ≤ y.kern.shared → ob.toNat + 128 ≤ y.kern.shared →
    s.scrPoison b y oa.toNat 128 = false → s.scrPoison b y ob.toNat 128 = false →
    ∃ t w, exec (.mscale str spec ty zd za oa ob) s = .next t ∧ s.MatDone t b str 1 w ∧ s.StoresKept t (coreOf b)
      ∧ y.mat.TilesAre w.mat spec [zd.toNat] fun _ i j => BitVec.ofNat 32 (rounded .f32 .rn (FVal.fma .rn
        ((fmtOf .f32).read (rounded .f32 .rn (((fmtOf .f32).read (numberAt (s.scrAt b y) (oa.toNat + 4 * i) 4)).mul
          ((fmtOf .f32).read (numberAt (s.scrAt b y) (ob.toNat + 4 * j) 4)))).1)
        (if ty = .s32 then FVal.ofInt (tileCell (y.mat.tile spec za.toNat) i j).toInt
          else (fmtOf .f32).read (tileCell (y.mat.tile spec za.toNat) i j).toNat)
        ((fmtOf .f32).read (tileCell (y.mat.tile spec zd.toNat) i j).toNat))).1)

/-- R68 to R74, R231: MCNT counts the products of its first step by class and queues the rest; a step counts the same; MMERGE adds a count
bank to the merge bank, counter by counter, and clears it; MDRAIN gives each cell the exact sum, rounded once onto a tile or written to
scratch, and clears the bank. Beyond the depth MCNT and MMERGE trap CNTDEPTH and count nothing. -/
def Obligations.Counting : Prop :=
  (∀ (s : State) (b ix : Nat) (x : Stream) (y : Block) (str : BitVec 2) (ty : Ty) (c : Bank) (ma mb : MNum) (steps : BitVec 32)
    (set : BitVec 2) (ra rb : MapRec) (va vb : List (List Byte)), s.MatReady b ix x y str 4 98304 →
    (Instr.mcnt str ty c ma mb steps set).wf = true → y.mat.depth.length = 3 → y.mat.reserved.length = 3 →
    tget y.mat.maps ma.toNat = some ra → tget y.mat.maps mb.toNat = some rb → ra.ty = ty → rb.ty = ty → ra.roleB = false →
    rb.roleB = true → ma ≠ mb → (s.core (coreOf b)).colChange = none → s.mapBad b y ra steps.toNat = none →
    s.mapBad b y rb steps.toNat = none → s.side b y ra 0 = some va → s.side b y rb 0 = some vb →
    y.mat.depth.getD (bankIx c) 0 + y.mat.reserved.getD (bankIx c) 0 + 30 * steps.toNat ≤ 4095 →
    ∃ t w, exec (.mcnt str ty c ma mb steps set) s = .next t ∧ s.MatDone t b str 4 w ∧ s.StoresKept t (coreOf b)
      ∧ (∀ i j k, i < 32 → j < 32 → w.mat.count (bankIx c) i j k = y.mat.count (bankIx c) i j k + classHits (tget y.mat.sets set.toNat)
        ((List.range 30).map fun e => contEl ty (leNat ((va[i]?).getD [])) e)
        ((List.range 30).map fun e => contEl ty (leNat ((vb[j]?).getD [])) e) k)
      ∧ (∀ n, n ≠ bankIx c → cget [] w.mat.bank n = cget [] y.mat.bank n) ∧ w.mat.z = y.mat.z ∧ w.mat.zs = y.mat.zs
      ∧ w.mat.depth = y.mat.depth.set (bankIx c) (y.mat.depth.getD (bankIx c) 0 + 30)
      ∧ w.mat.reserved = y.mat.reserved.set (bankIx c) (y.mat.reserved.getD (bankIx c) 0 + 30 * (steps.toNat - 1))
      ∧ w.mat.queue str.toNat = if steps.toNat = 1 then []
        else [⟨false, true, ty, bankIx c, ra, rb, steps.toNat, 1, set.toNat, s.ir.pc⟩])
  ∧ (∀ (s : State) (b ix : Nat) (x : Stream) (y : Block) (str : BitVec 2) (ty : Ty) (c : Bank) (ma mb : MNum) (steps : BitVec 32)
    (set : BitVec 2) (ra rb : MapRec), s.MatReady b ix x y str 4 0 → tget y.mat.maps ma.toNat = some ra →
    tget y.mat.maps mb.toNat = some rb → ra.ty = ty → rb.ty = ty → ra.roleB = false → rb.roleB = true →
    (s.core (coreOf b)).colChange = none → s.mapBad b y ra steps.toNat = none → s.mapBad b y rb steps.toNat = none →
    4095 < y.mat.depth.getD (bankIx c) 0 + y.mat.reserved.getD (bankIx c) 0 + 30 * steps.toNat →
    exec (.mcnt str ty c ma mb steps set) s = .next ((s.govern (coreOf b) (4 * b + str.toNat) 4).1.stopStream b .mat ix cCNTDEPTH s.ir.pc true))
  ∧ (∀ (s : State) (b : Nat) (y : Block) (str : BitVec 2) (op : MatOp) (rest : List MatOp) (va vb : List (List Byte)), s.blk b = some y →
    y.mat.queue str.toNat = op :: rest → op.cnt = true → op.z < 3 → y.mat.depth.length = 3 → y.frozen = .no → s.stopped = false →
    (s.govern (coreOf b) (4 * b + str.toNat) 4).2 = true → (y.isOpen = true ∨ s.snapUsed (coreOf b) + 229376 ≤ 0x200000) →
    s.side b y op.ma op.done = some va → s.side b y op.mb op.done = some vb →
    ∃ t w, exec (.matrixStep b str) s = .next t ∧ t.blk b = some w ∧ s.StoresKept t (coreOf b)
      ∧ (∀ i j k, i < 32 → j < 32 → w.mat.count op.z i j k = y.mat.count op.z i j k + classHits (tget y.mat.sets op.set)
        ((List.range 30).map fun e => contEl op.ty (leNat ((va[i]?).getD [])) e)
        ((List.range 30).map fun e => contEl op.ty (leNat ((vb[j]?).getD [])) e) k)
      ∧ w.mat.depth = y.mat.depth.set op.z (y.mat.depth.getD op.z 0 + 30)
      ∧ w.mat.queue str.toNat = if op.done + 1 < op.steps then { op with done := op.done + 1 } :: rest else rest)
  ∧ (∀ (s : State) (b ix : Nat) (x : Stream) (y : Block) (str : BitVec 2) (c : Bank), s.MatReady b ix x y str 1 327680 → c ≠ .c2 →
    y.mat.CountsOk → y.mat.depth.length = 3 → y.mat.depth.getD 2 0 + y.mat.depth.getD (bankIx c) 0 < 2 ^ 28 →
    ∃ t w, exec (.mmerge str c) s = .next t ∧ s.MatDone t b str 1 w ∧ s.StoresKept t (coreOf b)
      ∧ (∀ i j k, i < 32 → j < 32 → w.mat.count 2 i j k = y.mat.count 2 i j k + y.mat.count (bankIx c) i j k
        ∧ w.mat.count (bankIx c) i j k = 0)
      ∧ w.mat.depth = (y.mat.depth.set 2 (y.mat.depth.getD 2 0 + y.mat.depth.getD (bankIx c) 0)).set (bankIx c) 0
      ∧ w.mat = { y.mat with bank := w.mat.bank, depth := w.mat.depth })
  ∧ (∀ (s : State) (b ix : Nat) (x : Stream) (y : Block) (str : BitVec 2) (c : Bank), s.MatReady b ix x y str 1 0 → c ≠ .c2 →
    2 ^ 28 ≤ y.mat.depth.getD 2 0 + y.mat.depth.getD (bankIx c) 0 →
    exec (.mmerge str c) s = .next ((s.govern (coreOf b) (4 * b + str.toNat) 1).1.stopStream b .mat ix cCNTDEPTH s.ir.pc true))
  ∧ (∀ (s : State) (b ix : Nat) (x : Stream) (y : Block) (str set : BitVec 2) (c : Bank) (z : Sys2Proof.ZNum), s.MatReady b ix x y str 1 233472 →
    y.mat.CountsOk →
    ∃ t w m, exec (.mdrain str set c (.tile z)) s = .next t ∧ s.MatDone t b str 1 w ∧ s.StoresKept t (coreOf b)
      ∧ y.mat.TilesAre m false [z.toNat] (fun _ i j => BitVec.ofNat 32 (rounded .f32 .rn
        (((fmtOf .f32).read (tileCell (y.mat.tile false z.toNat) i j).toNat).add .rn
          (scaled (y.mat.cellTotal (tget y.mat.sets set.toNat) (bankIx c) i j)
            (((tget y.mat.sets set.toNat).map fun t => t.exp).getD 0)))).1)
      ∧ w.mat = { m with bank := w.mat.bank, depth := y.mat.depth.set (bankIx c) 0 }
      ∧ ∀ n, cget [] w.mat.bank n = if n = bankIx c then [] else cget [] y.mat.bank n)
  ∧ (∀ (s : State) (b ix : Nat) (x : Stream) (y : Block) (str set : BitVec 2) (c : Bank) (a : SReg) (disp : BitVec 32) (o : Nat),
    s.MatReady b ix x y str 1 245760 → y.mat.CountsOk → o = (s.sread s.cur a + disp.signExtend 64).toNat →
    o + 8192 ≤ y.kern.shared → o % 8 = 0 →
    ∃ t w, exec (.mdrain str set c (.scratch a disp)) s = .next t ∧ s.MatDone t b str 1 w
      ∧ (∀ i j k, i < 32 → j < 32 → k < 8 → t.scrAt b y (o + 8 * (32 * i + j) + k)
        = byteOf (y.mat.cellTotal (tget y.mat.sets set.toNat) (bankIx c) i j % 2 ^ 64).toNat k)
      ∧ (∀ d, (d < y.scratchBase + o ∨ y.scratchBase + o + 8192 ≤ d) →
        cget 0 (t.core (coreOf b)).store d = cget 0 (s.core (coreOf b)).store d)
      ∧ ∀ n, cget [] w.mat.bank n = if n = bankIx c then [] else cget [] y.mat.bank n)

/-- R287, R360, R361: the governor. A new window of 64 clocks takes the last window's use as its past and starts at zero; an issue passes
while the window's use stays inside its allowance, which follows the least of GOVBUDGET, the power cap and the stook's thermal cap; one
beyond it is held, its instruction does nothing, and GOVSTALL counts the clocks in which any issue of the core is held. -/
def Obligations.Governor : Prop :=
  (∀ (s : State) (c : Nat), ∃ t, exec (.governorWindow c) s = .next t ∧ (t.core c).govWindow = s.clock / 64
    ∧ (if (s.core c).govWindow = s.clock / 64 then t.core c = s.core c
      else (t.core c).govUsed = 0 ∧ (t.core c).govHeld = none ∧ (t.core c).govWho = []
        ∧ (t.core c).govStall = (match (s.core c).govHeld with
          | some h => ((s.core c).govStall + (64 * ((s.core c).govWindow + 1) - h)) % 2 ^ 48
          | none => (s.core c).govStall)
        ∧ (t.core c).govPrev = if s.clock / 64 = (s.core c).govWindow + 1 then (s.core c).govUsed else 0)
    ∧ (∀ d, d ≠ c → t.core d = s.core d) ∧ (∀ who n, t.sread who n = s.sread who n) ∧ ∀ a, t.dramByte a = s.dramByte a)
  ∧ (∀ (s : State) (b ix : Nat) (x : Stream) (y : Block) (str : BitVec 2) (spec : Bool) (z : Sys2Proof.ZNum) (cap : Nat), s.Streamed b .mat ix x →
    s.blk b = some y → y.mat.queue str.toNat = [] → (s.core (coreOf b)).govWindow = s.clock / 64 → cap < 0xFFFF →
    cap = min (s.core (coreOf b)).govBudget (min (s.fw.powerCap.getD (s.core (coreOf b)).govBudget)
      (((s.fw.thermal.find? fun e => decide (e.stook = coreOf b / 128)).map fun e => e.cap).getD (s.core (coreOf b)).govBudget)) →
    allowance cap (s.core (coreOf b)).govPrev < (s.core (coreOf b)).govUsed + 1 →
    ∃ t w, exec (.mzero str spec z) s = .next t ∧ t.blk b = some w ∧ w = y ∧ (t.core (coreOf b)).govHeld = some s.clock
      ∧ (∀ n, n ∈ (t.core (coreOf b)).govWho ↔ n = 4 * b + str.toNat ∨ n ∈ (s.core (coreOf b)).govWho)
      ∧ (t.core (coreOf b)).govStall = (match (s.core (coreOf b)).govHeld with
        | some h => ((s.core (coreOf b)).govStall + (s.clock - h)) % 2 ^ 48
        | none => (s.core (coreOf b)).govStall)
      ∧ (t.core (coreOf b)).govUsed = (s.core (coreOf b)).govUsed)
  ∧ (∀ (s : State) (b ix : Nat) (x : Stream) (y : Block) (str : BitVec 2) (spec : Bool) (z : Sys2Proof.ZNum) (cap : Nat), s.Streamed b .mat ix x →
    s.blk b = some y → y.mat.queue str.toNat = [] → (s.core (coreOf b)).govWindow = s.clock / 64 → y.isOpen = true →
    cap = min (s.core (coreOf b)).govBudget (min (s.fw.powerCap.getD (s.core (coreOf b)).govBudget)
      (((s.fw.thermal.find? fun e => decide (e.stook = coreOf b / 128)).map fun e => e.cap).getD (s.core (coreOf b)).govBudget)) →
    (0xFFFF ≤ cap ∨ (s.core (coreOf b)).govUsed + 1 ≤ allowance cap (s.core (coreOf b)).govPrev) →
    ∃ t w, exec (.mzero str spec z) s = .next t ∧ t.blk b = some w ∧ s.Went t none s.ir.succ
      ∧ (∀ n, n ∈ (t.core (coreOf b)).govWho ↔ n ≠ 4 * b + str.toNat ∧ n ∈ (s.core (coreOf b)).govWho)
      ∧ ((t.core (coreOf b)).govHeld = none ↔ (t.core (coreOf b)).govWho = [])
      ∧ (t.core (coreOf b)).govUsed = (s.core (coreOf b)).govUsed + 1 ∧ tileCell (w.mat.tile spec z.toNat) 0 0 = 0)

/-- R115, R232 to R236: CPY, GATH and SCAT become commands with their scratch ranges on the scoreboard while their issuer goes on; a CPY whose
ranges meet traps COPYOVERLAP; one without a free place issues later. CPYQ counts the issuer's commands, and waits while there are more
than it allows. R91, R116, R232, R233, R235: COPY_CHUNK_PERFORMED moves the bytes of a linear copy up to the end of its 256-byte chunk and
of the destination's word there, or the next 64 elements of a gather or scatter, from the sources as they stand, and no other byte; a copy
to its core's own vault through the pinned view stands on the upward bus; COMMAND_COMPLETE clears the entries of a command that is done,
and leaves one that is not. -/
def Obligations.Copies : Prop :=
  ((∀ (s : State) (y : Block) (fl : CmdFlags) (rd ra : SReg) (len : BitVec 32) (d a : Nat), d = (s.sread s.cur rd).toNat →
    a = (s.sread s.cur ra).toNat → (fl.scrD ≠ fl.scrS ∨ d + len.toNat ≤ a ∨ a + len.toNat ≤ d) →
    s.CmdRoom y (if fl.scrD then some (d, len.toNat) else none) (fl.scrD || fl.scrS) →
    ∃ t, exec (.cpy fl (.linear rd ra len)) s = .next t ∧ s.CmdIssued t y (.linear d a len.toNat) fl false len.toNat
      ((if fl.scrD then [(true, d, len.toNat)] else []) ++ if fl.scrS then [(false, a, len.toNat)] else []))
  ∧ (∀ (s : State) (fl : CmdFlags) (rd ra : SReg) (len : BitVec 32) (d a : Nat), s.HasIssuer →
    (∀ b e ix, s.cur = .stream b e ix → e = .copy) → d = (s.sread s.cur rd).toNat → a = (s.sread s.cur ra).toNat →
    fl.scrD = fl.scrS → d < a + len.toNat → a < d + len.toNat →
    exec (.cpy fl (.linear rd ra len)) s = .next (s.trap cCOPYOVERLAP))
  ∧ (∀ (s : State) (y : Block) (fl : CmdFlags) (rd ra rc : SReg) (tr : Bool) (pd cd pa ca pc cc : Nat) (dd da dr : List Byte)
    (d a : Tensor) (start count : List Nat), s.CmdRoom y none false → s.Bare (coreOf s.cur.block) →
    s.Lands s.cur.block (s.sread s.cur rd).toNat ⟨true, false, false⟩ pd cd 128 →
    s.Lands s.cur.block (s.sread s.cur ra).toNat ⟨true, false, false⟩ pa ca 128 →
    s.Lands s.cur.block (s.sread s.cur rc).toNat ⟨true, false, false⟩ pc cc 64 →
    dd = ((List.range 128).map fun i => s.homeByte (some s.cur.block) (cd + i)) →
    da = ((List.range 128).map fun i => s.homeByte (some s.cur.block) (ca + i)) →
    dr = ((List.range 64).map fun i => s.homeByte (some s.cur.block) (cc + i)) → tensorBad fl tr dd da dr = false →
    d = Tensor.parse dd → a = Tensor.parse da → start = ((List.range 6).map fun k => leNat ((dr.drop (4 * k)).take 4)) →
    count = ((List.range 6).map fun k => leNat ((dr.drop (24 + 4 * k)).take 4)) →
    d.packed = false → d.owner = none → a.owner = none → dd ≠ da → fl.scrD = false → fl.scrS = false →
    ((d.span (start.map fun _ => 0) (if tr then swap01 count else count)).2 ≤ (a.span start count).1
      ∨ (a.span start count).2 ≤ (d.span (start.map fun _ => 0) (if tr then swap01 count else count)).1) →
    ∃ t us, exec (.cpy fl (.tensor rd ra rc tr)) s = .next t ∧ s.CmdIssued t y (.tensor d a tr false us) fl false us.length []
      ∧ us.length = (count.map fun n => max 1 n).foldl (· * ·) 1
      ∧ ∀ r : List Nat, r.length = 6 → (∀ k, k < 6 → (r[k]?).getD 0 < max 1 ((count[k]?).getD 0)) →
        ∃ ch, ⟨ch, if tr then swap01 r else r, List.zipWith (· + ·) r start, 1⟩ ∈ us)
  ∧ (∀ (s : State) (y : Block) (o : Gather) (scat : Bool) (d a b n : Nat), d = (s.sread s.cur o.d).toNat → a = (s.sread s.cur o.a).toNat →
    b = (s.sread s.cur o.b).toNat → n = (s.sread s.cur o.c).toNat → n ≤ 16777216 → n ≠ 0 →
    s.CmdRoom y (if o.fl.scrD then some (d, if scat then y.kern.shared - d else n * o.ty.bytes) else none)
      (o.fl.scrD || o.fl.scrS || o.scrI) →
    ∃ t, exec (if scat then .scat o else .gath o) s = .next t
      ∧ s.CmdIssued t y (if scat then .scat d a b n o.ty.bytes else .gath d a b n o.ty.bytes) o.fl o.scrI n
        ((if o.fl.scrD then [(true, d, if scat then y.kern.shared - d else n * o.ty.bytes)] else [])
          ++ (if o.fl.scrS then [(false, a, if scat then n * o.ty.bytes else y.kern.shared - a)] else [])
          ++ if o.scrI then [(false, b, 4 * n)] else []))
  ∧ (∀ (s : State) (o : Gather) (scat : Bool), s.HasIssuer → (∀ b e ix, s.cur = .stream b e ix → e = .copy) →
    16777216 < (s.sread s.cur o.c).toNat → exec (if scat then .scat o else .gath o) s = .next (s.trap cILLEGAL))
  ∧ (∀ (s : State) (d : SReg) (n : BitVec 8) (k : Nat), s.HasIssuer → (∀ b e ix, s.cur = .stream b e ix → e = .copy) →
    k = (s.cmds.filter fun e => decide (e.2.who = s.cur) && decide (e.2.op ≠ .coll)).length → n.toNat ≤ 48 → s.Room 0 →
    s.scalarOver d = false →
    (n.toNat < k → exec (.cpyq d n) s = .next s)
    ∧ (k ≤ n.toNat → ∃ t, exec (.cpyq d n) s = .next t ∧ s.Went t none s.ir.succ ∧ s.Kept t (some d) none []
      ∧ t.sread s.cur d = if d = 0 then 0 else BitVec.ofNat 64 k)))
  ∧ ((∀ (s : State) (id : Nat) (c : Cmd) (y : Block) (d a q n pa cell : Nat), s.CmdGoes id c y → c.op = .linear d a c.total → c.pos < c.total →
    c.fl.scrD = true → c.fl.scrS = false → d + c.total ≤ y.kern.shared → a + c.total ≤ 2 ^ 64 →
    q = 256 * (c.pos / 256 + 1) → n = min c.total (min (wordEnd d q) (pageEnd a q)) → s.Lands c.block (a + c.pos) ⟨true, false, false⟩ pa cell (n - c.pos) →
    ∃ t, exec (.copyChunkPerformed id) s = .next t ∧ s.CmdAt t id c y n
      ∧ (∀ i, i < n - c.pos → t.scrAt c.block y (d + c.pos + i) = s.homeByte (some c.block) (cell + i))
      ∧ s.Steady t (fun _ => False) (fun k b => k = coreOf c.block ∧ y.scratchBase + d + c.pos ≤ b ∧ b < y.scratchBase + d + n)
        fun _ => False)
  ∧ (∀ (s : State) (id : Nat) (c : Cmd) (y : Block) (d a q n pa cell : Nat), s.CmdGoes id c y → c.op = .linear d a c.total → c.pos < c.total →
    c.fl.scrD = false → c.fl.scrS = true → a + c.total ≤ y.kern.shared → d + c.total ≤ 2 ^ 64 →
    q = 256 * (c.pos / 256 + 1) → n = min c.total (min (wordEnd d q) (pageEnd a q)) →
    s.Lands c.block (d + c.pos) ⟨false, true, false⟩ pa cell (n - c.pos) → s.scrPoison c.block y (a + c.pos) (n - c.pos) = false →
    y.vers = [] → y.vclean = [] → y.versLines = [] → twf s.blocks = true →
    ((∀ i, i < n - c.pos → isPinned (pa + i) = false ∨ vaultOf (cell + i) ≠ coreOf c.block) →
      ∃ t, exec (.copyChunkPerformed id) s = .next t ∧ s.CmdAt t id c y n
        ∧ (∀ i, i < n - c.pos → t.dramByte (cell + i) = if s.onAppend (cell + i) then 0 else s.scrAt c.block y (a + c.pos + i))
        ∧ s.Steady t (fun k => cell ≤ k ∧ k < cell + (n - c.pos)) (fun _ _ => False) fun _ => False)
    ∧ ((∀ i, i < n - c.pos → isPinned (pa + i) = true ∧ vaultOf (cell + i) = coreOf c.block) →
      ∃ t, exec (.copyChunkPerformed id) s = .next t ∧ s.CmdAt t id c y n
        ∧ (∀ i, i < n - c.pos → newest (t.core (coreOf c.block)).wq none (cell + i) = some (s.scrAt c.block y (a + c.pos + i)))
        ∧ (∀ e, e ∈ (t.core (coreOf c.block)).wq → e.bus = true ∧ e.block = none)
        ∧ s.Steady t (fun _ => False) (fun _ _ => False) fun _ => False))
  ∧ (∀ (s : State) (id : Nat) (c : Cmd) (y : Block) (d a b z n : Nat) (ix pa cell : Nat → Nat), s.CmdGoes id c y →
    c.op = .gath d a b c.total z → c.pos < c.total → 0 < z → z ≤ 8 → c.fl.scrD = true → c.fl.scrS = false → c.scrI = true →
    d + c.total * z ≤ y.kern.shared → b + 4 * c.total ≤ y.kern.shared → (d + c.total * z ≤ b ∨ b + 4 * c.total ≤ d) →
    s.scrPoison c.block y (b + 4 * c.pos) (4 * (n - c.pos)) = false →
    n = min (64 * (c.pos / 64 + 1)) c.total → (∀ j, ix j = numberAt (s.scrAt c.block y) (b + 4 * j) 4) →
    (∀ j, c.pos ≤ j → j < n → a + ix j * z + z ≤ 2 ^ 64 ∧ s.Lands c.block (a + ix j * z) ⟨true, false, false⟩ (pa j) (cell j) z) →
    ∃ t, exec (.copyChunkPerformed id) s = .next t ∧ s.CmdAt t id c y n
      ∧ (∀ j i, c.pos ≤ j → j < n → i < z → t.scrAt c.block y (d + j * z + i) = s.homeByte (some c.block) (cell j + i))
      ∧ s.Steady t (fun _ => False) (fun k q => k = coreOf c.block ∧ y.scratchBase + d + c.pos * z ≤ q ∧ q < y.scratchBase + d + n * z)
        fun _ => False)
  ∧ (∀ (s : State) (id : Nat) (c : Cmd) (y : Block) (d a b z n : Nat) (ix pa cell : Nat → Nat), s.CmdGoes id c y →
    c.op = .scat d a b c.total z → c.pos < c.total → 0 < z → z ≤ 8 → c.fl.scrD = true → c.fl.scrS = false → c.scrI = true →
    b + 4 * c.total ≤ y.kern.shared → s.scrPoison c.block y (b + 4 * c.pos) (4 * (n - c.pos)) = false → n = min (64 * (c.pos / 64 + 1)) c.total →
    (∀ j, ix j = numberAt (s.scrAt c.block y) (b + 4 * j) 4) →
    (∀ j, c.pos ≤ j → j < n → d + ix j * z + z ≤ y.kern.shared ∧ (d + ix j * z + z ≤ b ∨ b + 4 * c.total ≤ d + ix j * z)
      ∧ a + j * z + z ≤ 2 ^ 64 ∧ s.Lands c.block (a + j * z) ⟨true, false, false⟩ (pa j) (cell j) z) →
    ∃ t, exec (.copyChunkPerformed id) s = .next t ∧ s.CmdAt t id c y n
      ∧ (∀ j i, c.pos ≤ j → j < n → i < z → (∀ k, j < k → k < n → ix k ≠ ix j) →
        t.scrAt c.block y (d + ix j * z + i) = s.homeByte (some c.block) (cell j + i))
      ∧ s.Steady t (fun _ => False) (fun k q => k = coreOf c.block
        ∧ ∃ j, c.pos ≤ j ∧ j < n ∧ y.scratchBase + d + ix j * z ≤ q ∧ q < y.scratchBase + d + ix j * z + z) fun _ => False)
  ∧ (∀ (s : State) (id : Nat) (c : Cmd) (y : Block), s.CmdGoes id c y → c.op ≠ .coll → c.total ≤ c.pos → ordRels c.fl.ord = false →
    exec (.commandComplete id) s = .next (({ s with cmds := tdel s.cmds id }).modBlk c.block fun b =>
      { b with sb := b.sb.filter fun e => decide (e.cmd ≠ id) }))
  ∧ (∀ (s : State) (id : Nat) (c : Cmd), tget s.cmds id = some c → c.pos < c.total → exec (.commandComplete id) s = .next s))

/-- R109 to R111, R242, R243: XSEND takes its bytes at issue and leaves its status pending; MESSAGE_ARRIVAL gives a message, in its turn of
those from its core to the same core, to the oldest receive that takes it, which writes the bytes and the record, else to the overflow
queue, else refuses it, and drops a stale one; SEND_STATUS_RETURN fills the pending register. R110, R243, R244: XPOST posts a receive and
gives its handle, or, whatever the quota, takes a message of the overflow queue at once, or gives bit 63 when the quota is used up;
XPROBE.wait blocks a slot while its receive is pending; XPROBE and XCANCEL tell how a receive stands, and free it when it is done or
canceled. -/
def Obligations.Messages : Prop :=
  ((∀ (s r : State) (b : Nat) (y : Block) (d ra rb : SReg) (len : BitVec 32) (o : Nat) (x : Word64), s.MsgReady b y d →
    (Instr.xsend true d ra rb len).wf = true → x = s.sread s.cur ra → x.toNat / 2 ^ 45 = s.nodeId → x.getLsbD 41 = false →
    (s.sends.filter fun e => decide (e.2.core = coreOf b) && e.2.status.isNone).length < 64 →
    o = (s.sread s.cur rb).toNat → o + len.toNat ≤ y.kern.shared →
    s.scrPoison b y o len.toNat = false → r = (if d = 0 then s else s.setPending s.cur fun l => l ++ [d]) →
    ∃ t, exec (.xsend true d ra rb len) s = .next t ∧ r.Went t none s.ir.succ
      ∧ ({ r with msgs := t.msgs, sends := t.sends, nextId := t.nextId }).Kept t none none []
      ∧ t.msgs = s.msgs ++ [⟨s.nextId, s.nodeId, coreOf b, y.tag, x.toNat % 2 ^ 32, x.toNat / 2 ^ 32 % 2 ^ 9, (s.ctx y.tag.slot).rcd.job,
        (List.range len.toNat).map (fun i => s.scrAt b y (o + i)), 0, 0, s.clock, 0⟩]
      ∧ t.sends = tset s.sends s.nextId ⟨s.cur, coreOf b, d, y.tag, none⟩ ∧ t.nextId = s.nextId + 1)
  ∧ (∀ (s r : State) (b : Nat) (y : Block) (d ra rb : SReg) (len : BitVec 32) (o : Nat) (x : Word64), s.MsgReady b y d →
    (Instr.xsend true d ra rb len).wf = true → x = s.sread s.cur ra → x.toNat / 2 ^ 45 ≠ s.nodeId → x.getLsbD 41 = false →
    (409600 ≤ x.toNat / 2 ^ 45 ∨ (s.ctx y.tag.slot).rcd.job = 0 ∨ (s.ctx y.tag.slot).rcd.peers.contains (x.toNat / 2 ^ 45) = false
      ∨ (s.ctx y.tag.slot).unreachable.contains (x.toNat / 2 ^ 45) = true) →
    (s.sends.filter fun e => decide (e.2.core = coreOf b) && e.2.status.isNone).length < 64 →
    o = (s.sread s.cur rb).toNat → o + len.toNat ≤ y.kern.shared →
    s.scrPoison b y o len.toNat = false → r = (if d = 0 then s else s.setPending s.cur fun l => l ++ [d]) →
    ∃ t, exec (.xsend true d ra rb len) s = .next t ∧ r.Went t none s.ir.succ
      ∧ ({ r with sends := t.sends, nextId := t.nextId }).Kept t none none []
      ∧ t.sends = tset s.sends s.nextId ⟨s.cur, coreOf b, d, y.tag, some 3⟩ ∧ t.nextId = s.nextId + 1)
  ∧ (∀ (s : State) (n : Nat) (m : Msg) (x : Send) (ix b : Nat) (p : Post) (y : Block), s.Arrived n m x →
    twf (s.core m.dest).posts = true → (s.core m.dest).Takes m.tag.slot m ix p → p.scr = true →
    s.findBlk p.grid p.blockId = some b → s.blk b = some y → p.buf + 80 ≤ y.kern.shared →
    ∃ t, exec (.messageArrival n) s = .next t ∧ t.msgs = s.msgs.eraseIdx n ∧ tget t.sends m.send = some { x with status := some 0 }
      ∧ tget (t.core m.dest).posts ix = some { p with state := 1, msg := none }
      ∧ (∀ i, i < m.data.length → t.scrAt b y (p.buf + i) = (m.data[i]?).getD 0)
      ∧ numberAt (t.scrAt b y) (p.buf + 64) 8 = m.srcNode % 2 ^ 19 * 2 ^ 45 + m.srcCore % 2 ^ 9 * 2 ^ 32 + m.mtag % 2 ^ 32
      ∧ numberAt (t.scrAt b y) (p.buf + 72) 8 = m.data.length + 256
      ∧ s.Steady t (fun _ => False) (fun c a => c = coreOf b ∧ ((y.scratchBase + p.buf ≤ a ∧ a < y.scratchBase + p.buf + m.data.length)
        ∨ (y.scratchBase + p.buf + 64 ≤ a ∧ a < y.scratchBase + p.buf + 80))) fun _ => False)
  ∧ (∀ (s : State) (n : Nat) (m : Msg) (x : Send), s.Arrived n m x →
    (∀ ix p, ix < 64 → tget (s.core m.dest).posts ix = some p → ¬ p.Fits m.tag.slot m) →
    twf (s.core m.dest).posts = true →
    (((s.core m.dest).ovf.filter fun q => decide (q.rcvSlot = m.tag.slot)).length < (cget (0, 0) (s.core m.dest).quota m.tag.slot).2 →
      ∃ t, exec (.messageArrival n) s = .next t ∧ t.msgs = s.msgs.eraseIdx n ∧ tget t.sends m.send = some { x with status := some 0 }
        ∧ (t.core m.dest).ovf = (s.core m.dest).ovf ++ [{ m with rcvSlot := m.tag.slot }] ∧ s.Still t)
    ∧ ((cget (0, 0) (s.core m.dest).quota m.tag.slot).2 ≤ ((s.core m.dest).ovf.filter fun q => decide (q.rcvSlot = m.tag.slot)).length →
      (s.ctx m.tag.slot).rcd.eventq = 0 →
      ∃ t, exec (.messageArrival n) s = .next t ∧ t.msgs = s.msgs.eraseIdx n ∧ tget t.sends m.send = some { x with status := some 1 }
        ∧ m.tag.slot ∈ (t.core m.dest).msgovf ∧ (t.core m.dest).ovf = (s.core m.dest).ovf ∧ s.Still t))
  ∧ (∀ (s : State) (n : Nat) (m : Msg), s.msgs[n]? = some m →
    (∀ i e, i < n → s.msgs[i]? = some e → ¬ (e.srcNode = m.srcNode ∧ e.srcCore = m.srcCore ∧ e.dest = m.dest)) →
    m.srcNode = s.nodeId → s.tagLive m.tag = false →
    exec (.messageArrival n) s = .next { s with msgs := s.msgs.eraseIdx n, staleDrop := min (s.staleDrop + 1) (2 ^ 48 - 1) })
  ∧ (∀ (s : State) (n st : Nat) (x : Send), tget s.sends n = some x → x.status = some st → x.d ≠ 0 → s.Party x.who →
    ∃ t, exec (.sendStatusReturn n) s = .next t ∧ t.sread x.who x.d = BitVec.ofNat 64 st ∧ tget t.sends n = none
      ∧ (∀ w r, r ≠ x.d → t.sread w r = s.sread w r) ∧ (∀ k, k ≠ n → tget t.sends k = tget s.sends k)
      ∧ ∀ c, t.dramByte c = s.dramByte c))
  ∧ ((∀ (s : State) (b ix gen : Nat) (y : Block) (scr : Bool) (d ra rb : SReg) (tag : BitVec 32) (x : Word64) (p : Post), s.MsgReady b y d →
    x = s.sread s.cur ra → (cget (0, 0) (s.core (coreOf b)).quota y.tag.slot).1
      > ((s.core (coreOf b)).posts.filter fun e => decide (e.1 < 64) && decide (e.2.tag.slot = y.tag.slot)).length →
    ix < 64 → tget (s.core (coreOf b)).posts ix = none → (∀ i, i < ix → tget (s.core (coreOf b)).posts i ≠ none) →
    gen = (cget 0 (s.core (coreOf b)).postGens ix + 1) % 256 →
    p = ⟨gen, y.tag, if x.getLsbD 41 then none else some (x.toNat / 2 ^ 45, x.toNat / 2 ^ 32 % 2 ^ 9), tag.toNat, (s.sread s.cur rb).toNat,
      scr, y.grid, y.blockId, 0, (s.core (coreOf b)).postSeq, none, []⟩ →
    (∀ m, m ∈ (s.core (coreOf b)).ovf → m.rcvSlot = y.tag.slot → m.mtag = tag.toNat →
      p.src ≠ none ∧ p.src ≠ some (m.srcNode, m.srcCore)) →
    ∃ t, exec (.xpost scr d ra rb tag) s = .next t ∧ s.Went t none s.ir.succ ∧ tget (t.core (coreOf b)).posts ix = some p
      ∧ (∀ i, i ≠ ix → tget (t.core (coreOf b)).posts i = tget (s.core (coreOf b)).posts i)
      ∧ t.sread s.cur d = (if d = 0 then 0 else BitVec.ofNat 64 (ix + gen * 2 ^ 8 + coreOf b * 2 ^ 32))
      ∧ (s.modCore (coreOf b) fun k =>
        { k with posts := (t.core (coreOf b)).posts, postGens := (t.core (coreOf b)).postGens, postSeq := k.postSeq + 1 }).Kept t (some d)
          none [])
  ∧ (∀ (s : State) (b : Nat) (y : Block) (scr : Bool) (d ra rb : SReg) (tag : BitVec 32), s.MsgReady b y d →
    (cget (0, 0) (s.core (coreOf b)).quota y.tag.slot).1
      ≤ ((s.core (coreOf b)).posts.filter fun e => decide (e.1 < 64) && decide (e.2.tag.slot = y.tag.slot)).length →
    (∀ m, m ∈ (s.core (coreOf b)).ovf → m.rcvSlot ≠ y.tag.slot ∨ m.mtag ≠ tag.toNat) →
    ∃ t, exec (.xpost scr d ra rb tag) s = .next t ∧ s.Went t none s.ir.succ ∧ s.Kept t (some d) none []
      ∧ t.sread s.cur d = if d = 0 then 0 else BitVec.ofNat 64 (2 ^ 63))
  ∧ (∀ (s : State) (b ix gen : Nat) (y : Block) (d ra rb : SReg) (tag : BitVec 32) (x : Word64) (p : Post) (m : Msg)
    (q r : List Msg) (o : Nat), s.MsgReady b y d → x = s.sread s.cur ra → o = (s.sread s.cur rb).toNat → o + 80 ≤ y.kern.shared →
    s.findBlk y.grid y.blockId = some b → ix < 64 → tget (s.core (coreOf b)).posts ix = none →
    (∀ i, i < ix → tget (s.core (coreOf b)).posts i ≠ none) → gen = (cget 0 (s.core (coreOf b)).postGens ix + 1) % 256 →
    p = ⟨gen, y.tag, if x.getLsbD 41 then none else some (x.toNat / 2 ^ 45, x.toNat / 2 ^ 32 % 2 ^ 9), tag.toNat, o, true, y.grid, y.blockId,
      0, (s.core (coreOf b)).postSeq, none, []⟩ → (s.core (coreOf b)).ovf = q ++ m :: r → m.rcvSlot = y.tag.slot →
    p.Fits y.tag.slot m → m ∉ q → (∀ e, e ∈ q → e.rcvSlot = y.tag.slot → ¬ p.Fits y.tag.slot e) → m.data.length ≤ 64 →
    ∃ t, exec (.xpost true d ra rb tag) s = .next t ∧ s.Went t none s.ir.succ ∧ (t.core (coreOf b)).ovf = q ++ r
      ∧ tget (t.core (coreOf b)).posts (64 + ix + 64 * gen) = some { p with state := 1, msg := none }
      ∧ (∀ i, i ≠ 64 + ix + 64 * gen → tget (t.core (coreOf b)).posts i = tget (s.core (coreOf b)).posts i)
      ∧ t.sread s.cur d = (if d = 0 then 0 else BitVec.ofNat 64 (ix + gen * 2 ^ 8 + coreOf b * 2 ^ 32))
      ∧ (∀ i, i < m.data.length → t.scrAt b y (o + i) = (m.data[i]?).getD 0)
      ∧ numberAt (t.scrAt b y) (o + 64) 8 = m.srcNode % 2 ^ 19 * 2 ^ 45 + m.srcCore % 2 ^ 9 * 2 ^ 32 + m.mtag % 2 ^ 32
      ∧ numberAt (t.scrAt b y) (o + 72) 8 = m.data.length + 256)
  ∧ (∀ (s : State) (b c ix key : Nat) (y : Block) (wait : Bool) (d a : SReg) (p : Post), s.MsgReady b y d →
    s.Handle (s.sread s.cur a) c ix key p y.tag →
    (p.state = 0 → wait = true →
      (∀ v, s.Slotted v → exec (.xprobe wait d a) s = .next (s.modSlot v.bid v.wid v.k fun x =>
        { x with status := .blocked (.post c key p.gen) }))
      ∧ ∀ q e i x, s.Streamed q e i x → exec (.xprobe wait d a) s = .next s)
    ∧ (p.state = 0 → wait = false → ∃ t, exec (.xprobe wait d a) s = .next t ∧ s.Went t none s.ir.succ ∧ s.Kept t (some d) none []
      ∧ t.sread s.cur d = 0)
    ∧ (p.state ≠ 0 → ∃ t, exec (.xprobe wait d a) s = .next t ∧ s.Went t none s.ir.succ
      ∧ ((s.modCore c fun k => { k with posts := (t.core c).posts }).acquired (coreOf b) true .dev).Kept t (some d) none []
      ∧ (∀ i, tget (t.core c).posts i = if i = key then none else tget (s.core c).posts i)
      ∧ t.sread s.cur d = if d = 0 then 0 else 1)
    ∧ ∃ t, exec (.xcancel d a) s = .next t ∧ s.Went t none s.ir.succ
      ∧ (s.modCore c fun k => { k with posts := (t.core c).posts }).Kept t (some d) none []
      ∧ (∀ i, tget (t.core c).posts i = if i = key then none else tget (s.core c).posts i)
      ∧ t.sread s.cur d = if d = 0 then 0 else if p.state = 0 ∧ p.msg = none then 2 else 1)
  ∧ (∀ (s : State) (b : Nat) (y : Block) (wait : Bool) (d a : SReg), s.MsgReady b y d →
    (∀ c ix key p, ¬ s.Handle (s.sread s.cur a) c ix key p y.tag) →
    (∃ t, exec (.xprobe wait d a) s = .next t ∧ s.Went t none s.ir.succ ∧ s.Kept t (some d) none []
      ∧ t.sread s.cur d = if d = 0 then 0 else 3)
    ∧ ∃ t, exec (.xcancel d a) s = .next t ∧ s.Went t none s.ir.succ ∧ s.Kept t (some d) none []
      ∧ t.sread s.cur d = if d = 0 then 0 else 3))

/-- R245, R335 to R339, R266, R268: COLL reads its plan and its argument block and starts an instance, once both slots of a split wave have
reached it; contributions that their sender's entry admits are kept, and others refused. COLL_CHUNK_COMPLETE takes a chunk one step on:
the rank sends its leaf; a unit whose two inputs have come forms their inner node, element by element; the result is written, and then the
chunk's bit is set; the last chunk advances COUNT. A contribution of another plan goes and stops the blocks that hold the instance. An
abort in place of the result ends a chunk without data; WAITCHUNK goes on once the bit is set or ABORTED is not zero. The order of the
tree is R338's; the places of a plan packet's fields are log 11's, and the registration of tags is log 21's. -/
def Obligations.Collectives : Prop :=
  (∀ (s : State) (b n m epoch rank : Nat) (y : Block) (ord : Ord) (sc : Scope) (ra rb : SReg) (plan : BitVec 32) (o : Obj)
    (pp d ws ls arg : List Byte) (words : List Nat) (p : Plan), s.HasIssuer → (∀ q e ix, s.cur = .stream q e ix → e = .coll) → s.DirectIn b y →
    (∀ v, s.Slotted v → v.Alone) →
    plan.toNat < y.kern.nplan → (s.colls.filter fun e => decide (e.2.core = coreOf b)).length < 16 →
    s.ReadsAs b (y.kern.plantab + 8 * plan.toNat) 8 pp → leNat pp % 64 = 0 → s.ReadsAs b (leNat pp) 64 d → n = leNat ((d.drop 8).take 4) →
    planRecOk d = true → (s.sread s.cur ra).toNat % 32 = 0 → s.ReadsAs b (leNat ((d.drop 24).take 8)) (8 * n) ws →
    m = (if leNat ((d.drop 32).take 8) = 0 then 0 else n - 1) → s.ReadsAs b (leNat ((d.drop 32).take 8)) (2 * m) ls →
    s.ReadsAs b (s.sread s.cur ra).toNat 32 arg →
    s.ObjAt b (s.sread s.cur rb).toNat ⟨true, true, false⟩ o → words = (List.range n).map (fun i => leNat ((ws.drop (8 * i)).take 8)) →
    planRanksOk d words = true → p = planOf d (words.map rankOf) ((List.range m).map fun i => leNat ((ls.drop (2 * i)).take 2)) →
    rank = leNat ((arg.drop 16).take 4) → epoch = leNat ((arg.drop 20).take 4) → (∀ i, i < 8 → arg[24 + i]? = some 0) →
    p.ranks[rank]? = some (s.nodeId, coreOf b) → (∀ r, r ∈ p.ranks → r.1 = s.nodeId) →
    ∃ t io, exec (.coll ord sc ra rb plan) s = .next t ∧ s.Went t none s.ir.succ ∧ t.nextId = s.nextId + 1
      ∧ t.colls = tset s.colls s.nextId ⟨s.cur, s.cur, coreOf b, b, y.tag, p, leNat (arg.take 8), leNat ((arg.drop 8).take 8), rank, epoch, o.key,
        none, ord, sc, s.ir.pc, [], [], [], [], 0, 0⟩
      ∧ t.cmds = tset s.cmds s.nextId io ∧ io.op = .coll ∧ io.block = b
      ∧ (({ s with colls := t.colls, cmds := t.cmds, nextId := t.nextId }).acquired (coreOf b) (decide (ord = Ord.acq) || decide (ord = Ord.ar))
        sc).Kept t none none [])
  ∧ (∀ (s : State) (b : Nat) (y : Block) (ord : Ord) (sc : Scope) (ra rb : SReg) (plan : BitVec 32), s.HasIssuer → s.cur.block = b →
    (∀ q e ix, s.cur = .stream q e ix → e = .coll) → s.blk b = some y → y.kern.nplan ≤ plan.toNat →
    exec (.coll ord sc ra rb plan) s = .next (s.trap cILLEGAL))
  ∧ (∀ (s : State) (v u : View) (ord : Ord) (sc : Scope) (ra rb : SReg) (plan : BitVec 32), s.Slotted v → plan.toNat < v.b.kern.nplan →
    s.view v.bid v.wid (1 - v.k) = some u → u.sl.live = true → u.sl.status ≠ .blocked .coll →
    exec (.coll ord sc ra rb plan) s = .next (s.modSlot v.bid v.wid v.k fun x => { x with status := .blocked .coll, ir := s.ir }))
  ∧ (∀ (s : State) (pk : Packet) (x : Contrib), pk.kind = .contribution → pk.age < 2000 → x = planContrib pk →
    (x.abort = true → leNat ((pk.data.drop 14).take 1) ≠ 1) →
    (tget s.peersInc (pk.src * 1024 + pk.tagSlot) ≠ some (true, pk.tagInc) →
      (x.abort = true → tget s.peersInc (pk.src * 1024 + pk.tagSlot) ≠ some (false, pk.tagInc)) → exec (.contributionArrival pk) s
      = .next (({ s with staleDrop := min (s.staleDrop + 1) (2 ^ 48 - 1) }).reply pk .staleRefusal 0 []))
    ∧ ((tget s.peersInc (pk.src * 1024 + pk.tagSlot) = some (true, pk.tagInc)
        ∨ x.abort = true ∧ tget s.peersInc (pk.src * 1024 + pk.tagSlot) = some (false, pk.tagInc)) →
      leNat ((pk.data.drop 6).take 4) ≠ 0 → (x.core, x.planid, x.epoch) ∉ s.collDone →
      exec (.contributionArrival pk) s = .next { s with contribs := s.contribs ++ [x] }))
  ∧ (∀ (s : State) (pk : Packet) (x : Contrib), x = planContrib pk → pk.age < 2000 →
    (pk.kind = .result ∨ pk.kind = .contribution ∧ x.abort = true ∧ leNat ((pk.data.drop 14).take 1) = 1) →
    (s.tagLive ⟨pk.tagSlot, pk.tagInc⟩ = true → (x.core, x.planid, x.epoch) ∉ s.collDone →
      exec (.contributionArrival pk) s = .next { s with contribs := s.contribs ++ [x] })
    ∧ (s.tagLive ⟨pk.tagSlot, pk.tagInc⟩ = false →
      exec (.contributionArrival pk) s = .next { s with staleDrop := min (s.staleDrop + 1) (2 ^ 48 - 1) }))
  ∧ (∀ (s : State) (id c core : Nat) (x : Coll) (io : Cmd) (y : Block) (d : List Byte), s.CollHas id c x io y → s.PlanHere x.plan → c ∉ x.sent →
    x.rank < x.plan.ranks.length → 2 ≤ x.plan.ranks.length → x.plan.ranks.length ≤ 409600 →
    (∀ q k, x.plan.parent x.rank 1 = some (k, q) → core = ((x.plan.ranks[q.1]?).getD (0, 0)).2) →
    (core, x.plan.planid, x.epoch) ∉ s.collDone →
    (if x.plan.op = 1 ∨ x.plan.op = 2 ∨ x.rank = (if x.plan.op = 3 then c % x.plan.ranks.length else 0)
      then s.ReadsAs x.block (x.src + c * x.plan.chunk) x.plan.chunk d else d = []) →
    ∃ t, exec (.collChunkComplete id c) s = .next t ∧ tget t.colls id = some { x with sent := c :: x.sent }
      ∧ t.contribs = s.contribs ++ piecesTo x core (some (x.rank, 1)) c d
      ∧ s.Still t)
  ∧ (∀ (s : State) (id c lo n h core z : Nat) (x : Coll) (io : Cmd) (y : Block) (a b : List Byte), s.CollHas id c x io y → s.PlanHere x.plan →
    c ∈ x.sent →
    (∃ k, (k, lo, n) ∈ x.plan.own x.rank) → (c, n) ∉ x.formed →
    (∀ k m, (k, lo, m) ∈ x.plan.own x.rank → m < n → (c, m) ∈ x.formed) → h = 2 ^ Nat.log2 (n - 1) →
    s.chunkOf x (some (lo, h)) c = some a → s.chunkOf x (some (lo + h, n - h)) c = some b → z = x.plan.ty.bytes →
    (∀ r, r ∈ x.plan.ranks → (r.2, x.plan.planid, x.epoch) ∉ s.collDone) → x.plan.ranks.length ≤ 409600 →
    ∃ t d, exec (.collChunkComplete id c) s = .next t ∧ tget t.colls id = some { x with formed := (c, n) :: x.formed }
      ∧ (if x.plan.op = 1 ∨ x.plan.op = 2 then
          d.length = x.plan.chunk / z * z
          ∧ ∀ e, e < x.plan.chunk / z → chunkElt z e d = planeOp x.plan.redOp x.plan.ty (chunkElt z e a) (chunkElt z e b) % 2 ^ (8 * z)
        else d = if a = [] then b else a)
      ∧ (∀ k q, x.plan.parent lo n = some (k, q) → core = ((x.plan.ranks[q.1]?).getD (0, 0)).2 →
        t.contribs = s.contribs ++ piecesTo x core (some (lo, n)) c d)
      ∧ (x.plan.parent lo n = none → t.contribs = s.contribs ++ ((List.range x.plan.ranks.length).flatMap fun q =>
          piecesTo x ((x.plan.ranks[q]?).getD (0, 0)).2 none c (if x.plan.op = 2 ∧ q ≠ c % x.plan.ranks.length then [] else d)))
      ∧ s.Still t)
  ∧ (∀ (F : Nat → Nat → Nat) (x : Nat → Nat) (n lo h k : Nat), 2 ≤ n → n ≤ 2 ^ k → h = 2 ^ Nat.log2 (n - 1) →
    h < n ∧ tree F x (k + 1) lo n = F (tree F x (k + 1) lo h) (tree F x (k + 1) (lo + h) (n - h)))
  ∧ (∀ (s : State) (id c pa cell : Nat) (x : Coll) (io : Cmd) (y : Block) (d : List Byte), s.CollHas id c x io y → x.Spent c → c ∉ x.wrote →
    s.chunkOf x none c = some d → d ≠ [] →
    s.Lands x.block (x.dst + c * x.plan.chunk) ⟨false, true, false⟩ pa cell x.plan.chunk →
    (∀ i, i < x.plan.chunk → isPinned (pa + i) = false ∨ vaultOf (cell + i) ≠ x.core) →
    (cell + x.plan.chunk ≤ x.obj ∨ x.obj + 64 ≤ cell) → (∃ k, k < x.plan.nchunk ∧ k ≠ c ∧ (x.done ||| x.abort).getLsbD k = false) →
    ∃ t, exec (.collChunkComplete id c) s = .next t
      ∧ tget t.colls id = some { x with wrote := c :: x.wrote, done := x.done ||| chunkBit c }
      ∧ (∀ i, i < x.plan.chunk → t.dramByte (cell + i) = if s.onAppend (cell + i) then 0 else (d[i]?).getD 0)
      ∧ numberAt t.dramByte (x.obj + 8) 8 = Nat.lor (numberAt s.dramByte (x.obj + 8) 8) (2 ^ c)
      ∧ s.Steady t (fun a => (cell ≤ a ∧ a < cell + x.plan.chunk) ∨ (x.obj + 8 ≤ a ∧ a < x.obj + 16)) (fun _ _ => False) fun _ => False)
  ∧ (∀ (s : State) (id c : Nat) (x : Coll) (io : Cmd) (y : Block), s.CollHas id c x io y → x.Spent c →
    s.chunkOf x none c = some [] → x.abort = 0 → (∀ k, k < x.plan.nchunk → k ≠ c → x.done.getLsbD k = true) →
    ∃ t, exec (.collChunkComplete id c) s = .next t ∧ tget t.colls id = none ∧ tget t.cmds id = none
      ∧ (x.core, x.plan.planid, x.epoch) ∈ t.collDone
      ∧ numberAt t.dramByte x.obj 8 = (numberAt s.dramByte x.obj 8 + 1) % 2 ^ 64
      ∧ numberAt t.dramByte (x.obj + 8) 8 = Nat.lor (numberAt s.dramByte (x.obj + 8) 8) (2 ^ c)
      ∧ s.Steady t (fun a => x.obj ≤ a ∧ a < x.obj + 16) (fun _ _ => False) fun _ => False)
  ∧ (∀ (s : State) (id c : Nat) (x : Coll) (io : Cmd) (y : Block) (e : Contrib), tget s.colls id = some x → tget s.cmds id = some io →
    s.cmdReady io = true → s.blk io.block = some y → (s.ctx y.tag.slot).rcd.policy ≠ 1 → (s.ctx y.tag.slot).rcd.eventq = 0 →
    c < x.plan.nchunk → (x.done ||| x.abort).getLsbD c = false → e ∈ s.contribs → e.core = x.core → e.epoch = x.epoch → e.chunk = c →
    e.planid ≠ x.plan.planid → (∀ k q, tget s.colls k = some q → q.plan.planid ≠ e.planid) →
    (∀ k, k ∈ s.colls → k.2.plan.planid = x.plan.planid → k.1 = id) → twf s.colls = true →
    ∃ t z, exec (.collChunkComplete id c) s = .next t ∧ e ∉ t.contribs ∧ t.blk io.block = some z ∧ z.frozen = .fault
      ∧ tget t.cmds id = some { io with stopped := true } ∧ s.Still t)
  ∧ (∀ (s : State) (id c : Nat) (x : Coll), tget s.colls id = some x → c < x.plan.nchunk → x.plan.nchunk ≤ 64 →
    (∃ e, e ∈ s.contribs ∧ e.core = x.core ∧ e.planid = x.plan.planid ∧ e.epoch = x.epoch ∧ e.node = none ∧ e.chunk = c ∧ e.abort = true) →
    (x.done ||| x.abort).getLsbD c = false → (∃ k, k < x.plan.nchunk ∧ k ≠ c ∧ (x.done ||| x.abort).getLsbD k = false) →
    exec (.collAbortReceived id c) s = .next { s with colls := tmod s.colls id fun _ => { x with abort := x.abort ||| chunkBit c } })
  ∧ (∀ (s : State) (b : Nat) (y : Block) (ord : Ord) (sc : Scope) (a : SReg) (c : BitVec 32) (o : Obj), s.HasIssuer →
    (∀ q e ix, s.cur = .stream q e ix → e = .coll) → s.DirectIn b y → (Instr.waitchunk ord sc a c).wf = true →
    s.ObjAt b (s.sread s.cur a).toNat ⟨true, false, false⟩ o →
    if (numberAt s.dramByte (o.key + 8) 8).testBit c.toNat = true ∨ numberAt s.dramByte (o.key + 16) 8 ≠ 0 then
      ∃ t, exec (.waitchunk ord sc a c) s = .next t ∧ s.Went t none s.ir.succ
        ∧ (s.acquired (coreOf b) (decide (ord = Ord.acq)) sc).Kept t none none []
    else ∃ t w, exec (.waitchunk ord sc a c) s = .next t ∧ t = { s.setWait .obj with waiters := s.waiters ++ [w] } ∧ w.who = s.cur
      ∧ w.cell = o.key ∧ w.peer = none ∧ w.target = none ∧ w.chunk = c.toNat)

/-- R246, R276, R277, R279: LAUNCH and QPUSH put their entry at TAIL and advance it; QPOP takes the entry at HEAD and advances it; HOST_APPEND
puts the entry of its staging record and leaves the status there, or waits in order while a home is not ready. The status is 1 for a full
or empty queue, 2 for a closed one and 3 for one that is not the context's or not of the KIND. A launch packet's arrival is recorded. -/
def Obligations.Queues : Prop :=
  (∀ (s : State) (v : View) (i : Instr) (d a b : SReg) (kind q cell lg ring tail head src pa pe ce slot : Nat), s.Slotted v →
    appendRule i = some (d, a, b, kind) → s.Direct v → s.scalarOver d = false → src = (s.sread s.cur b).toNat → src % 128 = 0 →
    s.Lands v.bid src ⟨true, false, false⟩ pe ce 128 → q = (s.sread s.cur a).toNat →
    s.QueueIs (coreOf v.bid) v.b.tag q cell kind lg ring tail head → (tail + 2 ^ 64 - head) % 2 ^ 64 ≠ 2 ^ lg →
    s.translate (coreOf v.bid) v.b.tag (ring + tail % 2 ^ lg * 128) ⟨false, true, false⟩ = (s, .ok (.dram pa slot)) →
    (slot + 128 ≤ cell ∨ cell + 256 ≤ slot) → slot % 128 = 0 →
    ∃ t, exec i s = .next t ∧ s.Went t none s.ir.succ ∧ s.EntryPut t slot (cell + 16) (tail + 1) (fun k => s.dramByte (ce + k))
      ∧ ({ s with lines := t.lines, arrivals := t.arrivals }).Kept t (some d) none []
      ∧ t.arrivals = s.arrivals ++ (if kind = 1 then [(cell, tail, s.ns)] else [])
      ∧ t.sread s.cur d = if d = 0 then 0 else BitVec.ofNat 64 (tail % 2 ^ 32 * 2 ^ 32))
  ∧ (∀ (s : State) (v : View) (i : Instr) (d a b : SReg) (kind have_ q cell lg ring tail head src pe ce : Nat), s.Slotted v →
    appendRule i = some (d, a, b, kind) → s.Direct v → s.scalarOver d = false → src = (s.sread s.cur b).toNat → src % 128 = 0 →
    s.Lands v.bid src ⟨true, false, false⟩ pe ce 128 → q = (s.sread s.cur a).toNat →
    s.QueueIs (coreOf v.bid) v.b.tag q cell have_ lg ring tail head → (have_ ≠ kind ∨ (tail + 2 ^ 64 - head) % 2 ^ 64 = 2 ^ lg) →
    ∃ t, exec i s = .next t ∧ s.Went t none s.ir.succ ∧ s.Kept t (some d) none []
      ∧ t.sread s.cur d = if d = 0 then 0 else if have_ ≠ kind then 3 else 1)
  ∧ (∀ (s : State) (v : View) (d a b : SReg) (q cell lg ring tail head dst pa pd cd slot : Nat), s.Slotted v → s.Direct v →
    s.scalarOver d = false → dst = (s.sread s.cur b).toNat → dst % 128 = 0 → s.Lands v.bid dst ⟨false, true, false⟩ pd cd 128 →
    (∀ i, i < 128 → isPinned (pd + i) = false ∨ vaultOf (cd + i) ≠ coreOf v.bid) → q = (s.sread s.cur a).toNat →
    s.QueueIs (coreOf v.bid) v.b.tag q cell 2 lg ring tail head →
    (head = tail → ∃ t, exec (.qpop d a b) s = .next t ∧ s.Went t none s.ir.succ
      ∧ (s.acquired (coreOf v.bid) true .sys).Kept t (some d) none [] ∧ t.sread s.cur d = if d = 0 then 0 else 1)
    ∧ (head ≠ tail → s.translate (coreOf v.bid) v.b.tag (ring + head % 2 ^ lg * 128) ⟨true, false, false⟩ = (s, .ok (.dram pa slot)) →
      (cd + 128 ≤ cell ∨ cell + 256 ≤ cd) → slot % 128 = 0 → cd % 128 = 0 →
      ∃ t, exec (.qpop d a b) s = .next t ∧ s.Went t none s.ir.succ
        ∧ s.EntryPut t cd (cell + 24) (head + 1) (fun k => s.dramByte (slot + k))
        ∧ (({ s with lines := t.lines }).acquired (coreOf v.bid) true .sys).Kept t (some d) none []
        ∧ t.sread s.cur d = if d = 0 then 0 else BitVec.ofNat 64 (head % 2 ^ 32 * 2 ^ 32)))
  ∧ (∀ (s : State) (header staging h g k q kind lg ring tail head pa slot : Nat) (c : Tag), cellOf header = some h → cellOf staging = some g →
    header % 256 = 0 → staging % 256 = 0 → s.hostHeld = [] → s.parks header h = false →
    s.parks staging g = false → s.queueAt h = some (k, q) → c = ⟨k, (s.ctx k).inc⟩ → s.QueueIs fwCore c q h kind lg ring tail head →
    (tail + 2 ^ 64 - head) % 2 ^ 64 ≠ 2 ^ lg →
    s.translate fwCore c (ring + tail % 2 ^ lg * 128) ⟨false, true, false⟩ = (s, .ok (.dram pa slot)) →
    (slot + 128 ≤ h ∨ h + 256 ≤ slot) → (g + 256 ≤ h ∨ h + 256 ≤ g) → (g + 256 ≤ slot ∨ slot + 128 ≤ g) →
    slot % 128 = 0 → (∀ i, i < 8 → s.onAppend (g + 128 + i) = false) →
    ∃ t, exec (.hostAppend header staging) s = .next t ∧ numberAt t.dramByte (h + 16) 8 = (tail + 1) % 2 ^ 64
      ∧ (∀ k, k < 128 → t.dramByte (slot + k) = if s.onAppend (slot + k) then 0 else s.dramByte (g + k))
      ∧ numberAt t.dramByte (g + 128) 8 = tail % 2 ^ 32 * 2 ^ 32 ∧ t.arrivals = s.arrivals ++ (if kind = 1 then [(h, tail, s.ns)] else [])
      ∧ s.Steady t (fun a => (slot ≤ a ∧ a < slot + 128) ∨ (h + 16 ≤ a ∧ a < h + 24) ∨ (g + 128 ≤ a ∧ a < g + 136))
        (fun _ _ => False) fun _ => False)
  ∧ (∀ (s : State) (header staging h g : Nat), cellOf header = some h → cellOf staging = some g → header % 256 = 0 → staging % 256 = 0 →
    s.hostHeld = [] → s.parks header h = false → s.parks staging g = false →
    (s.queueAt h = none → exec (.hostAppend header staging) s = .next (s.dramWrite (g + 128) (toLE 8 3)))
    ∧ ∀ k q, s.queueAt h = some (k, q) → (s.ctx k).withdrawn = true →
      exec (.hostAppend header staging) s = .next (s.dramWrite (g + 128) (toLE 8 2)))
  ∧ (∀ (s : State) (header staging h g : Nat), cellOf header = some h → cellOf staging = some g → header % 256 = 0 → staging % 256 = 0 →
    (s.hostHeld ≠ [] ∨ s.parks header h = true ∨ s.parks staging g = true) →
    exec (.hostAppend header staging) s = .next { s with hostHeld := s.hostHeld ++ [.write (header + 48) (toLE 8 staging)] })

/-- R31, R32, R220 to R222: FORK starts a stream in a context of its engine, with the slot's scalars, and gives its handle; STREAM_END frees
the context of a stream that has exited once its commands are performed; RDV blocks its slot until the stream has ended, and a handle that
is none traps ILLEGAL. Which free context a FORK takes is log 3's. -/
def Obligations.Streams : Prop :=
  (∀ (s : State) (v : View) (e : Engine) (d : SReg) (off : BitVec 32), s.Slotted v → s.Room 0 → s.scalarOver d = false → v.sl.pending = [] →
    (if e = .mat then (∃ n, v.b.matCtx = some n ∧ v.b.stream .mat n = none ∧ n < 16) else s.freeContexts (coreOf v.bid) e ≠ []) →
    ∃ t ix gen x u, exec (.fork e d off) s = .next t ∧ s.Went t none s.ir.succ ∧ t.blk v.bid = some u ∧ u.streams = v.b.streams ++ [x]
      ∧ ix < engineContexts e ∧ (if e = .mat then v.b.matCtx = some ix else ix ∈ s.freeContexts (coreOf v.bid) e)
      ∧ gen = (cget 0 (s.core (coreOf v.bid)).seqGens (e.code.toNat * 16 + ix) + 1) % 65536
      ∧ x.eng = e ∧ x.ix = ix ∧ x.hix = ix ∧ x.gen = gen ∧ x.pc = s.ir.target off ∧ x.wave = v.wid ∧ x.status = .run ∧ x.pending = []
      ∧ x.exited = false ∧ (∀ n, t.sread (.stream v.bid e ix) n = s.sread s.cur n)
      ∧ ((({ s with freeIx := t.freeIx }).modBlk v.bid fun q => { q with streams := u.streams }).modCore (coreOf v.bid) fun k =>
        { k with seqGens := cset 0 k.seqGens (e.code.toNat * 16 + ix) gen }).covered = t.covered
      ∧ t.sread s.cur d = (if d = 0 then 0 else BitVec.ofNat 64 (gen * 2 ^ 16 + v.b.hslot % 64 * 2 ^ 10 + e.code.toNat * 2 ^ 8 + ix))
      ∧ (∀ n, n ≠ d → t.sread s.cur n = s.sread s.cur n) ∧ ∀ c, t.dramByte c = s.dramByte c)
  ∧ (∀ (s : State) (v : View) (d : SReg) (off : BitVec 32), s.Slotted v → v.Handles → v.b.matCtx = none →
    ∃ t, exec (.fork .mat d off) s = .next t ∧ s.Traps t v cILLEGAL s.ir.pc)
  ∧ (∀ (s : State) (b : Nat) (y : Block) (e : Engine) (ix : Nat) (x : Stream), s.blk b = some y → y.stream e ix = some x →
    if x.exited = true ∧ y.frozen = .no ∧ (e = .mat → y.mat.queue0 = [] ∧ y.mat.queue1 = [] ∧ y.mat.queue2 = [] ∧ y.mat.queue3 = [])
      ∧ (∀ q, q ∈ s.sends → q.2.who = .stream b e ix → q.2.status ≠ none) ∧ (∀ q, q ∈ s.colls → q.2.who ≠ .stream b e ix)
      ∧ ∀ q, q ∈ s.cmds → q.2.who ≠ .stream b e ix
    then ∃ t z, exec (.streamEnd b e ix) s = .next t ∧ t = s.modBlk b (fun q => { q with streams := z.streams }) ∧ t.blk b = some z
      ∧ z.stream e ix = none ∧ ∀ g k, (g ≠ e ∨ k ≠ ix) → z.stream g k = y.stream g k
    else exec (.streamEnd b e ix) s = .next s)
  ∧ (∀ (s : State) (v : View) (a : SReg) (h : Word64) (e : Engine) (ix gen : Nat), s.Slotted v → h = s.sread s.cur a → s.Room 0 →
    h.toNat = gen * 2 ^ 16 + v.b.hslot % 64 * 2 ^ 10 + e.code.toNat * 2 ^ 8 + ix → gen < 65536 → ix < engineContexts e →
    ((∃ x, x ∈ v.b.streams ∧ x.eng = e ∧ x.hix = ix ∧ x.gen = gen) →
      exec (.rdv a) s = .next (s.modSlot v.bid v.wid v.k fun z => { z with status := .blocked (.stream v.bid e ix gen) }))
    ∧ ((∀ x, x ∈ v.b.streams → x.eng = e → x.hix = ix → x.gen ≠ gen) →
      ∃ t, exec (.rdv a) s = .next t ∧ s.Went t none s.ir.succ ∧ s.Kept t none none []))
  ∧ (∀ (s : State) (v : View) (a : SReg) (h : Word64), s.Slotted v → v.Handles → h = s.sread s.cur a →
    (2 ^ 32 ≤ h.toNat ∨ h.extractLsb' 4 4 ≠ 0 ∨ (h.extractLsb' 10 6).toNat ≠ v.b.hslot % 64) →
    ∃ t, exec (.rdv a) s = .next t ∧ s.Traps t v cILLEGAL s.ir.pc)

/-- R262, R263, R267, R271, R275: CTXKILL withdraws a live context and takes its blocks and requests away; KILL_APPLIED fixes the time of the
kill; RECLAIM waits, and RECLAIM_COMPLETE frees the slot once nothing of it is outstanding, after 2 ms where it used the link. A slot
number out of range or the issuer's own gives status 2, and one that is not in the state for it 1; at a slot that is starting an
instruction waits in the order of arrival. While its release waits for a peer the issuer is blocked. R262, R265, R272, R275: CTXSTART
reads its record and starts a free slot under its next incarnation, or answers 3 for a record that is invalid and 1 for a slot that is not
free; PEER_ANNOUNCE_TIMEOUT marks a silent peer unreachable after 2 ms; START_ACKNOWLEDGED makes the context live once no announcement is
open. R167, R168, R301: PATCH writes text that its context has bound, once nothing that executes in its range is under way, and no core
keeps an older copy; a range outside it gives 3. -/
def Obligations.Contexts : Prop :=
  ((∀ (s : State) (v : View) (i : Instr) (d a b : SReg) (x : Word64), s.Governs v d → x = s.sread s.cur a →
    (i = .ctxkill d a ∨ i = .reclaim d a ∨ i = .ctxstart d a b) →
    ((1023 < x.toNat ∨ (x ≠ 0 ∧ x.toNat = v.b.tag.slot)) → ∃ t, exec i s = .next t ∧ s.Answers t v d 2)
    ∧ (x = 0 → ∃ t, exec i s = .next t ∧ s.Answers t v d 1))
  ∧ (∀ (s : State) (v : View) (d a : SReg) (x : Nat), s.Governs v d → x = (s.sread s.cur a).toNat → x ≠ 0 → x < 1024 → x ≠ v.b.tag.slot →
    ((s.ctx x).state ≠ .live → (s.ctx x).state ≠ .starting → ∃ t, exec (.ctxkill d a) s = .next t ∧ s.Answers t v d 1)
    ∧ ((s.ctx x).state = .starting → exec (.ctxkill d a) s
      = .next (((s.fenced v).setWait (.ctxwait x 0 d)).setCtx x { s.ctx x with queue := (s.ctx x).queue ++ [(s.cur, 0)] }))
    ∧ ((s.ctx x).state = .live → ∃ t, exec (.ctxkill d a) s = .next t ∧ s.Went t none s.ir.succ ∧ t.sread s.cur d = 0
      ∧ (t.ctx x).state = .killing ∧ (t.ctx x).withdrawn = true ∧ (t.ctx x).inc = (s.ctx x).inc
      ∧ (∀ n, n ≠ x → (t.ctx n).state = (s.ctx n).state ∧ (t.ctx n).inc = (s.ctx n).inc ∧ (t.ctx n).rcd = (s.ctx n).rcd
        ∧ ∀ w, w ∈ (t.ctx n).reclaimers → w ∈ (s.ctx n).reclaimers)
      ∧ (∀ w n, w ∈ (t.ctx n).reclaimers → ∀ y, s.blk w.block = some y → y.tag.slot ≠ x) ∧ (∀ c, (t.core c).wq = [])
      ∧ (∀ e, e ∈ t.blocks → e.2.tag.slot ≠ x) ∧ (∀ e, e ∈ t.cmds → e.2.tag.slot ≠ x) ∧ (∀ e, e ∈ t.sends → e.2.tag.slot ≠ x)
      ∧ (∀ e, e ∈ t.colls → e.2.tag.slot ≠ x) ∧ (∀ e, e ∈ t.grids → e.2.tag.slot ≠ x) ∧ (∀ w, w ∈ t.waiters → w.tag.slot ≠ x)
      ∧ ∀ n, n ≠ d → t.sread s.cur n = s.sread s.cur n))
  ∧ (∀ (s : State) (n : Nat), exec (.killApplied n) s
    = .next (if (s.ctx n).state = .killing then s.setCtx n { s.ctx n with state := .reclaiming, tk := s.clock } else s))
  ∧ (∀ (s : State) (v : View) (d a : SReg) (x : Nat), s.Governs v d → x = (s.sread s.cur a).toNat → x ≠ 0 → x < 1024 → x ≠ v.b.tag.slot →
    (((s.ctx x).state = .free ∨ (s.ctx x).state = .live) → ∃ t, exec (.reclaim d a) s = .next t ∧ s.Answers t v d 1)
    ∧ ((s.ctx x).state = .starting → exec (.reclaim d a) s
      = .next (((s.fenced v).setWait (.ctxwait x 2 d)).setCtx x { s.ctx x with queue := (s.ctx x).queue ++ [(s.cur, 2)] }))
    ∧ ((s.ctx x).state = .killing ∨ (s.ctx x).state = .reclaiming → exec (.reclaim d a) s
      = .next (((s.fenced v).setWait (.ctxwait x 2 d)).setCtx x { s.ctx x with reclaimers := (s.ctx x).reclaimers ++ [s.cur] })))
  ∧ (∀ (s : State) (n : Nat) (v : View) (d : SReg), s.CtxWaits v n 2 d → (s.ctx n).state = .reclaiming →
    (s.ctx n).reclaimers = [.slot v.bid v.wid v.k] →
    if (∀ m, m ∈ s.msgs → m.srcNode = s.nodeId → m.tag.slot ≠ n) ∧ (∀ c, c ∈ s.cnts → c.tag.slot ≠ n)
      ∧ (∀ c, c ∈ s.cmds → c.2.tag.slot ≠ n) ∧ (∀ r, r ∈ s.lazies → r.tag.slot ≠ n) ∧ s.portHolds n = false
      ∧ ((s.ctx n).usedLink = false ∨ (s.ctx n).tk + 5000000 ≤ s.clock)
    then ∃ t, exec (.reclaimComplete n) s = .next t ∧ s.CtxGoes t v d 0
      ∧ t.ctx n = { s.ctx n with state := .free, reclaimers := [] } ∧ ∀ m, m ≠ n → t.ctx m = s.ctx m
    else exec (.reclaimComplete n) s = .next s)
  ∧ (∀ (s : State) (v : View) (i : Instr) (d a b : SReg), s.Slotted v → v.b.priv = true → s.scalarOver d = false →
    (i = .ctxkill d a ∨ i = .reclaim d a ∨ i = .ctxstart d a b ∨ i = .patch d a) → s.writesOut s.cur = true → s.writesLate s.cur = false →
    exec i s = .next (s.modSlot v.bid v.wid v.k fun x => { x with status := .blocked .acks })))
  ∧ ((∀ (s : State) (v : View) (d a b : SReg) (x : Nat) (rd : List Byte), s.Governs v d → x = (s.sread s.cur a).toNat → x ≠ 0 → x < 1024 →
    x ≠ v.b.tag.slot → (s.sread s.cur b).toNat % 128 = 0 → s.ReadsAs v.bid (s.sread s.cur b).toNat 128 rd →
    ((s.fenced v).ctxRecord (coreOf v.bid) x rd = none → ∃ t, exec (.ctxstart d a b) s = .next t ∧ s.Answers t v d 3)
    ∧ (∀ r, (s.fenced v).ctxRecord (coreOf v.bid) x rd = some r → (s.ctx x).state ≠ .free → (s.ctx x).state ≠ .starting →
      ∃ t, exec (.ctxstart d a b) s = .next t ∧ s.Answers t v d 1)
    ∧ (∀ r, (s.fenced v).ctxRecord (coreOf v.bid) x rd = some r → (s.ctx x).state = .starting → exec (.ctxstart d a b) s
      = .next (((s.fenced v).setWait (.ctxwait x 1 d)).setCtx x { s.ctx x with queue := (s.ctx x).queue ++ [(s.cur, 1)] }))
    ∧ ∀ r, (s.fenced v).ctxRecord (coreOf v.bid) x rd = some r → (s.ctx x).state = .free →
      ∃ t u, exec (.ctxstart d a b) s = .next t ∧ t.view v.bid v.wid v.k = some u ∧ u.sl.status = .ctxwait x 1 d ∧ u.sl.pc = v.sl.pc
        ∧ (t.ctx x).state = .starting ∧ (t.ctx x).inc = ((s.ctx x).inc + 1) % 1024 ∧ (t.ctx x).rcd = r ∧ (t.ctx x).waitPeers = r.peers
        ∧ (t.ctx x).unreachable = [] ∧ (t.ctx x).withdrawn = false ∧ (t.ctx x).startedAt = s.clock ∧ (t.ctx x).starter = some s.cur ∧ (t.ctx x).queue = []
        ∧ (∀ n, n ≠ x → t.ctx n = s.ctx n) ∧ ∀ w n, t.sread w n = s.sread w n)
  ∧ (∀ (s : State) (v : View) (d a b : SReg) (x : Nat), s.Governs v d → x = (s.sread s.cur a).toNat → x ≠ 0 → x < 1024 →
    x ≠ v.b.tag.slot → (s.sread s.cur b).toNat % 128 ≠ 0 → ∃ t, exec (.ctxstart d a b) s = .next t ∧ s.Answers t v d 3)
  ∧ (∀ (s : State) (n op : Nat) (v u : View) (d e : SReg), s.CtxWaits v n 1 d → s.CtxWaits u n op e → (s.ctx n).state = .starting →
    (s.ctx n).starter = some (.slot v.bid v.wid v.k) → (u.bid, u.wid, u.k) ≠ (v.bid, v.wid, v.k) →
    (s.ctx n).queue = [(.slot u.bid u.wid u.k, op)] → (s.ctx n).waitPeers = [] →
    ∃ t, exec (.startAcknowledged n) s = .next t ∧ (t.ctx n).queue = []
      ∧ if op = 0 then (t.ctx n).state = .killing ∧ ∀ b, b ∈ t.blocks → b.2.tag.slot ≠ n
        else (t.ctx n).state = .live ∧ t.sread (.slot u.bid u.wid u.k) e = (if e = 0 then 0 else 1)
          ∧ ∃ w, t.view u.bid u.wid u.k = some w ∧ w.sl.status = .run ∧ w.sl.pc = u.sl.ir.succ)
  ∧ (∀ (s : State) (n : Nat) (v : View) (d : SReg), s.CtxWaits v n 1 d → (s.ctx n).state = .starting →
    (s.ctx n).starter = some (.slot v.bid v.wid v.k) → (s.ctx n).queue = [] →
    if (s.ctx n).waitPeers = [] then
      ∃ t, exec (.startAcknowledged n) s = .next t ∧ s.CtxGoes t v d (BitVec.ofNat 64 ((s.ctx n).inc * 65536))
        ∧ t.ctx n = { s.ctx n with state := .live, starter := none } ∧ ∀ m, m ≠ n → t.ctx m = s.ctx m
    else exec (.startAcknowledged n) s = .next s)
  ∧ (∀ (s : State) (n k : Nat), exec (.peerAnnounceTimeout n k) s
    = .next (if (s.ctx n).state = .starting ∧ k ∈ (s.ctx n).waitPeers ∧ (s.ctx n).startedAt + 5000000 ≤ s.clock
      then s.setCtx n { s.ctx n with
        waitPeers := (s.ctx n).waitPeers.filter fun p => decide (p ≠ k), unreachable := (s.ctx n).unreachable ++ [k] }
      else s))
  ∧ (∀ (s : State) (v : View) (d a : SReg) (x y : List Byte) (tgt len pa cell : Nat) (p : PatchRun), s.Governs v d → (∀ c, s.Empty c) →
    s.patches = [] → v.sl.status = .run → v.sl.pc = s.ir.pc →
    p = ⟨s.cur, v.b.tag, s.ir.pc, tgt, len, leNat ((x.drop 8).take 8), dictOfRange (s.kernelsOf v.b.tag) tgt len⟩ →
    s.ReadsAs v.bid (s.sread s.cur a).toNat 32 x → tgt = leNat (x.take 8) → len = leNat ((x.drop 16).take 4) → tgt % 32 = 0 →
    len % 32 = 0 → len ≠ 0 → len ≤ 65536 → (∀ b, b ∈ x.drop 20 → b = 0) → v.b.kern.text ≤ tgt → tgt + len ≤ v.b.kern.text + v.b.kern.textLen →
    s.ReadsAs v.bid (leNat ((x.drop 8).take 8)) len y →
    (∀ i, i < len → s.translate (coreOf v.bid) v.b.tag (tgt + i) ⟨false, false, false⟩ = (s, .ok (.dram (pa + i) (cell + i)))
      ∧ s.parks (pa + i) (cell + i) = false) →
    (s.patchWaits p = false →
      ∃ t, exec (.patch d a) s = .next t ∧ s.Went t none s.ir.succ ∧ t.sread s.cur d = 0 ∧ (∀ n, n ≠ d → t.sread s.cur n = s.sread s.cur n)
        ∧ (∀ c, t.dramByte c = if cell ≤ c ∧ c < cell + len then (if s.onAppend c then 0 else (y[c - cell]?).getD 0) else s.dramByte c)
        ∧ (∀ c, (t.core c).icache = []) ∧ (∀ b w k u, t.view b w k = some u → u.sl.expand = none) ∧ t.patches = []
        ∧ ∀ e, e ∈ t.tiles ↔ e ∈ s.tiles ∧ ¬ (e.tag = v.b.tag ∧ tgt < e.lo + e.len ∧ e.lo < tgt + len))
    ∧ (s.patchWaits p = true → exec (.patch d a) s
      = .next (({ s.fenced v with patches := [p] }).modSlot v.bid v.wid v.k fun z => { z with status := .blocked .patch })))
  ∧ (∀ (s : State) (v : View) (d a : SReg) (x : List Byte) (tgt len : Nat), s.Governs v d → s.ReadsAs v.bid (s.sread s.cur a).toNat 32 x →
    tgt = leNat (x.take 8) → len = leNat ((x.drop 16).take 4) →
    (tgt % 32 ≠ 0 ∨ len % 32 ≠ 0 ∨ len = 0 ∨ 65536 < len ∨ (∃ b, b ∈ x.drop 20 ∧ b ≠ 0)
      ∨ ∀ k, k ∈ s.kernelsOf v.b.tag → (tgt < k.text ∨ k.text + k.textLen < tgt + len) ∧ (tgt < k.dict ∨ k.dict + 16 * k.ndict < tgt + len)) →
    ∃ t, exec (.patch d a) s = .next t ∧ s.Answers t v d 3))

/-- R105, R213, R256, R266 to R268, R334: PEER_REQUEST counts a packet that is too old, refuses one its sender's entry does not admit, and
else performs a read, a masked write of one line or an atomic at the home and answers it, or queues a message; ANNOUNCEMENT and
KILL_PACKET set the entry and are acknowledged. The places of a packet's fields in its data are log 11's. R243, R256, R268, R270, R272,
R330, R334: RESPONSE_ARRIVAL frees the entry of its request and gives a slot the bytes it waits for, a send its status, or an announcement
its peer; an orphan is counted. AGE_EXPIRY discards what is 2 ms old. LINK_REQUEST_TIMEOUT does nothing within 3 ms; then it is a UCE of
who waits, makes a write that nobody waits for late, and forgets a request of a context that is gone. -/
def Obligations.Peers : Prop :=
  ((∀ (s : State) (pk : Packet), pk.dest = s.nodeId → (pk.kind = .read ∨ pk.kind = .write ∨ pk.kind = .atomic ∨ pk.kind = .message) →
    (2000 ≤ pk.age → exec (.peerRequest pk) s = .next { s with staleDrop := min (s.staleDrop + 1) (2 ^ 48 - 1) })
    ∧ (pk.age < 2000 → tget s.peersInc (pk.src * 1024 + pk.tagSlot) ≠ some (true, pk.tagInc) → exec (.peerRequest pk) s
      = .next (({ s with staleDrop := min (s.staleDrop + 1) (2 ^ 48 - 1) }).reply pk .staleRefusal 0 []))
    ∧ (pk.age < 2000 → tget s.peersInc (pk.src * 1024 + pk.tagSlot) = some (true, pk.tagInc) → pk.kind = .message →
      exec (.peerRequest pk) s = .next { s with msgs := s.msgs ++ [⟨0, pk.src, leNat ((pk.data.drop 2).take 2), ⟨pk.tagSlot, pk.tagInc⟩,
        leNat ((pk.data.drop 4).take 4), leNat (pk.data.take 2), leNat ((pk.data.drop 8).take 4),
        (pk.data.drop 16).take (min 64 (leNat ((pk.data.drop 12).take 4))), pk.rid, pk.age, s.clock, 0⟩] }))
  ∧ (∀ (s : State) (pk : Packet) (cell : Nat), pk.dest = s.nodeId → pk.age < 2000 →
    tget s.peersInc (pk.src * 1024 + pk.tagSlot) = some (true, pk.tagInc) → cellOf pk.addr = some cell →
    (pk.kind = .read ∨ pk.kind = .write ∨ pk.kind = .atomic) →
    (s.parks pk.addr cell = true ∨ ∃ q, q ∈ s.heldReqs ∧ homeSlice q.pk.addr = homeSlice pk.addr) →
    exec (.peerRequest pk) s = .next { s with heldReqs := s.heldReqs ++ [⟨pk, s.clock⟩] })
  ∧ (∀ (s : State) (pk : Packet) (cell n lo : Nat), s.PeerAsks pk cell → pk.kind = .read → n = (if pk.aux % 2 = 1 then 128 else 64) →
    lo = cell / n * n → lo / 64 ∉ s.vaultBad → (n = 128 → lo / 64 + 1 ∉ s.vaultBad) →
    (s.poisoned lo n = false →
      exec (.peerRequest pk) s = .next (s.reply pk .response 0 ((List.range n).map fun i => s.dramByte (lo + i))))
    ∧ (s.poisoned lo n = true → exec (.peerRequest pk) s = .next (s.reply pk .response 1 (List.replicate n 0))))
  ∧ (∀ (s : State) (pk : Packet) (cell : Nat) (rank : Nat → Nat), s.PeerAsks pk cell → pk.kind = .write →
    (∀ w, rank w = ((List.range w).filter fun j => pk.aux.testBit j).length) → pk.data.length = 9 * rank 32 →
    (∀ w, w ∈ s.waiters → w.cell / 256 ≠ cell / 256) → s.unitFallow .vault (vaultOf cell) = false →
    (∀ p, p ∈ s.vaultBad → p / 4 ≠ cell / 256) →
    ∃ u : State, exec (.peerRequest pk) s = .next (u.reply pk .response 0 []) ∧ u = { s with lines := u.lines, poison := u.poison }
      ∧ (∀ w i, w < 32 → i < 8 → u.dramByte (cell / 256 * 256 + 8 * w + i)
        = if s.onAppend (cell / 256 * 256 + 8 * w + i) then 0 else if pk.aux.testBit w = true ∧ (leNat ((pk.data.drop (9 * rank w)).take 1)).testBit i = true
          then (pk.data[9 * rank w + 1 + i]?).getD 0 else s.dramByte (cell / 256 * 256 + 8 * w + i))
      ∧ ∀ c, c / 256 ≠ cell / 256 → u.dramByte c = s.dramByte c)
  ∧ (∀ (s : State) (pk : Packet) (cell m n : Nat) (op : AtomOp) (ty : Ty), s.PeerAsks pk cell → pk.kind = .atomic →
    pk.aux % 32 = ty.code.toNat → pk.aux / 32 = op.code.toNat → (ty = .n32 ∨ ty = .s32 ∨ ty = .n64 ∨ ty = .s64) → n = ty.bytes →
    cell % n = 0 → s.poisoned cell n = false → (∀ p, p ∈ s.vaultBad → p / 4 ≠ cell / 256) → (cell + 7) / 64 ∉ s.vaultBad → (∀ w, w ∈ s.waiters → w.cell ≠ cell / 64 * 64) → m = numberAt s.dramByte cell n →
    ∃ u : State, exec (.peerRequest pk) s = .next (u.reply pk .response 0
        (List.replicate (pk.addr % 64) 0 ++ (List.range n).map fun i => s.dramByte (cell + i)))
      ∧ u = { s with lines := u.lines }
      ∧ ∀ c, u.dramByte c = if cell ≤ c ∧ c < cell + n ∧ s.onAppend c = false
        then byteOf (atomRule op ty m (leNat (pk.data.take n)) (leNat ((pk.data.drop n).take n))) (c - cell) else s.dramByte c)
  ∧ (∀ (s : State) (pk : Packet), pk.dest = s.nodeId → pk.age < 2000 → pk.kind = .announcement → exec (.announcement pk) s
    = .next (({ s with peersInc := tset s.peersInc (pk.src * 1024 + pk.tagSlot) (true, pk.tagInc) }).reply pk .acknowledgement 0 []))
  ∧ (∀ (s : State) (pk : Packet), pk.dest = s.nodeId → pk.age < 2000 → pk.kind = .kill →
    if tget s.peersInc (pk.src * 1024 + pk.tagSlot) = some (true, pk.tagInc) then
      ∃ u : State, exec (.killPacket pk) s = .next (u.reply pk .acknowledgement 0 [])
        ∧ u = { s with peersInc := u.peersInc, heldReqs := u.heldReqs, msgs := u.msgs }
        ∧ u.peersInc = tset s.peersInc (pk.src * 1024 + pk.tagSlot) (false, pk.tagInc)
        ∧ (∀ h, h ∈ u.heldReqs ↔ h ∈ s.heldReqs ∧ ¬ (h.pk.src = pk.src ∧ h.pk.tagSlot = pk.tagSlot ∧ h.pk.tagInc = pk.tagInc))
        ∧ ∀ m, m ∈ u.msgs ↔ m ∈ s.msgs ∧ ¬ (m.srcNode = pk.src ∧ m.tag = ⟨pk.tagSlot, pk.tagInc⟩)
    else exec (.killPacket pk) s = .next (s.reply pk .acknowledgement 0 [])))
  ∧ ((∀ (s : State) (pk : Packet) (e : LinkReq) (v : View), s.Answered pk e → pk.kind = .response → pk.aux = 0 → e.lane < 1000 → e.cmd = none →
    e.who = .slot v.bid v.wid v.k → s.view v.bid v.wid v.k = some v → v.k < 2 → v.sl.asks = [(pk.rid, e.lane)] → v.sl.status = .reply →
    ∃ t, exec (.responseArrival pk) s = .next t ∧ t = ({ s with links := tdel s.links pk.rid }).modSlot v.bid v.wid v.k fun x =>
      { x with asks := [], answers := tset x.answers e.lane (leNat (pk.data.drop (e.addr % 64))), status := .run })
  ∧ (∀ (s : State) (pk : Packet) (e : LinkReq) (x : Send), s.Answered pk e → (pk.kind = .response ∨ pk.kind = .staleRefusal) →
    e.lane = 1002 → tget s.sends e.addr = some x →
    ∃ t, exec (.responseArrival pk) s = .next t ∧ t = { s with links := tdel s.links pk.rid, sends := t.sends }
      ∧ tget t.sends e.addr = some { x with status := some (if pk.kind = .staleRefusal then 2 else leNat (pk.data.take 1)) }
      ∧ ∀ k, k ≠ e.addr → tget t.sends k = tget s.sends k)
  ∧ (∀ (s : State) (pk : Packet) (e : LinkReq), pk.dest = s.nodeId → pk.age < 2000 → pk.kind = .acknowledgement → tget s.links pk.rid = some e →
    e.tag = ⟨pk.tagSlot, pk.tagInc⟩ → e.lane = 1003 → (s.ctx e.addr).inc = e.tag.inc → exec (.responseArrival pk) s
      = .next (({ s with links := tdel s.links pk.rid }).setCtx e.addr { s.ctx e.addr with
        waitPeers := (s.ctx e.addr).waitPeers.filter fun n => decide (n ≠ e.node) }))
  ∧ (∀ (s : State) (pk : Packet), pk.dest = s.nodeId → pk.age < 2000 → (pk.kind = .response ∨ pk.kind = .staleRefusal) →
    (∀ e, tget s.links pk.rid = some e → e.tag ≠ ⟨pk.tagSlot, pk.tagInc⟩) →
    exec (.responseArrival pk) s = .next { s with staleDrop := min (s.staleDrop + 1) (2 ^ 48 - 1) })
  ∧ (∀ (s : State) (rid : Nat), ∃ t, exec (.ageExpiry rid) s = .next t
    ∧ t = { s with heldReqs := t.heldReqs, msgs := t.msgs, ports := t.ports, staleDrop := t.staleDrop }
    ∧ (∀ h, h ∈ t.heldReqs ↔ h ∈ s.heldReqs ∧ ¬ (h.pk.rid = rid ∧ 2000 ≤ h.age s.clock))
    ∧ (∀ m, m ∈ t.msgs ↔ m ∈ s.msgs ∧ ¬ (m.srcNode ≠ s.nodeId ∧ m.rid = rid ∧ 2000 ≤ m.ageNow s.clock))
    ∧ ∀ n h, h ∈ (t.port n).txq ↔ h ∈ (s.port n).txq ∧ ¬ (h.pk.rid = rid ∧ 2000 ≤ h.age s.clock))
  ∧ (∀ (s : State) (rid : Nat) (e : LinkReq), tget s.links rid = some e → e.lane ≠ 1002 → e.lane ≠ 1003 →
    (s.clock < e.created + 7500000 → exec (.linkRequestTimeout rid) s = .next s)
    ∧ (e.created + 7500000 ≤ s.clock → e.write = false →
      exec (.linkRequestTimeout rid) s = .next (s.failReq rid e))
    ∧ (e.created + 7500000 ≤ s.clock → (s.tagLive e.tag = false ∨ (e.who = nobody ∧ e.cmd = none)) →
      exec (.linkRequestTimeout rid) s = .next { s with links := tdel s.links rid })
    ∧ (e.created + 7500000 ≤ s.clock → e.write = true → s.awaited rid e = false → s.tagLive e.tag = true → e.who ≠ nobody →
      exec (.linkRequestTimeout rid) s = .next { s with links := tset s.links rid { e with late := true } })))

/-- R327 to R330: a flit is taken when its CRC and its sequence number are right, and a whole packet for this package is what happens next;
its credits acknowledge the oldest flits of their channels; FLIT_REPLAY sends again, in order, what is not acknowledged; the other events
move a port between its states, as READYMAP shows, and count the lanes that fail to train. The place of returned credits is log 4's. -/
def Obligations.Ports : Prop :=
  (∀ (s : State) (n ctl vc : Nat) (d : List Byte) (pk : Packet), (∃ w, (s.port n).state = .up w ∨ (s.port n).state = .degraded w) →
    (s.port n).txq = [] → (s.port n).rxFlits = [] → d.length = 256 → ctl = leNat (d.drop 248) →
    BitVec.ofNat 32 (ctl / 2 ^ 32) = Config.crc32 (d.take 252) → ctl / 2 ^ 20 % 4096 = (s.port n).rxSeq →
    vc = leNat (d.take 32) / 2 ^ 184 % 4 → (∃ c, (s.port n).free[vc]? = some c ∧ 1 ≤ c ∧ c ≤ 32) →
    leNat (d.take 32) / 2 ^ 168 % 4 = 0 → pktParse (d.take 248) = some pk → pk.dest = s.nodeId →
    ∃ t, exec (.flitReceive n d) s = .next t
      ∧ t = { s with ports := t.ports, agenda := .event (packetEvent { pk with age := min 4095 (pk.age + 1) }) :: s.agenda }
      ∧ (∀ m, m ≠ n → t.port m = s.port m)
      ∧ t.port n = { s.port n with
        rxSeq := ((s.port n).rxSeq + 1) % 4096, credits := (t.port n).credits, unacked := (t.port n).unacked, owed := (t.port n).owed }
      ∧ (∀ i c, (s.port n).owed[i]? = some c → (t.port n).owed[i]? = some (if i = vc then c + 1 else c))
      ∧ (∀ x, x ∈ (t.port n).unacked → x ∈ (s.port n).unacked)
      ∧ (∀ i, i < 4 → (t.port n).inFlight i = (s.port n).inFlight i - ctl % 2 ^ 20 / 32 ^ i % 32)
      ∧ ∀ i c, (s.port n).credits[i]? = some c → (t.port n).credits[i]? = some (min 32 (c + ctl % 2 ^ 20 / 32 ^ i % 32)))
  ∧ (∀ (s : State) (n ctl : Nat) (d : List Byte), ctl = leNat ((d.drop 248).take 8) →
    (d.length ≠ 256 ∨ BitVec.ofNat 32 (ctl / 2 ^ 32) ≠ Config.crc32 (d.take 252) ∨ ctl / 2 ^ 20 % 4096 ≠ (s.port n).rxSeq) →
    exec (.flitReceive n d) s = .next s)
  ∧ (∀ (s : State) (n : Nat) (p : Port), s.port n = p → p.unacked ≠ [] → s.clock < p.window + 2500000 →
    ((∃ w, p.state = .up w ∨ p.state = .degraded w) → (∀ x, x ∈ p.unacked → x.payload.length = 248) →
      ∃ t, exec (.flitReplay n) s = .next t ∧ t = { s with ports := t.ports } ∧ (∀ m, m ≠ n → t.port m = s.port m)
        ∧ t.port n = { p with
          flits := p.flits + p.unacked.length, replays := p.replays + 1, unacked := (t.port n).unacked, wire := (t.port n).wire,
          owed := (t.port n).owed }
        ∧ (t.port n).unacked.length = p.unacked.length ∧ (t.port n).wire.length = p.wire.length + p.unacked.length
        ∧ ∀ i x, p.unacked[i]? = some x → ∃ f, (t.port n).wire[p.wire.length + i]? = some f ∧ f.length = 256
          ∧ (f.take 248).drop 32 = x.payload.drop 32 ∧ leNat ((f.drop 248).take 4) / 2 ^ 20 = x.seq % 4096
          ∧ leNat (f.drop 252) = (Config.crc32 (f.take 252)).toNat)
    ∧ (p.state = .down ∨ p.state = .training → exec (.flitReplay n) s = .next s))
  ∧ (∀ (s : State) (n : Nat) (p : Port), s.port n = p → n < 36 →
    (p.state = .down → ∃ t, exec (.portEnable n) s = .next t ∧ s.PortIs t n { p with state := .training, trainStart := s.clock } false [])
    ∧ (∀ w, (w = 1 ∨ w = 2 ∨ w = 4) → p.state = .training → s.clock < p.trainStart + 250000000 → p.txq = [] →
      w ≤ p.lanes.length →
      ∃ t, exec (.trainingPass n w) s = .next t ∧ s.PortIs t n (t.port n) true (p.lanes.drop w) ∧ (t.port n).state = .up w
        ∧ (∀ i, i < 4 → (t.port n).credits[i]? = some (32 - p.inFlight i))
        ∧ (t.port n).wire.length = p.wire.length + p.unacked.length ∧ (t.port n).unacked.length = p.unacked.length
        ∧ (t.port n).dead = p.dead ∧ (t.port n).txSeq = p.txSeq ∧ (t.port n).rxSeq = p.rxSeq
        ∧ (s.clock < p.window + 2500000 → (t.port n).replays = p.replays))
    ∧ (∀ w, p.state = .training → (p.lanes.length < w ∨ (w ≠ 1 ∧ w ≠ 2 ∧ w ≠ 4)) → exec (.trainingPass n w) s = .next s)
    ∧ (p.state = .training → p.trainStart + 250000000 ≤ s.clock → ∃ t, exec (.trainingTimeout n) s = .next t
      ∧ s.PortIs t n { p with
        state := .down, unacked := [], rxFlits := [], txq := [], owed := [0, 0, 0, 0], free := [32, 32, 32, 32] } false p.lanes)
    ∧ (∀ w, p.state = .up w → p.flits < 1000000 * p.replays → ∃ t, exec (.replayRateExceeded n) s = .next t
      ∧ s.PortIs t n { p with state := .degraded w, retrainAt := s.clock + 25000000, flits := 0, replays := 0 } true [])
    ∧ (∀ w, p.state = .degraded w → p.retrainAt ≤ s.clock → ∃ t, exec (.retrainDue n) s = .next t
      ∧ s.PortIs t n { p with state := .training, trainStart := s.clock } false [])
    ∧ (∀ w k, (p.state = .up w ∨ p.state = .degraded w) → k < 4 → ∃ t, exec (.laneFail n k) s = .next t
      ∧ s.PortIs t n { p with state := .training, trainStart := s.clock } false [])
    ∧ (p.state ≠ .fallow → ∃ t, exec (.portDisable n) s = .next t
      ∧ s.PortIs t n { p with
        state := .down, unacked := [], rxFlits := [], txq := [], owed := [0, 0, 0, 0], free := [32, 32, 32, 32] } false []))
  ∧ (∀ (s : State) (n : Nat) (p : Port), s.port n = p →
    (p.state ≠ .down → exec (.portEnable n) s = .next s)
    ∧ (p.state = .training → s.clock < p.trainStart + 250000000 → exec (.trainingTimeout n) s = .next s)
    ∧ (∀ w, p.state = .up w → 1000000 * p.replays ≤ p.flits → exec (.replayRateExceeded n) s = .next s)
    ∧ (p.state = .fallow → exec (.portDisable n) s = .next s))

/-- R280, R281, R284, R285, R28, R30, R47, R113, R343, R350: PACKET_TAKE takes the candidate of least deadline, advances HEAD, counts a late
one, and queues the grid's blocks, or rejects the packet with all ones to its SIGNAL; BLOCK_PLACEMENT reserves a place for the head of the
queue on a core that is ready; BIND makes the block its record describes: waves at the entry, k0 the present lanes, the start values in s1
to s3, registers zero, a snapshot of interval 0, or the saved block with its registers and its collectives. Which places are taken is log
3's; that a take waits for a home that is not ready is log 66's. -/
def Obligations.Launching : Prop :=
  (∀ (s u w : State) (c : Cand) (d hd : List Byte) (k : Kernel) (g : Grid), s.Takes u c d → leNat (d.take 8) % 256 = 0 →
    u.sysBytes fwCore c.tag (leNat (d.take 8)) 256 = (w, some hd) → leNat (hd.take 1) = 2 →
    tget w.kernels (kernKey c.tag (leNat (d.take 8))) = some k → g = packetGrid c.tag k d → leNat ((d.drop 14).take 1) = k.blockX →
    leNat ((d.drop 15).take 1) = k.blockY → g.gx * g.gy * g.gz ≠ 0 → g.gx * g.gy * g.gz < 2 ^ 32 → (∀ b, b ∈ d.drop 56 → b = 0) →
    g.signal = 0 → g.groupsPtr = 0 →
    exec .packetTake s = .next { w.addRunning c.tag k 1 with
      gridSeq := w.gridSeq + 1, grids := tset w.grids w.gridSeq g,
      tobind := w.tobind ++ (List.range (g.gx * g.gy * g.gz)).map fun b => ⟨w.gridSeq, b, false⟩ })
  ∧ (∀ (s u : State) (c : Cand) (d : List Byte), s.Takes u c d → leNat (d.take 8) % 256 ≠ 0 → leNat ((d.drop 32).take 8) = 0 →
    exec .packetTake s = .next (u.postEvent c.tag (launchEvent 2 c.qix (leNat (d.take 8)))))
  ∧ (∀ (s u w : State) (c : Cand) (d : List Byte) (sig : Nat) (x : UnitRes), s.Takes u c d → leNat (d.take 8) % 256 ≠ 0 →
    sig = leNat ((d.drop 32).take 8) → sig ≠ 0 → w = u.postEvent c.tag (launchEvent 2 c.qix (leNat (d.take 8))) → w.signalOk c.tag sig = true →
    x = w.unitPut fwCore c.tag sig (toLE 8 (2 ^ 64 - 1)) →
    (x = .park → exec .packetTake s = .next s) ∧ ∀ t l, x = .done t l → exec .packetTake s = .next t)
  ∧ (∀ (s : State), s.candidates = [] → exec .packetTake s = .next s)
  ∧ (∀ (s u : State) (x : ToBind) (rest : List ToBind) (w : Want) (g : Grid), s.fw.running = true → s.tobind = x :: rest →
    tget s.grids x.grid = some g → g.kern.coresident = false → x.saved = false → w = ⟨g, g.kern, none⟩ → s.placeFrom x w 512 0 = some u →
    ∃ t c slot r, exec .blockPlacement s = .next t ∧ t.tobind = rest ∧ c < 512 ∧ slot < 32 ∧ s.blk (32 * c + slot) = none
      ∧ tget (s.core c).recs slot = none ∧ tget (t.core c).recs slot = some r ∧ (cget 0 s.ready 0).getLsbD c = true
      ∧ (cget 0 s.fallow 0).getLsbD c = false ∧ c ∉ s.quits ∧ r.slowLen = g.kern.blockY * g.kern.regs ∧ r.shared = g.kern.shared
      ∧ r.valid = true ∧ r.restore = false ∧ r.tag = g.tag ∧ r.grid = x.grid ∧ r.blockId = x.blockId ∧ r.posX = x.blockId % g.gx
      ∧ r.posY = x.blockId / g.gx % g.gy ∧ r.posZ = x.blockId / (g.gx * g.gy) ∧ r.nwaves = g.kern.blockY ∧ r.win = g.kern.regs / 8
      ∧ r.columnRight = g.kern.column ∧ r.matrix = g.kern.matrix ∧ 8 * r.slowBase + g.kern.blockY * g.kern.regs ≤ 8192
      ∧ (g.kern.column = true → s.columnHeld c = false) ∧ s.residents c + g.kern.blockY ≤ 64)
  ∧ (∀ (s : State) (x : ToBind) (rest : List ToBind), s.tobind = x :: rest → s.placeAll [x] = none →
    (∀ g, tget s.grids x.grid = some g → g.kern.coresident = false) → exec .blockPlacement s = .next s)
  ∧ (∀ (s : State) (c slot : Nat) (r : BindRec) (g : Grid), c < 512 → slot < 32 → tget (s.core c).recs slot = some r → r.valid = true →
    r.restore = false → c ∉ s.quits → s.bindWaits c slot r = false → tget s.grids r.grid = some g → 8 * r.win ≤ 128 → g.kern.blockX ≤ 32 →
    ∃ t b, exec (.bind c slot) s = .next t ∧ t.blk (32 * c + slot) = some b ∧ b.tag = r.tag ∧ b.grid = r.grid ∧ b.blockId = r.blockId
      ∧ b.posX = r.posX ∧ b.posY = r.posY ∧ b.posZ = r.posZ ∧ b.kern = g.kern ∧ b.nwaves = r.nwaves ∧ b.interval = 0 ∧ b.isOpen = false
      ∧ b.touched = [] ∧ b.snap ≠ none ∧ b.frozen = .no ∧ b.vers = [] ∧ b.streams = [] ∧ b.columnRight = r.columnRight
      ∧ b.priv = (s.ctx r.tag.slot).rcd.priv ∧ b.matCtx = (if r.matrix then some r.matCtx else none)
      ∧ (∀ w, w < r.nwaves → ∃ v, t.view (32 * c + slot) w 0 = some v ∧ v.w.live = true ∧ v.w.split = false ∧ v.w.win = 8 * r.win
        ∧ v.sl.status = .run ∧ v.sl.pc = BitVec.ofNat 57 (g.kern.text + g.kern.entry)
        ∧ v.sl.k0 = BitVec.ofNat 32 (2 ^ g.kern.blockX - 1) ∧ v.sl.emask = v.sl.k0
        ∧ (∀ n, t.sread (.slot (32 * c + slot) w 0) n = if n = 1 then BitVec.ofNat 64 g.args else if n = 2 then BitVec.ofNat 64 g.groupsPtr
          else if n = 3 then BitVec.ofNat 64 (g.gx + g.gy * 2 ^ 16 + g.gz * 2 ^ 32) else 0)
        ∧ ∀ n, n < 8 * r.win → t.vread (32 * c + slot) v.w n = 0)
      ∧ (∀ d, d ≠ 32 * c + slot → t.blk d = s.blk d) ∧ ∀ a, t.dramByte a = s.dramByte a)
  ∧ (∀ (s : State) (c slot : Nat) (r : BindRec) (g : Grid) (y : Saved), c < 512 → slot < 32 → tget (s.core c).recs slot = some r →
    r.valid = true → r.restore = true → c ∉ s.quits → s.bindWaits c slot r = false → tget s.grids r.grid = some g →
    (s.saves.find? fun z => decide (z.grid = r.grid) && decide (z.blockId = r.blockId)) = some y →
    ∃ t b, exec (.bind c slot) s = .next t ∧ t.blk (32 * c + slot) = some b ∧ b.tag = y.blk.tag ∧ b.blockId = y.blk.blockId
      ∧ b.kern = y.blk.kern ∧ b.isOpen = y.blk.isOpen ∧ b.preempt = none
      ∧ (∀ z, z ∈ t.saves → z.grid ≠ y.grid ∨ z.blockId ≠ y.blockId)
      ∧ (∀ n w l, y.blk.waves = [(n, w)] → y.vregs = [(n, l)] → ∀ i, i < l.length → (t.core c).reg (8 * r.slowBase + i) = l.getD i 0)
      ∧ (∀ n x d w k, n ∈ y.colls → tget s.colls n = some x → x.was = .slot d w k →
        tget t.colls n = some { x with who := .slot (32 * c + slot) w k })
      ∧ ∀ n w, tget y.blk.waves n = some w → ∃ u, tget b.waves n = some u ∧ u.s0 = w.s0 ∧ u.s1 = w.s1 ∧ u.sregs = w.sregs
        ∧ u.kregs = w.kregs ∧ u.runLen = w.runLen ∧ u.active = false)
  ∧ (∀ (s : State) (c slot : Nat) (r : BindRec), tget (s.core c).recs slot = some r → (s.bindWaits c slot r = true ∨ c ∈ s.quits) →
    exec (.bind c slot) s = .next s)

/-- R29, R37, R46, R47, R282, R286, R348: COMPACTION moves a run down, with what it holds, for a block that asks for it; ACTIVE_SET_ENTRY lets
the first wave of a full list enter a free slot; BLOCK_EXIT commits a block that has ended, with its collectives, and releases it;
GRID_COMPLETE ends a grid whose blocks have all exited; PREEMPT_REQUEST gives a block the first treatment of R46 that matches, and a
collective goes on through a save; WATCHDOG freezes a block that is over its time, and BLOCK_RELEASE sets a frozen one going. -/
def Obligations.Residency : Prop :=
  (∀ (s : State) (c b w base len : Nat) (y : View) (q : Want), s.runs c = [⟨b, w, base, len, false⟩] → s.view b w 0 = some y → coreOf b = c →
    base ≠ 0 → s.tobind.head?.bind s.wantOf = some q → s.asksCompact c q = true → ∃ t u, exec (.compaction c) s = .next t ∧ t.view b w 0 = some u ∧ u.w = { y.w with runBase := 0 }
      ∧ (∀ i, i < len → (t.core c).reg i = (s.core c).reg (base + i)) ∧ (∀ who n, t.sread who n = s.sread who n)
      ∧ ∀ a, t.dramByte a = s.dramByte a)
  ∧ (∀ (s : State) (c : Nat), ((∀ r, r ∈ s.runs c → r.active = true) ∨ s.tobind = [] ∨
    ∃ q, s.tobind.head?.bind s.wantOf = some q ∧ s.asksCompact c q = false) → exec (.compaction c) s = .next s)
  ∧ (∀ (s : State) (c p key : Nat) (rest : List Nat) (y : Block) (w : Wave), p < 4 → (s.core c).pend p = key :: rest →
    s.blk (32 * c + key / 32) = some y → tget y.waves (key % 32) = some w → w.live = true → w.halted = false →
    (w.s0.status = .run ∨ w.s1.status = .run) →
    (s.activeIn c p < 4 → ∃ t z, exec (.activeSetEntry c p) s = .next t ∧ t.blk (32 * c + key / 32) = some z
      ∧ tget z.waves (key % 32) = some { w with active := true } ∧ key ∉ (t.core c).pend p
      ∧ (∀ k, k ≠ key → (k ∈ (t.core c).pend p ↔ k ∈ rest)) ∧ (∀ q, q < 4 → q ≠ p → (t.core c).pend q = (s.core c).pend q) ∧ s.Still t)
    ∧ (4 ≤ s.activeIn c p → exec (.activeSetEntry c p) s = .next s))
  ∧ (∀ (s : State) (b : Nat) (y : Block), s.blk b = some y → y.frozen = .no →
    (∀ e, e ∈ s.links → e.2.who.block ≠ b) → s.Bare (coreOf b) → twf y.vers = true → twf s.blocks = true →
    if (∀ e, e ∈ y.waves → e.2.live = false) ∧ y.streams = [] ∧ (∀ e, e ∈ s.cmds → e.2.block ≠ b)
      ∧ (∀ e, e ∈ s.colls → e.2.who.block ≠ b) ∧ ∀ e, e ∈ s.sends → e.2.who.block ≠ b
    then ∃ t, exec (.blockExit b) s = .next t ∧ t.blk b = none ∧ (∀ d, d ≠ b → t.blk d = s.blk d)
      ∧ (∀ c, t.dramByte c = if s.onAppend c = true then 0 else (tget y.vers c).getD (s.dramByte c))
      ∧ (∀ g, tget s.grids y.grid = some g → tget t.grids y.grid = some { g with exited := g.exited + 1 })
      ∧ ∀ n, n ≠ y.grid → tget t.grids n = tget s.grids n
    else exec (.blockExit b) s = .next s)
  ∧ (∀ (s : State) (n : Nat) (g : Grid), tget s.grids n = some g → s.fw.running = true →
    (g.exited = g.gx * g.gy * g.gz → g.signal = 0 →
      exec (.gridComplete n) s = .next (({ s with grids := tdel s.grids n }).addRunning g.tag g.kern (2 ^ 64 - 1)))
    ∧ (∀ x : UnitRes, g.exited = g.gx * g.gy * g.gz → g.signal ≠ 0 →
      x = (({ s with grids := tdel s.grids n }).addRunning g.tag g.kern (2 ^ 64 - 1)).unitPut fwCore g.tag g.signal (toLE 8 g.sigValue) →
      (∀ u l, x = .done u l → exec (.gridComplete n) s = .next u) ∧ (x = .park → exec (.gridComplete n) s = .next s)
      ∧ ∀ u k va, x = .fail u k va → exec (.gridComplete n) s = .next (u.postEvent g.tag (launchEvent 8 0 g.kern.addr)))
    ∧ (g.exited ≠ g.gx * g.gy * g.gz → exec (.gridComplete n) s = .next s))
  ∧ (∀ (s : State) (b d n : Nat) (y : Block), s.fw.running = true → s.blocks = [(b, y)] → y.preempt = none → d = y.kern.intervals →
    n = y.interval →
    (0 < d → d ≤ n + 1 → exec (.preemptRequest (coreOf b)) s = .next (s.setBlk b { y with preempt := some .drain }))
    ∧ ((d = 0 ∨ n + 1 < d) → (∃ e, e ∈ s.cmds ∧ e.2.block = b ∧ e.2.op ≠ .coll) → (∀ g, tget s.grids y.grid = some g → g.groups = []) →
      exec (.preemptRequest (coreOf b)) s = .next (s.setBlk b { y with
        preempt := some (if y.kern.idempotent = true ∧ (4 * n < d ∨ (d = 0 ∧ n = 0)) then .flush else .save) }))
    ∧ (y.kern.idempotent = true → 4 * n < d → n + 1 < d → s.Settled b y → (∀ e, e ∈ s.colls → e.2.who.block ≠ b) → (∀ g, tget s.grids y.grid = some g → g.groups = []) →
      ∃ t, exec (.preemptRequest (coreOf b)) s = .next t ∧ t.blk b = none ∧ t.tobind = s.tobind ++ [⟨y.grid, y.blockId, false⟩]
        ∧ t.saves = s.saves ∧ ∀ c, t.dramByte c = s.dramByte c)
    ∧ (y.kern.idempotent = false → n + 1 < d → s.Settled b y →
      ∃ t z, exec (.preemptRequest (coreOf b)) s = .next t ∧ t.blk b = none ∧ t.tobind = s.tobind ++ [⟨y.grid, y.blockId, true⟩]
        ∧ t.saves = s.saves ++ [z] ∧ z.grid = y.grid ∧ z.blockId = y.blockId ∧ z.blk.interval = y.interval ∧ z.blk.vers = []
        ∧ (∀ k x, tget s.colls k = some x → x.who.block = b → k ∈ z.colls
          ∧ tget t.colls k = some { x with block := if x.block = b then detached b k else x.block, was := x.who, who := nobody })
        ∧ z.vregs = (y.waves.map fun e => (e.1, s.runRegs b e.2))
        ∧ ∀ k w, tget y.waves k = some w → w.s0.status = .run → ∃ u, tget z.blk.waves k = some u ∧ u.s0 = w.s0 ∧ u.sregs = w.sregs))
  ∧ (∀ (s : State) (c : Nat), s.fw.running = false → exec (.preemptRequest c) s = .next s)
  ∧ (∀ (s : State) (b : Nat) (y : Block), s.blk b = some y → (s.ctx y.tag.slot).rcd.policy = 0 → (s.ctx y.tag.slot).rcd.eventq = 0 →
    exec (.watchdog b) s = .next (if y.frozen = .no ∧ y.closing = false ∧ (∃ e, e ∈ y.waves ∧ e.2.live = true)
      ∧ y.wdStart + y.wdMs * 2500000 ≤ s.clock then s.modBlk b fun q => { q with frozen := .watchdog } else s))
  ∧ (∀ (s : State) (b : Nat) (y : Block), s.blk b = some y →
    (y.frozen = .no → exec (.blockRelease b) s = .next s)
    ∧ (y.frozen ≠ .no → ∃ t z, exec (.blockRelease b) s = .next t ∧ t.blk b = some z ∧ z.frozen = .no ∧ z.wdStart = s.clock
      ∧ z.wdMs = (s.ctx y.tag.slot).watchdogMs
      ∧ (∀ n w, tget y.waves n = some w → ∃ u, tget z.waves n = some u
        ∧ u.s0 = (if w.s0.status = .stopped then { w.s0 with status := .run, pc := w.s0.resume } else w.s0))
      ∧ (∀ e, e ∈ t.cmds → e.2.block = b → e.2.stopped = false) ∧ (∀ d, d ≠ b → t.blk d = s.blk d) ∧ s.Still t))

/-- R49, R158, R318 to R324, R355: PAGE_WALK reads down to a leaf of level 2, 1 or 0, and caches its granule and the entries above it in the
core, and every entry at its slice, or finds no page; what is cached is not read again; a fault joins the open entry of its tag and
granule; FAULT_RESULT frees an entry, and what is parked on it goes on or takes its fault; FAULT_FORWARD puts an entry of the firmware on
the host's queue, and tries again after 100 µs where it cannot; FAULTQ's reserved bits read zero. A walk of its own records no fault (log
29); where the entries lie is log 7's. -/
def Obligations.Paging : Prop :=
  (∀ (s : State) (ctx va l pa : Nat) (w a f : Bool) (p cell : Nat → Nat) (e : Nat → Word64) (g : XEnt), va < 2 ^ 57 → ctx ≠ 0 →
    s.Uncached ⟨ctx, (s.ctx ctx).inc⟩ → s.WalksTo va (s.ctx ctx).rcd.ptroot l p cell e →
    pa = ((e l).extractLsb' 12 32).toNat * 65536 → g.tag = ⟨ctx, (s.ctx ctx).inc⟩ → g.lvl = none → g.pre = va / 65536 →
    (∀ i, i < 12 → g.e.getLsbD i = (e l).getLsbD i) → g.e.extractLsb' 44 20 = (e l).extractLsb' 44 20 →
    (g.e.extractLsb' 12 32).toNat * 65536 = pa + va % 2 ^ levelBits l / 65536 * 65536 →
    (g.whole = true ↔ if (e l).getLsbD 9 = true then 2 ^ 44 ≤ pa ∧ (pa - 2 ^ 44) / 2 ^ 32 < 512
      ∧ (pa - 2 ^ 44) % 2 ^ 32 + 2 ^ levelBits l ≤ 0x90000000 else pa + 2 ^ levelBits l ≤ 0x12000000000) →
    ∃ t, exec (.pageWalk ctx va w a f) s = .next t ∧ t = { s with cores := t.cores, xlat := t.xlat }
      ∧ (∀ c, c ≠ 512 → t.core c = s.core c) ∧ t.core 512 = { s.core 512 with tlb := (t.core 512).tlb }
      ∧ (∀ x, x ∈ (t.core 512).tlb ↔ x ∈ (s.core 512).tlb ∨ x = g ∨ ∃ k, l < k ∧ k ≤ 4 ∧ x = walkEnt g.tag va k (e k))
      ∧ ∀ n x, x ∈ t.slCache n ↔ x ∈ s.slCache n
        ∨ ∃ k, l ≤ k ∧ k ≤ 4 ∧ n = homeSlice (p k + 8 * tableIndex va k) ∧ x = walkEnt g.tag va k (e k))
  ∧ (∀ (s : State) (ctx va c : Nat) (w a f : Bool), s.Uncached ⟨ctx, (s.ctx ctx).inc⟩ →
    cellOf ((s.ctx ctx).rcd.ptroot + 8 * tableIndex va 4) = some c → (s.dramByte c).getLsbD 0 = false →
    exec (.pageWalk ctx va w a f) s = .next s)
  ∧ (∀ (s : State) (ctx va : Nat) (w a f : Bool) (x : XEnt), x ∈ (s.core 512).tlb → x.tag = ⟨ctx, (s.ctx ctx).inc⟩ → x.lvl = none →
    x.pre = va / 65536 → exec (.pageWalk ctx va w a f) s = .next s)
  ∧ (∀ (s : State) (stook k va cause kinds : Nat) (t : Tag) (who : Issuer) (e : FaultEntry), s.faults = [(k, e)] →
    e.granule = va / 65536 * 65536 → e.tag = t → ∃ u, s.faultJoin stook t va cause kinds (some who) none = some (u, k / 256, k % 256)
      ∧ u.faults = [(k, { e with kinds := e.kinds ||| kinds, waiters := e.waiters + 1, slots := e.slots ++ [who] })])
  ∧ (∀ (s : State) (stook va cause kinds : Nat) (t : Tag) (who : Issuer), (∀ i, i < 256 → ∃ e, tget s.faults (256 * stook + i) = some e) →
    (∀ e, e ∈ s.faults → e.2.granule ≠ va / 65536 * 65536 ∨ e.2.tag ≠ t) → s.faultJoin stook t va cause kinds (some who) none = none)
  ∧ (∀ (s : State) (stook ix cell : Nat) (e : FaultEntry) (v : View), ix < 256 → tget s.faults (256 * stook + ix) = some e →
    e.slots = [.slot v.bid v.wid v.k] → e.cmds = [] → s.Parked v stook ix → cellOf (Config.faultBase stook + 32 * ix) = some cell →
    (∀ i, i < 32 → s.onAppend (cell + i) = false) →
    (∃ t u, exec (.faultResult stook ix true) s = .next t ∧ tget t.faults (256 * stook + ix) = none ∧ t.view v.bid v.wid v.k = some u
      ∧ u.sl = { v.sl with status := .run } ∧ numberAt t.dramByte (cell + 24) 4 = 1
      ∧ s.Steady t (fun c => cell ≤ c ∧ c < cell + 32) (fun _ _ => False) fun _ => False)
    ∧ (v.Handles → ∃ t u, exec (.faultResult stook ix false) s = .next t ∧ tget t.faults (256 * stook + ix) = none
      ∧ t.view v.bid v.wid v.k = some u ∧ u.sl = { v.sl with
          frame := ⟨v.sl.resume, v.sl.k0, v.sl.sig, v.sl.emask, v.sl.replay, v.sl.skid⟩
          inHandler := true
          pc := BitVec.ofNat 57 v.b.kern.handler
          sig := 0
          emask := v.sl.k0
          status := .run
          replay := .none
          expand := none
          noFold := false }
      ∧ numberAt t.dramByte (cell + 24) 4 = 2))
  ∧ (∀ (s : State) (stook ix : Nat) (r : Bool), tget s.faults (256 * stook + ix) = none → exec (.faultResult stook ix r) s = .next s)
  ∧ (∀ (s : State) (stook ix q h lg ring tail head slot : Nat) (e : FaultEntry), tget s.faults (256 * stook + ix) = some e → ix < 256 →
    e.forwarded = false → (∀ x, e.tried = some x → x + 250000 ≤ s.clock) → s.fw.running = true → s.faultq.getLsbD 0 = true → q = s.faultq.toNat / 256 * 256 → q ≠ 0 → cellOf q = some h →
    s.parks q h = false → s.parks (ring + tail % 2 ^ lg * 128) slot = false → (∀ i, i < 256 → (i < 48 ∨ 56 ≤ i) → s.onAppend (h + i) = false) →
    (∀ i, i < 128 → s.onAppend (slot + i) = false) → s.Empty 512 → numberAt s.dramByte h 1 = 2 → numberAt s.dramByte (h + 2) 1 = lg → 1 ≤ lg → lg ≤ 20 →
    numberAt s.dramByte (h + 8) 8 = ring → ring % 128 = 0 → numberAt s.dramByte (h + 16) 8 = tail → numberAt s.dramByte (h + 24) 8 = head →
    (∀ i, (3 ≤ i ∧ i < 8) ∨ (64 ≤ i ∧ i < 256) → s.dramByte (h + i) = 0) → cellOf (ring + tail % 2 ^ lg * 128) = some slot →
    (slot + 128 ≤ h ∨ h + 256 ≤ slot) → e.granule < 2 ^ 64 → e.faddr < 2 ^ 64 →
    if (tail + 2 ^ 64 - head) % 2 ^ 64 = 2 ^ lg then exec (.faultForward stook ix) s
      = .next { s with faults := tset s.faults (256 * stook + ix) { e with tried := some s.clock } }
    else ∃ t, exec (.faultForward stook ix) s = .next t ∧ t.faults = tset s.faults (256 * stook + ix) { e with forwarded := true }
      ∧ numberAt t.dramByte (h + 16) 8 = (tail + 1) % 2 ^ 64 ∧ numberAt t.dramByte slot 8 = e.granule
      ∧ numberAt t.dramByte (slot + 8) 8 = e.faddr
      ∧ s.Steady t (fun c => (slot ≤ c ∧ c < slot + 128) ∨ (h + 16 ≤ c ∧ c < h + 24)) (fun _ _ => False) fun _ => False)
  ∧ (∀ (s : State) (stook ix : Nat) (e : FaultEntry), tget s.faults (256 * stook + ix) = some e →
    (e.forwarded = true ∨ s.fw.running = false ∨ ∃ x, e.tried = some x ∧ s.clock < x + 250000) → exec (.faultForward stook ix) s = .next s)
  ∧ (∀ (s : State) (stook ix : Nat) (e : FaultEntry), tget s.faults (256 * stook + ix) = some e → ix < 256 → s.fw.running = true →
    e.forwarded = false → e.tried = none → s.faultq.getLsbD 0 = false →
    exec (.faultForward stook ix) s = .next { s with faults := tset s.faults (256 * stook + ix) { e with tried := some s.clock } })
  ∧ ∀ (s : State) (v : BitVec 64), ∃ t, exec (.faultqWrite v) s = .next t ∧ t = { s with faultq := t.faultq }
    ∧ ∀ i, i < 64 → t.faultq.getLsbD i = (v.getLsbD i && (decide (i = 0) || (decide (8 ≤ i) && decide (i < 56))))

/-- R105, R205, R217, R248, R299 to R302: WRITE_BACK brings a core's stores to a line home, older ones first, and drops its copies of the
line, or writes a line of a slice back to its vault; VERTICAL_WRITE_LAND lands the oldest write of the upward bus, in the cache ways of
the column store or after every older store at its home; LAZY_TRANSLATE reads what a binding entry needs; TRANSLATION_COMPLETE binds the
entry to the translation in the spare region, or marks it failed, and wakes what waits for it. What a translation holds is log 6's. -/
def Obligations.Landing : Prop :=
  (∀ (s : State) (c line : Nat) (x y : VWrite), c < 512 → (s.core c).wq = [x, y] → x.block = none → y.block = none →
    y.addr < 256 * line + 256 → 256 * line < y.addr + y.data.length →
    ∃ t, exec (.writeBack c line) s = .next t ∧ (t.core c).wq = []
      ∧ (∀ a, t.dramByte a = if y.addr ≤ a ∧ a < y.addr + y.data.length then (if s.onAppend a then 0 else (y.data[a - y.addr]?).getD 0)
        else if x.addr ≤ a ∧ a < x.addr + x.data.length then (if s.onAppend a then 0 else (x.data[a - x.addr]?).getD 0) else s.dramByte a)
      ∧ (∀ e, e ∈ (t.core c).cache → e.1 / 4 ≠ line)
      ∧ s.Steady t (fun _ => True) (fun _ _ => False) fun _ => False)
  ∧ (∀ (s : State) (c line : Nat), c < 512 → (∀ e, e ∈ (s.core c).wq → 256 * line + 256 ≤ e.addr ∨ e.addr + e.data.length ≤ 256 * line) →
    ∃ t, exec (.writeBack c line) s = .next t ∧ (t.core c).wq = (s.core c).wq
      ∧ (∀ e, e ∈ (t.core c).cache ↔ e ∈ (s.core c).cache ∧ e.1 / 4 ≠ line) ∧ s.Still t)
  ∧ (∀ (s : State) (line : Nat) (x : SLine), tget s.lines line = some x →
    (∀ i, i < 256 → (x.mask.getLsbD (i / 8) && x.dirty.getLsbD (i / 64)) = true → (tget x.data i).isSome = true) →
    (∀ i v, i < 256 → tget x.data i = some v → (x.mask.getLsbD (i / 8) && x.dirty.getLsbD (i / 64)) = false → v = s.vaultByte (256 * line + i)) →
    ∃ t, exec (.writeBack 512 line) s = .next t ∧ tget t.lines line = none ∧ (∀ n, n ≠ line → tget t.lines n = tget s.lines n)
      ∧ (∀ i v, i < 256 → tget x.data i = some v → t.vaultByte (256 * line + i) = v) ∧ s.Still t)
  ∧ (∀ (s : State) (c : Nat) (w x : VWrite) (rest : List VWrite), (s.core c).wq = w :: x :: rest → anyMode (s.core c).colWays 0 16 = false →
    (w.bus = true → w.block = none → ∃ t, exec (.verticalWriteLand c) s = .next t ∧ (t.core c).wq = x :: rest
      ∧ (∀ i, i < w.data.length → t.dramByte (w.addr + i) = if s.onAppend (w.addr + i) then 0 else (w.data[i]?).getD 0)
      ∧ s.Steady t (fun a => w.addr ≤ a ∧ a < w.addr + w.data.length) (fun _ _ => False) fun _ => False)
    ∧ (w.bus = false → x.bus = true → ∃ t, exec (.verticalWriteLand c) s = .next t ∧ (t.core c).wq = rest))
  ∧ (∀ (s : State) (c : Nat) (w : VWrite) (rest : List VWrite), (s.core c).wq = w :: rest → w.bus = true →
    anyMode (s.core c).colWays 0 16 = true → ∃ t, exec (.verticalWriteLand c) s = .next t ∧ (t.core c).wq = { w with bus := false } :: rest
      ∧ s.Still t)
  ∧ (∀ (s : State) (c : Nat), (∀ e, e ∈ (s.core c).wq → e.bus = false) → exec (.verticalWriteLand c) s = .next s)
  ∧ (∀ (s : State) (n : Nat) (r : LazyReq), s.lazies = [r] → r.entry = n → r.started = false →
    exec (.lazyTranslate n) s = .next (if s.fw.running then { s with lazies := [{ r with input := s.lazyInput r, started := true }] } else s))
  ∧ (∀ (s : State) (n : Nat) (r : LazyReq) (v : View), s.lazies = [r] → r.entry = n → r.started = true → r.input = none →
    s.fw.running = true → s.view v.bid v.wid v.k = some v → v.k < 2 → v.sl.status = .binding n → s.onAppend n = false →
    ∃ t u, exec (.translationComplete n) s = .next t ∧ t.lazies = [] ∧ t.dramByte n = 3 ∧ t.view v.bid v.wid v.k = some u
      ∧ u.sl = { v.sl with status := .run } ∧ s.Steady t (fun a => a = n) (fun _ _ => False) fun _ => False)
  ∧ (∀ (s u w : State) (n used base : Nat) (r : LazyReq) (v : View) (o : Output) (x : List Byte), s.lazies = [r] → r.entry = n → r.started = true →
    s.fw.running = true → s.view v.bid v.wid v.k = some v → v.k < 2 → v.sl.status = .binding n → s.patches = [] → s.blk nobody.block = none →
    (∀ i, i < 16 → s.onAppend (n + i) = false) → used = (cget (0, 0) s.kcounts (kernKey r.tag r.kern.addr)).2 →
    base = r.kern.text + r.kern.spareOff + used → base < 2 ^ 64 → s.translation r base = some o →
    r.kern.spareOff + used + o.bytes.length ≤ r.kern.textLen → w = { s with patches := [outputRun r] } →
    (w.patchWaits ⟨nobody, r.tag, 0, base, o.bytes.length, n, none⟩ = true → exec (.translationComplete n) s = .next w)
    ∧ (w.patchWaits ⟨nobody, r.tag, 0, base, o.bytes.length, n, none⟩ = false → w.patchWrite fwCore r.tag base o.bytes = .ok u x →
      ∃ t z, exec (.translationComplete n) s = .next t ∧ t.lazies = [] ∧ t.patches = [] ∧ t.dramByte n = 2 ∧ numberAt t.dramByte (n + 8) 8 = base
        ∧ (cget (0, 0) t.kcounts (kernKey r.tag r.kern.addr)).2 = used + o.bytes.length
        ∧ t.view v.bid v.wid v.k = some z ∧ z.sl.status = .run ∧ z.sl.pc = v.sl.pc))
  ∧ (∀ (s : State) (n : Nat), s.lazies = [] → exec (.lazyTranslate n) s = .next s ∧ exec (.translationComplete n) s = .next s)

/-- R255, R279, R341, R352, R354 to R356, R359: a host access reads or writes committed bytes at their homes line by line, a poisoned line
with its mark; eight aligned bytes on APPEND are an append; nothing is written in a vault made fallow; an access with a home that is not
ready, or behind one that waits, is held and goes on when the vault is; outside package memory there is nothing. FAULTQ is read and
written over CXL.io; configuration gives Request Retry Status until the image is verified, and the DOE mailbox takes SPDM messages.
HOST_SNOOP takes a line of host memory out of every core. -/
def Obligations.HostAccesses : Prop :=
  (∀ (s : State) (pa n : Nat) (cell : Nat → Nat), s.HostOpen pa n cell →
    ∃ l : List (List Byte × Bool), exec (.hostMemAccess (.read pa n)) s = .next { s with hostReply := l.map fun e => .data e.1 e.2 }
      ∧ (l.map fun e => e.1).flatten = (List.range n).map fun i => s.dramByte (cell i))
  ∧ (∀ (s : State) (pa n : Nat) (cell : Nat → Nat), s.HostOpen pa n cell → pa % 64 + n ≤ 64 →
    ∃ p, exec (.hostMemAccess (.read pa n)) s = .next { s with hostReply := [.data ((List.range n).map fun i => s.dramByte (cell i)) p] }
      ∧ (p = true ↔ cell 0 / 64 ∈ s.poison ∨ s.unitFallow .vault (vaultOf (cell 0)) = true))
  ∧ (∀ (s : State) (pa : Nat) (d : List Byte) (cell : Nat → Nat), s.HostOpen pa d.length cell →
    (∀ i, i < d.length → s.onAppend (cell i) = false ∧ s.unitFallow .vault (vaultOf (cell i)) = false) → s.waiters = [] → s.faults = [] →
    ∃ t, exec (.hostMemAccess (.write pa d)) s = .next t ∧ t = { s with lines := t.lines, poison := t.poison, hostReply := [] }
      ∧ (∀ i, i < d.length → t.dramByte (cell i) = (d[i]?).getD 0)
      ∧ ∀ a, (∀ i, i < d.length → a ≠ cell i) → t.dramByte a = s.dramByte a)
  ∧ (∀ (s : State) (pa : Nat) (d : List Byte) (cell : Nat → Nat), s.HostOpen pa d.length cell →
    (∀ i, i < d.length → s.onAppend (cell i) = false ∧ s.unitFallow .vault (vaultOf (cell i)) = true) →
    exec (.hostMemAccess (.write pa d)) s = .next { s with hostReply := [] })
  ∧ (∀ (s t : State) (pa : Nat) (d : List Byte) (cell : Nat → Nat), d.length = 8 → pa % 8 = 0 → s.HostOpen pa 8 cell →
    s.onAppend (cell 0) = true → exec (.hostAppend (pa - 48) (leNat d)) { s with hostReply := [] } = .next t →
    exec (.hostMemAccess (.write pa d)) s = .next t)
  ∧ (∀ (s : State) (a : HostAccess) (pa n : Nat) (cell : Nat → Nat), s.fw.running = true → 0 < n →
    (a = .read pa n ∨ ∃ d, a = .write pa d ∧ d.length = n) → (∀ i, i < n → cellOf (pa + i) = some (cell i)) →
    (s.hostHeld ≠ [] ∨ ∃ i, i < n ∧ s.parks (pa + i) (cell i) = true) →
    exec (.hostMemAccess a) s = .next { s with hostHeld := s.hostHeld ++ [a] })
  ∧ (∀ (s : State) (a : HostAccess) (pa n : Nat), (a = .read pa n ∨ ∃ d, a = .write pa d ∧ d.length = n) →
    (s.fw.running = false ∨ ∃ i, i < n ∧ cellOf (pa + i) = none) → exec (.hostMemAccess a) s = .next s)
  ∧ (∀ (s : State) (off n : Nat), s.fw.running = true → off + n ≤ 8 → exec (.hostMemAccess (.barRead off n)) s
    = .next { s with hostReply := [.data ((List.range n).map fun i => byteOf s.faultq.toNat (off + i)) false] })
  ∧ (∀ (s : State) (d : List Byte), s.fw.running = true → d.length = 8 →
    ∃ t, exec (.hostMemAccess (.barWrite 0 d)) s = .next t ∧ exec (.faultqWrite (BitVec.ofNat 64 (leNat d))) s = .next t)
  ∧ (∀ (s : State) (reg : Nat) (v : BitVec 32) (a : HostAccess), (a = .configRead reg ∨ a = .configWrite reg v) → s.fw.running = false →
    s.fw.recovery = false → exec (.hostMemAccess a) s = .next { s with hostReply := [.retry] })
  ∧ (∀ (s : State) (msg : List Byte), (s.fw.running = true ∨ s.fw.recovery = true) → ∃ t x, exec (.spdm msg) s = .next t ∧ t.fw.reply = some x
    ∧ exec (.hostMemAccess (.doe msg)) s = .next { s with hostReply := [.data x false] })
  ∧ (∀ (s : State) (v : Nat), v < 512 → s.unitFallow .vault v = false → s.heldReqs = [] →
    (s.hostHeld = [] → ∃ t, exec (.vaultReady v) s = .next t ∧ t = { s with ready := t.ready } ∧ FlagSet s.ready t.ready .vault v true)
    ∧ ∀ a t, s.hostHeld = [a] → exec (.hostMemAccess a) { s.setReady .vault v true with hostHeld := [] } = .next t →
      exec (.vaultReady v) s = .next t)
  ∧ (∀ (s : State) (v : Nat), (512 ≤ v ∨ s.unitFallow .vault v = true) → exec (.vaultReady v) s = .next s)
  ∧ ∀ (s : State) (line key : Nat), key = hostKey (64 * line) →
    ∃ t, exec (.hostSnoop line) s = .next t ∧ (∀ c, tget (t.core c).cache key = none)
      ∧ (∀ c k, k ≠ key → tget (t.core c).cache k = tget (s.core c).cache k) ∧ (∀ c, (t.core c).store = (s.core c).store)
      ∧ t.dram = s.dram ∧ t.lines = s.lines ∧ t.hostMem = s.hostMem ∧ t.blocks = s.blocks

/-- R18, R263, R319, R332, R349 to R353, R356, R358, R360: a reset or PERST starts with nothing ready, no context, no block and an empty DRAM,
and runs the image, with the package's routes, only if it verifies and is not older than the fused minimum; a self-test that passes sets
READY. The firmware takes out of use a unit that has reached a threshold: it binds no more to a core and pre-empts its blocks, then a
spare of its stook takes the number; it empties a slice of its lines; it poisons the pages of a vault; it takes a lane from its port. A
number that no spare takes is FALLOW; REPLACE is set when none is left. What a reset keeps is log 30's, the spares' place log 32's, what a
spare core holds log 70's, which pages lie in a vault log 71's. -/
def Obligations.BringUp : Prop :=
  (∀ (s : State) (i : Instr), (i = .reset ∨ i = .perst) → ∃ t, exec i s = .next t
    ∧ (t.fw.running = true ↔ Config.imageAccepted s.fw.image = true ∧ s.fw.minVer ≤ Config.imageVersion s.fw.image)
    ∧ t.fw.recovery = !t.fw.running ∧ (∀ c n, t.unitReady c n = false) ∧ t.blocks = [] ∧ t.grids = [] ∧ t.cmds = [] ∧ t.msgs = []
    ∧ (∀ a, t.dramByte a = 0) ∧ (∀ n, t.ctx n = State.reset.ctx n) ∧ (∀ c, t.core c = Core.reset) ∧ t.stopped = false
    ∧ (t.fw.running = true → t.routes = routeTable s.nodeId) ∧ t.nodeId = s.nodeId ∧ t.errs = []
    ∧ t.thermtrip = s.thermtrip ∧ t.hostMem = s.hostMem ∧ t.fallow = s.fallow ∧ t.fw.minVer = s.fw.minVer)
  ∧ (∀ (s : State) (c : UnitClass) (n : Nat), s.Unit c n → c ≠ .port → s.heldReqs = [] → s.hostHeld = [] →
    ∃ t, exec (.selfTestPass c n) s = .next t ∧ t = { s with ready := t.ready } ∧ FlagSet s.ready t.ready c n true)
  ∧ (∀ (s : State) (c : UnitClass) (n : Nat) (i : Instr), ¬ s.Unit c n → (i = .selfTestPass c n ∨ i = .selfTestFail c n ∨ i = .unitFallow c n) →
    exec i s = .next s)
  ∧ (∀ (s : State) (n : Nat), exec (.selfTestPass .port n) s = .next s)
  ∧ (∀ (s : State) (c : UnitClass) (n : Nat) (k : ErrKind) (m h : Nat), errorLimit c k = some (m, h) →
    m ≤ (s.errs.filter fun e => decide (e.unit = c ∧ e.n = n ∧ e.kind = k ∧ s.clock < e.time + h * 9000000000000)).length →
    s.unitFallow c n = false → n ∉ s.quits → (c, n) ∈ s.fallowDue)
  ∧ (∀ (s : State) (c : UnitClass) (n : Nat) (i : Instr), s.Unit c n → s.blocks = [] → s.sparesFor c n = 0 →
    (i = .selfTestFail c n ∧ c = .core ∨ (c = .copyEngine ∨ c = .mgmt) ∧ (i = .selfTestFail c n ∨ i = .unitFallow c n)) →
    ∃ t, exec i s = .next t ∧ t = { s with ready := t.ready, fallow := t.fallow, replaceFlag := true }
      ∧ FlagSet s.ready t.ready c n false ∧ FlagSet s.fallow t.fallow c n true)
  ∧ (∀ (s : State) (n : Nat), s.Unit .core n → n ∉ s.quits → exec (.unitFallow .core n) s
    = exec (.preemptRequest n) { s with quits := n :: s.quits, replaceFlag := s.replaceFlag || decide (s.sparesFor .core n = 0) })
  ∧ (∀ (s : State) (n : Nat), s.Unit .core n → n ∈ s.quits →
    (∀ b y, s.blk b = some y → coreOf b = n → exec (.unitFallow .core n) s = .next s)
    ∧ (s.blocks = [] → s.sparesFor .core n = 0 →
      ∃ t, exec (.unitFallow .core n) s = .next t
        ∧ t = { s with quits := s.quits.filter fun i => decide (i ≠ n), ready := t.ready, fallow := t.fallow, replaceFlag := true }
        ∧ FlagSet s.ready t.ready .core n false ∧ FlagSet s.fallow t.fallow .core n true)
    ∧ (s.blocks = [] → 0 < s.sparesFor .core n → (s.core n).wq = [] →
      ∃ t, exec (.unitFallow .core n) s = .next t ∧ n ∉ t.quits ∧ t.sparesFor .core n + 1 = s.sparesFor .core n
        ∧ t.ready = s.ready ∧ t.fallow = s.fallow ∧ (s.sparesFor .core n = 1 → t.replaceFlag = true)
        ∧ (∀ e, e ∈ t.errs ↔ e ∈ s.errs ∧ ¬ (e.unit = .core ∧ e.n = n)) ∧ (∀ c, c ≠ n → t.core c = s.core c)
        ∧ (∀ p, (t.core n).reg p = 0) ∧ (t.core n).store = [] ∧ (t.core n).cache = [] ∧ (t.core n).bad = []
        ∧ (t.core n).bankMode = Core.reset.bankMode ∧ (t.core n).column = (s.core n).column ∧ (t.core n).colWays = (s.core n).colWays
        ∧ (t.core n).recs = (s.core n).recs ∧ ∀ a, t.dramByte a = s.dramByte a))
  ∧ (∀ (s : State) (n : Nat), s.Unit .core n → 0 < s.sparesFor .core n → (s.core n).wq = [] →
    ∃ t, exec (.selfTestFail .core n) s = .next t ∧ t.sparesFor .core n + 1 = s.sparesFor .core n ∧ FlagSet s.ready t.ready .core n false
      ∧ t.fallow = s.fallow)
  ∧ (∀ (s : State) (n : Nat), s.Unit .slice n → s.blocks = [] →
    ∃ t, exec (.unitFallow .slice n) s = .next t ∧ (∀ k x, tget t.lines k = some x → homedIn n (256 * k) = false)
      ∧ tget t.xlat n = none ∧ (s.lines = [] → ∀ a, t.dramByte a = s.dramByte a)
      ∧ (0 < s.sparesFor .slice n → t.sparesFor .slice n + 1 = s.sparesFor .slice n ∧ t.ready = s.ready ∧ t.fallow = s.fallow)
      ∧ (s.sparesFor .slice n = 0 → t.replaceFlag = true ∧ FlagSet s.ready t.ready .slice n false ∧ FlagSet s.fallow t.fallow .slice n true))
  ∧ (∀ (s : State) (n : Nat), s.Unit .vault n → (∀ e, e ∈ s.ctxs → e.1 = 0 ∨ e.2.state ≠ .live) →
    ∃ t, exec (.unitFallow .vault n) s = .next t
      ∧ t = { s with cores := t.cores, xlat := [], ready := t.ready, fallow := t.fallow, replaceFlag := true }
      ∧ (∀ c, t.core c = { s.core c with tlb := [] }) ∧ FlagSet s.ready t.ready .vault n false ∧ FlagSet s.fallow t.fallow .vault n true)
  ∧ (∀ (s : State) (v lvl pa cell c : Nat) (e : Word64), cellOf pa = some cell → pa % 8 = 0 → s.ptRead pa = .ok e → e.getLsbD 0 = true →
    e.getLsbD 1 = true → leafOk e lvl = true → e.extractLsb' 10 2 = 0 → 2 ^ 44 ≤ (e.extractLsb' 12 32).toNat * 65536 →
    cellOf ((e.extractLsb' 12 32).toNat * 65536) = some c → vaultOf c = v → (∀ i, i < 8 → s.onAppend (cell + i) = false) →
    numberAt (s.poisonLeaf v lvl pa).dramByte cell 8 = e.toNat % 2 ^ 63 + 2 ^ 63
      ∧ ∀ a, (a < cell ∨ cell + 8 ≤ a) → (s.poisonLeaf v lvl pa).dramByte a = s.dramByte a)
  ∧ (∀ (s : State) (n : Nat) (p : Port), s.Unit .lane n → p = s.port (n / 4) →
    ((∃ i, i < 4 ∧ i ≠ n % 4 ∧ i ∉ p.dead) → p.isUp = true → ∃ t, exec (.unitFallow .lane n) s = .next t
      ∧ t = { s with ready := t.ready, fallow := t.fallow, ports := t.ports, replaceFlag := true }
      ∧ t.port (n / 4) = { p with dead := n % 4 :: p.dead, state := .training, trainStart := s.clock }
      ∧ t.unitReady .port (n / 4) = false ∧ FlagSet s.fallow t.fallow .lane n true ∧ ∀ m, m ≠ n / 4 → t.port m = s.port m)
    ∧ ((∀ i, i < 4 → i ≠ n % 4 → i ∈ p.dead) → ∃ t, exec (.unitFallow .lane n) s = .next t
      ∧ t = { s with ready := t.ready, fallow := t.fallow, ports := t.ports, replaceFlag := true }
      ∧ (t.port (n / 4)).state = .fallow ∧ t.unitFallow .port (n / 4) = true ∧ t.unitFallow .lane n = true
      ∧ t.unitReady .port (n / 4) = false ∧ ∀ m, m ≠ n / 4 → t.port m = s.port m))
  ∧ ∀ (s : State) (n : Nat) (i : Instr), s.Unit .port n → (i = .selfTestFail .port n ∨ i = .unitFallow .port n) →
    ∃ t, exec i s = .next t ∧ t = { s with ready := t.ready, fallow := t.fallow, ports := t.ports, replaceFlag := true }
      ∧ FlagSet s.ready t.ready .port n false ∧ FlagSet s.fallow t.fallow .port n true ∧ (t.port n).state = .fallow
      ∧ (t.port n).txq = [] ∧ ∀ m, m ≠ n → t.port m = s.port m

/-- R165, R348, R356, R357, R360, R361: what the sideband's commands return and set, an argument out of range giving an error and changing
nothing; the thermal cap of a stook from the reports of its dies and the 10 ms timer; the stop at 115 degrees; microcode updates and the
fused minimum, on signed commands only. A die that has not reported gives no temperature (log 31). -/
def Obligations.Sideband : Prop :=
  (∀ (s : State) (cls word : Nat), cls ≤ 5 → word < 64 → ∃ t r, exec (.readReady cls word) s = .next t ∧ s.Replies t (some r) id
    ∧ r.length = 4 ∧ leNat r = flags16 (cget 0 s.ready cls) word + 2 ^ 16 * flags16 (cget 0 s.fallow cls) word)
  ∧ (∀ (s : State), ∃ t r, exec .readHealth s = .next t ∧ s.Replies t (some r) id ∧ r.length = 8
    ∧ leNat r = (ofFields [(24, 8, s.spareCores.sum), (16, 8, s.spareSlices.sum), (1, 1, if s.thermtrip then 1 else 0),
      (0, 1, if s.replaceFlag then 1 else 0)]).toNat)
  ∧ (∀ (s : State) (die : Nat) (x : Int), die < 64 → tget s.fw.temps die = some x →
    ∃ t r, exec (.readTemp die) s = .next t ∧ s.Replies t (some r) id ∧ r.length = 2 ∧ leNat r = (x % 2 ^ 16).toNat)
  ∧ (∀ (s : State) (watts : Nat), 500 ≤ watts → watts ≤ 2800 → ∃ t, exec (.powerCap watts) s = .next t ∧ s.Replies t (some []) fun w =>
    { w with powerCap := if watts = 2800 then none else some (max 8 (512 * watts / 2800)) })
  ∧ (∀ (s : State) (slot ms : Nat), slot < 1024 → 1 ≤ ms → ms ≤ 60000 → ∃ t, exec (.watchdogSet slot ms) s = .next t
    ∧ ({ s with ctxs := t.ctxs }).Replies t (some []) id ∧ t.ctx slot = { s.ctx slot with watchdogMs := ms }
    ∧ ∀ n, n ≠ slot → t.ctx n = s.ctx n)
  ∧ (∀ (s : State) (i : Instr), ((∃ cls word, (5 < cls ∨ 64 ≤ word) ∧ i = .readReady cls word) ∨ (∃ die, 64 ≤ die ∧ i = .readTemp die)
      ∨ (∃ watts, (watts < 500 ∨ 2800 < watts) ∧ i = .powerCap watts)
      ∨ ∃ slot ms, (1024 ≤ slot ∨ ms = 0 ∨ 60000 < ms) ∧ i = .watchdogSet slot ms) →
    ∃ t, exec i s = .next t ∧ s.Replies t none id)
  ∧ (∀ (s : State) (msg : List Byte), ∃ t m, exec (.spdm msg) s = .next t ∧ s.Replies t (some (Config.spdmReply msg m)) id
    ∧ m.length = 5 ∧ m[2]? = some s.fw.microcode.flatten ∧ ∃ r, m[3]? = some r ∧ leNat r = 3 * 2 ^ 16 + s.fw.minor % 256 * 2 ^ 8)
  ∧ (∀ (s : State), ∃ t, exec .clearTrip s = .next t ∧ ({ s with thermtrip := false }).Replies t (some []) id)
  ∧ (∀ (s : State) (x : List Byte), exec (.microcodeUpdate x) s
    = .next (if s.fw.running = true ∧ Config.imageAccepted x = true ∧ (Config.imageMinor x ≤ s.fw.minor ∨ (s.grids = [] ∧ ∀ e, e ∈ s.kcounts → e.2.1 = 0))
      then { s with fw := { s.fw with microcode := s.fw.microcode ++ [Config.sha512 x], minor := max s.fw.minor (Config.imageMinor x) } }
      else s))
  ∧ (∀ (s : State) (n : Nat) (x : List Byte), exec (.securityVersionRaise n x) s
    = .next (if s.fw.running = true ∧ Config.commandSigned (toLE 4 n ++ x) = true ∧ s.fw.minVer ≤ n
      then { s with fw := { s.fw with minVer := n } } else s))
  ∧ (∀ (s : State), exec .thermtrip s = .next { s with stopped := true, thermtrip := true, replaceFlag := true })
  ∧ (∀ (s : State) (die : Nat) (x : Int), s.fw.running = true → die < 64 →
    ∃ t, exec (.tempReport die x) s = .next t ∧ tget t.fw.temps die = some x ∧ (∀ n, n ≠ die → tget t.fw.temps n = tget s.fw.temps n)
      ∧ (t.stopped = true ↔ s.stopped = true ∨ 1840 ≤ x) ∧ (∀ k, k ≠ die / 16 → t.thermalOf k = s.thermalOf k)
      ∧ ((x ≤ 1680 ∨ 1840 ≤ x) → t.thermalOf (die / 16) = s.thermalOf (die / 16))
      ∧ (1680 < x → x < 1840 → t.thermalOf (die / 16) = some (match s.thermalOf (die / 16) with
        | none => ⟨die / 16, 256, false, s.clock⟩
        | some e => if e.doubling = true then ⟨die / 16, max 8 (e.cap / 2), false, s.clock⟩ else e)))
  ∧ (∀ (s : State) (die : Nat) (x : Int), (s.fw.running = false ∨ 64 ≤ die) → exec (.tempReport die x) s = .next s)
  ∧ (∀ (s : State) (k : Nat) (e : Thermal), s.thermalOf k = some e →
    (s.clock < e.since + 25000000 → exec (.thermalCapTimer k) s = .next s)
    ∧ (e.since + 25000000 ≤ s.clock → ∃ t, exec (.thermalCapTimer k) s = .next t ∧ (∀ n, n ≠ k → t.thermalOf n = s.thermalOf n)
      ∧ ((∃ d y, (d, y) ∈ s.fw.temps ∧ d / 16 = k ∧ 1600 ≤ y) → t.thermalOf k = some ⟨k, max 8 (e.cap / 2), false, s.clock⟩)
      ∧ ((∀ d y, (d, y) ∈ s.fw.temps → d / 16 = k → y < 1600) →
        t.thermalOf k = if 512 < 2 * e.cap then none else some ⟨k, 2 * e.cap, true, s.clock⟩)))
  ∧ ∀ (s : State) (k : Nat), s.thermalOf k = none → exec (.thermalCapTimer k) s = .next s

/-- R72 to R74, R133, R196, R297: a step of a wave at the code of a tile operation reads its descriptors through the argument block and begins
its command; until that has completed the wave waits, then goes on behind the code, where a run begins. Each element of a block product, a
counted product, a scaling and a reduction is what the instructions of R65 to R67, R72 to R74 and R196 give; a map's elements come into
the lanes of v0 and go out from those of v2. That the operations are commands of the wave, where their code lies, and which index is
innermost, are log 6's. -/
def Obligations.TileOperations : Prop :=
  (∀ (s : State) (id : Nat) (c : Cmd) (y : Block) (j : TileJob) (e : Tensor) (n i va pa cell x : Nat) (a b : Nat → Nat), s.TileGoes id c y j →
    j.kind = .product → j.b = some e → j.d.rank = 2 → n = c.pos % j.d.ext 0 → i = c.pos / j.d.ext 0 → 0 < j.d.ext 0 → i < j.d.ext 1 →
    (∀ k, k < j.a.ext 0 → s.ElemIs c.block j.a [k, i] (a k) ∧ s.ElemIs c.block e [n, k] (b k)) → s.ElemIs c.block j.d [n, i] x →
    s.ElemAt c.block j.d [n, i] va pa cell → ∃ t, exec (.copyChunkPerformed id) s = .next t
      ∧ s.ElemDone t id c y j.d cell (productRule j.ty x ((List.range (j.a.ext 0)).map fun k => elemVal j.ty (a k))
        ((List.range (j.a.ext 0)).map fun k => elemVal j.ty (b k))))
  ∧ (∀ (s : State) (id : Nat) (c : Cmd) (y : Block) (j : TileJob) (e : Tensor) (n i va pa cell x : Nat) (a b : Nat → Nat), s.TileGoes id c y j →
    j.kind = .counted → j.b = some e → j.d.rank = 2 → n = c.pos % j.d.ext 0 → i = c.pos / j.d.ext 0 → 0 < j.d.ext 0 → i < j.d.ext 1 →
    (∀ k, k < j.a.ext 0 → s.ElemIs c.block j.a [k, i] (a k) ∧ s.ElemIs c.block e [n, k] (b k)) → s.ElemIs c.block j.d [n, i] x →
    s.ElemAt c.block j.d [n, i] va pa cell → ∃ t, exec (.copyChunkPerformed id) s = .next t
      ∧ s.ElemDone t id c y j.d cell (rounded .f32 .rn (((fmtOf .f32).read x).add .rn (countedRule j.set (j.a.ext 0) a b))).1)
  ∧ (∀ (s : State) (id : Nat) (c : Cmd) (y : Block) (j : TileJob) (e f : Tensor) (n i va pa cell x a b z : Nat), s.TileGoes id c y j →
    j.kind = .scale → j.b = some e → j.c = some f → j.d.rank = 2 → n = c.pos % j.d.ext 0 → i = c.pos / j.d.ext 0 → 0 < j.d.ext 0 →
    i < j.d.ext 1 → s.ElemIs c.block j.a [n, i] a → s.ElemIs c.block e [i] b → s.ElemIs c.block f [n] z → s.ElemIs c.block j.d [n, i] x →
    s.ElemAt c.block j.d [n, i] va pa cell →
    ∃ t, exec (.copyChunkPerformed id) s = .next t ∧ s.ElemDone t id c y j.d cell (scaleRule j.ty x a b z))
  ∧ (∀ (s : State) (id : Nat) (c : Cmd) (y : Block) (j : TileJob) (op : RedOp) (m va pa cell : Nat) (ix : List Nat) (a : Nat → Nat),
    s.TileGoes id c y j → j.kind = .reduce op → ix = j.d.ixOf c.pos → m = j.a.ext j.axis →
    (∀ k, k < m → s.ElemIs c.block j.a (ix.set j.axis k) (a k)) → s.ElemAt c.block j.d ix va pa cell →
    ∃ t, exec (.copyChunkPerformed id) s = .next t ∧ s.ElemDone t id c y j.d cell (tree (planeOp op j.ty) a (m + 1) 0 m))
  ∧ (∀ (s : State) (id k x : Nat) (c : Cmd) (y : Block) (j : TileJob) (v : View), s.TileGoes id c y j → j.kind = .elemIn →
    c.who = .slot v.bid v.wid k → s.view v.bid v.wid 0 = some v → v.bid = c.block → c.pos % 2 = 0 → c.pos / 2 < 32 → 2 ≤ v.w.win →
    s.ElemIs c.block j.a (j.a.ixOf (j.e0 + c.pos / 2)) x → j.ty.isInt = true → j.ty.bits ≤ 32 →
    ∃ t, exec (.copyChunkPerformed id) s = .next t ∧ s.CmdAt t id c y (c.pos + 1)
      ∧ lane (t.vread v.bid v.w 0) (c.pos / 2) = BitVec.ofInt 32 (fieldNum j.ty.isSigned x j.ty.bits)
      ∧ (∀ l, l < 32 → l ≠ c.pos / 2 → lane (t.vread v.bid v.w 0) l = lane (s.vread v.bid v.w 0) l)
      ∧ ∀ q, t.dramByte q = s.dramByte q)
  ∧ (∀ (s : State) (id k va pa cell : Nat) (c : Cmd) (y : Block) (j : TileJob) (v : View), s.TileGoes id c y j → j.kind = .elemOut →
    c.who = .slot v.bid v.wid k → s.view v.bid v.wid k = some v → s.ElemAt c.block j.d (j.d.ixOf (j.e0 + c.pos)) va pa cell →
    ∃ t, exec (.copyChunkPerformed id) s = .next t ∧ s.ElemDone t id c y j.d cell (lane (s.vread v.bid v.w 2) c.pos).toNat)
  ∧ (∀ (s u : State) (v : View) (rest : List AgendaItem) (x : TileCode), s.tick.agenda = .issue (.slot v.bid v.wid v.k) :: rest →
    u = { s.tick with agenda := rest, cur := .slot v.bid v.wid v.k, ir := ⟨0, 8, v.sl.pc, none⟩ } → u.Serves v → v.sl.expand = none →
    u.tiles = [x] → x.tag = v.b.tag → 16 ≤ x.len → x.lo % 32 = 0 →
    (∀ (r : TileRec) (at_ : Nat) (pd pa pb dd da db : List Byte) (j : TileJob), v.sl.pc.toNat = x.lo → x.work = .op r → r.op = 2 → u.Direct v →
      at_ = (u.sread u.cur 1).toNat → u.ReadsAs v.bid (at_ + r.d) 8 pd → u.ReadsAs v.bid (at_ + r.a) 8 pa → u.ReadsAs v.bid (at_ + r.b) 8 pb →
      u.ReadsAs v.bid (leNat pd) 128 dd → u.ReadsAs v.bid (leNat pa) 128 da → u.ReadsAs v.bid (leNat pb) 128 db →
      tensorOk dd = true → tensorOk da = true → tensorOk db = true →
      j = ⟨.product, r.ty, r.axis, Tensor.parse dd, Tensor.parse da, some (Tensor.parse db), none, tget v.b.mat.sets r.mode, 0⟩ → j.fits = true →
      (u.cmds.filter fun e => decide (e.2.core = coreOf v.bid) && decide (e.2.op ≠ .coll)).length < 48 →
      ∃ t c w, step s = .next t ∧ t.cmds = tset u.cmds u.nextId c ∧ c.op = .tile j ∧ c.total = (Tensor.parse dd).count ∧ c.pos = 0
        ∧ c.who = .slot v.bid v.wid v.k ∧ c.pc.toNat = x.lo ∧ t.view v.bid v.wid v.k = some w ∧ w.sl.pc.toNat = (x.lo + 8) % 2 ^ 57)
    ∧ (∀ id c, v.sl.pc.toNat = x.lo + 8 → tget u.cmds id = some c → c.who = .slot v.bid v.wid v.k → c.pc.toNat = x.lo → step s = .next u)
    ∧ (v.sl.pc.toNat = x.lo + 8 → (∀ e, e ∈ u.cmds → e.2.who ≠ .slot v.bid v.wid v.k) → (∀ r n q, x.work ≠ .mapOut r n q) → x.lo + x.len < 2 ^ 57 →
      ∃ t w, step s = .next t ∧ t.view v.bid v.wid v.k = some w ∧ w.sl.pc.toNat = x.lo + x.len ∧ w.sl.sig = 0 ∧ w.sl.emask = w.sl.k0
        ∧ w.sl.k0 = v.sl.k0 ∧ t.cmds = u.cmds ∧ u.Still t))

/-- R293 to R299: a record of a loop body is taken only where its instruction is allowed and its virtual registers are named as R296 says;
loops and ifs nest properly to a depth of 64; the translator's places lie in the window and no two that are live together share a
register, and an instruction keeps everything but the registers it names; a scalar body keeps its layout, and without relocations and SIG
every byte; levels are tried in the order tile, loop, scalar. Which place a register gets is log 6's. -/
def Obligations.Translations : Prop :=
  (∀ (nv ix : Nat) (r next : List Byte) (x : LRec) (i : Instr) (w : InstrWord) (hi : List Nat), parseRec nv ix r next = some x →
    x.it = .ins i w hi → x.ix = ix ∧ decode w = .ok i ∧ w.extractLsb' 48 4 = 0 ∧ w.extractLsb' 0 2 ≠ 3
      ∧ (((w.extractLsb' 2 6).toNat = 1 ∨ (w.extractLsb' 2 6).toNat = 2) → (∃ a b c d, i = .call a b c d) ∨ (∃ a b, i = .ret a b) ∨ ∃ a, i = .exit a)
      ∧ ∀ o, o ∈ vecOps i → o.virt hi < nv ∧ (o.span = .pair → o.virt hi % 2 = 0 ∧ o.virt hi + 1 < nv))
  ∧ (∀ l : List LRec, nestOk [] l = true ↔ Nested 64 l)
  ∧ (∀ (win : Nat) (busy : List (Nat × Nat × Nat)) (l : List LRec) (m : Tbl Nat), placesOf win busy l = some m →
    ∀ h, h ∈ hullsOf l → ∃ p, tget m h.v = some p ∧ p + h.width ≤ win
      ∧ (∀ x, x ∈ busy → x.2.1 ≤ h.hi → h.lo ≤ x.2.2 → x.1 < p ∨ p + h.width ≤ x.1)
      ∧ ∀ g q, g ∈ hullsOf l → g.v ≠ h.v → h.Meets g → tget m g.v = some q → p + h.width ≤ q ∨ q + g.width ≤ p)
  ∧ (∀ (pairs : List Nat) (m : Tbl Nat) (i : Instr) (w : InstrWord) (hi : List Nat),
    (∀ o, o ∈ vecOps i → placeOfVirt pairs m (o.virt hi) < 128) →
    (∀ n, (∀ o, o ∈ vecOps i → n < o.f.lo ∨ o.f.lo + o.f.bits ≤ n) → (nativeWord pairs m i w hi).getLsbD n = w.getLsbD n)
    ∧ ∀ o, o ∈ vecOps i → (∀ q, q ∈ vecOps i → q.f = o.f → q = o) →
      ((nativeWord pairs m i w hi).extractLsb' o.f.lo o.f.bits).toNat = placeOfVirt pairs m (o.virt hi))
  ∧ (∀ (env : RelocEnv) (base : Nat) (d x : List Byte), translateScalar env base d = some x → x.length = leNat ((d.drop 4).take 4)
    ∧ x.length % 32 = 0
    ∧ (env.kern.sigauto = false → leNat ((d.drop 8).take 4) = 0 → x = (d.drop 32).take x.length))
  ∧ (∀ (env : RelocEnv) (d : List Byte) (base : Nat), (leNat (d.take 1) ≠ 3 ∨ d.length < 32 + leNat ((d.drop 4).take 4) + 8 * leNat ((d.drop 8).take 4)
      ∨ leNat ((d.drop 12).take 4) ≠ 0 ∨ leNat ((d.drop 4).take 4) % 32 ≠ 0) → translateScalar env base d = none)
  ∧ ∀ (env : RelocEnv) (f : Bodies) (base : Nat),
    (f.tile = [] → f.loop = [] → (translateFn env f base).map (fun o => o.bytes) = translateScalar env base f.scalar)
    ∧ (∀ o, translateTile env f base = .ok o → translateFn env f base = some o)
    ∧ (∀ o, translateTile env f base = .error .absent → translateLoop env f base = .ok o → translateFn env f base = some o)
    ∧ (f.tile = [] → f.loop = [] → f.scalar = [] → translateFn env f base = none)

/-- R37, R43: a slot of the active set that can issue is due; what is due is served in turn, so what stays due comes nearer to its turn with
every step that serves another. That the turns are those of one list is log 2's. -/
def Obligations.Turns : Prop :=
  (∀ (s : State) (b n : Nat) (y : Block) (w : Wave), s.blk b = some y → tget y.waves n = some w → w.active = true →
    (w.s0.status = .run → AgendaItem.issue (.slot b n 0) ∈ s.due) ∧ (w.s1.status = .run → AgendaItem.issue (.slot b n 1) ∈ s.due))
  ∧ (∀ (s u : State) (x : AgendaItem) (k : Nat), s.agenda = [] → s.stopped = false → s.turns[k]? = some x →
    (k = 0 → s.pick.2 = x) ∧ (0 < k → u.queue = s.pick.1.queue → x ∈ u.due → ∃ j : Nat, j < k ∧ u.turns[j]? = some x))
  ∧ (∀ (s : State) (x : AgendaItem), x ∈ s.due → ∃ k : Nat, s.turns[k]? = some x)
  ∧ ∀ (s : State) (e : Nat × Core) (p : Nat), e ∈ s.cores → p < 4 → (e.2.pend p) ≠ [] → s.activeIn e.1 p < 4 →
    AgendaItem.event (.activeSetEntry e.1 p) ∈ s.due

/-- Words written out from the encoding tables, decoded: (k2) VADD.s32 v4, v4, v5 and VADD.s32 v4, v4, 1, whose words the encoding chapter
gives; the dictionary word of R130's example; SREAD s6, WAVEID and EXIT with a SIG, whose low bits R134's example gives. -/
def Obligations.WordsDecode : Prop :=
  decodeTableWord 64 0x0000288141010020 = some (.vadd ⟨⟨false, 2⟩, .s32, false, .rn, 0, 4, .vec 4, .vec 5⟩)
  ∧ decodeTableWord 96 0x0000000100002800_01010021 = some (.vadd ⟨⟨false, 0⟩, .s32, false, .rn, 0, 4, .vec 4, .imm 1⟩)
  ∧ decodeTableWord 64 0x00000C050405000B = some (.dictionaryWord 2 0 0x0405 0x0C05 0)
  ∧ decodeTableWord 64 0x021000000021880C = some (.sread (.sca 6) .waveid ⟨false, 0⟩)
  ∧ decodeTableWord 128 (0x20300A * 2 ^ 104 + 0x040A) = some (.exit (some 0x20300A))
  ∧ decodeTableWord 64 (0x28 * 2 ^ 2) = some (.reservedEncoding 0x28 0)

/-- R121 to R127, R136, R137: decoding the word of a well-formed instruction gives it back, with every operand; and a word that decodes to an
instruction other than a dictionary word or reserved space is that instruction's word, bit for bit, and the instruction is well formed. -/
def Obligations.DecodeEncode : Prop :=
  (∀ i : Instr, i.wf = true → decode (encode i) = .ok i)
  ∧ ∀ (w : InstrWord) (i : Instr), decode w = .ok i → w.extractLsb' 0 2 ≠ 3 → (∀ m n, i ≠ .reservedEncoding m n) →
    i.wf = true ∧ encode i = w

/-- R118 to R120, R128, R129, R137, R292, R300: a step of a slot or of a stream that can issue, whose word at the PC, or next code of a
dictionary word, decodes to an instruction, is exec of that instruction after a clock has passed; a word that decodes to none traps PRIV
or ILLEGAL; the word is that of the cached block, or of the bytes at the address. A step at an event is exec of the event. -/
def Obligations.StepRunsDecoded : Prop :=
  (∀ (s u t : State) (v : View) (rest : List AgendaItem) (word : InstrWord) (n : Nat), s.tick.agenda = .issue (.slot v.bid v.wid v.k) :: rest →
    u = { s.tick with agenda := rest, cur := .slot v.bid v.wid v.k } → u.Serves v → v.sl.expand = none →
    u.NoTile v.b.tag v.sl.pc → u.Fetches v.b.kern v.sl.pc word n t →
    (∀ i, decode word = .ok i → step s = exec i { t with ir := ⟨word, n, v.sl.pc, none⟩ })
    ∧ ∀ p, decode word = .error (.illegal p) → step s = .next ({ t with ir := ⟨word, n, v.sl.pc, none⟩ }.trap
      (if p = true ∧ v.b.priv = false then cPRIV else cILLEGAL)))
  ∧ (∀ (s u : State) (v : View) (rest : List AgendaItem) (word : InstrWord) (last : Bool) (i : Instr),
    s.tick.agenda = .issue (.slot v.bid v.wid v.k) :: rest → u = { s.tick with agenda := rest, cur := .slot v.bid v.wid v.k } →
    u.Serves v → v.sl.expand = some (word, last) → decode word = .ok i →
    step s = exec i { u with ir := ⟨word, wordBytes word, v.sl.pc, some last⟩ })
  ∧ (∀ (s r u : State) (b : Nat) (e : Engine) (ix : Nat) (x : Stream) (y : Block) (rest : List AgendaItem) (i : Instr),
    s.tick.agenda = .issue (.stream b e ix) :: rest → r = { s.tick with agenda := rest, cur := .stream b e ix } → r.Runs b e ix x y →
    u = r.modStream b e ix (fun z => { z with replay := .none }) →
    (∀ t word n, x.expand = none → u.Fetches y.kern x.pc word n t → decode word = .ok i →
      step s = exec i { t with ir := ⟨word, n, x.pc, none⟩ })
    ∧ ∀ word last, x.expand = some (word, last) → decode word = .ok i →
      step s = exec i { u with ir := ⟨word, wordBytes word, x.pc, some last⟩ })
  ∧ (∀ (s : State) (rest : List AgendaItem) (i : Instr), s.tick.agenda = .event i :: rest → s.tick.stopped = false →
    step s = exec i { s.tick with agenda := rest })
  ∧ (∀ (u : State) (va : Nat) (blk : BitVec 256), va % 32 = 0 →
    tget (u.core (coreOf u.cur.block)).icache (icKey (u.tagOf u.cur) va) = some blk → u.fetchBlock va ⟨false, false, true⟩ = .block u blk)
  ∧ ∀ (u t : State) (va pa cell : Nat), va % 32 = 0 → tget (u.core (coreOf u.cur.block)).icache (icKey (u.tagOf u.cur) va) = none →
    u.translate (coreOf u.cur.block) (u.tagOf u.cur) va ⟨false, false, true⟩ = (t, .ok (.dram pa cell)) → t.parks pa cell = false →
    t.poisoned cell 32 = false → (∀ i, i < 32 → (cell + i) / 64 ∉ t.vaultBad) →
    ∃ w blk, u.fetchBlock va ⟨false, false, true⟩ = .block w blk ∧ ∀ i, i < 32 → blk.extractLsb' (8 * i) 8 = t.dramByte (cell + i)

/-- Every step from a state whose memories, of the package, its slices and the host, are in canonical form (keys rising, no zero listed in the
vaults and the host) gives such a state: equal memories stay equal data. -/
def Obligations.MemoryCanonical : Prop := ∀ s t : State, s.MemWf → step s = .next t → t.MemWf

/-- Every step from a state whose tables of blocks, cores, waves, versions, private copies, cached sectors and posted receives have rising
keys gives such a state. -/
def Obligations.TablesCanonical : Prop := ∀ s t : State, s.TablesRise → step s = .next t → t.TablesRise

/-- R13, R18, R93, R97, R165, R263, R329, R330, R358: the state after reset: memories and tables in their form, no unit ready or fallow, 8
spare cores and 16 spare slices, context 0 live with incarnation 0 and every other slot free, every bank in scratch mode and every column
way a cache way, GOVBUDGET all ones, ports down with 32 credits of each kind, VERSION 3.2.0. A byte that nothing has written reads 0 (log
1). -/
def Obligations.ResetState : Prop :=
  State.reset.MemWf ∧ State.reset.TablesRise ∧ (∀ c n, State.reset.unitReady c n = false ∧ State.reset.unitFallow c n = false)
  ∧ State.reset.spareCores.sum = 8 ∧ State.reset.spareSlices.sum = 16
  ∧ (State.reset.ctx 0).state = .live ∧ (∀ n, (State.reset.ctx n).inc = 0 ∧ (n ≠ 0 → (State.reset.ctx n).state = .free))
  ∧ (∀ c i, (i < 32 → modeField (State.reset.core c).bankMode i = 1) ∧ (i < 16 → modeField (State.reset.core c).colWays i = 0))
  ∧ (∀ c, (State.reset.core c).govBudget = 0xFFFF ∧ (State.reset.core c).govStall = 0)
  ∧ (∀ n, (State.reset.port n).state = .down ∧ (State.reset.port n).credits = [32, 32, 32, 32])
  ∧ State.reset.versionReg = 0x30200 ∧ State.reset.staleDrop = 0 ∧ State.reset.faultq = 0 ∧ State.reset.blocks = []
  ∧ ∀ a, State.reset.dramByte a = 0
end

