-- ==== Sys2Proof/Laws/Encoding.lean ====
section
/-! SUPPORT. Laws of the encoding: what the decoder reads back of each field that the encoder lays out (R121 to R127). The
round trip of every instruction rests on these. -/

namespace Sys2Proof

/-! ### Bits of a concatenation -/

theorem ext_hi {m n w : Nat} (hw : m + n = w) {x : BitVec w} {a : BitVec m} {b : BitVec n} (hx : x = (a ++ b).cast hw)
    (k len : Nat) (h : n ≤ k) : x.extractLsb' k len = a.extractLsb' (k - n) len := by
  subst hw; subst hx
  apply BitVec.eq_of_getLsbD_eq; intro i hi
  simp only [BitVec.getLsbD_extractLsb', BitVec.cast_eq, BitVec.getLsbD_append]
  simp [show ¬ (k + i < n) by omega, show k + i - n = k - n + i by omega]

theorem ext_in {m n w : Nat} (hw : m + n = w) {x : BitVec w} {a : BitVec m} {b : BitVec n} (hx : x = (a ++ b).cast hw)
    (k len : Nat) (h : k + len ≤ n) : x.extractLsb' k len = b.extractLsb' k len := by
  subst hw; subst hx
  apply BitVec.eq_of_getLsbD_eq; intro i hi
  simp only [BitVec.getLsbD_extractLsb', BitVec.cast_eq, BitVec.getLsbD_append]
  simp [show (k + i < n) by omega]

theorem get_hi {m n w : Nat} (hw : m + n = w) {x : BitVec w} {a : BitVec m} {b : BitVec n} (hx : x = (a ++ b).cast hw)
    (k : Nat) (h : n ≤ k) : x.getLsbD k = a.getLsbD (k - n) := by
  subst hw; subst hx
  rw [BitVec.cast_eq, BitVec.getLsbD_append]; simp [show ¬ k < n by omega]

theorem get_lo {m n w : Nat} (hw : m + n = w) {x : BitVec w} {a : BitVec m} {b : BitVec n} (hx : x = (a ++ b).cast hw)
    (k : Nat) (h : k < n) : x.getLsbD k = b.getLsbD k := by
  subst hw; subst hx
  rw [BitVec.cast_eq, BitVec.getLsbD_append]; simp [h]

theorem app_in {m n : Nat} (a : BitVec m) (b : BitVec n) (k len : Nat) (h : k + len ≤ n) :
    (a ++ b).extractLsb' k len = b.extractLsb' k len := ext_in rfl rfl k len h
theorem app_hi {m n : Nat} (a : BitVec m) (b : BitVec n) (k len : Nat) (h : n ≤ k) :
    (a ++ b).extractLsb' k len = a.extractLsb' (k - n) len := ext_hi rfl rfl k len h
theorem get_app_hi {m n : Nat} (a : BitVec m) (b : BitVec n) (k : Nat) (h : n ≤ k) :
    (a ++ b).getLsbD k = a.getLsbD (k - n) := get_hi rfl rfl k h
theorem get_app_lo {m n : Nat} (a : BitVec m) (b : BitVec n) (k : Nat) (h : k < n) :
    (a ++ b).getLsbD k = b.getLsbD k := get_lo rfl rfl k h
theorem ext_all {n : Nat} (a : BitVec n) (k : Nat) (h : k = 0) : a.extractLsb' k n = a := by subst h; simp
theorem get_bool (b : Bool) (k : Nat) (h : k = 0) : (BitVec.ofBool b).getLsbD k = b := by subst h; cases b <;> rfl

/-! ### The word of a field set -/

theorem word_low (f : Fields) (k len : Nat) (h : k + len ≤ 64) : f.toWord.extractLsb' k len =
    (f.mod ++ (f.la ++ (f.ty ++ (BitVec.ofBool f.neg ++ (f.k ++ (f.b ++ (f.a ++ (f.d ++ (f.minor ++ (f.major ++ f.len)))))))))).extractLsb' k len :=
  ext_in (m := 64) (n := 12 + (4 + (5 + (1 + (4 + (8 + (8 + (8 + (6 + (6 + 2)))))))))) rfl rfl k len h

set_option simprocs false in
/-- Cutting the word of a field set gives the field set back (R121). -/
theorem ofWord_toWord (f : Fields) : Fields.ofWord f.toWord = f := by
  have hx : f.toWord.extractLsb' 64 64 = f.x :=
    (ext_hi (m := 64) (n := 12 + (4 + (5 + (1 + (4 + (8 + (8 + (8 + (6 + (6 + 2)))))))))) rfl rfl 64 64 (by decide)).trans
      (ext_all _ _ rfl)
  have hg : f.toWord.getLsbD 42 = f.neg := by
    refine (get_lo (m := 64) (n := 12 + (4 + (5 + (1 + (4 + (8 + (8 + (8 + (6 + (6 + 2)))))))))) rfl rfl 42 (by decide)).trans ?_
    simp (disch := decide) only [get_app_hi, get_app_lo, get_bool]
  cases f
  simp (disch := decide) only [Fields.ofWord, hx, hg, word_low, app_hi, app_in, ext_all]

theorem app_ext {w : Nat} (x : BitVec w) (i j m n : Nat) (h : i = j + n) :
    x.extractLsb' i m ++ x.extractLsb' j n = x.extractLsb' j (m + n) := by
  subst h
  apply BitVec.eq_of_getLsbD_eq; intro k hk
  rw [BitVec.getLsbD_append]
  simp only [BitVec.getLsbD_extractLsb']
  by_cases hn : k < n
  · simp [hn]; intros; omega
  · have : k - n < m := by omega
    simp [hn, this, show j + n + (k - n) = j + k by omega]; intros; omega

/-- Laying out the fields of a word gives the word back (R121). -/
theorem toWord_ofWord (w : InstrWord) : (Fields.ofWord w).toWord = w := by
  have hb : BitVec.ofBool (w.getLsbD 42) = w.extractLsb' 42 1 := by
    apply BitVec.eq_of_getLsbD_eq; intro i hi
    have : i = 0 := by omega
    subst this; simp
  simp only [Fields.toWord, Fields.ofWord, hb]
  refine Eq.trans (b := w.extractLsb' 0 (64 + (12 + (4 + (5 + (1 + (4 + (8 + (8 + (8 + (6 + (6 + 2)))))))))))) ?_ (ext_all w 0 rfl)
  simp (disch := decide) only [app_ext, - Nat.reduceAdd]
/-! ### Register codes (R124) -/

theorem sOf_sCode (n : SReg) : sOf (sCode n) = n := (ext_in (m := 2) (n := 6) rfl rfl 0 6 (by decide)).trans (ext_all _ _ rfl)
theorem vOf_vCode (n : VNum) : vOf (vCode n) = n := (ext_in (m := 1) (n := 7) rfl rfl 0 7 (by decide)).trans (ext_all _ _ rfl)
theorem kOf_kCode (n : KNum) : kOf (kCode n) = n := (ext_in (m := 4) (n := 4) rfl rfl 0 4 (by decide)).trans (ext_all _ _ rfl)
theorem fOf_fCode (n : FNum) : fOf (fCode n) = n := (ext_in (m := 5) (n := 3) rfl rfl 0 3 (by decide)).trans (ext_all _ _ rfl)
theorem zOf_zCode (n : ZNum) : zOf (zCode n) = n := (ext_in (m := 4) (n := 4) rfl rfl 0 4 (by decide)).trans (ext_all _ _ rfl)
theorem mOf_mCode (n : MNum) : mOf (mCode n) = n := (ext_in (m := 5) (n := 3) rfl rfl 0 3 (by decide)).trans (ext_all _ _ rfl)
theorem sCode_top (n : SReg) : (sCode n).getLsbD 7 = true := (get_hi (m := 2) (n := 6) rfl rfl 7 (by decide)).trans rfl
theorem vCode_top (n : VNum) : (vCode n).getLsbD 7 = false := (get_hi (m := 1) (n := 7) rfl rfl 7 (by decide)).trans rfl
theorem srcOf_sCode (n : SReg) : srcOf (sCode n) = .sca n := by rw [srcOf, sCode_top, if_pos rfl, sOf_sCode]
theorem srcOf_vCode (n : VNum) : srcOf (vCode n) = .vec n := by rw [srcOf, vCode_top, if_neg (by decide), vOf_vCode]
theorem srcOf_code {a : VSrc} {t : Ty} (h : a.regOk t = true) : srcOf a.code = a := by
  cases a with
  | vec n => exact srcOf_vCode n
  | sca n => exact srcOf_sCode n
  | imm v => cases h
theorem idxOf_code (a : MIdx) : idxOf a.code = a := by
  cases a with
  | vec n => simp only [idxOf, MIdx.code, vCode_top, vOf_vCode, Bool.false_eq_true, if_false]
  | sca n => simp only [idxOf, MIdx.code, sCode_top, sOf_sCode, if_true]
theorem dataOf_code (a : MData) : dataOf a.code = a := by
  cases a with
  | vec n => simp only [dataOf, MData.code, vCode_top, vOf_vCode, Bool.false_eq_true, if_false]
  | sca n => simp only [dataOf, MData.code, sCode_top, sOf_sCode, if_true]

/-! ### Enumerated codes -/

theorem Ty.ofCode_code (t : Ty) : Ty.ofCode t.code = some t := by cases t <;> rfl
theorem Cond.ofCode_code (c : Cond) : Cond.ofCode c.code = some c := by cases c <;> rfl
theorem Rm.ofCode_code (c : Rm) : Rm.ofCode c.code = c := by cases c <;> rfl
theorem Axis.ofCode_code (c : Axis) : Axis.ofCode c.code = c := by cases c <;> rfl
theorem RedOp.ofCode_code (c : RedOp) : RedOp.ofCode c.code = some c := by cases c <;> rfl
theorem Scope.ofCode_code (c : Scope) : Scope.ofCode c.code = c := by cases c <;> rfl
theorem Ord.ofCode_code (c : Ord) : Ord.ofCode c.code = c := by cases c <;> rfl
theorem Engine.ofCode_code (c : Engine) : Engine.ofCode c.code = c := by cases c <;> rfl
theorem AtomOp.ofCode_code (c : AtomOp) : AtomOp.ofCode c.code = some c := by cases c <;> rfl
theorem SysReg.ofCode_code (c : SysReg) : SysReg.ofCode c.code = some c := by cases c <;> rfl
theorem Bank.ofCode_code (c : Bank) : Bank.ofCode c.code = c := by cases c <;> rfl
theorem sgn_code (b : Bool) : decide (sgnCode b = 7) = b := by cases b <;> rfl
theorem Ty.ofCode_sgn (b : Bool) : Ty.ofCode (sgnCode b) = some (if b then .s64 else .n64) := by cases b <;> rfl

/-! ### Immediates and the 128-bit terminator form (R122) -/

theorem imm32_low (v : BitVec 32) : (imm32 v).extractLsb' 0 32 = v :=
  (ext_in (m := 32) (n := 32) rfl rfl 0 32 (by decide)).trans (ext_all _ _ rfl)
theorem termX_off (t : Term) (v : BitVec 32) : (termX t v).extractLsb' 0 32 = v := by
  cases t with
  | none => exact (ext_in (m := 32) (n := 32) rfl rfl 0 32 (by decide)).trans (ext_all _ _ rfl)
  | some s => exact (ext_in (m := 24) (n := 8 + 32) rfl rfl 0 32 (by decide)).trans ((app_in _ _ 0 32 (by decide)).trans (ext_all _ _ rfl))
theorem termX_sig (s : BitVec 24) (v : BitVec 32) : (termX (some s) v).extractLsb' 40 24 = s :=
  (ext_hi (m := 24) (n := 8 + 32) rfl rfl 40 24 (by decide)).trans (ext_all _ _ rfl)
theorem c_low (c : BitVec 8) : (0#56 ++ c : BitVec 64).extractLsb' 0 8 = c :=
  (ext_in (m := 56) (n := 8) rfl rfl 0 8 (by decide)).trans (ext_all _ _ rfl)
theorem cc_low (d c : BitVec 8) : (0#48 ++ (d ++ c) : BitVec 64).extractLsb' 0 8 = c :=
  (ext_in (m := 48) (n := 8 + 8) rfl rfl 0 8 (by decide)).trans ((app_in _ _ 0 8 (by decide)).trans (ext_all _ _ rfl))
theorem cc_high (d c : BitVec 8) : (0#48 ++ (d ++ c) : BitVec 64).extractLsb' 8 8 = d :=
  (ext_in (m := 48) (n := 8 + 8) rfl rfl 8 8 (by decide)).trans ((app_hi _ _ 8 8 (by decide)).trans (ext_all _ _ rfl))
theorem pos_low (l : BitVec 7) (p : BitVec 6) : (0#51 ++ (l ++ p) : BitVec 64).extractLsb' 0 6 = p :=
  (ext_in (m := 51) (n := 7 + 6) rfl rfl 0 6 (by decide)).trans ((app_in _ _ 0 6 (by decide)).trans (ext_all _ _ rfl))
theorem len_high (l : BitVec 7) (p : BitVec 6) : (0#51 ++ (l ++ p) : BitVec 64).extractLsb' 6 7 = l :=
  (ext_in (m := 51) (n := 7 + 6) rfl rfl 6 7 (by decide)).trans ((app_hi _ _ 6 7 (by decide)).trans (ext_all _ _ rfl))
theorem two_low (a b : BitVec 32) : (b ++ a : BitVec 64).extractLsb' 0 32 = a :=
  (ext_in (m := 32) (n := 32) rfl rfl 0 32 (by decide)).trans (ext_all _ _ rfl)
theorem two_high (a b : BitVec 32) : (b ++ a : BitVec 64).extractLsb' 32 32 = b :=
  (ext_hi (m := 32) (n := 32) rfl rfl 32 32 (by decide)).trans (ext_all _ _ rfl)

/-! ### The MOD fields -/

section
set_option simprocs false
set_option linter.unusedSimpArgs false

theorem matMod_scr (scr : Bool) (set : BitVec 2) (tr : Bool) (tiles : BitVec 4) (spec : Bool) (str : BitVec 2) : (matMod scr set tr tiles spec str).getLsbD 10 = scr :=
  (get_lo (m := 1) (n := 1 + (2 + (1 + (4 + (1 + 2))))) rfl rfl 10 (by decide)).trans (by simp (disch := decide) only [get_app_hi, get_app_lo, get_bool])
theorem matMod_set (scr : Bool) (set : BitVec 2) (tr : Bool) (tiles : BitVec 4) (spec : Bool) (str : BitVec 2) : (matMod scr set tr tiles spec str).extractLsb' 8 2 = set :=
  (ext_in (m := 1) (n := 1 + (2 + (1 + (4 + (1 + 2))))) rfl rfl 8 2 (by decide)).trans (by simp (disch := decide) only [app_hi, app_in, ext_all])
theorem matMod_tr (scr : Bool) (set : BitVec 2) (tr : Bool) (tiles : BitVec 4) (spec : Bool) (str : BitVec 2) : (matMod scr set tr tiles spec str).getLsbD 7 = tr :=
  (get_lo (m := 1) (n := 1 + (2 + (1 + (4 + (1 + 2))))) rfl rfl 7 (by decide)).trans (by simp (disch := decide) only [get_app_hi, get_app_lo, get_bool])
theorem matMod_tiles (scr : Bool) (set : BitVec 2) (tr : Bool) (tiles : BitVec 4) (spec : Bool) (str : BitVec 2) : (matMod scr set tr tiles spec str).extractLsb' 3 4 = tiles :=
  (ext_in (m := 1) (n := 1 + (2 + (1 + (4 + (1 + 2))))) rfl rfl 3 4 (by decide)).trans (by simp (disch := decide) only [app_hi, app_in, ext_all])
theorem matMod_spec (scr : Bool) (set : BitVec 2) (tr : Bool) (tiles : BitVec 4) (spec : Bool) (str : BitVec 2) : (matMod scr set tr tiles spec str).getLsbD 2 = spec :=
  (get_lo (m := 1) (n := 1 + (2 + (1 + (4 + (1 + 2))))) rfl rfl 2 (by decide)).trans (by simp (disch := decide) only [get_app_hi, get_app_lo, get_bool])
theorem matMod_str (scr : Bool) (set : BitVec 2) (tr : Bool) (tiles : BitVec 4) (spec : Bool) (str : BitVec 2) : (matMod scr set tr tiles spec str).extractLsb' 0 2 = str :=
  (ext_in (m := 1) (n := 1 + (2 + (1 + (4 + (1 + 2))))) rfl rfl 0 2 (by decide)).trans (by simp (disch := decide) only [app_hi, app_in, ext_all])
theorem memMod_aop (aop : BitVec 4) (cnt strong : Bool) (o : Ord) (sc : Scope) (scale : BitVec 2) : (memMod aop cnt strong o sc scale).extractLsb' 8 4 = aop :=
  (ext_hi (m := 4) (n := 1 + (1 + (2 + (2 + 2)))) rfl rfl 8 4 (by decide)).trans (by simp (disch := decide) only [app_hi, app_in, ext_all])
theorem memMod_cnt (aop : BitVec 4) (cnt strong : Bool) (o : Ord) (sc : Scope) (scale : BitVec 2) : (memMod aop cnt strong o sc scale).getLsbD 7 = cnt :=
  (get_lo (m := 4) (n := 1 + (1 + (2 + (2 + 2)))) rfl rfl 7 (by decide)).trans (by simp (disch := decide) only [get_app_hi, get_app_lo, get_bool])
theorem memMod_strong (aop : BitVec 4) (cnt strong : Bool) (o : Ord) (sc : Scope) (scale : BitVec 2) : (memMod aop cnt strong o sc scale).getLsbD 6 = strong :=
  (get_lo (m := 4) (n := 1 + (1 + (2 + (2 + 2)))) rfl rfl 6 (by decide)).trans (by simp (disch := decide) only [get_app_hi, get_app_lo, get_bool])
theorem memMod_ord (aop : BitVec 4) (cnt strong : Bool) (o : Ord) (sc : Scope) (scale : BitVec 2) : (memMod aop cnt strong o sc scale).extractLsb' 4 2 = o.code :=
  (ext_in (m := 4) (n := 1 + (1 + (2 + (2 + 2)))) rfl rfl 4 2 (by decide)).trans (by simp (disch := decide) only [app_hi, app_in, ext_all])
theorem memMod_scope (aop : BitVec 4) (cnt strong : Bool) (o : Ord) (sc : Scope) (scale : BitVec 2) : (memMod aop cnt strong o sc scale).extractLsb' 2 2 = sc.code :=
  (ext_in (m := 4) (n := 1 + (1 + (2 + (2 + 2)))) rfl rfl 2 2 (by decide)).trans (by simp (disch := decide) only [app_hi, app_in, ext_all])
theorem memMod_scale (aop : BitVec 4) (cnt strong : Bool) (o : Ord) (sc : Scope) (scale : BitVec 2) : (memMod aop cnt strong o sc scale).extractLsb' 0 2 = scale :=
  (ext_in (m := 4) (n := 1 + (1 + (2 + (2 + 2)))) rfl rfl 0 2 (by decide)).trans (by simp (disch := decide) only [app_hi, app_in, ext_all])
theorem cmdMod_scrD (f : CmdFlags) (scrI tr : Bool) : (cmdMod f scrI tr).getLsbD 10 = f.scrD :=
  (get_lo (m := 1) (n := 1 + (1 + (1 + (1 + (1 + (2 + (2 + 2))))))) rfl rfl 10 (by decide)).trans (by simp (disch := decide) only [get_app_hi, get_app_lo, get_bool])
theorem cmdMod_scrS (f : CmdFlags) (scrI tr : Bool) : (cmdMod f scrI tr).getLsbD 9 = f.scrS :=
  (get_lo (m := 1) (n := 1 + (1 + (1 + (1 + (1 + (2 + (2 + 2))))))) rfl rfl 9 (by decide)).trans (by simp (disch := decide) only [get_app_hi, get_app_lo, get_bool])
theorem cmdMod_scrI (f : CmdFlags) (scrI tr : Bool) : (cmdMod f scrI tr).getLsbD 8 = scrI :=
  (get_lo (m := 1) (n := 1 + (1 + (1 + (1 + (1 + (2 + (2 + 2))))))) rfl rfl 8 (by decide)).trans (by simp (disch := decide) only [get_app_hi, get_app_lo, get_bool])
theorem cmdMod_tr (f : CmdFlags) (scrI tr : Bool) : (cmdMod f scrI tr).getLsbD 7 = tr :=
  (get_lo (m := 1) (n := 1 + (1 + (1 + (1 + (1 + (2 + (2 + 2))))))) rfl rfl 7 (by decide)).trans (by simp (disch := decide) only [get_app_hi, get_app_lo, get_bool])
theorem cmdMod_ord (f : CmdFlags) (scrI tr : Bool) : (cmdMod f scrI tr).extractLsb' 4 2 = f.ord.code :=
  (ext_in (m := 1) (n := 1 + (1 + (1 + (1 + (1 + (2 + (2 + 2))))))) rfl rfl 4 2 (by decide)).trans (by simp (disch := decide) only [app_hi, app_in, ext_all])
theorem cmdMod_scope (f : CmdFlags) (scrI tr : Bool) : (cmdMod f scrI tr).extractLsb' 2 2 = f.scope.code :=
  (ext_in (m := 1) (n := 1 + (1 + (1 + (1 + (1 + (2 + (2 + 2))))))) rfl rfl 2 2 (by decide)).trans (by simp (disch := decide) only [app_hi, app_in, ext_all])
theorem vMod_sty (sty : BitVec 5) (sat : Bool) (rm : Rm) (cond : BitVec 3) : (vMod sty sat rm cond).extractLsb' 6 5 = sty :=
  (ext_in (m := 1) (n := 5 + (1 + (2 + 3))) rfl rfl 6 5 (by decide)).trans (by simp (disch := decide) only [app_hi, app_in, ext_all])
theorem vMod_sat (sty : BitVec 5) (sat : Bool) (rm : Rm) (cond : BitVec 3) : (vMod sty sat rm cond).getLsbD 5 = sat :=
  (get_lo (m := 1) (n := 5 + (1 + (2 + 3))) rfl rfl 5 (by decide)).trans (by simp (disch := decide) only [get_app_hi, get_app_lo, get_bool])
theorem vMod_rm (sty : BitVec 5) (sat : Bool) (rm : Rm) (cond : BitVec 3) : (vMod sty sat rm cond).extractLsb' 3 2 = rm.code :=
  (ext_in (m := 1) (n := 5 + (1 + (2 + 3))) rfl rfl 3 2 (by decide)).trans (by simp (disch := decide) only [app_hi, app_in, ext_all])
theorem vMod_cond (sty : BitVec 5) (sat : Bool) (rm : Rm) (cond : BitVec 3) : (vMod sty sat rm cond).extractLsb' 0 3 = cond :=
  (ext_in (m := 1) (n := 5 + (1 + (2 + 3))) rfl rfl 0 3 (by decide)).trans (by simp (disch := decide) only [app_hi, app_in, ext_all])
theorem ordMod_ord (o : Ord) (sc : Scope) : (ordMod o sc).extractLsb' 4 2 = o.code :=
  (ext_in (m := 6) (n := 2 + (2 + 2)) rfl rfl 4 2 (by decide)).trans (by simp (disch := decide) only [app_hi, app_in, ext_all])
theorem ordMod_scope (o : Ord) (sc : Scope) : (ordMod o sc).extractLsb' 2 2 = sc.code :=
  (ext_in (m := 6) (n := 2 + (2 + 2)) rfl rfl 2 2 (by decide)).trans (by simp (disch := decide) only [app_hi, app_in, ext_all])
theorem mod_bru_pr (pr : Bool) (c : BitVec 3) : (0#8 ++ (BitVec.ofBool pr ++ c) : BitVec 12).getLsbD 3 = pr :=
  (get_lo (m := 8) (n := 1 + 3) rfl rfl 3 (by decide)).trans (by simp (disch := decide) only [get_app_hi, get_app_lo, get_bool])
theorem mod_bru_cond (pr : Bool) (c : BitVec 3) : (0#8 ++ (BitVec.ofBool pr ++ c) : BitVec 12).extractLsb' 0 3 = c :=
  (ext_in (m := 8) (n := 1 + 3) rfl rfl 0 3 (by decide)).trans (by simp (disch := decide) only [app_hi, app_in, ext_all])
theorem mod_brz_pr (pr nz : Bool) : (0#8 ++ (BitVec.ofBool pr ++ (0#2 ++ BitVec.ofBool nz)) : BitVec 12).getLsbD 3 = pr :=
  (get_lo (m := 8) (n := 1 + (2 + 1)) rfl rfl 3 (by decide)).trans (by simp (disch := decide) only [get_app_hi, get_app_lo, get_bool])
theorem mod_brz_nz (pr nz : Bool) : (0#8 ++ (BitVec.ofBool pr ++ (0#2 ++ BitVec.ofBool nz)) : BitVec 12).getLsbD 0 = nz :=
  (get_lo (m := 8) (n := 1 + (2 + 1)) rfl rfl 0 (by decide)).trans (by simp (disch := decide) only [get_app_hi, get_app_lo, get_bool])
theorem mod_tlb_dev (dev : Bool) (kind : BitVec 2) : (0#7 ++ (BitVec.ofBool dev ++ (0#2 ++ kind)) : BitVec 12).getLsbD 4 = dev :=
  (get_lo (m := 7) (n := 1 + (2 + 2)) rfl rfl 4 (by decide)).trans (by simp (disch := decide) only [get_app_hi, get_app_lo, get_bool])
theorem mod_tlb_kind (dev : Bool) (kind : BitVec 2) : (0#7 ++ (BitVec.ofBool dev ++ (0#2 ++ kind)) : BitVec 12).extractLsb' 0 2 = kind :=
  (ext_in (m := 7) (n := 1 + (2 + 2)) rfl rfl 0 2 (by decide)).trans (by simp (disch := decide) only [app_hi, app_in, ext_all])
theorem mod_icinv_dev (dev : Bool) : (0#7 ++ (BitVec.ofBool dev ++ 0#4) : BitVec 12).getLsbD 4 = dev :=
  (get_lo (m := 7) (n := 1 + 4) rfl rfl 4 (by decide)).trans (by simp (disch := decide) only [get_app_hi, get_app_lo, get_bool])
theorem mod_scmp_cond (c : BitVec 3) : (0#9 ++ c : BitVec 12).extractLsb' 0 3 = c :=
  (ext_in (m := 9) (n := 3) rfl rfl 0 3 (by decide)).trans (by simp (disch := decide) only [app_hi, app_in, ext_all])
theorem mod_low2_low (c : BitVec 2) : (0#10 ++ c : BitVec 12).extractLsb' 0 2 = c :=
  (ext_in (m := 10) (n := 2) rfl rfl 0 2 (by decide)).trans (by simp (disch := decide) only [app_hi, app_in, ext_all])
theorem mod_comp_hi (hi : BitVec 10) (c : BitVec 2) : (hi ++ c : BitVec 12).extractLsb' 2 10 = hi :=
  (ext_hi (m := 10) (n := 2) rfl rfl 2 10 (by decide)).trans (by simp (disch := decide) only [app_hi, app_in, ext_all])
theorem mod_comp_axis (hi : BitVec 10) (c : BitVec 2) : (hi ++ c : BitVec 12).extractLsb' 0 2 = c :=
  (ext_in (m := 10) (n := 2) rfl rfl 0 2 (by decide)).trans (by simp (disch := decide) only [app_hi, app_in, ext_all])
theorem mod_refold_ft (ft : BitVec 3) : (0#7 ++ (ft ++ 0#2) : BitVec 12).extractLsb' 2 3 = ft :=
  (ext_in (m := 7) (n := 3 + 2) rfl rfl 2 3 (by decide)).trans (by simp (disch := decide) only [app_hi, app_in, ext_all])
theorem mod_pfold_axis (op : BitVec 3) (c : BitVec 2) : ((0#7 ++ op) ++ c : BitVec 12).extractLsb' 0 2 = c :=
  (ext_in (m := 10) (n := 2) rfl rfl 0 2 (by decide)).trans (by simp (disch := decide) only [app_hi, app_in, ext_all])
theorem mod_vote_m (m : BitVec 7) (x g : Bool) (op : BitVec 3) : (m ++ (BitVec.ofBool x ++ (BitVec.ofBool g ++ op)) : BitVec 12).extractLsb' 5 7 = m :=
  (ext_hi (m := 7) (n := 1 + (1 + 3)) rfl rfl 5 7 (by decide)).trans (by simp (disch := decide) only [app_hi, app_in, ext_all])
theorem mod_vote_has (m : BitVec 7) (x g : Bool) (op : BitVec 3) : (m ++ (BitVec.ofBool x ++ (BitVec.ofBool g ++ op)) : BitVec 12).getLsbD 4 = x :=
  (get_lo (m := 7) (n := 1 + (1 + 3)) rfl rfl 4 (by decide)).trans (by simp (disch := decide) only [get_app_hi, get_app_lo, get_bool])
theorem mod_vote_grp (m : BitVec 7) (x g : Bool) (op : BitVec 3) : (m ++ (BitVec.ofBool x ++ (BitVec.ofBool g ++ op)) : BitVec 12).getLsbD 3 = g :=
  (get_lo (m := 7) (n := 1 + (1 + 3)) rfl rfl 3 (by decide)).trans (by simp (disch := decide) only [get_app_hi, get_app_lo, get_bool])
theorem mod_vote_op (m : BitVec 7) (x g : Bool) (op : BitVec 3) : (m ++ (BitVec.ofBool x ++ (BitVec.ofBool g ++ op)) : BitVec 12).extractLsb' 0 3 = op :=
  (ext_in (m := 7) (n := 1 + (1 + 3)) rfl rfl 0 3 (by decide)).trans (by simp (disch := decide) only [app_hi, app_in, ext_all])
theorem mod_gbar_m (m : BitVec 7) (x : Bool) (sc : BitVec 2) : (m ++ (BitVec.ofBool x ++ (sc ++ 0#2)) : BitVec 12).extractLsb' 5 7 = m :=
  (ext_hi (m := 7) (n := 1 + (2 + 2)) rfl rfl 5 7 (by decide)).trans (by simp (disch := decide) only [app_hi, app_in, ext_all])
theorem mod_gbar_has (m : BitVec 7) (x : Bool) (sc : BitVec 2) : (m ++ (BitVec.ofBool x ++ (sc ++ 0#2)) : BitVec 12).getLsbD 4 = x :=
  (get_lo (m := 7) (n := 1 + (2 + 2)) rfl rfl 4 (by decide)).trans (by simp (disch := decide) only [get_app_hi, get_app_lo, get_bool])
theorem mod_gbar_scope (m : BitVec 7) (x : Bool) (sc : BitVec 2) : (m ++ (BitVec.ofBool x ++ (sc ++ 0#2)) : BitVec 12).extractLsb' 2 2 = sc :=
  (ext_in (m := 7) (n := 1 + (2 + 2)) rfl rfl 2 2 (by decide)).trans (by simp (disch := decide) only [app_hi, app_in, ext_all])
theorem mod_barn_rcv (r d arv : Bool) (n : BitVec 7) : (0#2 ++ (BitVec.ofBool r ++ (BitVec.ofBool d ++ (BitVec.ofBool arv ++ n))) : BitVec 12).getLsbD 9 = r :=
  (get_lo (m := 2) (n := 1 + (1 + (1 + 7))) rfl rfl 9 (by decide)).trans (by simp (disch := decide) only [get_app_hi, get_app_lo, get_bool])
theorem mod_barn_dlv (r d arv : Bool) (n : BitVec 7) : (0#2 ++ (BitVec.ofBool r ++ (BitVec.ofBool d ++ (BitVec.ofBool arv ++ n))) : BitVec 12).getLsbD 8 = d :=
  (get_lo (m := 2) (n := 1 + (1 + (1 + 7))) rfl rfl 8 (by decide)).trans (by simp (disch := decide) only [get_app_hi, get_app_lo, get_bool])
theorem mod_barn_arv (r d arv : Bool) (n : BitVec 7) : (0#2 ++ (BitVec.ofBool r ++ (BitVec.ofBool d ++ (BitVec.ofBool arv ++ n))) : BitVec 12).getLsbD 7 = arv :=
  (get_lo (m := 2) (n := 1 + (1 + (1 + 7))) rfl rfl 7 (by decide)).trans (by simp (disch := decide) only [get_app_hi, get_app_lo, get_bool])
theorem mod_barn_count (r d arv : Bool) (n : BitVec 7) : (0#2 ++ (BitVec.ofBool r ++ (BitVec.ofBool d ++ (BitVec.ofBool arv ++ n))) : BitVec 12).extractLsb' 0 7 = n :=
  (ext_in (m := 2) (n := 1 + (1 + (1 + 7))) rfl rfl 0 7 (by decide)).trans (by simp (disch := decide) only [app_hi, app_in, ext_all])
theorem mod_fence_vh (vh : Bool) (k sc : BitVec 2) : (0#3 ++ (BitVec.ofBool vh ++ (0#2 ++ (k ++ (sc ++ 0#2)))) : BitVec 12).getLsbD 8 = vh :=
  (get_lo (m := 3) (n := 1 + (2 + (2 + (2 + 2)))) rfl rfl 8 (by decide)).trans (by simp (disch := decide) only [get_app_hi, get_app_lo, get_bool])
theorem mod_fence_kind (vh : Bool) (k sc : BitVec 2) : (0#3 ++ (BitVec.ofBool vh ++ (0#2 ++ (k ++ (sc ++ 0#2)))) : BitVec 12).extractLsb' 4 2 = k :=
  (ext_in (m := 3) (n := 1 + (2 + (2 + (2 + 2)))) rfl rfl 4 2 (by decide)).trans (by simp (disch := decide) only [app_hi, app_in, ext_all])
theorem mod_fence_scope (vh : Bool) (k sc : BitVec 2) : (0#3 ++ (BitVec.ofBool vh ++ (0#2 ++ (k ++ (sc ++ 0#2)))) : BitVec 12).extractLsb' 2 2 = sc :=
  (ext_in (m := 3) (n := 1 + (2 + (2 + (2 + 2)))) rfl rfl 2 2 (by decide)).trans (by simp (disch := decide) only [app_hi, app_in, ext_all])
theorem mod_pfold_op (op : BitVec 3) (c : BitVec 2) : ((0#7 ++ op) ++ c : BitVec 12).extractLsb' 2 3 = op :=
  (ext_hi (m := 7 + 3) (n := 2) rfl rfl 2 3 (by decide)).trans (by simp (disch := decide) only [app_in, ext_all])
theorem mod_pscan_op (ks : BitVec 4) (op : BitVec 3) (c : BitVec 2) : ((0#3 ++ (ks ++ op)) ++ c : BitVec 12).extractLsb' 2 3 = op :=
  (ext_hi (m := 3 + (4 + 3)) (n := 2) rfl rfl 2 3 (by decide)).trans (by simp (disch := decide) only [app_in, ext_all])
theorem mod_pscan_ks (ks : BitVec 4) (op : BitVec 3) (c : BitVec 2) : ((0#3 ++ (ks ++ op)) ++ c : BitVec 12).extractLsb' 5 4 = ks :=
  (ext_hi (m := 3 + (4 + 3)) (n := 2) rfl rfl 5 4 (by decide)).trans (by simp (disch := decide) only [app_hi, app_in, ext_all])
theorem mod_pgath_ix (ix : BitVec 7) (c : BitVec 2) : ((ix ++ 0#3) ++ c : BitVec 12).extractLsb' 5 7 = ix :=
  (ext_hi (m := 7 + 3) (n := 2) rfl rfl 5 7 (by decide)).trans (by simp (disch := decide) only [app_hi, ext_all])
end

section
set_option maxRecDepth 4000
/-- Every read of a field that was laid out, as one bundle of rewrite rules. -/
theorem field_reads :
    (∀ (t : Term) (v : BitVec 32), (termX t v).extractLsb' 0 32 = v)
    ∧ (∀ (s : BitVec 24) (v : BitVec 32), (termX (some s) v).extractLsb' 40 24 = s)
    ∧ (∀ (n : SReg), sOf (sCode n) = n)
    ∧ (∀ (n : VNum), vOf (vCode n) = n)
    ∧ (∀ (n : KNum), kOf (kCode n) = n)
    ∧ (∀ (n : FNum), fOf (fCode n) = n)
    ∧ (∀ (n : ZNum), zOf (zCode n) = n)
    ∧ (∀ (n : MNum), mOf (mCode n) = n)
    ∧ (∀ (n : SReg), (sCode n).getLsbD 7 = true)
    ∧ (∀ (n : VNum), (vCode n).getLsbD 7 = false)
    ∧ (∀ (n : SReg), srcOf (sCode n) = .sca n)
    ∧ (∀ (n : VNum), srcOf (vCode n) = .vec n)
    ∧ (∀ (v : BitVec 32), (imm32 v).extractLsb' 0 32 = v)
    ∧ (∀ (c : BitVec 8), (0#56 ++ c : BitVec 64).extractLsb' 0 8 = c)
    ∧ (∀ (d c : BitVec 8), (0#48 ++ (d ++ c) : BitVec 64).extractLsb' 0 8 = c)
    ∧ (∀ (d c : BitVec 8), (0#48 ++ (d ++ c) : BitVec 64).extractLsb' 8 8 = d)
    ∧ (∀ (l : BitVec 7) (p : BitVec 6), (0#51 ++ (l ++ p) : BitVec 64).extractLsb' 0 6 = p)
    ∧ (∀ (l : BitVec 7) (p : BitVec 6), (0#51 ++ (l ++ p) : BitVec 64).extractLsb' 6 7 = l)
    ∧ (∀ (a b : BitVec 32), (b ++ a : BitVec 64).extractLsb' 0 32 = a)
    ∧ (∀ (a b : BitVec 32), (b ++ a : BitVec 64).extractLsb' 32 32 = b)
    ∧ (∀ (a : MIdx), idxOf a.code = a)
    ∧ (∀ (a : MData), dataOf a.code = a)
    ∧ (∀ (c : Rm), Rm.ofCode c.code = c)
    ∧ (∀ (c : Axis), Axis.ofCode c.code = c)
    ∧ (∀ (c : Scope), Scope.ofCode c.code = c)
    ∧ (∀ (c : Ord), Ord.ofCode c.code = c)
    ∧ (∀ (c : Engine), Engine.ofCode c.code = c)
    ∧ (∀ (c : Bank), Bank.ofCode c.code = c)
    ∧ (∀ (c : Cond), Cond.ofCode c.code = some c)
    ∧ (∀ (c : RedOp), RedOp.ofCode c.code = some c)
    ∧ (∀ (c : AtomOp), AtomOp.ofCode c.code = some c)
    ∧ (∀ (c : SysReg), SysReg.ofCode c.code = some c)
    ∧ (∀ (t : Ty), Ty.ofCode t.code = some t)
    ∧ (∀ (b : Bool), decide (sgnCode b = 7) = b)
    ∧ (∀ (scr : Bool) (set : BitVec 2) (tr : Bool) (tiles : BitVec 4) (spec : Bool) (str : BitVec 2), (matMod scr set tr tiles spec str).getLsbD 10 = scr)
    ∧ (∀ (scr : Bool) (set : BitVec 2) (tr : Bool) (tiles : BitVec 4) (spec : Bool) (str : BitVec 2), (matMod scr set tr tiles spec str).extractLsb' 8 2 = set)
    ∧ (∀ (scr : Bool) (set : BitVec 2) (tr : Bool) (tiles : BitVec 4) (spec : Bool) (str : BitVec 2), (matMod scr set tr tiles spec str).getLsbD 7 = tr)
    ∧ (∀ (scr : Bool) (set : BitVec 2) (tr : Bool) (tiles : BitVec 4) (spec : Bool) (str : BitVec 2), (matMod scr set tr tiles spec str).extractLsb' 3 4 = tiles)
    ∧ (∀ (scr : Bool) (set : BitVec 2) (tr : Bool) (tiles : BitVec 4) (spec : Bool) (str : BitVec 2), (matMod scr set tr tiles spec str).getLsbD 2 = spec)
    ∧ (∀ (scr : Bool) (set : BitVec 2) (tr : Bool) (tiles : BitVec 4) (spec : Bool) (str : BitVec 2), (matMod scr set tr tiles spec str).extractLsb' 0 2 = str)
    ∧ (∀ (aop : BitVec 4) (cnt strong : Bool) (o : Ord) (sc : Scope) (scale : BitVec 2), (memMod aop cnt strong o sc scale).extractLsb' 8 4 = aop)
    ∧ (∀ (aop : BitVec 4) (cnt strong : Bool) (o : Ord) (sc : Scope) (scale : BitVec 2), (memMod aop cnt strong o sc scale).getLsbD 7 = cnt)
    ∧ (∀ (aop : BitVec 4) (cnt strong : Bool) (o : Ord) (sc : Scope) (scale : BitVec 2), (memMod aop cnt strong o sc scale).getLsbD 6 = strong)
    ∧ (∀ (aop : BitVec 4) (cnt strong : Bool) (o : Ord) (sc : Scope) (scale : BitVec 2), (memMod aop cnt strong o sc scale).extractLsb' 4 2 = o.code)
    ∧ (∀ (aop : BitVec 4) (cnt strong : Bool) (o : Ord) (sc : Scope) (scale : BitVec 2), (memMod aop cnt strong o sc scale).extractLsb' 2 2 = sc.code)
    ∧ (∀ (aop : BitVec 4) (cnt strong : Bool) (o : Ord) (sc : Scope) (scale : BitVec 2), (memMod aop cnt strong o sc scale).extractLsb' 0 2 = scale)
    ∧ (∀ (f : CmdFlags) (scrI tr : Bool), (cmdMod f scrI tr).getLsbD 10 = f.scrD)
    ∧ (∀ (f : CmdFlags) (scrI tr : Bool), (cmdMod f scrI tr).getLsbD 9 = f.scrS)
    ∧ (∀ (f : CmdFlags) (scrI tr : Bool), (cmdMod f scrI tr).getLsbD 8 = scrI)
    ∧ (∀ (f : CmdFlags) (scrI tr : Bool), (cmdMod f scrI tr).getLsbD 7 = tr)
    ∧ (∀ (f : CmdFlags) (scrI tr : Bool), (cmdMod f scrI tr).extractLsb' 4 2 = f.ord.code)
    ∧ (∀ (f : CmdFlags) (scrI tr : Bool), (cmdMod f scrI tr).extractLsb' 2 2 = f.scope.code)
    ∧ (∀ (sty : BitVec 5) (sat : Bool) (rm : Rm) (cond : BitVec 3), (vMod sty sat rm cond).extractLsb' 6 5 = sty)
    ∧ (∀ (sty : BitVec 5) (sat : Bool) (rm : Rm) (cond : BitVec 3), (vMod sty sat rm cond).getLsbD 5 = sat)
    ∧ (∀ (sty : BitVec 5) (sat : Bool) (rm : Rm) (cond : BitVec 3), (vMod sty sat rm cond).extractLsb' 3 2 = rm.code)
    ∧ (∀ (sty : BitVec 5) (sat : Bool) (rm : Rm) (cond : BitVec 3), (vMod sty sat rm cond).extractLsb' 0 3 = cond)
    ∧ (∀ (o : Ord) (sc : Scope), (ordMod o sc).extractLsb' 4 2 = o.code)
    ∧ (∀ (o : Ord) (sc : Scope), (ordMod o sc).extractLsb' 2 2 = sc.code)
    ∧ (∀ (pr : Bool) (c : BitVec 3), (0#8 ++ (BitVec.ofBool pr ++ c) : BitVec 12).getLsbD 3 = pr)
    ∧ (∀ (pr : Bool) (c : BitVec 3), (0#8 ++ (BitVec.ofBool pr ++ c) : BitVec 12).extractLsb' 0 3 = c)
    ∧ (∀ (pr nz : Bool), (0#8 ++ (BitVec.ofBool pr ++ (0#2 ++ BitVec.ofBool nz)) : BitVec 12).getLsbD 3 = pr)
    ∧ (∀ (pr nz : Bool), (0#8 ++ (BitVec.ofBool pr ++ (0#2 ++ BitVec.ofBool nz)) : BitVec 12).getLsbD 0 = nz)
    ∧ (∀ (dev : Bool) (kind : BitVec 2), (0#7 ++ (BitVec.ofBool dev ++ (0#2 ++ kind)) : BitVec 12).getLsbD 4 = dev)
    ∧ (∀ (dev : Bool) (kind : BitVec 2), (0#7 ++ (BitVec.ofBool dev ++ (0#2 ++ kind)) : BitVec 12).extractLsb' 0 2 = kind)
    ∧ (∀ (dev : Bool), (0#7 ++ (BitVec.ofBool dev ++ 0#4) : BitVec 12).getLsbD 4 = dev)
    ∧ (∀ (c : BitVec 3), (0#9 ++ c : BitVec 12).extractLsb' 0 3 = c)
    ∧ (∀ (c : BitVec 2), (0#10 ++ c : BitVec 12).extractLsb' 0 2 = c)
    ∧ (∀ (hi : BitVec 10) (c : BitVec 2), (hi ++ c : BitVec 12).extractLsb' 2 10 = hi)
    ∧ (∀ (hi : BitVec 10) (c : BitVec 2), (hi ++ c : BitVec 12).extractLsb' 0 2 = c)
    ∧ (∀ (ft : BitVec 3), (0#7 ++ (ft ++ 0#2) : BitVec 12).extractLsb' 2 3 = ft)
    ∧ (∀ (op : BitVec 3) (c : BitVec 2), ((0#7 ++ op) ++ c : BitVec 12).extractLsb' 0 2 = c)
    ∧ (∀ (m : BitVec 7) (x g : Bool) (op : BitVec 3), (m ++ (BitVec.ofBool x ++ (BitVec.ofBool g ++ op)) : BitVec 12).extractLsb' 5 7 = m)
    ∧ (∀ (m : BitVec 7) (x g : Bool) (op : BitVec 3), (m ++ (BitVec.ofBool x ++ (BitVec.ofBool g ++ op)) : BitVec 12).getLsbD 4 = x)
    ∧ (∀ (m : BitVec 7) (x g : Bool) (op : BitVec 3), (m ++ (BitVec.ofBool x ++ (BitVec.ofBool g ++ op)) : BitVec 12).getLsbD 3 = g)
    ∧ (∀ (m : BitVec 7) (x g : Bool) (op : BitVec 3), (m ++ (BitVec.ofBool x ++ (BitVec.ofBool g ++ op)) : BitVec 12).extractLsb' 0 3 = op)
    ∧ (∀ (m : BitVec 7) (x : Bool) (sc : BitVec 2), (m ++ (BitVec.ofBool x ++ (sc ++ 0#2)) : BitVec 12).extractLsb' 5 7 = m)
    ∧ (∀ (m : BitVec 7) (x : Bool) (sc : BitVec 2), (m ++ (BitVec.ofBool x ++ (sc ++ 0#2)) : BitVec 12).getLsbD 4 = x)
    ∧ (∀ (m : BitVec 7) (x : Bool) (sc : BitVec 2), (m ++ (BitVec.ofBool x ++ (sc ++ 0#2)) : BitVec 12).extractLsb' 2 2 = sc)
    ∧ (∀ (r d arv : Bool) (n : BitVec 7), (0#2 ++ (BitVec.ofBool r ++ (BitVec.ofBool d ++ (BitVec.ofBool arv ++ n))) : BitVec 12).getLsbD 9 = r)
    ∧ (∀ (r d arv : Bool) (n : BitVec 7), (0#2 ++ (BitVec.ofBool r ++ (BitVec.ofBool d ++ (BitVec.ofBool arv ++ n))) : BitVec 12).getLsbD 8 = d)
    ∧ (∀ (r d arv : Bool) (n : BitVec 7), (0#2 ++ (BitVec.ofBool r ++ (BitVec.ofBool d ++ (BitVec.ofBool arv ++ n))) : BitVec 12).getLsbD 7 = arv)
    ∧ (∀ (r d arv : Bool) (n : BitVec 7), (0#2 ++ (BitVec.ofBool r ++ (BitVec.ofBool d ++ (BitVec.ofBool arv ++ n))) : BitVec 12).extractLsb' 0 7 = n)
    ∧ (∀ (vh : Bool) (k sc : BitVec 2), (0#3 ++ (BitVec.ofBool vh ++ (0#2 ++ (k ++ (sc ++ 0#2)))) : BitVec 12).getLsbD 8 = vh)
    ∧ (∀ (vh : Bool) (k sc : BitVec 2), (0#3 ++ (BitVec.ofBool vh ++ (0#2 ++ (k ++ (sc ++ 0#2)))) : BitVec 12).extractLsb' 4 2 = k)
    ∧ (∀ (vh : Bool) (k sc : BitVec 2), (0#3 ++ (BitVec.ofBool vh ++ (0#2 ++ (k ++ (sc ++ 0#2)))) : BitVec 12).extractLsb' 2 2 = sc)
    ∧ (∀ (op : BitVec 3) (c : BitVec 2), ((0#7 ++ op) ++ c : BitVec 12).extractLsb' 2 3 = op)
    ∧ (∀ (ix : BitVec 7) (c : BitVec 2), ((ix ++ 0#3) ++ c : BitVec 12).extractLsb' 5 7 = ix) :=
  ⟨@termX_off, @termX_sig, @sOf_sCode, @vOf_vCode, @kOf_kCode, @fOf_fCode, @zOf_zCode, @mOf_mCode, @sCode_top, @vCode_top, @srcOf_sCode, @srcOf_vCode, @imm32_low, @c_low, @cc_low, @cc_high, @pos_low, @len_high, @two_low, @two_high, @idxOf_code, @dataOf_code, @Rm.ofCode_code, @Axis.ofCode_code, @Scope.ofCode_code, @Ord.ofCode_code, @Engine.ofCode_code, @Bank.ofCode_code, @Cond.ofCode_code, @RedOp.ofCode_code, @AtomOp.ofCode_code, @SysReg.ofCode_code, @Ty.ofCode_code, @sgn_code, @matMod_scr, @matMod_set, @matMod_tr, @matMod_tiles, @matMod_spec, @matMod_str, @memMod_aop, @memMod_cnt, @memMod_strong, @memMod_ord, @memMod_scope, @memMod_scale, @cmdMod_scrD, @cmdMod_scrS, @cmdMod_scrI, @cmdMod_tr, @cmdMod_ord, @cmdMod_scope, @vMod_sty, @vMod_sat, @vMod_rm, @vMod_cond, @ordMod_ord, @ordMod_scope, @mod_bru_pr, @mod_bru_cond, @mod_brz_pr, @mod_brz_nz, @mod_tlb_dev, @mod_tlb_kind, @mod_icinv_dev, @mod_scmp_cond, @mod_low2_low, @mod_comp_hi, @mod_comp_axis, @mod_refold_ft, @mod_pfold_axis, @mod_vote_m, @mod_vote_has, @mod_vote_grp, @mod_vote_op, @mod_gbar_m, @mod_gbar_has, @mod_gbar_scope, @mod_barn_rcv, @mod_barn_dlv, @mod_barn_arv, @mod_barn_count, @mod_fence_vh, @mod_fence_kind, @mod_fence_scope, @mod_pfold_op, @mod_pgath_ix⟩

/-- How the decoder names the fields, as one bundle of rewrite rules. -/
theorem field_defs :
    (∀ f : Fields, Fields.ds f = sOf f.d)
    ∧ (∀ f : Fields, Fields.as f = sOf f.a)
    ∧ (∀ f : Fields, Fields.bs f = sOf f.b)
    ∧ (∀ f : Fields, Fields.cs f = sOf (f.x.extractLsb' 0 8))
    ∧ (∀ f : Fields, Fields.pred f = ⟨f.neg, f.k⟩)
    ∧ (∀ f : Fields, Fields.imm f = f.x.extractLsb' 0 32)
    ∧ (∀ f : Fields, Fields.term f = if f.len = 2 then some (f.x.extractLsb' 40 24) else none)
    ∧ (∀ f : Fields, Fields.str f = f.mod.extractLsb' 0 2)
    ∧ (∀ f : Fields, Fields.ordF f = Ord.ofCode (f.mod.extractLsb' 4 2))
    ∧ (∀ f : Fields, Fields.scopeF f = Scope.ofCode (f.mod.extractLsb' 2 2))
    ∧ (∀ f : Fields, Fields.sgn f = decide (f.ty = 7))
    ∧ (∀ f : Fields, Fields.sb f = if f.major = 6 then .imm f.imm else .reg f.bs)
    ∧ (∀ f : Fields, Fields.rm f = Rm.ofCode (f.mod.extractLsb' 3 2))
    ∧ (∀ f : Fields, Fields.cond f = Cond.ofCode (f.mod.extractLsb' 0 3))
    ∧ (∀ f : Fields, Fields.axisF f = Axis.ofCode (f.mod.extractLsb' 0 2))
    ∧ (∀ f : Fields, Fields.disp f = if f.len = 1 then some f.imm else none)
    ∧ (∀ f : Fields, Fields.maddr f = ⟨f.as, idxOf f.b, f.mod.extractLsb' 0 2, f.disp⟩)
    ∧ (∀ f : Fields, Fields.maddr0 f = ⟨f.as, idxOf f.b, f.mod.extractLsb' 0 2, none⟩)
    ∧ (∀ f : Fields, Fields.mord f = ⟨f.ordF, f.scopeF, f.bit 6⟩)
    ∧ (∀ f : Fields, Fields.optVF f = if f.bit 4 then some (f.mod.extractLsb' 5 7) else none)
    ∧ (∀ f : Fields, Fields.aop f = AtomOp.ofCode (f.mod.extractLsb' 8 4))
    ∧ (∀ f : Fields, Fields.cmdfl f = ⟨f.ordF, f.scopeF, f.bit 10, f.bit 9⟩)
    ∧ (∀ (f : Fields) (n : Nat), f.bit n = f.mod.getLsbD n)
    ∧ (∀ (f : Fields) (n : Nat), f.redop n = RedOp.ofCode (f.mod.extractLsb' n 3))
    ∧ (∀ (f : Fields) (t : Ty), f.gather t = ⟨t, f.cmdfl, f.bit 8, f.ds, f.as, f.bs, f.cs⟩)
    ∧ (∀ (f : Fields) (t : Ty), f.pmove t = ⟨t, f.la, f.axisF, vOf f.d, vOf f.a, fOf f.b, f.imm⟩)
    ∧ (∀ (f : Fields) (t : Ty), f.pcomp t = ⟨t, f.la, f.axisF, vOf f.d, vOf f.a, fOf f.b⟩)
    ∧ (∀ (l : BitVec 2) (M m : BitVec 6), fl l M m = ⟨l, M, m, 0, 0, 0, 0, false, 0, 0, 0, 0⟩)
    ∧ (∀ l, termLen none l = l)
    ∧ (∀ s l, termLen (some s) l = 2) :=
  ⟨fun _ => rfl, fun _ => rfl, fun _ => rfl, fun _ => rfl, fun _ => rfl, fun _ => rfl, fun _ => rfl, fun _ => rfl, fun _ => rfl, fun _ => rfl, fun _ => rfl, fun _ => rfl, fun _ => rfl, fun _ => rfl, fun _ => rfl, fun _ => rfl, fun _ => rfl, fun _ => rfl, fun _ => rfl, fun _ => rfl, fun _ => rfl, fun _ => rfl, fun _ _ => rfl, fun _ _ => rfl, fun _ _ => rfl, fun _ _ => rfl, fun _ _ => rfl, fun _ _ _ => rfl, fun _ => rfl, fun _ _ => rfl⟩

end

/-! ### The candidate of each opcode (R136) -/

theorem at_00_00 (f : Fields) (t : Ty) : candidateAt f t 0 0 = some (.nop (match f.len.toNat with
      | 0 => .w64
      | 1 => .w96
      | _ => .w128 (f.x.extractLsb' 40 24))) := rfl
theorem at_01_00 (f : Fields) (t : Ty) : candidateAt f t 1 0 = some (.bra f.imm (f.bit 3) f.term) := rfl
theorem at_01_01 (f : Fields) (t : Ty) : candidateAt f t 1 1 = f.cond.map fun c => .bru c f.sgn f.as f.bs f.imm (f.bit 3) f.term := rfl
theorem at_01_02 (f : Fields) (t : Ty) : candidateAt f t 1 2 = some (.brz (f.bit 0) (kOf f.a) f.imm (f.bit 3) f.term) := rfl
theorem at_01_03 (f : Fields) (t : Ty) : candidateAt f t 1 3 = some (.loop f.ds f.imm (f.bit 3) f.term) := rfl
theorem at_02_00 (f : Fields) (t : Ty) : candidateAt f t 2 0 = some (.call f.ds f.b (if f.a.getLsbD 7 then .reg f.as else .off f.imm) f.term) := rfl
theorem at_02_01 (f : Fields) (t : Ty) : candidateAt f t 2 1 = some (.ret f.as f.term) := rfl
theorem at_02_02 (f : Fields) (t : Ty) : candidateAt f t 2 2 = some (.split (kOf f.a) f.imm f.term) := rfl
theorem at_02_03 (f : Fields) (t : Ty) : candidateAt f t 2 3 = some (.join f.imm f.term) := rfl
theorem at_02_04 (f : Fields) (t : Ty) : candidateAt f t 2 4 = some (.exit f.term) := rfl
theorem at_02_05 (f : Fields) (t : Ty) : candidateAt f t 2 5 = some (.yield f.term) := rfl
theorem at_03_00 (f : Fields) (t : Ty) : candidateAt f t 3 0 = some (.trap f.b f.term) := rfl
theorem at_03_01 (f : Fields) (t : Ty) : candidateAt f t 3 1 = some (.trapret (if f.a.getLsbD 7 then some f.as else none) f.term) := rfl
theorem at_03_02 (f : Fields) (t : Ty) : candidateAt f t 3 2 = some (.halt f.term) := rfl
theorem at_03_08 (f : Fields) (t : Ty) : candidateAt f t 3 8 = (SysReg.ofCode f.mod).map fun r =>
      .sread (if f.d.getLsbD 7 then .sca f.ds else .vec (vOf f.d)) r f.pred := rfl
theorem at_03_09 (f : Fields) (t : Ty) : candidateAt f t 3 9 = (SysReg.ofCode f.mod).map fun r => match r with
      | .bankmode => .swriteBankmode f.as
      | .colways => .swriteColways f.as
      | .versionbudget => .swriteVersionbudget f.as
      | r => .swrite r f.as := rfl
theorem at_03_10 (f : Fields) (t : Ty) : candidateAt f t 3 16 = some (.tlbinv (f.bit 4) f.str f.as f.bs) := rfl
theorem at_03_11 (f : Fields) (t : Ty) : candidateAt f t 3 17 = some (.icinv (f.bit 4) f.as f.bs) := rfl
theorem at_04_00 (f : Fields) (t : Ty) : candidateAt f t 4 0 = some (.kmov (kOf f.d) (kOf f.a)) := rfl
theorem at_04_01 (f : Fields) (t : Ty) : candidateAt f t 4 1 = some (.kand (kOf f.d) (kOf f.a) (kOf f.b)) := rfl
theorem at_04_02 (f : Fields) (t : Ty) : candidateAt f t 4 2 = some (.kor (kOf f.d) (kOf f.a) (kOf f.b)) := rfl
theorem at_04_03 (f : Fields) (t : Ty) : candidateAt f t 4 3 = some (.kxor (kOf f.d) (kOf f.a) (kOf f.b)) := rfl
theorem at_04_04 (f : Fields) (t : Ty) : candidateAt f t 4 4 = some (.kandn (kOf f.d) (kOf f.a) (kOf f.b)) := rfl
theorem at_04_05 (f : Fields) (t : Ty) : candidateAt f t 4 5 = some (.knot (kOf f.d) (kOf f.a)) := rfl
theorem at_04_06 (f : Fields) (t : Ty) : candidateAt f t 4 6 = some (.kpop f.ds (kOf f.a)) := rfl
theorem at_04_07 (f : Fields) (t : Ty) : candidateAt f t 4 7 = some (.kfirst f.ds (kOf f.a)) := rfl
theorem at_04_08 (f : Fields) (t : Ty) : candidateAt f t 4 8 = some (.kset (kOf f.d) f.imm) := rfl
theorem at_04_09 (f : Fields) (t : Ty) : candidateAt f t 4 9 = some (.kget f.ds (kOf f.a) f.b) := rfl
theorem at_04_0a (f : Fields) (t : Ty) : candidateAt f t 4 10 = some (.ksave f.ds (kOf f.a)) := rfl
theorem at_04_0b (f : Fields) (t : Ty) : candidateAt f t 4 11 = some (.krest (kOf f.d) f.as) := rfl
theorem at_04_0c (f : Fields) (t : Ty) : candidateAt f t 4 12 = some (.setexec (vOf f.a)) := rfl
theorem at_07_00 (f : Fields) (t : Ty) : candidateAt f t 7 0 = some (.sli f.ds f.x) := rfl
theorem at_08_00 (f : Fields) (t : Ty) : candidateAt f t 8 0 = some (.vadd (f.vbin t)) := rfl
theorem at_08_01 (f : Fields) (t : Ty) : candidateAt f t 8 1 = some (.vsub (f.vbin t)) := rfl
theorem at_08_02 (f : Fields) (t : Ty) : candidateAt f t 8 2 = some (.vmul (f.vbin t)) := rfl
theorem at_08_03 (f : Fields) (t : Ty) : candidateAt f t 8 3 = some (.vmulh (f.vbin t)) := rfl
theorem at_08_04 (f : Fields) (t : Ty) : candidateAt f t 8 4 = some (.vmad (f.vtri t)) := rfl
theorem at_08_05 (f : Fields) (t : Ty) : candidateAt f t 8 5 = some (.vaddc f.vcarry) := rfl
theorem at_08_06 (f : Fields) (t : Ty) : candidateAt f t 8 6 = some (.vsubb f.vcarry) := rfl
theorem at_08_07 (f : Fields) (t : Ty) : candidateAt f t 8 7 = some (.vmin (f.vbin t)) := rfl
theorem at_08_08 (f : Fields) (t : Ty) : candidateAt f t 8 8 = some (.vmax (f.vbin t)) := rfl
theorem at_08_09 (f : Fields) (t : Ty) : candidateAt f t 8 9 = some (.vabs (f.vun t)) := rfl
theorem at_08_0a (f : Fields) (t : Ty) : candidateAt f t 8 10 = some (.vneg (f.vun t)) := rfl
theorem at_08_0b (f : Fields) (t : Ty) : candidateAt f t 8 11 = some (.vsat (f.vbin t)) := rfl
theorem at_08_0c (f : Fields) (t : Ty) : candidateAt f t 8 12 = some (.vdot4 (f.vtri t)) := rfl
theorem at_08_0d (f : Fields) (t : Ty) : candidateAt f t 8 13 = some (.vclz (f.vun t)) := rfl
theorem at_08_0e (f : Fields) (t : Ty) : candidateAt f t 8 14 = some (.vpopc (f.vun t)) := rfl
theorem at_09_00 (f : Fields) (t : Ty) : candidateAt f t 9 0 = some (.vand (f.vbin t)) := rfl
theorem at_09_01 (f : Fields) (t : Ty) : candidateAt f t 9 1 = some (.vor (f.vbin t)) := rfl
theorem at_09_02 (f : Fields) (t : Ty) : candidateAt f t 9 2 = some (.vxor (f.vbin t)) := rfl
theorem at_09_03 (f : Fields) (t : Ty) : candidateAt f t 9 3 = some (.vnot (f.vun t)) := rfl
theorem at_09_04 (f : Fields) (t : Ty) : candidateAt f t 9 4 = some (.vshl (f.vbin t)) := rfl
theorem at_09_05 (f : Fields) (t : Ty) : candidateAt f t 9 5 = some (.vshr (f.vbin t)) := rfl
theorem at_09_06 (f : Fields) (t : Ty) : candidateAt f t 9 6 = some (.vsra (f.vbin t)) := rfl
theorem at_09_07 (f : Fields) (t : Ty) : candidateAt f t 9 7 = some (.vbfx (f.vfield t)) := rfl
theorem at_09_08 (f : Fields) (t : Ty) : candidateAt f t 9 8 = some (.vbfi (f.vfield t)) := rfl
theorem at_0a_00 (f : Fields) (t : Ty) : candidateAt f t 10 0 = some (.vsel f.pred t (vOf f.d) (srcOf f.a) (srcOf f.b) (kOf (f.x.extractLsb' 0 8))) := rfl
theorem at_0a_01 (f : Fields) (t : Ty) : candidateAt f t 10 1 = f.cond.map fun c => .vcmp (f.vcmpF t c) := rfl
theorem at_0a_02 (f : Fields) (t : Ty) : candidateAt f t 10 2 = some (.vmov (f.vun t)) := rfl
theorem at_0a_03 (f : Fields) (t : Ty) : candidateAt f t 10 3 = some (.vli f.pred (vOf f.d) f.imm) := rfl
theorem at_0a_04 (f : Fields) (t : Ty) : candidateAt f t 10 4 = some (.vmovs t f.ds (srcOf f.a) f.b) := rfl
theorem at_0c_00 (f : Fields) (t : Ty) : candidateAt f t 12 0 = some (.fadd (f.vbin t)) := rfl
theorem at_0c_01 (f : Fields) (t : Ty) : candidateAt f t 12 1 = some (.fsub (f.vbin t)) := rfl
theorem at_0c_02 (f : Fields) (t : Ty) : candidateAt f t 12 2 = some (.fmul (f.vbin t)) := rfl
theorem at_0c_03 (f : Fields) (t : Ty) : candidateAt f t 12 3 = some (.ffma (f.vtri t)) := rfl
theorem at_0c_04 (f : Fields) (t : Ty) : candidateAt f t 12 4 = some (.fmin (f.vbin t)) := rfl
theorem at_0c_05 (f : Fields) (t : Ty) : candidateAt f t 12 5 = some (.fmax (f.vbin t)) := rfl
theorem at_0d_00 (f : Fields) (t : Ty) : candidateAt f t 13 0 = some (.fabs (f.vun t)) := rfl
theorem at_0d_01 (f : Fields) (t : Ty) : candidateAt f t 13 1 = some (.fneg (f.vun t)) := rfl
theorem at_0d_02 (f : Fields) (t : Ty) : candidateAt f t 13 2 = some (.fclass (f.vun t)) := rfl
theorem at_0d_03 (f : Fields) (t : Ty) : candidateAt f t 13 3 = some (.ffloor (f.vun t)) := rfl
theorem at_0d_04 (f : Fields) (t : Ty) : candidateAt f t 13 4 = some (.frint (f.vun t)) := rfl
theorem at_0d_05 (f : Fields) (t : Ty) : candidateAt f t 13 5 = some (.fscale (f.vbin t)) := rfl
theorem at_0e_00 (f : Fields) (t : Ty) : candidateAt f t 14 0 = f.cond.map fun c => .fcmp (f.vcmpF t c) := rfl
theorem at_10_00 (f : Fields) (t : Ty) : candidateAt f t 16 0 = (Ty.ofCode (f.mod.extractLsb' 6 5)).map fun sy => .cvt f.pred t sy (f.bit 5) (vOf f.d) (srcOf f.a) := rfl
theorem at_10_01 (f : Fields) (t : Ty) : candidateAt f t 16 1 = some (.pack t (vOf f.d) (srcOf f.a) f.b) := rfl
theorem at_10_02 (f : Fields) (t : Ty) : candidateAt f t 16 2 = some (.unpack t (vOf f.d) (srcOf f.a) f.b) := rfl
theorem at_10_03 (f : Fields) (t : Ty) : candidateAt f t 16 3 = some (.ctag t f.ds (srcOf f.a)) := rfl
theorem at_11_00 (f : Fields) (t : Ty) : candidateAt f t 17 0 = some (.fdiv (f.vbin t)) := rfl
theorem at_11_01 (f : Fields) (t : Ty) : candidateAt f t 17 1 = some (.fsqrt (f.vun t)) := rfl
theorem at_11_02 (f : Fields) (t : Ty) : candidateAt f t 17 2 = some (.frcp (f.vun t)) := rfl
theorem at_11_03 (f : Fields) (t : Ty) : candidateAt f t 17 3 = some (.frsq (f.vun t)) := rfl
theorem at_11_04 (f : Fields) (t : Ty) : candidateAt f t 17 4 = some (.fexp2 (f.vun t)) := rfl
theorem at_11_05 (f : Fields) (t : Ty) : candidateAt f t 17 5 = some (.flog2 (f.vun t)) := rfl
theorem at_12_00 (f : Fields) (t : Ty) : candidateAt f t 18 0 = some (.foldset (fOf f.d) f.imm) := rfl
theorem at_12_01 (f : Fields) (t : Ty) : candidateAt f t 18 1 = some (.refold t f.la (vOf f.d) (vOf f.a) (fOf f.b) (f.mod.extractLsb' 2 3)) := rfl
theorem at_12_02 (f : Fields) (t : Ty) : candidateAt f t 18 2 = some (.pshift (f.pmove t)) := rfl
theorem at_12_03 (f : Fields) (t : Ty) : candidateAt f t 18 3 = some (.prot (f.pmove t)) := rfl
theorem at_12_04 (f : Fields) (t : Ty) : candidateAt f t 18 4 = some (.pspread (f.pcomp t)) := rfl
theorem at_12_05 (f : Fields) (t : Ty) : candidateAt f t 18 5 = (f.redop 2).map fun op => .pfold (f.pcomp t) op := rfl
theorem at_12_06 (f : Fields) (t : Ty) : candidateAt f t 18 6 = (f.redop 2).map fun op => .pscan (f.pcomp t) op (f.mod.extractLsb' 5 4) := rfl
theorem at_12_07 (f : Fields) (t : Ty) : candidateAt f t 18 7 = some (.pgath (f.pcomp t) (f.mod.extractLsb' 5 7)) := rfl
theorem at_12_08 (f : Fields) (t : Ty) : candidateAt f t 18 8 = some (.ptrans t f.la (vOf f.d) (vOf f.a) (fOf f.b)) := rfl
theorem at_14_00 (f : Fields) (t : Ty) : candidateAt f t 20 0 = (f.redop 0).map fun op =>
      .vote f.pred op t f.ds (srcOf f.a) f.optVF (if f.bit 3 then some f.b else none) := rfl
theorem at_14_01 (f : Fields) (t : Ty) : candidateAt f t 20 1 = some (.regroup f.ds f.b) := rfl
theorem at_15_00 (f : Fields) (t : Ty) : candidateAt f t 21 0 = some (.ld f.pred f.la t f.mord (vOf f.d) f.maddr) := rfl
theorem at_15_01 (f : Fields) (t : Ty) : candidateAt f t 21 1 = if f.bit 7 then some (.stCnt f.pred t f.ordF f.scopeF f.maddr0 (dataOf f.d) f.cs)
      else some (.st f.pred t f.mord f.maddr (dataOf f.d)) := rfl
theorem at_15_02 (f : Fields) (t : Ty) : candidateAt f t 21 2 = some (.ldc f.la t f.mord f.ds f.maddr) := rfl
theorem at_15_03 (f : Fields) (t : Ty) : candidateAt f t 21 3 = some (.pref f.pred f.maddr) := rfl
theorem at_16_00 (f : Fields) (t : Ty) : candidateAt f t 22 0 = some (.lds f.pred f.la t (vOf f.d) f.maddr) := rfl
theorem at_16_01 (f : Fields) (t : Ty) : candidateAt f t 22 1 = some (.sts f.pred t f.maddr (dataOf f.d)) := rfl
theorem at_16_02 (f : Fields) (t : Ty) : candidateAt f t 22 2 = some (.pld f.la t (vOf f.d) f.as f.disp (fOf f.b)) := rfl
theorem at_16_03 (f : Fields) (t : Ty) : candidateAt f t 22 3 = some (.pst t f.as f.disp (vOf f.d) (fOf f.b)) := rfl
theorem at_18_00 (f : Fields) (t : Ty) : candidateAt f t 24 0 = f.aop.map fun op => .atom f.pred f.la op t f.ordF f.scopeF f.maddr0 f.aform := rfl
theorem at_18_01 (f : Fields) (t : Ty) : candidateAt f t 24 1 = f.aop.map fun op => .atoms f.pred f.la op t f.maddr0 f.aform := rfl
theorem at_19_00 (f : Fields) (t : Ty) : candidateAt f t 25 0 = some (.fence f.ordF f.scopeF (f.bit 8)) := rfl
theorem at_1a_00 (f : Fields) (t : Ty) : candidateAt f t 26 0 = some (.mmap f.str (mOf f.d) f.imm) := rfl
theorem at_1a_01 (f : Fields) (t : Ty) : candidateAt f t 26 1 = some (.mldb f.str (f.bit 10) f.ds f.as f.bs f.imm) := rfl
theorem at_1a_02 (f : Fields) (t : Ty) : candidateAt f t 26 2 = some (.mzero f.str (f.bit 2) (zOf f.d)) := rfl
theorem at_1a_03 (f : Fields) (t : Ty) : candidateAt f t 26 3 = some (.mldz f.str (f.bit 2) (f.bit 7) (zOf f.d) f.as f.imm) := rfl
theorem at_1a_04 (f : Fields) (t : Ty) : candidateAt f t 26 4 = some (.mstz f.str (f.bit 7) t f.as f.imm (zOf f.d)) := rfl
theorem at_1b_00 (f : Fields) (t : Ty) : candidateAt f t 27 0 = some (.mma f.str (f.bit 2) t (zOf f.d) (mOf f.a) (mOf f.b) f.imm) := rfl
theorem at_1b_01 (f : Fields) (t : Ty) : candidateAt f t 27 1 = some (.mscale f.str (f.bit 2) t (zOf f.d) (zOf f.a) f.imm (f.x.extractLsb' 32 32)) := rfl
theorem at_1c_00 (f : Fields) (t : Ty) : candidateAt f t 28 0 = some (.mcommit f.str (zOf f.d) (f.mod.extractLsb' 3 4)) := rfl
theorem at_1c_01 (f : Fields) (t : Ty) : candidateAt f t 28 1 = some (.mdiscard f.str (zOf f.d) (f.mod.extractLsb' 3 4)) := rfl
theorem at_1e_00 (f : Fields) (t : Ty) : candidateAt f t 30 0 = some (.mcnt f.str t (Bank.ofCode f.d) (mOf f.a) (mOf f.b) f.imm (f.mod.extractLsb' 8 2)) := rfl
theorem at_1e_01 (f : Fields) (t : Ty) : candidateAt f t 30 1 = some (.mmerge f.str (Bank.ofCode f.a)) := rfl
theorem at_1e_02 (f : Fields) (t : Ty) : candidateAt f t 30 2 = some (.mdrain f.str (f.mod.extractLsb' 8 2) (Bank.ofCode f.a)
      (if f.bit 10 then .scratch f.ds f.imm else .tile (zOf f.d))) := rfl
theorem at_1f_00 (f : Fields) (t : Ty) : candidateAt f t 31 0 = some (.cpy f.cmdfl (if f.len = 1 then .linear f.ds f.as f.imm else .tensor f.ds f.as f.cs (f.bit 7))) := rfl
theorem at_1f_01 (f : Fields) (t : Ty) : candidateAt f t 31 1 = some (.gath (f.gather t)) := rfl
theorem at_1f_02 (f : Fields) (t : Ty) : candidateAt f t 31 2 = some (.scat (f.gather t)) := rfl
theorem at_1f_03 (f : Fields) (t : Ty) : candidateAt f t 31 3 = some (.cpyq f.ds f.b) := rfl
theorem at_20_00 (f : Fields) (t : Ty) : candidateAt f t 32 0 = some .bar := rfl
theorem at_20_01 (f : Fields) (t : Ty) : candidateAt f t 32 1 = some (.barn (f.bit 7) (if f.bit 9 then some f.ds else none) f.b (f.mod.extractLsb' 0 7)
      (if f.bit 8 then some f.as else none)) := rfl
theorem at_20_02 (f : Fields) (t : Ty) : candidateAt f t 32 2 = some (.gbar f.scopeF f.b f.optVF) := rfl
theorem at_20_03 (f : Fields) (t : Ty) : candidateAt f t 32 3 = some (.boinit f.scopeF f.as f.imm) := rfl
theorem at_20_04 (f : Fields) (t : Ty) : candidateAt f t 32 4 = some (.boarr f.ordF f.scopeF f.as f.b) := rfl
theorem at_20_05 (f : Fields) (t : Ty) : candidateAt f t 32 5 = some (.bowait f.ordF f.scopeF f.as f.bs f.imm) := rfl
theorem at_21_00 (f : Fields) (t : Ty) : candidateAt f t 33 0 = some (.xsend (f.bit 9) f.ds f.as f.bs f.imm) := rfl
theorem at_21_01 (f : Fields) (t : Ty) : candidateAt f t 33 1 = some (.xpost (f.bit 10) f.ds f.as f.bs f.imm) := rfl
theorem at_21_02 (f : Fields) (t : Ty) : candidateAt f t 33 2 = some (.xprobe (f.bit 7) f.ds f.as) := rfl
theorem at_21_03 (f : Fields) (t : Ty) : candidateAt f t 33 3 = some (.xcancel f.ds f.as) := rfl
theorem at_22_00 (f : Fields) (t : Ty) : candidateAt f t 34 0 = some (.coll f.ordF f.scopeF f.as f.bs f.imm) := rfl
theorem at_22_01 (f : Fields) (t : Ty) : candidateAt f t 34 1 = some (.waitchunk f.ordF f.scopeF f.as f.imm) := rfl
theorem at_23_00 (f : Fields) (t : Ty) : candidateAt f t 35 0 = some (.launch f.ds f.as f.bs) := rfl
theorem at_23_01 (f : Fields) (t : Ty) : candidateAt f t 35 1 = some (.qpush f.ds f.as f.bs) := rfl
theorem at_23_02 (f : Fields) (t : Ty) : candidateAt f t 35 2 = some (.qpop f.ds f.as f.bs) := rfl
theorem at_24_00 (f : Fields) (t : Ty) : candidateAt f t 36 0 = some (.fork (Engine.ofCode f.str) f.ds f.imm) := rfl
theorem at_24_01 (f : Fields) (t : Ty) : candidateAt f t 36 1 = some (.rdv f.as) := rfl
theorem at_25_00 (f : Fields) (t : Ty) : candidateAt f t 37 0 = some (.ctxkill f.ds f.as) := rfl
theorem at_25_01 (f : Fields) (t : Ty) : candidateAt f t 37 1 = some (.ctxstart f.ds f.as f.bs) := rfl
theorem at_25_02 (f : Fields) (t : Ty) : candidateAt f t 37 2 = some (.reclaim f.ds f.as) := rfl
theorem at_26_00 (f : Fields) (t : Ty) : candidateAt f t 38 0 = some (.patch f.ds f.as) := rfl
theorem at_s_00 (f : Fields) : candidateS f 0 = some (.sadd f.ds f.as f.sb) := rfl
theorem at_s_01 (f : Fields) : candidateS f 1 = some (.ssub f.ds f.as f.sb) := rfl
theorem at_s_02 (f : Fields) : candidateS f 2 = some (.smul f.ds f.as f.sb) := rfl
theorem at_s_03 (f : Fields) : candidateS f 3 = some (.smulh f.sgn f.ds f.as f.sb) := rfl
theorem at_s_04 (f : Fields) : candidateS f 4 = some (.smad f.ds f.as f.bs f.cs) := rfl
theorem at_s_05 (f : Fields) : candidateS f 5 = some (.sdiv f.sgn f.ds f.as f.sb) := rfl
theorem at_s_06 (f : Fields) : candidateS f 6 = some (.srem f.sgn f.ds f.as f.sb) := rfl
theorem at_s_07 (f : Fields) : candidateS f 7 = some (.sand f.ds f.as f.sb) := rfl
theorem at_s_08 (f : Fields) : candidateS f 8 = some (.sor f.ds f.as f.sb) := rfl
theorem at_s_09 (f : Fields) : candidateS f 9 = some (.sxor f.ds f.as f.sb) := rfl
theorem at_s_0a (f : Fields) : candidateS f 10 = some (.sshl f.ds f.as f.sb) := rfl
theorem at_s_0b (f : Fields) : candidateS f 11 = some (.sshr f.ds f.as f.sb) := rfl
theorem at_s_0c (f : Fields) : candidateS f 12 = some (.ssra f.ds f.as f.sb) := rfl
theorem at_s_0d (f : Fields) : candidateS f 13 = some (.smin f.sgn f.ds f.as f.sb) := rfl
theorem at_s_0e (f : Fields) : candidateS f 14 = some (.smax f.sgn f.ds f.as f.sb) := rfl
theorem at_s_0f (f : Fields) : candidateS f 15 = f.cond.map fun c => .scmp c f.sgn f.ds f.as f.sb := rfl
theorem at_s_10 (f : Fields) : candidateS f 16 = some (.ssel f.ds f.as f.bs f.cs) := rfl
theorem at_s_11 (f : Fields) : candidateS f 17 = some (.smov f.ds f.as) := rfl
theorem at_s_12 (f : Fields) : candidateS f 18 = some (.sbfx f.sgn f.ds f.as (f.x.extractLsb' 0 6) (f.x.extractLsb' 6 7)) := rfl
theorem at_s_13 (f : Fields) : candidateS f 19 = some (.spopc f.ds f.as) := rfl
theorem at_s_14 (f : Fields) : candidateS f 20 = some (.sclz f.ds f.as) := rfl
theorem at_s_15 (f : Fields) : candidateS f 21 = some (.saddr f.ds f.as f.bs f.str f.imm) := rfl

/-! ### Decoding what was encoded -/

/-- The candidate of majors other than 0x05 and 0x06. -/
theorem candidate_at {f : Fields} {t : Ty} (h5 : f.major ≠ 5) (h6 : f.major ≠ 6) (ht : Ty.ofCode f.ty = some t) :
    candidate f = candidateAt f t f.major.toNat f.minor.toNat := by
  simp only [candidate, h5, h6, or_self, if_false, ht, Option.bind_some]

/-- A well-formed instruction whose fields read back as itself is decoded from its word (R137). -/
theorem decode_encode {i : Instr} (hw : i.wf = true) (h1 : (fieldsOf i).len ≠ 3)
    (h2 : isReserved (fieldsOf i).major.toNat (fieldsOf i).minor.toNat = false) (h3 : candidate (fieldsOf i) = some i) :
    decode (encode i) = .ok i := by
  rw [decode, encode, ofWord_toWord]
  simp only [if_neg h1, h2, h3, hw, Bool.false_eq_true, if_false, decide_true, Bool.and_self, if_true]

end Sys2Proof
end

