-- ==== Sys2Proof/Laws/Tables.lean ====
section
/-! SUPPORT. Laws of the sparse tables: a read after a write, a removal or a change of an entry, and that each keeps the
canonical form (keys strictly rising, the default never listed), so that equal contents are equal data. -/

namespace Sys2Proof.Machine

variable {α : Type}

/-! ### A read after a write -/

theorem tget_tset (t : Tbl α) (i j : Nat) (x : α) : tget (tset t i x) j = if i = j then some x else tget t j := by
  induction t with
  | nil => simp [tset, tget]
  | cons e t ih =>
    obtain ⟨k, v⟩ := e
    simp only [tset]
    split
    · simp [tget]
    · split
      · next h => subst h; simp only [tget]; split <;> rfl
      · next h => simp only [tget, ih]; split
                  · next hk => subst hk; rw [if_neg (Ne.symm h)]
                  · rfl

theorem tget_tdel (t : Tbl α) (i j : Nat) : tget (tdel t i) j = if i = j then none else tget t j := by
  induction t with
  | nil => simp [tdel, tget]
  | cons e t ih =>
    obtain ⟨k, v⟩ := e
    simp only [tdel]
    split
    · next h => subst h; rw [ih]; simp only [tget]; split <;> simp_all
    · next h => simp only [tget, ih]; split
                · next hk => subst hk; rw [if_neg (Ne.symm h)]
                · rfl

theorem tget_tmod (t : Tbl α) (i j : Nat) (f : α → α) : tget (tmod t i f) j = if i = j then (tget t j).map f else tget t j := by
  induction t with
  | nil => simp [tmod, tget]
  | cons e t ih =>
    obtain ⟨k, v⟩ := e
    simp only [tmod]
    split
    · next h => subst h; simp only [tget]; split <;> simp_all
    · next h => simp only [tget, ih]; split
                · next hk => subst hk; rw [if_neg (Ne.symm h)]
                · rfl

theorem tget_tmapv (t : Tbl α) (j : Nat) (f : α → α) : tget (tmapv t f) j = (tget t j).map f := by
  induction t with
  | nil => rfl
  | cons e t ih =>
    obtain ⟨k, v⟩ := e
    simp only [tmapv, tget, ih]; split <;> rfl

@[simp] theorem tget_tset_same (t : Tbl α) (i : Nat) (x : α) : tget (tset t i x) i = some x := by simp [tget_tset]
@[simp] theorem tget_tmod_same (t : Tbl α) (i : Nat) (f : α → α) : tget (tmod t i f) i = (tget t i).map f := by simp [tget_tmod]
theorem tget_tset_other {t : Tbl α} {i j : Nat} (h : j ≠ i) (x : α) : tget (tset t i x) j = tget t j := by
  rw [tget_tset, if_neg (Ne.symm h)]
theorem tget_tmod_other {t : Tbl α} {i j : Nat} (h : j ≠ i) (f : α → α) : tget (tmod t i f) j = tget t j := by
  rw [tget_tmod, if_neg (Ne.symm h)]

theorem cget_cset [DecidableEq α] (d : α) (t : Tbl α) (i j : Nat) (x : α) :
    cget d (cset d t i x) j = if i = j then x else cget d t j := by
  unfold cget cset
  split
  · next h => rw [tget_tdel]; split <;> simp_all
  · rw [tget_tset]; split <;> rfl
@[simp] theorem cget_cset_same [DecidableEq α] (d : α) (t : Tbl α) (i : Nat) (x : α) : cget d (cset d t i x) i = x := by
  rw [cget_cset, if_pos rfl]
theorem cget_cset_other [DecidableEq α] {d : α} {t : Tbl α} {i j : Nat} (h : j ≠ i) (x : α) :
    cget d (cset d t i x) j = cget d t j := by rw [cget_cset, if_neg (Ne.symm h)]

/-- Two writes of one entry are the last. -/
theorem tset_tset (t : Tbl α) (i : Nat) (x y : α) : tset (tset t i x) i y = tset t i y := by
  induction t with
  | nil => simp [tset]
  | cons e t ih =>
    obtain ⟨k, v⟩ := e
    by_cases h : i < k
    · simp [tset, h]
    · by_cases h2 : k = i
      · simp [tset, h2]
      · simp [tset, h, h2, ih]

/-- Two changes of one entry are one. -/
theorem tmod_tmod (t : Tbl α) (i : Nat) (f g : α → α) : tmod (tmod t i f) i g = tmod t i (fun x => g (f x)) := by
  induction t with
  | nil => rfl
  | cons e t ih =>
    obtain ⟨k, v⟩ := e
    by_cases h : k = i
    · simp [tmod, h]
    · simp [tmod, h, ih]

/-- A change of one entry depends only on what it makes of that entry. -/
theorem tmod_congr {t : Tbl α} {i : Nat} {f g : α → α} (h : ∀ x, tget t i = some x → f x = g x) : tmod t i f = tmod t i g := by
  induction t with
  | nil => rfl
  | cons e t ih =>
    obtain ⟨k, v⟩ := e
    by_cases hk : k = i
    · simp only [tmod, hk, if_true]; rw [h v (by simp [tget, hk])]
    · simp only [tmod, hk, if_false]; rw [ih fun x hx => h x (by simp only [tget, hk, if_false]; exact hx)]

/-! ### The canonical form -/

theorem trising_mono {lo hi : Nat} (h : lo ≤ hi) : ∀ {t : Tbl α}, trising hi t = true → trising lo t = true
  | [], _ => rfl
  | (k, _) :: _, ht => by
    simp only [trising, Bool.and_eq_true, decide_eq_true_eq] at *
    exact ⟨by omega, ht.2⟩

theorem trising_tset {t : Tbl α} {lo i : Nat} {x : α} (hi : lo < i) (h : trising lo t = true) : trising lo (tset t i x) = true := by
  induction t generalizing lo with
  | nil => simpa [tset, trising] using hi
  | cons e t ih =>
    obtain ⟨k, v⟩ := e
    simp only [trising, Bool.and_eq_true, decide_eq_true_eq] at h
    simp only [tset]
    split
    · next hk => simp only [trising, Bool.and_eq_true, decide_eq_true_eq]; exact ⟨hi, hk, h.2⟩
    · split
      · next hk => subst hk; simp only [trising, Bool.and_eq_true, decide_eq_true_eq]; exact ⟨hi, h.2⟩
      · simp only [trising, Bool.and_eq_true, decide_eq_true_eq]; exact ⟨h.1, ih (by omega) h.2⟩

theorem trising_tdel {t : Tbl α} {lo i : Nat} (h : trising lo t = true) : trising lo (tdel t i) = true := by
  induction t generalizing lo with
  | nil => rfl
  | cons e t ih =>
    obtain ⟨k, v⟩ := e
    simp only [trising, Bool.and_eq_true, decide_eq_true_eq] at h
    simp only [tdel]
    split
    · exact ih (trising_mono (by omega) h.2)
    · simp only [trising, Bool.and_eq_true, decide_eq_true_eq]; exact ⟨h.1, ih h.2⟩

theorem twf_of_trising {t : Tbl α} {lo : Nat} (h : trising lo t = true) : twf t = true := by
  cases t with
  | nil => rfl
  | cons e t => simp only [trising, Bool.and_eq_true] at h; exact h.2

theorem twf_tset {t : Tbl α} (i : Nat) (x : α) (h : twf t = true) : twf (tset t i x) = true := by
  cases t with
  | nil => rfl
  | cons e t =>
    obtain ⟨k, v⟩ := e
    simp only [twf] at h
    simp only [tset]
    split
    · next hk => simp only [twf, trising, Bool.and_eq_true, decide_eq_true_eq]; exact ⟨hk, h⟩
    · split
      · next hk => subst hk; exact h
      · simp only [twf]; exact trising_tset (by omega) h

theorem twf_tdel {t : Tbl α} (i : Nat) (h : twf t = true) : twf (tdel t i) = true := by
  induction t with
  | nil => rfl
  | cons e t ih =>
    obtain ⟨k, v⟩ := e
    simp only [twf] at h
    simp only [tdel]
    split
    · exact ih (twf_of_trising h)
    · simp only [twf]; exact trising_tdel h

theorem mem_tset {t : Tbl α} {i : Nat} {x : α} {e : Nat × α} (h : e ∈ tset t i x) : e ∈ t ∨ e = (i, x) := by
  induction t with
  | nil => simp only [tset, List.mem_singleton] at h; exact .inr h
  | cons a t ih =>
    obtain ⟨k, v⟩ := a
    simp only [tset] at h
    split at h
    · rcases List.mem_cons.1 h with h | h
      · exact .inr h
      · exact .inl h
    · split at h
      · rcases List.mem_cons.1 h with h | h
        · exact .inr h
        · exact .inl (List.mem_cons_of_mem _ h)
      · rcases List.mem_cons.1 h with h | h
        · exact .inl (h ▸ List.mem_cons_self ..)
        · exact (ih h).imp (List.mem_cons_of_mem _) id

theorem mem_tdel {t : Tbl α} {i : Nat} {e : Nat × α} (h : e ∈ tdel t i) : e ∈ t := by
  induction t with
  | nil => exact h
  | cons a t ih =>
    obtain ⟨k, v⟩ := a
    simp only [tdel] at h
    split at h
    · exact List.mem_cons_of_mem _ (ih h)
    · simp only [List.mem_cons] at h ⊢
      exact h.imp id ih

theorem mem_of_tget {t : Tbl α} {n : Nat} {x : α} (h : tget t n = some x) : (n, x) ∈ t := by
  induction t with
  | nil => cases h
  | cons e r ih =>
    unfold tget at h
    split at h
    · rename_i hn
      cases h
      exact hn ▸ List.mem_cons_self
    · exact List.mem_cons_of_mem _ (ih h)

/-- A write keeps the canonical form: writing the default removes the entry. -/
theorem cwf_cset [DecidableEq α] {d : α} {t : Tbl α} (i : Nat) (x : α) (h : cwf d t = true) : cwf d (cset d t i x) = true := by
  simp only [cwf, Bool.and_eq_true, List.all_eq_true, decide_eq_true_eq] at *
  unfold cset
  split
  · exact ⟨twf_tdel i h.1, fun e he => h.2 e (mem_tdel he)⟩
  · next hx =>
    refine ⟨twf_tset i x h.1, fun e he => ?_⟩
    rcases mem_tset he with he | he
    · exact h.2 e he
    · subst he; exact hx

/-- So does a list of writes. -/
theorem cwf_foldl [DecidableEq α] {β : Type} {d : α} (l : List β) (key : β → Nat) (val : β → α) {t : Tbl α} (h : cwf d t = true) :
    cwf d (l.foldl (fun m e => cset d m (key e) (val e)) t) = true := by
  induction l generalizing t with
  | nil => exact h
  | cons b l ih => exact ih (cwf_cset _ _ h)

/-- So does every removal of entries. -/
theorem trising_filter {t : Tbl α} {lo : Nat} (p : Nat × α → Bool) (h : trising lo t = true) : trising lo (t.filter p) = true := by
  induction t generalizing lo with
  | nil => rfl
  | cons e t ih =>
    obtain ⟨k, v⟩ := e
    simp only [trising, Bool.and_eq_true, decide_eq_true_eq] at h
    simp only [List.filter]
    split
    · simp only [trising, Bool.and_eq_true, decide_eq_true_eq]; exact ⟨h.1, ih h.2⟩
    · exact ih (trising_mono (by omega) h.2)
theorem twf_filter {t : Tbl α} (p : Nat × α → Bool) (h : twf t = true) : twf (t.filter p) = true := by
  induction t with
  | nil => rfl
  | cons e t ih =>
    obtain ⟨k, v⟩ := e
    simp only [twf] at h
    simp only [List.filter]
    split
    · simp only [twf]; exact trising_filter p h
    · exact ih (twf_of_trising h)
theorem cwf_filter [DecidableEq α] {d : α} {t : Tbl α} (p : Nat × α → Bool) (h : cwf d t = true) : cwf d (t.filter p) = true := by
  simp only [cwf, Bool.and_eq_true, List.all_eq_true, decide_eq_true_eq] at *
  exact ⟨twf_filter p h.1, fun e he => h.2 e ((List.mem_filter.1 he).1)⟩

/-- Canonical tables with the same contents are the same data. -/
theorem tget_of_trising {t : Tbl α} {lo i : Nat} (h : trising lo t = true) (hi : i ≤ lo) : tget t i = none := by
  induction t generalizing lo with
  | nil => rfl
  | cons e t ih =>
    obtain ⟨k, v⟩ := e
    simp only [trising, Bool.and_eq_true, decide_eq_true_eq] at h
    simp only [tget]
    rw [if_neg (by omega), ih h.2 (by omega)]

end Sys2Proof.Machine
end

