-- ==== Sys2Proof/Laws/State.lean ====
section
/-! SUPPORT. What each update of the state leaves as it was, one lemma a field, and what the lookups of blocks, waves, slots,
streams, cores, contexts and registers read after each update. -/

namespace Sys2Proof.Machine

section
set_option Elab.async false

/-! `setCore` -/

@[simp] theorem State.setCore_clock (s : State) (c : Nat) (x : Core) : (s.setCore c x).clock = s.clock := rfl
@[simp] theorem State.setCore_agenda (s : State) (c : Nat) (x : Core) : (s.setCore c x).agenda = s.agenda := rfl
@[simp] theorem State.setCore_queue (s : State) (c : Nat) (x : Core) : (s.setCore c x).queue = s.queue := rfl
@[simp] theorem State.setCore_freeIx (s : State) (c : Nat) (x : Core) : (s.setCore c x).freeIx = s.freeIx := rfl
@[simp] theorem State.setCore_cur (s : State) (c : Nat) (x : Core) : (s.setCore c x).cur = s.cur := rfl
@[simp] theorem State.setCore_ir (s : State) (c : Nat) (x : Core) : (s.setCore c x).ir = s.ir := rfl
@[simp] theorem State.setCore_blocks (s : State) (c : Nat) (x : Core) : (s.setCore c x).blocks = s.blocks := rfl
@[simp] theorem State.setCore_dram (s : State) (c : Nat) (x : Core) : (s.setCore c x).dram = s.dram := rfl
@[simp] theorem State.setCore_lines (s : State) (c : Nat) (x : Core) : (s.setCore c x).lines = s.lines := rfl
@[simp] theorem State.setCore_xlat (s : State) (c : Nat) (x : Core) : (s.setCore c x).xlat = s.xlat := rfl
@[simp] theorem State.setCore_vaultBad (s : State) (c : Nat) (x : Core) : (s.setCore c x).vaultBad = s.vaultBad := rfl
@[simp] theorem State.setCore_poison (s : State) (c : Nat) (x : Core) : (s.setCore c x).poison = s.poison := rfl
@[simp] theorem State.setCore_hostMem (s : State) (c : Nat) (x : Core) : (s.setCore c x).hostMem = s.hostMem := rfl
@[simp] theorem State.setCore_ctxs (s : State) (c : Nat) (x : Core) : (s.setCore c x).ctxs = s.ctxs := rfl
@[simp] theorem State.setCore_ready (s : State) (c : Nat) (x : Core) : (s.setCore c x).ready = s.ready := rfl
@[simp] theorem State.setCore_fallow (s : State) (c : Nat) (x : Core) : (s.setCore c x).fallow = s.fallow := rfl
@[simp] theorem State.setCore_errs (s : State) (c : Nat) (x : Core) : (s.setCore c x).errs = s.errs := rfl
@[simp] theorem State.setCore_spareCores (s : State) (c : Nat) (x : Core) : (s.setCore c x).spareCores = s.spareCores := rfl
@[simp] theorem State.setCore_spareSlices (s : State) (c : Nat) (x : Core) : (s.setCore c x).spareSlices = s.spareSlices := rfl
@[simp] theorem State.setCore_quits (s : State) (c : Nat) (x : Core) : (s.setCore c x).quits = s.quits := rfl
@[simp] theorem State.setCore_replaceFlag (s : State) (c : Nat) (x : Core) : (s.setCore c x).replaceFlag = s.replaceFlag := rfl
@[simp] theorem State.setCore_thermtrip (s : State) (c : Nat) (x : Core) : (s.setCore c x).thermtrip = s.thermtrip := rfl
@[simp] theorem State.setCore_stopped (s : State) (c : Nat) (x : Core) : (s.setCore c x).stopped = s.stopped := rfl
@[simp] theorem State.setCore_staleDrop (s : State) (c : Nat) (x : Core) : (s.setCore c x).staleDrop = s.staleDrop := rfl
@[simp] theorem State.setCore_nodeId (s : State) (c : Nat) (x : Core) : (s.setCore c x).nodeId = s.nodeId := rfl
@[simp] theorem State.setCore_faults (s : State) (c : Nat) (x : Core) : (s.setCore c x).faults = s.faults := rfl
@[simp] theorem State.setCore_faultSeq (s : State) (c : Nat) (x : Core) : (s.setCore c x).faultSeq = s.faultSeq := rfl
@[simp] theorem State.setCore_faultq (s : State) (c : Nat) (x : Core) : (s.setCore c x).faultq = s.faultq := rfl
@[simp] theorem State.setCore_kernels (s : State) (c : Nat) (x : Core) : (s.setCore c x).kernels = s.kernels := rfl
@[simp] theorem State.setCore_kcounts (s : State) (c : Nat) (x : Core) : (s.setCore c x).kcounts = s.kcounts := rfl
@[simp] theorem State.setCore_failed (s : State) (c : Nat) (x : Core) : (s.setCore c x).failed = s.failed := rfl
@[simp] theorem State.setCore_grids (s : State) (c : Nat) (x : Core) : (s.setCore c x).grids = s.grids := rfl
@[simp] theorem State.setCore_gridSeq (s : State) (c : Nat) (x : Core) : (s.setCore c x).gridSeq = s.gridSeq := rfl
@[simp] theorem State.setCore_tobind (s : State) (c : Nat) (x : Core) : (s.setCore c x).tobind = s.tobind := rfl
@[simp] theorem State.setCore_saves (s : State) (c : Nat) (x : Core) : (s.setCore c x).saves = s.saves := rfl
@[simp] theorem State.setCore_arrivals (s : State) (c : Nat) (x : Core) : (s.setCore c x).arrivals = s.arrivals := rfl
@[simp] theorem State.setCore_cmds (s : State) (c : Nat) (x : Core) : (s.setCore c x).cmds = s.cmds := rfl
@[simp] theorem State.setCore_sends (s : State) (c : Nat) (x : Core) : (s.setCore c x).sends = s.sends := rfl
@[simp] theorem State.setCore_msgs (s : State) (c : Nat) (x : Core) : (s.setCore c x).msgs = s.msgs := rfl
@[simp] theorem State.setCore_waiters (s : State) (c : Nat) (x : Core) : (s.setCore c x).waiters = s.waiters := rfl
@[simp] theorem State.setCore_patches (s : State) (c : Nat) (x : Core) : (s.setCore c x).patches = s.patches := rfl
@[simp] theorem State.setCore_cnts (s : State) (c : Nat) (x : Core) : (s.setCore c x).cnts = s.cnts := rfl
@[simp] theorem State.setCore_colls (s : State) (c : Nat) (x : Core) : (s.setCore c x).colls = s.colls := rfl
@[simp] theorem State.setCore_contribs (s : State) (c : Nat) (x : Core) : (s.setCore c x).contribs = s.contribs := rfl
@[simp] theorem State.setCore_collDone (s : State) (c : Nat) (x : Core) : (s.setCore c x).collDone = s.collDone := rfl
@[simp] theorem State.setCore_collTags (s : State) (c : Nat) (x : Core) : (s.setCore c x).collTags = s.collTags := rfl
@[simp] theorem State.setCore_collDead (s : State) (c : Nat) (x : Core) : (s.setCore c x).collDead = s.collDead := rfl
@[simp] theorem State.setCore_lazies (s : State) (c : Nat) (x : Core) : (s.setCore c x).lazies = s.lazies := rfl
@[simp] theorem State.setCore_tiles (s : State) (c : Nat) (x : Core) : (s.setCore c x).tiles = s.tiles := rfl
@[simp] theorem State.setCore_ports (s : State) (c : Nat) (x : Core) : (s.setCore c x).ports = s.ports := rfl
@[simp] theorem State.setCore_routes (s : State) (c : Nat) (x : Core) : (s.setCore c x).routes = s.routes := rfl
@[simp] theorem State.setCore_peersInc (s : State) (c : Nat) (x : Core) : (s.setCore c x).peersInc = s.peersInc := rfl
@[simp] theorem State.setCore_links (s : State) (c : Nat) (x : Core) : (s.setCore c x).links = s.links := rfl
@[simp] theorem State.setCore_heldReqs (s : State) (c : Nat) (x : Core) : (s.setCore c x).heldReqs = s.heldReqs := rfl
@[simp] theorem State.setCore_hostHeld (s : State) (c : Nat) (x : Core) : (s.setCore c x).hostHeld = s.hostHeld := rfl
@[simp] theorem State.setCore_hostReply (s : State) (c : Nat) (x : Core) : (s.setCore c x).hostReply = s.hostReply := rfl
@[simp] theorem State.setCore_nextId (s : State) (c : Nat) (x : Core) : (s.setCore c x).nextId = s.nextId := rfl
@[simp] theorem State.setCore_fw (s : State) (c : Nat) (x : Core) : (s.setCore c x).fw = s.fw := rfl

/-! `modCore` -/

@[simp] theorem State.modCore_clock (s : State) (c : Nat) (f : Core → Core) : (s.modCore c f).clock = s.clock := rfl
@[simp] theorem State.modCore_agenda (s : State) (c : Nat) (f : Core → Core) : (s.modCore c f).agenda = s.agenda := rfl
@[simp] theorem State.modCore_queue (s : State) (c : Nat) (f : Core → Core) : (s.modCore c f).queue = s.queue := rfl
@[simp] theorem State.modCore_freeIx (s : State) (c : Nat) (f : Core → Core) : (s.modCore c f).freeIx = s.freeIx := rfl
@[simp] theorem State.modCore_cur (s : State) (c : Nat) (f : Core → Core) : (s.modCore c f).cur = s.cur := rfl
@[simp] theorem State.modCore_ir (s : State) (c : Nat) (f : Core → Core) : (s.modCore c f).ir = s.ir := rfl
@[simp] theorem State.modCore_blocks (s : State) (c : Nat) (f : Core → Core) : (s.modCore c f).blocks = s.blocks := rfl
@[simp] theorem State.modCore_dram (s : State) (c : Nat) (f : Core → Core) : (s.modCore c f).dram = s.dram := rfl
@[simp] theorem State.modCore_lines (s : State) (c : Nat) (f : Core → Core) : (s.modCore c f).lines = s.lines := rfl
@[simp] theorem State.modCore_xlat (s : State) (c : Nat) (f : Core → Core) : (s.modCore c f).xlat = s.xlat := rfl
@[simp] theorem State.modCore_vaultBad (s : State) (c : Nat) (f : Core → Core) : (s.modCore c f).vaultBad = s.vaultBad := rfl
@[simp] theorem State.modCore_poison (s : State) (c : Nat) (f : Core → Core) : (s.modCore c f).poison = s.poison := rfl
@[simp] theorem State.modCore_hostMem (s : State) (c : Nat) (f : Core → Core) : (s.modCore c f).hostMem = s.hostMem := rfl
@[simp] theorem State.modCore_ctxs (s : State) (c : Nat) (f : Core → Core) : (s.modCore c f).ctxs = s.ctxs := rfl
@[simp] theorem State.modCore_ready (s : State) (c : Nat) (f : Core → Core) : (s.modCore c f).ready = s.ready := rfl
@[simp] theorem State.modCore_fallow (s : State) (c : Nat) (f : Core → Core) : (s.modCore c f).fallow = s.fallow := rfl
@[simp] theorem State.modCore_errs (s : State) (c : Nat) (f : Core → Core) : (s.modCore c f).errs = s.errs := rfl
@[simp] theorem State.modCore_spareCores (s : State) (c : Nat) (f : Core → Core) : (s.modCore c f).spareCores = s.spareCores := rfl
@[simp] theorem State.modCore_spareSlices (s : State) (c : Nat) (f : Core → Core) : (s.modCore c f).spareSlices = s.spareSlices := rfl
@[simp] theorem State.modCore_quits (s : State) (c : Nat) (f : Core → Core) : (s.modCore c f).quits = s.quits := rfl
@[simp] theorem State.modCore_replaceFlag (s : State) (c : Nat) (f : Core → Core) : (s.modCore c f).replaceFlag = s.replaceFlag := rfl
@[simp] theorem State.modCore_thermtrip (s : State) (c : Nat) (f : Core → Core) : (s.modCore c f).thermtrip = s.thermtrip := rfl
@[simp] theorem State.modCore_stopped (s : State) (c : Nat) (f : Core → Core) : (s.modCore c f).stopped = s.stopped := rfl
@[simp] theorem State.modCore_staleDrop (s : State) (c : Nat) (f : Core → Core) : (s.modCore c f).staleDrop = s.staleDrop := rfl
@[simp] theorem State.modCore_nodeId (s : State) (c : Nat) (f : Core → Core) : (s.modCore c f).nodeId = s.nodeId := rfl
@[simp] theorem State.modCore_faults (s : State) (c : Nat) (f : Core → Core) : (s.modCore c f).faults = s.faults := rfl
@[simp] theorem State.modCore_faultSeq (s : State) (c : Nat) (f : Core → Core) : (s.modCore c f).faultSeq = s.faultSeq := rfl
@[simp] theorem State.modCore_faultq (s : State) (c : Nat) (f : Core → Core) : (s.modCore c f).faultq = s.faultq := rfl
@[simp] theorem State.modCore_kernels (s : State) (c : Nat) (f : Core → Core) : (s.modCore c f).kernels = s.kernels := rfl
@[simp] theorem State.modCore_kcounts (s : State) (c : Nat) (f : Core → Core) : (s.modCore c f).kcounts = s.kcounts := rfl
@[simp] theorem State.modCore_failed (s : State) (c : Nat) (f : Core → Core) : (s.modCore c f).failed = s.failed := rfl
@[simp] theorem State.modCore_grids (s : State) (c : Nat) (f : Core → Core) : (s.modCore c f).grids = s.grids := rfl
@[simp] theorem State.modCore_gridSeq (s : State) (c : Nat) (f : Core → Core) : (s.modCore c f).gridSeq = s.gridSeq := rfl
@[simp] theorem State.modCore_tobind (s : State) (c : Nat) (f : Core → Core) : (s.modCore c f).tobind = s.tobind := rfl
@[simp] theorem State.modCore_saves (s : State) (c : Nat) (f : Core → Core) : (s.modCore c f).saves = s.saves := rfl
@[simp] theorem State.modCore_arrivals (s : State) (c : Nat) (f : Core → Core) : (s.modCore c f).arrivals = s.arrivals := rfl
@[simp] theorem State.modCore_cmds (s : State) (c : Nat) (f : Core → Core) : (s.modCore c f).cmds = s.cmds := rfl
@[simp] theorem State.modCore_sends (s : State) (c : Nat) (f : Core → Core) : (s.modCore c f).sends = s.sends := rfl
@[simp] theorem State.modCore_msgs (s : State) (c : Nat) (f : Core → Core) : (s.modCore c f).msgs = s.msgs := rfl
@[simp] theorem State.modCore_waiters (s : State) (c : Nat) (f : Core → Core) : (s.modCore c f).waiters = s.waiters := rfl
@[simp] theorem State.modCore_patches (s : State) (c : Nat) (f : Core → Core) : (s.modCore c f).patches = s.patches := rfl
@[simp] theorem State.modCore_cnts (s : State) (c : Nat) (f : Core → Core) : (s.modCore c f).cnts = s.cnts := rfl
@[simp] theorem State.modCore_colls (s : State) (c : Nat) (f : Core → Core) : (s.modCore c f).colls = s.colls := rfl
@[simp] theorem State.modCore_contribs (s : State) (c : Nat) (f : Core → Core) : (s.modCore c f).contribs = s.contribs := rfl
@[simp] theorem State.modCore_collDone (s : State) (c : Nat) (f : Core → Core) : (s.modCore c f).collDone = s.collDone := rfl
@[simp] theorem State.modCore_collTags (s : State) (c : Nat) (f : Core → Core) : (s.modCore c f).collTags = s.collTags := rfl
@[simp] theorem State.modCore_collDead (s : State) (c : Nat) (f : Core → Core) : (s.modCore c f).collDead = s.collDead := rfl
@[simp] theorem State.modCore_lazies (s : State) (c : Nat) (f : Core → Core) : (s.modCore c f).lazies = s.lazies := rfl
@[simp] theorem State.modCore_tiles (s : State) (c : Nat) (f : Core → Core) : (s.modCore c f).tiles = s.tiles := rfl
@[simp] theorem State.modCore_ports (s : State) (c : Nat) (f : Core → Core) : (s.modCore c f).ports = s.ports := rfl
@[simp] theorem State.modCore_routes (s : State) (c : Nat) (f : Core → Core) : (s.modCore c f).routes = s.routes := rfl
@[simp] theorem State.modCore_peersInc (s : State) (c : Nat) (f : Core → Core) : (s.modCore c f).peersInc = s.peersInc := rfl
@[simp] theorem State.modCore_links (s : State) (c : Nat) (f : Core → Core) : (s.modCore c f).links = s.links := rfl
@[simp] theorem State.modCore_heldReqs (s : State) (c : Nat) (f : Core → Core) : (s.modCore c f).heldReqs = s.heldReqs := rfl
@[simp] theorem State.modCore_hostHeld (s : State) (c : Nat) (f : Core → Core) : (s.modCore c f).hostHeld = s.hostHeld := rfl
@[simp] theorem State.modCore_hostReply (s : State) (c : Nat) (f : Core → Core) : (s.modCore c f).hostReply = s.hostReply := rfl
@[simp] theorem State.modCore_nextId (s : State) (c : Nat) (f : Core → Core) : (s.modCore c f).nextId = s.nextId := rfl
@[simp] theorem State.modCore_fw (s : State) (c : Nat) (f : Core → Core) : (s.modCore c f).fw = s.fw := rfl

/-! `setBlk` -/

@[simp] theorem State.setBlk_clock (s : State) (i : Nat) (x : Block) : (s.setBlk i x).clock = s.clock := rfl
@[simp] theorem State.setBlk_agenda (s : State) (i : Nat) (x : Block) : (s.setBlk i x).agenda = s.agenda := rfl
@[simp] theorem State.setBlk_queue (s : State) (i : Nat) (x : Block) : (s.setBlk i x).queue = s.queue := rfl
@[simp] theorem State.setBlk_freeIx (s : State) (i : Nat) (x : Block) : (s.setBlk i x).freeIx = s.freeIx := rfl
@[simp] theorem State.setBlk_cur (s : State) (i : Nat) (x : Block) : (s.setBlk i x).cur = s.cur := rfl
@[simp] theorem State.setBlk_ir (s : State) (i : Nat) (x : Block) : (s.setBlk i x).ir = s.ir := rfl
@[simp] theorem State.setBlk_cores (s : State) (i : Nat) (x : Block) : (s.setBlk i x).cores = s.cores := rfl
@[simp] theorem State.setBlk_dram (s : State) (i : Nat) (x : Block) : (s.setBlk i x).dram = s.dram := rfl
@[simp] theorem State.setBlk_lines (s : State) (i : Nat) (x : Block) : (s.setBlk i x).lines = s.lines := rfl
@[simp] theorem State.setBlk_xlat (s : State) (i : Nat) (x : Block) : (s.setBlk i x).xlat = s.xlat := rfl
@[simp] theorem State.setBlk_vaultBad (s : State) (i : Nat) (x : Block) : (s.setBlk i x).vaultBad = s.vaultBad := rfl
@[simp] theorem State.setBlk_poison (s : State) (i : Nat) (x : Block) : (s.setBlk i x).poison = s.poison := rfl
@[simp] theorem State.setBlk_hostMem (s : State) (i : Nat) (x : Block) : (s.setBlk i x).hostMem = s.hostMem := rfl
@[simp] theorem State.setBlk_ctxs (s : State) (i : Nat) (x : Block) : (s.setBlk i x).ctxs = s.ctxs := rfl
@[simp] theorem State.setBlk_ready (s : State) (i : Nat) (x : Block) : (s.setBlk i x).ready = s.ready := rfl
@[simp] theorem State.setBlk_fallow (s : State) (i : Nat) (x : Block) : (s.setBlk i x).fallow = s.fallow := rfl
@[simp] theorem State.setBlk_errs (s : State) (i : Nat) (x : Block) : (s.setBlk i x).errs = s.errs := rfl
@[simp] theorem State.setBlk_spareCores (s : State) (i : Nat) (x : Block) : (s.setBlk i x).spareCores = s.spareCores := rfl
@[simp] theorem State.setBlk_spareSlices (s : State) (i : Nat) (x : Block) : (s.setBlk i x).spareSlices = s.spareSlices := rfl
@[simp] theorem State.setBlk_quits (s : State) (i : Nat) (x : Block) : (s.setBlk i x).quits = s.quits := rfl
@[simp] theorem State.setBlk_replaceFlag (s : State) (i : Nat) (x : Block) : (s.setBlk i x).replaceFlag = s.replaceFlag := rfl
@[simp] theorem State.setBlk_thermtrip (s : State) (i : Nat) (x : Block) : (s.setBlk i x).thermtrip = s.thermtrip := rfl
@[simp] theorem State.setBlk_stopped (s : State) (i : Nat) (x : Block) : (s.setBlk i x).stopped = s.stopped := rfl
@[simp] theorem State.setBlk_staleDrop (s : State) (i : Nat) (x : Block) : (s.setBlk i x).staleDrop = s.staleDrop := rfl
@[simp] theorem State.setBlk_nodeId (s : State) (i : Nat) (x : Block) : (s.setBlk i x).nodeId = s.nodeId := rfl
@[simp] theorem State.setBlk_faults (s : State) (i : Nat) (x : Block) : (s.setBlk i x).faults = s.faults := rfl
@[simp] theorem State.setBlk_faultSeq (s : State) (i : Nat) (x : Block) : (s.setBlk i x).faultSeq = s.faultSeq := rfl
@[simp] theorem State.setBlk_faultq (s : State) (i : Nat) (x : Block) : (s.setBlk i x).faultq = s.faultq := rfl
@[simp] theorem State.setBlk_kernels (s : State) (i : Nat) (x : Block) : (s.setBlk i x).kernels = s.kernels := rfl
@[simp] theorem State.setBlk_kcounts (s : State) (i : Nat) (x : Block) : (s.setBlk i x).kcounts = s.kcounts := rfl
@[simp] theorem State.setBlk_failed (s : State) (i : Nat) (x : Block) : (s.setBlk i x).failed = s.failed := rfl
@[simp] theorem State.setBlk_grids (s : State) (i : Nat) (x : Block) : (s.setBlk i x).grids = s.grids := rfl
@[simp] theorem State.setBlk_gridSeq (s : State) (i : Nat) (x : Block) : (s.setBlk i x).gridSeq = s.gridSeq := rfl
@[simp] theorem State.setBlk_tobind (s : State) (i : Nat) (x : Block) : (s.setBlk i x).tobind = s.tobind := rfl
@[simp] theorem State.setBlk_saves (s : State) (i : Nat) (x : Block) : (s.setBlk i x).saves = s.saves := rfl
@[simp] theorem State.setBlk_arrivals (s : State) (i : Nat) (x : Block) : (s.setBlk i x).arrivals = s.arrivals := rfl
@[simp] theorem State.setBlk_cmds (s : State) (i : Nat) (x : Block) : (s.setBlk i x).cmds = s.cmds := rfl
@[simp] theorem State.setBlk_sends (s : State) (i : Nat) (x : Block) : (s.setBlk i x).sends = s.sends := rfl
@[simp] theorem State.setBlk_msgs (s : State) (i : Nat) (x : Block) : (s.setBlk i x).msgs = s.msgs := rfl
@[simp] theorem State.setBlk_waiters (s : State) (i : Nat) (x : Block) : (s.setBlk i x).waiters = s.waiters := rfl
@[simp] theorem State.setBlk_patches (s : State) (i : Nat) (x : Block) : (s.setBlk i x).patches = s.patches := rfl
@[simp] theorem State.setBlk_cnts (s : State) (i : Nat) (x : Block) : (s.setBlk i x).cnts = s.cnts := rfl
@[simp] theorem State.setBlk_colls (s : State) (i : Nat) (x : Block) : (s.setBlk i x).colls = s.colls := rfl
@[simp] theorem State.setBlk_contribs (s : State) (i : Nat) (x : Block) : (s.setBlk i x).contribs = s.contribs := rfl
@[simp] theorem State.setBlk_collDone (s : State) (i : Nat) (x : Block) : (s.setBlk i x).collDone = s.collDone := rfl
@[simp] theorem State.setBlk_collTags (s : State) (i : Nat) (x : Block) : (s.setBlk i x).collTags = s.collTags := rfl
@[simp] theorem State.setBlk_collDead (s : State) (i : Nat) (x : Block) : (s.setBlk i x).collDead = s.collDead := rfl
@[simp] theorem State.setBlk_lazies (s : State) (i : Nat) (x : Block) : (s.setBlk i x).lazies = s.lazies := rfl
@[simp] theorem State.setBlk_tiles (s : State) (i : Nat) (x : Block) : (s.setBlk i x).tiles = s.tiles := rfl
@[simp] theorem State.setBlk_ports (s : State) (i : Nat) (x : Block) : (s.setBlk i x).ports = s.ports := rfl
@[simp] theorem State.setBlk_routes (s : State) (i : Nat) (x : Block) : (s.setBlk i x).routes = s.routes := rfl
@[simp] theorem State.setBlk_peersInc (s : State) (i : Nat) (x : Block) : (s.setBlk i x).peersInc = s.peersInc := rfl
@[simp] theorem State.setBlk_links (s : State) (i : Nat) (x : Block) : (s.setBlk i x).links = s.links := rfl
@[simp] theorem State.setBlk_heldReqs (s : State) (i : Nat) (x : Block) : (s.setBlk i x).heldReqs = s.heldReqs := rfl
@[simp] theorem State.setBlk_hostHeld (s : State) (i : Nat) (x : Block) : (s.setBlk i x).hostHeld = s.hostHeld := rfl
@[simp] theorem State.setBlk_hostReply (s : State) (i : Nat) (x : Block) : (s.setBlk i x).hostReply = s.hostReply := rfl
@[simp] theorem State.setBlk_nextId (s : State) (i : Nat) (x : Block) : (s.setBlk i x).nextId = s.nextId := rfl
@[simp] theorem State.setBlk_fw (s : State) (i : Nat) (x : Block) : (s.setBlk i x).fw = s.fw := rfl

/-! `modBlk` -/

@[simp] theorem State.modBlk_clock (s : State) (i : Nat) (f : Block → Block) : (s.modBlk i f).clock = s.clock := rfl
@[simp] theorem State.modBlk_agenda (s : State) (i : Nat) (f : Block → Block) : (s.modBlk i f).agenda = s.agenda := rfl
@[simp] theorem State.modBlk_queue (s : State) (i : Nat) (f : Block → Block) : (s.modBlk i f).queue = s.queue := rfl
@[simp] theorem State.modBlk_freeIx (s : State) (i : Nat) (f : Block → Block) : (s.modBlk i f).freeIx = s.freeIx := rfl
@[simp] theorem State.modBlk_cur (s : State) (i : Nat) (f : Block → Block) : (s.modBlk i f).cur = s.cur := rfl
@[simp] theorem State.modBlk_ir (s : State) (i : Nat) (f : Block → Block) : (s.modBlk i f).ir = s.ir := rfl
@[simp] theorem State.modBlk_cores (s : State) (i : Nat) (f : Block → Block) : (s.modBlk i f).cores = s.cores := rfl
@[simp] theorem State.modBlk_dram (s : State) (i : Nat) (f : Block → Block) : (s.modBlk i f).dram = s.dram := rfl
@[simp] theorem State.modBlk_lines (s : State) (i : Nat) (f : Block → Block) : (s.modBlk i f).lines = s.lines := rfl
@[simp] theorem State.modBlk_xlat (s : State) (i : Nat) (f : Block → Block) : (s.modBlk i f).xlat = s.xlat := rfl
@[simp] theorem State.modBlk_vaultBad (s : State) (i : Nat) (f : Block → Block) : (s.modBlk i f).vaultBad = s.vaultBad := rfl
@[simp] theorem State.modBlk_poison (s : State) (i : Nat) (f : Block → Block) : (s.modBlk i f).poison = s.poison := rfl
@[simp] theorem State.modBlk_hostMem (s : State) (i : Nat) (f : Block → Block) : (s.modBlk i f).hostMem = s.hostMem := rfl
@[simp] theorem State.modBlk_ctxs (s : State) (i : Nat) (f : Block → Block) : (s.modBlk i f).ctxs = s.ctxs := rfl
@[simp] theorem State.modBlk_ready (s : State) (i : Nat) (f : Block → Block) : (s.modBlk i f).ready = s.ready := rfl
@[simp] theorem State.modBlk_fallow (s : State) (i : Nat) (f : Block → Block) : (s.modBlk i f).fallow = s.fallow := rfl
@[simp] theorem State.modBlk_errs (s : State) (i : Nat) (f : Block → Block) : (s.modBlk i f).errs = s.errs := rfl
@[simp] theorem State.modBlk_spareCores (s : State) (i : Nat) (f : Block → Block) : (s.modBlk i f).spareCores = s.spareCores := rfl
@[simp] theorem State.modBlk_spareSlices (s : State) (i : Nat) (f : Block → Block) : (s.modBlk i f).spareSlices = s.spareSlices := rfl
@[simp] theorem State.modBlk_quits (s : State) (i : Nat) (f : Block → Block) : (s.modBlk i f).quits = s.quits := rfl
@[simp] theorem State.modBlk_replaceFlag (s : State) (i : Nat) (f : Block → Block) : (s.modBlk i f).replaceFlag = s.replaceFlag := rfl
@[simp] theorem State.modBlk_thermtrip (s : State) (i : Nat) (f : Block → Block) : (s.modBlk i f).thermtrip = s.thermtrip := rfl
@[simp] theorem State.modBlk_stopped (s : State) (i : Nat) (f : Block → Block) : (s.modBlk i f).stopped = s.stopped := rfl
@[simp] theorem State.modBlk_staleDrop (s : State) (i : Nat) (f : Block → Block) : (s.modBlk i f).staleDrop = s.staleDrop := rfl
@[simp] theorem State.modBlk_nodeId (s : State) (i : Nat) (f : Block → Block) : (s.modBlk i f).nodeId = s.nodeId := rfl
@[simp] theorem State.modBlk_faults (s : State) (i : Nat) (f : Block → Block) : (s.modBlk i f).faults = s.faults := rfl
@[simp] theorem State.modBlk_faultSeq (s : State) (i : Nat) (f : Block → Block) : (s.modBlk i f).faultSeq = s.faultSeq := rfl
@[simp] theorem State.modBlk_faultq (s : State) (i : Nat) (f : Block → Block) : (s.modBlk i f).faultq = s.faultq := rfl
@[simp] theorem State.modBlk_kernels (s : State) (i : Nat) (f : Block → Block) : (s.modBlk i f).kernels = s.kernels := rfl
@[simp] theorem State.modBlk_kcounts (s : State) (i : Nat) (f : Block → Block) : (s.modBlk i f).kcounts = s.kcounts := rfl
@[simp] theorem State.modBlk_failed (s : State) (i : Nat) (f : Block → Block) : (s.modBlk i f).failed = s.failed := rfl
@[simp] theorem State.modBlk_grids (s : State) (i : Nat) (f : Block → Block) : (s.modBlk i f).grids = s.grids := rfl
@[simp] theorem State.modBlk_gridSeq (s : State) (i : Nat) (f : Block → Block) : (s.modBlk i f).gridSeq = s.gridSeq := rfl
@[simp] theorem State.modBlk_tobind (s : State) (i : Nat) (f : Block → Block) : (s.modBlk i f).tobind = s.tobind := rfl
@[simp] theorem State.modBlk_saves (s : State) (i : Nat) (f : Block → Block) : (s.modBlk i f).saves = s.saves := rfl
@[simp] theorem State.modBlk_arrivals (s : State) (i : Nat) (f : Block → Block) : (s.modBlk i f).arrivals = s.arrivals := rfl
@[simp] theorem State.modBlk_cmds (s : State) (i : Nat) (f : Block → Block) : (s.modBlk i f).cmds = s.cmds := rfl
@[simp] theorem State.modBlk_sends (s : State) (i : Nat) (f : Block → Block) : (s.modBlk i f).sends = s.sends := rfl
@[simp] theorem State.modBlk_msgs (s : State) (i : Nat) (f : Block → Block) : (s.modBlk i f).msgs = s.msgs := rfl
@[simp] theorem State.modBlk_waiters (s : State) (i : Nat) (f : Block → Block) : (s.modBlk i f).waiters = s.waiters := rfl
@[simp] theorem State.modBlk_patches (s : State) (i : Nat) (f : Block → Block) : (s.modBlk i f).patches = s.patches := rfl
@[simp] theorem State.modBlk_cnts (s : State) (i : Nat) (f : Block → Block) : (s.modBlk i f).cnts = s.cnts := rfl
@[simp] theorem State.modBlk_colls (s : State) (i : Nat) (f : Block → Block) : (s.modBlk i f).colls = s.colls := rfl
@[simp] theorem State.modBlk_contribs (s : State) (i : Nat) (f : Block → Block) : (s.modBlk i f).contribs = s.contribs := rfl
@[simp] theorem State.modBlk_collDone (s : State) (i : Nat) (f : Block → Block) : (s.modBlk i f).collDone = s.collDone := rfl
@[simp] theorem State.modBlk_collTags (s : State) (i : Nat) (f : Block → Block) : (s.modBlk i f).collTags = s.collTags := rfl
@[simp] theorem State.modBlk_collDead (s : State) (i : Nat) (f : Block → Block) : (s.modBlk i f).collDead = s.collDead := rfl
@[simp] theorem State.modBlk_lazies (s : State) (i : Nat) (f : Block → Block) : (s.modBlk i f).lazies = s.lazies := rfl
@[simp] theorem State.modBlk_tiles (s : State) (i : Nat) (f : Block → Block) : (s.modBlk i f).tiles = s.tiles := rfl
@[simp] theorem State.modBlk_ports (s : State) (i : Nat) (f : Block → Block) : (s.modBlk i f).ports = s.ports := rfl
@[simp] theorem State.modBlk_routes (s : State) (i : Nat) (f : Block → Block) : (s.modBlk i f).routes = s.routes := rfl
@[simp] theorem State.modBlk_peersInc (s : State) (i : Nat) (f : Block → Block) : (s.modBlk i f).peersInc = s.peersInc := rfl
@[simp] theorem State.modBlk_links (s : State) (i : Nat) (f : Block → Block) : (s.modBlk i f).links = s.links := rfl
@[simp] theorem State.modBlk_heldReqs (s : State) (i : Nat) (f : Block → Block) : (s.modBlk i f).heldReqs = s.heldReqs := rfl
@[simp] theorem State.modBlk_hostHeld (s : State) (i : Nat) (f : Block → Block) : (s.modBlk i f).hostHeld = s.hostHeld := rfl
@[simp] theorem State.modBlk_hostReply (s : State) (i : Nat) (f : Block → Block) : (s.modBlk i f).hostReply = s.hostReply := rfl
@[simp] theorem State.modBlk_nextId (s : State) (i : Nat) (f : Block → Block) : (s.modBlk i f).nextId = s.nextId := rfl
@[simp] theorem State.modBlk_fw (s : State) (i : Nat) (f : Block → Block) : (s.modBlk i f).fw = s.fw := rfl

/-! `modWave` -/

@[simp] theorem State.modWave_clock (s : State) (i w : Nat) (f : Wave → Wave) : (s.modWave i w f).clock = s.clock := rfl
@[simp] theorem State.modWave_agenda (s : State) (i w : Nat) (f : Wave → Wave) : (s.modWave i w f).agenda = s.agenda := rfl
@[simp] theorem State.modWave_queue (s : State) (i w : Nat) (f : Wave → Wave) : (s.modWave i w f).queue = s.queue := rfl
@[simp] theorem State.modWave_freeIx (s : State) (i w : Nat) (f : Wave → Wave) : (s.modWave i w f).freeIx = s.freeIx := rfl
@[simp] theorem State.modWave_cur (s : State) (i w : Nat) (f : Wave → Wave) : (s.modWave i w f).cur = s.cur := rfl
@[simp] theorem State.modWave_ir (s : State) (i w : Nat) (f : Wave → Wave) : (s.modWave i w f).ir = s.ir := rfl
@[simp] theorem State.modWave_cores (s : State) (i w : Nat) (f : Wave → Wave) : (s.modWave i w f).cores = s.cores := rfl
@[simp] theorem State.modWave_dram (s : State) (i w : Nat) (f : Wave → Wave) : (s.modWave i w f).dram = s.dram := rfl
@[simp] theorem State.modWave_lines (s : State) (i w : Nat) (f : Wave → Wave) : (s.modWave i w f).lines = s.lines := rfl
@[simp] theorem State.modWave_xlat (s : State) (i w : Nat) (f : Wave → Wave) : (s.modWave i w f).xlat = s.xlat := rfl
@[simp] theorem State.modWave_vaultBad (s : State) (i w : Nat) (f : Wave → Wave) : (s.modWave i w f).vaultBad = s.vaultBad := rfl
@[simp] theorem State.modWave_poison (s : State) (i w : Nat) (f : Wave → Wave) : (s.modWave i w f).poison = s.poison := rfl
@[simp] theorem State.modWave_hostMem (s : State) (i w : Nat) (f : Wave → Wave) : (s.modWave i w f).hostMem = s.hostMem := rfl
@[simp] theorem State.modWave_ctxs (s : State) (i w : Nat) (f : Wave → Wave) : (s.modWave i w f).ctxs = s.ctxs := rfl
@[simp] theorem State.modWave_ready (s : State) (i w : Nat) (f : Wave → Wave) : (s.modWave i w f).ready = s.ready := rfl
@[simp] theorem State.modWave_fallow (s : State) (i w : Nat) (f : Wave → Wave) : (s.modWave i w f).fallow = s.fallow := rfl
@[simp] theorem State.modWave_errs (s : State) (i w : Nat) (f : Wave → Wave) : (s.modWave i w f).errs = s.errs := rfl
@[simp] theorem State.modWave_spareCores (s : State) (i w : Nat) (f : Wave → Wave) : (s.modWave i w f).spareCores = s.spareCores := rfl
@[simp] theorem State.modWave_spareSlices (s : State) (i w : Nat) (f : Wave → Wave) : (s.modWave i w f).spareSlices = s.spareSlices := rfl
@[simp] theorem State.modWave_quits (s : State) (i w : Nat) (f : Wave → Wave) : (s.modWave i w f).quits = s.quits := rfl
@[simp] theorem State.modWave_replaceFlag (s : State) (i w : Nat) (f : Wave → Wave) : (s.modWave i w f).replaceFlag = s.replaceFlag := rfl
@[simp] theorem State.modWave_thermtrip (s : State) (i w : Nat) (f : Wave → Wave) : (s.modWave i w f).thermtrip = s.thermtrip := rfl
@[simp] theorem State.modWave_stopped (s : State) (i w : Nat) (f : Wave → Wave) : (s.modWave i w f).stopped = s.stopped := rfl
@[simp] theorem State.modWave_staleDrop (s : State) (i w : Nat) (f : Wave → Wave) : (s.modWave i w f).staleDrop = s.staleDrop := rfl
@[simp] theorem State.modWave_nodeId (s : State) (i w : Nat) (f : Wave → Wave) : (s.modWave i w f).nodeId = s.nodeId := rfl
@[simp] theorem State.modWave_faults (s : State) (i w : Nat) (f : Wave → Wave) : (s.modWave i w f).faults = s.faults := rfl
@[simp] theorem State.modWave_faultSeq (s : State) (i w : Nat) (f : Wave → Wave) : (s.modWave i w f).faultSeq = s.faultSeq := rfl
@[simp] theorem State.modWave_faultq (s : State) (i w : Nat) (f : Wave → Wave) : (s.modWave i w f).faultq = s.faultq := rfl
@[simp] theorem State.modWave_kernels (s : State) (i w : Nat) (f : Wave → Wave) : (s.modWave i w f).kernels = s.kernels := rfl
@[simp] theorem State.modWave_kcounts (s : State) (i w : Nat) (f : Wave → Wave) : (s.modWave i w f).kcounts = s.kcounts := rfl
@[simp] theorem State.modWave_failed (s : State) (i w : Nat) (f : Wave → Wave) : (s.modWave i w f).failed = s.failed := rfl
@[simp] theorem State.modWave_grids (s : State) (i w : Nat) (f : Wave → Wave) : (s.modWave i w f).grids = s.grids := rfl
@[simp] theorem State.modWave_gridSeq (s : State) (i w : Nat) (f : Wave → Wave) : (s.modWave i w f).gridSeq = s.gridSeq := rfl
@[simp] theorem State.modWave_tobind (s : State) (i w : Nat) (f : Wave → Wave) : (s.modWave i w f).tobind = s.tobind := rfl
@[simp] theorem State.modWave_saves (s : State) (i w : Nat) (f : Wave → Wave) : (s.modWave i w f).saves = s.saves := rfl
@[simp] theorem State.modWave_arrivals (s : State) (i w : Nat) (f : Wave → Wave) : (s.modWave i w f).arrivals = s.arrivals := rfl
@[simp] theorem State.modWave_cmds (s : State) (i w : Nat) (f : Wave → Wave) : (s.modWave i w f).cmds = s.cmds := rfl
@[simp] theorem State.modWave_sends (s : State) (i w : Nat) (f : Wave → Wave) : (s.modWave i w f).sends = s.sends := rfl
@[simp] theorem State.modWave_msgs (s : State) (i w : Nat) (f : Wave → Wave) : (s.modWave i w f).msgs = s.msgs := rfl
@[simp] theorem State.modWave_waiters (s : State) (i w : Nat) (f : Wave → Wave) : (s.modWave i w f).waiters = s.waiters := rfl
@[simp] theorem State.modWave_patches (s : State) (i w : Nat) (f : Wave → Wave) : (s.modWave i w f).patches = s.patches := rfl
@[simp] theorem State.modWave_cnts (s : State) (i w : Nat) (f : Wave → Wave) : (s.modWave i w f).cnts = s.cnts := rfl
@[simp] theorem State.modWave_colls (s : State) (i w : Nat) (f : Wave → Wave) : (s.modWave i w f).colls = s.colls := rfl
@[simp] theorem State.modWave_contribs (s : State) (i w : Nat) (f : Wave → Wave) : (s.modWave i w f).contribs = s.contribs := rfl
@[simp] theorem State.modWave_collDone (s : State) (i w : Nat) (f : Wave → Wave) : (s.modWave i w f).collDone = s.collDone := rfl
@[simp] theorem State.modWave_collTags (s : State) (i w : Nat) (f : Wave → Wave) : (s.modWave i w f).collTags = s.collTags := rfl
@[simp] theorem State.modWave_collDead (s : State) (i w : Nat) (f : Wave → Wave) : (s.modWave i w f).collDead = s.collDead := rfl
@[simp] theorem State.modWave_lazies (s : State) (i w : Nat) (f : Wave → Wave) : (s.modWave i w f).lazies = s.lazies := rfl
@[simp] theorem State.modWave_tiles (s : State) (i w : Nat) (f : Wave → Wave) : (s.modWave i w f).tiles = s.tiles := rfl
@[simp] theorem State.modWave_ports (s : State) (i w : Nat) (f : Wave → Wave) : (s.modWave i w f).ports = s.ports := rfl
@[simp] theorem State.modWave_routes (s : State) (i w : Nat) (f : Wave → Wave) : (s.modWave i w f).routes = s.routes := rfl
@[simp] theorem State.modWave_peersInc (s : State) (i w : Nat) (f : Wave → Wave) : (s.modWave i w f).peersInc = s.peersInc := rfl
@[simp] theorem State.modWave_links (s : State) (i w : Nat) (f : Wave → Wave) : (s.modWave i w f).links = s.links := rfl
@[simp] theorem State.modWave_heldReqs (s : State) (i w : Nat) (f : Wave → Wave) : (s.modWave i w f).heldReqs = s.heldReqs := rfl
@[simp] theorem State.modWave_hostHeld (s : State) (i w : Nat) (f : Wave → Wave) : (s.modWave i w f).hostHeld = s.hostHeld := rfl
@[simp] theorem State.modWave_hostReply (s : State) (i w : Nat) (f : Wave → Wave) : (s.modWave i w f).hostReply = s.hostReply := rfl
@[simp] theorem State.modWave_nextId (s : State) (i w : Nat) (f : Wave → Wave) : (s.modWave i w f).nextId = s.nextId := rfl
@[simp] theorem State.modWave_fw (s : State) (i w : Nat) (f : Wave → Wave) : (s.modWave i w f).fw = s.fw := rfl

/-! `modSlot` -/

@[simp] theorem State.modSlot_clock (s : State) (i w k : Nat) (f : Slot → Slot) : (s.modSlot i w k f).clock = s.clock := rfl
@[simp] theorem State.modSlot_agenda (s : State) (i w k : Nat) (f : Slot → Slot) : (s.modSlot i w k f).agenda = s.agenda := rfl
@[simp] theorem State.modSlot_queue (s : State) (i w k : Nat) (f : Slot → Slot) : (s.modSlot i w k f).queue = s.queue := rfl
@[simp] theorem State.modSlot_freeIx (s : State) (i w k : Nat) (f : Slot → Slot) : (s.modSlot i w k f).freeIx = s.freeIx := rfl
@[simp] theorem State.modSlot_cur (s : State) (i w k : Nat) (f : Slot → Slot) : (s.modSlot i w k f).cur = s.cur := rfl
@[simp] theorem State.modSlot_ir (s : State) (i w k : Nat) (f : Slot → Slot) : (s.modSlot i w k f).ir = s.ir := rfl
@[simp] theorem State.modSlot_cores (s : State) (i w k : Nat) (f : Slot → Slot) : (s.modSlot i w k f).cores = s.cores := rfl
@[simp] theorem State.modSlot_dram (s : State) (i w k : Nat) (f : Slot → Slot) : (s.modSlot i w k f).dram = s.dram := rfl
@[simp] theorem State.modSlot_lines (s : State) (i w k : Nat) (f : Slot → Slot) : (s.modSlot i w k f).lines = s.lines := rfl
@[simp] theorem State.modSlot_xlat (s : State) (i w k : Nat) (f : Slot → Slot) : (s.modSlot i w k f).xlat = s.xlat := rfl
@[simp] theorem State.modSlot_vaultBad (s : State) (i w k : Nat) (f : Slot → Slot) : (s.modSlot i w k f).vaultBad = s.vaultBad := rfl
@[simp] theorem State.modSlot_poison (s : State) (i w k : Nat) (f : Slot → Slot) : (s.modSlot i w k f).poison = s.poison := rfl
@[simp] theorem State.modSlot_hostMem (s : State) (i w k : Nat) (f : Slot → Slot) : (s.modSlot i w k f).hostMem = s.hostMem := rfl
@[simp] theorem State.modSlot_ctxs (s : State) (i w k : Nat) (f : Slot → Slot) : (s.modSlot i w k f).ctxs = s.ctxs := rfl
@[simp] theorem State.modSlot_ready (s : State) (i w k : Nat) (f : Slot → Slot) : (s.modSlot i w k f).ready = s.ready := rfl
@[simp] theorem State.modSlot_fallow (s : State) (i w k : Nat) (f : Slot → Slot) : (s.modSlot i w k f).fallow = s.fallow := rfl
@[simp] theorem State.modSlot_errs (s : State) (i w k : Nat) (f : Slot → Slot) : (s.modSlot i w k f).errs = s.errs := rfl
@[simp] theorem State.modSlot_spareCores (s : State) (i w k : Nat) (f : Slot → Slot) : (s.modSlot i w k f).spareCores = s.spareCores := rfl
@[simp] theorem State.modSlot_spareSlices (s : State) (i w k : Nat) (f : Slot → Slot) : (s.modSlot i w k f).spareSlices = s.spareSlices := rfl
@[simp] theorem State.modSlot_quits (s : State) (i w k : Nat) (f : Slot → Slot) : (s.modSlot i w k f).quits = s.quits := rfl
@[simp] theorem State.modSlot_replaceFlag (s : State) (i w k : Nat) (f : Slot → Slot) : (s.modSlot i w k f).replaceFlag = s.replaceFlag := rfl
@[simp] theorem State.modSlot_thermtrip (s : State) (i w k : Nat) (f : Slot → Slot) : (s.modSlot i w k f).thermtrip = s.thermtrip := rfl
@[simp] theorem State.modSlot_stopped (s : State) (i w k : Nat) (f : Slot → Slot) : (s.modSlot i w k f).stopped = s.stopped := rfl
@[simp] theorem State.modSlot_staleDrop (s : State) (i w k : Nat) (f : Slot → Slot) : (s.modSlot i w k f).staleDrop = s.staleDrop := rfl
@[simp] theorem State.modSlot_nodeId (s : State) (i w k : Nat) (f : Slot → Slot) : (s.modSlot i w k f).nodeId = s.nodeId := rfl
@[simp] theorem State.modSlot_faults (s : State) (i w k : Nat) (f : Slot → Slot) : (s.modSlot i w k f).faults = s.faults := rfl
@[simp] theorem State.modSlot_faultSeq (s : State) (i w k : Nat) (f : Slot → Slot) : (s.modSlot i w k f).faultSeq = s.faultSeq := rfl
@[simp] theorem State.modSlot_faultq (s : State) (i w k : Nat) (f : Slot → Slot) : (s.modSlot i w k f).faultq = s.faultq := rfl
@[simp] theorem State.modSlot_kernels (s : State) (i w k : Nat) (f : Slot → Slot) : (s.modSlot i w k f).kernels = s.kernels := rfl
@[simp] theorem State.modSlot_kcounts (s : State) (i w k : Nat) (f : Slot → Slot) : (s.modSlot i w k f).kcounts = s.kcounts := rfl
@[simp] theorem State.modSlot_failed (s : State) (i w k : Nat) (f : Slot → Slot) : (s.modSlot i w k f).failed = s.failed := rfl
@[simp] theorem State.modSlot_grids (s : State) (i w k : Nat) (f : Slot → Slot) : (s.modSlot i w k f).grids = s.grids := rfl
@[simp] theorem State.modSlot_gridSeq (s : State) (i w k : Nat) (f : Slot → Slot) : (s.modSlot i w k f).gridSeq = s.gridSeq := rfl
@[simp] theorem State.modSlot_tobind (s : State) (i w k : Nat) (f : Slot → Slot) : (s.modSlot i w k f).tobind = s.tobind := rfl
@[simp] theorem State.modSlot_saves (s : State) (i w k : Nat) (f : Slot → Slot) : (s.modSlot i w k f).saves = s.saves := rfl
@[simp] theorem State.modSlot_arrivals (s : State) (i w k : Nat) (f : Slot → Slot) : (s.modSlot i w k f).arrivals = s.arrivals := rfl
@[simp] theorem State.modSlot_cmds (s : State) (i w k : Nat) (f : Slot → Slot) : (s.modSlot i w k f).cmds = s.cmds := rfl
@[simp] theorem State.modSlot_sends (s : State) (i w k : Nat) (f : Slot → Slot) : (s.modSlot i w k f).sends = s.sends := rfl
@[simp] theorem State.modSlot_msgs (s : State) (i w k : Nat) (f : Slot → Slot) : (s.modSlot i w k f).msgs = s.msgs := rfl
@[simp] theorem State.modSlot_waiters (s : State) (i w k : Nat) (f : Slot → Slot) : (s.modSlot i w k f).waiters = s.waiters := rfl
@[simp] theorem State.modSlot_patches (s : State) (i w k : Nat) (f : Slot → Slot) : (s.modSlot i w k f).patches = s.patches := rfl
@[simp] theorem State.modSlot_cnts (s : State) (i w k : Nat) (f : Slot → Slot) : (s.modSlot i w k f).cnts = s.cnts := rfl
@[simp] theorem State.modSlot_colls (s : State) (i w k : Nat) (f : Slot → Slot) : (s.modSlot i w k f).colls = s.colls := rfl
@[simp] theorem State.modSlot_contribs (s : State) (i w k : Nat) (f : Slot → Slot) : (s.modSlot i w k f).contribs = s.contribs := rfl
@[simp] theorem State.modSlot_collDone (s : State) (i w k : Nat) (f : Slot → Slot) : (s.modSlot i w k f).collDone = s.collDone := rfl
@[simp] theorem State.modSlot_collTags (s : State) (i w k : Nat) (f : Slot → Slot) : (s.modSlot i w k f).collTags = s.collTags := rfl
@[simp] theorem State.modSlot_collDead (s : State) (i w k : Nat) (f : Slot → Slot) : (s.modSlot i w k f).collDead = s.collDead := rfl
@[simp] theorem State.modSlot_lazies (s : State) (i w k : Nat) (f : Slot → Slot) : (s.modSlot i w k f).lazies = s.lazies := rfl
@[simp] theorem State.modSlot_tiles (s : State) (i w k : Nat) (f : Slot → Slot) : (s.modSlot i w k f).tiles = s.tiles := rfl
@[simp] theorem State.modSlot_ports (s : State) (i w k : Nat) (f : Slot → Slot) : (s.modSlot i w k f).ports = s.ports := rfl
@[simp] theorem State.modSlot_routes (s : State) (i w k : Nat) (f : Slot → Slot) : (s.modSlot i w k f).routes = s.routes := rfl
@[simp] theorem State.modSlot_peersInc (s : State) (i w k : Nat) (f : Slot → Slot) : (s.modSlot i w k f).peersInc = s.peersInc := rfl
@[simp] theorem State.modSlot_links (s : State) (i w k : Nat) (f : Slot → Slot) : (s.modSlot i w k f).links = s.links := rfl
@[simp] theorem State.modSlot_heldReqs (s : State) (i w k : Nat) (f : Slot → Slot) : (s.modSlot i w k f).heldReqs = s.heldReqs := rfl
@[simp] theorem State.modSlot_hostHeld (s : State) (i w k : Nat) (f : Slot → Slot) : (s.modSlot i w k f).hostHeld = s.hostHeld := rfl
@[simp] theorem State.modSlot_hostReply (s : State) (i w k : Nat) (f : Slot → Slot) : (s.modSlot i w k f).hostReply = s.hostReply := rfl
@[simp] theorem State.modSlot_nextId (s : State) (i w k : Nat) (f : Slot → Slot) : (s.modSlot i w k f).nextId = s.nextId := rfl
@[simp] theorem State.modSlot_fw (s : State) (i w k : Nat) (f : Slot → Slot) : (s.modSlot i w k f).fw = s.fw := rfl

/-! `modStream` -/

@[simp] theorem State.modStream_clock (s : State) (i : Nat) (e : Engine) (x : Nat) (f : Stream → Stream) : (s.modStream i e x f).clock = s.clock := rfl
@[simp] theorem State.modStream_agenda (s : State) (i : Nat) (e : Engine) (x : Nat) (f : Stream → Stream) : (s.modStream i e x f).agenda = s.agenda := rfl
@[simp] theorem State.modStream_queue (s : State) (i : Nat) (e : Engine) (x : Nat) (f : Stream → Stream) : (s.modStream i e x f).queue = s.queue := rfl
@[simp] theorem State.modStream_freeIx (s : State) (i : Nat) (e : Engine) (x : Nat) (f : Stream → Stream) : (s.modStream i e x f).freeIx = s.freeIx := rfl
@[simp] theorem State.modStream_cur (s : State) (i : Nat) (e : Engine) (x : Nat) (f : Stream → Stream) : (s.modStream i e x f).cur = s.cur := rfl
@[simp] theorem State.modStream_ir (s : State) (i : Nat) (e : Engine) (x : Nat) (f : Stream → Stream) : (s.modStream i e x f).ir = s.ir := rfl
@[simp] theorem State.modStream_cores (s : State) (i : Nat) (e : Engine) (x : Nat) (f : Stream → Stream) : (s.modStream i e x f).cores = s.cores := rfl
@[simp] theorem State.modStream_dram (s : State) (i : Nat) (e : Engine) (x : Nat) (f : Stream → Stream) : (s.modStream i e x f).dram = s.dram := rfl
@[simp] theorem State.modStream_lines (s : State) (i : Nat) (e : Engine) (x : Nat) (f : Stream → Stream) : (s.modStream i e x f).lines = s.lines := rfl
@[simp] theorem State.modStream_xlat (s : State) (i : Nat) (e : Engine) (x : Nat) (f : Stream → Stream) : (s.modStream i e x f).xlat = s.xlat := rfl
@[simp] theorem State.modStream_vaultBad (s : State) (i : Nat) (e : Engine) (x : Nat) (f : Stream → Stream) : (s.modStream i e x f).vaultBad = s.vaultBad := rfl
@[simp] theorem State.modStream_poison (s : State) (i : Nat) (e : Engine) (x : Nat) (f : Stream → Stream) : (s.modStream i e x f).poison = s.poison := rfl
@[simp] theorem State.modStream_hostMem (s : State) (i : Nat) (e : Engine) (x : Nat) (f : Stream → Stream) : (s.modStream i e x f).hostMem = s.hostMem := rfl
@[simp] theorem State.modStream_ctxs (s : State) (i : Nat) (e : Engine) (x : Nat) (f : Stream → Stream) : (s.modStream i e x f).ctxs = s.ctxs := rfl
@[simp] theorem State.modStream_ready (s : State) (i : Nat) (e : Engine) (x : Nat) (f : Stream → Stream) : (s.modStream i e x f).ready = s.ready := rfl
@[simp] theorem State.modStream_fallow (s : State) (i : Nat) (e : Engine) (x : Nat) (f : Stream → Stream) : (s.modStream i e x f).fallow = s.fallow := rfl
@[simp] theorem State.modStream_errs (s : State) (i : Nat) (e : Engine) (x : Nat) (f : Stream → Stream) : (s.modStream i e x f).errs = s.errs := rfl
@[simp] theorem State.modStream_spareCores (s : State) (i : Nat) (e : Engine) (x : Nat) (f : Stream → Stream) : (s.modStream i e x f).spareCores = s.spareCores := rfl
@[simp] theorem State.modStream_spareSlices (s : State) (i : Nat) (e : Engine) (x : Nat) (f : Stream → Stream) : (s.modStream i e x f).spareSlices = s.spareSlices := rfl
@[simp] theorem State.modStream_quits (s : State) (i : Nat) (e : Engine) (x : Nat) (f : Stream → Stream) : (s.modStream i e x f).quits = s.quits := rfl
@[simp] theorem State.modStream_replaceFlag (s : State) (i : Nat) (e : Engine) (x : Nat) (f : Stream → Stream) : (s.modStream i e x f).replaceFlag = s.replaceFlag := rfl
@[simp] theorem State.modStream_thermtrip (s : State) (i : Nat) (e : Engine) (x : Nat) (f : Stream → Stream) : (s.modStream i e x f).thermtrip = s.thermtrip := rfl
@[simp] theorem State.modStream_stopped (s : State) (i : Nat) (e : Engine) (x : Nat) (f : Stream → Stream) : (s.modStream i e x f).stopped = s.stopped := rfl
@[simp] theorem State.modStream_staleDrop (s : State) (i : Nat) (e : Engine) (x : Nat) (f : Stream → Stream) : (s.modStream i e x f).staleDrop = s.staleDrop := rfl
@[simp] theorem State.modStream_nodeId (s : State) (i : Nat) (e : Engine) (x : Nat) (f : Stream → Stream) : (s.modStream i e x f).nodeId = s.nodeId := rfl
@[simp] theorem State.modStream_faults (s : State) (i : Nat) (e : Engine) (x : Nat) (f : Stream → Stream) : (s.modStream i e x f).faults = s.faults := rfl
@[simp] theorem State.modStream_faultSeq (s : State) (i : Nat) (e : Engine) (x : Nat) (f : Stream → Stream) : (s.modStream i e x f).faultSeq = s.faultSeq := rfl
@[simp] theorem State.modStream_faultq (s : State) (i : Nat) (e : Engine) (x : Nat) (f : Stream → Stream) : (s.modStream i e x f).faultq = s.faultq := rfl
@[simp] theorem State.modStream_kernels (s : State) (i : Nat) (e : Engine) (x : Nat) (f : Stream → Stream) : (s.modStream i e x f).kernels = s.kernels := rfl
@[simp] theorem State.modStream_kcounts (s : State) (i : Nat) (e : Engine) (x : Nat) (f : Stream → Stream) : (s.modStream i e x f).kcounts = s.kcounts := rfl
@[simp] theorem State.modStream_failed (s : State) (i : Nat) (e : Engine) (x : Nat) (f : Stream → Stream) : (s.modStream i e x f).failed = s.failed := rfl
@[simp] theorem State.modStream_grids (s : State) (i : Nat) (e : Engine) (x : Nat) (f : Stream → Stream) : (s.modStream i e x f).grids = s.grids := rfl
@[simp] theorem State.modStream_gridSeq (s : State) (i : Nat) (e : Engine) (x : Nat) (f : Stream → Stream) : (s.modStream i e x f).gridSeq = s.gridSeq := rfl
@[simp] theorem State.modStream_tobind (s : State) (i : Nat) (e : Engine) (x : Nat) (f : Stream → Stream) : (s.modStream i e x f).tobind = s.tobind := rfl
@[simp] theorem State.modStream_saves (s : State) (i : Nat) (e : Engine) (x : Nat) (f : Stream → Stream) : (s.modStream i e x f).saves = s.saves := rfl
@[simp] theorem State.modStream_arrivals (s : State) (i : Nat) (e : Engine) (x : Nat) (f : Stream → Stream) : (s.modStream i e x f).arrivals = s.arrivals := rfl
@[simp] theorem State.modStream_cmds (s : State) (i : Nat) (e : Engine) (x : Nat) (f : Stream → Stream) : (s.modStream i e x f).cmds = s.cmds := rfl
@[simp] theorem State.modStream_sends (s : State) (i : Nat) (e : Engine) (x : Nat) (f : Stream → Stream) : (s.modStream i e x f).sends = s.sends := rfl
@[simp] theorem State.modStream_msgs (s : State) (i : Nat) (e : Engine) (x : Nat) (f : Stream → Stream) : (s.modStream i e x f).msgs = s.msgs := rfl
@[simp] theorem State.modStream_waiters (s : State) (i : Nat) (e : Engine) (x : Nat) (f : Stream → Stream) : (s.modStream i e x f).waiters = s.waiters := rfl
@[simp] theorem State.modStream_patches (s : State) (i : Nat) (e : Engine) (x : Nat) (f : Stream → Stream) : (s.modStream i e x f).patches = s.patches := rfl
@[simp] theorem State.modStream_cnts (s : State) (i : Nat) (e : Engine) (x : Nat) (f : Stream → Stream) : (s.modStream i e x f).cnts = s.cnts := rfl
@[simp] theorem State.modStream_colls (s : State) (i : Nat) (e : Engine) (x : Nat) (f : Stream → Stream) : (s.modStream i e x f).colls = s.colls := rfl
@[simp] theorem State.modStream_contribs (s : State) (i : Nat) (e : Engine) (x : Nat) (f : Stream → Stream) : (s.modStream i e x f).contribs = s.contribs := rfl
@[simp] theorem State.modStream_collDone (s : State) (i : Nat) (e : Engine) (x : Nat) (f : Stream → Stream) : (s.modStream i e x f).collDone = s.collDone := rfl
@[simp] theorem State.modStream_collTags (s : State) (i : Nat) (e : Engine) (x : Nat) (f : Stream → Stream) : (s.modStream i e x f).collTags = s.collTags := rfl
@[simp] theorem State.modStream_collDead (s : State) (i : Nat) (e : Engine) (x : Nat) (f : Stream → Stream) : (s.modStream i e x f).collDead = s.collDead := rfl
@[simp] theorem State.modStream_lazies (s : State) (i : Nat) (e : Engine) (x : Nat) (f : Stream → Stream) : (s.modStream i e x f).lazies = s.lazies := rfl
@[simp] theorem State.modStream_tiles (s : State) (i : Nat) (e : Engine) (x : Nat) (f : Stream → Stream) : (s.modStream i e x f).tiles = s.tiles := rfl
@[simp] theorem State.modStream_ports (s : State) (i : Nat) (e : Engine) (x : Nat) (f : Stream → Stream) : (s.modStream i e x f).ports = s.ports := rfl
@[simp] theorem State.modStream_routes (s : State) (i : Nat) (e : Engine) (x : Nat) (f : Stream → Stream) : (s.modStream i e x f).routes = s.routes := rfl
@[simp] theorem State.modStream_peersInc (s : State) (i : Nat) (e : Engine) (x : Nat) (f : Stream → Stream) : (s.modStream i e x f).peersInc = s.peersInc := rfl
@[simp] theorem State.modStream_links (s : State) (i : Nat) (e : Engine) (x : Nat) (f : Stream → Stream) : (s.modStream i e x f).links = s.links := rfl
@[simp] theorem State.modStream_heldReqs (s : State) (i : Nat) (e : Engine) (x : Nat) (f : Stream → Stream) : (s.modStream i e x f).heldReqs = s.heldReqs := rfl
@[simp] theorem State.modStream_hostHeld (s : State) (i : Nat) (e : Engine) (x : Nat) (f : Stream → Stream) : (s.modStream i e x f).hostHeld = s.hostHeld := rfl
@[simp] theorem State.modStream_hostReply (s : State) (i : Nat) (e : Engine) (x : Nat) (f : Stream → Stream) : (s.modStream i e x f).hostReply = s.hostReply := rfl
@[simp] theorem State.modStream_nextId (s : State) (i : Nat) (e : Engine) (x : Nat) (f : Stream → Stream) : (s.modStream i e x f).nextId = s.nextId := rfl
@[simp] theorem State.modStream_fw (s : State) (i : Nat) (e : Engine) (x : Nat) (f : Stream → Stream) : (s.modStream i e x f).fw = s.fw := rfl

/-! `setCtx` -/

@[simp] theorem State.setCtx_clock (s : State) (n : Nat) (x : Ctx) : (s.setCtx n x).clock = s.clock := rfl
@[simp] theorem State.setCtx_agenda (s : State) (n : Nat) (x : Ctx) : (s.setCtx n x).agenda = s.agenda := rfl
@[simp] theorem State.setCtx_queue (s : State) (n : Nat) (x : Ctx) : (s.setCtx n x).queue = s.queue := rfl
@[simp] theorem State.setCtx_freeIx (s : State) (n : Nat) (x : Ctx) : (s.setCtx n x).freeIx = s.freeIx := rfl
@[simp] theorem State.setCtx_cur (s : State) (n : Nat) (x : Ctx) : (s.setCtx n x).cur = s.cur := rfl
@[simp] theorem State.setCtx_ir (s : State) (n : Nat) (x : Ctx) : (s.setCtx n x).ir = s.ir := rfl
@[simp] theorem State.setCtx_cores (s : State) (n : Nat) (x : Ctx) : (s.setCtx n x).cores = s.cores := rfl
@[simp] theorem State.setCtx_blocks (s : State) (n : Nat) (x : Ctx) : (s.setCtx n x).blocks = s.blocks := rfl
@[simp] theorem State.setCtx_dram (s : State) (n : Nat) (x : Ctx) : (s.setCtx n x).dram = s.dram := rfl
@[simp] theorem State.setCtx_lines (s : State) (n : Nat) (x : Ctx) : (s.setCtx n x).lines = s.lines := rfl
@[simp] theorem State.setCtx_xlat (s : State) (n : Nat) (x : Ctx) : (s.setCtx n x).xlat = s.xlat := rfl
@[simp] theorem State.setCtx_vaultBad (s : State) (n : Nat) (x : Ctx) : (s.setCtx n x).vaultBad = s.vaultBad := rfl
@[simp] theorem State.setCtx_poison (s : State) (n : Nat) (x : Ctx) : (s.setCtx n x).poison = s.poison := rfl
@[simp] theorem State.setCtx_hostMem (s : State) (n : Nat) (x : Ctx) : (s.setCtx n x).hostMem = s.hostMem := rfl
@[simp] theorem State.setCtx_ready (s : State) (n : Nat) (x : Ctx) : (s.setCtx n x).ready = s.ready := rfl
@[simp] theorem State.setCtx_fallow (s : State) (n : Nat) (x : Ctx) : (s.setCtx n x).fallow = s.fallow := rfl
@[simp] theorem State.setCtx_errs (s : State) (n : Nat) (x : Ctx) : (s.setCtx n x).errs = s.errs := rfl
@[simp] theorem State.setCtx_spareCores (s : State) (n : Nat) (x : Ctx) : (s.setCtx n x).spareCores = s.spareCores := rfl
@[simp] theorem State.setCtx_spareSlices (s : State) (n : Nat) (x : Ctx) : (s.setCtx n x).spareSlices = s.spareSlices := rfl
@[simp] theorem State.setCtx_quits (s : State) (n : Nat) (x : Ctx) : (s.setCtx n x).quits = s.quits := rfl
@[simp] theorem State.setCtx_replaceFlag (s : State) (n : Nat) (x : Ctx) : (s.setCtx n x).replaceFlag = s.replaceFlag := rfl
@[simp] theorem State.setCtx_thermtrip (s : State) (n : Nat) (x : Ctx) : (s.setCtx n x).thermtrip = s.thermtrip := rfl
@[simp] theorem State.setCtx_stopped (s : State) (n : Nat) (x : Ctx) : (s.setCtx n x).stopped = s.stopped := rfl
@[simp] theorem State.setCtx_staleDrop (s : State) (n : Nat) (x : Ctx) : (s.setCtx n x).staleDrop = s.staleDrop := rfl
@[simp] theorem State.setCtx_nodeId (s : State) (n : Nat) (x : Ctx) : (s.setCtx n x).nodeId = s.nodeId := rfl
@[simp] theorem State.setCtx_faults (s : State) (n : Nat) (x : Ctx) : (s.setCtx n x).faults = s.faults := rfl
@[simp] theorem State.setCtx_faultSeq (s : State) (n : Nat) (x : Ctx) : (s.setCtx n x).faultSeq = s.faultSeq := rfl
@[simp] theorem State.setCtx_faultq (s : State) (n : Nat) (x : Ctx) : (s.setCtx n x).faultq = s.faultq := rfl
@[simp] theorem State.setCtx_kernels (s : State) (n : Nat) (x : Ctx) : (s.setCtx n x).kernels = s.kernels := rfl
@[simp] theorem State.setCtx_kcounts (s : State) (n : Nat) (x : Ctx) : (s.setCtx n x).kcounts = s.kcounts := rfl
@[simp] theorem State.setCtx_failed (s : State) (n : Nat) (x : Ctx) : (s.setCtx n x).failed = s.failed := rfl
@[simp] theorem State.setCtx_grids (s : State) (n : Nat) (x : Ctx) : (s.setCtx n x).grids = s.grids := rfl
@[simp] theorem State.setCtx_gridSeq (s : State) (n : Nat) (x : Ctx) : (s.setCtx n x).gridSeq = s.gridSeq := rfl
@[simp] theorem State.setCtx_tobind (s : State) (n : Nat) (x : Ctx) : (s.setCtx n x).tobind = s.tobind := rfl
@[simp] theorem State.setCtx_saves (s : State) (n : Nat) (x : Ctx) : (s.setCtx n x).saves = s.saves := rfl
@[simp] theorem State.setCtx_arrivals (s : State) (n : Nat) (x : Ctx) : (s.setCtx n x).arrivals = s.arrivals := rfl
@[simp] theorem State.setCtx_cmds (s : State) (n : Nat) (x : Ctx) : (s.setCtx n x).cmds = s.cmds := rfl
@[simp] theorem State.setCtx_sends (s : State) (n : Nat) (x : Ctx) : (s.setCtx n x).sends = s.sends := rfl
@[simp] theorem State.setCtx_msgs (s : State) (n : Nat) (x : Ctx) : (s.setCtx n x).msgs = s.msgs := rfl
@[simp] theorem State.setCtx_waiters (s : State) (n : Nat) (x : Ctx) : (s.setCtx n x).waiters = s.waiters := rfl
@[simp] theorem State.setCtx_patches (s : State) (n : Nat) (x : Ctx) : (s.setCtx n x).patches = s.patches := rfl
@[simp] theorem State.setCtx_cnts (s : State) (n : Nat) (x : Ctx) : (s.setCtx n x).cnts = s.cnts := rfl
@[simp] theorem State.setCtx_colls (s : State) (n : Nat) (x : Ctx) : (s.setCtx n x).colls = s.colls := rfl
@[simp] theorem State.setCtx_contribs (s : State) (n : Nat) (x : Ctx) : (s.setCtx n x).contribs = s.contribs := rfl
@[simp] theorem State.setCtx_collDone (s : State) (n : Nat) (x : Ctx) : (s.setCtx n x).collDone = s.collDone := rfl
@[simp] theorem State.setCtx_collTags (s : State) (n : Nat) (x : Ctx) : (s.setCtx n x).collTags = s.collTags := rfl
@[simp] theorem State.setCtx_collDead (s : State) (n : Nat) (x : Ctx) : (s.setCtx n x).collDead = s.collDead := rfl
@[simp] theorem State.setCtx_lazies (s : State) (n : Nat) (x : Ctx) : (s.setCtx n x).lazies = s.lazies := rfl
@[simp] theorem State.setCtx_tiles (s : State) (n : Nat) (x : Ctx) : (s.setCtx n x).tiles = s.tiles := rfl
@[simp] theorem State.setCtx_ports (s : State) (n : Nat) (x : Ctx) : (s.setCtx n x).ports = s.ports := rfl
@[simp] theorem State.setCtx_routes (s : State) (n : Nat) (x : Ctx) : (s.setCtx n x).routes = s.routes := rfl
@[simp] theorem State.setCtx_peersInc (s : State) (n : Nat) (x : Ctx) : (s.setCtx n x).peersInc = s.peersInc := rfl
@[simp] theorem State.setCtx_links (s : State) (n : Nat) (x : Ctx) : (s.setCtx n x).links = s.links := rfl
@[simp] theorem State.setCtx_heldReqs (s : State) (n : Nat) (x : Ctx) : (s.setCtx n x).heldReqs = s.heldReqs := rfl
@[simp] theorem State.setCtx_hostHeld (s : State) (n : Nat) (x : Ctx) : (s.setCtx n x).hostHeld = s.hostHeld := rfl
@[simp] theorem State.setCtx_hostReply (s : State) (n : Nat) (x : Ctx) : (s.setCtx n x).hostReply = s.hostReply := rfl
@[simp] theorem State.setCtx_nextId (s : State) (n : Nat) (x : Ctx) : (s.setCtx n x).nextId = s.nextId := rfl
@[simp] theorem State.setCtx_fw (s : State) (n : Nat) (x : Ctx) : (s.setCtx n x).fw = s.fw := rfl

/-! `modCtx` -/

@[simp] theorem State.modCtx_clock (s : State) (n : Nat) (f : Ctx → Ctx) : (s.modCtx n f).clock = s.clock := rfl
@[simp] theorem State.modCtx_agenda (s : State) (n : Nat) (f : Ctx → Ctx) : (s.modCtx n f).agenda = s.agenda := rfl
@[simp] theorem State.modCtx_queue (s : State) (n : Nat) (f : Ctx → Ctx) : (s.modCtx n f).queue = s.queue := rfl
@[simp] theorem State.modCtx_freeIx (s : State) (n : Nat) (f : Ctx → Ctx) : (s.modCtx n f).freeIx = s.freeIx := rfl
@[simp] theorem State.modCtx_cur (s : State) (n : Nat) (f : Ctx → Ctx) : (s.modCtx n f).cur = s.cur := rfl
@[simp] theorem State.modCtx_ir (s : State) (n : Nat) (f : Ctx → Ctx) : (s.modCtx n f).ir = s.ir := rfl
@[simp] theorem State.modCtx_cores (s : State) (n : Nat) (f : Ctx → Ctx) : (s.modCtx n f).cores = s.cores := rfl
@[simp] theorem State.modCtx_blocks (s : State) (n : Nat) (f : Ctx → Ctx) : (s.modCtx n f).blocks = s.blocks := rfl
@[simp] theorem State.modCtx_dram (s : State) (n : Nat) (f : Ctx → Ctx) : (s.modCtx n f).dram = s.dram := rfl
@[simp] theorem State.modCtx_lines (s : State) (n : Nat) (f : Ctx → Ctx) : (s.modCtx n f).lines = s.lines := rfl
@[simp] theorem State.modCtx_xlat (s : State) (n : Nat) (f : Ctx → Ctx) : (s.modCtx n f).xlat = s.xlat := rfl
@[simp] theorem State.modCtx_vaultBad (s : State) (n : Nat) (f : Ctx → Ctx) : (s.modCtx n f).vaultBad = s.vaultBad := rfl
@[simp] theorem State.modCtx_poison (s : State) (n : Nat) (f : Ctx → Ctx) : (s.modCtx n f).poison = s.poison := rfl
@[simp] theorem State.modCtx_hostMem (s : State) (n : Nat) (f : Ctx → Ctx) : (s.modCtx n f).hostMem = s.hostMem := rfl
@[simp] theorem State.modCtx_ready (s : State) (n : Nat) (f : Ctx → Ctx) : (s.modCtx n f).ready = s.ready := rfl
@[simp] theorem State.modCtx_fallow (s : State) (n : Nat) (f : Ctx → Ctx) : (s.modCtx n f).fallow = s.fallow := rfl
@[simp] theorem State.modCtx_errs (s : State) (n : Nat) (f : Ctx → Ctx) : (s.modCtx n f).errs = s.errs := rfl
@[simp] theorem State.modCtx_spareCores (s : State) (n : Nat) (f : Ctx → Ctx) : (s.modCtx n f).spareCores = s.spareCores := rfl
@[simp] theorem State.modCtx_spareSlices (s : State) (n : Nat) (f : Ctx → Ctx) : (s.modCtx n f).spareSlices = s.spareSlices := rfl
@[simp] theorem State.modCtx_quits (s : State) (n : Nat) (f : Ctx → Ctx) : (s.modCtx n f).quits = s.quits := rfl
@[simp] theorem State.modCtx_replaceFlag (s : State) (n : Nat) (f : Ctx → Ctx) : (s.modCtx n f).replaceFlag = s.replaceFlag := rfl
@[simp] theorem State.modCtx_thermtrip (s : State) (n : Nat) (f : Ctx → Ctx) : (s.modCtx n f).thermtrip = s.thermtrip := rfl
@[simp] theorem State.modCtx_stopped (s : State) (n : Nat) (f : Ctx → Ctx) : (s.modCtx n f).stopped = s.stopped := rfl
@[simp] theorem State.modCtx_staleDrop (s : State) (n : Nat) (f : Ctx → Ctx) : (s.modCtx n f).staleDrop = s.staleDrop := rfl
@[simp] theorem State.modCtx_nodeId (s : State) (n : Nat) (f : Ctx → Ctx) : (s.modCtx n f).nodeId = s.nodeId := rfl
@[simp] theorem State.modCtx_faults (s : State) (n : Nat) (f : Ctx → Ctx) : (s.modCtx n f).faults = s.faults := rfl
@[simp] theorem State.modCtx_faultSeq (s : State) (n : Nat) (f : Ctx → Ctx) : (s.modCtx n f).faultSeq = s.faultSeq := rfl
@[simp] theorem State.modCtx_faultq (s : State) (n : Nat) (f : Ctx → Ctx) : (s.modCtx n f).faultq = s.faultq := rfl
@[simp] theorem State.modCtx_kernels (s : State) (n : Nat) (f : Ctx → Ctx) : (s.modCtx n f).kernels = s.kernels := rfl
@[simp] theorem State.modCtx_kcounts (s : State) (n : Nat) (f : Ctx → Ctx) : (s.modCtx n f).kcounts = s.kcounts := rfl
@[simp] theorem State.modCtx_failed (s : State) (n : Nat) (f : Ctx → Ctx) : (s.modCtx n f).failed = s.failed := rfl
@[simp] theorem State.modCtx_grids (s : State) (n : Nat) (f : Ctx → Ctx) : (s.modCtx n f).grids = s.grids := rfl
@[simp] theorem State.modCtx_gridSeq (s : State) (n : Nat) (f : Ctx → Ctx) : (s.modCtx n f).gridSeq = s.gridSeq := rfl
@[simp] theorem State.modCtx_tobind (s : State) (n : Nat) (f : Ctx → Ctx) : (s.modCtx n f).tobind = s.tobind := rfl
@[simp] theorem State.modCtx_saves (s : State) (n : Nat) (f : Ctx → Ctx) : (s.modCtx n f).saves = s.saves := rfl
@[simp] theorem State.modCtx_arrivals (s : State) (n : Nat) (f : Ctx → Ctx) : (s.modCtx n f).arrivals = s.arrivals := rfl
@[simp] theorem State.modCtx_cmds (s : State) (n : Nat) (f : Ctx → Ctx) : (s.modCtx n f).cmds = s.cmds := rfl
@[simp] theorem State.modCtx_sends (s : State) (n : Nat) (f : Ctx → Ctx) : (s.modCtx n f).sends = s.sends := rfl
@[simp] theorem State.modCtx_msgs (s : State) (n : Nat) (f : Ctx → Ctx) : (s.modCtx n f).msgs = s.msgs := rfl
@[simp] theorem State.modCtx_waiters (s : State) (n : Nat) (f : Ctx → Ctx) : (s.modCtx n f).waiters = s.waiters := rfl
@[simp] theorem State.modCtx_patches (s : State) (n : Nat) (f : Ctx → Ctx) : (s.modCtx n f).patches = s.patches := rfl
@[simp] theorem State.modCtx_cnts (s : State) (n : Nat) (f : Ctx → Ctx) : (s.modCtx n f).cnts = s.cnts := rfl
@[simp] theorem State.modCtx_colls (s : State) (n : Nat) (f : Ctx → Ctx) : (s.modCtx n f).colls = s.colls := rfl
@[simp] theorem State.modCtx_contribs (s : State) (n : Nat) (f : Ctx → Ctx) : (s.modCtx n f).contribs = s.contribs := rfl
@[simp] theorem State.modCtx_collDone (s : State) (n : Nat) (f : Ctx → Ctx) : (s.modCtx n f).collDone = s.collDone := rfl
@[simp] theorem State.modCtx_collTags (s : State) (n : Nat) (f : Ctx → Ctx) : (s.modCtx n f).collTags = s.collTags := rfl
@[simp] theorem State.modCtx_collDead (s : State) (n : Nat) (f : Ctx → Ctx) : (s.modCtx n f).collDead = s.collDead := rfl
@[simp] theorem State.modCtx_lazies (s : State) (n : Nat) (f : Ctx → Ctx) : (s.modCtx n f).lazies = s.lazies := rfl
@[simp] theorem State.modCtx_tiles (s : State) (n : Nat) (f : Ctx → Ctx) : (s.modCtx n f).tiles = s.tiles := rfl
@[simp] theorem State.modCtx_ports (s : State) (n : Nat) (f : Ctx → Ctx) : (s.modCtx n f).ports = s.ports := rfl
@[simp] theorem State.modCtx_routes (s : State) (n : Nat) (f : Ctx → Ctx) : (s.modCtx n f).routes = s.routes := rfl
@[simp] theorem State.modCtx_peersInc (s : State) (n : Nat) (f : Ctx → Ctx) : (s.modCtx n f).peersInc = s.peersInc := rfl
@[simp] theorem State.modCtx_links (s : State) (n : Nat) (f : Ctx → Ctx) : (s.modCtx n f).links = s.links := rfl
@[simp] theorem State.modCtx_heldReqs (s : State) (n : Nat) (f : Ctx → Ctx) : (s.modCtx n f).heldReqs = s.heldReqs := rfl
@[simp] theorem State.modCtx_hostHeld (s : State) (n : Nat) (f : Ctx → Ctx) : (s.modCtx n f).hostHeld = s.hostHeld := rfl
@[simp] theorem State.modCtx_hostReply (s : State) (n : Nat) (f : Ctx → Ctx) : (s.modCtx n f).hostReply = s.hostReply := rfl
@[simp] theorem State.modCtx_nextId (s : State) (n : Nat) (f : Ctx → Ctx) : (s.modCtx n f).nextId = s.nextId := rfl
@[simp] theorem State.modCtx_fw (s : State) (n : Nat) (f : Ctx → Ctx) : (s.modCtx n f).fw = s.fw := rfl

/-! `dropStale` -/

@[simp] theorem State.dropStale_clock (s : State)  : (s.dropStale).clock = s.clock := rfl
@[simp] theorem State.dropStale_agenda (s : State)  : (s.dropStale).agenda = s.agenda := rfl
@[simp] theorem State.dropStale_queue (s : State)  : (s.dropStale).queue = s.queue := rfl
@[simp] theorem State.dropStale_freeIx (s : State)  : (s.dropStale).freeIx = s.freeIx := rfl
@[simp] theorem State.dropStale_cur (s : State)  : (s.dropStale).cur = s.cur := rfl
@[simp] theorem State.dropStale_ir (s : State)  : (s.dropStale).ir = s.ir := rfl
@[simp] theorem State.dropStale_cores (s : State)  : (s.dropStale).cores = s.cores := rfl
@[simp] theorem State.dropStale_blocks (s : State)  : (s.dropStale).blocks = s.blocks := rfl
@[simp] theorem State.dropStale_dram (s : State)  : (s.dropStale).dram = s.dram := rfl
@[simp] theorem State.dropStale_lines (s : State)  : (s.dropStale).lines = s.lines := rfl
@[simp] theorem State.dropStale_xlat (s : State)  : (s.dropStale).xlat = s.xlat := rfl
@[simp] theorem State.dropStale_vaultBad (s : State)  : (s.dropStale).vaultBad = s.vaultBad := rfl
@[simp] theorem State.dropStale_poison (s : State)  : (s.dropStale).poison = s.poison := rfl
@[simp] theorem State.dropStale_hostMem (s : State)  : (s.dropStale).hostMem = s.hostMem := rfl
@[simp] theorem State.dropStale_ctxs (s : State)  : (s.dropStale).ctxs = s.ctxs := rfl
@[simp] theorem State.dropStale_ready (s : State)  : (s.dropStale).ready = s.ready := rfl
@[simp] theorem State.dropStale_fallow (s : State)  : (s.dropStale).fallow = s.fallow := rfl
@[simp] theorem State.dropStale_errs (s : State)  : (s.dropStale).errs = s.errs := rfl
@[simp] theorem State.dropStale_spareCores (s : State)  : (s.dropStale).spareCores = s.spareCores := rfl
@[simp] theorem State.dropStale_spareSlices (s : State)  : (s.dropStale).spareSlices = s.spareSlices := rfl
@[simp] theorem State.dropStale_quits (s : State)  : (s.dropStale).quits = s.quits := rfl
@[simp] theorem State.dropStale_replaceFlag (s : State)  : (s.dropStale).replaceFlag = s.replaceFlag := rfl
@[simp] theorem State.dropStale_thermtrip (s : State)  : (s.dropStale).thermtrip = s.thermtrip := rfl
@[simp] theorem State.dropStale_stopped (s : State)  : (s.dropStale).stopped = s.stopped := rfl
@[simp] theorem State.dropStale_nodeId (s : State)  : (s.dropStale).nodeId = s.nodeId := rfl
@[simp] theorem State.dropStale_faults (s : State)  : (s.dropStale).faults = s.faults := rfl
@[simp] theorem State.dropStale_faultSeq (s : State)  : (s.dropStale).faultSeq = s.faultSeq := rfl
@[simp] theorem State.dropStale_faultq (s : State)  : (s.dropStale).faultq = s.faultq := rfl
@[simp] theorem State.dropStale_kernels (s : State)  : (s.dropStale).kernels = s.kernels := rfl
@[simp] theorem State.dropStale_kcounts (s : State)  : (s.dropStale).kcounts = s.kcounts := rfl
@[simp] theorem State.dropStale_failed (s : State)  : (s.dropStale).failed = s.failed := rfl
@[simp] theorem State.dropStale_grids (s : State)  : (s.dropStale).grids = s.grids := rfl
@[simp] theorem State.dropStale_gridSeq (s : State)  : (s.dropStale).gridSeq = s.gridSeq := rfl
@[simp] theorem State.dropStale_tobind (s : State)  : (s.dropStale).tobind = s.tobind := rfl
@[simp] theorem State.dropStale_saves (s : State)  : (s.dropStale).saves = s.saves := rfl
@[simp] theorem State.dropStale_arrivals (s : State)  : (s.dropStale).arrivals = s.arrivals := rfl
@[simp] theorem State.dropStale_cmds (s : State)  : (s.dropStale).cmds = s.cmds := rfl
@[simp] theorem State.dropStale_sends (s : State)  : (s.dropStale).sends = s.sends := rfl
@[simp] theorem State.dropStale_msgs (s : State)  : (s.dropStale).msgs = s.msgs := rfl
@[simp] theorem State.dropStale_waiters (s : State)  : (s.dropStale).waiters = s.waiters := rfl
@[simp] theorem State.dropStale_patches (s : State)  : (s.dropStale).patches = s.patches := rfl
@[simp] theorem State.dropStale_cnts (s : State)  : (s.dropStale).cnts = s.cnts := rfl
@[simp] theorem State.dropStale_colls (s : State)  : (s.dropStale).colls = s.colls := rfl
@[simp] theorem State.dropStale_contribs (s : State)  : (s.dropStale).contribs = s.contribs := rfl
@[simp] theorem State.dropStale_collDone (s : State)  : (s.dropStale).collDone = s.collDone := rfl
@[simp] theorem State.dropStale_collTags (s : State)  : (s.dropStale).collTags = s.collTags := rfl
@[simp] theorem State.dropStale_collDead (s : State)  : (s.dropStale).collDead = s.collDead := rfl
@[simp] theorem State.dropStale_lazies (s : State)  : (s.dropStale).lazies = s.lazies := rfl
@[simp] theorem State.dropStale_tiles (s : State)  : (s.dropStale).tiles = s.tiles := rfl
@[simp] theorem State.dropStale_ports (s : State)  : (s.dropStale).ports = s.ports := rfl
@[simp] theorem State.dropStale_routes (s : State)  : (s.dropStale).routes = s.routes := rfl
@[simp] theorem State.dropStale_peersInc (s : State)  : (s.dropStale).peersInc = s.peersInc := rfl
@[simp] theorem State.dropStale_links (s : State)  : (s.dropStale).links = s.links := rfl
@[simp] theorem State.dropStale_heldReqs (s : State)  : (s.dropStale).heldReqs = s.heldReqs := rfl
@[simp] theorem State.dropStale_hostHeld (s : State)  : (s.dropStale).hostHeld = s.hostHeld := rfl
@[simp] theorem State.dropStale_hostReply (s : State)  : (s.dropStale).hostReply = s.hostReply := rfl
@[simp] theorem State.dropStale_nextId (s : State)  : (s.dropStale).nextId = s.nextId := rfl
@[simp] theorem State.dropStale_fw (s : State)  : (s.dropStale).fw = s.fw := rfl

/-! ### Blocks, waves and slots -/

theorem State.blk_setBlk (s : State) (i j : Nat) (x : Block) : (s.setBlk i x).blk j = if i = j then some x else s.blk j :=
  tget_tset ..
@[simp] theorem State.blk_setBlk_same (s : State) (i : Nat) (x : Block) : (s.setBlk i x).blk i = some x := tget_tset_same ..
theorem State.blk_modBlk (s : State) (i j : Nat) (f : Block → Block) :
    (s.modBlk i f).blk j = if i = j then (s.blk j).map f else s.blk j := tget_tmod ..
@[simp] theorem State.blk_modBlk_same (s : State) (i : Nat) (f : Block → Block) : (s.modBlk i f).blk i = (s.blk i).map f :=
  tget_tmod_same ..
@[simp] theorem State.blk_modWave_same (s : State) (i w : Nat) (f : Wave → Wave) :
    (s.modWave i w f).blk i = (s.blk i).map fun b => b.modWave w f := tget_tmod_same ..
theorem State.blk_modWave (s : State) (i w j : Nat) (f : Wave → Wave) :
    (s.modWave i w f).blk j = if i = j then (s.blk j).map fun b => b.modWave w f else s.blk j := tget_tmod ..
@[simp] theorem State.blk_setCore (s : State) (c i : Nat) (x : Core) : (s.setCore c x).blk i = s.blk i := rfl
@[simp] theorem State.blk_modCore (s : State) (c i : Nat) (f : Core → Core) : (s.modCore c f).blk i = s.blk i := rfl
@[simp] theorem State.blk_setCtx (s : State) (n i : Nat) (x : Ctx) : (s.setCtx n x).blk i = s.blk i := rfl
@[simp] theorem State.blk_modCtx (s : State) (n i : Nat) (f : Ctx → Ctx) : (s.modCtx n f).blk i = s.blk i := rfl

@[simp] theorem Wave.slot_setSlot_same (w : Wave) (k : Nat) (x : Slot) : (w.setSlot k x).slot k = x := by
  unfold Wave.setSlot Wave.slot; split <;> rfl
theorem Wave.slot_setSlot_other {w : Wave} {k j : Nat} (h : (k = 0) ≠ (j = 0)) (x : Slot) : (w.setSlot k x).slot j = w.slot j := by
  unfold Wave.setSlot Wave.slot
  by_cases hk : k = 0 <;> by_cases hj : j = 0 <;> simp_all
@[simp] theorem Wave.setSlot_setSlot (w : Wave) (k : Nat) (x y : Slot) : (w.setSlot k x).setSlot k y = w.setSlot k y := by
  unfold Wave.setSlot; split <;> rfl
@[simp] theorem Wave.setSlot_self (w : Wave) (k : Nat) : w.setSlot k (w.slot k) = w := by
  unfold Wave.setSlot Wave.slot; split <;> rfl

/-- A slot that is found is the slot of its wave in its block. -/
theorem State.view_some {s : State} {b w k : Nat} {v : View} (h : s.view b w k = some v) :
    s.blk b = some v.b ∧ tget v.b.waves w = some v.w ∧ v.sl = v.w.slot k ∧ v.bid = b ∧ v.wid = w ∧ v.k = k := by
  unfold State.view at h
  split at h
  · cases h
  · next x hx =>
    split at h
    · cases h
    · next y hy => cases h; exact ⟨hx, hy, rfl, rfl, rfl, rfl⟩
theorem State.view_of {s : State} {b w k : Nat} {x : Block} {y : Wave} (hx : s.blk b = some x) (hy : tget x.waves w = some y) :
    s.view b w k = some ⟨b, x, w, y, k, y.slot k⟩ := by
  simp [State.view, hx, hy]

/-- A slot after its wave is changed. -/
theorem State.view_modWave {s : State} {b w k : Nat} {v : View} (h : s.view b w k = some v) (f : Wave → Wave) (j : Nat) :
    (s.modWave b w f).view b w j = some ⟨b, v.b.modWave w f, w, f v.w, j, (f v.w).slot j⟩ := by
  obtain ⟨hb, hw, -⟩ := s.view_some h
  exact State.view_of (by simp [hb]) (by simp [Block.modWave, hw])
/-- A slot after it is changed. -/
theorem State.view_modSlot {s : State} {b w k : Nat} {v : View} (h : s.view b w k = some v) (f : Slot → Slot) :
    (s.modSlot b w k f).view b w k
      = some ⟨b, v.b.modWave w (fun x => x.setSlot k (f (x.slot k))), w, v.w.setSlot k (f v.sl), k, f v.sl⟩ := by
  obtain ⟨-, -, hs, -⟩ := s.view_some h
  rw [State.modSlot, State.view_modWave h]; simp [hs]

/-- Any slot of the wave after it is changed. -/
theorem State.view_modWave_k {s : State} {b w k : Nat} {v : View} (h : s.view b w k = some v) {f : Wave → Wave} :
    (s.modWave b w f).view b w k = some ⟨b, v.b.modWave w f, w, f v.w, k, (f v.w).slot k⟩ := State.view_modWave h f k
/-- The waves that are not changed. -/
theorem State.view_modWave_w {s : State} {b w b' w' k : Nat} {f : Wave → Wave} (h : ¬(b = b' ∧ w = w')) :
    ((s.modWave b w f).view b' w' k).map View.w = (s.view b' w' k).map View.w := by
  simp only [State.view]
  rw [State.blk_modWave]
  by_cases hb : b = b'
  · subst hb
    rw [if_pos rfl]
    cases s.blk b with
    | none => rfl
    | some x =>
      simp only [Option.map_some, Block.modWave]
      rw [tget_tmod_other fun e => h ⟨rfl, e.symm⟩]
      cases tget x.waves w' <;> rfl
  · rw [if_neg hb]

/-- Two changes of one block, wave or slot are one. -/
theorem State.modBlk_modBlk (s : State) (i : Nat) (f g : Block → Block) : (s.modBlk i f).modBlk i g = s.modBlk i fun b => g (f b) := by
  simp [State.modBlk, tmod_tmod]
theorem State.modWave_modWave (s : State) (i w : Nat) (f g : Wave → Wave) :
    (s.modWave i w f).modWave i w g = s.modWave i w fun x => g (f x) := by
  simp [State.modWave, State.modBlk_modBlk, Block.modWave, tmod_tmod]
theorem State.modSlot_modSlot (s : State) (i w k : Nat) (f g : Slot → Slot) :
    (s.modSlot i w k f).modSlot i w k g = s.modSlot i w k fun x => g (f x) := by
  simp [State.modSlot, State.modWave_modWave]

/-! ### Streams -/

theorem Block.stream_modStream {b : Block} {e e' : Engine} {ix ix' : Nat} {f : Stream → Stream}
    (hf : ∀ x, (f x).eng = x.eng ∧ (f x).ix = x.ix) :
    (b.modStream e ix f).stream e' ix' = if e = e' ∧ ix = ix' then (b.stream e ix).map f else b.stream e' ix' := by
  unfold Block.stream Block.modStream
  simp only
  induction b.streams with
  | nil => simp
  | cons x t ih =>
    simp only [List.map_cons, List.find?_cons]
    by_cases hx : x.eng = e ∧ x.ix = ix
    · rw [if_pos hx]
      simp only [(hf x).1, (hf x).2]
      by_cases hq : e = e' ∧ ix = ix'
      · obtain ⟨rfl, rfl⟩ := hq; simp [hx]
      · rw [if_neg hq] at ih ⊢
        have : (decide (x.eng = e') && decide (x.ix = ix')) = false := by
          rw [hx.1, hx.2]; simpa using hq
        simp only [this]; exact ih
    · rw [if_neg hx]
      by_cases hq : e = e' ∧ ix = ix'
      · obtain ⟨rfl, rfl⟩ := hq
        have : (decide (x.eng = e) && decide (x.ix = ix)) = false := by simpa using hx
        simp only [this] at ih ⊢
        simpa using ih
      · rw [if_neg hq] at ih ⊢
        by_cases hy : (decide (x.eng = e') && decide (x.ix = ix')) = true
        · simp [hy]
        · simp only [Bool.not_eq_true] at hy; simp only [hy]; exact ih
theorem Block.modStream_modStream {b : Block} {e : Engine} {ix : Nat} {f g : Stream → Stream}
    (hf : ∀ x, (f x).eng = x.eng ∧ (f x).ix = x.ix) :
    (b.modStream e ix f).modStream e ix g = b.modStream e ix fun x => g (f x) := by
  unfold Block.modStream
  simp only [List.map_map, Function.comp_def]
  congr 1
  apply List.map_congr_left
  intro x _
  by_cases hx : x.eng = e ∧ x.ix = ix
  · simp [hx, (hf x).1, (hf x).2]
  · simp [hx]
theorem State.modStream_modStream {s : State} {b : Nat} {e : Engine} {ix : Nat} {f g : Stream → Stream}
    (hf : ∀ x, (f x).eng = x.eng ∧ (f x).ix = x.ix) :
    (s.modStream b e ix f).modStream b e ix g = s.modStream b e ix fun x => g (f x) := by
  unfold State.modStream
  rw [State.modBlk_modBlk]
  congr 1
  funext y
  exact Block.modStream_modStream hf
theorem State.stream_modStream {s : State} {b : Nat} {e : Engine} {ix : Nat} {f : Stream → Stream}
    (hf : ∀ x, (f x).eng = x.eng ∧ (f x).ix = x.ix) :
    (((s.modStream b e ix f).blk b).bind fun y => y.stream e ix) = ((s.blk b).bind fun y => y.stream e ix).map f := by
  unfold State.modStream
  rw [State.blk_modBlk_same]
  cases s.blk b with
  | none => rfl
  | some x => simp [Block.stream_modStream hf]

@[simp] theorem State.view_setCore (s : State) (c : Nat) (x : Core) (b w k : Nat) : (s.setCore c x).view b w k = s.view b w k := rfl
@[simp] theorem State.view_modCore (s : State) (c : Nat) (f : Core → Core) (b w k : Nat) : (s.modCore c f).view b w k = s.view b w k := rfl
@[simp] theorem State.view_setCtx (s : State) (n : Nat) (x : Ctx) (b w k : Nat) : (s.setCtx n x).view b w k = s.view b w k := rfl
@[simp] theorem State.view_modCtx (s : State) (n : Nat) (f : Ctx → Ctx) (b w k : Nat) : (s.modCtx n f).view b w k = s.view b w k := rfl

/-! ### Cores and contexts -/

@[simp] theorem State.core_setCore_same (s : State) (c : Nat) (x : Core) : (s.setCore c x).core c = x := by
  simp [State.core, State.setCore]
theorem State.core_setCore_other {s : State} {c d : Nat} (h : d ≠ c) (x : Core) : (s.setCore c x).core d = s.core d := by
  simp [State.core, State.setCore, tget_tset_other h]
@[simp] theorem State.core_modCore_same (s : State) (c : Nat) (f : Core → Core) : (s.modCore c f).core c = f (s.core c) := by
  simp [State.modCore]
theorem State.core_modCore_other {s : State} {c d : Nat} (h : d ≠ c) (f : Core → Core) : (s.modCore c f).core d = s.core d :=
  State.core_setCore_other h _
theorem State.modCore_modCore (s : State) (c : Nat) (f g : Core → Core) : (s.modCore c f).modCore c g = s.modCore c fun k => g (f k) := by
  unfold State.modCore State.setCore; simp [tset_tset, State.core]
@[simp] theorem State.core_modBlk (s : State) (i : Nat) (f : Block → Block) (c : Nat) : (s.modBlk i f).core c = s.core c := rfl
@[simp] theorem State.core_setBlk (s : State) (i : Nat) (x : Block) (c : Nat) : (s.setBlk i x).core c = s.core c := rfl
@[simp] theorem State.core_modWave (s : State) (i w : Nat) (f : Wave → Wave) (c : Nat) : (s.modWave i w f).core c = s.core c := rfl
@[simp] theorem State.core_modSlot (s : State) (i w k : Nat) (f : Slot → Slot) (c : Nat) : (s.modSlot i w k f).core c = s.core c := rfl
@[simp] theorem State.core_modStream (s : State) (i : Nat) (e : Engine) (x : Nat) (f : Stream → Stream) (c : Nat) :
    (s.modStream i e x f).core c = s.core c := rfl
@[simp] theorem State.ctx_setCtx_same (s : State) (n : Nat) (x : Ctx) : (s.setCtx n x).ctx n = x := by
  simp [State.ctx, State.setCtx]
theorem State.ctx_setCtx_other {s : State} {m n : Nat} (h : m ≠ n) (x : Ctx) : (s.setCtx n x).ctx m = s.ctx m := by
  simp [State.ctx, State.setCtx, tget_tset_other h]
@[simp] theorem State.ctx_modCtx_same (s : State) (n : Nat) (f : Ctx → Ctx) : (s.modCtx n f).ctx n = f (s.ctx n) := by
  simp [State.modCtx]
theorem State.ctx_modCtx_other {s : State} {m n : Nat} (h : m ≠ n) (f : Ctx → Ctx) : (s.modCtx n f).ctx m = s.ctx m :=
  State.ctx_setCtx_other h _

end

end Sys2Proof.Machine
end

