-- ==== Sys2Proof/Laws/Memory.lean ====
section
/-! SUPPORT. What the memory operations do: reading after writing, and that every operation keeps the canonical form of package
memory and of host memory. -/

namespace Sys2Proof.Machine

/-! ### Reading after writing -/

/-- The line of a home after a line is set. -/
theorem State.line_set (s : State) (n m : Nat) (x : SLine) :
    ({ s with lines := tset s.lines n x } : State).line m = if n = m then x else s.line m := by
  unfold State.line
  simp only [tget_tset]
  split <;> rfl

/-- Filling leaves the listed bytes of a line, and lists the others as given. -/
theorem tget_fillFold (f : Nat → Byte) (k o : Nat) (n : Nat) (m : Tbl Byte) :
    tget ((List.range n).foldl (fun m i => if (tget m (k + i)).isSome then m else tset m (k + i) (f i)) m) o
      = (tget m o).or (if k ≤ o ∧ o < k + n then some (f (o - k)) else none) := by
  induction n with
  | zero => rw [if_neg (by omega), Option.or_none]; rfl
  | succ n ih =>
    rw [List.range_succ, List.foldl_append, List.foldl_cons, List.foldl_nil]
    by_cases ho : o = k + n
    · subst ho
      rw [if_neg (by omega), Option.or_none] at ih
      split
      · next h => rw [ih] at h ⊢; obtain ⟨v, hv⟩ := Option.isSome_iff_exists.1 h; rw [hv]; rfl
      · next h =>
        rw [tget_tset_same, ← ih, if_pos (by omega), show k + n - k = n by omega]
        cases hq : tget _ (k + n) with
        | none => rfl
        | some v => rw [hq] at h; exact absurd rfl h
    · have e : (if k ≤ o ∧ o < k + (n + 1) then some (f (o - k)) else none) = if k ≤ o ∧ o < k + n then some (f (o - k)) else none := by
        by_cases h : k ≤ o ∧ o < k + n
        · rw [if_pos h, if_pos (by omega)]
        · rw [if_neg h, if_neg (by omega)]
      rw [e, ← ih]
      split
      · rfl
      · rw [tget_tset_other ho]

theorem State.vaultRead_kept (s : State) (cell n : Nat) :
    (s.vaultRead cell n).lines = s.lines ∧ (s.vaultRead cell n).dram = s.dram ∧ (s.vaultRead cell n).ctxs = s.ctxs
      ∧ (s.vaultRead cell n).hostMem = s.hostMem := by
  unfold State.vaultRead
  split
  · exact ⟨rfl, rfl, rfl, rfl⟩
  · dsimp only
    generalize (s.vaultBad.filter _) = l
    have key : ∀ (l : List Nat) (t : State), (t.lines = s.lines ∧ t.dram = s.dram ∧ t.ctxs = s.ctxs ∧ t.hostMem = s.hostMem) →
        (l.foldl (fun (s : State) p => s.countErr UnitClass.vault (vaultOf (64 * p)) ErrKind.poisoned) t).lines = s.lines
        ∧ (l.foldl (fun (s : State) p => s.countErr UnitClass.vault (vaultOf (64 * p)) ErrKind.poisoned) t).dram = s.dram
        ∧ (l.foldl (fun (s : State) p => s.countErr UnitClass.vault (vaultOf (64 * p)) ErrKind.poisoned) t).ctxs = s.ctxs
        ∧ (l.foldl (fun (s : State) p => s.countErr UnitClass.vault (vaultOf (64 * p)) ErrKind.poisoned) t).hostMem = s.hostMem := by
      intro l
      induction l with
      | nil => intro t h; exact h
      | cons a l ih =>
        intro t h
        exact ih _ h
    exact key l _ ⟨rfl, rfl, rfl, rfl⟩

/-- A byte depends on the lines at the homes, on the vaults and on the queues that are registered. -/
theorem State.dramByte_of_eq {s t : State} (h1 : t.lines = s.lines) (h2 : t.dram = s.dram) (h3 : t.ctxs = s.ctxs) (c : Nat) :
    t.dramByte c = s.dramByte c := by
  unfold State.dramByte State.onAppend State.line State.vaultByte; rw [h1, h2, h3]

/-- A fill changes no byte (R105). -/
theorem State.dramByte_fillHome (s : State) (cell c : Nat) : (s.fillHome cell).dramByte c = s.dramByte c := by
  unfold State.fillHome
  dsimp only
  split
  · rfl
  · obtain ⟨h1, h2, h3, -⟩ := s.vaultRead_kept (cell / 64 * 64) 64
    unfold State.dramByte State.onAppend State.vaultByte
    simp only [h2, h3]
    split
    · rfl
    · unfold State.line
      simp only [tget_tset]
      by_cases h : cell / 256 = c / 256
      · rw [if_pos h, Option.getD_some, tget_fillFold, h]
        cases tget ((tget s.lines (c / 256)).getD SLine.empty).data (c % 256) with
        | some v => rfl
        | none =>
          simp only [Option.none_or, Option.getD_none]
          split
          · next hc =>
            rw [Option.getD_some]
            exact congrArg (cget 0 s.dram) (by omega)
          · rfl
      · rw [if_neg h]

theorem State.onAppend_of_eq {s t : State} (h : t.ctxs = s.ctxs) (c : Nat) : t.onAppend c = s.onAppend c := by
  unfold State.onAppend; rw [h]

theorem State.fillHome_ctxs (s : State) (cell : Nat) : (s.fillHome cell).ctxs = s.ctxs := by
  unfold State.fillHome
  dsimp only
  split
  · rfl
  · exact (s.vaultRead_kept _ _).2.2.1
theorem State.putByte_ctxs (s : State) (cell : Nat) (v : Byte) : (s.putByte cell v).ctxs = s.ctxs := by
  unfold State.putByte
  dsimp only
  split <;> rfl

/-- A byte after one byte is put into its home's line; APPEND takes no write (R105, R276, R279). -/
theorem State.dramByte_putByte (s : State) (cell : Nat) (v : Byte) (c : Nat) :
    (s.putByte cell v).dramByte c = if cell = c ∧ s.onAppend c = false then v else s.dramByte c := by
  unfold State.putByte
  dsimp only
  split
  · next h => rw [if_neg]; rintro ⟨rfl, h'⟩; rw [h] at h'; cases h'
  · next h =>
    refine (congrArg (fun x : SLine => if s.onAppend c then (0 : Byte) else (tget x.data (c % 256)).getD (s.vaultByte c))
      (State.line_set s (cell / 256) (c / 256) _)).trans ?_
    unfold State.dramByte
    by_cases hc : cell = c
    · subst hc
      rw [if_pos rfl, if_neg h, tget_tset_same, if_pos ⟨rfl, by simpa using h⟩]; rfl
    · rw [if_neg (show ¬(cell = c ∧ s.onAppend c = false) from fun e => hc e.1)]
      congr 1
      split
      · next h2 => rw [tget_tset_other (by omega), h2]
      · rfl

theorem State.dramByte_putBytes (s : State) (cell : Nat) (d : List Byte) (c : Nat) :
    (s.putBytes cell d).dramByte c = if (cell ≤ c ∧ c < cell + d.length) ∧ s.onAppend c = false then (d[c - cell]?).getD 0 else s.dramByte c := by
  induction d generalizing s cell with
  | nil => simp only [State.putBytes, List.length_nil]; rw [if_neg (by omega)]
  | cons v t ih =>
    rw [State.putBytes, ih, State.onAppend_of_eq (s.putByte_ctxs cell v), State.dramByte_putByte]
    by_cases h1 : (cell + 1 ≤ c ∧ c < cell + 1 + t.length) ∧ s.onAppend c = false
    · rw [if_pos h1, if_pos ⟨by simp only [List.length_cons]; omega, h1.2⟩]
      obtain ⟨k, hk⟩ : ∃ k, c - cell = k + 1 := ⟨c - cell - 1, by omega⟩
      rw [hk, show c - (cell + 1) = k by omega, List.getElem?_cons_succ]
    · rw [if_neg h1]
      by_cases hc : cell = c ∧ s.onAppend c = false
      · rw [if_pos hc, if_pos ⟨by simp only [List.length_cons]; omega, hc.2⟩]
        rw [show c - cell = 0 by omega]; rfl
      · rw [if_neg hc, if_neg]
        rintro ⟨h2, h3⟩
        simp only [List.length_cons] at h2
        have : cell ≠ c := fun e => hc ⟨e, h3⟩
        exact h1 ⟨by omega, h3⟩

/-- A byte after a write of bytes: the byte written there, but on APPEND, else as before. -/
theorem State.dramByte_dramWrite (s : State) (cell : Nat) (d : List Byte) (c : Nat) :
    (s.dramWrite cell d).dramByte c = if (cell ≤ c ∧ c < cell + d.length) ∧ s.onAppend c = false then (d[c - cell]?).getD 0 else s.dramByte c := by
  unfold State.dramWrite
  dsimp only
  rw [State.dramByte_putBytes]
  have e : ∀ (p : Prop) [Decidable p] (t : State) (k : Nat), (if p then t else t.fillHome k).dramByte c = t.dramByte c := by
    intro p _ t k; split
    · rfl
    · exact t.dramByte_fillHome k c
  have e2 : ∀ (p : Prop) [Decidable p] (t : State) (k : Nat), (if p then t else t.fillHome k).onAppend c = t.onAppend c := by
    intro p _ t k; split
    · rfl
    · exact State.onAppend_of_eq (t.fillHome_ctxs k) c
  rw [e, e2, e, e2]

/-! ### The canonical form -/

theorem State.reset_memWf : State.reset.MemWf := ⟨rfl, rfl, rfl⟩

/-- The form depends on the memories only. -/
theorem State.MemWf.of_eq {s t : State} (h : s.MemWf) (hd : t.dram = s.dram) (hh : t.hostMem = s.hostMem) (hl : t.lines = s.lines) :
    t.MemWf := ⟨by rw [hd]; exact h.1, by rw [hh]; exact h.2.1, by rw [hl]; exact h.2.2⟩

/-- A fold of operations that keep the form keeps it. -/
theorem State.MemWf.foldl {β : Type} {f : State → β → State} (hf : ∀ s b, s.MemWf → (f s b).MemWf) (l : List β) {s : State}
    (h : s.MemWf) : (l.foldl f s).MemWf := by
  induction l generalizing s with
  | nil => exact h
  | cons b l ih => exact ih (hf s b h)

theorem State.MemWf.modCore {s : State} (h : s.MemWf) (c : Nat) (f : Core → Core) : (s.modCore c f).MemWf := h.of_eq rfl rfl rfl
theorem State.MemWf.setBlk {s : State} (h : s.MemWf) (i : Nat) (b : Block) : (s.setBlk i b).MemWf := h.of_eq rfl rfl rfl
theorem State.MemWf.modBlk {s : State} (h : s.MemWf) (i : Nat) (f : Block → Block) : (s.modBlk i f).MemWf := h.of_eq rfl rfl rfl
theorem State.MemWf.unpoison {s : State} (h : s.MemWf) (cell n : Nat) : (s.unpoison cell n).MemWf := h.of_eq rfl rfl rfl
theorem State.MemWf.vaultRead {s : State} (h : s.MemWf) (cell n : Nat) : (s.vaultRead cell n).MemWf :=
  have k := s.vaultRead_kept cell n
  h.of_eq k.2.1 k.2.2.2 k.1

/-- The bytes of a line at a home are in order. -/
theorem linesWf_line {l : Tbl SLine} (h : Memory.linesWf l = true) (n : Nat) : twf ((tget l n).getD SLine.empty).data = true := by
  simp only [Memory.linesWf, Bool.and_eq_true, List.all_eq_true] at h
  cases e : tget l n with
  | none => rfl
  | some x => exact h.2 _ (mem_of_tget e)
theorem linesWf_tset {l : Tbl SLine} (h : Memory.linesWf l = true) (n : Nat) {x : SLine} (hx : twf x.data = true) :
    Memory.linesWf (tset l n x) = true := by
  simp only [Memory.linesWf, Bool.and_eq_true, List.all_eq_true] at *
  refine ⟨twf_tset n x h.1, fun e he => ?_⟩
  rcases mem_tset he with he | rfl
  · exact h.2 e he
  · exact hx
theorem linesWf_tdel {l : Tbl SLine} (h : Memory.linesWf l = true) (n : Nat) : Memory.linesWf (tdel l n) = true := by
  simp only [Memory.linesWf, Bool.and_eq_true, List.all_eq_true] at *
  exact ⟨twf_tdel n h.1, fun e he => h.2 e (mem_tdel he)⟩

/-- Conditional writes of a list keep the form. -/
theorem cwf_foldl_if {β : Type} (l : List β) (p : β → Bool) (key : β → Nat) (val : β → Byte) {t : Mem} (h : cwf 0 t = true) :
    cwf 0 (l.foldl (fun m e => if p e then cset 0 m (key e) (val e) else m) t) = true := by
  induction l generalizing t with
  | nil => exact h
  | cons b l ih =>
    refine ih ?_
    dsimp only
    split
    · exact cwf_cset _ _ h
    · exact h

theorem twf_fillFold (f : Nat → Byte) (k : Nat) (l : List Nat) {m : Tbl Byte} (h : twf m = true) :
    twf (l.foldl (fun m i => if (tget m (k + i)).isSome then m else tset m (k + i) (f i)) m) = true := by
  induction l generalizing m with
  | nil => exact h
  | cons b l ih =>
    refine ih ?_
    dsimp only
    split
    · exact h
    · exact twf_tset _ _ h

theorem State.MemWf.fillHome {s : State} (h : s.MemWf) (cell : Nat) : (s.fillHome cell).MemWf := by
  unfold State.fillHome
  dsimp only
  split
  · exact h
  · obtain ⟨-, h2, -, h4⟩ := s.vaultRead_kept (cell / 64 * 64) 64
    revert h2 h4
    generalize s.vaultRead (cell / 64 * 64) 64 = u
    intro h2 h4
    refine ⟨(congrArg Memory.wf h2).trans h.1, (congrArg Memory.wf h4).trans h.2.1, linesWf_tset h.2.2 _ ?_⟩
    generalize List.range 64 = l
    exact twf_fillFold (fun i => s.vaultByte (cell / 64 * 64 + i)) _ l (linesWf_line h.2.2 _)
theorem State.MemWf.putByte {s : State} (h : s.MemWf) (cell : Nat) (v : Byte) : (s.putByte cell v).MemWf := by
  unfold State.putByte
  dsimp only
  split
  · exact h
  · exact ⟨h.1, h.2.1, linesWf_tset h.2.2 _ (twf_tset _ _ (linesWf_line h.2.2 _))⟩
theorem State.MemWf.putBytes {s : State} (h : s.MemWf) (cell : Nat) (d : List Byte) : (s.putBytes cell d).MemWf := by
  induction d generalizing s cell with
  | nil => exact h
  | cons v t ih => exact ih (h.putByte cell v) _
theorem State.MemWf.dramWrite {s : State} (h : s.MemWf) (cell : Nat) (d : List Byte) : (s.dramWrite cell d).MemWf := by
  unfold State.dramWrite
  dsimp only
  have e : ∀ (p : Prop) [Decidable p] (t : State) (k : Nat), t.MemWf → (if p then t else t.fillHome k).MemWf := by
    intro p _ t k h; split
    · exact h
    · exact h.fillHome k
  exact (e _ _ _ (e _ _ _ h)).putBytes _ _

theorem State.MemWf.lineOut {s : State} (h : s.MemWf) (n : Nat) : (s.lineOut n).MemWf := by
  unfold State.lineOut
  split
  · exact h
  · next x _ =>
    refine ⟨?_, h.2.1, linesWf_tdel h.2.2 n⟩
    generalize List.range 256 = l
    exact cwf_foldl_if l (fun i => x.mask.getLsbD (i / 8) && x.dirty.getLsbD (i / 64)) (fun i => 256 * n + i)
      (fun i => (tget x.data i).getD 0) h.1

theorem State.MemWf.landHome {s : State} (h : s.MemWf) (c : Nat) (e : VWrite) : (s.landHome c e).MemWf := by
  unfold State.landHome
  split
  · exact ((h.dramWrite e.addr e.data).of_eq (t := { s.dramWrite e.addr e.data with
      poison := (s.dramWrite e.addr e.data).poison.filter fun p => !e.cleans.contains p }) rfl rfl rfl).modCore _ _
  · exact h.setBlk _ _
theorem State.MemWf.landQ {s : State} (h : s.MemWf) (c n : Nat) : (s.landQ c n).MemWf := by
  induction n generalizing s with
  | zero => exact h
  | succ n ih =>
    unfold State.landQ
    split
    · exact h
    · exact ih ((h.modCore _ _).landHome _ _)
theorem State.MemWf.writeBack {s : State} (h : s.MemWf) (c cell n : Nat) : (s.writeBack c cell n).MemWf := h.landQ _ _
theorem State.MemWf.writeBackAll {s : State} (h : s.MemWf) (c : Nat) : (s.writeBackAll c).MemWf :=
  State.MemWf.foldl (fun _ _ ht => ht.landHome _ _) _ (h.modCore _ _)
theorem State.MemWf.landOne {s : State} (h : s.MemWf) (c : Nat) : (s.landOne c).MemWf := by
  unfold State.landOne
  dsimp only
  (repeat' split)
  · exact h
  · exact h.modCore _ _
  · exact h.landQ _ _
theorem State.MemWf.landAll {s : State} (h : s.MemWf) (c : Nat) : (s.landAll c).MemWf := by
  unfold State.landAll
  split
  · exact h.modCore _ _
  · exact h.landQ _ _

theorem State.MemWf.commit {s : State} (h : s.MemWf) (bid : Nat) : (s.commit bid).MemWf := by
  unfold State.commit
  split
  · exact h
  · next b _ =>
    dsimp only
    refine State.MemWf.modCore ((State.MemWf.of_eq ?_ rfl rfl rfl).setBlk _ _) _ _
    · refine State.MemWf.foldl (fun _ _ ht => ht.putByte _ _) _ (State.MemWf.foldl (fun t e ht => ?_) _ h)
      split
      · exact ht
      · exact ht.fillHome _

theorem State.MemWf.discard {s : State} (h : s.MemWf) (bid : Nat) : (s.discard bid).MemWf := (h.modBlk _ _).modCore _ _
theorem State.MemWf.openInterval {s : State} (h : s.MemWf) (bid : Nat) : (s.openInterval bid).MemWf := (h.commit bid).modBlk _ _

theorem State.MemWf.chargeLine {s : State} (h : s.MemWf) (bid : Option Nat) (cell : Nat) : (s.chargeLine bid cell).MemWf := by
  unfold State.chargeLine
  (repeat' split)
  · exact h
  · exact h
  · exact h.openInterval _
  · exact h.setBlk _ _

theorem State.MemWf.weakStore {s : State} (h : s.MemWf) (c : Nat) (bid : Option Nat) (pa cell : Nat) (d : List Byte) (cl : List Nat) :
    (s.weakStore c bid pa cell d cl).MemWf := by
  unfold State.weakStore
  have h := h.chargeLine bid cell
  dsimp only
  (repeat' split)
  · exact h.modCore _ _
  · exact h.modCore _ _
  · exact (h.landQ _ _).landHome _ _

theorem State.MemWf.fillSector {s : State} (h : s.MemWf) (c key : Nat) : (s.fillSector c key).MemWf := by
  unfold State.fillSector
  split
  · exact h.modCore _ _
  · exact h
theorem State.MemWf.fillHalf {s : State} (h : s.MemWf) (c key : Nat) : (s.fillHalf c key).MemWf := by
  unfold State.fillHalf
  split
  · exact h.modCore _ _
  · exact h

theorem State.MemWf.weakLoad {s : State} (h : s.MemWf) (c : Nat) (bid : Option Nat) (cell n : Nat) : (s.weakLoad c bid cell n).1.MemWf := by
  unfold State.weakLoad
  dsimp only
  split
  · exact h.fillHalf _ _
  · exact h.fillSector _ _

theorem State.MemWf.toHome {s : State} (h : s.MemWf) (c cell n : Nat) : (s.toHome c cell n).MemWf := (h.writeBack _ _ _).modCore _ _

theorem State.MemWf.strongLoad {s : State} (h : s.MemWf) (c : Nat) (bid : Option Nat) (cell n : Nat) :
    (s.strongLoad c bid cell n).1.MemWf := h.toHome _ _ _

theorem State.MemWf.strongStore {s : State} (h : s.MemWf) (c : Nat) (bid : Option Nat) (cell : Nat) (d : List Byte) :
    (s.strongStore c bid cell d).MemWf := by
  unfold State.strongStore
  dsimp only
  split
  · exact (((h.toHome _ _ _).openInterval _).dramWrite _ _).unpoison _ _
  · exact ((h.toHome _ _ _).dramWrite _ _).unpoison _ _

theorem State.MemWf.releaseSide {s : State} (h : s.MemWf) (c : Nat) (bid : Option Nat) (sc : Scope) : (s.releaseSide c bid sc).MemWf := by
  unfold State.releaseSide
  split
  · exact h
  · exact h
  all_goals
    dsimp only
    split
    · exact (h.writeBackAll _).openInterval _
    · exact h.writeBackAll _

theorem State.MemWf.acquireSide {s : State} (h : s.MemWf) (c : Nat) (sc : Scope) : (s.acquireSide c sc).MemWf := by
  unfold State.acquireSide
  split
  · exact h
  · exact h
  · exact h.modCore _ _

theorem State.MemWf.cacheWalk {s : State} (h : s.MemWf) (c : Nat) (p : List (Nat × XEnt)) (g : XEnt) : (s.cacheWalk c p g).MemWf :=
  h.of_eq rfl rfl rfl

theorem State.MemWf.translate {s : State} (h : s.MemWf) (c : Nat) (t : Tag) (va : Nat) (nd : Need) : (s.translate c t va nd).1.MemWf := by
  unfold State.translate
  (repeat' split)
  all_goals first | exact h | exact h.cacheWalk _ _ _ | exact h.of_eq rfl rfl rfl

theorem State.MemWf.sysRead {s : State} (h : s.MemWf) (c : Nat) (t : Tag) (va n : Nat) : (s.sysRead c t va n).1.MemWf := by
  have ht := h.translate c t va ⟨true, false, false⟩
  unfold State.sysRead
  split
  · next e => rw [e] at ht; (dsimp only; split <;> first | exact ht.vaultRead _ _ | exact (ht.vaultRead _ _).strongLoad _ none _ _)
  · next e => rw [e] at ht; exact ht
  · next s' _ _ _ e => rw [e] at ht; exact ht

theorem State.MemWf.sysReadN {s : State} (h : s.MemWf) (c : Nat) (t : Tag) (va fuel n : Nat) : (s.sysReadN c t va fuel n).1.MemWf := by
  induction fuel generalizing s va n with
  | zero => exact h
  | succ k ih =>
    unfold State.sysReadN
    split
    · exact h
    · have h1 := h.sysRead c t va (min n (64 - va % 64))
      dsimp only
      split
      · next e => rw [e] at h1; exact h1
      · next e =>
        rw [e] at h1
        split <;> next e2 => have := ih h1 (va + min n (64 - va % 64)) (n - min n (64 - va % 64)); rw [e2] at this; exact this

theorem State.MemWf.sysBytes {s : State} (h : s.MemWf) (c : Nat) (t : Tag) (va n : Nat) : (s.sysBytes c t va n).1.MemWf :=
  h.sysReadN _ _ _ _ _

theorem State.MemWf.sysWrite {s : State} (h : s.MemWf) (c : Nat) (t : Tag) (w : Bool) (va : Nat) (d : List Byte) :
    (s.sysWrite c t w va d).1.MemWf := by
  have ht := h.translate c t va ⟨false, w, false⟩
  unfold State.sysWrite
  split
  · next e => rw [e] at ht; dsimp only at ht ⊢; exact ht.strongStore c none _ d
  · next pa e => rw [e] at ht; exact ⟨ht.1, cwf_foldl d.zipIdx (fun e => pa + e.2) (fun e => e.1) ht.2.1, ht.2.2⟩
  · next s' _ _ _ e => rw [e] at ht; exact ht

theorem State.MemWf.sysWriteN {s : State} (h : s.MemWf) (c : Nat) (t : Tag) (w : Bool) (va fuel : Nat) (d : List Byte) :
    (s.sysWriteN c t w va fuel d).1.MemWf := by
  induction fuel generalizing s va d with
  | zero => exact h
  | succ k ih =>
    unfold State.sysWriteN
    split
    · exact h
    · have h1 := h.sysWrite c t w va (d.take (min d.length (64 - va % 64)))
      dsimp only
      split
      · next e => rw [e] at h1; exact h1
      · next e => rw [e] at h1; exact ih h1 _ _

theorem State.MemWf.sysPut {s : State} (h : s.MemWf) (c : Nat) (t : Tag) (va : Nat) (d : List Byte) : (s.sysPut c t va d).1.MemWf :=
  h.sysWriteN _ _ _ _ _ _
theorem State.MemWf.sysHead {s : State} (h : s.MemWf) (t : Tag) (va : Nat) (d : List Byte) : (s.sysHead t va d).MemWf :=
  h.sysWriteN _ _ _ _ _ _

end Sys2Proof.Machine
end

