-- ==== Sys2Proof/Laws/Ops.lean ====
section
/-! SUPPORT. What the shared operations do, said once each: the snapshot check, retirement, the writes of scalar, mask and
vector registers, and the lookups of the issuer. -/

namespace Sys2Proof.Machine

section
set_option Elab.async false

/-! ### The issuer -/

theorem State.Slotted.blk {s : State} {v : View} (h : s.Slotted v) : s.blk v.bid = some v.b := (s.view_some h.view).1
theorem State.Slotted.wave {s : State} {v : View} (h : s.Slotted v) : tget v.b.waves v.wid = some v.w := (s.view_some h.view).2.1
theorem State.Slotted.slot {s : State} {v : View} (h : s.Slotted v) : v.sl = v.w.slot v.k := (s.view_some h.view).2.2.1

theorem State.onSlot_eq {s : State} {v : View} (h : s.Slotted v) (f : View → Out) : s.onSlot f = f v := by
  simp [State.onSlot, h.cur, h.view]
theorem State.onAny_eq {s : State} (h : s.HasIssuer) (o : Out) : s.onAny o = o := by
  rcases h with ⟨v, h⟩ | ⟨b, e, ix, x, h⟩
  · simp [State.onAny, h.cur, h.view]
  · simp [State.onAny, h.cur, h.found]

/-! ### The scalars and masks of a wave -/

theorem sreadW_swrite_same {w : Wave} {k : Nat} {d : SReg} {x : Word64} : sreadW (w.swrite k d x) k d = if d = 0 then 0 else x := by
  unfold sreadW
  by_cases hd : d = 0
  · simp [hd]
  · have : (w.swrite k d x).split = w.split := by unfold Wave.swrite Wave.setSlot; (repeat' split) <;> rfl
    rw [if_neg hd, if_neg hd, this]
    by_cases hs : w.split
    · have : ((w.swrite k d x).slot k).priv = tset (w.slot k).priv d.toNat x := by
        rw [Wave.swrite, if_neg hd, if_pos hs, Wave.slot_setSlot_same]
      rw [if_pos hs, this]; simp
    · rw [if_neg hs, Wave.swrite, if_neg hd, if_neg hs]; simp

theorem sreadW_swrite_other {w : Wave} {k j : Nat} {d n : SReg} {x : Word64} (h : n ≠ d) : sreadW (w.swrite k d x) j n = sreadW w j n := by
  have hn : n.toNat ≠ d.toNat := fun e => h (BitVec.eq_of_toNat_eq e)
  unfold Wave.swrite
  by_cases hd : d = 0
  · simp [hd]
  · rw [if_neg hd]
    by_cases hs : w.split
    · rw [if_pos hs]
      have hsp : ∀ y : Slot, (w.setSlot k y).split = w.split := by intro y; unfold Wave.setSlot; split <;> rfl
      have hsr : ∀ y : Slot, (w.setSlot k y).sregs = w.sregs := by intro y; unfold Wave.setSlot; split <;> rfl
      unfold sreadW
      rw [hsp, hsr]
      by_cases hkj : (k = 0) = (j = 0)
      · have hj : ∀ y : Slot, (w.setSlot k y).slot j = y := by
          intro y; unfold Wave.setSlot Wave.slot; by_cases hk : k = 0 <;> simp_all
        have hj' : w.slot k = w.slot j := by unfold Wave.slot; by_cases hk : k = 0 <;> simp_all
        rw [hj, hj']; simp only [tget_tset_other hn]
      · rw [Wave.slot_setSlot_other hkj]
    · simp [sreadW, hs, cget_cset_other hn]

/-- The wave an issuer's lookups read. -/
theorem State.sread_slot {s : State} {b w k : Nat} {v : View} (h : s.view b w k = some v) (n : SReg) :
    s.sread (.slot b w k) n = sreadW v.w k n := by simp [State.sread, h]

/-- A change of a wave that leaves a scalar as its slots read it leaves it for every issuer. -/
theorem State.sread_modWave {s : State} {b w : Nat} {f : Wave → Wave} {n : SReg} (h : ∀ y k, sreadW (f y) k n = sreadW y k n)
    (who : Issuer) : (s.modWave b w f).sread who n = s.sread who n := by
  cases who with
  | slot b' w' k' =>
    simp only [State.sread, State.view]
    by_cases hb : b = b'
    · subst hb
      rw [State.blk_modWave_same]
      cases hx : s.blk b with
      | none => rfl
      | some x =>
        simp only [Option.map_some, Block.modWave]
        by_cases hw : w = w'
        · subst hw
          rw [tget_tmod_same]
          cases hy : tget x.waves w with
          | none => rfl
          | some y => simp only [Option.map_some, h]
        · rw [tget_tmod_other (Ne.symm hw)]
          cases hy : tget x.waves w' <;> rfl
    · rw [State.blk_modWave, if_neg hb]
  | stream b' e ix =>
    simp only [State.sread]
    split
    · rfl
    · congr 1
      rw [State.blk_modWave]
      split
      · next hb => subst hb; cases s.blk b <;> rfl
      · rfl

/-! ### The snapshot check (R344) -/

theorem Block.modWave_isOpen (b : Block) (w : Nat) (f : Wave → Wave) : (b.modWave w f).isOpen = b.isOpen := rfl
theorem Block.modWave_touched (b : Block) (w : Nat) (f : Wave → Wave) : (b.modWave w f).touched = b.touched := rfl

theorem State.snapUsed_modBlk {s : State} {i : Nat} {f : Block → Block} (h : ∀ b, (f b).isOpen = b.isOpen ∧ (f b).touched = b.touched)
    (c : Nat) : (s.modBlk i f).snapUsed c = s.snapUsed c := by
  unfold State.snapUsed State.modBlk
  generalize 0 = z
  simp only
  generalize s.blocks = t
  induction t generalizing z with
  | nil => rfl
  | cons e t ih =>
    obtain ⟨k, b⟩ := e
    simp only [tmod]
    split
    · simp only [List.foldl_cons, (h b).1, (h b).2]
    · simp only [List.foldl_cons]; exact ih _
theorem State.snapUsed_modWave (s : State) (i w : Nat) (f : Wave → Wave) (c : Nat) : (s.modWave i w f).snapUsed c = s.snapUsed c :=
  State.snapUsed_modBlk (f := fun b => b.modWave w f) (fun _ => ⟨rfl, rfl⟩) c
theorem State.snapUsed_modSlot (s : State) (i w k : Nat) (f : Slot → Slot) (c : Nat) : (s.modSlot i w k f).snapUsed c = s.snapUsed c :=
  s.snapUsed_modWave i w _ c

/-- With room, or an open interval, the check changes nothing. -/
theorem State.snapCheck_eq {s : State} {i : Nat} (h : ∀ x, s.blk i = some x → x.isOpen = true ∨ s.snapUsed (coreOf i) ≤ 0x200000) :
    s.snapCheck i = s := by
  unfold State.snapCheck
  split
  · rfl
  · next b hb =>
    rw [if_neg]
    rintro ⟨ho, hu⟩
    rcases h b hb with h | h
    · rw [ho] at h; cases h
    · omega
theorem State.snapCheck_modWave {s : State} {i w : Nat} {f : Wave → Wave}
    (h : ∀ x, s.blk i = some x → x.isOpen = true ∨ s.snapUsed (coreOf i) ≤ 0x200000) :
    (s.modWave i w f).snapCheck i = s.modWave i w f := by
  apply State.snapCheck_eq
  intro x hx
  rw [State.blk_modWave_same] at hx
  cases hb : s.blk i with
  | none => rw [hb] at hx; cases hx
  | some b =>
    rw [hb] at hx; cases hx
    rw [State.snapUsed_modWave]
    exact h b hb

/-! ### Retirement -/

theorem Slot.retired_eq (x : Slot) (ir : IR) (k0 : Option Word32) (npc : Pc) : x.retired ir k0 npc = x.after ir k0 npc := by
  unfold Slot.retired Slot.after Slot.folded Slot.count Slot.sigAfter
  cases k0 <;> simp <;> split <;> rfl

/-- The cover of a wave. -/
def Wave.cover (k : Nat) (x : Wave) : Wave := { x with sregs := [], kregs := [] }.setSlot k Slot.off

theorem State.covered_slot {s : State} {b w k : Nat} (h : s.cur = .slot b w k) : s.covered =
    ((s.modWave b w (Wave.cover k)).modBlk b fun x => { x with touched := [] }).modCore (coreOf b) fun c => { c with slow := [], fast := [], bad := [], soft := [] } := by
  unfold State.covered; rw [h]; rfl

/-- A change of the issuer's own wave is covered when it is to its registers and its slot alone. -/
theorem State.covered_modWave {s : State} {b w k : Nat} {f : Wave → Wave} (h : s.cur = .slot b w k)
    (hf : ∀ y, (f y).cover k = y.cover k) : (s.modWave b w f).covered = s.covered := by
  rw [State.covered_slot h, State.covered_slot (s := s.modWave b w f) (by simpa using h)]
  rw [State.modWave_modWave]
  have : (fun y => Wave.cover k (f y)) = Wave.cover k := funext hf
  rw [this]

/-- Nothing changes. -/
theorem State.kept_refl (s : State) (sd : Option SReg) (kd : Option KNum) (vp : List Nat) : s.Kept s sd kd vp :=
  ⟨rfl, fun _ _ _ => rfl, fun _ _ _ _ _ h h' => by rw [h] at h'; cases h'; exact fun _ _ _ => rfl, fun _ _ _ => rfl, fun _ _ h => h,
   fun _ => rfl, fun _ => rfl⟩

/-- A change of the issuer's own wave to its registers and its slot alone. -/
theorem State.kept_modWave {s : State} {b w k : Nat} {g : Wave → Wave} {sd : Option SReg} {kd : Option KNum} {vp : List Nat}
    (hc : s.cur = .slot b w k) (hg : ∀ y, (g y).cover k = y.cover k)
    (hs : ∀ y j n, some n ≠ sd → sreadW (g y) j n = sreadW y j n)
    (hk : ∀ y (n : KNum), n ≠ 0 → some n ≠ kd → cget 0 (g y).kregs n.toNat = cget 0 y.kregs n.toNat) :
    s.Kept (s.modWave b w g) sd kd vp where
  rest := State.covered_modWave hc hg
  scalars who n h := State.sread_modWave (fun y j => hs y j n h) who
  masks b' w' k' v u hv hu n hn hd := by
    by_cases hb : b = b' ∧ w = w'
    · obtain ⟨rfl, rfl⟩ := hb
      rw [State.view_modWave_k hv] at hu
      cases hu
      simp only [kread, if_neg hn]
      exact hk _ _ hn hd
    · have := State.view_modWave_w (s := s) (f := g) (k := k') hb
      rw [hv, hu] at this
      simp only [Option.map_some, Option.some.injEq] at this
      simp only [kread, if_neg hn]; rw [this]
  vectors _ _ _ := rfl
  marks _ _ h := h
  memory _ := rfl
  host _ := rfl

/-! ### Streams -/

/-- The cover of a stream. -/
def Stream.cover (x : Stream) : Stream :=
  { x with pc := 0, status := .off, ir := ⟨0, 0, 0, none⟩, expand := none, answers := [], sregs := [] }

theorem State.Streamed.found_mod {s : State} {b ix : Nat} {e : Engine} {x : Stream} (h : s.Streamed b e ix x) (f : Stream → Stream)
    (hf : ∀ x, (f x).eng = x.eng ∧ (f x).ix = x.ix) :
    (((s.modStream b e ix f).blk b).bind fun y => y.stream e ix) = some (f x) := by
  rw [State.stream_modStream hf, h.found]; rfl

/-- A change of the issuing stream to its registers and its sequencing state alone. -/
theorem State.kept_modStream {s : State} {b ix : Nat} {e : Engine} {g : Stream → Stream} {sd : Option SReg} {kd : Option KNum}
    {vp : List Nat} (hc : s.cur = .stream b e ix) (hg : ∀ y, (g y).cover = y.cover) (hid : ∀ y, (g y).eng = y.eng ∧ (g y).ix = y.ix)
    (hs : ∀ y n, some n ≠ sd → cget 0 (g y).sregs n.toNat = cget 0 y.sregs n.toNat) :
    s.Kept (s.modStream b e ix g) sd kd vp where
  rest := by
    unfold State.covered
    simp only [State.modStream_cur, hc]
    have := State.modStream_modStream (s := s) (b := b) (e := e) (ix := ix) (g := Stream.cover) hid
    simp only [hg] at this
    exact congrArg (fun z => z.modCore (coreOf b) fun c => { c with slow := [], fast := [], bad := [], soft := [] }) this
  scalars who n h := by
    cases who with
    | slot b' w' k' =>
      simp only [State.sread, State.view]
      unfold State.modStream
      rw [State.blk_modBlk]
      by_cases hb : b = b'
      · subst hb
        rw [if_pos rfl]
        cases s.blk b with
        | none => rfl
        | some x => simp only [Option.map_some, Block.modStream]; cases tget x.waves w' <;> rfl
      · rw [if_neg hb]
    | stream b' e' ix' =>
      simp only [State.sread]
      split
      · rfl
      · by_cases hb : b = b'
        · subst hb
          unfold State.modStream
          rw [State.blk_modBlk_same]
          cases s.blk b with
          | none => rfl
          | some x =>
            simp only [Option.map_some, Option.bind_some, Block.stream_modStream hid]
            by_cases hq : e = e' ∧ ix = ix'
            · obtain ⟨rfl, rfl⟩ := hq
              rw [if_pos ⟨rfl, rfl⟩]
              cases x.stream e ix with
              | none => rfl
              | some y => exact hs y n h
            · rw [if_neg hq]
        · unfold State.modStream; rw [State.blk_modBlk, if_neg hb]
  masks b' w' k' v u hv hu n hn hd := by
    have : (s.modStream b e ix g).view b' w' k' = (s.view b' w' k').map fun z => { z with b := if b = b' then z.b.modStream e ix g else z.b } := by
      simp only [State.view]
      unfold State.modStream
      rw [State.blk_modBlk]
      by_cases hb : b = b'
      · subst hb
        rw [if_pos rfl]
        cases s.blk b with
        | none => rfl
        | some x => simp only [Option.map_some, Block.modStream]; cases tget x.waves w' <;> simp
      · rw [if_neg hb]
        cases s.blk b' with
        | none => rfl
        | some x => simp only [hb]; cases tget x.waves w' <;> simp
    rw [hv, hu] at this
    simp only [Option.map_some, Option.some.injEq] at this
    subst this; rfl
  vectors _ _ _ := rfl
  marks _ _ h := h
  memory _ := rfl
  host _ := rfl

/-! ### Retirement and the writes of scalars -/

theorem State.retireTo_slot {s : State} {b w k : Nat} (h : s.cur = .slot b w k) (hr : s.Room 0) (npc : Pc) (k0 : Option Word32) :
    s.retireTo npc k0 = s.modSlot b w k fun x => x.after s.ir k0 npc := by
  unfold State.retireTo; rw [h]; simp only [Slot.retired_eq]
  exact State.snapCheck_modWave fun x hx => by simpa using hr b w k x h hx
theorem State.retireTo_stream {s : State} {b ix : Nat} {e : Engine} (h : s.cur = .stream b e ix) (npc : Pc) (k0 : Option Word32) :
    s.retireTo npc k0 = s.modStream b e ix fun x => x.after s.ir npc := by
  unfold State.retireTo; rw [h]; rfl

theorem Wave.cover_setSlot (k : Nat) (w : Wave) (x : Slot) : (w.setSlot k x).cover k = w.cover k := by
  unfold Wave.cover Wave.setSlot; split <;> rfl
theorem Wave.cover_swrite (k : Nat) (w : Wave) (n : SReg) (x : Word64) : (w.swrite k n x).cover k = w.cover k := by
  unfold Wave.swrite Wave.cover Wave.setSlot
  (repeat' split) <;> rfl
theorem sreadW_after (w : Wave) (k j : Nat) (n : SReg) (ir : IR) (k0 : Option Word32) (npc : Pc) :
    sreadW (w.setSlot k ((w.slot k).after ir k0 npc)) j n = sreadW w j n := by
  unfold sreadW Wave.setSlot Wave.slot Slot.after
  by_cases hk : k = 0 <;> by_cases hj : j = 0 <;> simp [hk, hj]
theorem Wave.setSlot_kregs (w : Wave) (k : Nat) (x : Slot) : (w.setSlot k x).kregs = w.kregs := by unfold Wave.setSlot; split <;> rfl
theorem Wave.swrite_kregs (w : Wave) (k : Nat) (n : SReg) (x : Word64) : (w.swrite k n x).kregs = w.kregs := by
  unfold Wave.swrite; (repeat' split) <;> first | rfl | exact Wave.setSlot_kregs ..
theorem Wave.swrite_slot (w : Wave) (k : Nat) (n : SReg) (x : Word64) :
    (w.swrite k n x).slot k = { w.slot k with priv := ((w.swrite k n x).slot k).priv } := by
  unfold Wave.swrite
  split
  · rfl
  · split
    · simp
    · rfl

/-- What retirement does (R119, R132). -/
theorem State.retireTo_spec {s : State} (hi : s.HasIssuer) (hr : s.Room 0) (npc : Pc) :
    s.Went (s.retireTo npc) none npc ∧ s.Kept (s.retireTo npc) none none [] := by
  rcases hi with ⟨v, h⟩ | ⟨b, e, ix, x, h⟩
  · rw [State.retireTo_slot h.cur hr]
    refine ⟨?_, State.kept_modWave h.cur (fun y => Wave.cover_setSlot ..) (fun y j n _ => sreadW_after ..) fun y n _ _ => by
      rw [Wave.setSlot_kregs]⟩
    unfold State.Went; rw [h.cur]
    exact ⟨v, _, h.view, State.view_modSlot h.view _, rfl⟩
  · rw [State.retireTo_stream h.cur]
    refine ⟨?_, State.kept_modStream h.cur (fun y => rfl) (fun y => ⟨rfl, rfl⟩) fun y n _ => rfl⟩
    unfold State.Went; rw [h.cur]
    exact ⟨x, _, h.found, h.found_mod _ fun y => ⟨rfl, rfl⟩, rfl⟩

/-- Whether the issuer's write of a scalar is one too many, in terms of the issuer (R26). -/
theorem State.scalarOver_slot {s : State} {v : View} (h : s.Slotted v) (d : SReg) : s.scalarOver d = tooManyPriv v.w v.k d := by
  simp [State.scalarOver, h.cur, h.view]
theorem State.putScalar_eq {s : State} {d : SReg} {x : Word64} :
    s.putScalar d x = if s.scalarOver d then s.trap cILLEGAL else (s.swrite s.cur d x).retire := by
  unfold State.putScalar State.scalarOver; rfl

/-- What the write of a scalar followed by retirement does (R26, R119, R145). -/
theorem State.putScalar_spec {s : State} (hi : s.HasIssuer) (hr : s.Room 0) {d : SReg} (ho : s.scalarOver d = false) (x : Word64) :
    (s.putScalar d x).sread s.cur d = (if d = 0 then 0 else x) ∧ s.Went (s.putScalar d x) none s.ir.succ
      ∧ s.Kept (s.putScalar d x) (some d) none [] := by
  rw [State.putScalar_eq, ho, if_neg (by decide)]
  rcases hi with ⟨v, h⟩ | ⟨b, e, ix, y, h⟩
  · have hw : s.swrite s.cur d x = s.modWave v.bid v.wid fun y => y.swrite v.k d x := by simp [State.swrite, h.cur]
    rw [hw]
    have hr' : (s.modWave v.bid v.wid fun y => y.swrite v.k d x).Room 0 := by
      intro b w k z hc hz
      rw [State.modWave_cur, h.cur] at hc
      cases hc
      rw [State.blk_modWave_same, h.blk] at hz
      cases hz
      rw [State.snapUsed_modWave]
      exact (hr _ _ _ _ h.cur h.blk : v.b.isOpen = true ∨ _)
    have e : (s.modWave v.bid v.wid fun y => y.swrite v.k d x).retire = s.modWave v.bid v.wid fun y =>
        (y.swrite v.k d x).setSlot v.k (((y.swrite v.k d x).slot v.k).after s.ir none s.ir.succ) := by
      unfold State.retire
      rw [State.retireTo_slot (b := v.bid) (w := v.wid) (k := v.k) (by simpa using h.cur) hr']
      unfold State.modSlot
      rw [State.modWave_modWave]; rfl
    rw [e]
    refine ⟨?_, ?_, State.kept_modWave h.cur (fun y => ?_) (fun y j n hn => ?_) fun y n _ _ => ?_⟩
    · rw [h.cur, State.sread_slot (State.view_modWave_k h.view), sreadW_after, sreadW_swrite_same]
    · unfold State.Went; rw [h.cur]
      refine ⟨v, _, h.view, State.view_modWave_k h.view, ?_⟩
      simp only [Wave.slot_setSlot_same]
      rw [Wave.swrite_slot, h.slot]; rfl
    · rw [Wave.cover_setSlot, Wave.cover_swrite]
    · rw [sreadW_after, sreadW_swrite_other fun e => hn (by rw [e])]
    · rw [Wave.setSlot_kregs, Wave.swrite_kregs]
  · by_cases hd : d = 0
    · have hw : s.swrite s.cur d x = s := by simp [State.swrite, h.cur, hd]
      rw [hw, if_pos hd]
      obtain ⟨h1, h2⟩ := State.retireTo_spec (s := s) (.inr ⟨b, e, ix, y, h⟩) hr s.ir.succ
      refine ⟨?_, h1, ⟨h2.rest, fun who n _ => h2.scalars who n (by simp), fun b w k v u hv hu n hn _ => h2.masks b w k v u hv hu n hn (by simp), h2.vectors, h2.marks, h2.memory, h2.host⟩⟩
      simp [State.sread, h.cur, hd]
    · have hw : s.swrite s.cur d x = s.modStream b e ix fun st => { st with sregs := cset 0 st.sregs d.toNat x } := by
        simp only [State.swrite, h.cur]; rw [if_neg hd]
      rw [hw]
      have eq : (s.modStream b e ix fun st => { st with sregs := cset 0 st.sregs d.toNat x }).retire = s.modStream b e ix fun st =>
          Stream.after { st with sregs := cset 0 st.sregs d.toNat x } s.ir s.ir.succ := by
        unfold State.retire
        rw [State.retireTo_stream (b := b) (e := e) (ix := ix) (by simpa using h.cur)]
        exact State.modStream_modStream (f := fun st : Stream => { st with sregs := cset 0 st.sregs d.toNat x }) fun y => ⟨rfl, rfl⟩
      rw [eq]
      refine ⟨?_, ?_, State.kept_modStream h.cur (fun y => rfl) (fun y => ⟨rfl, rfl⟩) fun y n hn => ?_⟩
      · rw [if_neg hd, h.cur]
        simp only [State.sread]
        rw [if_neg hd, State.stream_modStream (f := fun st => Stream.after { st with sregs := cset 0 st.sregs d.toNat x } s.ir s.ir.succ)
          fun y => ⟨rfl, rfl⟩, h.found]
        simp [Stream.after]
      · unfold State.Went; rw [h.cur]
        exact ⟨y, _, h.found, h.found_mod _ fun y => ⟨rfl, rfl⟩, rfl⟩
      · exact cget_cset_other (fun e => hn (by rw [BitVec.eq_of_toNat_eq e])) x

/-! ### Vector registers -/

theorem lane_setLane {v : VReg} {i l : Nat} (hi : i < 32) (hl : l < 32) (x : Word32) :
    lane (setLane v i x) l = if l = i then x else lane v l := by
  apply BitVec.eq_of_getLsbD_eq
  intro j hj
  unfold lane setLane
  have hF : ∀ k : Nat, (0xFFFFFFFF : VReg).getLsbD k = decide (k < 32) := by
    intro k
    have : (0xFFFFFFFF : VReg) = BitVec.ofNat 1024 (2 ^ 32 - 1) := rfl
    rw [this, BitVec.getLsbD_ofNat, Nat.testBit_two_pow_sub_one]
    by_cases hk : k < 32
    · have : k < 1024 := by omega
      simp [hk, this]
    · simp [hk]
  simp only [BitVec.getLsbD_extractLsb', BitVec.getLsbD_or, BitVec.getLsbD_and, BitVec.getLsbD_not, BitVec.getLsbD_shiftLeft,
    BitVec.getLsbD_setWidth, hF]
  by_cases h : l = i
  · subst h
    have e1 : 32 * l + j < 1024 := by omega
    have e2 : ¬32 * l + j < 32 * l := by omega
    have e3 : 32 * l + j - 32 * l = j := by omega
    have d2 : j < 1024 := by omega
    simp only [e1, hj, e3, decide_eq_false e2, decide_eq_true d2]
    simp
  · by_cases hlt : l < i
    · have e2 : 32 * l + j < 32 * i := by omega
      simp [h, e2, hj]
      intro; omega
    · have e2 : ¬32 * l + j < 32 * i := by omega
      have e3 : ¬32 * l + j - 32 * i < 32 := by omega
      have e4 : x.getLsbD (32 * l + j - 32 * i) = false := BitVec.getLsbD_of_ge _ _ (by omega)
      simp [h, e2, hj, e3, e4]
      intro; omega

theorem lane_ofLanes {f : Nat → Word32} {l : Nat} (hl : l < 32) : lane (ofLanes f) l = f l := by
  have : ∀ n, n ≤ 32 → lane ((List.range n).foldl (fun v i => setLane v i (f i)) 0) l = if l < n then f l else 0 := by
    intro n
    induction n with
    | zero => intro _; simp [lane]
    | succ n ih =>
      intro hn
      rw [List.range_succ, List.foldl_append, List.foldl_cons, List.foldl_nil, lane_setLane (by omega) hl, ih (by omega)]
      by_cases h : l = n
      · simp [h]
      · rw [if_neg h]
        by_cases h2 : l < n
        · rw [if_pos h2, if_pos (by omega)]
        · rw [if_neg h2, if_neg (by omega)]
  exact (this 32 (Nat.le_refl _)).trans (if_pos hl)

theorem lane_mergeLanes {m : Word32} {x y : VReg} {l : Nat} (hl : l < 32) :
    lane (mergeLanes m x y) l = if m.getLsbD l then lane x l else lane y l := by
  unfold mergeLanes; rw [lane_ofLanes hl]

/-- Record a place of the register stack as written in the interval (R343). -/
def Block.touchReg (b : Block) (wid q : Nat) : Block :=
  if b.touched.contains (.vreg wid q) then b else { b with touched := .vreg wid q :: b.touched }

/-- A write of one place of the vector file by a wave. -/
def State.putPlace (s : State) (bid wid p q : Nat) (a : Bool) (x : VReg) : State :=
  (s.modCore (coreOf bid) fun c => { c.putReg a p x with
    bad := c.bad.filter fun i => decide (i ≠ p),
    soft := c.soft.filter fun i => decide (i ≠ p) }).modBlk bid fun b => b.touchReg wid q

/-- A register read after one is written, in the fast file or in the slow one (R36). -/
theorem Core.reg_putReg (c : Core) (a : Bool) (p : Nat) (x : VReg) (p' : Nat) :
    (c.putReg a p x).reg p' = if p = p' then x else c.reg p' := by
  unfold Core.putReg Core.reg
  cases a <;> by_cases h : p = p' <;> simp [h, tget_tset, tget_tdel, cget_cset]

theorem State.vmerge_eq {s : State} {bid wid k : Nat} {v : View} (h : s.view bid wid k = some v) (n : Nat) (m : Word32) (x : VReg) :
    s.vmerge bid wid n m x = s.putPlace bid wid (v.w.phys n) (v.w.base + n) v.w.active (mergeLanes m x (s.vread bid v.w n)) := by
  obtain ⟨hb, hw, -⟩ := s.view_some h
  have h0 := State.view_of (k := 0) hb hw
  simp only [State.vmerge, State.vwrite, h0]
  rfl

/-- The slots of a block whose waves a change of the block leaves as they are. -/
theorem State.view_modBlk {s : State} {i : Nat} {f : Block → Block} (hf : ∀ b, (f b).waves = b.waves) {b w k : Nat} {v : View}
    (h : s.view b w k = some v) : (s.modBlk i f).view b w k = some { v with b := if i = b then f v.b else v.b } := by
  obtain ⟨hb, hw, hs, h1, h2, h3⟩ := s.view_some h
  have : (s.modBlk i f).blk b = some (if i = b then f v.b else v.b) := by
    rw [State.blk_modBlk]; split
    · next hi => subst hi; rw [hb]; rfl
    · exact hb
  rw [State.view_of (x := if i = b then f v.b else v.b) (y := v.w) this (by split <;> simp [hf, hw])]
  cases v; simp_all

theorem Block.touchReg_waves (b : Block) (w q : Nat) : (b.touchReg w q).waves = b.waves := by unfold Block.touchReg; split <;> rfl
theorem Block.touchReg_isOpen (b : Block) (w q : Nat) : (b.touchReg w q).isOpen = b.isOpen := by unfold Block.touchReg; split <;> rfl

theorem State.view_putPlace {s : State} {bid wid p q : Nat} {a : Bool} {x : VReg} {b w k : Nat} {v : View} (h : s.view b w k = some v) :
    (s.putPlace bid wid p q a x).view b w k = some { v with b := if bid = b then v.b.touchReg wid q else v.b } :=
  State.view_modBlk (s := s.modCore _ _) (fun b => b.touchReg_waves wid q) (by simpa using h)

theorem State.sread_putPlace (s : State) (bid wid p q : Nat) (a : Bool) (x : VReg) (who : Issuer) (n : SReg) :
    (s.putPlace bid wid p q a x).sread who n = s.sread who n := by
  cases who with
  | slot b w k =>
    simp only [State.sread, State.view]
    have hb : (s.putPlace bid wid p q a x).blk b = (s.blk b).map fun y => if bid = b then y.touchReg wid q else y := by
      unfold State.putPlace; rw [State.blk_modBlk, State.blk_modCore]
      split
      · next h => subst h; rfl
      · cases s.blk b <;> rfl
    rw [hb]
    cases s.blk b with
    | none => rfl
    | some y =>
      have : (if bid = b then y.touchReg wid q else y).waves = y.waves := by split <;> simp [Block.touchReg_waves]
      simp only [Option.map_some, this]
      cases tget y.waves w <;> rfl
  | stream b e ix =>
    simp only [State.sread]
    have hb : (s.putPlace bid wid p q a x).blk b = (s.blk b).map fun y => if bid = b then y.touchReg wid q else y := by
      unfold State.putPlace; rw [State.blk_modBlk, State.blk_modCore]
      split
      · next h => subst h; rfl
      · cases s.blk b <;> rfl
    rw [hb]
    cases s.blk b with
    | none => rfl
    | some y =>
      have : ∀ y : Block, (if bid = b then y.touchReg wid q else y).stream e ix = y.stream e ix := by
        intro y; unfold Block.touchReg Block.stream; (repeat' split) <;> rfl
      simp only [Option.map_some, Option.bind_some, this]

/-- What one place written leaves as it was. -/
theorem State.kept_putPlace {s : State} {b w k p q : Nat} {a : Bool} {x : VReg} (hc : s.cur = .slot b w k) :
    s.Kept (s.putPlace b w p q a x) none none [p] where
  rest := by
    have e1 : (s.putPlace b w p q a x).cur = .slot b w k := hc
    rw [State.covered_slot hc, State.covered_slot e1]
    have : ∀ (f : Block → Block) (g : Core → Core) (h : Block → Block) (m : Block → Block) (n : Core → Core),
        ((((s.modCore (coreOf b) g).modBlk b f).modBlk b h).modBlk b m).modCore (coreOf b) n
          = ((s.modCore (coreOf b) g).modCore (coreOf b) n).modBlk b (fun z => m (h (f z))) := by
      intro f g h m n
      rw [State.modBlk_modBlk, State.modBlk_modBlk]; rfl
    unfold State.putPlace State.modWave
    rw [this, State.modCore_modCore]
    have e2 : (fun z : Block => { ((z.touchReg w q).modWave w (Wave.cover k)) with touched := [] })
        = fun z : Block => { (z.modWave w (Wave.cover k)) with touched := [] } := by
      funext z; unfold Block.touchReg; split <;> rfl
    rw [State.modBlk_modBlk]
    cases a <;> exact congrArg (fun h => (s.modCore (coreOf b) fun c => { c with slow := [], fast := [], bad := [], soft := [] }).modBlk b h) e2
  scalars who n _ := State.sread_putPlace ..
  masks b' w' k' v u hv hu n hn _ := by
    rw [State.view_putPlace hv] at hu; cases hu; rfl
  vectors c p' h := by
    unfold State.putPlace
    rw [State.core_modBlk]
    by_cases hcc : c = coreOf b
    · subst hcc
      rw [State.core_modCore_same]
      have : p' ≠ p := fun e => h (by simp [hc, Issuer.block]) (by simp [e])
      exact (Core.reg_putReg ..).trans (if_neg (Ne.symm this))
    · rw [State.core_modCore_other hcc]
  marks c p' h := by
    unfold State.putPlace at h
    rw [State.core_modBlk] at h
    by_cases hcc : c = coreOf b
    · subst hcc
      rw [State.core_modCore_same] at h
      exact (List.mem_filter.1 h).1
    · rwa [State.core_modCore_other hcc] at h
  memory _ := rfl
  host _ := rfl

/-- What is kept over two changes. -/
theorem State.Kept.trans {s t u : State} {sd sd' : Option SReg} {kd kd' : Option KNum} {vp vp' : List Nat}
    (h : s.Kept t sd kd vp) (h' : t.Kept u sd' kd' vp') (hc : t.cur = s.cur) {sd'' : Option SReg} {kd'' : Option KNum} {vp'' : List Nat}
    (hv : ∀ b w k v, s.view b w k = some v → ∃ u, t.view b w k = some u)
    (h1 : ∀ n, some n = sd ∨ some n = sd' → some n = sd'') (h2 : ∀ n, some n = kd ∨ some n = kd' → some n = kd'')
    (h3 : ∀ p, p ∈ vp ∨ p ∈ vp' → p ∈ vp'') : s.Kept u sd'' kd'' vp'' where
  rest := h'.rest.trans h.rest
  scalars who n hn := (h'.scalars who n fun e => hn (h1 n (.inr e))).trans (h.scalars who n fun e => hn (h1 n (.inl e)))
  masks b w k v z hv0 hz n hn hk := by
    obtain ⟨y, hy⟩ := hv b w k v hv0
    exact (h'.masks b w k y z hy hz n hn fun e => hk (h2 n (.inr e))).trans (h.masks b w k v y hv0 hy n hn fun e => hk (h2 n (.inl e)))
  vectors c p hp := (h'.vectors c p fun e m => hp (hc ▸ e) (h3 p (.inr m))).trans (h.vectors c p fun e m => hp e (h3 p (.inl m)))
  marks c p hp := h.marks c p (h'.marks c p hp)
  memory a := (h'.memory a).trans (h.memory a)
  host a := (h'.host a).trans (h.host a)

/-! ### Lane-by-lane results -/

theorem snapFold_add (l : List SnapUnit) (z : Nat) : l.foldl (fun m u => m + snapBytes u) z = z + l.foldl (fun m u => m + snapBytes u) 0 := by
  induction l generalizing z with
  | nil => rfl
  | cons u l ih => rw [List.foldl_cons, List.foldl_cons, ih, ih (0 + _)]; omega

/-- Bytes of the snapshot store that a block takes (R343). -/
def snapOf (c : Nat) (e : Nat × Block) : Nat :=
  if coreOf e.1 = c ∧ e.2.isOpen = false then e.2.touched.foldl (fun m u => m + snapBytes u) 0 else 0
theorem State.snapUsed_eq (s : State) (c : Nat) : s.snapUsed c = (s.blocks.map (snapOf c)).sum := by
  have key : ∀ (t : Tbl Block) (z : Nat), t.foldl (fun n e => if coreOf e.1 = c ∧ e.2.isOpen = false then
      e.2.touched.foldl (fun m u => m + snapBytes u) n else n) z = z + (t.map (snapOf c)).sum := by
    intro t
    induction t with
    | nil => intro z; rfl
    | cons e t ih =>
      intro z
      rw [List.foldl_cons, ih, List.map_cons, List.sum_cons]
      unfold snapOf
      split
      · rw [snapFold_add]; omega
      · omega
  exact (key s.blocks 0).trans (Nat.zero_add _)

/-- One register more in the interval takes at most 128 bytes more of the snapshot store (R343, R344). -/
theorem State.snapUsed_touchReg (s : State) (i w q c : Nat) :
    (s.modBlk i fun b => b.touchReg w q).snapUsed c ≤ s.snapUsed c + 128 := by
  rw [State.snapUsed_eq, State.snapUsed_eq]
  unfold State.modBlk
  simp only
  induction s.blocks with
  | nil => simp [tmod]
  | cons e t ih =>
    obtain ⟨k, b⟩ := e
    simp only [tmod]
    split
    · rw [List.map_cons, List.map_cons, List.sum_cons, List.sum_cons]
      have : snapOf c (k, b.touchReg w q) ≤ snapOf c (k, b) + 128 := by
        unfold snapOf
        simp only [Block.touchReg_isOpen]
        split
        · unfold Block.touchReg
          split
          · omega
          · simp only [List.foldl_cons]; rw [snapFold_add]; simp only [snapBytes]; omega
        · omega
      omega
    · rw [List.map_cons, List.map_cons, List.sum_cons, List.sum_cons]; omega

/-- Room that is left after one register is written. -/
theorem State.room_putPlace {s : State} {b w k p q n : Nat} {a : Bool} {x : VReg} (hc : s.cur = .slot b w k) (hr : s.Room (n + 128)) :
    (s.putPlace b w p q a x).Room n := by
  intro b' w' k' y hc' hy
  have e : (s.putPlace b w p q a x).cur = .slot b w k := hc
  rw [e] at hc'; cases hc'
  have hu : (s.putPlace b w p q a x).snapUsed (coreOf b) ≤ s.snapUsed (coreOf b) + 128 := State.snapUsed_touchReg (s.modCore _ _) b w q _
  unfold State.putPlace at hy
  rw [State.blk_modBlk_same, State.blk_modCore] at hy
  cases hz : s.blk b with
  | none => rw [hz] at hy; cases hy
  | some z =>
    rw [hz] at hy; cases hy
    rw [Block.touchReg_isOpen]
    rcases hr b w k z hc hz with h | h
    · exact .inl h
    · exact .inr (by omega)

/-- The place of the vector file that a register of the wave's window takes is its own. -/
theorem Wave.phys_inj {w : Wave} {m n : Nat} (h : w.phys m = w.phys n) : m = n := by unfold Wave.phys at h; omega

theorem State.vread_putPlace {s : State} {b w p q n : Nat} {a : Bool} {x : VReg} {y : Wave} :
    (s.putPlace b w p q a x).vread b y n = if p = y.phys n then x else s.vread b y n := by
  unfold State.vread State.putPlace
  rw [State.core_modBlk, State.core_modCore_same]
  exact Core.reg_putReg ..

/-- The places that the registers of a result take. -/
def resultPlaces (v : View) (pair : Bool) (d : VNum) : List Nat :=
  if pair then [v.w.phys d.toNat, v.w.phys (d + 1).toNat] else [v.w.phys d.toNat]

/-- What the write of a lane-by-lane result does (R172, R173). -/
theorem State.writeRegs_spec {s : State} {v : View} (h : s.Slotted v) (pair : Bool) (d : VNum) (m : Word32) (f : Nat → Nat) {n : Nat}
    (hr : s.Room (n + if pair then 256 else 128)) :
    ∃ t, s.writeRegs v.bid v.wid (laneWrites pair d m f) = t ∧ (∃ u, t.Slotted u ∧ u = { v with b := u.b }) ∧ t.Room n
      ∧ t.ir = s.ir ∧ s.Kept t none none (resultPlaces v pair d)
      ∧ (∀ l, l < 32 → lane (t.vread v.bid v.w d.toNat) l = if m.getLsbD l then BitVec.ofNat 32 (f l) else lane (s.vread v.bid v.w d.toNat) l)
      ∧ (pair = true → ∀ l, l < 32 → lane (t.vread v.bid v.w (d + 1).toNat) l
          = if m.getLsbD l then BitVec.ofNat 32 (f l / 2 ^ 32) else lane (s.vread v.bid v.w (d + 1).toNat) l) := by
  have one : ∀ (s : State) (v : View), s.Slotted v → ∀ p q (a : Bool) (x : VReg), ∃ u, (s.putPlace v.bid v.wid p q a x).Slotted u ∧ u = { v with b := u.b } := by
    intro s v h p q a x
    refine ⟨{ v with b := v.b.touchReg v.wid q }, ⟨h.cur, ?_⟩, rfl⟩
    rw [State.view_putPlace h.view, if_pos rfl]
  cases pair with
  | false =>
    refine ⟨_, rfl, ?_⟩
    have e : s.writeRegs v.bid v.wid (laneWrites false d m f) = s.putPlace v.bid v.wid (v.w.phys d.toNat) (v.w.base + d.toNat) v.w.active
        (mergeLanes m (ofLanes fun l => if m.getLsbD l then BitVec.ofNat 32 (f l) else 0) (s.vread v.bid v.w d.toNat)) := by
      exact State.vmerge_eq h.view _ _ _
    rw [e]
    refine ⟨one s v h .., State.room_putPlace h.cur (by simpa using hr), rfl, State.kept_putPlace h.cur, fun l hl => ?_, fun h => by cases h⟩
    rw [State.vread_putPlace, if_pos rfl, lane_mergeLanes hl, lane_ofLanes hl]
    split <;> rfl
  | true =>
    refine ⟨_, rfl, ?_⟩
    have e : s.writeRegs v.bid v.wid (laneWrites true d m f) = (s.putPlace v.bid v.wid (v.w.phys d.toNat) (v.w.base + d.toNat) v.w.active
        (mergeLanes m (ofLanes fun l => if m.getLsbD l then BitVec.ofNat 32 (f l) else 0) (s.vread v.bid v.w d.toNat))).vmerge v.bid v.wid (d + 1).toNat m
          (ofLanes fun l => if m.getLsbD l then BitVec.ofNat 32 (f l / 2 ^ 32) else 0) := by
      simp only [State.writeRegs, laneWrites, if_true, List.foldl_cons, List.foldl_nil]
      rw [State.vmerge_eq h.view]
    rw [e]
    obtain ⟨u, hu, eu⟩ := one s v h (v.w.phys d.toNat) (v.w.base + d.toNat) v.w.active
      (mergeLanes m (ofLanes fun l => if m.getLsbD l then BitVec.ofNat 32 (f l) else 0) (s.vread v.bid v.w d.toNat))
    have ub : u.bid = v.bid := by rw [eu]
    have uw : u.wid = v.wid := by rw [eu]
    have uk : u.k = v.k := by rw [eu]
    have uww : u.w = v.w := by rw [eu]
    have hne : (d + 1).toNat ≠ d.toNat := by
      intro e
      have h1 : (d + 1).toNat = (d.toNat + 1) % 128 := BitVec.toNat_add ..
      have h2 := d.isLt
      omega
    have hv := hu.view
    rw [ub, uw, uk] at hv
    rw [State.vmerge_eq hv, uww]
    have hcur : ∀ p q (a : Bool) (x : VReg), (s.putPlace v.bid v.wid p q a x).cur = .slot v.bid v.wid v.k := fun _ _ _ _ => h.cur
    refine ⟨?_, ?_, rfl, ?_, fun l hl => ?_, fun _ l hl => ?_⟩
    · have := one _ _ hu (v.w.phys (d + 1).toNat) (v.w.base + (d + 1).toNat) v.w.active (mergeLanes m (ofLanes fun l => if m.getLsbD l then BitVec.ofNat 32 (f l / 2 ^ 32) else 0) ((s.putPlace v.bid v.wid (v.w.phys d.toNat) (v.w.base + d.toNat) v.w.active
        (mergeLanes m (ofLanes fun l => if m.getLsbD l then BitVec.ofNat 32 (f l) else 0) (s.vread v.bid v.w d.toNat))).vread v.bid v.w (d + 1).toNat))
      rw [ub, uw] at this
      obtain ⟨y, hy, ey⟩ := this
      refine ⟨y, hy, ey.trans ?_⟩
      rw [eu]
    · exact State.room_putPlace (hcur ..) (State.room_putPlace h.cur (by simpa using hr))
    · refine State.Kept.trans (State.kept_putPlace h.cur) (State.kept_putPlace (hcur ..)) rfl ?_ (by simp) (by simp) ?_
      · intro b w k z hz; exact ⟨_, State.view_putPlace hz⟩
      · intro p hp; simpa [resultPlaces, List.mem_singleton] using hp
    · rw [State.vread_putPlace, if_neg fun e => hne (Wave.phys_inj e), State.vread_putPlace, if_pos rfl, lane_mergeLanes hl, lane_ofLanes hl]
      split <;> rfl
    · rw [State.vread_putPlace, if_pos rfl, lane_mergeLanes hl, lane_ofLanes hl, State.vread_putPlace, if_neg fun e => hne (Wave.phys_inj e).symm]
      split <;> rfl

/-- The issuer's slot after a change that left it as it was, and then retirement. -/
theorem State.retire_after {s t : State} {v u : View} (h : s.Slotted v) (hu : t.Slotted u) (eu : u = { v with b := u.b, w := u.w })
    (hsl : u.sl = v.sl) (hr : t.Room 0) (hir : t.ir = s.ir) {sd : Option SReg} {kd : Option KNum} {vp : List Nat} (hk : s.Kept t sd kd vp)
    (hcur : t.cur = s.cur) (hv : ∀ b w k v, s.view b w k = some v → ∃ u, t.view b w k = some u) :
    s.Went t.retire none s.ir.succ ∧ s.Kept t.retire sd kd vp ∧ ∀ c, t.retire.core c = t.core c := by
  obtain ⟨h1, h2⟩ := State.retireTo_spec (s := t) (.inl ⟨u, hu⟩) hr t.ir.succ
  have hret : t.retire = t.retireTo t.ir.succ := rfl
  rw [hret]
  refine ⟨?_, State.Kept.trans hk h2 hcur hv (by simp) (by simp) (by simp), fun c => ?_⟩
  · unfold State.Went at h1 ⊢
    rw [hu.cur] at h1; rw [h.cur]
    simp only at h1 ⊢
    obtain ⟨y, z, hy, hz, e⟩ := h1
    rw [hu.view] at hy; cases hy
    have e1 : u.bid = v.bid := by rw [eu]
    have e2 : u.wid = v.wid := by rw [eu]
    have e3 : u.k = v.k := by rw [eu]
    rw [e1, e2, e3] at hz
    refine ⟨v, z, h.view, hz, ?_⟩
    rw [hir, hsl] at e
    exact e
  · rw [State.retireTo_slot hu.cur hr, State.core_modSlot]

/-- What a lane-by-lane instruction does when its registers lie in the window: it retires, and each lane of the effective mask
of the destination takes its result (R38, R169, R172, R173). -/
theorem State.lanewise_spec {s : State} {v : View} (h : s.Slotted v) {regs : List Nat} (hw : outOfWindow v regs = false) (p : Pred)
    (pair : Bool) (d : VNum) (f : View → Nat → Nat) (hr : s.Room (if pair then 256 else 128)) :
    ∃ t, s.lanewise regs p pair d f = .next t ∧ s.Went t none s.ir.succ ∧ s.Kept t none none (resultPlaces v pair d)
      ∧ (∀ l, l < 32 → lane (t.vread v.bid v.w d.toNat) l
          = if (effMask v p).getLsbD l then BitVec.ofNat 32 (f v l) else lane (s.vread v.bid v.w d.toNat) l)
      ∧ (pair = true → ∀ l, l < 32 → lane (t.vread v.bid v.w (d + 1).toNat) l
          = if (effMask v p).getLsbD l then BitVec.ofNat 32 (f v l / 2 ^ 32) else lane (s.vread v.bid v.w (d + 1).toNat) l) := by
  obtain ⟨t, et, ⟨u, hu, eu⟩, hroom, hir, hk, h1, h2⟩ := State.writeRegs_spec h pair d (effMask v p) (f v) (n := 0) (by simpa using hr)
  have hcur : t.cur = s.cur := by rw [hu.cur, h.cur, eu]
  have hv : ∀ b w k v, s.view b w k = some v → ∃ u, t.view b w k = some u := by
    intro b w k z hz
    rw [← et]
    cases pair with
    | false =>
      have e : s.writeRegs v.bid v.wid (laneWrites false d (effMask v p) (f v)) = _ := State.vmerge_eq h.view _ _ _
      rw [e]; exact ⟨_, State.view_putPlace hz⟩
    | true =>
      simp only [State.writeRegs, laneWrites, if_true, List.foldl_cons, List.foldl_nil]
      rw [State.vmerge_eq h.view, State.vmerge_eq (State.view_putPlace h.view)]
      exact ⟨_, State.view_putPlace (State.view_putPlace hz)⟩
  have hsl : u.sl = v.sl := by rw [eu]
  obtain ⟨a1, a2, a3⟩ := State.retire_after h hu (by rw [eu]) hsl hroom hir hk hcur hv
  refine ⟨t.retire, ?_, a1, a2, fun l hl => ?_, fun hp l hl => ?_⟩
  · unfold State.lanewise
    rw [State.onSlot_eq h, hw, if_neg (by decide), et]
  · have : t.retire.vread v.bid v.w d.toNat = t.vread v.bid v.w d.toNat := by unfold State.vread; rw [a3]
    rw [this]; exact h1 l hl
  · have : t.retire.vread v.bid v.w (d + 1).toNat = t.vread v.bid v.w (d + 1).toNat := by unfold State.vread; rw [a3]
    rw [this]; exact h2 hp l hl

/-! ### Mask registers -/

theorem Wave.cover_kwrite (k j : Nat) (w : Wave) (n : KNum) (x : Word32) : (w.kwrite j n x).cover k = w.cover k := by
  unfold Wave.kwrite Wave.cover Wave.setSlot; split <;> rfl
theorem sreadW_kwrite (w : Wave) (k j : Nat) (n : KNum) (m : SReg) (x : Word32) : sreadW (w.kwrite k n x) j m = sreadW w j m := rfl
theorem Wave.kwrite_other {w : Wave} {k : Nat} {n m : KNum} (h : m ≠ n) (x : Word32) :
    cget 0 (w.kwrite k n x).kregs m.toNat = cget 0 w.kregs m.toNat := by
  unfold Wave.kwrite
  exact cget_cset_other (fun e => h (BitVec.eq_of_toNat_eq e)) _
theorem Wave.kwrite_same (w : Wave) (k : Nat) (n : KNum) (x : Word32) :
    cget 0 (w.kwrite k n x).kregs n.toNat = (x &&& w.domain k) ||| (cget 0 w.kregs n.toNat &&& ~~~ w.domain k) := by
  unfold Wave.kwrite; exact cget_cset_same ..

/-- A change of the issuer's wave to its registers, and then retirement. -/
theorem State.modWave_retire {s : State} {v : View} (h : s.Slotted v) (hr : s.Room 0) (g : Wave → Wave) :
    (s.modWave v.bid v.wid g).retire = s.modWave v.bid v.wid fun y => (g y).setSlot v.k (((g y).slot v.k).after s.ir none s.ir.succ) := by
  have hr' : (s.modWave v.bid v.wid g).Room 0 := by
    intro b w k z hc hz
    rw [State.modWave_cur, h.cur] at hc
    cases hc
    rw [State.blk_modWave_same, h.blk] at hz
    cases hz
    rw [State.snapUsed_modWave]
    exact (hr _ _ _ _ h.cur h.blk : v.b.isOpen = true ∨ _)
  unfold State.retire
  rw [State.retireTo_slot (b := v.bid) (w := v.wid) (k := v.k) (by simpa using h.cur) hr']
  unfold State.modSlot
  rw [State.modWave_modWave]; rfl

/-- What the write of k1 to k15 and retirement does: the slot's domain takes the value (R154). -/
theorem State.kwrite_spec {s : State} {v : View} (h : s.Slotted v) (hr : s.Room 0) (d : KNum) (x : Word32) :
    ∃ u, (s.modWave v.bid v.wid fun w => w.kwrite v.k d x).retire.view v.bid v.wid v.k = some u
      ∧ (d ≠ 0 → kread u d = (x &&& v.w.domain v.k) ||| (kread v d &&& ~~~ v.w.domain v.k))
      ∧ s.Went (s.modWave v.bid v.wid fun w => w.kwrite v.k d x).retire none s.ir.succ
      ∧ s.Kept (s.modWave v.bid v.wid fun w => w.kwrite v.k d x).retire none (some d) [] := by
  rw [State.modWave_retire h hr]
  have hv := State.view_modWave_k (f := fun y => (y.kwrite v.k d x).setSlot v.k (((y.kwrite v.k d x).slot v.k).after s.ir none s.ir.succ)) h.view
  refine ⟨_, hv, fun hd => ?_, ?_, State.kept_modWave h.cur (fun y => ?_) (fun y j n _ => ?_) fun y n _ hn => ?_⟩
  · unfold kread
    rw [if_neg hd, if_neg hd]
    simp only [Wave.setSlot_kregs]
    exact Wave.kwrite_same ..
  · unfold State.Went; rw [h.cur]
    refine ⟨v, _, h.view, hv, ?_⟩
    simp only [Wave.slot_setSlot_same]
    rw [h.slot]; rfl
  · rw [Wave.cover_setSlot, Wave.cover_kwrite]
  · rw [sreadW_after, sreadW_kwrite]
  · rw [Wave.setSlot_kregs]; exact Wave.kwrite_other (fun e => hn (by rw [e])) x

/-- What the write of k0 does: the value within the present lanes and the slot's domain, with the mask marker (R28, R132,
R154). -/
theorem State.k0write_spec {s : State} {v : View} (h : s.Slotted v) (hr : s.Room 0) (m : Word32) :
    ∃ u, (s.retire (some m)).view v.bid v.wid v.k = some u ∧ kread u 0 = m ∧ s.Went (s.retire (some m)) (some m) s.ir.succ
      ∧ s.Kept (s.retire (some m)) none none [] := by
  have e : s.retire (some m) = s.modSlot v.bid v.wid v.k fun x => x.after s.ir (some m) s.ir.succ := State.retireTo_slot h.cur hr _ _
  rw [e]
  have hv := State.view_modSlot h.view (fun x => x.after s.ir (some m) s.ir.succ)
  refine ⟨_, hv, ?_, ?_, State.kept_modWave h.cur (fun y => Wave.cover_setSlot ..) (fun y j n _ => sreadW_after ..) fun y n _ _ => by
    rw [Wave.setSlot_kregs]⟩
  · rfl
  · unfold State.Went; rw [h.cur]
    exact ⟨v, _, h.view, hv, rfl⟩

end

end Sys2Proof.Machine
end

