-- ==== Sys2Proof/Laws/PerInstr.lean ====
section
/-! SUPPORT. The family RoundTrip of LAWS.json: decoding the encoded word of a well-formed instruction gives the instruction
back, one lemma per constructor (R121 to R127, R136, R137). -/

namespace Sys2Proof.Laws.RoundTrip

/-- The statement of the family. -/
def Statement (i : Instr) : Prop := i.wf = true → decode (encode i) = .ok i

section
set_option linter.unusedSimpArgs false
set_option Elab.async false

/-- Majors other than 0x05 and 0x06: the candidate of the laid-out fields is the instruction. -/
theorem of_at {i : Instr} (M m : Nat) (l : BitVec 2) (t : Ty) (F : Fields) (hc : candidateAt F t M m = some i)
    (ht : Ty.ofCode F.ty = some t) (hF : fieldsOf i = F := by rfl)
    (hM : F.major.toNat = M := by rfl) (hm : F.minor.toNat = m := by rfl) (hl : F.len = l := by rfl)
    (ok : (decide (M ≠ 5) && decide (M ≠ 6) && !isReserved M m) = true := by decide) (hne : l ≠ 3 := by decide) :
    Statement i := by
  intro hw
  simp only [Bool.and_eq_true, decide_eq_true_eq, Bool.not_eq_true', and_assoc] at ok
  refine decode_encode hw (by rw [hF, hl]; exact hne) (by rw [hF, hM, hm]; exact ok.2.2) ?_
  rw [hF, candidate_at (fun h => ok.1 (by rw [← hM, h]; rfl)) (fun h => ok.2.1 (by rw [← hM, h]; rfl)) ht, hM, hm]
  exact hc

/-- Majors 0x05 and 0x06. -/
theorem of_s {i : Instr} (M : BitVec 6) (m : Nat) (l : BitVec 2) (F : Fields) (hc : candidateS F m = some i)
    (hF : fieldsOf i = F := by rfl) (hM : F.major = M := by rfl) (hm : F.minor.toNat = m := by rfl)
    (hl : F.len = l := by rfl)
    (ok : ((decide (M = 5) || decide (M = 6)) && decide (l ≠ 3) && !isReserved M.toNat m) = true := by decide) :
    Statement i := by
  intro hw
  simp only [Bool.and_eq_true, Bool.or_eq_true, decide_eq_true_eq, Bool.not_eq_true', and_assoc] at ok
  refine decode_encode hw (by rw [hF, hl]; exact ok.2.1) (by rw [hF, hM, hm]; exact ok.2.2) ?_
  rw [hF, candidate, hM, if_pos ok.1, hm]; exact hc

/-- A statement that uses what well-formedness gives. -/
theorem of_wf {i : Instr} (h : i.wf = true → Statement i) : Statement i := fun hw => h hw hw

theorem lenCode_ne (b : VSrc) : b.lenCode ≠ 3 := by
  cases b with
  | vec n => exact (by decide : (0 : BitVec 2) ≠ 3)
  | sca n => exact (by decide : (0 : BitVec 2) ≠ 3)
  | imm v => exact (by decide : (1 : BitVec 2) ≠ 3)

theorem g07 : (0 : BitVec 8).getLsbD 7 = false := rfl
theorem l02 : ((0 : BitVec 2) = 2) = False := by decide
theorem l12 : ((1 : BitVec 2) = 2) = False := by decide
theorem l22 : ((2 : BitVec 2) = 2) = True := by decide
theorem l01 : ((0 : BitVec 2) = 1) = False := by decide
theorem l11 : ((1 : BitVec 2) = 1) = True := by decide
theorem l21 : ((2 : BitVec 2) = 1) = False := by decide

theorem code_vec (n : VNum) : (VSrc.vec n).code = vCode n := rfl
theorem code_sca (n : SReg) : (VSrc.sca n).code = sCode n := rfl
theorem len_vec (n : VNum) : (VSrc.vec n).lenCode = 0 := rfl
theorem len_sca (n : SReg) : (VSrc.sca n).lenCode = 0 := rfl
theorem len_imm (n : BitVec 32) : (VSrc.imm n).lenCode = 1 := rfl
theorem ext_imm (n : BitVec 32) : (VSrc.imm n).ext = 0#32 ++ n := rfl
theorem imm_low (v : BitVec 32) : (0#32 ++ v : BitVec 64).extractLsb' 0 32 = v := imm32_low v

/-- What else the round trips rewrite with. -/
theorem rules : (∀ n, (VSrc.vec n).code = vCode n) ∧ (∀ n, (VSrc.sca n).code = sCode n) ∧ (0 : BitVec 8).getLsbD 7 = false
    ∧ (((0 : BitVec 2) = 2) = False) ∧ (((1 : BitVec 2) = 2) = False) ∧ (((2 : BitVec 2) = 2) = True)
    ∧ (((0 : BitVec 2) = 1) = False) ∧ (((1 : BitVec 2) = 1) = True) ∧ (((2 : BitVec 2) = 1) = False)
    ∧ dispLen none = 0 ∧ (∀ v, dispLen (some v) = 1) ∧ dispX none = 0 ∧ (∀ v, dispX (some v) = imm32 v)
    ∧ optV none = 0 ∧ (∀ v, optV (some v) = v) ∧ optB none = 0 ∧ (∀ v, optB (some v) = v)
    ∧ optS none = 0 ∧ (∀ v, optS (some v) = sCode v)
    ∧ (∀ {α β : Type} (f : α → β) (x : α), Option.map f (some x) = some (f x))
    ∧ (∀ {α : Type} (x : α), (some x).isSome = true) ∧ (∀ {α : Type}, (none : Option α).isSome = false)
    ∧ ((false = true) = False) ∧ (∀ {α : Type} (x y : α), (if True then x else y) = x)
    ∧ (∀ {α : Type} (x y : α), (if False then x else y) = y) := by
  refine ⟨fun _ => rfl, fun _ => rfl, rfl, l02, l12, l22, l01, l11, l21, rfl, fun _ => rfl, rfl, fun _ => rfl, rfl, fun _ => rfl,
    rfl, fun _ => rfl, rfl, fun _ => rfl, fun _ _ => rfl, fun _ => rfl, rfl, by simp, fun _ _ => rfl, fun _ _ => rfl⟩

theorem vun_rt {o : VUn} {M m : BitVec 6} {ts : Ty → Bool} {x y z w : Bool} (h : o.ok ts x y z w = true) :
    Fields.vun (vunFields M m o) o.ty = o := by
  simp only [VUn.ok, Bool.and_eq_true] at h
  obtain ⟨p, ty, sat, rm, la, d, a⟩ := o
  simp only [Fields.vun, vunFields, fl, Fields.pred, Fields.bit, Fields.rm, vMod_sat, vMod_rm, Rm.ofCode_code, vOf_vCode,
    srcOf_code h.2]

theorem vbin_rt {o : VBin} {M m : BitVec 6} {ts : Ty → Bool} {x y z w u : Bool} (h : o.ok ts x y z w u = true) :
    Fields.vbin (vbinFields M m o) o.ty = o := by
  simp only [VBin.ok, Bool.and_eq_true] at h
  obtain ⟨p, ty, sat, rm, la, d, a, b⟩ := o
  cases b <;> simp only [Fields.vbin, vbinFields, fl, Fields.pred, Fields.bit, Fields.rm, vMod_sat, vMod_rm, Rm.ofCode_code,
    vOf_vCode, srcOf_code h.1.2, Fields.vb, Fields.imm, code_vec, code_sca, len_vec, len_sca, len_imm, ext_imm, l01, l11, if_true, if_false,
    srcOf_vCode, srcOf_sCode, imm_low]

theorem vtri_rt {o : VTri} {M m : BitVec 6} {ts : Ty → Bool} {x y : Bool} (h : o.ok ts x y = true) :
    Fields.vtri (vtriFields M m o) o.ty = o := by
  simp only [VTri.ok, Bool.and_eq_true] at h
  obtain ⟨p, ty, sat, rm, d, a, b, c⟩ := o
  simp only [Fields.vtri, vtriFields, fl, Fields.pred, Fields.bit, Fields.rm, vMod_sat, vMod_rm, Rm.ofCode_code, vOf_vCode,
    srcOf_code h.1.1.2, srcOf_code h.1.2, srcOf_code h.2, c_low]

theorem vcarry_rt {o : VCarry} {m : BitVec 6} (h : o.ok = true) : Fields.vcarry (vcarryFields m o) = o := by
  simp only [VCarry.ok, Bool.and_eq_true] at h
  obtain ⟨p, d, kd, a, b, kc⟩ := o
  simp only [Fields.vcarry, vcarryFields, fl, Fields.pred, vOf_vCode, cc_low, cc_high, kOf_kCode, srcOf_code h.1.2, srcOf_code h.2]

theorem vcmp_rt {o : VCmp} {M m : BitVec 6} {ts : Ty → Bool} (f : VCmp → Instr) (h : o.ok ts = true) :
    ((vcmpFields M m o).cond.map fun c => f (Fields.vcmpF (vcmpFields M m o) o.ty c)) = some (f o) := by
  simp only [VCmp.ok, Bool.and_eq_true] at h
  obtain ⟨p, ty, c, kd, a, b⟩ := o
  cases b <;> simp only [Fields.cond, Fields.vcmpF, vcmpFields, fl, Fields.pred, kOf_kCode, srcOf_code h.1.2, Fields.vb,
    Fields.imm, code_vec, code_sca, len_vec, len_sca, len_imm, ext_imm, l01, l11, if_true, if_false, srcOf_vCode, srcOf_sCode, imm_low, vMod_cond,
    Cond.ofCode_code, Option.map_some]

theorem vfield_rt {o : VField} {m : BitVec 6} {ts : Ty → Bool} (h : o.ok ts = true) :
    Fields.vfield (vfieldFields m o) o.ty = o := by
  simp only [VField.ok, Bool.and_eq_true] at h
  obtain ⟨p, ty, d, a, pos, len⟩ := o
  simp only [Fields.vfield, vfieldFields, fl, Fields.pred, vOf_vCode, pos_low, len_high, srcOf_code h.1.1.2]

theorem bra (off : BitVec 32) (pr : Bool) (t : Term) : Statement (.bra off pr t) := by
  cases t with
  | none =>
    exact of_at 1 0 1 .none ({ fl (termLen (none : Option (BitVec 24)) 1) 1 0 with mod := 0#8 ++ (BitVec.ofBool pr ++ 0#3), x := termX (none : Option (BitVec 24)) off }) ((at_01_00 _ _).trans (by simp only [field_defs, field_reads, sFields, pmoveFields, pcompFields, memFields, atomFields, gathFields, rules] <;> rfl)) rfl
  | some xt =>
    exact of_at 1 0 2 .none ({ fl (termLen (some xt) 1) 1 0 with mod := 0#8 ++ (BitVec.ofBool pr ++ 0#3), x := termX (some xt) off }) ((at_01_00 _ _).trans (by simp only [field_defs, field_reads, sFields, pmoveFields, pcompFields, memFields, atomFields, gathFields, rules] <;> rfl)) rfl
theorem bru (c : Cond) (sgn : Bool) (a : SReg) (b : SReg) (off : BitVec 32) (pr : Bool) (t : Term) : Statement (.bru c sgn a b off pr t) := by
  cases t with
  | none =>
    exact of_at 1 1 1 _ ( { fl (termLen (none : Option (BitVec 24)) 1) 1 1 with a := sCode a, b := sCode b, ty := sgnCode sgn, mod := 0#8 ++ (BitVec.ofBool pr ++ c.code), x := termX (none : Option (BitVec 24)) off }) ((at_01_01 _ _).trans (by simp only [field_defs, field_reads, sFields, pmoveFields, pcompFields, memFields, atomFields, gathFields, rules] <;> first | rfl | (cases sgn <;> rfl))) (Ty.ofCode_sgn _)
  | some xt =>
    exact of_at 1 1 2 _ ( { fl (termLen (some xt) 1) 1 1 with a := sCode a, b := sCode b, ty := sgnCode sgn, mod := 0#8 ++ (BitVec.ofBool pr ++ c.code), x := termX (some xt) off }) ((at_01_01 _ _).trans (by simp only [field_defs, field_reads, sFields, pmoveFields, pcompFields, memFields, atomFields, gathFields, rules] <;> first | rfl | (cases sgn <;> rfl))) (Ty.ofCode_sgn _)
theorem brz (nz : Bool) (k : KNum) (off : BitVec 32) (pr : Bool) (t : Term) : Statement (.brz nz k off pr t) := by
  cases t with
  | none =>
    exact of_at 1 2 1 .none ( { fl (termLen (none : Option (BitVec 24)) 1) 1 2 with a := kCode k, mod := 0#8 ++ (BitVec.ofBool pr ++ (0#2 ++ BitVec.ofBool nz)), x := termX (none : Option (BitVec 24)) off }) ((at_01_02 _ _).trans (by simp only [field_defs, field_reads, sFields, pmoveFields, pcompFields, memFields, atomFields, gathFields, rules] <;> rfl)) rfl
  | some xt =>
    exact of_at 1 2 2 .none ( { fl (termLen (some xt) 1) 1 2 with a := kCode k, mod := 0#8 ++ (BitVec.ofBool pr ++ (0#2 ++ BitVec.ofBool nz)), x := termX (some xt) off }) ((at_01_02 _ _).trans (by simp only [field_defs, field_reads, sFields, pmoveFields, pcompFields, memFields, atomFields, gathFields, rules] <;> rfl)) rfl
theorem loop (d : SReg) (off : BitVec 32) (pr : Bool) (t : Term) : Statement (.loop d off pr t) := by
  cases t with
  | none =>
    exact of_at 1 3 1 .none ( { fl (termLen (none : Option (BitVec 24)) 1) 1 3 with d := sCode d, mod := 0#8 ++ (BitVec.ofBool pr ++ 0#3), x := termX (none : Option (BitVec 24)) off }) ((at_01_03 _ _).trans (by simp only [field_defs, field_reads, sFields, pmoveFields, pcompFields, memFields, atomFields, gathFields, rules] <;> rfl)) rfl
  | some xt =>
    exact of_at 1 3 2 .none ( { fl (termLen (some xt) 1) 1 3 with d := sCode d, mod := 0#8 ++ (BitVec.ofBool pr ++ 0#3), x := termX (some xt) off }) ((at_01_03 _ _).trans (by simp only [field_defs, field_reads, sFields, pmoveFields, pcompFields, memFields, atomFields, gathFields, rules] <;> rfl)) rfl
theorem ret (a : SReg) (t : Term) : Statement (.ret a t) := by
  cases t with
  | none =>
    exact of_at 2 1 0 .none ({ fl (termLen (none : Option (BitVec 24)) 0) 2 1 with a := sCode a, x := termX (none : Option (BitVec 24)) 0 }) ((at_02_01 _ _).trans (by simp only [field_defs, field_reads, sFields, pmoveFields, pcompFields, memFields, atomFields, gathFields, rules] <;> rfl)) rfl
  | some xt =>
    exact of_at 2 1 2 .none ({ fl (termLen (some xt) 0) 2 1 with a := sCode a, x := termX (some xt) 0 }) ((at_02_01 _ _).trans (by simp only [field_defs, field_reads, sFields, pmoveFields, pcompFields, memFields, atomFields, gathFields, rules] <;> rfl)) rfl
theorem split (k : KNum) (off : BitVec 32) (t : Term) : Statement (.split k off t) := by
  cases t with
  | none =>
    exact of_at 2 2 1 .none ({ fl (termLen (none : Option (BitVec 24)) 1) 2 2 with a := kCode k, x := termX (none : Option (BitVec 24)) off }) ((at_02_02 _ _).trans (by simp only [field_defs, field_reads, sFields, pmoveFields, pcompFields, memFields, atomFields, gathFields, rules] <;> rfl)) rfl
  | some xt =>
    exact of_at 2 2 2 .none ({ fl (termLen (some xt) 1) 2 2 with a := kCode k, x := termX (some xt) off }) ((at_02_02 _ _).trans (by simp only [field_defs, field_reads, sFields, pmoveFields, pcompFields, memFields, atomFields, gathFields, rules] <;> rfl)) rfl
theorem join (off : BitVec 32) (t : Term) : Statement (.join off t) := by
  cases t with
  | none =>
    exact of_at 2 3 1 .none ({ fl (termLen (none : Option (BitVec 24)) 1) 2 3 with x := termX (none : Option (BitVec 24)) off }) ((at_02_03 _ _).trans (by simp only [field_defs, field_reads, sFields, pmoveFields, pcompFields, memFields, atomFields, gathFields, rules] <;> rfl)) rfl
  | some xt =>
    exact of_at 2 3 2 .none ({ fl (termLen (some xt) 1) 2 3 with x := termX (some xt) off }) ((at_02_03 _ _).trans (by simp only [field_defs, field_reads, sFields, pmoveFields, pcompFields, memFields, atomFields, gathFields, rules] <;> rfl)) rfl
theorem exit (t : Term) : Statement (.exit t) := by
  cases t with
  | none =>
    exact of_at 2 4 0 .none ({ fl (termLen (none : Option (BitVec 24)) 0) 2 4 with x := termX (none : Option (BitVec 24)) 0 }) ((at_02_04 _ _).trans (by simp only [field_defs, field_reads, sFields, pmoveFields, pcompFields, memFields, atomFields, gathFields, rules] <;> rfl)) rfl
  | some xt =>
    exact of_at 2 4 2 .none ({ fl (termLen (some xt) 0) 2 4 with x := termX (some xt) 0 }) ((at_02_04 _ _).trans (by simp only [field_defs, field_reads, sFields, pmoveFields, pcompFields, memFields, atomFields, gathFields, rules] <;> rfl)) rfl
theorem yield (t : Term) : Statement (.yield t) := by
  cases t with
  | none =>
    exact of_at 2 5 0 .none ({ fl (termLen (none : Option (BitVec 24)) 0) 2 5 with x := termX (none : Option (BitVec 24)) 0 }) ((at_02_05 _ _).trans (by simp only [field_defs, field_reads, sFields, pmoveFields, pcompFields, memFields, atomFields, gathFields, rules] <;> rfl)) rfl
  | some xt =>
    exact of_at 2 5 2 .none ({ fl (termLen (some xt) 0) 2 5 with x := termX (some xt) 0 }) ((at_02_05 _ _).trans (by simp only [field_defs, field_reads, sFields, pmoveFields, pcompFields, memFields, atomFields, gathFields, rules] <;> rfl)) rfl
theorem trap (n : BitVec 8) (t : Term) : Statement (.trap n t) := by
  cases t with
  | none =>
    exact of_at 3 0 0 .none ({ fl (termLen (none : Option (BitVec 24)) 0) 3 0 with b := n, x := termX (none : Option (BitVec 24)) 0 }) ((at_03_00 _ _).trans (by simp only [field_defs, field_reads, sFields, pmoveFields, pcompFields, memFields, atomFields, gathFields, rules] <;> rfl)) rfl
  | some xt =>
    exact of_at 3 0 2 .none ({ fl (termLen (some xt) 0) 3 0 with b := n, x := termX (some xt) 0 }) ((at_03_00 _ _).trans (by simp only [field_defs, field_reads, sFields, pmoveFields, pcompFields, memFields, atomFields, gathFields, rules] <;> rfl)) rfl
theorem trapret (a : Option SReg) (t : Term) : Statement (.trapret a t) := by
  cases a with
  | none =>
    cases t with
    | none =>
      exact of_at 3 1 0 .none ({ fl (termLen (none : Option (BitVec 24)) 0) 3 1 with a := optS (none : Option SReg), x := termX (none : Option (BitVec 24)) 0 }) ((at_03_01 _ _).trans (by simp only [field_defs, field_reads, sFields, pmoveFields, pcompFields, memFields, atomFields, gathFields, rules] <;> rfl)) rfl
    | some xt =>
      exact of_at 3 1 2 .none ({ fl (termLen (some xt) 0) 3 1 with a := optS (none : Option SReg), x := termX (some xt) 0 }) ((at_03_01 _ _).trans (by simp only [field_defs, field_reads, sFields, pmoveFields, pcompFields, memFields, atomFields, gathFields, rules] <;> rfl)) rfl
  | some xa =>
    cases t with
    | none =>
      exact of_at 3 1 0 .none ({ fl (termLen (none : Option (BitVec 24)) 0) 3 1 with a := optS (some xa), x := termX (none : Option (BitVec 24)) 0 }) ((at_03_01 _ _).trans (by simp only [field_defs, field_reads, sFields, pmoveFields, pcompFields, memFields, atomFields, gathFields, rules] <;> rfl)) rfl
    | some xt =>
      exact of_at 3 1 2 .none ({ fl (termLen (some xt) 0) 3 1 with a := optS (some xa), x := termX (some xt) 0 }) ((at_03_01 _ _).trans (by simp only [field_defs, field_reads, sFields, pmoveFields, pcompFields, memFields, atomFields, gathFields, rules] <;> rfl)) rfl
theorem halt (t : Term) : Statement (.halt t) := by
  cases t with
  | none =>
    exact of_at 3 2 0 .none ({ fl (termLen (none : Option (BitVec 24)) 0) 3 2 with x := termX (none : Option (BitVec 24)) 0 }) ((at_03_02 _ _).trans (by simp only [field_defs, field_reads, sFields, pmoveFields, pcompFields, memFields, atomFields, gathFields, rules] <;> rfl)) rfl
  | some xt =>
    exact of_at 3 2 2 .none ({ fl (termLen (some xt) 0) 3 2 with x := termX (some xt) 0 }) ((at_03_02 _ _).trans (by simp only [field_defs, field_reads, sFields, pmoveFields, pcompFields, memFields, atomFields, gathFields, rules] <;> rfl)) rfl
theorem haltRelease (block : Nat) (wave : Nat) : Statement (.haltRelease block wave) := nofun
theorem swriteBankmode (a : SReg) : Statement (.swriteBankmode a) := by
  exact of_at 3 9 0 .none ({ fl 0 3 9 with a := sCode a, mod := SysReg.bankmode.code }) ((at_03_09 _ _).trans (by simp only [field_defs, field_reads, sFields, pmoveFields, pcompFields, memFields, atomFields, gathFields, rules] <;> rfl)) rfl
theorem swriteColways (a : SReg) : Statement (.swriteColways a) := by
  exact of_at 3 9 0 .none ({ fl 0 3 9 with a := sCode a, mod := SysReg.colways.code }) ((at_03_09 _ _).trans (by simp only [field_defs, field_reads, sFields, pmoveFields, pcompFields, memFields, atomFields, gathFields, rules] <;> rfl)) rfl
theorem swriteVersionbudget (a : SReg) : Statement (.swriteVersionbudget a) := by
  exact of_at 3 9 0 .none ({ fl 0 3 9 with a := sCode a, mod := SysReg.versionbudget.code }) ((at_03_09 _ _).trans (by simp only [field_defs, field_reads, sFields, pmoveFields, pcompFields, memFields, atomFields, gathFields, rules] <;> rfl)) rfl
theorem tlbinv (dev : Bool) (kind : BitVec 2) (a : SReg) (b : SReg) : Statement (.tlbinv dev kind a b) := by
  exact of_at 3 16 0 .none ( { fl 0 3 0x10 with a := sCode a, b := sCode b, mod := 0#7 ++ (BitVec.ofBool dev ++ (0#2 ++ kind)) }) ((at_03_10 _ _).trans (by simp only [field_defs, field_reads, sFields, pmoveFields, pcompFields, memFields, atomFields, gathFields, rules] <;> rfl)) rfl
theorem icinv (dev : Bool) (a : SReg) (b : SReg) : Statement (.icinv dev a b) := by
  exact of_at 3 17 0 .none ({ fl 0 3 0x11 with a := sCode a, b := sCode b, mod := 0#7 ++ (BitVec.ofBool dev ++ 0#4) }) ((at_03_11 _ _).trans (by simp only [field_defs, field_reads, sFields, pmoveFields, pcompFields, memFields, atomFields, gathFields, rules] <;> rfl)) rfl
theorem kmov (d : KNum) (a : KNum) : Statement (.kmov d a) := by
  exact of_at 4 0 0 .none ({ fl 0 4 0 with d := kCode d, a := kCode a }) ((at_04_00 _ _).trans (by simp only [field_defs, field_reads, sFields, pmoveFields, pcompFields, memFields, atomFields, gathFields, rules] <;> rfl)) rfl
theorem kand (d : KNum) (a : KNum) (b : KNum) : Statement (.kand d a b) := by
  exact of_at 4 1 0 .none ({ fl 0 4 1 with d := kCode d, a := kCode a, b := kCode b }) ((at_04_01 _ _).trans (by simp only [field_defs, field_reads, sFields, pmoveFields, pcompFields, memFields, atomFields, gathFields, rules] <;> rfl)) rfl
theorem kor (d : KNum) (a : KNum) (b : KNum) : Statement (.kor d a b) := by
  exact of_at 4 2 0 .none ({ fl 0 4 2 with d := kCode d, a := kCode a, b := kCode b }) ((at_04_02 _ _).trans (by simp only [field_defs, field_reads, sFields, pmoveFields, pcompFields, memFields, atomFields, gathFields, rules] <;> rfl)) rfl
theorem kxor (d : KNum) (a : KNum) (b : KNum) : Statement (.kxor d a b) := by
  exact of_at 4 3 0 .none ({ fl 0 4 3 with d := kCode d, a := kCode a, b := kCode b }) ((at_04_03 _ _).trans (by simp only [field_defs, field_reads, sFields, pmoveFields, pcompFields, memFields, atomFields, gathFields, rules] <;> rfl)) rfl
theorem kandn (d : KNum) (a : KNum) (b : KNum) : Statement (.kandn d a b) := by
  exact of_at 4 4 0 .none ({ fl 0 4 4 with d := kCode d, a := kCode a, b := kCode b }) ((at_04_04 _ _).trans (by simp only [field_defs, field_reads, sFields, pmoveFields, pcompFields, memFields, atomFields, gathFields, rules] <;> rfl)) rfl
theorem knot (d : KNum) (a : KNum) : Statement (.knot d a) := by
  exact of_at 4 5 0 .none ({ fl 0 4 5 with d := kCode d, a := kCode a }) ((at_04_05 _ _).trans (by simp only [field_defs, field_reads, sFields, pmoveFields, pcompFields, memFields, atomFields, gathFields, rules] <;> rfl)) rfl
theorem kpop (d : SReg) (a : KNum) : Statement (.kpop d a) := by
  exact of_at 4 6 0 .none ({ fl 0 4 6 with d := sCode d, a := kCode a }) ((at_04_06 _ _).trans (by simp only [field_defs, field_reads, sFields, pmoveFields, pcompFields, memFields, atomFields, gathFields, rules] <;> rfl)) rfl
theorem kfirst (d : SReg) (a : KNum) : Statement (.kfirst d a) := by
  exact of_at 4 7 0 .none ({ fl 0 4 7 with d := sCode d, a := kCode a }) ((at_04_07 _ _).trans (by simp only [field_defs, field_reads, sFields, pmoveFields, pcompFields, memFields, atomFields, gathFields, rules] <;> rfl)) rfl
theorem kset (d : KNum) (v : BitVec 32) : Statement (.kset d v) := by
  exact of_at 4 8 1 .none ({ fl 1 4 8 with d := kCode d, x := imm32 v }) ((at_04_08 _ _).trans (by simp only [field_defs, field_reads, sFields, pmoveFields, pcompFields, memFields, atomFields, gathFields, rules] <;> rfl)) rfl
theorem kget (d : SReg) (a : KNum) (n : BitVec 8) : Statement (.kget d a n) := by
  exact of_at 4 9 0 .none ({ fl 0 4 9 with d := sCode d, a := kCode a, b := n }) ((at_04_09 _ _).trans (by simp only [field_defs, field_reads, sFields, pmoveFields, pcompFields, memFields, atomFields, gathFields, rules] <;> rfl)) rfl
theorem ksave (d : SReg) (a : KNum) : Statement (.ksave d a) := by
  exact of_at 4 10 0 .none ({ fl 0 4 0xA with d := sCode d, a := kCode a }) ((at_04_0a _ _).trans (by simp only [field_defs, field_reads, sFields, pmoveFields, pcompFields, memFields, atomFields, gathFields, rules] <;> rfl)) rfl
theorem krest (d : KNum) (a : SReg) : Statement (.krest d a) := by
  exact of_at 4 11 0 .none ({ fl 0 4 0xB with d := kCode d, a := sCode a }) ((at_04_0b _ _).trans (by simp only [field_defs, field_reads, sFields, pmoveFields, pcompFields, memFields, atomFields, gathFields, rules] <;> rfl)) rfl
theorem setexec (a : VNum) : Statement (.setexec a) := by
  exact of_at 4 12 0 .none ({ fl 0 4 0xC with a := vCode a }) ((at_04_0c _ _).trans (by simp only [field_defs, field_reads, sFields, pmoveFields, pcompFields, memFields, atomFields, gathFields, rules] <;> rfl)) rfl
theorem sadd (d : SReg) (a : SReg) (b : SSrc) : Statement (.sadd d a b) := by
  cases b with
  | reg n => exact of_s 5 0 0 (sFields 0 0 0 d a (.reg n)) ((at_s_00 _).trans (by simp only [field_defs, field_reads, sFields, pmoveFields, pcompFields, memFields, atomFields, gathFields, rules] <;> rfl))
  | imm v => exact of_s 6 0 1 (sFields 0 0 0 d a (.imm v)) ((at_s_00 _).trans (by simp only [field_defs, field_reads, sFields, pmoveFields, pcompFields, memFields, atomFields, gathFields, rules] <;> rfl))
theorem ssub (d : SReg) (a : SReg) (b : SSrc) : Statement (.ssub d a b) := by
  cases b with
  | reg n => exact of_s 5 1 0 (sFields 1 0 0 d a (.reg n)) ((at_s_01 _).trans (by simp only [field_defs, field_reads, sFields, pmoveFields, pcompFields, memFields, atomFields, gathFields, rules] <;> rfl))
  | imm v => exact of_s 6 1 1 (sFields 1 0 0 d a (.imm v)) ((at_s_01 _).trans (by simp only [field_defs, field_reads, sFields, pmoveFields, pcompFields, memFields, atomFields, gathFields, rules] <;> rfl))
theorem smul (d : SReg) (a : SReg) (b : SSrc) : Statement (.smul d a b) := by
  cases b with
  | reg n => exact of_s 5 2 0 (sFields 2 0 0 d a (.reg n)) ((at_s_02 _).trans (by simp only [field_defs, field_reads, sFields, pmoveFields, pcompFields, memFields, atomFields, gathFields, rules] <;> rfl))
  | imm v => exact of_s 6 2 1 (sFields 2 0 0 d a (.imm v)) ((at_s_02 _).trans (by simp only [field_defs, field_reads, sFields, pmoveFields, pcompFields, memFields, atomFields, gathFields, rules] <;> rfl))
theorem smulh (sgn : Bool) (d : SReg) (a : SReg) (b : SSrc) : Statement (.smulh sgn d a b) := by
  cases b with
  | reg n => exact of_s 5 3 0 (sFields 3 (sgnCode sgn) 0 d a (.reg n)) ((at_s_03 _).trans (by simp only [field_defs, field_reads, sFields, pmoveFields, pcompFields, memFields, atomFields, gathFields, rules] <;> first | rfl | (cases sgn <;> rfl)))
  | imm v => exact of_s 6 3 1 (sFields 3 (sgnCode sgn) 0 d a (.imm v)) ((at_s_03 _).trans (by simp only [field_defs, field_reads, sFields, pmoveFields, pcompFields, memFields, atomFields, gathFields, rules] <;> first | rfl | (cases sgn <;> rfl)))
theorem smad (d : SReg) (a : SReg) (b : SReg) (c : SReg) : Statement (.smad d a b c) :=
  of_s 5 4 1 ({ fl 1 5 4 with d := sCode d, a := sCode a, b := sCode b, x := 0#56 ++ sCode c }) ((at_s_04 _).trans (by simp only [field_defs, field_reads, sFields, pmoveFields, pcompFields, memFields, atomFields, gathFields, rules] <;> rfl))
theorem sdiv (sgn : Bool) (d : SReg) (a : SReg) (b : SSrc) : Statement (.sdiv sgn d a b) := by
  cases b with
  | reg n => exact of_s 5 5 0 (sFields 5 (sgnCode sgn) 0 d a (.reg n)) ((at_s_05 _).trans (by simp only [field_defs, field_reads, sFields, pmoveFields, pcompFields, memFields, atomFields, gathFields, rules] <;> first | rfl | (cases sgn <;> rfl)))
  | imm v => exact of_s 6 5 1 (sFields 5 (sgnCode sgn) 0 d a (.imm v)) ((at_s_05 _).trans (by simp only [field_defs, field_reads, sFields, pmoveFields, pcompFields, memFields, atomFields, gathFields, rules] <;> first | rfl | (cases sgn <;> rfl)))
theorem srem (sgn : Bool) (d : SReg) (a : SReg) (b : SSrc) : Statement (.srem sgn d a b) := by
  cases b with
  | reg n => exact of_s 5 6 0 (sFields 6 (sgnCode sgn) 0 d a (.reg n)) ((at_s_06 _).trans (by simp only [field_defs, field_reads, sFields, pmoveFields, pcompFields, memFields, atomFields, gathFields, rules] <;> first | rfl | (cases sgn <;> rfl)))
  | imm v => exact of_s 6 6 1 (sFields 6 (sgnCode sgn) 0 d a (.imm v)) ((at_s_06 _).trans (by simp only [field_defs, field_reads, sFields, pmoveFields, pcompFields, memFields, atomFields, gathFields, rules] <;> first | rfl | (cases sgn <;> rfl)))
theorem sand (d : SReg) (a : SReg) (b : SSrc) : Statement (.sand d a b) := by
  cases b with
  | reg n => exact of_s 5 7 0 (sFields 7 0 0 d a (.reg n)) ((at_s_07 _).trans (by simp only [field_defs, field_reads, sFields, pmoveFields, pcompFields, memFields, atomFields, gathFields, rules] <;> rfl))
  | imm v => exact of_s 6 7 1 (sFields 7 0 0 d a (.imm v)) ((at_s_07 _).trans (by simp only [field_defs, field_reads, sFields, pmoveFields, pcompFields, memFields, atomFields, gathFields, rules] <;> rfl))
theorem sor (d : SReg) (a : SReg) (b : SSrc) : Statement (.sor d a b) := by
  cases b with
  | reg n => exact of_s 5 8 0 (sFields 8 0 0 d a (.reg n)) ((at_s_08 _).trans (by simp only [field_defs, field_reads, sFields, pmoveFields, pcompFields, memFields, atomFields, gathFields, rules] <;> rfl))
  | imm v => exact of_s 6 8 1 (sFields 8 0 0 d a (.imm v)) ((at_s_08 _).trans (by simp only [field_defs, field_reads, sFields, pmoveFields, pcompFields, memFields, atomFields, gathFields, rules] <;> rfl))
theorem sxor (d : SReg) (a : SReg) (b : SSrc) : Statement (.sxor d a b) := by
  cases b with
  | reg n => exact of_s 5 9 0 (sFields 9 0 0 d a (.reg n)) ((at_s_09 _).trans (by simp only [field_defs, field_reads, sFields, pmoveFields, pcompFields, memFields, atomFields, gathFields, rules] <;> rfl))
  | imm v => exact of_s 6 9 1 (sFields 9 0 0 d a (.imm v)) ((at_s_09 _).trans (by simp only [field_defs, field_reads, sFields, pmoveFields, pcompFields, memFields, atomFields, gathFields, rules] <;> rfl))
theorem sshl (d : SReg) (a : SReg) (b : SSrc) : Statement (.sshl d a b) := by
  cases b with
  | reg n => exact of_s 5 10 0 (sFields 0xA 0 0 d a (.reg n)) ((at_s_0a _).trans (by simp only [field_defs, field_reads, sFields, pmoveFields, pcompFields, memFields, atomFields, gathFields, rules] <;> rfl))
  | imm v => exact of_s 6 10 1 (sFields 0xA 0 0 d a (.imm v)) ((at_s_0a _).trans (by simp only [field_defs, field_reads, sFields, pmoveFields, pcompFields, memFields, atomFields, gathFields, rules] <;> rfl))
theorem sshr (d : SReg) (a : SReg) (b : SSrc) : Statement (.sshr d a b) := by
  cases b with
  | reg n => exact of_s 5 11 0 (sFields 0xB 0 0 d a (.reg n)) ((at_s_0b _).trans (by simp only [field_defs, field_reads, sFields, pmoveFields, pcompFields, memFields, atomFields, gathFields, rules] <;> rfl))
  | imm v => exact of_s 6 11 1 (sFields 0xB 0 0 d a (.imm v)) ((at_s_0b _).trans (by simp only [field_defs, field_reads, sFields, pmoveFields, pcompFields, memFields, atomFields, gathFields, rules] <;> rfl))
theorem ssra (d : SReg) (a : SReg) (b : SSrc) : Statement (.ssra d a b) := by
  cases b with
  | reg n => exact of_s 5 12 0 (sFields 0xC 0 0 d a (.reg n)) ((at_s_0c _).trans (by simp only [field_defs, field_reads, sFields, pmoveFields, pcompFields, memFields, atomFields, gathFields, rules] <;> rfl))
  | imm v => exact of_s 6 12 1 (sFields 0xC 0 0 d a (.imm v)) ((at_s_0c _).trans (by simp only [field_defs, field_reads, sFields, pmoveFields, pcompFields, memFields, atomFields, gathFields, rules] <;> rfl))
theorem smin (sgn : Bool) (d : SReg) (a : SReg) (b : SSrc) : Statement (.smin sgn d a b) := by
  cases b with
  | reg n => exact of_s 5 13 0 (sFields 0xD (sgnCode sgn) 0 d a (.reg n)) ((at_s_0d _).trans (by simp only [field_defs, field_reads, sFields, pmoveFields, pcompFields, memFields, atomFields, gathFields, rules] <;> first | rfl | (cases sgn <;> rfl)))
  | imm v => exact of_s 6 13 1 (sFields 0xD (sgnCode sgn) 0 d a (.imm v)) ((at_s_0d _).trans (by simp only [field_defs, field_reads, sFields, pmoveFields, pcompFields, memFields, atomFields, gathFields, rules] <;> first | rfl | (cases sgn <;> rfl)))
theorem smax (sgn : Bool) (d : SReg) (a : SReg) (b : SSrc) : Statement (.smax sgn d a b) := by
  cases b with
  | reg n => exact of_s 5 14 0 (sFields 0xE (sgnCode sgn) 0 d a (.reg n)) ((at_s_0e _).trans (by simp only [field_defs, field_reads, sFields, pmoveFields, pcompFields, memFields, atomFields, gathFields, rules] <;> first | rfl | (cases sgn <;> rfl)))
  | imm v => exact of_s 6 14 1 (sFields 0xE (sgnCode sgn) 0 d a (.imm v)) ((at_s_0e _).trans (by simp only [field_defs, field_reads, sFields, pmoveFields, pcompFields, memFields, atomFields, gathFields, rules] <;> first | rfl | (cases sgn <;> rfl)))
theorem scmp (c : Cond) (sgn : Bool) (d : SReg) (a : SReg) (b : SSrc) : Statement (.scmp c sgn d a b) := by
  cases b with
  | reg n => exact of_s 5 15 0 (sFields 0xF (sgnCode sgn) (0#9 ++ c.code) d a (.reg n)) ((at_s_0f _).trans (by simp only [field_defs, field_reads, sFields, pmoveFields, pcompFields, memFields, atomFields, gathFields, rules] <;> first | rfl | (cases sgn <;> rfl)))
  | imm v => exact of_s 6 15 1 (sFields 0xF (sgnCode sgn) (0#9 ++ c.code) d a (.imm v)) ((at_s_0f _).trans (by simp only [field_defs, field_reads, sFields, pmoveFields, pcompFields, memFields, atomFields, gathFields, rules] <;> first | rfl | (cases sgn <;> rfl)))
theorem ssel (d : SReg) (a : SReg) (b : SReg) (c : SReg) : Statement (.ssel d a b c) :=
  of_s 5 16 1 ({ fl 1 5 0x10 with d := sCode d, a := sCode a, b := sCode b, x := 0#56 ++ sCode c }) ((at_s_10 _).trans (by simp only [field_defs, field_reads, sFields, pmoveFields, pcompFields, memFields, atomFields, gathFields, rules] <;> rfl))
theorem smov (d : SReg) (a : SReg) : Statement (.smov d a) :=
  of_s 5 17 0 ({ fl 0 5 0x11 with d := sCode d, a := sCode a }) ((at_s_11 _).trans (by simp only [field_defs, field_reads, sFields, pmoveFields, pcompFields, memFields, atomFields, gathFields, rules] <;> rfl))
theorem sbfx (sgn : Bool) (d : SReg) (a : SReg) (pos : BitVec 6) (len : BitVec 7) : Statement (.sbfx sgn d a pos len) :=
  of_s 5 18 1 ( { fl 1 5 0x12 with d := sCode d, a := sCode a, ty := sgnCode sgn, x := 0#51 ++ (len ++ pos) }) ((at_s_12 _).trans (by simp only [field_defs, field_reads, sFields, pmoveFields, pcompFields, memFields, atomFields, gathFields, rules] <;> first | rfl | (cases sgn <;> rfl)))
theorem spopc (d : SReg) (a : SReg) : Statement (.spopc d a) :=
  of_s 5 19 0 ({ fl 0 5 0x13 with d := sCode d, a := sCode a }) ((at_s_13 _).trans (by simp only [field_defs, field_reads, sFields, pmoveFields, pcompFields, memFields, atomFields, gathFields, rules] <;> rfl))
theorem sclz (d : SReg) (a : SReg) : Statement (.sclz d a) :=
  of_s 5 20 0 ({ fl 0 5 0x14 with d := sCode d, a := sCode a }) ((at_s_14 _).trans (by simp only [field_defs, field_reads, sFields, pmoveFields, pcompFields, memFields, atomFields, gathFields, rules] <;> rfl))
theorem saddr (d : SReg) (a : SReg) (b : SReg) (scale : BitVec 2) (disp : BitVec 32) : Statement (.saddr d a b scale disp) :=
  of_s 5 21 1 ( { fl 1 5 0x15 with d := sCode d, a := sCode a, b := sCode b, mod := 0#10 ++ scale, x := imm32 disp }) ((at_s_15 _).trans (by simp only [field_defs, field_reads, sFields, pmoveFields, pcompFields, memFields, atomFields, gathFields, rules] <;> rfl))
theorem sli (d : SReg) (v : BitVec 64) : Statement (.sli d v) := by
  exact of_at 7 0 2 .none ({ fl 2 7 0 with d := sCode d, x := v }) ((at_07_00 _ _).trans (by simp only [field_defs, field_reads, sFields, pmoveFields, pcompFields, memFields, atomFields, gathFields, rules] <;> rfl)) rfl
theorem vadd (o : VBin) : Statement (.vadd o) :=
  of_wf fun h => of_at 8 0 o.b.lenCode o.ty (vbinFields 8 0 o) ((at_08_00 _ _).trans (congrArg (fun x => some (Instr.vadd x)) (vbin_rt (show o.ok Ty.isInt true false false false true = true from h)))) (Ty.ofCode_code _) (hne := (lenCode_ne _))
theorem vsub (o : VBin) : Statement (.vsub o) :=
  of_wf fun h => of_at 8 1 o.b.lenCode o.ty (vbinFields 8 1 o) ((at_08_01 _ _).trans (congrArg (fun x => some (Instr.vsub x)) (vbin_rt (show o.ok Ty.isInt true false false false true = true from h)))) (Ty.ofCode_code _) (hne := (lenCode_ne _))
theorem vmul (o : VBin) : Statement (.vmul o) :=
  of_wf fun h => of_at 8 2 o.b.lenCode o.ty (vbinFields 8 2 o) ((at_08_02 _ _).trans (congrArg (fun x => some (Instr.vmul x)) (vbin_rt (show o.ok Ty.isInt true false false false true = true from h)))) (Ty.ofCode_code _) (hne := (lenCode_ne _))
theorem vmulh (o : VBin) : Statement (.vmulh o) :=
  of_wf fun h => of_at 8 3 o.b.lenCode o.ty (vbinFields 8 3 o) ((at_08_03 _ _).trans (congrArg (fun x => some (Instr.vmulh x)) (vbin_rt (show o.ok Ty.isWide false false false false true = true from h)))) (Ty.ofCode_code _) (hne := (lenCode_ne _))
theorem vmad (o : VTri) : Statement (.vmad o) :=
  of_wf fun h => of_at 8 4 1 o.ty (vtriFields 8 4 o) ((at_08_04 _ _).trans (congrArg (fun x => some (Instr.vmad x)) (vtri_rt (show o.ok Ty.isInt true false = true from h)))) (Ty.ofCode_code _) (hne := (by decide))
theorem vaddc (o : VCarry) : Statement (.vaddc o) :=
  of_wf fun h => of_at 8 5 2 .n32 (vcarryFields 5 o) ((at_08_05 _ _).trans (congrArg (fun x => some (Instr.vaddc x)) (vcarry_rt (show o.ok = true from h)))) rfl (hne := (by decide))
theorem vsubb (o : VCarry) : Statement (.vsubb o) :=
  of_wf fun h => of_at 8 6 2 .n32 (vcarryFields 6 o) ((at_08_06 _ _).trans (congrArg (fun x => some (Instr.vsubb x)) (vcarry_rt (show o.ok = true from h)))) rfl (hne := (by decide))
theorem vmin (o : VBin) : Statement (.vmin o) :=
  of_wf fun h => of_at 8 7 o.b.lenCode o.ty (vbinFields 8 7 o) ((at_08_07 _ _).trans (congrArg (fun x => some (Instr.vmin x)) (vbin_rt (show o.ok Ty.isInt false false false false true = true from h)))) (Ty.ofCode_code _) (hne := (lenCode_ne _))
theorem vmax (o : VBin) : Statement (.vmax o) :=
  of_wf fun h => of_at 8 8 o.b.lenCode o.ty (vbinFields 8 8 o) ((at_08_08 _ _).trans (congrArg (fun x => some (Instr.vmax x)) (vbin_rt (show o.ok Ty.isInt false false false false true = true from h)))) (Ty.ofCode_code _) (hne := (lenCode_ne _))
theorem vabs (o : VUn) : Statement (.vabs o) :=
  of_wf fun h => of_at 8 9 0 o.ty (vunFields 8 9 o) ((at_08_09 _ _).trans (congrArg (fun x => some (Instr.vabs x)) (vun_rt (show o.ok Ty.isSigned true false false false = true from h)))) (Ty.ofCode_code _) (hne := (by decide))
theorem vneg (o : VUn) : Statement (.vneg o) :=
  of_wf fun h => of_at 8 10 0 o.ty (vunFields 8 0xA o) ((at_08_0a _ _).trans (congrArg (fun x => some (Instr.vneg x)) (vun_rt (show o.ok Ty.isSigned true false false false = true from h)))) (Ty.ofCode_code _) (hne := (by decide))
theorem vsat (o : VBin) : Statement (.vsat o) :=
  of_wf fun h => of_at 8 11 o.b.lenCode o.ty (vbinFields 8 0xB o) ((at_08_0b _ _).trans (congrArg (fun x => some (Instr.vsat x)) (vbin_rt (show o.ok Ty.isWide false false false true true = true from h)))) (Ty.ofCode_code _) (hne := (lenCode_ne _))
theorem vdot4 (o : VTri) : Statement (.vdot4 o) :=
  of_wf fun h => of_at 8 12 1 o.ty (vtriFields 8 0xC o) ((at_08_0c _ _).trans (congrArg (fun x => some (Instr.vdot4 x)) (vtri_rt (show o.ok (fun t => decide (t = .s8) || decide (t = .n8)) true false = true from h)))) (Ty.ofCode_code _) (hne := (by decide))
theorem vclz (o : VUn) : Statement (.vclz o) :=
  of_wf fun h => of_at 8 13 0 o.ty (vunFields 8 0xD o) ((at_08_0d _ _).trans (congrArg (fun x => some (Instr.vclz x)) (vun_rt (show o.ok (fun t => decide (t = .n32) || decide (t = .n64)) false false false true = true from h)))) (Ty.ofCode_code _) (hne := (by decide))
theorem vpopc (o : VUn) : Statement (.vpopc o) :=
  of_wf fun h => of_at 8 14 0 o.ty (vunFields 8 0xE o) ((at_08_0e _ _).trans (congrArg (fun x => some (Instr.vpopc x)) (vun_rt (show o.ok (fun t => decide (t = .n32) || decide (t = .n64)) false false false true = true from h)))) (Ty.ofCode_code _) (hne := (by decide))
theorem vand (o : VBin) : Statement (.vand o) :=
  of_wf fun h => of_at 9 0 o.b.lenCode o.ty (vbinFields 9 0 o) ((at_09_00 _ _).trans (congrArg (fun x => some (Instr.vand x)) (vbin_rt (show o.ok Ty.isBits false false false false true = true from h)))) (Ty.ofCode_code _) (hne := (lenCode_ne _))
theorem vor (o : VBin) : Statement (.vor o) :=
  of_wf fun h => of_at 9 1 o.b.lenCode o.ty (vbinFields 9 1 o) ((at_09_01 _ _).trans (congrArg (fun x => some (Instr.vor x)) (vbin_rt (show o.ok Ty.isBits false false false false true = true from h)))) (Ty.ofCode_code _) (hne := (lenCode_ne _))
theorem vxor (o : VBin) : Statement (.vxor o) :=
  of_wf fun h => of_at 9 2 o.b.lenCode o.ty (vbinFields 9 2 o) ((at_09_02 _ _).trans (congrArg (fun x => some (Instr.vxor x)) (vbin_rt (show o.ok Ty.isBits false false false false true = true from h)))) (Ty.ofCode_code _) (hne := (lenCode_ne _))
theorem vnot (o : VUn) : Statement (.vnot o) :=
  of_wf fun h => of_at 9 3 0 o.ty (vunFields 9 3 o) ((at_09_03 _ _).trans (congrArg (fun x => some (Instr.vnot x)) (vun_rt (show o.ok Ty.isBits false false false false = true from h)))) (Ty.ofCode_code _) (hne := (by decide))
theorem vshl (o : VBin) : Statement (.vshl o) :=
  of_wf fun h => of_at 9 4 o.b.lenCode o.ty (vbinFields 9 4 o) ((at_09_04 _ _).trans (congrArg (fun x => some (Instr.vshl x)) (vbin_rt (show o.ok Ty.isBits false false false true true = true from h)))) (Ty.ofCode_code _) (hne := (lenCode_ne _))
theorem vshr (o : VBin) : Statement (.vshr o) :=
  of_wf fun h => of_at 9 5 o.b.lenCode o.ty (vbinFields 9 5 o) ((at_09_05 _ _).trans (congrArg (fun x => some (Instr.vshr x)) (vbin_rt (show o.ok Ty.isBits false false false true true = true from h)))) (Ty.ofCode_code _) (hne := (lenCode_ne _))
theorem vsra (o : VBin) : Statement (.vsra o) :=
  of_wf fun h => of_at 9 6 o.b.lenCode o.ty (vbinFields 9 6 o) ((at_09_06 _ _).trans (congrArg (fun x => some (Instr.vsra x)) (vbin_rt (show o.ok Ty.isBits false false false true true = true from h)))) (Ty.ofCode_code _) (hne := (lenCode_ne _))
theorem vbfx (o : VField) : Statement (.vbfx o) :=
  of_wf fun h => of_at 9 7 1 o.ty (vfieldFields 7 o) ((at_09_07 _ _).trans (congrArg (fun x => some (Instr.vbfx x)) (vfield_rt (show o.ok (fun t => decide (t = .s32) || decide (t = .n32)) = true from h)))) (Ty.ofCode_code _) (hne := (by decide))
theorem vbfi (o : VField) : Statement (.vbfi o) :=
  of_wf fun h => of_at 9 8 1 o.ty (vfieldFields 8 o) ((at_09_08 _ _).trans (congrArg (fun x => some (Instr.vbfi x)) (vfield_rt (show o.ok (fun t => decide (t = .b32)) = true from h)))) (Ty.ofCode_code _) (hne := (by decide))
theorem vsel (p : Pred) (ty : Ty) (d : VNum) (a : VSrc) (b : VSrc) (kc : KNum) : Statement (.vsel p ty d a b kc) := by
  cases a with
  | vec na =>
    cases b with
    | vec nb =>
      exact of_at 10 0 1 ty ( { fl 1 0xA 0 with d := vCode d, a := (VSrc.vec na).code, b := (VSrc.vec nb).code, k := p.k, neg := p.neg, ty := ty.code, x := 0#56 ++ kCode kc }) ((at_0a_00 _ _).trans (by simp only [field_defs, field_reads, sFields, pmoveFields, pcompFields, memFields, atomFields, gathFields, rules] <;> rfl)) (Ty.ofCode_code ty)
    | sca nb =>
      exact of_at 10 0 1 ty ( { fl 1 0xA 0 with d := vCode d, a := (VSrc.vec na).code, b := (VSrc.sca nb).code, k := p.k, neg := p.neg, ty := ty.code, x := 0#56 ++ kCode kc }) ((at_0a_00 _ _).trans (by simp only [field_defs, field_reads, sFields, pmoveFields, pcompFields, memFields, atomFields, gathFields, rules] <;> rfl)) (Ty.ofCode_code ty)
    | imm nn => exact fun h => absurd h (by simp [Instr.wf, VSrc.regOk])
  | sca na =>
    cases b with
    | vec nb =>
      exact of_at 10 0 1 ty ( { fl 1 0xA 0 with d := vCode d, a := (VSrc.sca na).code, b := (VSrc.vec nb).code, k := p.k, neg := p.neg, ty := ty.code, x := 0#56 ++ kCode kc }) ((at_0a_00 _ _).trans (by simp only [field_defs, field_reads, sFields, pmoveFields, pcompFields, memFields, atomFields, gathFields, rules] <;> rfl)) (Ty.ofCode_code ty)
    | sca nb =>
      exact of_at 10 0 1 ty ( { fl 1 0xA 0 with d := vCode d, a := (VSrc.sca na).code, b := (VSrc.sca nb).code, k := p.k, neg := p.neg, ty := ty.code, x := 0#56 ++ kCode kc }) ((at_0a_00 _ _).trans (by simp only [field_defs, field_reads, sFields, pmoveFields, pcompFields, memFields, atomFields, gathFields, rules] <;> rfl)) (Ty.ofCode_code ty)
    | imm nn => exact fun h => absurd h (by simp [Instr.wf, VSrc.regOk])
  | imm nn => exact fun h => absurd h (by simp [Instr.wf, VSrc.regOk])
theorem vcmp (o : VCmp) : Statement (.vcmp o) :=
  of_wf fun h => of_at 10 1 o.b.lenCode o.ty (vcmpFields 0xA 1 o) ((at_0a_01 _ _).trans (vcmp_rt Instr.vcmp (show o.ok Ty.isInt = true from h))) (Ty.ofCode_code _) (hne := (lenCode_ne _))
theorem vmov (o : VUn) : Statement (.vmov o) :=
  of_wf fun h => of_at 10 2 0 o.ty (vunFields 0xA 2 o) ((at_0a_02 _ _).trans (congrArg (fun x => some (Instr.vmov x)) (vun_rt (show o.ok Ty.isBits false false false false = true from h)))) (Ty.ofCode_code _) (hne := (by decide))
theorem vli (p : Pred) (d : VNum) (v : BitVec 32) : Statement (.vli p d v) := by
  exact of_at 10 3 1 .b32 ({ fl 1 0xA 3 with d := vCode d, k := p.k, neg := p.neg, ty := Ty.b32.code, x := imm32 v }) ((at_0a_03 _ _).trans (by simp only [field_defs, field_reads, sFields, pmoveFields, pcompFields, memFields, atomFields, gathFields, rules] <;> rfl)) rfl
theorem vmovs (ty : Ty) (d : SReg) (a : VSrc) (n : BitVec 8) : Statement (.vmovs ty d a n) := by
  cases a with
  | vec na =>
    exact of_at 10 4 0 ty ({ fl 0 0xA 4 with d := sCode d, a := (VSrc.vec na).code, b := n, ty := ty.code }) ((at_0a_04 _ _).trans (by simp only [field_defs, field_reads, sFields, pmoveFields, pcompFields, memFields, atomFields, gathFields, rules] <;> rfl)) (Ty.ofCode_code ty)
  | sca na =>
    exact of_at 10 4 0 ty ({ fl 0 0xA 4 with d := sCode d, a := (VSrc.sca na).code, b := n, ty := ty.code }) ((at_0a_04 _ _).trans (by simp only [field_defs, field_reads, sFields, pmoveFields, pcompFields, memFields, atomFields, gathFields, rules] <;> rfl)) (Ty.ofCode_code ty)
  | imm nn => exact fun h => absurd h (by simp [Instr.wf, VSrc.regOk])
theorem fadd (o : VBin) : Statement (.fadd o) :=
  of_wf fun h => of_at 12 0 o.b.lenCode o.ty (vbinFields 0xC 0 o) ((at_0c_00 _ _).trans (congrArg (fun x => some (Instr.fadd x)) (vbin_rt (show o.ok Ty.isFloat false true false false true = true from h)))) (Ty.ofCode_code _) (hne := (lenCode_ne _))
theorem fsub (o : VBin) : Statement (.fsub o) :=
  of_wf fun h => of_at 12 1 o.b.lenCode o.ty (vbinFields 0xC 1 o) ((at_0c_01 _ _).trans (congrArg (fun x => some (Instr.fsub x)) (vbin_rt (show o.ok Ty.isFloat false true false false true = true from h)))) (Ty.ofCode_code _) (hne := (lenCode_ne _))
theorem fmul (o : VBin) : Statement (.fmul o) :=
  of_wf fun h => of_at 12 2 o.b.lenCode o.ty (vbinFields 0xC 2 o) ((at_0c_02 _ _).trans (congrArg (fun x => some (Instr.fmul x)) (vbin_rt (show o.ok Ty.isFloat false true false false true = true from h)))) (Ty.ofCode_code _) (hne := (lenCode_ne _))
theorem ffma (o : VTri) : Statement (.ffma o) :=
  of_wf fun h => of_at 12 3 1 o.ty (vtriFields 0xC 3 o) ((at_0c_03 _ _).trans (congrArg (fun x => some (Instr.ffma x)) (vtri_rt (show o.ok Ty.isFloat false true = true from h)))) (Ty.ofCode_code _) (hne := (by decide))
theorem fmin (o : VBin) : Statement (.fmin o) :=
  of_wf fun h => of_at 12 4 o.b.lenCode o.ty (vbinFields 0xC 4 o) ((at_0c_04 _ _).trans (congrArg (fun x => some (Instr.fmin x)) (vbin_rt (show o.ok Ty.isFloat false false false false true = true from h)))) (Ty.ofCode_code _) (hne := (lenCode_ne _))
theorem fmax (o : VBin) : Statement (.fmax o) :=
  of_wf fun h => of_at 12 5 o.b.lenCode o.ty (vbinFields 0xC 5 o) ((at_0c_05 _ _).trans (congrArg (fun x => some (Instr.fmax x)) (vbin_rt (show o.ok Ty.isFloat false false false false true = true from h)))) (Ty.ofCode_code _) (hne := (lenCode_ne _))
theorem fabs (o : VUn) : Statement (.fabs o) :=
  of_wf fun h => of_at 13 0 0 o.ty (vunFields 0xD 0 o) ((at_0d_00 _ _).trans (congrArg (fun x => some (Instr.fabs x)) (vun_rt (show o.ok Ty.isFloat false false false false = true from h)))) (Ty.ofCode_code _) (hne := (by decide))
theorem fneg (o : VUn) : Statement (.fneg o) :=
  of_wf fun h => of_at 13 1 0 o.ty (vunFields 0xD 1 o) ((at_0d_01 _ _).trans (congrArg (fun x => some (Instr.fneg x)) (vun_rt (show o.ok Ty.isFloat false false false false = true from h)))) (Ty.ofCode_code _) (hne := (by decide))
theorem fclass (o : VUn) : Statement (.fclass o) :=
  of_wf fun h => of_at 13 2 0 o.ty (vunFields 0xD 2 o) ((at_0d_02 _ _).trans (congrArg (fun x => some (Instr.fclass x)) (vun_rt (show o.ok Ty.isFloat false false false true = true from h)))) (Ty.ofCode_code _) (hne := (by decide))
theorem ffloor (o : VUn) : Statement (.ffloor o) :=
  of_wf fun h => of_at 13 3 0 o.ty (vunFields 0xD 3 o) ((at_0d_03 _ _).trans (congrArg (fun x => some (Instr.ffloor x)) (vun_rt (show o.ok Ty.isFloat false false false false = true from h)))) (Ty.ofCode_code _) (hne := (by decide))
theorem frint (o : VUn) : Statement (.frint o) :=
  of_wf fun h => of_at 13 4 0 o.ty (vunFields 0xD 4 o) ((at_0d_04 _ _).trans (congrArg (fun x => some (Instr.frint x)) (vun_rt (show o.ok Ty.isFloat false true false false = true from h)))) (Ty.ofCode_code _) (hne := (by decide))
theorem fscale (o : VBin) : Statement (.fscale o) :=
  of_wf fun h => of_at 13 5 o.b.lenCode o.ty (vbinFields 0xD 5 o) ((at_0d_05 _ _).trans (congrArg (fun x => some (Instr.fscale x)) (vbin_rt (show o.ok Ty.isFloat false true false true true = true from h)))) (Ty.ofCode_code _) (hne := (lenCode_ne _))
theorem fcmp (o : VCmp) : Statement (.fcmp o) :=
  of_wf fun h => of_at 14 0 o.b.lenCode o.ty (vcmpFields 0xE 0 o) ((at_0e_00 _ _).trans (vcmp_rt Instr.fcmp (show o.ok Ty.isFloat = true from h))) (Ty.ofCode_code _) (hne := (lenCode_ne _))
theorem cvt (p : Pred) (dt : Ty) (sy : Ty) (sat : Bool) (d : VNum) (a : VSrc) : Statement (.cvt p dt sy sat d a) := by
  cases a with
  | vec na =>
    exact of_at 16 0 0 dt ( { fl 0 0x10 0 with d := vCode d, a := (VSrc.vec na).code, k := p.k, neg := p.neg, ty := dt.code, mod := vMod sy.code sat .rn 0 }) ((at_10_00 _ _).trans (by simp only [field_defs, field_reads, sFields, pmoveFields, pcompFields, memFields, atomFields, gathFields, rules] <;> rfl)) (Ty.ofCode_code dt)
  | sca na =>
    exact of_at 16 0 0 dt ( { fl 0 0x10 0 with d := vCode d, a := (VSrc.sca na).code, k := p.k, neg := p.neg, ty := dt.code, mod := vMod sy.code sat .rn 0 }) ((at_10_00 _ _).trans (by simp only [field_defs, field_reads, sFields, pmoveFields, pcompFields, memFields, atomFields, gathFields, rules] <;> rfl)) (Ty.ofCode_code dt)
  | imm nn => exact fun h => absurd h (by simp [Instr.wf, VSrc.regOk])
theorem pack (ty : Ty) (d : VNum) (a : VSrc) (q : BitVec 8) : Statement (.pack ty d a q) := by
  cases a with
  | vec na =>
    exact of_at 16 1 0 ty ({ fl 0 0x10 1 with d := vCode d, a := (VSrc.vec na).code, b := q, ty := ty.code }) ((at_10_01 _ _).trans (by simp only [field_defs, field_reads, sFields, pmoveFields, pcompFields, memFields, atomFields, gathFields, rules] <;> rfl)) (Ty.ofCode_code ty)
  | sca na =>
    exact of_at 16 1 0 ty ({ fl 0 0x10 1 with d := vCode d, a := (VSrc.sca na).code, b := q, ty := ty.code }) ((at_10_01 _ _).trans (by simp only [field_defs, field_reads, sFields, pmoveFields, pcompFields, memFields, atomFields, gathFields, rules] <;> rfl)) (Ty.ofCode_code ty)
  | imm nn => exact fun h => absurd h (by simp [Instr.wf, VSrc.regOk])
theorem unpack (ty : Ty) (d : VNum) (a : VSrc) (q : BitVec 8) : Statement (.unpack ty d a q) := by
  cases a with
  | vec na =>
    exact of_at 16 2 0 ty ({ fl 0 0x10 2 with d := vCode d, a := (VSrc.vec na).code, b := q, ty := ty.code }) ((at_10_02 _ _).trans (by simp only [field_defs, field_reads, sFields, pmoveFields, pcompFields, memFields, atomFields, gathFields, rules] <;> rfl)) (Ty.ofCode_code ty)
  | sca na =>
    exact of_at 16 2 0 ty ({ fl 0 0x10 2 with d := vCode d, a := (VSrc.sca na).code, b := q, ty := ty.code }) ((at_10_02 _ _).trans (by simp only [field_defs, field_reads, sFields, pmoveFields, pcompFields, memFields, atomFields, gathFields, rules] <;> rfl)) (Ty.ofCode_code ty)
  | imm nn => exact fun h => absurd h (by simp [Instr.wf, VSrc.regOk])
theorem ctag (ty : Ty) (d : SReg) (a : VSrc) : Statement (.ctag ty d a) := by
  cases a with
  | vec na =>
    exact of_at 16 3 0 ty ({ fl 0 0x10 3 with d := sCode d, a := (VSrc.vec na).code, ty := ty.code }) ((at_10_03 _ _).trans (by simp only [field_defs, field_reads, sFields, pmoveFields, pcompFields, memFields, atomFields, gathFields, rules] <;> rfl)) (Ty.ofCode_code ty)
  | sca na =>
    exact of_at 16 3 0 ty ({ fl 0 0x10 3 with d := sCode d, a := (VSrc.sca na).code, ty := ty.code }) ((at_10_03 _ _).trans (by simp only [field_defs, field_reads, sFields, pmoveFields, pcompFields, memFields, atomFields, gathFields, rules] <;> rfl)) (Ty.ofCode_code ty)
  | imm nn => exact fun h => absurd h (by simp [Instr.wf, VSrc.regOk])
theorem fdiv (o : VBin) : Statement (.fdiv o) :=
  of_wf fun h => of_at 17 0 o.b.lenCode o.ty (vbinFields 0x11 0 o) ((at_11_00 _ _).trans (congrArg (fun x => some (Instr.fdiv x)) (vbin_rt (show o.ok Ty.isFloat false false true false false = true from h)))) (Ty.ofCode_code _) (hne := (lenCode_ne _))
theorem fsqrt (o : VUn) : Statement (.fsqrt o) :=
  of_wf fun h => of_at 17 1 0 o.ty (vunFields 0x11 1 o) ((at_11_01 _ _).trans (congrArg (fun x => some (Instr.fsqrt x)) (vun_rt (show o.ok Ty.isFloat false false true false = true from h)))) (Ty.ofCode_code _) (hne := (by decide))
theorem frcp (o : VUn) : Statement (.frcp o) :=
  of_wf fun h => of_at 17 2 0 o.ty (vunFields 0x11 2 o) ((at_11_02 _ _).trans (congrArg (fun x => some (Instr.frcp x)) (vun_rt (show o.ok Ty.isFloat false false true false = true from h)))) (Ty.ofCode_code _) (hne := (by decide))
theorem frsq (o : VUn) : Statement (.frsq o) :=
  of_wf fun h => of_at 17 3 0 o.ty (vunFields 0x11 3 o) ((at_11_03 _ _).trans (congrArg (fun x => some (Instr.frsq x)) (vun_rt (show o.ok Ty.isFloat false false true false = true from h)))) (Ty.ofCode_code _) (hne := (by decide))
theorem fexp2 (o : VUn) : Statement (.fexp2 o) :=
  of_wf fun h => of_at 17 4 0 o.ty (vunFields 0x11 4 o) ((at_11_04 _ _).trans (congrArg (fun x => some (Instr.fexp2 x)) (vun_rt (show o.ok Ty.isFloat false false true false = true from h)))) (Ty.ofCode_code _) (hne := (by decide))
theorem flog2 (o : VUn) : Statement (.flog2 o) :=
  of_wf fun h => of_at 17 5 0 o.ty (vunFields 0x11 5 o) ((at_11_05 _ _).trans (congrArg (fun x => some (Instr.flog2 x)) (vun_rt (show o.ok Ty.isFloat false false true false = true from h)))) (Ty.ofCode_code _) (hne := (by decide))
theorem foldset (f : FNum) (ix : BitVec 32) : Statement (.foldset f ix) := by
  exact of_at 18 0 1 .none ({ fl 1 0x12 0 with d := fCode f, x := imm32 ix }) ((at_12_00 _ _).trans (by simp only [field_defs, field_reads, sFields, pmoveFields, pcompFields, memFields, atomFields, gathFields, rules] <;> rfl)) rfl
theorem refold (ty : Ty) (la : Look) (d : VNum) (a : VNum) (fs : FNum) (ft : FNum) : Statement (.refold ty la d a fs ft) := by
  exact of_at 18 1 0 ty ( { fl 0 0x12 1 with d := vCode d, a := vCode a, b := fCode fs, ty := ty.code, la := la, mod := 0#7 ++ (ft ++ 0#2) }) ((at_12_01 _ _).trans (by simp only [field_defs, field_reads, sFields, pmoveFields, pcompFields, memFields, atomFields, gathFields, rules] <;> rfl)) (Ty.ofCode_code ty)
theorem pshift (o : PMove) : Statement (.pshift o) :=
  of_at 18 2 1 o.ty (pmoveFields 2 o) ((at_12_02 _ _).trans (by simp only [field_defs, field_reads, sFields, pmoveFields, pcompFields, memFields, atomFields, gathFields, rules] <;> rfl)) (Ty.ofCode_code _)
theorem prot (o : PMove) : Statement (.prot o) :=
  of_at 18 3 1 o.ty (pmoveFields 3 o) ((at_12_03 _ _).trans (by simp only [field_defs, field_reads, sFields, pmoveFields, pcompFields, memFields, atomFields, gathFields, rules] <;> rfl)) (Ty.ofCode_code _)
theorem pspread (o : PComp) : Statement (.pspread o) :=
  of_at 18 4 0 o.ty (pcompFields 4 o 0) ((at_12_04 _ _).trans (by simp only [field_defs, field_reads, sFields, pmoveFields, pcompFields, memFields, atomFields, gathFields, rules] <;> rfl)) (Ty.ofCode_code _)
theorem pfold (o : PComp) (op : RedOp) : Statement (.pfold o op) :=
  of_at 18 5 0 o.ty (pcompFields 5 o (0#7 ++ op.code)) ((at_12_05 _ _).trans (by simp only [field_defs, field_reads, sFields, pmoveFields, pcompFields, memFields, atomFields, gathFields, rules] <;> rfl)) (Ty.ofCode_code _)
theorem pgath (o : PComp) (ix : VNum) : Statement (.pgath o ix) :=
  of_at 18 7 0 o.ty (pcompFields 7 o (ix ++ 0#3)) ((at_12_07 _ _).trans (by simp only [field_defs, field_reads, sFields, pmoveFields, pcompFields, memFields, atomFields, gathFields, rules] <;> rfl)) (Ty.ofCode_code _)
theorem ptrans (ty : Ty) (la : Look) (d : VNum) (a : VNum) (f : FNum) : Statement (.ptrans ty la d a f) := by
  exact of_at 18 8 0 ty ( { fl 0 0x12 8 with d := vCode d, a := vCode a, b := fCode f, ty := ty.code, la := la }) ((at_12_08 _ _).trans (by simp only [field_defs, field_reads, sFields, pmoveFields, pcompFields, memFields, atomFields, gathFields, rules] <;> rfl)) (Ty.ofCode_code ty)
theorem vote (p : Pred) (op : RedOp) (ty : Ty) (d : SReg) (a : VSrc) (m : Option VNum) (g : Option (BitVec 8)) : Statement (.vote p op ty d a m g) := by
  cases a with
  | vec na =>
    cases m with
    | none =>
      cases g with
      | none =>
        exact of_at 20 0 0 ty ( { fl 0 0x14 0 with d := sCode d, a := (VSrc.vec na).code, b := optB (none : Option (BitVec 8)), k := p.k, neg := p.neg, ty := ty.code, mod := optV (none : Option VNum) ++ (BitVec.ofBool (none : Option VNum).isSome ++ (BitVec.ofBool (none : Option (BitVec 8)).isSome ++ op.code)) }) ((at_14_00 _ _).trans (by simp only [field_defs, field_reads, sFields, pmoveFields, pcompFields, memFields, atomFields, gathFields, rules] <;> rfl)) (Ty.ofCode_code ty)
      | some xg =>
        exact of_at 20 0 0 ty ( { fl 0 0x14 0 with d := sCode d, a := (VSrc.vec na).code, b := optB (some xg), k := p.k, neg := p.neg, ty := ty.code, mod := optV (none : Option VNum) ++ (BitVec.ofBool (none : Option VNum).isSome ++ (BitVec.ofBool (some xg).isSome ++ op.code)) }) ((at_14_00 _ _).trans (by simp only [field_defs, field_reads, sFields, pmoveFields, pcompFields, memFields, atomFields, gathFields, rules] <;> rfl)) (Ty.ofCode_code ty)
    | some xm =>
      cases g with
      | none =>
        exact of_at 20 0 0 ty ( { fl 0 0x14 0 with d := sCode d, a := (VSrc.vec na).code, b := optB (none : Option (BitVec 8)), k := p.k, neg := p.neg, ty := ty.code, mod := optV (some xm) ++ (BitVec.ofBool (some xm).isSome ++ (BitVec.ofBool (none : Option (BitVec 8)).isSome ++ op.code)) }) ((at_14_00 _ _).trans (by simp only [field_defs, field_reads, sFields, pmoveFields, pcompFields, memFields, atomFields, gathFields, rules] <;> rfl)) (Ty.ofCode_code ty)
      | some xg =>
        exact of_at 20 0 0 ty ( { fl 0 0x14 0 with d := sCode d, a := (VSrc.vec na).code, b := optB (some xg), k := p.k, neg := p.neg, ty := ty.code, mod := optV (some xm) ++ (BitVec.ofBool (some xm).isSome ++ (BitVec.ofBool (some xg).isSome ++ op.code)) }) ((at_14_00 _ _).trans (by simp only [field_defs, field_reads, sFields, pmoveFields, pcompFields, memFields, atomFields, gathFields, rules] <;> rfl)) (Ty.ofCode_code ty)
  | sca na =>
    cases m with
    | none =>
      cases g with
      | none =>
        exact of_at 20 0 0 ty ( { fl 0 0x14 0 with d := sCode d, a := (VSrc.sca na).code, b := optB (none : Option (BitVec 8)), k := p.k, neg := p.neg, ty := ty.code, mod := optV (none : Option VNum) ++ (BitVec.ofBool (none : Option VNum).isSome ++ (BitVec.ofBool (none : Option (BitVec 8)).isSome ++ op.code)) }) ((at_14_00 _ _).trans (by simp only [field_defs, field_reads, sFields, pmoveFields, pcompFields, memFields, atomFields, gathFields, rules] <;> rfl)) (Ty.ofCode_code ty)
      | some xg =>
        exact of_at 20 0 0 ty ( { fl 0 0x14 0 with d := sCode d, a := (VSrc.sca na).code, b := optB (some xg), k := p.k, neg := p.neg, ty := ty.code, mod := optV (none : Option VNum) ++ (BitVec.ofBool (none : Option VNum).isSome ++ (BitVec.ofBool (some xg).isSome ++ op.code)) }) ((at_14_00 _ _).trans (by simp only [field_defs, field_reads, sFields, pmoveFields, pcompFields, memFields, atomFields, gathFields, rules] <;> rfl)) (Ty.ofCode_code ty)
    | some xm =>
      cases g with
      | none =>
        exact of_at 20 0 0 ty ( { fl 0 0x14 0 with d := sCode d, a := (VSrc.sca na).code, b := optB (none : Option (BitVec 8)), k := p.k, neg := p.neg, ty := ty.code, mod := optV (some xm) ++ (BitVec.ofBool (some xm).isSome ++ (BitVec.ofBool (none : Option (BitVec 8)).isSome ++ op.code)) }) ((at_14_00 _ _).trans (by simp only [field_defs, field_reads, sFields, pmoveFields, pcompFields, memFields, atomFields, gathFields, rules] <;> rfl)) (Ty.ofCode_code ty)
      | some xg =>
        exact of_at 20 0 0 ty ( { fl 0 0x14 0 with d := sCode d, a := (VSrc.sca na).code, b := optB (some xg), k := p.k, neg := p.neg, ty := ty.code, mod := optV (some xm) ++ (BitVec.ofBool (some xm).isSome ++ (BitVec.ofBool (some xg).isSome ++ op.code)) }) ((at_14_00 _ _).trans (by simp only [field_defs, field_reads, sFields, pmoveFields, pcompFields, memFields, atomFields, gathFields, rules] <;> rfl)) (Ty.ofCode_code ty)
  | imm nn => exact fun h => absurd h (by simp [Instr.wf, VSrc.regOk])
theorem regroup (d : SReg) (g : BitVec 8) : Statement (.regroup d g) := by
  exact of_at 20 1 0 .none ({ fl 0 0x14 1 with d := sCode d, b := g }) ((at_14_01 _ _).trans (by simp only [field_defs, field_reads, sFields, pmoveFields, pcompFields, memFields, atomFields, gathFields, rules] <;> rfl)) rfl
theorem pld (la : Look) (ty : Ty) (d : VNum) (base : SReg) (disp : Option (BitVec 32)) (f : FNum) : Statement (.pld la ty d base disp f) := by
  cases disp with
  | none =>
    exact of_at 22 2 0 ty ( { fl (dispLen (none : Option (BitVec 32))) 0x16 2 with d := vCode d, a := sCode base, b := fCode f, ty := ty.code, la := la, x := dispX (none : Option (BitVec 32)) }) ((at_16_02 _ _).trans (by simp only [field_defs, field_reads, sFields, pmoveFields, pcompFields, memFields, atomFields, gathFields, rules] <;> rfl)) (Ty.ofCode_code ty)
  | some xdisp =>
    exact of_at 22 2 1 ty ( { fl (dispLen (some xdisp)) 0x16 2 with d := vCode d, a := sCode base, b := fCode f, ty := ty.code, la := la, x := dispX (some xdisp) }) ((at_16_02 _ _).trans (by simp only [field_defs, field_reads, sFields, pmoveFields, pcompFields, memFields, atomFields, gathFields, rules] <;> rfl)) (Ty.ofCode_code ty)
theorem pst (ty : Ty) (base : SReg) (disp : Option (BitVec 32)) (d : VNum) (f : FNum) : Statement (.pst ty base disp d f) := by
  cases disp with
  | none =>
    exact of_at 22 3 0 ty ( { fl (dispLen (none : Option (BitVec 32))) 0x16 3 with d := vCode d, a := sCode base, b := fCode f, ty := ty.code, x := dispX (none : Option (BitVec 32)) }) ((at_16_03 _ _).trans (by simp only [field_defs, field_reads, sFields, pmoveFields, pcompFields, memFields, atomFields, gathFields, rules] <;> rfl)) (Ty.ofCode_code ty)
  | some xdisp =>
    exact of_at 22 3 1 ty ( { fl (dispLen (some xdisp)) 0x16 3 with d := vCode d, a := sCode base, b := fCode f, ty := ty.code, x := dispX (some xdisp) }) ((at_16_03 _ _).trans (by simp only [field_defs, field_reads, sFields, pmoveFields, pcompFields, memFields, atomFields, gathFields, rules] <;> rfl)) (Ty.ofCode_code ty)
theorem fence (k : Ord) (sc : Scope) (vh : Bool) : Statement (.fence k sc vh) := by
  exact of_at 25 0 0 .none ({ fl 0 0x19 0 with mod := 0#3 ++ (BitVec.ofBool vh ++ (0#2 ++ (k.code ++ (sc.code ++ 0#2)))) }) ((at_19_00 _ _).trans (by simp only [field_defs, field_reads, sFields, pmoveFields, pcompFields, memFields, atomFields, gathFields, rules] <;> rfl)) rfl
theorem mmap (str : BitVec 2) (m : MNum) (off : BitVec 32) : Statement (.mmap str m off) := by
  exact of_at 26 0 1 .none ({ fl 1 0x1A 0 with d := mCode m, mod := matMod false 0 false 0 false str, x := imm32 off }) ((at_1a_00 _ _).trans (by simp only [field_defs, field_reads, sFields, pmoveFields, pcompFields, memFields, atomFields, gathFields, rules] <;> rfl)) rfl
theorem mldb (str : BitVec 2) (scr : Bool) (d : SReg) (a : SReg) (b : SReg) (len : BitVec 32) : Statement (.mldb str scr d a b len) := by
  exact of_at 26 1 1 .none ( { fl 1 0x1A 1 with d := sCode d, a := sCode a, b := sCode b, mod := matMod scr 0 false 0 false str, x := imm32 len }) ((at_1a_01 _ _).trans (by simp only [field_defs, field_reads, sFields, pmoveFields, pcompFields, memFields, atomFields, gathFields, rules] <;> first | rfl | (cases scr <;> rfl))) rfl
theorem mzero (str : BitVec 2) (spec : Bool) (z : ZNum) : Statement (.mzero str spec z) := by
  exact of_at 26 2 0 .none ({ fl 0 0x1A 2 with d := zCode z, mod := matMod false 0 false 0 spec str }) ((at_1a_02 _ _).trans (by simp only [field_defs, field_reads, sFields, pmoveFields, pcompFields, memFields, atomFields, gathFields, rules] <;> rfl)) rfl
theorem mldz (str : BitVec 2) (spec : Bool) (tr : Bool) (z : ZNum) (a : SReg) (disp : BitVec 32) : Statement (.mldz str spec tr z a disp) := by
  exact of_at 26 3 1 .none ( { fl 1 0x1A 3 with d := zCode z, a := sCode a, mod := matMod false 0 tr 0 spec str, x := imm32 disp }) ((at_1a_03 _ _).trans (by simp only [field_defs, field_reads, sFields, pmoveFields, pcompFields, memFields, atomFields, gathFields, rules] <;> rfl)) rfl
theorem mstz (str : BitVec 2) (tr : Bool) (ty : Ty) (a : SReg) (disp : BitVec 32) (z : ZNum) : Statement (.mstz str tr ty a disp z) := by
  exact of_at 26 4 1 ty ( { fl 1 0x1A 4 with d := zCode z, a := sCode a, ty := ty.code, mod := matMod false 0 tr 0 false str, x := imm32 disp }) ((at_1a_04 _ _).trans (by simp only [field_defs, field_reads, sFields, pmoveFields, pcompFields, memFields, atomFields, gathFields, rules] <;> rfl)) (Ty.ofCode_code ty)
theorem mma (str : BitVec 2) (spec : Bool) (ty : Ty) (z : ZNum) (ma : MNum) (mb : MNum) (steps : BitVec 32) : Statement (.mma str spec ty z ma mb steps) := by
  exact of_at 27 0 1 ty ( { fl 1 0x1B 0 with d := zCode z, a := mCode ma, b := mCode mb, ty := ty.code, mod := matMod false 0 false 0 spec str, x := imm32 steps }) ((at_1b_00 _ _).trans (by simp only [field_defs, field_reads, sFields, pmoveFields, pcompFields, memFields, atomFields, gathFields, rules] <;> rfl)) (Ty.ofCode_code ty)
theorem mscale (str : BitVec 2) (spec : Bool) (ty : Ty) (zd : ZNum) (za : ZNum) (oa : BitVec 32) (ob : BitVec 32) : Statement (.mscale str spec ty zd za oa ob) := by
  exact of_at 27 1 2 ty ( { fl 2 0x1B 1 with d := zCode zd, a := zCode za, ty := ty.code, mod := matMod false 0 false 0 spec str, x := ob ++ oa }) ((at_1b_01 _ _).trans (by simp only [field_defs, field_reads, sFields, pmoveFields, pcompFields, memFields, atomFields, gathFields, rules] <;> rfl)) (Ty.ofCode_code ty)
theorem mcommit (str : BitVec 2) (z : ZNum) (n1 : BitVec 4) : Statement (.mcommit str z n1) := by
  exact of_at 28 0 0 .none ({ fl 0 0x1C 0 with d := zCode z, mod := matMod false 0 false n1 false str }) ((at_1c_00 _ _).trans (by simp only [field_defs, field_reads, sFields, pmoveFields, pcompFields, memFields, atomFields, gathFields, rules] <;> rfl)) rfl
theorem mdiscard (str : BitVec 2) (z : ZNum) (n1 : BitVec 4) : Statement (.mdiscard str z n1) := by
  exact of_at 28 1 0 .none ({ fl 0 0x1C 1 with d := zCode z, mod := matMod false 0 false n1 false str }) ((at_1c_01 _ _).trans (by simp only [field_defs, field_reads, sFields, pmoveFields, pcompFields, memFields, atomFields, gathFields, rules] <;> rfl)) rfl
theorem specResolve (block : Nat) : Statement (.specResolve block) := nofun
theorem mcnt (str : BitVec 2) (ty : Ty) (c : Bank) (ma : MNum) (mb : MNum) (steps : BitVec 32) (set : BitVec 2) : Statement (.mcnt str ty c ma mb steps set) := by
  exact of_at 30 0 1 ty ( { fl 1 0x1E 0 with d := c.code, a := mCode ma, b := mCode mb, ty := ty.code, mod := matMod false set false 0 false str, x := imm32 steps }) ((at_1e_00 _ _).trans (by simp only [field_defs, field_reads, sFields, pmoveFields, pcompFields, memFields, atomFields, gathFields, rules] <;> rfl)) (Ty.ofCode_code ty)
theorem mmerge (str : BitVec 2) (c : Bank) : Statement (.mmerge str c) := by
  exact of_at 30 1 0 .none ({ fl 0 0x1E 1 with d := Bank.c2.code, a := c.code, mod := matMod false 0 false 0 false str }) ((at_1e_01 _ _).trans (by simp only [field_defs, field_reads, sFields, pmoveFields, pcompFields, memFields, atomFields, gathFields, rules] <;> rfl)) rfl
theorem governorWindow (core : Nat) : Statement (.governorWindow core) := nofun
theorem copyChunkPerformed (cmd : Nat) : Statement (.copyChunkPerformed cmd) := nofun
theorem commandComplete (cmd : Nat) : Statement (.commandComplete cmd) := nofun
theorem cpyq (d : SReg) (n : BitVec 8) : Statement (.cpyq d n) := by
  exact of_at 31 3 0 .none ({ fl 0 0x1F 3 with d := sCode d, b := n }) ((at_1f_03 _ _).trans (by simp only [field_defs, field_reads, sFields, pmoveFields, pcompFields, memFields, atomFields, gathFields, rules] <;> rfl)) rfl
theorem bar : Statement (.bar) := by
  exact of_at 32 0 0 .none (fl 0 0x20 0) ((at_20_00 _ _).trans (by simp only [field_defs, field_reads, sFields, pmoveFields, pcompFields, memFields, atomFields, gathFields, rules] <;> rfl)) rfl
theorem barrierCloseDone (block : Nat) : Statement (.barrierCloseDone block) := nofun
theorem barn (arv : Bool) (rcv : Option SReg) (n : BitVec 8) (count : BitVec 7) (dlv : Option SReg) : Statement (.barn arv rcv n count dlv) := by
  cases rcv with
  | none =>
    cases dlv with
    | none =>
      exact of_at 32 1 0 .none ( { fl 0 0x20 1 with d := optS (none : Option SReg), a := optS (none : Option SReg), b := n, mod := 0#2 ++ (BitVec.ofBool (none : Option SReg).isSome ++ (BitVec.ofBool (none : Option SReg).isSome ++ (BitVec.ofBool arv ++ count))) }) ((at_20_01 _ _).trans (by simp only [field_defs, field_reads, sFields, pmoveFields, pcompFields, memFields, atomFields, gathFields, rules] <;> rfl)) rfl
    | some xdlv =>
      exact of_at 32 1 0 .none ( { fl 0 0x20 1 with d := optS (none : Option SReg), a := optS (some xdlv), b := n, mod := 0#2 ++ (BitVec.ofBool (none : Option SReg).isSome ++ (BitVec.ofBool (some xdlv).isSome ++ (BitVec.ofBool arv ++ count))) }) ((at_20_01 _ _).trans (by simp only [field_defs, field_reads, sFields, pmoveFields, pcompFields, memFields, atomFields, gathFields, rules] <;> rfl)) rfl
  | some xrcv =>
    cases dlv with
    | none =>
      exact of_at 32 1 0 .none ( { fl 0 0x20 1 with d := optS (some xrcv), a := optS (none : Option SReg), b := n, mod := 0#2 ++ (BitVec.ofBool (some xrcv).isSome ++ (BitVec.ofBool (none : Option SReg).isSome ++ (BitVec.ofBool arv ++ count))) }) ((at_20_01 _ _).trans (by simp only [field_defs, field_reads, sFields, pmoveFields, pcompFields, memFields, atomFields, gathFields, rules] <;> rfl)) rfl
    | some xdlv =>
      exact of_at 32 1 0 .none ( { fl 0 0x20 1 with d := optS (some xrcv), a := optS (some xdlv), b := n, mod := 0#2 ++ (BitVec.ofBool (some xrcv).isSome ++ (BitVec.ofBool (some xdlv).isSome ++ (BitVec.ofBool arv ++ count))) }) ((at_20_01 _ _).trans (by simp only [field_defs, field_reads, sFields, pmoveFields, pcompFields, memFields, atomFields, gathFields, rules] <;> rfl)) rfl
theorem gbar (sc : Scope) (g : BitVec 8) (m : Option VNum) : Statement (.gbar sc g m) := by
  cases m with
  | none =>
    exact of_at 32 2 0 .none ( { fl 0 0x20 2 with b := g, mod := optV (none : Option VNum) ++ (BitVec.ofBool (none : Option VNum).isSome ++ (sc.code ++ 0#2)) }) ((at_20_02 _ _).trans (by simp only [field_defs, field_reads, sFields, pmoveFields, pcompFields, memFields, atomFields, gathFields, rules] <;> rfl)) rfl
  | some xm =>
    exact of_at 32 2 0 .none ( { fl 0 0x20 2 with b := g, mod := optV (some xm) ++ (BitVec.ofBool (some xm).isSome ++ (sc.code ++ 0#2)) }) ((at_20_02 _ _).trans (by simp only [field_defs, field_reads, sFields, pmoveFields, pcompFields, memFields, atomFields, gathFields, rules] <;> rfl)) rfl
theorem boinit (sc : Scope) (a : SReg) (v : BitVec 32) : Statement (.boinit sc a v) := by
  exact of_at 32 3 1 .none ({ fl 1 0x20 3 with a := sCode a, mod := ordMod .none sc, x := imm32 v }) ((at_20_03 _ _).trans (by simp only [field_defs, field_reads, sFields, pmoveFields, pcompFields, memFields, atomFields, gathFields, rules] <;> rfl)) rfl
theorem boarr (o : Ord) (sc : Scope) (a : SReg) (n : BitVec 8) : Statement (.boarr o sc a n) := by
  exact of_at 32 4 0 .none ({ fl 0 0x20 4 with a := sCode a, b := n, mod := ordMod o sc }) ((at_20_04 _ _).trans (by simp only [field_defs, field_reads, sFields, pmoveFields, pcompFields, memFields, atomFields, gathFields, rules] <;> rfl)) rfl
theorem bowait (o : Ord) (sc : Scope) (a : SReg) (b : SReg) (v : BitVec 32) : Statement (.bowait o sc a b v) := by
  exact of_at 32 5 1 .none ({ fl 1 0x20 5 with a := sCode a, b := sCode b, mod := ordMod o sc, x := imm32 v }) ((at_20_05 _ _).trans (by simp only [field_defs, field_reads, sFields, pmoveFields, pcompFields, memFields, atomFields, gathFields, rules] <;> rfl)) rfl
theorem countedArrival (ix : Nat) : Statement (.countedArrival ix) := nofun
theorem waiterPoll (ix : Nat) : Statement (.waiterPoll ix) := nofun
theorem xsend (scr : Bool) (d : SReg) (a : SReg) (b : SReg) (len : BitVec 32) : Statement (.xsend scr d a b len) := by
  exact of_at 33 0 1 .none ( { fl 1 0x21 0 with d := sCode d, a := sCode a, b := sCode b, mod := 0#2 ++ (BitVec.ofBool scr ++ 0#9), x := imm32 len }) ((at_21_00 _ _).trans (by simp only [field_defs, field_reads, sFields, pmoveFields, pcompFields, memFields, atomFields, gathFields, rules] <;> first | rfl | (cases scr <;> rfl))) rfl
theorem messageArrival (ix : Nat) : Statement (.messageArrival ix) := nofun
theorem sendStatusReturn (send : Nat) : Statement (.sendStatusReturn send) := nofun
theorem xpost (scr : Bool) (d : SReg) (a : SReg) (b : SReg) (tag : BitVec 32) : Statement (.xpost scr d a b tag) := by
  exact of_at 33 1 1 .none ( { fl 1 0x21 1 with d := sCode d, a := sCode a, b := sCode b, mod := 0#1 ++ (BitVec.ofBool scr ++ 0#10), x := imm32 tag }) ((at_21_01 _ _).trans (by simp only [field_defs, field_reads, sFields, pmoveFields, pcompFields, memFields, atomFields, gathFields, rules] <;> first | rfl | (cases scr <;> rfl))) rfl
theorem xprobe (wait : Bool) (d : SReg) (a : SReg) : Statement (.xprobe wait d a) := by
  exact of_at 33 2 0 .none ({ fl 0 0x21 2 with d := sCode d, a := sCode a, mod := 0#4 ++ (BitVec.ofBool wait ++ 0#7) }) ((at_21_02 _ _).trans (by simp only [field_defs, field_reads, sFields, pmoveFields, pcompFields, memFields, atomFields, gathFields, rules] <;> first | rfl | (cases wait <;> rfl))) rfl
theorem xcancel (d : SReg) (a : SReg) : Statement (.xcancel d a) := by
  exact of_at 33 3 0 .none ({ fl 0 0x21 3 with d := sCode d, a := sCode a }) ((at_21_03 _ _).trans (by simp only [field_defs, field_reads, sFields, pmoveFields, pcompFields, memFields, atomFields, gathFields, rules] <;> rfl)) rfl
theorem coll (o : Ord) (sc : Scope) (a : SReg) (b : SReg) (plan : BitVec 32) : Statement (.coll o sc a b plan) := by
  exact of_at 34 0 1 .none ({ fl 1 0x22 0 with a := sCode a, b := sCode b, mod := ordMod o sc, x := imm32 plan }) ((at_22_00 _ _).trans (by simp only [field_defs, field_reads, sFields, pmoveFields, pcompFields, memFields, atomFields, gathFields, rules] <;> rfl)) rfl
theorem contributionArrival (pk : Packet) : Statement (.contributionArrival pk) := nofun
theorem collChunkComplete (inst : Nat) (chunk : Nat) : Statement (.collChunkComplete inst chunk) := nofun
theorem collAbortReceived (inst : Nat) (chunk : Nat) : Statement (.collAbortReceived inst chunk) := nofun
theorem waitchunk (o : Ord) (sc : Scope) (a : SReg) (c : BitVec 32) : Statement (.waitchunk o sc a c) := by
  exact of_at 34 1 1 .none ({ fl 1 0x22 1 with a := sCode a, mod := ordMod o sc, x := imm32 c }) ((at_22_01 _ _).trans (by simp only [field_defs, field_reads, sFields, pmoveFields, pcompFields, memFields, atomFields, gathFields, rules] <;> rfl)) rfl
theorem launch (d : SReg) (a : SReg) (b : SReg) : Statement (.launch d a b) := by
  exact of_at 35 0 0 .none ({ fl 0 0x23 0 with d := sCode d, a := sCode a, b := sCode b }) ((at_23_00 _ _).trans (by simp only [field_defs, field_reads, sFields, pmoveFields, pcompFields, memFields, atomFields, gathFields, rules] <;> rfl)) rfl
theorem qpush (d : SReg) (a : SReg) (b : SReg) : Statement (.qpush d a b) := by
  exact of_at 35 1 0 .none ({ fl 0 0x23 1 with d := sCode d, a := sCode a, b := sCode b }) ((at_23_01 _ _).trans (by simp only [field_defs, field_reads, sFields, pmoveFields, pcompFields, memFields, atomFields, gathFields, rules] <;> rfl)) rfl
theorem qpop (d : SReg) (a : SReg) (b : SReg) : Statement (.qpop d a b) := by
  exact of_at 35 2 0 .none ({ fl 0 0x23 2 with d := sCode d, a := sCode a, b := sCode b }) ((at_23_02 _ _).trans (by simp only [field_defs, field_reads, sFields, pmoveFields, pcompFields, memFields, atomFields, gathFields, rules] <;> rfl)) rfl
theorem hostAppend (header : Nat) (staging : Nat) : Statement (.hostAppend header staging) := nofun
theorem fork (e : Engine) (d : SReg) (off : BitVec 32) : Statement (.fork e d off) := by
  exact of_at 36 0 1 .none ({ fl 1 0x24 0 with d := sCode d, mod := 0#10 ++ e.code, x := imm32 off }) ((at_24_00 _ _).trans (by simp only [field_defs, field_reads, sFields, pmoveFields, pcompFields, memFields, atomFields, gathFields, rules] <;> rfl)) rfl
theorem streamEnd (block : Nat) (e : Engine) (ix : Nat) : Statement (.streamEnd block e ix) := nofun
theorem rdv (a : SReg) : Statement (.rdv a) := by
  exact of_at 36 1 0 .none ({ fl 0 0x24 1 with a := sCode a }) ((at_24_01 _ _).trans (by simp only [field_defs, field_reads, sFields, pmoveFields, pcompFields, memFields, atomFields, gathFields, rules] <;> rfl)) rfl
theorem ctxkill (d : SReg) (a : SReg) : Statement (.ctxkill d a) := by
  exact of_at 37 0 0 .none ({ fl 0 0x25 0 with d := sCode d, a := sCode a }) ((at_25_00 _ _).trans (by simp only [field_defs, field_reads, sFields, pmoveFields, pcompFields, memFields, atomFields, gathFields, rules] <;> rfl)) rfl
theorem killApplied (slot : Nat) : Statement (.killApplied slot) := nofun
theorem ctxstart (d : SReg) (a : SReg) (b : SReg) : Statement (.ctxstart d a b) := by
  exact of_at 37 1 0 .none ({ fl 0 0x25 1 with d := sCode d, a := sCode a, b := sCode b }) ((at_25_01 _ _).trans (by simp only [field_defs, field_reads, sFields, pmoveFields, pcompFields, memFields, atomFields, gathFields, rules] <;> rfl)) rfl
theorem startAcknowledged (slot : Nat) : Statement (.startAcknowledged slot) := nofun
theorem peerAnnounceTimeout (slot : Nat) (node : Nat) : Statement (.peerAnnounceTimeout slot node) := nofun
theorem reclaim (d : SReg) (a : SReg) : Statement (.reclaim d a) := by
  exact of_at 37 2 0 .none ({ fl 0 0x25 2 with d := sCode d, a := sCode a }) ((at_25_02 _ _).trans (by simp only [field_defs, field_reads, sFields, pmoveFields, pcompFields, memFields, atomFields, gathFields, rules] <;> rfl)) rfl
theorem reclaimComplete (slot : Nat) : Statement (.reclaimComplete slot) := nofun
theorem patch (d : SReg) (a : SReg) : Statement (.patch d a) := by
  exact of_at 38 0 0 .none ({ fl 0 0x26 0 with d := sCode d, a := sCode a }) ((at_26_00 _ _).trans (by simp only [field_defs, field_reads, sFields, pmoveFields, pcompFields, memFields, atomFields, gathFields, rules] <;> rfl)) rfl
theorem peerRequest (pk : Packet) : Statement (.peerRequest pk) := nofun
theorem announcement (pk : Packet) : Statement (.announcement pk) := nofun
theorem killPacket (pk : Packet) : Statement (.killPacket pk) := nofun
theorem responseArrival (pk : Packet) : Statement (.responseArrival pk) := nofun
theorem ageExpiry (rid : Nat) : Statement (.ageExpiry rid) := nofun
theorem linkRequestTimeout (rid : Nat) : Statement (.linkRequestTimeout rid) := nofun
theorem flitReceive (port : Nat) (flit : List Byte) : Statement (.flitReceive port flit) := nofun
theorem flitReplay (port : Nat) : Statement (.flitReplay port) := nofun
theorem portEnable (port : Nat) : Statement (.portEnable port) := nofun
theorem trainingPass (port : Nat) (lanes : Nat) : Statement (.trainingPass port lanes) := nofun
theorem trainingTimeout (port : Nat) : Statement (.trainingTimeout port) := nofun
theorem replayRateExceeded (port : Nat) : Statement (.replayRateExceeded port) := nofun
theorem retrainDue (port : Nat) : Statement (.retrainDue port) := nofun
theorem laneFail (port : Nat) (lane : Nat) : Statement (.laneFail port lane) := nofun
theorem portDisable (port : Nat) : Statement (.portDisable port) := nofun
theorem packetTake : Statement (.packetTake) := nofun
theorem blockPlacement : Statement (.blockPlacement) := nofun
theorem compaction (core : Nat) : Statement (.compaction core) := nofun
theorem bind (core : Nat) (slot : Nat) : Statement (.bind core slot) := nofun
theorem activeSetEntry (core : Nat) (part : Nat) : Statement (.activeSetEntry core part) := nofun
theorem blockExit (block : Nat) : Statement (.blockExit block) := nofun
theorem gridComplete (grid : Nat) : Statement (.gridComplete grid) := nofun
theorem preemptRequest (core : Nat) : Statement (.preemptRequest core) := nofun
theorem watchdog (block : Nat) : Statement (.watchdog block) := nofun
theorem blockRelease (block : Nat) : Statement (.blockRelease block) := nofun
theorem pageWalk (ctx : Nat) (va : Nat) (write : Bool) (atomic : Bool) (fetch : Bool) : Statement (.pageWalk ctx va write atomic fetch) := nofun
theorem faultResult (stook : Nat) (slot : Nat) (resolved : Bool) : Statement (.faultResult stook slot resolved) := nofun
theorem faultForward (stook : Nat) (slot : Nat) : Statement (.faultForward stook slot) := nofun
theorem faultqWrite (v : BitVec 64) : Statement (.faultqWrite v) := nofun
theorem lazyTranslate (entry : Nat) : Statement (.lazyTranslate entry) := nofun
theorem translationComplete (entry : Nat) : Statement (.translationComplete entry) := nofun
theorem writeBack (core : Nat) (line : Nat) : Statement (.writeBack core line) := nofun
theorem verticalWriteLand (core : Nat) : Statement (.verticalWriteLand core) := nofun
theorem hostMemAccess (a : HostAccess) : Statement (.hostMemAccess a) := nofun
theorem hostSnoop (line : Nat) : Statement (.hostSnoop line) := nofun
theorem vaultReady (v : Nat) : Statement (.vaultReady v) := nofun
theorem reset : Statement (.reset) := nofun
theorem selfTestPass (c : UnitClass) (n : Nat) : Statement (.selfTestPass c n) := nofun
theorem selfTestFail (c : UnitClass) (n : Nat) : Statement (.selfTestFail c n) := nofun
theorem unitFallow (c : UnitClass) (n : Nat) : Statement (.unitFallow c n) := nofun
theorem tempReport (die : Nat) (t : Int) : Statement (.tempReport die t) := nofun
theorem thermalCapTimer (stook : Nat) : Statement (.thermalCapTimer stook) := nofun
theorem thermtrip : Statement (.thermtrip) := nofun
theorem perst : Statement (.perst) := nofun
theorem readReady (cls : Nat) (word : Nat) : Statement (.readReady cls word) := nofun
theorem readHealth : Statement (.readHealth) := nofun
theorem readTemp (die : Nat) : Statement (.readTemp die) := nofun
theorem powerCap (watts : Nat) : Statement (.powerCap watts) := nofun
theorem watchdogSet (slot : Nat) (ms : Nat) : Statement (.watchdogSet slot ms) := nofun
theorem spdm (msg : List Byte) : Statement (.spdm msg) := nofun
theorem microcodeUpdate (image : List Byte) : Statement (.microcodeUpdate image) := nofun
theorem securityVersionRaise (v : Nat) (signed : List Byte) : Statement (.securityVersionRaise v signed) := nofun
theorem matrixStep (block : Nat) (str : BitVec 2) : Statement (.matrixStep block str) := nofun
theorem longLatencyComplete (block : Nat) (wave : Nat) (slot : Nat) : Statement (.longLatencyComplete block wave slot) := nofun
theorem clearTrip : Statement (.clearTrip) := nofun

theorem nop (form : NopForm) : Statement (.nop form) := by
  cases form with
  | w64 => exact of_at 0 0 0 .none (fl 0 0 0) (at_00_00 _ _) rfl
  | w96 => exact of_at 0 0 1 .none (fl 1 0 0) (at_00_00 _ _) rfl
  | w128 sig =>
    exact of_at 0 0 2 .none { fl 2 0 0 with x := termX (some sig) 0 }
      ((at_00_00 _ _).trans (congrArg (fun x => some (Instr.nop (.w128 x))) (termX_sig sig 0))) rfl

theorem dictionaryWord (count : BitVec 2) (rsv : BitVec 12) (c0 c1 c2 : BitVec 16) :
    Statement (.dictionaryWord count rsv c0 c1 c2) := by
  intro _
  have hw : ∀ k len : Nat, k + len ≤ 64 → (0#64 ++ (c2 ++ (c1 ++ (c0 ++ (rsv ++ (count ++ 3#2))))) : InstrWord).extractLsb' k len =
      (c2 ++ (c1 ++ (c0 ++ (rsv ++ (count ++ 3#2))))).extractLsb' k len := fun k len h =>
    ext_in (m := 64) (n := 16 + (16 + (16 + (12 + (2 + 2))))) rfl rfl k len h
  have he : encode (.dictionaryWord count rsv c0 c1 c2) = (0#64 ++ (c2 ++ (c1 ++ (c0 ++ (rsv ++ (count ++ 3#2))))) : InstrWord) :=
    toWord_ofWord _
  have hl : (Fields.ofWord (0#64 ++ (c2 ++ (c1 ++ (c0 ++ (rsv ++ (count ++ 3#2))))) : InstrWord)).len = 3 :=
    (hw 0 2 (by decide)).trans (by simp (disch := decide) only [app_in, ext_all, - Nat.reduceAdd]; rfl)
  rw [decode, he, if_pos hl, dictOf, hw 2 2 (by decide), hw 4 12 (by decide), hw 16 16 (by decide), hw 32 16 (by decide), hw 48 16 (by decide)]
  simp (disch := decide) only [app_hi, app_in, ext_all, - Nat.reduceAdd, - Nat.reduceSub]

theorem reservedEncoding (major minor : BitVec 6) : Statement (.reservedEncoding major minor) := by
  intro hw
  have h : fieldsOf (.reservedEncoding major minor) = fl 0 major minor := rfl
  rw [decode, encode, h, ofWord_toWord, if_neg (show (fl 0 major minor).len ≠ 3 from (by decide : (0 : BitVec 2) ≠ 3))]; exact if_pos hw

theorem call (d : SReg) (w8 : BitVec 8) (tgt : CallTarget) (t : Term) : Statement (.call d w8 tgt t) := by
  cases tgt with
  | off v =>
    cases t with
    | none => exact of_at 2 0 1 .none { fl (termLen none 1) 2 0 with d := sCode d, b := w8, x := termX none v } ((at_02_00 _ _).trans (by simp only [field_defs, field_reads, sFields, pmoveFields, pcompFields, memFields, atomFields, gathFields, rules] <;> rfl)) rfl
    | some s => exact of_at 2 0 2 .none { fl (termLen (some s) 1) 2 0 with d := sCode d, b := w8, x := termX (some s) v } ((at_02_00 _ _).trans (by simp only [field_defs, field_reads, sFields, pmoveFields, pcompFields, memFields, atomFields, gathFields, rules] <;> rfl)) rfl
  | reg n =>
    cases t with
    | none => exact of_at 2 0 1 .none { fl (termLen none 1) 2 0 with d := sCode d, a := sCode n, b := w8, x := termX none 0 } ((at_02_00 _ _).trans (by simp only [field_defs, field_reads, sFields, pmoveFields, pcompFields, memFields, atomFields, gathFields, rules] <;> rfl)) rfl
    | some s => exact of_at 2 0 2 .none { fl (termLen (some s) 1) 2 0 with d := sCode d, a := sCode n, b := w8, x := termX (some s) 0 } ((at_02_00 _ _).trans (by simp only [field_defs, field_reads, sFields, pmoveFields, pcompFields, memFields, atomFields, gathFields, rules] <;> rfl)) rfl

theorem sread (d : SReadDst) (r : SysReg) (p : Pred) : Statement (.sread d r p) := by
  cases d with
  | sca n => exact of_at 3 8 0 .none { fl 0 3 8 with d := sCode n, k := p.k, neg := p.neg, mod := r.code } ((at_03_08 _ _).trans (by simp only [field_defs, field_reads, sFields, pmoveFields, pcompFields, memFields, atomFields, gathFields, rules] <;> rfl)) rfl
  | vec n => exact of_at 3 8 0 .none { fl 0 3 8 with d := vCode n, k := p.k, neg := p.neg, mod := r.code } ((at_03_08 _ _).trans (by simp only [field_defs, field_reads, sFields, pmoveFields, pcompFields, memFields, atomFields, gathFields, rules] <;> rfl)) rfl

theorem swrite (r : SysReg) (a : SReg) : Statement (.swrite r a) := by
  intro h
  have hr : r ≠ .bankmode ∧ r ≠ .colways ∧ r ≠ .versionbudget := by
    refine ⟨?_, ?_, ?_⟩ <;> (intro he; subst he; exact absurd h (by simp [Instr.wf]))
  refine of_at 3 9 0 .none { fl 0 3 9 with a := sCode a, mod := r.code } ((at_03_09 _ _).trans ?_) rfl (hF := rfl) (hM := rfl) (hm := rfl) (hl := rfl) (ok := by decide) (hne := by decide) h
  simp only [SysReg.ofCode_code, Option.map_some, Fields.as, sOf_sCode]
  cases r <;> first | rfl | exact absurd rfl hr.1 | exact absurd rfl hr.2.1 | exact absurd rfl hr.2.2

theorem pscan (o : PComp) (op : RedOp) (kseg : KNum) : Statement (.pscan o op kseg) := by
  have h1 : (pcompFields 6 o (0#3 ++ (kseg ++ op.code))).mod.extractLsb' 2 3 = op.code := by
    refine (ext_hi (m := 10) (n := 2) rfl rfl 2 3 (by decide)).trans ?_
    exact (ext_in (m := 3) (n := 4 + 3) rfl rfl 0 3 (by decide)).trans ((app_in _ _ 0 3 (by decide)).trans (ext_all _ _ rfl))
  have h2 : (pcompFields 6 o (0#3 ++ (kseg ++ op.code))).mod.extractLsb' 5 4 = kseg := by
    refine (ext_hi (m := 10) (n := 2) rfl rfl 5 4 (by decide)).trans ?_
    exact (ext_in (m := 3) (n := 4 + 3) rfl rfl 3 4 (by decide)).trans ((app_hi _ _ 3 4 (by decide)).trans (ext_all _ _ rfl))
  refine of_at 0x12 6 0 o.ty (pcompFields 6 o (0#3 ++ (kseg ++ op.code))) ((at_12_06 _ _).trans ?_) (Ty.ofCode_code _)
  rw [Fields.redop, h1, h2, RedOp.ofCode_code]
  simp only [field_defs, field_reads, sFields, pmoveFields, pcompFields, memFields, atomFields, gathFields, rules] <;> rfl

theorem maddr_rt (M m : BitVec 6) (p : Pred) (la : Look) (ty : Ty) (mo : MOrd) (d : BitVec 8) (ad : MAddr) :
    Fields.maddr (memFields M m p la ty mo d ad) = ad := by
  obtain ⟨b, ix, sc, disp⟩ := ad
  cases disp <;> simp only [field_defs, field_reads, sFields, pmoveFields, pcompFields, memFields, atomFields, gathFields, rules] <;> rfl
theorem dispLen_ne (d : Option (BitVec 32)) : dispLen d ≠ 3 := by
  cases d with
  | none => exact (by decide : (0 : BitVec 2) ≠ 3)
  | some v => exact (by decide : (1 : BitVec 2) ≠ 3)
theorem mord_rt (M m : BitVec 6) (p : Pred) (la : Look) (ty : Ty) (mo : MOrd) (d : BitVec 8) (ad : MAddr) :
    Fields.mord (memFields M m p la ty mo d ad) = mo := by simp only [field_defs, field_reads, sFields, pmoveFields, pcompFields, memFields, atomFields, gathFields, rules] <;> rfl

theorem ld (p : Pred) (la : Look) (ty : Ty) (mo : MOrd) (d : VNum) (ad : MAddr) : Statement (.ld p la ty mo d ad) := by
  refine of_at 0x15 0 (dispLen ad.disp) ty (memFields 0x15 0 p la ty mo (vCode d) ad) ((at_15_00 _ _).trans ?_) (Ty.ofCode_code _) (hne := dispLen_ne _)
  rw [maddr_rt, mord_rt]; simp only [field_defs, field_reads, sFields, pmoveFields, pcompFields, memFields, atomFields, gathFields, rules] <;> rfl
theorem st (p : Pred) (ty : Ty) (mo : MOrd) (ad : MAddr) (data : MData) : Statement (.st p ty mo ad data) := by
  refine of_at 0x15 1 (dispLen ad.disp) ty (memFields 0x15 1 p 0 ty mo data.code ad) ((at_15_01 _ _).trans ?_) (Ty.ofCode_code _) (hne := dispLen_ne _)
  rw [maddr_rt, mord_rt]; simp only [field_defs, field_reads, sFields, pmoveFields, pcompFields, memFields, atomFields, gathFields, rules] <;> rfl
theorem stCnt (p : Pred) (ty : Ty) (ord : Ord) (scope : Scope) (ad : MAddr) (data : MData) (c : SReg) :
    Statement (.stCnt p ty ord scope ad data c) := by
  refine of_wf fun h => of_at 0x15 1 2 ty { fl 2 0x15 1 with d := data.code, a := sCode ad.base, b := ad.idx.code, k := p.k, neg := p.neg, ty := ty.code, mod := memMod 0 true false ord scope ad.scale, x := 0#56 ++ sCode c } ((at_15_01 _ _).trans ?_) (Ty.ofCode_code _)
  obtain ⟨b, ix, sc, disp⟩ := ad
  have hd : disp = none := by
    simp only [Instr.wf, Bool.and_eq_true, decide_eq_true_eq] at h; exact h.1.1.2
  subst hd; simp only [field_defs, field_reads, sFields, pmoveFields, pcompFields, memFields, atomFields, gathFields, rules] <;> rfl
theorem ldc (la : Look) (ty : Ty) (mo : MOrd) (d : SReg) (ad : MAddr) : Statement (.ldc la ty mo d ad) := by
  refine of_at 0x15 2 (dispLen ad.disp) ty (memFields 0x15 2 Pred.none la ty mo (sCode d) ad) ((at_15_02 _ _).trans ?_) (Ty.ofCode_code _) (hne := dispLen_ne _)
  rw [maddr_rt, mord_rt]; simp only [field_defs, field_reads, sFields, pmoveFields, pcompFields, memFields, atomFields, gathFields, rules] <;> rfl
theorem pref (p : Pred) (ad : MAddr) : Statement (.pref p ad) := by
  refine of_at 0x15 3 (dispLen ad.disp) .none (memFields 0x15 3 p 0 .none ⟨.none, .blk, false⟩ 0 ad) ((at_15_03 _ _).trans ?_) rfl (hne := dispLen_ne _)
  rw [maddr_rt]; simp only [field_defs, field_reads, sFields, pmoveFields, pcompFields, memFields, atomFields, gathFields, rules] <;> rfl
theorem lds (p : Pred) (la : Look) (ty : Ty) (d : VNum) (ad : MAddr) : Statement (.lds p la ty d ad) := by
  refine of_at 0x16 0 (dispLen ad.disp) ty (memFields 0x16 0 p la ty ⟨.none, .blk, false⟩ (vCode d) ad) ((at_16_00 _ _).trans ?_) (Ty.ofCode_code _) (hne := dispLen_ne _)
  rw [maddr_rt]; simp only [field_defs, field_reads, sFields, pmoveFields, pcompFields, memFields, atomFields, gathFields, rules] <;> rfl
theorem sts (p : Pred) (ty : Ty) (ad : MAddr) (data : MData) : Statement (.sts p ty ad data) := by
  refine of_at 0x16 1 (dispLen ad.disp) ty (memFields 0x16 1 p 0 ty ⟨.none, .blk, false⟩ data.code ad) ((at_16_01 _ _).trans ?_) (Ty.ofCode_code _) (hne := dispLen_ne _)
  rw [maddr_rt]; simp only [field_defs, field_reads, sFields, pmoveFields, pcompFields, memFields, atomFields, gathFields, rules] <;> rfl

theorem aform_rt (m : BitVec 6) (p : Pred) (la : Look) (op : AtomOp) (ty : Ty) (o : Ord) (sc : Scope) (ad : MAddr) (f : AtomForm) :
    Fields.aform (atomFields m p la op ty o sc ad f) = f := by
  cases f with
  | noRet v => exact congrArg AtomForm.noRet (vOf_vCode v)
  | ret d c =>
    cases d with
    | none =>
      show AtomForm.ret (if (0x80 : BitVec 8).getLsbD 7 then none else some (vOf 0x80)) (vOf ((0#56 ++ vCode c : BitVec 64).extractLsb' 0 8)) = _
      rw [c_low, vOf_vCode]; rfl
    | some d =>
      show AtomForm.ret (if (vCode d).getLsbD 7 then none else some (vOf (vCode d))) (vOf ((0#56 ++ vCode c : BitVec 64).extractLsb' 0 8)) = _
      rw [vCode_top, c_low, vOf_vCode, vOf_vCode]; rfl
  | cas d kd c =>
    show AtomForm.cas (vOf (vCode d)) (kOf ((0#48 ++ (kCode kd ++ vCode c) : BitVec 64).extractLsb' 8 8))
      (vOf ((0#48 ++ (kCode kd ++ vCode c) : BitVec 64).extractLsb' 0 8)) = _
    rw [cc_low, cc_high, vOf_vCode, vOf_vCode, kOf_kCode]
theorem atom_mod (m : BitVec 6) (p : Pred) (la : Look) (op : AtomOp) (ty : Ty) (o : Ord) (sc : Scope) (ad : MAddr) (f : AtomForm) :
    atomFields m p la op ty o sc ad f = { atomFields m p la op ty o sc ad f with a := sCode ad.base, b := ad.idx.code, k := p.k, neg := p.neg, ty := ty.code, la := la, mod := memMod op.code false false o sc ad.scale, major := 0x18, minor := m } := by
  cases f with
  | noRet v => rfl
  | ret d c => cases d <;> rfl
  | cas d kd c => rfl
theorem atom_len (m : BitVec 6) (p : Pred) (la : Look) (op : AtomOp) (ty : Ty) (o : Ord) (sc : Scope) (ad : MAddr) (f : AtomForm) :
    (atomFields m p la op ty o sc ad f).len ≠ 3 := by
  cases f with
  | noRet v => exact (by decide : (0 : BitVec 2) ≠ 3)
  | ret d c => cases d <;> exact (by decide : (1 : BitVec 2) ≠ 3)
  | cas d kd c => exact (by decide : (2 : BitVec 2) ≠ 3)
theorem maddr0_rt (m : BitVec 6) (p : Pred) (la : Look) (op : AtomOp) (ty : Ty) (o : Ord) (sc : Scope) (ad : MAddr) (f : AtomForm)
    (hd : ad.disp = none) : Fields.maddr0 (atomFields m p la op ty o sc ad f) = ad := by
  rw [atom_mod]
  obtain ⟨b, ix, s2, disp⟩ := ad
  subst hd; simp only [field_defs, field_reads, sFields, pmoveFields, pcompFields, memFields, atomFields, gathFields, rules] <;> rfl

theorem atom (p : Pred) (la : Look) (op : AtomOp) (ty : Ty) (ord : Ord) (scope : Scope) (ad : MAddr) (form : AtomForm) :
    Statement (.atom p la op ty ord scope ad form) := by
  refine of_wf fun h => of_at 0x18 0 (atomFields 0 p la op ty ord scope ad form).len ty (atomFields 0 p la op ty ord scope ad form) ((at_18_00 _ _).trans ?_) (by rw [atom_mod]; exact Ty.ofCode_code _)
    (hM := by rw [atom_mod]; rfl) (hm := by rw [atom_mod]; rfl) (hne := atom_len _ _ _ _ _ _ _ _ _)
  have hd : ad.disp = none := by
    simp only [Instr.wf, Bool.and_eq_true, decide_eq_true_eq] at h; exact h.2
  rw [maddr0_rt _ _ _ _ _ _ _ _ _ hd, aform_rt, atom_mod]; simp only [field_defs, field_reads, sFields, pmoveFields, pcompFields, memFields, atomFields, gathFields, rules] <;> rfl
theorem atoms (p : Pred) (la : Look) (op : AtomOp) (ty : Ty) (ad : MAddr) (form : AtomForm) :
    Statement (.atoms p la op ty ad form) := by
  refine of_wf fun h => of_at 0x18 1 (atomFields 1 p la op ty .none .blk ad form).len ty (atomFields 1 p la op ty .none .blk ad form) ((at_18_01 _ _).trans ?_) (by rw [atom_mod]; exact Ty.ofCode_code _)
    (hM := by rw [atom_mod]; rfl) (hm := by rw [atom_mod]; rfl) (hne := atom_len _ _ _ _ _ _ _ _ _)
  have hd : ad.disp = none := by
    simp only [Instr.wf, Bool.and_eq_true, decide_eq_true_eq] at h; exact h.2
  rw [maddr0_rt _ _ _ _ _ _ _ _ _ hd, aform_rt, atom_mod]; simp only [field_defs, field_reads, sFields, pmoveFields, pcompFields, memFields, atomFields, gathFields, rules] <;> rfl

theorem mdrain (str : BitVec 2) (set : BitVec 2) (c : Bank) (tgt : DrainTarget) : Statement (.mdrain str set c tgt) := by
  cases tgt with
  | tile z => exact of_at 0x1E 2 1 .none { fl 1 0x1E 2 with d := zCode z, a := c.code, mod := matMod false set false 0 false str } ((at_1e_02 _ _).trans (by simp only [field_defs, field_reads, sFields, pmoveFields, pcompFields, memFields, atomFields, gathFields, rules] <;> rfl)) rfl
  | scratch b v => exact of_at 0x1E 2 1 .none { fl 1 0x1E 2 with d := sCode b, a := c.code, mod := matMod true set false 0 false str, x := imm32 v } ((at_1e_02 _ _).trans (by simp only [field_defs, field_reads, sFields, pmoveFields, pcompFields, memFields, atomFields, gathFields, rules] <;> rfl)) rfl
theorem cpy (f : CmdFlags) (form : CpyForm) : Statement (.cpy f form) := by
  cases form with
  | linear d a len => exact of_at 0x1F 0 1 .none { fl 1 0x1F 0 with d := sCode d, a := sCode a, mod := cmdMod f false false, x := imm32 len } ((at_1f_00 _ _).trans (by simp only [field_defs, field_reads, sFields, pmoveFields, pcompFields, memFields, atomFields, gathFields, rules] <;> rfl)) rfl
  | tensor d a c tr => exact of_at 0x1F 0 2 .none { fl 2 0x1F 0 with d := sCode d, a := sCode a, mod := cmdMod f false tr, x := 0#56 ++ sCode c } ((at_1f_00 _ _).trans (by simp only [field_defs, field_reads, sFields, pmoveFields, pcompFields, memFields, atomFields, gathFields, rules] <;> rfl)) rfl
theorem gath (o : Gather) : Statement (.gath o) :=
  of_at 0x1F 1 2 o.ty (gathFields 1 o) ((at_1f_01 _ _).trans (by simp only [field_defs, field_reads, sFields, pmoveFields, pcompFields, memFields, atomFields, gathFields, rules] <;> rfl)) (Ty.ofCode_code _)
theorem scat (o : Gather) : Statement (.scat o) :=
  of_at 0x1F 2 2 o.ty (gathFields 2 o) ((at_1f_02 _ _).trans (by simp only [field_defs, field_reads, sFields, pmoveFields, pcompFields, memFields, atomFields, gathFields, rules] <;> rfl)) (Ty.ofCode_code _)

end

end Sys2Proof.Laws.RoundTrip
end

