-- ==== Sys2Proof/Laws/Shown.lean ====
section
/-! SUPPORT. How a concrete state is shown to meet the premises of a statement: each premise that is not decidable as it stands
follows from a check that the kernel evaluates. The tests cite these lemmas; no statement does. -/

namespace Sys2Proof.Tests

open Sys2Proof Sys2Proof.Machine

section
set_option Elab.async false

/-- A decidable premise, evaluated. -/
theorem d {p : Prop} [Decidable p] (h : decide p = true := by decide +kernel) : p := of_decide_eq_true h

/-! ### Slots, blocks, streams -/

/-- A slot of a state, or one of a fresh block where there is none. -/
def vwOf (s : State) (b w k : Nat) : View := (s.view b w k).getD ⟨0, fetchBlk 0, 0, freshWave 0 0 0 0 0 [] [], 0, Slot.off⟩

/-- The issuing slot of a state. -/
def vw (s : State) : View :=
  match s.cur with
  | .slot b w k => vwOf s b w k
  | .stream _ _ _ => vwOf s 0 0 0

/-- A block of a state. -/
def bk (s : State) (b : Nat) : Block := (s.blk b).getD (fetchBlk 0)

def slotB (s : State) : Bool :=
  match s.cur with
  | .slot b w k => (s.view b w k).isSome
  | .stream _ _ _ => false

def streamB (s : State) : Bool :=
  match s.cur with
  | .slot _ _ _ => false
  | .stream b e ix => ((s.blk b).bind fun y => y.stream e ix).isSome

theorem someGetD {α : Type} {o : Option α} {x : α} (h : o.isSome = true) : o = some (o.getD x) := by
  cases o with
  | none => cases h
  | some y => rfl

theorem view_ids {s : State} {b w k : Nat} {v : View} (h : s.view b w k = some v) : v.bid = b ∧ v.wid = w ∧ v.k = k := by
  unfold State.view at h
  cases hb : s.blk b with
  | none => rw [hb] at h; cases h
  | some y =>
    rw [hb] at h
    cases hw : tget y.waves w with
    | none => simp [hw] at h
    | some z => simp [hw] at h; subst h; exact ⟨rfl, rfl, rfl⟩

theorem viewed {s : State} {b w k : Nat} (h : (s.view b w k).isSome = true := by decide +kernel) : s.view b w k = some (vwOf s b w k) :=
  someGetD h

theorem viewedAs {s : State} {b w k x y z : Nat}
    (h : (x = b ∧ y = w ∧ z = k) ∧ (s.view b w k).isSome = true := by decide +kernel) : s.view x y z = some (vwOf s b w k) := by
  obtain ⟨⟨rfl, rfl, rfl⟩, h⟩ := h
  exact viewed h

theorem slotted {s : State} (h : slotB s = true := by decide +kernel) : s.Slotted (vw s) := by
  unfold slotB at h
  unfold vw
  cases hc : s.cur with
  | stream b e ix => rw [hc] at h; cases h
  | slot b w k =>
    rw [hc] at h
    have e := viewed h
    obtain ⟨h1, h2, h3⟩ := view_ids e
    exact ⟨by show s.cur = _; rw [h1, h2, h3]; exact hc, viewedAs ⟨⟨h1, h2, h3⟩, h⟩⟩

/-- What holds of the issuing slot holds of every view of it. -/
theorem onlySlot {s : State} {P : View → Prop} (p : P (vw s)) (h : slotB s = true := by decide +kernel) : ∀ v, s.Slotted v → P v := fun v hv => by
  have q := slotted h
  have e := hv.cur.symm.trans q.cur
  injection e with a b c
  have w := hv.view
  rw [a, b, c, q.view] at w
  injection w with w
  exact w ▸ p

theorem slotView {s : State} (h : slotB s = true := by decide +kernel) : s.view (vw s).bid (vw s).wid (vw s).k = some (vw s) :=
  (slotted h).view

theorem slotCur {s : State} (h : slotB s = true := by decide +kernel) : s.cur = .slot (vw s).bid (vw s).wid (vw s).k :=
  (slotted h).cur

theorem blkd {s : State} {b : Nat} (h : (s.blk b).isSome = true := by decide +kernel) : s.blk b = some (bk s b) := someGetD h

theorem issuer {s : State} (h : (slotB s || streamB s) = true := by decide +kernel) : s.HasIssuer := by
  unfold streamB at h
  cases hs : slotB s with
  | true => exact .inl ⟨_, slotted hs⟩
  | false =>
    rw [hs, Bool.false_or] at h
    cases hc : s.cur with
    | slot b w k => rw [hc] at h; cases h
    | stream b e ix =>
      rw [hc] at h
      obtain ⟨x, hx⟩ := Option.isSome_iff_exists.mp h
      exact .inr ⟨b, e, ix, x, hc, hx⟩

def roomB (s : State) (n : Nat) : Bool :=
  match s.cur with
  | .slot b _ _ => (match s.blk b with
    | some x => x.isOpen || decide (s.snapUsed (coreOf b) + n ≤ 0x200000)
    | none => true)
  | .stream _ _ _ => true

theorem room {s : State} {n : Nat} (h : roomB s n = true := by decide +kernel) : s.Room n := by
  intro b w k x hc hx
  simpa [roomB, hc, hx] using h

theorem inWin {v : View} {l : List Nat} (h : (l.all fun n => decide (n < v.w.win)) = true := by decide +kernel) : v.InWindow l := by
  intro n hn
  simpa using List.all_eq_true.mp h n hn

def sigB (s : State) (t : Term) : Bool :=
  match s.cur, t with
  | .slot b w k, some sig => (match s.view b w k with
    | some v => decide ((v.sl.sigAfter s.ir none).extractLsb' 0 24 = sig)
    | none => true)
  | _, _ => true

theorem sig {s : State} {t : Term} (h : sigB s t = true := by decide +kernel) : s.SigHolds t := by
  intro b w k v x hc hv ht
  simpa [sigB, hc, hv, ht] using h

theorem calm {v : View} (h : (v.sl.flights = [] ∧ v.sl.held = []) ∧ v.sl.answers = [] := by decide +kernel) : v.Calm := ⟨h.1.1, h.1.2, h.2⟩

theorem handles {v : View} (h : v.sl.inHandler = false ∧ v.b.kern.handler ≠ 0 := by decide +kernel) : v.Handles := h

theorem alone {v : View} (h : v.k = 0 ∧ v.w.split = false ∧ v.w.s1.live = false := by decide +kernel) : v.Alone := h

theorem bare {s : State} {c : Nat} (h : ((s.core c).hasCache = false ∧ (s.core c).cache = []) ∧ (s.core c).wq = [] := by decide +kernel) :
    s.Bare c := ⟨h.1.1, h.1.2, h.2⟩

theorem empty {s : State} {c : Nat} (h : (s.core c).cache = [] ∧ (s.core c).wq = [] := by decide +kernel) : s.Empty c := ⟨h.1, h.2⟩

theorem direct {s : State} {v : View} (hb : s.Bare (coreOf v.bid))
    (h : (v.b.isOpen = true ∧ v.b.vers = [] ∧ v.b.vclean = [] ∧ v.b.versLines = []) ∧ (twf s.blocks = true ∧ twf s.cores = true)
      ∧ s.writesOut s.cur = false ∧ s.countsOut s.cur = false := by decide +kernel) :
    s.Direct v := ⟨hb, h.1.1, h.1.2.1, h.1.2.2.1, h.1.2.2.2, h.2.1, h.2.2.1, h.2.2.2⟩

theorem clean {s : State} {c : Nat} (h : ((s.core c).bad = [] ∧ (s.core c).soft = []) ∧ (s.core c).storeBad = [] ∧ (s.core c).columnBad = [] := by
    decide +kernel) : s.Clean c := ⟨h.1, h.2⟩

theorem directIn {s : State} {b : Nat} (hb : s.Bare (coreOf b)) (he : (s.blk b).isSome = true := by decide +kernel)
    (h : (s.cur.block = b ∧ (bk s b).isOpen = true ∧ (bk s b).vers = [] ∧ (bk s b).vclean = [] ∧ (bk s b).versLines = [])
      ∧ (twf s.blocks = true ∧ twf s.cores = true) ∧ s.writesOut s.cur = false ∧ s.countsOut s.cur = false := by decide +kernel) :
    s.DirectIn b (bk s b) := ⟨blkd he, h.1.1, hb, h.1.2.1, h.1.2.2.1, h.1.2.2.2.1, h.1.2.2.2.2, h.2.1, h.2.2.1, h.2.2.2⟩

theorem listAll {α : Type} {l : List α} {P : α → Prop} [∀ x, Decidable (P x)]
    (h : (l.all fun x => decide (P x)) = true := by decide +kernel) : ∀ x, x ∈ l → P x := fun x hx => by
  simpa using List.all_eq_true.mp h x hx

theorem noneIn {α : Type} {l : List α} {P : α → Prop} (h : l.isEmpty = true := by decide +kernel) : ∀ x, x ∈ l → P x := fun x hx => by
  rw [List.isEmpty_iff.mp h] at hx; cases hx

def cursB (s : State) (P : Nat → Engine → Nat → Bool) : Bool :=
  match s.cur with
  | .slot _ _ _ => true
  | .stream b e ix => P b e ix

/-- What is asked of the issuer where it is a stream. -/
theorem curs {s : State} {P : Nat → Engine → Nat → Prop} [∀ b e ix, Decidable (P b e ix)]
    (h : (cursB s fun b e ix => decide (P b e ix)) = true := by decide +kernel) : ∀ b e ix, s.cur = .stream b e ix → P b e ix :=
  fun b e ix hc => by simpa [cursB, hc] using h

theorem below {n : Nat} {P : Nat → Nat → Prop} [∀ k i, Decidable (P k i)]
    (h : ∀ i, i < n → ∀ k, k < i → P k i := by decide +kernel) : ∀ k i, k < i → i < n → P k i := fun k i hk hi => h i hi k hk

def curKB (s : State) : Bool :=
  match s.cur with
  | .slot _ _ k => decide (k < 2)
  | .stream _ _ _ => true

theorem curK {s : State} (h : curKB s = true := by decide +kernel) : ∀ c i k, s.cur = .slot c i k → k < 2 :=
  fun c i k hc => by simpa [curKB, hc] using h

/-- The lanes of a vote that names its lanes in a register. -/
theorem sameMask {m : Word32} {k : VNum} {x : Word32} {f : VNum → Nat → Word32}
    (h : ∀ l, l < 32 → m.getLsbD l = true → f k l = x := by decide +kernel) :
    ∀ l n, l < 32 → m.getLsbD l = true → some k = some n → f n l = x := fun l n hl hm e => by cases e; exact h l hl hm

def predictB (s : State) (i : Instr) : Bool :=
  match s.cur, i with
  | .stream _ .mat _, .bru _ _ a b _ _ _ => decide (a ∈ s.pendingRegs ∨ b ∈ s.pendingRegs)
  | .stream _ .mat _, .loop d _ _ _ => decide (d ∈ s.pendingRegs)
  | _, _ => false

theorem noPredict {s : State} {i : Instr} (h : predictB s i = false := by decide +kernel) : ¬ s.Predicts i := by
  intro hp
  unfold State.Predicts at hp
  split at hp
  · rename_i hc
    unfold predictB at h
    rw [hc] at h
    simp only [decide_eq_false_iff_not] at h
    exact h hp
  · rename_i hc
    unfold predictB at h
    rw [hc] at h
    simp only [decide_eq_false_iff_not] at h
    exact h hp
  · exact hp

def joinB : SlotStatus → Bool
  | .join _ => true
  | _ => false

theorem notJoin {x : SlotStatus} (h : joinB x = false := by decide +kernel) : ∀ y, x ≠ .join y := fun y e => by subst e; cases h

theorem quiet {v : View} {r : FloatRule}
    (h : ∀ l, l < 32 → (effMask v r.p).getLsbD l = true → (r.f l).2.meets v.b.kern.fpxen = false := by decide +kernel) : v.Quiet r := h

theorem two {a b : Nat} {P : Nat → Nat → Prop} [∀ l i, Decidable (P l i)]
    (h : ∀ l, l < a → ∀ i, i < b → P l i := by decide +kernel) : ∀ l i, l < a → i < b → P l i := fun l i hl hi => h l hl i hi

/-! ### Tables -/

theorem tgets {α : Type} {t : Tbl α} {P : Nat → α → Prop} [∀ n x, Decidable (P n x)]
    (h : (t.all fun e => decide (P e.1 e.2)) = true := by decide +kernel) : ∀ n x, tget t n = some x → P n x := fun n x e => by
  simpa using List.all_eq_true.mp h (n, x) (mem_of_tget e)

theorem tgets2 {α : Type} {t : Tbl α} {P : Nat → Nat → α → α → Prop} [∀ n m x y, Decidable (P n m x y)]
    (h : (t.all fun e => t.all fun f => decide (P e.1 f.1 e.2 f.2)) = true := by decide +kernel) :
    ∀ n m x y, tget t n = some x → tget t m = some y → P n m x y := fun n m x y e f => by
  simpa using List.all_eq_true.mp (List.all_eq_true.mp h (n, x) (mem_of_tget e)) (m, y) (mem_of_tget f)

/-- The slots of the waves. -/
theorem tslots {t : Tbl Wave} {P : SlotStatus → Prop} [∀ x, Decidable (P x)]
    (h : (t.all fun e => decide (P e.2.s0.status) && decide (P e.2.s1.status)) = true := by decide +kernel) :
    ∀ w y k, tget t w = some y → P (y.slot k).status := fun w y k e => by
  have q := List.all_eq_true.mp h (w, y) (mem_of_tget e)
  simp only [Bool.and_eq_true, decide_eq_true_eq] at q
  unfold Wave.slot
  split
  · exact q.1
  · exact q.2

/-- Waves that wait with a plane's operands, and waves that do not (R195). -/
theorem planesAre {t : Tbl Wave} {gy wid : Nat}
    (h : (t.all fun e => decide ((e.1 < gy ∧ e.1 ≠ wid ∧ e.2.plane.isSome = true) ∨ e.2.plane = none)) = true := by decide +kernel) :
    ∀ w y, tget t w = some y → (w < gy ∧ w ≠ wid ∧ ∃ q, y.plane = some q) ∨ y.plane = none := fun w y e => by
  rcases of_decide_eq_true (List.all_eq_true.mp h (w, y) (mem_of_tget e)) with ⟨a, b, c⟩ | c
  · exact .inl ⟨a, b, Option.isSome_iff_exists.mp c⟩
  · exact .inr c

/-- The one other wave of two. -/
theorem otherWave {gy wid : Nat} {P : Nat → Prop} (p : P 1) (h : gy = 2 ∧ wid = 0 := by decide +kernel) :
    ∀ w, w < gy → w ≠ wid → P w := fun w h1 h2 => by
  obtain rfl : w = 1 := by omega
  exact p

theorem cget_mem {α : Type} {t : Tbl α} {n : Nat} {x : α} {P : α → Prop} (hd : P x) (h : ∀ e, e ∈ t → P e.2) : P (cget x t n) := by
  unfold cget
  cases e : tget t n with
  | none => exact hd
  | some y => exact h _ (mem_of_tget e)

theorem countsOk {m : Mat}
    (h : (m.bank.all fun e => twf e.2 && e.2.all fun f => twf f.2 && f.2.all fun g => decide (g.1 < 64)) = true := by decide +kernel) :
    m.CountsOk := by
  intro k
  have q := List.all_eq_true.mp h
  refine cget_mem (P := fun t => twf t = true ∧ ∀ n, twf (cget [] t n) = true ∧ ∀ e, e ∈ cget [] t n → e.1 < 64) ?_ ?_
  · exact ⟨rfl, fun n => ⟨rfl, fun e he => nomatch he⟩⟩
  · intro e he
    have r := q e he
    simp only [Bool.and_eq_true, List.all_eq_true] at r
    refine ⟨r.1, fun n => cget_mem (P := fun t => twf t = true ∧ ∀ e, e ∈ t → e.1 < 64) ⟨rfl, fun e he => nomatch he⟩ ?_⟩
    intro f hf
    exact ⟨(r.2 f hf).1, fun g hg => of_decide_eq_true ((r.2 f hf).2 g hg)⟩

/-! ### Memory of the firmware's context -/

/-- A virtual address of context slot 0 is the physical one (R317). -/
theorem translate_phys {s : State} {c va cell : Nat} {t : Tag} {nd : Need}
    (h : (t.slot = 0 ∧ va < 0x200000000000000) ∧ cellOf va = some cell) : s.translate c t va nd = (s, .ok (.dram va cell)) := by
  unfold State.translate
  rw [if_neg (by omega), if_pos h.1.1, h.2]

def locateB (s : State) (b va cell : Nat) : Bool :=
  match s.blk b with
  | some x => decide (x.tag.slot = 0) && decide (va < 0x200000000000000) && !inWindow va && decide (cellOf va = some cell)
  | none => false

theorem located {s : State} {b va cell : Nat} {nd : Need} (h : locateB s b va cell = true) :
    s.locate b va nd = (s, .ok (.dram va cell)) := by
  unfold locateB at h
  unfold State.locate
  cases hb : s.blk b with
  | none => rw [hb] at h; cases h
  | some x =>
    rw [hb] at h
    simp only [Bool.and_eq_true, decide_eq_true_eq, Bool.not_eq_true'] at h
    simp only [h.1.2, Bool.false_eq_true, if_false]
    exact translate_phys ⟨h.1.1, h.2⟩

def landsB (s : State) (b va pa cell n : Nat) : Bool :=
  decide (pa = va) && (List.range n).all fun i => locateB s b (va + i) (cell + i) && !s.parks (va + i) (cell + i)
    && !s.poisoned (cell + i) 1 && !s.vaultBad.contains ((cell + i) / 64)

theorem lands {s : State} {b va pa cell n : Nat} {nd : Need} (h : landsB s b va pa cell n = true := by decide +kernel) :
    s.Lands b va nd pa cell n := by
  simp only [landsB, Bool.and_eq_true, decide_eq_true_eq] at h
  obtain ⟨rfl, h⟩ := h
  have q : ∀ i, i < n → ((locateB s b (pa + i) (cell + i) = true ∧ s.parks (pa + i) (cell + i) = false)
      ∧ s.poisoned (cell + i) 1 = false) ∧ (cell + i) / 64 ∉ s.vaultBad := fun i hi => by
    simpa using List.all_eq_true.mp h i (List.mem_range.mpr hi)
  exact ⟨fun i hi => located (q i hi).1.1.1, fun i hi => (q i hi).1.1.2, fun i hi => (q i hi).1.2, fun i hi => (q i hi).2⟩

/-- The lanes of a mask. -/
theorem landsAll {s : State} {b n : Nat} {nd : Need} {m : Word32} {va pa cell : Nat → Nat}
    (h : ∀ l, l < 32 → m.getLsbD l = true → landsB s b (va l) (pa l) (cell l) n = true := by decide +kernel) :
    ∀ l, l < 32 → m.getLsbD l = true → s.Lands b (va l) nd (pa l) (cell l) n := fun l hl hm => lands (h l hl hm)

theorem landsAligned {s : State} {b n k : Nat} {nd : Need} {m : Word32} {va pa cell : Nat → Nat}
    (h : ∀ l, l < 32 → m.getLsbD l = true → va l % k = 0 ∧ landsB s b (va l) (pa l) (cell l) n = true := by decide +kernel) :
    ∀ l, l < 32 → m.getLsbD l = true → va l % k = 0 ∧ s.Lands b (va l) nd (pa l) (cell l) n :=
  fun l hl hm => ⟨(h l hl hm).1, lands (h l hl hm).2⟩

theorem landsReqs {s : State} {b n : Nat} {nd : Need} {l : List LaneReq} {pa cell : Nat → Nat}
    (h : ∀ q, q ∈ l → q.lane < 32 ∧ landsB s b q.addr (pa q.lane) (cell q.lane) n = true := by decide +kernel) :
    ∀ q, q ∈ l → q.lane < 32 ∧ s.Lands b q.addr nd (pa q.lane) (cell q.lane) n := fun q hq => ⟨(h q hq).1, lands (h q hq).2⟩

/-- The elements of a gather and of a scatter from one position up to another. -/
theorem landsGath {s : State} {b lo n z : Nat} {nd : Need} {P : Nat → Prop} [∀ j, Decidable (P j)] {va pa cell : Nat → Nat}
    (h : ∀ j, j < n → lo ≤ j → P j ∧ landsB s b (va j) (pa j) (cell j) z = true := by decide +kernel) :
    ∀ j, lo ≤ j → j < n → P j ∧ s.Lands b (va j) nd (pa j) (cell j) z := fun j h1 h2 => ⟨(h j h2 h1).1, lands (h j h2 h1).2⟩

theorem landsScat {s : State} {b lo n z : Nat} {nd : Need} {P Q R : Nat → Prop} [∀ j, Decidable (P j)] [∀ j, Decidable (Q j)]
    [∀ j, Decidable (R j)] {va pa cell : Nat → Nat}
    (h : ∀ j, j < n → lo ≤ j → (P j ∧ Q j ∧ R j) ∧ landsB s b (va j) (pa j) (cell j) z = true := by decide +kernel) :
    ∀ j, lo ≤ j → j < n → P j ∧ Q j ∧ R j ∧ s.Lands b (va j) nd (pa j) (cell j) z :=
  fun j h1 h2 => ⟨(h j h2 h1).1.1, (h j h2 h1).1.2.1, (h j h2 h1).1.2.2, lands (h j h2 h1).2⟩

/-- A command's destination is free of the ranges that commands hold. -/
theorem cmdFree {o : Option (Nat × Nat)} {l : List SbEntry}
    (h : (o.all fun p => l.all fun e => !e.dst || decide (p.1 + p.2 ≤ e.lo ∨ e.lo + e.len ≤ p.1)) = true := by decide +kernel) :
    ∀ lo n, o = some (lo, n) → ∀ e, e ∈ l → e.dst = true → lo + n ≤ e.lo ∨ e.lo + e.len ≤ lo := fun lo n ho e he hd => by
  subst ho
  simpa [hd] using List.all_eq_true.mp h e he

def objB (s : State) (b va cell : Nat) : Bool :=
  decide (va % 64 = 0) && locateB s b va cell && !s.parks va cell && decide (cell < 2 ^ 48) && !s.poisoned cell 64
    && (List.range 64).all fun i => !s.vaultBad.contains ((cell + i) / 64) && (decide (24 ≤ i) || !s.onAppend (cell + i))

theorem objAt {s : State} {b va cell : Nat} {nd : Need} (h : objB s b va cell = true := by decide +kernel) :
    s.ObjAt b va nd ⟨cell, none, homeSlice va⟩ := by
  simp only [objB, Bool.and_eq_true, decide_eq_true_eq, Bool.not_eq_true'] at h
  obtain ⟨h, q⟩ := h
  have q : ∀ i, i < 64 → (cell + i) / 64 ∉ s.vaultBad ∧ (24 ≤ i ∨ s.onAppend (cell + i) = false) := fun i hi => by
    simpa using List.all_eq_true.mp q i (List.mem_range.mpr hi)
  refine ⟨?_, rfl, h.1.2, h.2, fun i hi => (q i hi).1, fun i hi => (q i (by omega)).2.resolve_left (by omega)⟩
  unfold State.findObj
  rw [if_neg (by omega), located h.1.1.1.2]
  simp only [objOf, h.1.1.2, Bool.false_eq_true, if_false]

def memB (m : MemRes) (s : State) (d : List Byte) : Bool :=
  match m with
  | .ok u e => decide (u = s) && decide (e = d)
  | _ => false

theorem memOk {m : MemRes} {s : State} {d : List Byte} (h : memB m s d = true := by decide +kernel) : m = .ok s d := by
  unfold memB at h
  split at h
  · simp only [Bool.and_eq_true, decide_eq_true_eq] at h; rw [h.1, h.2]
  · cases h

/-! ### Messages -/

theorem msgReady {s : State} {b : Nat} {r : SReg} (h1 : (slotB s || streamB s) = true := by decide +kernel)
    (h2 : (cursB s fun _ e _ => decide (e = .msg)) = true := by decide +kernel)
    (h3 : ((s.core (coreOf b)).hasCache = false ∧ (s.core (coreOf b)).cache = []) ∧ (s.core (coreOf b)).wq = [] := by decide +kernel)
    (h4 : (s.blk b).isSome = true := by decide +kernel)
    (h5 : (s.cur.block = b ∧ (bk s b).isOpen = true ∧ (bk s b).vers = [] ∧ (bk s b).vclean = [] ∧ (bk s b).versLines = [])
      ∧ (twf s.blocks = true ∧ twf s.cores = true) ∧ s.writesOut s.cur = false ∧ s.countsOut s.cur = false := by decide +kernel)
    (h6 : s.scalarOver r = false := by decide +kernel) : s.MsgReady b (bk s b) r :=
  ⟨issuer h1, curs h2, directIn (bare h3) h4 h5, h6⟩

theorem handle {s : State} {x : Word64} {c ix key : Nat} {p : Post} {t : Tag}
    (h : (tget (s.core c).posts key = some p ∧ p.tag = t) ∧ (ix < 64 ∧ c < 512 ∧ p.gen < 256)
      ∧ x.toNat = ix + p.gen * 2 ^ 8 + c * 2 ^ 32 := by decide +kernel)
    (h2 : key = ix ∨ (key = 64 + ix + 64 * p.gen
      ∧ ((tget (s.core c).posts ix).all fun q => !(decide (q.gen = p.gen) && decide (q.tag = t))) = true) := by decide +kernel) :
    s.Handle x c ix key p t :=
  ⟨h.1.1, h2.imp id fun ⟨a, b⟩ => ⟨a, fun q e => by rw [e] at b; simpa [Decidable.imp_iff_not_or] using b⟩, h.1.2, h.2.1, h.2.2⟩

/-- A number with a bit set that no handle has names no receive (R243). -/
theorem noHandle {s : State} {x : Word64} {t : Tag} (h : 512 * 2 ^ 32 ≤ x.toNat := by decide +kernel) :
    ∀ c ix key p, ¬ s.Handle x c ix key p t := by
  rintro c ix key p ⟨-, -, -, ⟨h1, h2, h3⟩, e⟩
  omega

/-- No earlier message goes from the same core to the same core. -/
theorem firstMsg {s : State} {n : Nat} {m : Msg}
    (h : ((s.msgs.take n).all fun e => !(decide (e.srcNode = m.srcNode) && decide (e.srcCore = m.srcCore) && decide (e.dest = m.dest))) = true := by
      decide +kernel) :
    ∀ i e, i < n → s.msgs[i]? = some e → ¬ (e.srcNode = m.srcNode ∧ e.srcCore = m.srcCore ∧ e.dest = m.dest) := fun i e hi he => by
  have q := List.all_eq_true.mp h e (List.mem_iff_getElem?.mpr ⟨i, by rw [List.getElem?_take, if_pos hi]; exact he⟩)
  simpa [Decidable.imp_iff_not_or, or_assoc] using q

theorem arrived {s : State} {n : Nat} {m : Msg} {x : Send}
    (h : ((s.msgs[n]? = some m ∧ m.srcNode = s.nodeId) ∧ m.job = 0 ∧ m.dest < 512 ∧ s.unitFallow .core m.dest = false)
      ∧ (s.tagLive m.tag = true ∧ tget s.sends m.send = some x) ∧ m.data.length ≤ 64 := by decide +kernel)
    (h2 : ((s.msgs.take n).all fun e => !(decide (e.srcNode = m.srcNode) && decide (e.srcCore = m.srcCore) && decide (e.dest = m.dest))) = true := by
      decide +kernel) : s.Arrived n m x :=
  ⟨h.1.1.1, firstMsg h2, h.1.2.2, h.1.1.2, h.1.2.1, h.2.1.1, h.2.1.2, h.2.2⟩

def fitsB (p : Post) (slot : Nat) (m : Msg) : Bool :=
  decide (p.state = 0 ∧ p.msg = none ∧ p.tag.slot = slot ∧ p.mtag = m.mtag ∧ (p.src = none ∨ p.src = some (m.srcNode, m.srcCore)))

theorem fits_iff {p : Post} {slot : Nat} {m : Msg} : p.Fits slot m ↔ fitsB p slot m = true := by
  simp only [Post.Fits, fitsB, decide_eq_true_eq]

theorem noFit {t : Tbl Post} {slot : Nat} {m : Msg} (h : (t.all fun e => !fitsB e.2 slot m) = true := by decide +kernel) :
    ∀ ix p, ix < 64 → tget t ix = some p → ¬ p.Fits slot m := fun ix p _ e f => by
  have q := List.all_eq_true.mp h (ix, p) (mem_of_tget e)
  rw [Bool.not_eq_true'] at q
  rw [fits_iff.mp f] at q
  cases q

theorem takes {k : Core} {slot : Nat} {m : Msg} {ix : Nat} {p : Post}
    (h : (ix < 64 ∧ tget k.posts ix = some p ∧ fitsB p slot m = true)
      ∧ (k.posts.all fun e => !fitsB e.2 slot m || decide (e.1 = ix ∨ p.seq < e.2.seq)) = true := by decide +kernel) :
    k.Takes slot m ix p := by
  refine ⟨h.1.1, h.1.2.1, fits_iff.mpr h.1.2.2, fun i q _ e f => ?_⟩
  have r := List.all_eq_true.mp h.2 (i, q) (mem_of_tget e)
  simp only [Bool.or_eq_true, Bool.not_eq_true', decide_eq_true_eq] at r
  rcases r with r | r
  · rw [fits_iff.mp f] at r; cases r
  · exact r

theorem party {s : State} {who : Issuer}
    (h : (match who with
      | .slot b w k => (s.view b w k).isSome && !(vwOf s b w k).w.split
      | .stream b e ix => ((s.blk b).bind fun y => y.stream e ix).isSome) = true := by decide +kernel) : s.Party who := by
  cases who with
  | slot b w k =>
    simp only [Bool.and_eq_true, Bool.not_eq_true'] at h
    exact ⟨_, viewed h.1, h.2⟩
  | stream b e ix => exact Option.isSome_iff_exists.mp h

/-! ### Collectives and queues -/

theorem readsAs {s : State} {b va n : Nat} {l : List Byte}
    (h : landsB s b va va ((cellOf va).getD 0) n = true := by decide +kernel)
    (e : l = (List.range n).map fun i => s.homeByte (some b) ((cellOf va).getD 0 + i) := by decide +kernel) : s.ReadsAs b va n l :=
  ⟨_, _, lands h, e⟩

theorem queueIs {s : State} {c : Nat} {t : Tag} {va cell kind lg ring tail head : Nat}
    (h1 : (t.slot = 0 ∧ va < 0x200000000000000) ∧ cellOf va = some cell := by decide +kernel)
    (h2 : ((va % 256 = 0 ∧ cell % 256 = 0) ∧ numberAt s.dramByte cell 1 = kind) ∧ (kind = 1 ∨ kind = 2) ∧ numberAt s.dramByte (cell + 1) 1 ≠ 1
      ∧ numberAt s.dramByte (cell + 2) 1 = lg ∧ 1 ≤ lg ∧ lg ≤ 20 := by decide +kernel)
    (h3 : (numberAt s.dramByte (cell + 8) 8 = ring ∧ ring % 128 = 0) ∧ numberAt s.dramByte (cell + 16) 8 = tail
      ∧ numberAt s.dramByte (cell + 24) 8 = head := by decide +kernel)
    (h4 : ∀ i, i < 256 → (3 ≤ i ∧ i < 8) ∨ 64 ≤ i → s.dramByte (cell + i) = 0 := by decide +kernel)
    (h5 : (va ∈ (s.ctx t.slot).rcd.queues ∨ (va ≠ 0 ∧ (s.ctx t.slot).rcd.eventq = va)) ∧ (s.ctx t.slot).withdrawn = false := by
      decide +kernel)
    (h6 : (s.core c).cache = [] ∧ (s.core c).wq = [] := by decide +kernel)
    (h7 : ∀ i, i < 256 → i < 48 ∨ 56 ≤ i → s.onAppend (cell + i) = false := by decide +kernel) :
    s.QueueIs c t va cell kind lg ring tail head :=
  ⟨⟨_, translate_phys h1⟩, h2.1.1, h7, h2.1.2, h2.2.1, h2.2.2.1, h2.2.2.2.1, h2.2.2.2.2, h3.1.1, h3.1.2, h3.2.1, h3.2.2,
    fun i hi => h4 i (by omega) (by omega), h5.1, h5.2, empty h6⟩

/-! ### Contexts and the link -/

/-- Every core's cache is empty. -/
theorem emptyAll {s : State} (h : (s.cores.all fun e => decide (e.2.cache = [] ∧ e.2.wq = [])) = true := by decide +kernel) :
    ∀ c, s.Empty c := by
  intro c
  have q : (s.core c).cache = [] ∧ (s.core c).wq = [] := by
    unfold State.core
    cases e : tget s.cores c with
    | none => exact ⟨rfl, rfl⟩
    | some x => exact of_decide_eq_true (List.all_eq_true.mp h (c, x) (mem_of_tget e))
  exact ⟨q.1, q.2⟩

/-- Bytes that stand in package DRAM, at homes that are ready. -/
theorem placed {s : State} {c n va pa cell : Nat} {t : Tag} {nd : Need}
    (h1 : pa = va := by rfl)
    (h : ∀ i, i < n → ((t.slot = 0 ∧ va + i < 0x200000000000000) ∧ cellOf (va + i) = some (cell + i))
      ∧ s.parks (va + i) (cell + i) = false := by decide +kernel) :
    ∀ i, i < n → s.translate c t (va + i) nd = (s, .ok (.dram (pa + i) (cell + i))) ∧ s.parks (pa + i) (cell + i) = false :=
  fun i hi => by subst h1; exact ⟨translate_phys (h i hi).1, (h i hi).2⟩

theorem optAll {α : Type} {o : Option α} {P : α → Prop} [∀ x, Decidable (P x)]
    (h : (o.all fun x => decide (P x)) = true := by decide +kernel) : ∀ x, o = some x → P x := fun x e => by
  subst e; simpa using h

/-- The checksum's word of a flit, read back (R327). -/
theorem crcRead (x : Nat) (q : BitVec 32) (h : x < 2 ^ 32) :
    leNat ([byteOf x 0, byteOf x 1, byteOf x 2, byteOf x 3] ++ [byteOf q.toNat 0, byteOf q.toNat 1, byteOf q.toNat 2, byteOf q.toNat 3])
      = x + 2 ^ 32 * q.toNat := by
  have hq := q.isLt
  simp only [List.cons_append, List.nil_append, leNat, byteOf, BitVec.toNat_ofNat]
  omega

/-- A dirty line of the one way in cache mode has to leave with it (R99). -/
theorem linesLeft {c : Core} {x : Word64} {n : Nat} (h1 : ((List.range 16).filter fun i => decide (modeAt c.colWays i = 0)) = [0])
    (h2 : (((c.wq.filter fun e => !e.bus).flatMap VWrite.sectors).map fun p => p / 4).eraseDups = [n])
    (h3 : (c.leaving x).contains 0 = true) : c.linesOut x ≠ [] := by
  unfold Core.linesOut
  simp only [h1, h2, List.length_singleton, Nat.mod_one]
  simpa using h3

/-! ### Grids and blocks -/

/-- The one packet that can be taken next. -/
def cnd (s : State) : Cand := s.candidates.headD ⟨0, 0, 0, ⟨0, 0⟩, QHdr.parse 0 []⟩

/-- The state after the one packet is taken. -/
def tookIt (s : State) (ty : Nat) : State :=
  let c := cnd s
  let w := { s.dramWrite (c.h.cell + 24) (toLE 8 (c.h.head + 1)) with
    arrivals := s.arrivals.filter fun a => !(decide (a.1 = c.h.cell) && decide (a.2.1 = c.h.head)) }
  if s.ns ≤ c.d then w
  else (w.dramWrite (c.h.cell + 40) (toLE 8 (c.h.missed + 1))).postEvent c.tag (launchEvent ty c.qix (leNat ((s.headPacket c.tag c.h).take 8)))

theorem onlyPacket {s : State} (h : s.fw.running = true ∧ s.candidates.length = 1 := by decide +kernel) :
    s.Takes (tookIt s 1) (cnd s) (s.headPacket (cnd s).tag (cnd s).h) := by
  have e : s.candidates = [cnd s] := by
    unfold cnd
    obtain ⟨x, hx⟩ := List.length_eq_one_iff.mp h.2
    rw [hx]; rfl
  refine ⟨h.1, ?_, ?_, rfl, rfl⟩
  · rw [e]; exact List.mem_cons_self
  · intro x hx
    rw [e] at hx
    exact .inl (by simpa using hx)

theorem pairSome {α β : Type} {x : α × Option β} {y : β} (h : x.2.isSome = true := by decide +kernel) : x = (x.1, some (x.2.getD y)) := by
  obtain ⟨a, b⟩ := x
  cases b with
  | none => cases h
  | some z => rfl

theorem pairTrue {α : Type} {x : α × Bool} (h : x.2 = true := by decide +kernel) : x = (x.1, true) := by
  obtain ⟨a, b⟩ := x
  cases h
  rfl

/-- How a unit's write ended: done, parked or failed. -/
def putB (x : UnitRes) : Nat :=
  match x with
  | .done _ _ => 0
  | .park => 1
  | .fail _ _ _ => 2

def putS (s : State) (x : UnitRes) : State :=
  match x with
  | .done t _ => t
  | .park => s
  | .fail t _ _ => t

def putL (x : UnitRes) : List Nat :=
  match x with
  | .done _ l => l
  | .park => []
  | .fail _ k va => [k, va]

theorem donePut {s : State} {x : UnitRes} (h : putB x = 0 := by decide +kernel) : x = .done (putS s x) (putL x) := by
  cases x with
  | done t l => rfl
  | park => cases h
  | fail t k va => cases h

theorem parkPut {x : UnitRes} (h : putB x = 1 := by decide +kernel) : x = .park := by
  cases x with
  | done t l => cases h
  | park => rfl
  | fail t k va => cases h

theorem failPut {s : State} {x : UnitRes} (h : putB x = 2 := by decide +kernel) : x = .fail (putS s x) ((putL x).headD 0) ((putL x)[1]?.getD 0) := by
  cases x with
  | done t l => cases h
  | park => cases h
  | fail t k va => rfl

def runsB (l : List Run) (b w base len : Nat) : Bool :=
  match l with
  | [r] => decide (r.bid = b) && decide (r.wid = w) && decide (r.base = base) && decide (r.len = len) && !r.active
  | _ => false

theorem oneRun {s : State} {c b w base len : Nat} (h : runsB (s.runs c) b w base len = true := by decide +kernel) :
    s.runs c = [⟨b, w, base, len, false⟩] := by
  unfold runsB at h
  split at h
  · rename_i r e
    simp only [Bool.and_eq_true, decide_eq_true_eq, Bool.not_eq_true'] at h
    obtain ⟨⟨⟨⟨rfl, rfl⟩, rfl⟩, rfl⟩, h⟩ := h
    rw [e, ← h]
  · cases h

def slotRests (x : Slot) : Bool :=
  x.asks.isEmpty && (match x.status with
    | .reply => false
    | .ctxwait _ _ _ => false
    | _ => true)

theorem slotRests_iff {x : Slot} (h : slotRests x = true) : x.asks = [] ∧ x.status ≠ .reply ∧ ∀ a o r, x.status ≠ .ctxwait a o r := by
  unfold slotRests at h
  simp only [Bool.and_eq_true, List.isEmpty_iff] at h
  refine ⟨h.1, fun e => ?_, fun a o r e => ?_⟩ <;> (rw [e] at h; cases h.2)

theorem settled {s : State} {b : Nat} {y : Block}
    (h1 : (s.cmds.all fun e => decide (e.2.block ≠ b ∨ e.2.op = .coll)) = true ∧ (s.sends.all fun e => decide (e.2.who.block ≠ b)) = true := by decide +kernel)
    (h2 : (y.closing = false ∧ (y.waves.all fun e => slotRests e.2.s0 && slotRests e.2.s1) = true)
      ∧ (y.streams.all fun x => x.asks.isEmpty) = true := by decide +kernel) : s.Settled b y := by
  refine ⟨fun e he => ?_, fun e he => ?_, h2.1.1, fun e he x hx => ?_, fun x hx => ?_⟩
  · intro hb
    have q := List.all_eq_true.mp h1.1 e he
    simp only [decide_eq_true_eq] at q
    exact q.resolve_left fun k => k hb
  · simpa using List.all_eq_true.mp h1.2 e he
  · have q := List.all_eq_true.mp h2.1.2 e he
    rw [Bool.and_eq_true] at q
    rcases hx with rfl | rfl
    · exact slotRests_iff q.1
    · exact slotRests_iff q.2
  · simpa using List.all_eq_true.mp h2.2 x hx

/-- A list with something in it offers a choice. -/
theorem choose_some {α : Type} {s : State} {l : List α} (h : l ≠ []) : ∃ y, s.choose l = ({ s with freeIx := s.freeIx + 1 }, some y) := by
  cases l with
  | nil => exact absurd rfl h
  | cons x r => exact ⟨_, rfl⟩

/-- A block that asks for registers alone fits on core 0 when that core has a slot and the registers (R284, R285). -/
theorem placeable {s : State} {x : ToBind} {g : Grid} {n : Nat}
    (h1 : (s.unitReady .core 0 = true ∧ s.unitFallow .core 0 = false ∧ 0 ∉ s.quits) ∧ s.residents 0 + g.kern.blockY ≤ 64 := by decide +kernel)
    (h2 : (g.kern.column = false ∧ g.kern.matrix = false) ∧ g.kern.fifos = 0 ∧ g.kern.shared = 0 := by decide +kernel)
    (h3 : s.freeSlots 0 ≠ [] ∧ freeBases (s.runs 0) (g.kern.blockY * g.kern.regs) ≠ [] := by decide +kernel) :
    ∃ u, s.placeFrom x ⟨g, g.kern, none⟩ (n + 1) 0 = some u := by
  suffices h : ∃ u, s.placeOn 0 x ⟨g, g.kern, none⟩ = some u by
    obtain ⟨u, h⟩ := h
    exact ⟨u, by rw [State.placeFrom, h]⟩
  obtain ⟨slot, e1⟩ := choose_some (s := s) h3.1
  generalize hs1 : ({ s with freeIx := s.freeIx + 1 } : State) = s1 at e1
  obtain ⟨scr, e2⟩ := choose_some (s := s1) (l := [0]) (by simp)
  generalize hs2 : ({ s1 with freeIx := s1.freeIx + 1 } : State) = s2 at e2
  have r2 : s2.runs 0 = s.runs 0 := by subst hs2; subst hs1; rfl
  obtain ⟨base, e3⟩ := choose_some (s := s2) (l := freeBases (s2.runs 0) (g.kern.blockY * g.kern.regs)) (by rw [r2]; exact h3.2)
  have ne : (freeBases (s.runs 0) (g.kern.blockY * g.kern.regs)).isEmpty = false := by
    cases hb : freeBases (s.runs 0) (g.kern.blockY * g.kern.regs) with
    | nil => exact absurd hb h3.2
    | cons a b => rfl
  have f0 : s1.freeScratch 0 0 = [0] := rfl
  unfold State.placeOn
  dsimp only
  rw [if_neg (by simp [State.suits, h1.1.1, h1.1.2.1, h1.1.2.2, h1.2, h2.1.1, State.contextsFit])]
  have na : s2.asksCompact 0 ⟨g, g.kern, none⟩ = false := by
    simp only [State.asksCompact, Want.regs, r2, ne, Bool.and_false, Bool.false_and]
  simp only [e1, h2.1.2, h2.2.1, h2.2.2, f0, Bool.false_eq_true, if_false, Nat.zero_le, decide_true, List.filter_cons_of_pos,
    List.filter_nil, e2, State.chooseN, Option.getD_some, Want.regs, na]
  simp only [e3]
  exact ⟨_, rfl⟩

/-! ### Paging, landing, the host -/

theorem walksTo {s : State} {va root l : Nat} {p cell : Nat → Nat} {e : Nat → Word64} (h0 : p 4 = root ∧ l ≤ 2 := by decide +kernel)
    (h1 : ∀ k, k < 5 → l ≤ k → cellOf (p k + 8 * tableIndex va k) = some (cell k) ∧ (e k).toNat = numberAt s.dramByte (cell k) 8
      ∧ s.parks (p k + 8 * tableIndex va k) (cell k) = false ∧ s.poisoned (cell k) 8 = false := by decide +kernel)
    (h2 : ∀ k, k < 5 → l < k → (e k).extractLsb' 0 8 = 1 ∧ (e k).extractLsb' 48 16 = 0
      ∧ p (k - 1) = ((e k).extractLsb' 8 40).toNat * 256 ∧ (2 ≤ k → p (k - 1) % 4096 = 0) ∧ (cellOf (p (k - 1))).isSome = true := by
      decide +kernel)
    (h3 : (e l).extractLsb' 0 3 = 3 ∧ (e l).extractLsb' 6 3 = 0 ∧ ((e l).extractLsb' 12 14).toNat % 2 ^ pfnZeros l = 0 := by decide +kernel) :
    s.WalksTo va root l p cell e :=
  ⟨h0.1, h0.2, fun k hl hk => (h1 k (by omega) hl).1, fun k hl hk => (h1 k (by omega) hl).2.2, fun k hl hk => (h1 k (by omega) hl).2.1,
    fun k h hk => h2 k (by omega) h, h3⟩

/-- What the reading of a page-table entry gives. -/
def ptB (x : Except Nat Word64) (e : Word64) : Bool :=
  match x with
  | .ok y => decide (y = e)
  | .error _ => false

theorem ptOk {x : Except Nat Word64} {e : Word64} (h : ptB x e = true := by decide +kernel) : x = .ok e := by
  cases x with
  | ok y => rw [of_decide_eq_true h]
  | error k => cases h

theorem uncached {s : State} {t : Tag} (h : ((s.core 512).tlb.all fun x => decide (x.tag ≠ t)) = true
      ∧ (s.xlat.all fun e => e.2.all fun x => decide (x.tag ≠ t)) = true := by decide +kernel) : s.Uncached t :=
  ⟨fun x hx => by simpa using List.all_eq_true.mp h.1 x hx,
    fun n l x e hx => by simpa using List.all_eq_true.mp (List.all_eq_true.mp h.2 (n, l) (mem_of_tget e)) x hx⟩

/-- The reserved bytes of a queue's header. -/
theorem zeros {s : State} {b : Nat} (h : ∀ i, i < 256 → (3 ≤ i ∧ i < 8) ∨ 64 ≤ i → s.dramByte (b + i) = 0 := by decide +kernel) :
    ∀ i, (3 ≤ i ∧ i < 8) ∨ (64 ≤ i ∧ i < 256) → s.dramByte (b + i) = 0 := fun i hi => h i (by omega) (by omega)

theorem hostOpen {s : State} {pa n : Nat} {cell : Nat → Nat}
    (h0 : (s.fw.running = true ∧ s.hostHeld = []) ∧ 0 < n := by decide +kernel)
    (h : ∀ i, i < n → cellOf (pa + i) = some (cell i) ∧ s.parks (pa + i) (cell i) = false ∧ cell i / 64 ∉ s.vaultBad := by decide +kernel) :
    s.HostOpen pa n cell := ⟨h0.1.1, h0.1.2, h0.2, fun i hi => (h i hi).1, fun i hi => (h i hi).2.1, fun i hi => (h i hi).2.2⟩

/-- Bytes that lie in no queue's APPEND (R279). -/
theorem noAppend {s : State} {n : Nat} {cell : Nat → Nat}
    (h : ∀ i, i < n → s.onAppend (cell i) = false := by decide +kernel) : ∀ i, i < n → s.onAppend (cell i) = false := h

/-! ### Tile operations -/

def elemVa (t : Tensor) (ix : List Nat) : Nat := (t.elemAddr ix % 2 ^ 64).toNat

def elemCell (t : Tensor) (ix : List Nat) : Nat := (cellOf (elemVa t ix)).getD 0

def elemB (s : State) (b : Nat) (t : Tensor) (ix : List Nat) (x : Nat) : Bool :=
  let y := numberAt (s.homeByte (some b)) (elemCell t ix) t.unit
  decide (t.owner = none) && decide ((elemVa t ix : Int) = t.elemAddr ix % 2 ^ 64) && landsB s b (elemVa t ix) (elemVa t ix) (elemCell t ix) t.unit
    && if t.packed then contOk t.ty y && decide (x = contEl t.ty y ((ix[0]?).getD 0 % contE t.ty)) else decide (x = y)

theorem elemIs {s : State} {b x : Nat} {t : Tensor} {ix : List Nat} (h : elemB s b t ix x = true := by decide +kernel) : s.ElemIs b t ix x := by
  simp only [elemB, Bool.and_eq_true, decide_eq_true_eq] at h
  obtain ⟨⟨⟨h1, h2⟩, h3⟩, h4⟩ := h
  refine ⟨h1, _, _, _, _, h2, lands h3, rfl, ?_⟩
  split at h4
  · rename_i hp
    rw [if_pos hp]
    simpa using h4
  · rename_i hp
    rw [if_neg hp]
    simpa using h4

theorem elemsAre {s : State} {b n : Nat} {t : Tensor} {ix : Nat → List Nat} {x : Nat → Nat}
    (h : ∀ k, k < n → elemB s b t (ix k) (x k) = true := by decide +kernel) : ∀ k, k < n → s.ElemIs b t (ix k) (x k) :=
  fun k hk => elemIs (h k hk)

theorem elemPairs {s : State} {b n : Nat} {t u : Tensor} {ix iy : Nat → List Nat} {x y : Nat → Nat}
    (h : ∀ k, k < n → elemB s b t (ix k) (x k) = true ∧ elemB s b u (iy k) (y k) = true := by decide +kernel) :
    ∀ k, k < n → s.ElemIs b t (ix k) (x k) ∧ s.ElemIs b u (iy k) (y k) := fun k hk => ⟨elemIs (h k hk).1, elemIs (h k hk).2⟩

theorem elemAt {s : State} {b va pa cell : Nat} {t : Tensor} {ix : List Nat}
    (h1 : (t.owner = none ∧ t.packed = false) ∧ (va : Int) = t.elemAddr ix % 2 ^ 64 := by decide +kernel)
    (h2 : landsB s b va pa cell t.unit = true := by decide +kernel)
    (h3 : ∀ i, i < t.unit → (isPinned (pa + i) = false ∨ vaultOf (cell + i) ≠ coreOf b) ∧ s.onAppend (cell + i) = false := by decide +kernel) :
    s.ElemAt b t ix va pa cell := ⟨h1.1, h1.2, lands h2, fun i hi => (h3 i hi).1, fun i hi => (h3 i hi).2⟩

def goesB (o : Out) : Bool :=
  match o with
  | .next _ => true
  | _ => false

theorem goes {o : Out} (h : goesB o = true := by decide +kernel) : ∃ t, o = .next t := by
  unfold goesB at h
  split at h
  · exact ⟨_, rfl⟩
  · cases h

/-- What holds of a core that nothing was done to and of every core listed holds of every core. -/
theorem coreAll {s : State} {P : Core → Prop} [∀ x, Decidable (P x)]
    (h : P Core.reset ∧ (s.cores.all fun e => decide (P e.2)) = true := by decide +kernel) : ∀ c, P (s.core c) := by
  intro c
  unfold State.core
  cases e : tget s.cores c with
  | none => exact h.1
  | some x => exact of_decide_eq_true (List.all_eq_true.mp h.2 (c, x) (mem_of_tget e))

/-! ### Steps -/

/-- What a fetch gives. -/
def gotT (o : Fetched) : State :=
  match o with
  | .block t _ => t
  | .act t => t

def gotB (o : Fetched) : BitVec 256 :=
  match o with
  | .block _ b => b
  | .act _ => 0

def gotten (o : Fetched) : Bool :=
  match o with
  | .block _ _ => true
  | .act _ => false

theorem got {o : Fetched} (h : gotten o = true := by decide +kernel) : o = .block (gotT o) (gotB o) := by
  cases o with
  | block t b => rfl
  | act t => cases h

/-- The fetch at a PC. -/
def fetchAt (u : State) (pc : Pc) : Fetched := { u with ir := ⟨0, 8, pc, none⟩ }.fetchBlock (pc.toNat / 4 * 4) ⟨false, false, true⟩

def wordOf (u : State) (pc : Pc) : InstrWord := wordAt (gotB (fetchAt u pc)) (pc.toNat / 4 * 4 % 32)

theorem fetches {u : State} {k : Kernel} {pc : Pc} {n : Nat}
    (h1 : (k.text ≤ pc.toNat / 4 * 4 ∧ pc.toNat / 4 * 4 < k.text + k.textLen) ∧ k.inStubs (pc.toNat / 4 * 4) = false := by decide +kernel)
    (h2 : gotten (fetchAt u pc) = true ∧ n = wordBytes (wordOf u pc) := by decide +kernel)
    (h3 : pc.toNat / 4 * 4 % 32 + 8 ≤ 32 ∧ pc.toNat / 4 * 4 % 32 + n ≤ 32 := by decide +kernel)
    (h4 : pc.toNat % 4 = 0 ∨ ((wordOf u pc).extractLsb' 0 2 = 3 ∧ pc.toNat % 4 ≠ 3) := by decide +kernel) :
    u.Fetches k pc (wordOf u pc) n (gotT (fetchAt u pc)) := ⟨h1.1, h1.2, ⟨_, got h2.1, rfl⟩, h2.2, h3, h4⟩

theorem serves {u : State} (hs : slotB u = true := by decide +kernel)
    (h1 : (u.stopped = false ∧ (vw u).b.frozen = .no ∧ (vw u).w.halted = false ∧ (vw u).w.active = true) ∧ (vw u).sl.status = .run
      ∧ (vw u).sl.replay = .none ∧ (vw u).b.leaving = false := by decide +kernel)
    (h2 : (vw u).sl.flights = [] ∧ (vw u).sl.held = [] ∧ (vw u).sl.answers = [] ∧ (vw u).sl.pending = []
      ∧ (u.core (coreOf (vw u).bid)).bad = [] ∧ (u.core (coreOf (vw u).bid)).soft = [] := by decide +kernel)
    (h3 : u.patchNow = none := by decide +kernel) : u.Serves (vw u) :=
  ⟨h1.1.1, slotted hs, h1.1.2.1, h1.1.2.2.1, h1.1.2.2.2, h1.2.1, h1.2.2.1, h1.2.2.2, ⟨h2.1, h2.2.1, h2.2.2.1⟩, h2.2.2.2.1, h2.2.2.2.2,
    fun p e => by rw [h3] at e; cases e⟩

theorem noTile {u : State} {t : Tag} {pc : Pc} (h : u.tiles = [] := by decide +kernel) : u.NoTile t pc := fun x hx => by
  rw [h] at hx; cases hx

theorem runs {u : State} {b : Nat} {e : Engine} {ix : Nat} {x : Stream}
    (h1 : (u.cur = .stream b e ix ∧ ((u.blk b).bind fun y => y.stream e ix) = some x) ∧ (u.blk b).isSome = true := by decide +kernel)
    (h2 : (u.stopped = false ∧ (bk u b).frozen = .no ∧ (bk u b).leaving = false) ∧ x.exited = false ∧ x.status = .run
      ∧ x.replay = .none ∧ x.predicted = none ∧ x.pending = [] := by decide +kernel)
    (h3 : u.patchNow = none := by decide +kernel) : u.Runs b e ix x (bk u b) :=
  ⟨h2.1.1, ⟨h1.1.1, h1.1.2⟩, blkd h1.2, h2.1.2.1, h2.1.2.2, h2.2.1, h2.2.2.1, h2.2.2.2.1, h2.2.2.2.2.1, h2.2.2.2.2.2,
    fun p e => by rw [h3] at e; cases e⟩

def wavesB (l : Tbl Wave) : Bool := twf l && l.all fun e => twf e.2.s0.priv && twf e.2.s1.priv

theorem waves_rise {l : Tbl Wave} (h : wavesB l = true) : twf l = true ∧ ∀ e, e ∈ l → e.2.Rises := by
  simp only [wavesB, Bool.and_eq_true, List.all_eq_true] at h
  exact ⟨h.1, fun e he => h.2 e he⟩

def blockB (b : Block) : Bool :=
  twf b.vers && wavesB b.waves && (match b.snap with
    | none => true
    | some n => wavesB n.waves)

theorem block_rises {b : Block} (h : blockB b = true) : b.Rises := by
  simp only [blockB, Bool.and_eq_true] at h
  have q := waves_rise h.1.2
  refine ⟨h.1.1, q.1, q.2, fun n e => ?_⟩
  have r := h.2
  rw [e] at r
  exact waves_rise r

theorem tablesRise {s : State} (h1 : (twf s.blocks && s.blocks.all fun e => blockB e.2) = true := by decide +kernel)
    (h2 : ((s.saves.all fun y => blockB y.blk) && twf s.cores && s.cores.all fun e => twf e.2.cache && twf e.2.posts) = true := by decide +kernel) :
    s.TablesRise := by
  simp only [Bool.and_eq_true, List.all_eq_true] at h1 h2
  exact ⟨h1.1, fun e he => block_rises (h1.2 e he), fun y hy => block_rises (h2.1.1 y hy), h2.1.2, fun e he => h2.2 e he⟩

def gives (x : Except Reject Instr) (i : Instr) : Bool :=
  match x with
  | .ok j => decide (j = i)
  | .error _ => false

theorem decodes {x : Except Reject Instr} {i : Instr} (h : gives x i = true := by decide +kernel) : x = .ok i := by
  cases x with
  | ok j => rw [of_decide_eq_true h]
  | error e => cases h

def refuses (x : Except Reject Instr) (p : Bool) : Bool :=
  match x with
  | .ok _ => false
  | .error (.illegal q) => decide (q = p)

theorem rejects {x : Except Reject Instr} {p : Bool} (h : refuses x p = true := by decide +kernel) : x = .error (.illegal p) := by
  unfold refuses at h
  split at h
  · cases h
  · rw [of_decide_eq_true h]

end

end Sys2Proof.Tests
end

