-- ==== Sys2Proof/Tests/Slice0.lean ====
section
/-! SUPPORT. Tests: ill-formed terms that the check refuses; words of the spec's encodings, one or more for every instruction, that decode
to the instruction they stand for; the spec's worked examples; and for every statement with premises concrete states and operands that
meet them, each clause by itself, at boundary values where it has any. -/

namespace Sys2Proof.Tests

open Sys2Proof Sys2Proof.Machine

set_option maxRecDepth 100000
set_option linter.unusedVariables false

section
set_option Elab.async false

/-! ### Ill-formed terms, one for each check, and well-formed neighbours (R118 to R126 and the reference entries) -/

theorem test_wf_refuses_control : ∀ i, i ∈ [Instr.loop 0 1 false none, .call 0 2 (.off 1) none, .call 63 1 (.off 1) none,
    .call 63 17 (.off 1) none, .call 63 2 (.reg 0) none, .sread (.vec 1) .waveid ⟨false, 0⟩, .sread (.sca 1) .laneid ⟨false, 0⟩,
    .sread (.vec 1) .laneid ⟨true, 0⟩, .sread (.sca 1) .waveid ⟨false, 1⟩, .swrite .bankmode 1, .swrite .colways 1,
    .swrite .versionbudget 1, .tlbinv true 3 1 2, .kget 1 2 32, .sbfx false 1 2 0 0, .sbfx true 1 2 1 64] → i.wf = false := by decide

/-- A two-source, a one-source and a three-source instruction with one thing in each changed. -/
def wBin : VBin := ⟨⟨false, 1⟩, .s64, true, .rn, 0, 2, .vec 4, .vec 6⟩
def wUn : VUn := ⟨⟨false, 1⟩, .f64, false, .ru, 0, 2, .vec 4⟩
def wTri : VTri := ⟨⟨false, 1⟩, .f64, false, .ru, 2, .vec 4, .vec 6, .sca 3⟩

theorem test_wf_refuses_vectors : ∀ i, i ∈ [Instr.vadd { wBin with p := ⟨true, 0⟩ }, .vadd { wBin with ty := .f32 }, .vadd { wBin with rm := .rz },
    .vadd { wBin with la := 1 }, .vadd { wBin with d := 3 }, .vadd { wBin with a := .vec 5 }, .vadd { wBin with b := .vec 7 },
    .vadd { wBin with a := .imm 1 }, .vmin wBin, .fdiv { wBin with ty := .f32, sat := false, b := .imm 1 }, .frint { wUn with p := ⟨true, 0⟩ },
    .frint { wUn with ty := .s32 }, .frint { wUn with sat := true }, .fabs wUn, .frint { wUn with la := 1 }, .frint { wUn with d := 3 },
    .frint { wUn with a := .vec 5 }, .ffma { wTri with p := ⟨true, 0⟩ }, .ffma { wTri with ty := .n32 }, .ffma { wTri with sat := true },
    .vmad { wTri with ty := .s64 }, .ffma { wTri with d := 3 }, .ffma { wTri with a := .vec 5 }, .ffma { wTri with b := .vec 7 },
    .ffma { wTri with c := .imm 1 }, .vaddc ⟨⟨true, 0⟩, 1, 1, .vec 2, .vec 3, 1⟩, .vaddc ⟨⟨false, 0⟩, 1, 0, .vec 2, .vec 3, 1⟩,
    .vaddc ⟨⟨false, 0⟩, 1, 1, .vec 2, .vec 3, 0⟩, .vsubb ⟨⟨false, 0⟩, 1, 1, .imm 2, .vec 3, 1⟩, .vsubb ⟨⟨false, 0⟩, 1, 1, .vec 2, .imm 3, 1⟩,
    .vcmp ⟨⟨true, 0⟩, .s32, .eq, 1, .vec 2, .vec 3⟩, .vcmp ⟨⟨false, 0⟩, .f32, .eq, 1, .vec 2, .vec 3⟩,
    .fcmp ⟨⟨false, 0⟩, .f32, .eq, 0, .vec 2, .vec 3⟩, .fcmp ⟨⟨false, 0⟩, .f64, .eq, 1, .vec 3, .vec 2⟩,
    .fcmp ⟨⟨false, 0⟩, .f64, .eq, 1, .vec 2, .vec 3⟩, .vbfx ⟨⟨true, 0⟩, .s32, 1, .vec 2, 0, 32⟩, .vbfx ⟨⟨false, 0⟩, .b32, 1, .vec 2, 0, 32⟩,
    .vbfi ⟨⟨false, 0⟩, .b32, 1, .imm 2, 0, 32⟩, .vbfi ⟨⟨false, 0⟩, .b32, 1, .vec 2, 0, 0⟩, .vbfx ⟨⟨false, 0⟩, .s32, 1, .vec 2, 1, 32⟩] →
    i.wf = false := by decide

theorem test_wf_refuses_more_vectors : ∀ i, i ∈ [Instr.vsel ⟨true, 0⟩ .b32 1 (.vec 2) (.vec 3) 1, .vsel ⟨false, 0⟩ .s32 1 (.vec 2) (.vec 3) 1,
    .vsel ⟨false, 0⟩ .n64 1 (.vec 2) (.vec 4) 1, .vsel ⟨false, 0⟩ .n64 2 (.vec 3) (.vec 4) 1, .vsel ⟨false, 0⟩ .n64 2 (.vec 4) (.vec 3) 1,
    .vli ⟨true, 0⟩ 1 1, .vmovs .s32 1 (.vec 2) 0, .vmovs .n64 1 (.vec 3) 0, .vmovs .b32 1 (.vec 2) 32, .cvt ⟨true, 0⟩ .s8 .f32 false 1 (.vec 2),
    .cvt ⟨false, 0⟩ .s8 .s8 false 1 (.vec 2), .cvt ⟨false, 0⟩ .none .s8 false 1 (.vec 2), .cvt ⟨false, 0⟩ .s8 .none false 1 (.vec 2),
    .cvt ⟨false, 0⟩ .b32 .s8 false 1 (.vec 2), .cvt ⟨false, 0⟩ .s8 .b32 false 1 (.vec 2), .cvt ⟨false, 0⟩ .s8 .f32 true 1 (.vec 2),
    .cvt ⟨false, 0⟩ .f64 .f32 false 1 (.vec 2), .cvt ⟨false, 0⟩ .f32 .f64 false 1 (.vec 3), .pack .f32 1 (.vec 2) 0, .pack .t8 1 (.imm 2) 0,
    .pack .t8 1 (.vec 2) 8, .unpack .f32 1 (.vec 2) 0, .unpack .t8 1 (.imm 2) 0, .unpack .t8 1 (.vec 2) 8, .ctag .s32 1 (.vec 2),
    .ctag .t8 1 (.imm 2), .vote ⟨true, 0⟩ .add .s32 1 (.vec 2) none none, .vote ⟨false, 0⟩ .add .s32 1 (.imm 2) none none,
    .vote ⟨false, 0⟩ .and .s32 1 (.vec 2) none none, .vote ⟨false, 0⟩ .or .s32 1 (.vec 2) none none,
    .vote ⟨false, 0⟩ .min .b32 1 (.vec 2) none none, .regroup 0 1] → i.wf = false := by decide

def wAd : MAddr := ⟨1, .vec 2, 0, none⟩
def wAdD : MAddr := { wAd with disp := some 4 }
def wMo : MOrd := ⟨.none, .blk, false⟩

theorem test_wf_refuses_memory : ∀ i, i ∈ [Instr.ld ⟨true, 0⟩ 0 .s32 wMo 1 wAd, .ld ⟨false, 0⟩ 0 .t8 wMo 1 wAd,
    .ld ⟨false, 0⟩ 0 .s32 ⟨.rel, .dev, false⟩ 1 wAd, .ld ⟨false, 0⟩ 0 .s32 ⟨.none, .dev, false⟩ 1 wAd,
    .ld ⟨false, 0⟩ 0 .s32 ⟨.acq, .core, true⟩ 1 wAd, .ld ⟨false, 0⟩ 0 .s64 wMo 1 wAd, .st ⟨true, 0⟩ .s32 wMo wAd (.vec 1),
    .st ⟨false, 0⟩ .none wMo wAd (.vec 1), .st ⟨false, 0⟩ .s32 ⟨.acq, .dev, false⟩ wAd (.vec 1), .st ⟨false, 0⟩ .f64 wMo wAd (.vec 1),
    .stCnt ⟨true, 0⟩ .s32 .none .blk wAd (.vec 1) 1, .stCnt ⟨false, 0⟩ .s4 .none .blk wAd (.vec 1) 1,
    .stCnt ⟨false, 0⟩ .s32 .none .dev wAd (.vec 1) 1, .stCnt ⟨false, 0⟩ .s32 .none .blk wAdD (.vec 1) 1,
    .stCnt ⟨false, 0⟩ .s64 .none .blk wAd (.vec 1) 1, .stCnt ⟨false, 0⟩ .s32 .none .blk wAd (.vec 1) 0, .ldc 0 .t6 wMo 1 ⟨1, .sca 2, 0, none⟩,
    .ldc 0 .s32 ⟨.ar, .dev, false⟩ 1 ⟨1, .sca 2, 0, none⟩, .ldc 0 .s32 wMo 1 wAd, .pref ⟨true, 0⟩ wAd, .lds ⟨true, 0⟩ 0 .s32 1 wAd,
    .lds ⟨false, 0⟩ 0 .none 1 wAd, .lds ⟨false, 0⟩ 0 .n64 1 wAd, .sts ⟨true, 0⟩ .s32 wAd (.vec 1), .sts ⟨false, 0⟩ .none wAd (.vec 1),
    .sts ⟨false, 0⟩ .n64 wAd (.vec 1), .pld 0 .t4 1 2 none 3, .pst .t4 2 none 1 3, .atom ⟨true, 0⟩ 0 .add .s32 .none .blk wAd (.noRet 1),
    .atom ⟨false, 0⟩ 0 .add .b32 .none .blk wAd (.noRet 1), .atom ⟨false, 0⟩ 0 .min .f32 .none .blk wAd (.noRet 1),
    .atom ⟨false, 0⟩ 0 .max .s16 .none .blk wAd (.noRet 1), .atom ⟨false, 0⟩ 0 .and .n32 .none .blk wAd (.noRet 1),
    .atom ⟨false, 0⟩ 0 .add .n64 .none .blk wAd (.noRet 1), .atom ⟨false, 0⟩ 0 .add .s32 .acq .blk wAd (.noRet 1),
    .atom ⟨false, 0⟩ 0 .exch .b32 .none .blk wAd (.noRet 1), .atom ⟨false, 0⟩ 0 .cas .b32 .none .blk wAd (.noRet 1),
    .atom ⟨false, 0⟩ 0 .add .s64 .none .blk wAd (.ret (some 1) 2), .atom ⟨false, 0⟩ 0 .add .s64 .none .blk wAd (.ret none 1),
    .atom ⟨false, 0⟩ 0 .exch .b32 .none .blk wAd (.cas 1 1 2), .atom ⟨false, 0⟩ 0 .cas .b32 .none .blk wAd (.cas 1 0 2),
    .atom ⟨false, 0⟩ 0 .cas .n64 .none .blk wAd (.cas 1 1 2), .atom ⟨false, 0⟩ 0 .cas .n64 .none .blk wAd (.cas 2 1 3),
    .atom ⟨false, 0⟩ 0 .add .s32 .none .blk wAdD (.noRet 1), .atoms ⟨true, 0⟩ 0 .add .s32 wAd (.noRet 1),
    .atoms ⟨false, 0⟩ 0 .or .s32 wAd (.noRet 1), .atoms ⟨false, 0⟩ 0 .exch .b32 wAd (.noRet 1), .atoms ⟨false, 0⟩ 0 .add .s32 wAdD (.noRet 1),
    .fence .none .dev true, .fence .none .blk false] → i.wf = false := by decide

theorem test_wf_refuses_engines : ∀ i, i ∈ [Instr.mmap 0 1 16, .mldb 0 true 1 2 3 0, .mldb 0 true 1 2 3 524304, .mldb 0 true 1 2 3 24,
    .mstz 0 true .t8 1 0 1, .mstz 0 false .f32 1 0 1, .mma 0 false .f64 1 0 1 1, .mma 0 false .t4 1 0 1 1, .mma 0 false .f32 1 0 1 0,
    .mma 0 false .f32 1 0 1 65536, .mscale 0 false .f64 1 2 0 0, .mcommit 0 4 12, .mdiscard 0 15 1, .mcnt 0 .t8 .c0 1 2 1 0,
    .mcnt 0 .t4 .c2 1 2 1 0, .mcnt 0 .t4 .c0 1 2 0 0, .mcnt 0 .t4 .c0 1 2 137 0, .mmerge 0 .c2,
    .cpy ⟨.none, .dev, false, false⟩ (.linear 1 2 3), .cpy ⟨.none, .blk, false, false⟩ (.linear 1 2 0),
    .gath ⟨.t8, ⟨.none, .blk, false, false⟩, false, 1, 2, 3, 4⟩, .scat ⟨.s8, ⟨.none, .sys, false, false⟩, false, 1, 2, 3, 4⟩, .cpyq 1 49,
    .barn false none 16 1 none, .barn false none 1 65 none, .barn false none 1 0 none, .boinit .core 1 2, .boarr .none .blk 1 1,
    .boarr .acq .dev 1 1, .boarr .rel .dev 1 0, .bowait .none .core 1 2 3, .bowait .ar .dev 1 2 3, .xsend false 1 2 3 72,
    .xsend false 1 2 3 4, .waitchunk .rel .dev 1 2, .waitchunk .none .dev 1 64, .fork .copy 0 1,
    .reservedEncoding 0 0, .reset, .bind 0 0] → i.wf = false := by decide

/-- The neighbours that lie just inside. -/
theorem test_wf_accepts : ∀ i, i ∈ [Instr.call 63 16 (.reg 1) none, .kget 1 2 31, .sbfx true 1 2 0 64, .vadd wBin, .frint wUn, .ffma wTri,
    .vbfx ⟨⟨false, 0⟩, .s32, 1, .vec 2, 31, 1⟩, .vmovs .b32 1 (.vec 2) 31, .pack .t8 1 (.vec 2) 7, .ld ⟨false, 0⟩ 0 .s32 ⟨.acq, .core, false⟩ 1 wAdD,
    .atom ⟨false, 0⟩ 0 .cas .n64 .ar .sys wAd (.cas 2 1 4), .fence .none .blk true, .mldb 0 true 1 2 3 524288, .mma 0 false .f32 1 0 1 65535,
    .mcommit 0 4 11, .mcnt 0 .t4 .c0 1 2 136 0, .cpyq 1 48, .barn true none 15 0 none, .xsend false 1 2 3 64, .waitchunk .none .dev 1 63,
    .reservedEncoding 0x28 0] → i.wf = true := by decide

/-! ### Words of the spec's encodings (R118 to R136 and the reference entries), field by field -/

theorem test_decode_control :
    decodeTableWord 64 0x0000000000000000 = some (.nop .w64)
    ∧ decodeTableWord 96 0x000000000000000000000001 = some (.nop .w96)
    ∧ decodeTableWord 128 0x12345600000000000000000000000002 = some (.nop (.w128 0x123456))
    ∧ decodeTableWord 64 0x00000C050405000B = some (.dictionaryWord 2 0 0x0405 0x0C05 0)
    ∧ decodeTableWord 96 0xFFFFFFFE0080000000000005 = some (.bra (-2) true none)
    ∧ decodeTableWord 128 0xABCDEF00000000080000000000000006 = some (.bra 8 false (some 0xABCDEF))
    ∧ decodeTableWord 96 0x000000100020402021400105 = some (.bru .lt false 5 0 16 false none)
    ∧ decodeTableWord 128 0x000007000000001000D03821A1400106 = some (.bru .ge true 5 6 16 true (some 7))
    ∧ decodeTableWord 96 0x000000040010000030C00205 = some (.brz true 3 4 false none)
    ∧ decodeTableWord 96 0xFFFFFFF800800000002FC305 = some (.loop 63 (-8) true none)
    ∧ decodeTableWord 96 0x0000001800000000C02FC009 = some (.call 63 3 (.off 24) none)
    ∧ decodeTableWord 128 0x000001000000000000000004226F800A = some (.call 62 16 (.reg 9) (some 1))
    ∧ decodeTableWord 64 0x000000002FC00108 = some (.ret 63 none)
    ∧ decodeTableWord 96 0x000000080000000030800209 = some (.split 2 8 none)
    ∧ decodeTableWord 128 0xFFFFFF0000000008000000000000030A = some (.join 8 (some 0xFFFFFF))
    ∧ decodeTableWord 64 0x0000000000000408 = some (.exit none)
    ∧ decodeTableWord 128 0x20300A0000000000000000000000040A = some (.exit (some 0x20300A))
    ∧ decodeTableWord 64 0x0000000000000508 = some (.yield none)
    ∧ decodeTableWord 64 0x0000003FC000000C = some (.trap 255 none)
    ∧ decodeTableWord 64 0x000000000000010C = some (.trapret none none)
    ∧ decodeTableWord 128 0x00000200000000000000000021C0010E = some (.trapret (some 7) (some 2))
    ∧ decodeTableWord 64 0x000000000000020C = some (.halt none) := by
  decide +kernel

theorem test_decode_system :
    decodeTableWord 64 0x021000000021880C = some (.sread (.sca 6) .waveid ⟨false, 0⟩)
    ∧ decodeTableWord 64 0x020004800002480C = some (.sread (.vec 9) .laneid ⟨true, 2⟩)
    ∧ decodeTableWord 64 0x0010000021C0090C = some (.swrite .readymap 7)
    ∧ decodeTableWord 64 0x0500000021C0090C = some (.swrite .govbudget 7)
    ∧ decodeTableWord 64 0x0400000021C0090C = some (.swriteBankmode 7)
    ∧ decodeTableWord 64 0x0410000021C0090C = some (.swriteColways 7)
    ∧ decodeTableWord 64 0x0520000021C0090C = some (.swriteVersionbudget 7)
    ∧ decodeTableWord 64 0x0120002120C0100C = some (.tlbinv true 2 3 4)
    ∧ decodeTableWord 64 0x0000002120C0110C = some (.icinv false 3 4) := by
  decide +kernel

theorem test_decode_masks :
    decodeTableWord 64 0x0000000033F04010 = some (.kmov 1 15)
    ∧ decodeTableWord 64 0x00000030F0B00110 = some (.kand 0 2 3)
    ∧ decodeTableWord 64 0x00000030F0B00210 = some (.kor 0 2 3)
    ∧ decodeTableWord 64 0x00000030F0B00310 = some (.kxor 0 2 3)
    ∧ decodeTableWord 64 0x00000030F0B00410 = some (.kandn 0 2 3)
    ∧ decodeTableWord 64 0x0000000031710510 = some (.knot 4 5)
    ∧ decodeTableWord 64 0x0000000031E18610 = some (.kpop 6 7)
    ∧ decodeTableWord 64 0x0000000031E18710 = some (.kfirst 6 7)
    ∧ decodeTableWord 96 0xDEADBEEF0000000000304811 = some (.kset 1 0xDEADBEEF)
    ∧ decodeTableWord 64 0x00000007F2620910 = some (.kget 8 9 31)
    ∧ decodeTableWord 64 0x0000000032620A10 = some (.ksave 8 9)
    ∧ decodeTableWord 64 0x0000000022700B10 = some (.krest 0 9)
    ∧ decodeTableWord 64 0x000000001FC00C10 = some (.setexec 127) := by
  decide +kernel

theorem test_decode_scalar :
    decodeTableWord 64 0x00000020E0A04014 = some (.sadd 1 2 (.reg 3))
    ∧ decodeTableWord 96 0x80000001000000002FAFC019 = some (.sadd 63 62 (.imm 0x80000001))
    ∧ decodeTableWord 64 0x00000020E0A04114 = some (.ssub 1 2 (.reg 3))
    ∧ decodeTableWord 96 0x80000001000000002FAFC119 = some (.ssub 63 62 (.imm 0x80000001))
    ∧ decodeTableWord 64 0x00000020E0A04214 = some (.smul 1 2 (.reg 3))
    ∧ decodeTableWord 96 0x80000001000000002FAFC219 = some (.smul 63 62 (.imm 0x80000001))
    ∧ decodeTableWord 64 0x00003820E0A04314 = some (.smulh true 1 2 (.reg 3))
    ∧ decodeTableWord 96 0x80000001000040002FAFC319 = some (.smulh false 63 62 (.imm 0x80000001))
    ∧ decodeTableWord 64 0x00003820E0A04514 = some (.sdiv true 1 2 (.reg 3))
    ∧ decodeTableWord 96 0x80000001000040002FAFC519 = some (.sdiv false 63 62 (.imm 0x80000001))
    ∧ decodeTableWord 64 0x00003820E0A04614 = some (.srem true 1 2 (.reg 3))
    ∧ decodeTableWord 96 0x80000001000040002FAFC619 = some (.srem false 63 62 (.imm 0x80000001))
    ∧ decodeTableWord 64 0x00000020E0A04714 = some (.sand 1 2 (.reg 3))
    ∧ decodeTableWord 96 0x80000001000000002FAFC719 = some (.sand 63 62 (.imm 0x80000001))
    ∧ decodeTableWord 64 0x00000020E0A04814 = some (.sor 1 2 (.reg 3))
    ∧ decodeTableWord 96 0x80000001000000002FAFC819 = some (.sor 63 62 (.imm 0x80000001))
    ∧ decodeTableWord 64 0x00000020E0A04914 = some (.sxor 1 2 (.reg 3))
    ∧ decodeTableWord 96 0x80000001000000002FAFC919 = some (.sxor 63 62 (.imm 0x80000001))
    ∧ decodeTableWord 64 0x00000020E0A04A14 = some (.sshl 1 2 (.reg 3))
    ∧ decodeTableWord 96 0x80000001000000002FAFCA19 = some (.sshl 63 62 (.imm 0x80000001))
    ∧ decodeTableWord 64 0x00000020E0A04B14 = some (.sshr 1 2 (.reg 3))
    ∧ decodeTableWord 96 0x80000001000000002FAFCB19 = some (.sshr 63 62 (.imm 0x80000001))
    ∧ decodeTableWord 64 0x00000020E0A04C14 = some (.ssra 1 2 (.reg 3))
    ∧ decodeTableWord 96 0x80000001000000002FAFCC19 = some (.ssra 63 62 (.imm 0x80000001))
    ∧ decodeTableWord 64 0x00003820E0A04D14 = some (.smin true 1 2 (.reg 3))
    ∧ decodeTableWord 96 0x80000001000040002FAFCD19 = some (.smin false 63 62 (.imm 0x80000001))
    ∧ decodeTableWord 64 0x00003820E0A04E14 = some (.smax true 1 2 (.reg 3))
    ∧ decodeTableWord 96 0x80000001000040002FAFCE19 = some (.smax false 63 62 (.imm 0x80000001))
    ∧ decodeTableWord 64 0x00403820E0A04F14 = some (.scmp .gt true 1 2 (.reg 3))
    ∧ decodeTableWord 96 0x80000001004040002FAFCF19 = some (.scmp .gt false 63 62 (.imm 0x80000001))
    ∧ decodeTableWord 96 0x0000008400000020E0A04415 = some (.smad 1 2 3 4)
    ∧ decodeTableWord 96 0x0000008400000020E0A05015 = some (.ssel 1 2 3 4)
    ∧ decodeTableWord 64 0x0000000020A05114 = some (.smov 1 2)
    ∧ decodeTableWord 96 0x0000007F0000400020A05215 = some (.sbfx false 1 2 63 1)
    ∧ decodeTableWord 96 0x000010000000380020A05215 = some (.sbfx true 1 2 0 64)
    ∧ decodeTableWord 64 0x0000000020A05314 = some (.spopc 1 2)
    ∧ decodeTableWord 64 0x0000000020A05414 = some (.sclz 1 2)
    ∧ decodeTableWord 96 0xFFFFFFF000300020E0A05515 = some (.saddr 1 2 3 3 (-16))
    ∧ decodeTableWord 128 0x8123456789ABCDEF000000000020401E = some (.sli 1 0x8123456789ABCDEF) := by
  decide +kernel

theorem test_decode_integers :
    decodeTableWord 64 0x0000288141010020 = some (.vadd ⟨⟨false, 2⟩, .s32, false, .rn, 0, 4, .vec 4, .vec 5⟩)
    ∧ decodeTableWord 64 0x020014E141810120 = some (.vsub ⟨⟨true, 3⟩, .n8, true, .rn, 0, 4, .vec 6, .sca 5⟩)
    ∧ decodeTableWord 96 0xFFFFFFFE000010002FC10121 = some (.vsub ⟨⟨false, 0⟩, .n8, false, .rn, 0, 4, .sca 63, .imm 0xFFFFFFFE⟩)
    ∧ decodeTableWord 64 0x02003CE141810220 = some (.vmul ⟨⟨true, 3⟩, .s64, true, .rn, 0, 4, .vec 6, .sca 5⟩)
    ∧ decodeTableWord 96 0xFFFFFFFE000038002FC10221 =
      some (.vmul ⟨⟨false, 0⟩, .s64, false, .rn, 0, 4, .sca 63, .imm 0xFFFFFFFE⟩)
    ∧ decodeTableWord 64 0x000044E141810320 = some (.vmulh ⟨⟨true, 3⟩, .n64, false, .rn, 0, 4, .vec 6, .sca 5⟩)
    ∧ decodeTableWord 96 0xFFFFFFFE000040002FC10321 =
      some (.vmulh ⟨⟨false, 0⟩, .n64, false, .rn, 0, 4, .sca 63, .imm 0xFFFFFFFE⟩)
    ∧ decodeTableWord 96 0x000000890200184201810421 = some (.vmad ⟨⟨false, 1⟩, .s16, true, .rn, 4, .vec 6, .vec 8, .sca 9⟩)
    ∧ decodeTableWord 128 0x000000000000C5C800003001C1810522 = some (.vaddc ⟨⟨false, 0⟩, 4, 5, .vec 6, .vec 7, 8⟩)
    ∧ decodeTableWord 128 0x000000000000CFC100003461C1810622 = some (.vsubb ⟨⟨true, 1⟩, 4, 15, .vec 6, .sca 7, 1⟩)
    ∧ decodeTableWord 64 0x000024E141810720 = some (.vmin ⟨⟨true, 3⟩, .n16, false, .rn, 0, 4, .vec 6, .sca 5⟩)
    ∧ decodeTableWord 96 0xFFFFFFFE000020002FC10721 =
      some (.vmin ⟨⟨false, 0⟩, .n16, false, .rn, 0, 4, .sca 63, .imm 0xFFFFFFFE⟩)
    ∧ decodeTableWord 64 0x00002CE141810820 = some (.vmax ⟨⟨true, 3⟩, .s32, false, .rn, 0, 4, .vec 6, .sca 5⟩)
    ∧ decodeTableWord 96 0xFFFFFFFE000028002FC10821 =
      some (.vmax ⟨⟨false, 0⟩, .s32, false, .rn, 0, 4, .sca 63, .imm 0xFFFFFFFE⟩)
    ∧ decodeTableWord 64 0x02003BC01F810920 = some (.vabs ⟨⟨false, 15⟩, .s64, true, .rn, 0, 4, .vec 126⟩)
    ∧ decodeTableWord 64 0x02000BC01F810A20 = some (.vneg ⟨⟨false, 15⟩, .s8, true, .rn, 0, 4, .vec 126⟩)
    ∧ decodeTableWord 64 0x00003CE141810B20 = some (.vsat ⟨⟨true, 3⟩, .s64, false, .rn, 0, 4, .vec 6, .sca 5⟩)
    ∧ decodeTableWord 96 0xFFFFFFFE000038002FC10B21 =
      some (.vsat ⟨⟨false, 0⟩, .s64, false, .rn, 0, 4, .sca 63, .imm 0xFFFFFFFE⟩)
    ∧ decodeTableWord 96 0x000000890200104201810C21 = some (.vdot4 ⟨⟨false, 1⟩, .n8, true, .rn, 4, .vec 6, .vec 8, .sca 9⟩)
    ∧ decodeTableWord 64 0x000043C01F814D20 = some (.vclz ⟨⟨false, 15⟩, .n64, false, .rn, 0, 5, .vec 126⟩)
    ∧ decodeTableWord 64 0x000033C01F810E20 = some (.vpopc ⟨⟨false, 15⟩, .n32, false, .rn, 0, 4, .vec 126⟩) := by
  decide +kernel

theorem test_decode_bits :
    decodeTableWord 64 0x00008CE141810024 = some (.vand ⟨⟨true, 3⟩, .b32, false, .rn, 0, 4, .vec 6, .sca 5⟩)
    ∧ decodeTableWord 96 0xFFFFFFFE000088002FC10025 =
      some (.vand ⟨⟨false, 0⟩, .b32, false, .rn, 0, 4, .sca 63, .imm 0xFFFFFFFE⟩)
    ∧ decodeTableWord 64 0x000044E141810124 = some (.vor ⟨⟨true, 3⟩, .n64, false, .rn, 0, 4, .vec 6, .sca 5⟩)
    ∧ decodeTableWord 96 0xFFFFFFFE000040002FC10125 = some (.vor ⟨⟨false, 0⟩, .n64, false, .rn, 0, 4, .sca 63, .imm 0xFFFFFFFE⟩)
    ∧ decodeTableWord 64 0x00008CE141810224 = some (.vxor ⟨⟨true, 3⟩, .b32, false, .rn, 0, 4, .vec 6, .sca 5⟩)
    ∧ decodeTableWord 96 0xFFFFFFFE000088002FC10225 =
      some (.vxor ⟨⟨false, 0⟩, .b32, false, .rn, 0, 4, .sca 63, .imm 0xFFFFFFFE⟩)
    ∧ decodeTableWord 64 0x000043C01F810324 = some (.vnot ⟨⟨false, 15⟩, .n64, false, .rn, 0, 4, .vec 126⟩)
    ∧ decodeTableWord 64 0x000044E141810424 = some (.vshl ⟨⟨true, 3⟩, .n64, false, .rn, 0, 4, .vec 6, .sca 5⟩)
    ∧ decodeTableWord 96 0xFFFFFFFE000040002FC10425 =
      some (.vshl ⟨⟨false, 0⟩, .n64, false, .rn, 0, 4, .sca 63, .imm 0xFFFFFFFE⟩)
    ∧ decodeTableWord 64 0x00008CE141810524 = some (.vshr ⟨⟨true, 3⟩, .b32, false, .rn, 0, 4, .vec 6, .sca 5⟩)
    ∧ decodeTableWord 96 0xFFFFFFFE000088002FC10525 =
      some (.vshr ⟨⟨false, 0⟩, .b32, false, .rn, 0, 4, .sca 63, .imm 0xFFFFFFFE⟩)
    ∧ decodeTableWord 64 0x000044E141810624 = some (.vsra ⟨⟨true, 3⟩, .n64, false, .rn, 0, 4, .vec 6, .sca 5⟩)
    ∧ decodeTableWord 96 0xFFFFFFFE000040002FC10625 =
      some (.vsra ⟨⟨false, 0⟩, .n64, false, .rn, 0, 4, .sca 63, .imm 0xFFFFFFFE⟩)
    ∧ decodeTableWord 96 0x0000005F0000280000804725 = some (.vbfx ⟨⟨false, 0⟩, .s32, 1, .vec 2, 31, 1⟩)
    ∧ decodeTableWord 96 0x000008000000888000804825 = some (.vbfi ⟨⟨false, 2⟩, .b32, 1, .vec 2, 0, 32⟩)
    ∧ decodeTableWord 96 0x000000C000008800C0804029 = some (.vsel ⟨false, 0⟩ .b32 1 (.vec 2) (.vec 3) 0)
    ∧ decodeTableWord 64 0x00301800C0B04128 = some (.vcmp ⟨⟨false, 0⟩, .s16, .le, 1, .vec 2, .vec 3⟩)
    ∧ decodeTableWord 96 0x000000090010410000B3C129 = some (.vcmp ⟨⟨false, 4⟩, .n64, .ne, 15, .vec 2, .imm 9⟩)
    ∧ decodeTableWord 64 0x00008BC01F810228 = some (.vmov ⟨⟨false, 15⟩, .b32, false, .rn, 0, 4, .vec 126⟩)
    ∧ decodeTableWord 96 0x3F8000000000880000004329 = some (.vli ⟨false, 0⟩ 1 0x3F800000)
    ∧ decodeTableWord 64 0x00004007C0A0C428 = some (.vmovs .n64 3 (.vec 2) 31) := by
  decide +kernel

theorem test_decode_floats :
    decodeTableWord 64 0x00805C8141010030 = some (.fadd ⟨⟨true, 2⟩, .f32, false, .rz, 0, 4, .vec 4, .vec 5⟩)
    ∧ decodeTableWord 96 0x000000020000580040400331 = some (.ffma ⟨⟨false, 0⟩, .f32, false, .rn, 0, .vec 1, .vec 1, .vec 2⟩)
    ∧ decodeTableWord 64 0x01004CE141810130 = some (.fsub ⟨⟨true, 3⟩, .f16, false, .ru, 0, 4, .vec 6, .sca 5⟩)
    ∧ decodeTableWord 96 0xFFFFFFFE000048002FC10131 =
      some (.fsub ⟨⟨false, 0⟩, .f16, false, .rn, 0, 4, .sca 63, .imm 0xFFFFFFFE⟩)
    ∧ decodeTableWord 64 0x018064E141810230 = some (.fmul ⟨⟨true, 3⟩, .f64, false, .rd, 0, 4, .vec 6, .sca 5⟩)
    ∧ decodeTableWord 96 0xFFFFFFFE000060002FC10231 =
      some (.fmul ⟨⟨false, 0⟩, .f64, false, .rn, 0, 4, .sca 63, .imm 0xFFFFFFFE⟩)
    ∧ decodeTableWord 96 0x000000890180504201810331 = some (.ffma ⟨⟨false, 1⟩, .bf16, false, .rd, 4, .vec 6, .vec 8, .sca 9⟩)
    ∧ decodeTableWord 64 0x000054E141810430 = some (.fmin ⟨⟨true, 3⟩, .bf16, false, .rn, 0, 4, .vec 6, .sca 5⟩)
    ∧ decodeTableWord 96 0xFFFFFFFE000050002FC10431 =
      some (.fmin ⟨⟨false, 0⟩, .bf16, false, .rn, 0, 4, .sca 63, .imm 0xFFFFFFFE⟩)
    ∧ decodeTableWord 64 0x00005CE141810530 = some (.fmax ⟨⟨true, 3⟩, .f32, false, .rn, 0, 4, .vec 6, .sca 5⟩)
    ∧ decodeTableWord 96 0xFFFFFFFE000058002FC10531 =
      some (.fmax ⟨⟨false, 0⟩, .f32, false, .rn, 0, 4, .sca 63, .imm 0xFFFFFFFE⟩)
    ∧ decodeTableWord 64 0x00004BC01F810034 = some (.fabs ⟨⟨false, 15⟩, .f16, false, .rn, 0, 4, .vec 126⟩)
    ∧ decodeTableWord 64 0x000063C01F810134 = some (.fneg ⟨⟨false, 15⟩, .f64, false, .rn, 0, 4, .vec 126⟩)
    ∧ decodeTableWord 64 0x000063C01F814234 = some (.fclass ⟨⟨false, 15⟩, .f64, false, .rn, 0, 5, .vec 126⟩)
    ∧ decodeTableWord 64 0x000053C01F810334 = some (.ffloor ⟨⟨false, 15⟩, .bf16, false, .rn, 0, 4, .vec 126⟩)
    ∧ decodeTableWord 64 0x00805BC01F810434 = some (.frint ⟨⟨false, 15⟩, .f32, false, .rz, 0, 4, .vec 126⟩)
    ∧ decodeTableWord 64 0x00805CE141810534 = some (.fscale ⟨⟨true, 3⟩, .f32, false, .rz, 0, 4, .vec 6, .sca 5⟩)
    ∧ decodeTableWord 96 0xFFFFFFFE000058002FC10535 =
      some (.fscale ⟨⟨false, 0⟩, .f32, false, .rn, 0, 4, .sca 63, .imm 0xFFFFFFFE⟩)
    ∧ decodeTableWord 64 0x0000600100B04038 = some (.fcmp ⟨⟨false, 0⟩, .f64, .eq, 1, .vec 2, .vec 4⟩)
    ∧ decodeTableWord 96 0x000000010050580000B04039 = some (.fcmp ⟨⟨false, 0⟩, .f32, .ge, 1, .vec 2, .imm 1⟩)
    ∧ decodeTableWord 64 0x2C00084000804040 = some (.cvt ⟨false, 1⟩ .s8 .f32 false 1 (.vec 2))
    ∧ decodeTableWord 64 0x1E00100000804040 = some (.cvt ⟨false, 0⟩ .n8 .s64 true 1 (.vec 2))
    ∧ decodeTableWord 64 0x00007001C0804140 = some (.pack .t6 1 (.vec 2) 7)
    ∧ decodeTableWord 64 0x00008001C0804240 = some (.unpack .s4 1 (.vec 2) 7)
    ∧ decodeTableWord 64 0x0000680000A04340 = some (.ctag .t8 1 (.vec 2))
    ∧ decodeTableWord 64 0x000F5800C0804044 = some (.fdiv ⟨⟨false, 0⟩, .f32, false, .rn, 15, 1, .vec 2, .vec 3⟩)
    ∧ decodeTableWord 64 0x00014BC01F810144 = some (.fsqrt ⟨⟨false, 15⟩, .f16, false, .rn, 1, 4, .vec 126⟩)
    ∧ decodeTableWord 64 0x000253C01F810244 = some (.frcp ⟨⟨false, 15⟩, .bf16, false, .rn, 2, 4, .vec 126⟩)
    ∧ decodeTableWord 64 0x00035BC01F810344 = some (.frsq ⟨⟨false, 15⟩, .f32, false, .rn, 3, 4, .vec 126⟩)
    ∧ decodeTableWord 64 0x000463C01F810444 = some (.fexp2 ⟨⟨false, 15⟩, .f64, false, .rn, 4, 4, .vec 126⟩)
    ∧ decodeTableWord 64 0x00055BC01F810544 = some (.flog2 ⟨⟨false, 15⟩, .f32, false, .rn, 5, 4, .vec 126⟩) := by
  decide +kernel

theorem test_decode_planes :
    decodeTableWord 96 0x000000000000000000344049 = some (.foldset 1 0)
    ∧ decodeTableWord 64 0x01C3003581410148 = some (.refold .none 3 4 5 6 7)
    ∧ decodeTableWord 96 0xFFFFFFFF0020583581410249 = some (.pshift ⟨.f32, 0, .z, 4, 5, 6, -1⟩)
    ∧ decodeTableWord 96 0x000000030011003581410349 = some (.prot ⟨.none, 1, .y, 4, 5, 6, 3⟩)
    ∧ decodeTableWord 64 0x0030003581410448 = some (.pspread ⟨.none, 0, .w, 4, 5, 6⟩)
    ∧ decodeTableWord 64 0x0100003581410548 = some (.pfold ⟨.none, 0, .x, 4, 5, 6⟩ .or)
    ∧ decodeTableWord 64 0x1280203581410648 = some (.pscan ⟨.n16, 0, .x, 4, 5, 6⟩ .max 9)
    ∧ decodeTableWord 64 0xFE10003581410748 = some (.pgath ⟨.none, 0, .y, 4, 5, 6⟩ 127)
    ∧ decodeTableWord 64 0x0002003581410848 = some (.ptrans .none 2 4 5 6) := by
  decide +kernel

theorem test_decode_waves :
    decodeTableWord 64 0x0080280140E24050 = some (.vote ⟨false, 0⟩ .add .s32 9 (.vec 3) none (some 5))
    ∧ decodeTableWord 64 0xFF408C8020E24050 = some (.vote ⟨true, 2⟩ .or .b32 9 (.sca 3) (some 127) none)
    ∧ decodeTableWord 64 0x0000003FC0224150 = some (.regroup 9 255) := by
  decide +kernel

theorem test_decode_memory :
    decodeTableWord 64 0x01B45800A0420054 = some (.ld ⟨false, 0⟩ 4 .f32 ⟨.acq, .dev, false⟩ 8 ⟨1, .vec 2, 3, none⟩)
    ∧ decodeTableWord 96 0xFFFFFFFC04C0446020020055 =
      some (.ld ⟨true, 1⟩ 0 .n64 ⟨.none, .sys, true⟩ 8 ⟨0, .sca 0, 0, some (-4)⟩)
    ∧ decodeTableWord 64 0x02401020A0620154 = some (.st ⟨false, 0⟩ .n8 ⟨.rel, .core, false⟩ ⟨1, .sca 2, 0, none⟩ (.sca 8))
    ∧ decodeTableWord 128 0x00000000000000890AE02800A0420156 =
      some (.stCnt ⟨false, 0⟩ .s32 .rel .sys ⟨1, .vec 2, 2, none⟩ (.vec 8) 9)
    ∧ decodeTableWord 96 0x0000000C001F0820A061C255 = some (.ldc 15 .s8 ⟨.none, .blk, false⟩ 7 ⟨1, .sca 2, 1, some 12⟩)
    ∧ decodeTableWord 64 0x002000C0A0400354 = some (.pref ⟨false, 3⟩ ⟨1, .vec 2, 2, none⟩)
    ∧ decodeTableWord 64 0x00111800A0420058 = some (.lds ⟨false, 0⟩ 1 .s16 8 ⟨1, .vec 2, 1, none⟩)
    ∧ decodeTableWord 96 0x0000000800306000A0420159 = some (.sts ⟨false, 0⟩ .f64 ⟨1, .vec 2, 3, some 8⟩ (.vec 8))
    ∧ decodeTableWord 96 0x000000100002003560420259 = some (.pld 2 .none 8 1 (some 16) 5)
    ∧ decodeTableWord 64 0x0000183560420358 = some (.pst .s16 1 none 8 5)
    ∧ decodeTableWord 64 0x02A05800A0420060 = some (.atom ⟨false, 0⟩ 0 .add .f32 .rel .dev ⟨1, .vec 2, 2, none⟩ (.noRet 8))
    ∧ decodeTableWord 96 0x0000000963E38800A0420061 =
      some (.atom ⟨false, 0⟩ 3 .exch .b32 .ar .sys ⟨1, .vec 2, 2, none⟩ (.ret (some 8) 9))
    ∧ decodeTableWord 96 0x000000092000302020600061 =
      some (.atom ⟨false, 0⟩ 0 .max .n32 .none .blk ⟨1, .sca 0, 0, none⟩ (.ret none 9))
    ∧ decodeTableWord 128 0x000000000000C40A70304000A0420162 =
      some (.atoms ⟨false, 0⟩ 0 .cas .n64 ⟨1, .vec 2, 3, none⟩ (.cas 8 4 10))
    ∧ decodeTableWord 64 0x13C0000000000064 = some (.fence .ar .sys true)
    ∧ decodeTableWord 64 0x1000000000000064 = some (.fence .none .blk true) := by
  decide +kernel

theorem test_decode_matrix :
    decodeTableWord 96 0x0000006000300000003FC069 = some (.mmap 3 7 0x60)
    ∧ decodeTableWord 96 0x000800004010002120E08169 = some (.mldb 1 true 2 3 4 524288)
    ∧ decodeTableWord 64 0x00600000003BC268 = some (.mzero 2 true 15)
    ∧ decodeTableWord 96 0xFFFFFFC0085000002138C369 = some (.mldz 1 true true 3 4 (-64))
    ∧ decodeTableWord 96 0x00000040000078002138C469 = some (.mstz 0 false .t4 4 64 3)
    ∧ decodeTableWord 96 0x00000040081000002138C469 = some (.mstz 1 true .none 4 64 3)
    ∧ decodeTableWord 96 0x000000080000503E7E38006D = some (.mma 0 false .bf16 0 0 1 8)
    ∧ decodeTableWord 128 0x00000100000000800050280038F8816E = some (.mscale 1 true .s32 2 3 0x80 0x100)
    ∧ decodeTableWord 64 0x061000000038C070 = some (.mcommit 1 3 12)
    ∧ decodeTableWord 64 0x00000000003BC170 = some (.mdiscard 0 15 0)
    ∧ decodeTableWord 96 0x000000881020783F3EFC4079 = some (.mcnt 2 .t4 .c1 3 4 136 1)
    ∧ decodeTableWord 64 0x001000003C7C8178 = some (.mmerge 1 .c1)
    ∧ decodeTableWord 96 0x00000000301000003CB94279 = some (.mdrain 1 3 .c2 (.tile 5))
    ∧ decodeTableWord 96 0xFFFFFFF8500000003C214279 = some (.mdrain 0 1 .c0 (.scratch 5 (-8))) := by
  decide +kernel

theorem test_decode_copies :
    decodeTableWord 96 0xFFFFFFFF4380000020E0807D = some (.cpy ⟨.ar, .dev, true, false⟩ (.linear 2 3 0xFFFFFFFF))
    ∧ decodeTableWord 128 0x00000000000000842800000020E0807E = some (.cpy ⟨.none, .blk, false, true⟩ (.tensor 2 3 4 true))
    ∧ decodeTableWord 128 0x000000000000008431402020E0A0417E = some (.gath ⟨.n16, ⟨.acq, .core, false, true⟩, true, 1, 2, 3, 4⟩)
    ∧ decodeTableWord 128 0x000000000000008442C06020E0A0427E = some (.scat ⟨.f64, ⟨.rel, .sys, true, false⟩, false, 1, 2, 3, 4⟩)
    ∧ decodeTableWord 64 0x0000000C0021437C = some (.cpyq 5 48) := by
  decide +kernel

theorem test_decode_barriers :
    decodeTableWord 64 0x0000000000000080 = some (.bar)
    ∧ decodeTableWord 64 0x0020000040000180 = some (.barn false none 1 2 none)
    ∧ decodeTableWord 64 0x3C000003E1A14180 = some (.barn true (some 5) 15 64 (some 6))
    ∧ decodeTableWord 64 0x0080000140000280 = some (.gbar .dev 5 none)
    ∧ decodeTableWord 64 0x1300003FC0000280 = some (.gbar .blk 255 (some 9))
    ∧ decodeTableWord 96 0x0000000700C0000020C00381 = some (.boinit .sys 3 7)
    ∧ decodeTableWord 64 0x0280003FE0C00480 = some (.boarr .rel .dev 3 255)
    ∧ decodeTableWord 96 0xFFFFFFFF01C0002120C00581 = some (.bowait .acq .sys 3 4 0xFFFFFFFF) := by
  decide +kernel

theorem test_decode_messages :
    decodeTableWord 96 0x0000004020000020E0A04085 = some (.xsend true 1 2 3 64)
    ∧ decodeTableWord 96 0xFFFFFFFF40000020E0A04185 = some (.xpost true 1 2 3 0xFFFFFFFF)
    ∧ decodeTableWord 64 0x0800000020A04284 = some (.xprobe true 1 2)
    ∧ decodeTableWord 64 0x0000000020A04384 = some (.xcancel 1 2)
    ∧ decodeTableWord 96 0x0000001102C00020E0800089 = some (.coll .rel .sys 2 3 17)
    ∧ decodeTableWord 96 0x0000003F0180000020800189 = some (.waitchunk .acq .dev 2 63)
    ∧ decodeTableWord 64 0x00000020E0A0408C = some (.launch 1 2 3)
    ∧ decodeTableWord 64 0x00000020E0A0418C = some (.qpush 1 2 3)
    ∧ decodeTableWord 64 0x00000020E0A0428C = some (.qpop 1 2 3) := by
  decide +kernel

theorem test_decode_contexts :
    decodeTableWord 96 0x000000100030000000250091 = some (.fork .coll 20 16)
    ∧ decodeTableWord 64 0x0000000021000190 = some (.rdv 4)
    ∧ decodeTableWord 64 0x0000000020A04094 = some (.ctxkill 1 2)
    ∧ decodeTableWord 64 0x00000020E0A04194 = some (.ctxstart 1 2 3)
    ∧ decodeTableWord 64 0x0000000020A04294 = some (.reclaim 1 2)
    ∧ decodeTableWord 64 0x0000000020A04098 = some (.patch 1 2)
    ∧ decodeTableWord 64 0x00000000000000A0 = some (.reservedEncoding 0x28 0)
    ∧ decodeTableWord 128 0x00000000000000000000000000003FFE = some (.reservedEncoding 0x3F 0x3F) := by
  decide +kernel

/-! ### States of the tests -/

/-- The issuer of the tests: slot 0 of the one wave of block 0, at an instruction of 64 bits at 0x10000, in the firmware's context; the
column store of its core has no cache way. -/
def base : State :=
  { State.reset.placeWord 64 0 with
    cur := .slot 0 0 0, ir := ⟨0, 8, 0x10000, none⟩, cores := [(0, { Core.reset with colWays := 0x55555555 })] }
/-- A state with the issuing block, its first wave, or a slot of it changed. -/
def inB (f : Block → Block) (s : State) : State := s.modBlk 0 f
def inW (f : Wave → Wave) (s : State) : State := s.modWave 0 0 f
def inS (f : Slot → Slot) (s : State) : State := s.modSlot 0 0 0 f
def inC (f : Core → Core) (s : State) : State := s.modCore 0 f
/-- Scalars and masks of the wave; the kernel's handler at 0x10100; all units ready. -/
def scal (l : Tbl Word64) : State → State := inW fun w => { w with sregs := l }
def masks (l : Tbl Word32) : State → State := inW fun w => { w with kregs := l }
def handled : State → State := inB fun b => { b with kern := { b.kern with handler := 0x10100 } }
def allReady (s : State) : State := { s with ready := (List.range 6).map fun i => (i, BitVec.allOnes 1024) }
/-- The wave split, its first slot with the upper lanes, its second with the lower. -/
def split : State → State := inW fun w =>
  { w with
    split := true, dom0 := 0xFFFF0000, dom1 := 0xFFFF, presplit := 0xFFFFFFFF,
    s0 := { w.s0 with k0 := 0xFFFF0000, emask := 0xFFFF0000, status := .run },
    s1 := { Slot.off with status := .run, k0 := 0xFFFF, emask := 0xFFFF, pc := 0x10020 } }
/-- A stream of an engine, and a state that it issues in. -/
def strm (e : Engine) (l : Tbl Word64) : Sys2Proof.Machine.Stream :=
  { eng := e, ix := 1, hix := 1, gen := 1, pc := 0x10000, sregs := l, wave := 0, status := .run, pending := [], exited := false,
    ir := ⟨0, 8, 0x10000, none⟩, expand := none, cause := 0, faultPc := 0, replay := .none, asks := [], answers := [],
    barn := none, predicted := none }
def onStream (x : Sys2Proof.Machine.Stream) (s : State) : State :=
  { inB (fun b => { b with streams := [x] }) s with cur := .stream 0 x.eng x.ix }
/-- A number's first bytes, lowest first. -/
def le (n x : Nat) : List Byte := (List.range n).map fun i => byteOf x i
/-- The cell of 0x20000, and bytes put from there on. -/
def D : Nat := 77309411328
def put (o : Nat) (l : List Byte) (s : State) : State := s.dramWrite (D + o) l
def full : State := handled (inS (fun x => { x with priv := (List.range 16).map fun i => (i + 20, 1) }) (split base))
def ovfl : State := scal [(2, 0xFFFFFFFFFFFFFFFF), (9, 0x8000000000000000)] base
def infs : State := inC (fun c => { c with slow := [(6, 0x7F800000), (8, 0xFF800000)] }) (handled (inB (fun b => { b with kern := { b.kern with fpxen := 1 } }) base))
def pendS : Sys2Proof.Machine.Stream := { strm .mat [] with pending := [1] }
def predS : Sys2Proof.Machine.Stream := { strm .mat [(1, 5), (2, 7)] with predicted := some ⟨false, .lt, true, 1, 2, false, 0x10040, 0x10008⟩ }
def callS : State := inW (fun w => { w with win := 16, runLen := 40 }) base
def retS : State := inW (fun w => { w with win := 16, runLen := 40, base := 8, wins := [0], openCalls := 1, sregs := [(3, 0x0400000000010048)] }) base
def k1 (x : Word32) : State → State := masks [(1, x)]
def deep (dw : Nat) (l : List DEntry) (s : State) : State := inW (fun w => { w with downer := dw, dstack := l }) s
def sp1 : State := k1 0xF0FF0F (split base)
def dent : List Byte := DEntry.bytes ⟨0xFFFF0000, 0xFF0000, 0x10040⟩
def memTop : State := inW (fun w => { w with downer := 0, dmem := 1, dcont := [false] }) (inB (fun b => { b with divBase := 0x20000, divLen := 1024 * 64 }) (put 0 dent (allReady sp1)))
def joining : State := inW (fun w => { w with s1 := { w.s1 with status := .join 0x10040, priv := [(4, 1), (5, 2)] }, s0 := { w.s0 with priv := [(5, 3), (6, 0)] } }) sp1
def pendTwo : State :=
  inC (fun c => { c with pend0 := [waveKey 0 1] }) (inB (fun b => { b with nwaves := 2, waves := b.waves ++ [(1, { (tget b.waves 0).getD (freshWave 0 0 0 0 0 [] []) with runBase := 64 })] }) base)
def inH (l : Tbl Word64) : State := scal l (inS (fun x => { x with inHandler := true, frame := ⟨0x10004, 0xFF, 3, 0xFFF, .again, 0⟩ }) base)
def dict (i : Nat) : State :=
  { inC (fun c => { c with icache := [(icKey ⟨0, 0⟩ 0x20000, BitVec.ofNat 256 (0x0000288141010020 * 2 ^ 128 + 0x00805C8141010030))] })
      (inB (fun b => { b with kern := { b.kern with ndict := 3, dict := 0x20000 } }) base) with
    ir := ⟨0, 8, BitVec.ofNat 57 (0x10000 + i), none⟩ }
def colw (o : Option Word64) : State := inC (fun c => { c with colChange := o, colWays := 4 }) (inB (fun b => { b with columnRight := true }) (scal [(1, 0xFFFF000000000002)] base))
def colSame : State := inC (fun c => { c with colWays := 2 }) (colw none)
def colWaits : State :=
  inB (fun b => { b with mat := { b.mat with queue0 := [⟨false, false, .bf16, 0, ⟨0, 0, 0, .bf16, false, false, 0, 0⟩, ⟨0, 0, 0, .bf16, true, true, 0, 0⟩, 1, 0, 0, 0x10000⟩] } }) (colw (some 2))
def colDirty : State := inC (fun c => { c with colWays := 0x55555554, wq := [⟨D, [7], none, false, []⟩] }) (scal [(1, 0x55555556)] (colw (some 0x55555556)))
def user : State := handled (inB (fun b => { b with priv := false }) base)
def cont6 : State := inC (fun c => { c with slow := [(6, BitVec.ofNat 1024 (mkCont .t6 []))] }) base
/-- The wave addresses 0x20000, its first and last lane under k1. -/
def addr (s : State) : State := scal [(1, 0x20000), (3, 0x20040)] (masks [(1, 0x80000001), (3, 0x4)] (allReady (inC (fun c => { c with slow := [(8, BitVec.ofNat 1024 (31 * 8 * 2 ^ 992))] }) s)))
def ad1 : MAddr := ⟨1, .vec 8, 0, none⟩
def ad0 : MAddr := ⟨1, .sca 0, 0, none⟩
def gpa (l : Nat) : Nat := 0x20000 + if l = 31 then 31 * 8 else 0
def gcell (l : Nat) : Nat := D + if l = 31 then 31 * 8 else 0
def mo0 : MOrd := ⟨.none, .blk, false⟩
def ga : State := addr base
def gst : State := allReady (onStream (strm .copy [(1, 0x20000)]) base)
def closed : State := inB (fun b => { b with isOpen := false, versBudget := 256 * 97, vers := [(3, 4)], versLines := [0] }) ga
def pin : State := scal [(1, 0x100000000100)] ga
def scr (o : Nat) (sb : Nat) : State := inB (fun b => { b with kern := { b.kern with shared := 31 * 8 + o } }) (scal [(1, BitVec.ofNat 64 sb)] ga)
def ff (n : Nat) : State := inB (fun b => { b with kern := { b.kern with fifos := 2 }, fifos := [(1, List.replicate n 5)] }) (scal [(1, 0x108000)] ga)
def flying (o : FlightOp) : State := inS (fun x => { x with flights := [⟨o, 2, 1, 0x10000⟩] }) ga
def acc0 : Access := ⟨.load, false, .s16, [⟨0, 0x20000, 0, 0⟩, ⟨31, 0x200F8, 0, 0⟩], .none, .blk, false, some 4, none, none, none, 0x10000⟩
def replaying : State := inS (fun x => { x with inHandler := true, frame := { x.frame with replay := .acc acc0 0 } }) ga
def cached : State := inC (fun c => { c with colWays := 0 }) ga
def misal : State := handled (scal [(1, 0x20001)] ga)
/-- A fold register's image (R77), from its fields. -/
def image (ty : Ty) (gx gy vx vy vz zs ix : Nat) : BitVec 128 :=
  BitVec.ofNat 128 (ty.code.toNat * 2 ^ 31 + (gx - 1) * 2 ^ 40 + (gy - 1) * 2 ^ 45 + (vx - 1) * 2 ^ 50 + (vy - 1) * 2 ^ 62 + 2 ^ 74
    + (vz - 1) * 2 ^ 76 + zs * 2 ^ 90 + ix * 2 ^ 120)
def folded (l : List (BitVec 128)) (s : State) : State := inW (fun w => { w with win := 64, runLen := 64, folds := l.zipIdx.map fun e => (e.2 + 1, e.1) }) s
def fo1 : State := folded [image .s32 4 1 6 3 2 6 3] base
def pc (ax : Axis) (la : Look) (d a : VNum) : PComp := ⟨.none, la, ax, d, a, 1⟩
def fo2 : State := { inB (fun b => { b with waves := b.waves ++ [(1, (tget b.waves 0).getD (freshWave 0 0 0 0 0 [] []))], nwaves := 2 }) fo1 with cur := .slot 0 1 0 }
def fo3 : State := handled (inW (fun w => { w with folds := [] }) fo1)
def pair (p : Option PlaneIssue) : State :=
  inB (fun b => { b with nwaves := 2, waves := b.waves ++ [(1, { (tget b.waves 0).getD (freshWave 0 0 0 0 0 [] []) with runBase := 64, plane := p, s0 := { Slot.off with status := .plane } })] }) (folded [image .s32 4 2 6 3 2 6 3] base)
def pis : PlaneIssue := ⟨[3, 4, 1, 2, 20], 1, .spread .y, 20, image .s32 4 2 6 3 2 6 3, image .s32 4 2 6 3 2 6 3, List.replicate 10 0⟩
def stp (mask src dst : Nat) : Nat := mask * 2 ^ 96 + 2 ^ 55 + src * 2 ^ 48 + dst * 2 ^ 41 + 0x7F * 2 ^ 34 + 2 ^ 33
/-- A fold record with one entry, of op 0 on axis 0 with argument 1, whose one step moves a register by one lane (R85). -/
def record : List Byte := le 16 (image .s32 4 1 4 2 2 3 0).toNat ++ le 2 1 ++ le 2 1 ++ le 12 0 ++ le 8 (2 ^ 32 + 1) ++ le 8 0 ++ le 16 (stp 0xE 0 0)
def sched : State := inB (fun b => { b with kern := { b.kern with nfold := 1, foldtab := 0x20000 } }) (folded [image .s32 4 1 4 2 2 3 0] (put 0x100 record (put 0 (le 8 0x20100) (allReady base))))
def shift1 (n : BitVec 32) : Instr := .pshift ⟨.none, 0, .x, 20, 2, 1, n⟩
def plane : State := inB (fun b => { b with kern := { b.kern with shared := 4 * 48 + 0x18 } }) (scal [(1, 0x13)] (folded [image .s32 4 1 4 2 2 3 0] base))
def uneven : State := handled (inC (fun c => { c with slow := [(8, 5 * 2 ^ 992)] }) base)
/-- A grid with one group, number 3, of the two waves of block 0. -/
def grd (x : Group) : Grid := ⟨⟨0, 0⟩, fetchKernel, 1, 1, 1, 0, 0, 0, 0, [(3, x)], 0⟩
def g0 : Group := ⟨false, [(0, 0), (0, 1)], 0, 0, [], false, false, 0, [], [], [], []⟩
def wave0 : Wave := { freshWave 0x10000 0xFFFFFFFF 0 0 16 [] [] with active := true }
/-- Block 0 with two waves, of these the second as `f` makes it; wave `v` issues. -/
def twoW (x : Group) (v : Nat) (f g : Wave → Wave) : State :=
  { inB (fun b => { b with
      nwaves := 2, kern := { b.kern with blockY := 2 },
      waves := [(0, f { wave0 with members := [(3, 0)] }), (1, g { wave0 with runBase := 32, members := [(3, 1)] })] }) base with
    grids := [(0, grd x)], cur := .slot 0 v 0 }
def two0 : State := twoW g0 0 id id
def g1 : Group := { g0 with regroup := [1] }
def regr (a b : Word32) : State :=
  twoW g1 0 (fun w => { w with s0 := { w.s0 with k0 := a } }) fun w => { w with s0 := { w.s0 with k0 := b, status := .regroup 3 5 } }
def rgA : State := regr 0xFFFFFFF0 0xFFFF
def rgB : State := regr 0xFFFFFFF9 0x8001
def closing : State := inB (fun b => { b with closing := true, interval := 6, vers := [(D, 3)], isOpen := false }) two0
def g2 : Group := { g0 with gathering := true, arrived := [0] }
def two2 : State := twoW g2 1 (fun w => { w with s0 := { w.s0 with status := .gbar 3 } }) id
def nb (x : NBar) : State := inB (fun b => { b with nbars := [(3, x)] }) two0
def nb0 : NBar := { NBar.idle true with warr := 4, count := 5, value := 9, dwave := some 2, sarr := [(.mat, 1)] }
/-- A barrier object at 0x20040. -/
def ob0 : Obj := ⟨D + 0x40, none, homeSlice 0x20040⟩
def objs (n : Nat) (l : Tbl Word64) : State := put 0x40 (le 8 n) (scal (l ++ [(5, 0x20040)]) (allReady base))
def wt (i : Nat) (t : Nat) (p : Bool) : Waiter :=
  { (⟨0, .slot 0 i 0, ⟨0, 0⟩, D + 0x40, none, some t, 0, 1, true, .dev, false⟩ : Waiter) with polling := p }
def waiting (t : Nat) (p : Bool) : State :=
  { put 0x40 (le 8 20) (scal [(5, 0x20040)] (allReady (twoW g0 0 id fun w => { w with s0 := { w.s0 with status := .obj } }))) with
    waiters := [wt 1 t p] }
def cnts : State := { objs 20 [] with cnts := [⟨.slot 0 0 0, ⟨0, 0⟩, D + 0x40, none, 9⟩, ⟨.slot 0 0 0, ⟨5, 0⟩, D + 0x40, none, 9⟩], ctxs := [(0, { Ctx.free with state := .live })] }
def late (x : State) : State := { x with clock := 256 }
def mst : Sys2Proof.Machine.Stream := strm .mat [(1, 0x10), (2, 0x20)]
/-- A matrix stream of a block with scratch, a right to the column store and two maps, whose rows and steps all read one operand. -/
def matS (ty : Ty) (f : Mat → Mat) : State :=
  inC (fun c => { c with colWays := 0x55555599, store := [(0x10F, BitVec.ofNat 8 (contTag ty)), (0x90F, BitVec.ofNat 8 (contTag ty))] })
    (inB (fun b => { b with
      mat := f { b.mat with maps := [(1, ⟨0x100, 0, 0, ty, false, false, 3, 7⟩), (2, ⟨0x900, 0, 0, ty, false, true, 4, 8⟩)] },
      columnRight := true, kern := { b.kern with shared := 0x3000, matrix := true, column := true } }) (onStream mst base))
def m0 : State := matS .s8 id
def matBad : State := inC (fun c => { c with storeBad := [0x2FFF / 64] }) m0
def mapAt (code fl : Nat) : State := inC (fun c => { c with store := cset 0 (cset 0 [] 0x10C (BitVec.ofNat 8 code)) 0x10D (BitVec.ofNat 8 fl) }) m0
def m1 : State := inB (fun b => { b with columnRight := false }) m0
def mpA (ty : Ty) : MapRec := ⟨0x100, 0, 0, ty, false, false, 3, 7⟩
def mpB (ty : Ty) : MapRec := ⟨0x900, 0, 0, ty, false, true, 4, 8⟩
def opOf (cnt : Bool) (ty : Ty) : MatOp := ⟨false, cnt, ty, if cnt then 1 else 2, mpA ty, mpB ty, 3, 2, 0, 0x10000⟩
def m2 : State := matS .s8 fun m => m.setQueue 1 [opOf false .s8]
def bankS (a b c r : Nat) (q : List MatOp) : State :=
  matS .t4 fun m => { m.setQueue 1 q with depth := [a, b, c], reserved := [0, r, 0], bank := [(1, [(0, [(3, 5), (63, 1)])])] }
def m3 : State := bankS 0 30 0 30 [opOf true .t4]
def m4 : State := bankS 0 30 (2 ^ 28 - 31) 0 []
def m5 : State := bankS 0 30 (2 ^ 28 - 30) 0 []
def gov (u p b : Nat) : State := { inC (fun c => { c with govWindow := 1, govUsed := u, govPrev := p, govBudget := b }) m0 with clock := 70 }
def fl (a b : Bool) : CmdFlags := ⟨.none, .blk, a, b⟩
def copyS (l : Tbl Word64) : State :=
  inB (fun b => { b with
    kern := { b.kern with shared := 0x3000 }, scratchBase := 0x400,
    sb := [⟨3, 0x100, 0x40, true, 0⟩, ⟨4, 0x800, 0x40, false, 0⟩] }) (scal l (allReady base))
def c1 : State := copyS [(1, 0x140), (2, 0x200), (3, 0x20000)]
def desc (ext str : List Nat) (o : Nat) : List Byte :=
  le 4 0x502 ++ le 4 0 ++ ext.flatMap (le 4) ++ le 16 0 ++ str.flatMap (le 8) ++ le 32 0 ++ le 12 0 ++ le 4 0 ++ le 8 0 ++ le 8 o ++ le 16 0
def dD : List Byte := desc [3, 4] [4, 16] 0x21000
def dA : List Byte := desc [6, 7] [4, 24] 0x22000
def dR : List Byte := [1, 2, 0, 0, 0, 0, 4, 3, 0, 0, 0, 0].flatMap (le 4) ++ le 16 0
def tens : State := put 0 (dD ++ dA ++ dR) (copyS [(1, 0x20000), (2, 0x20080), (3, 0x20100)])
def gat : Gather := ⟨.s32, fl true false, true, 1, 2, 3, 4⟩
def c2 (n : Nat) : State := copyS [(1, 0x140), (2, 0x20000), (3, 0x40), (4, BitVec.ofNat 64 n)]
def cmd (op : CmdOp) (f : CmdFlags) (si : Bool) (pos tot : Nat) : Cmd :=
  ⟨0, 0, .slot 0 0 0, ⟨0, 0⟩, op, f, si, pos, tot, true, 0x10000, none, false, [], [], [], []⟩
def c3 : State := { c1 with cmds := [(3, cmd (.linear 1 2 3) (fl true false) false 0 3), (4, cmd .coll (fl true false) false 0 3)] }
def run (c : Cmd) : State := { c1 with cmds := [(5, c)] }
def l1 : Cmd := cmd (.linear 0x143 0x20000 600) (fl true false) false 261 600
def l2 : Cmd := cmd (.linear 0x20000 0x140 280) (fl false true) false 256 280
def l2v : Cmd := cmd (.linear 0x100000020000 0x140 280) (fl false true) false 256 280
def l3 : Cmd := cmd (.gath 0x180 0x20000 0x40 70 2) (fl true false) true 64 70
def l4 : Cmd := cmd (.scat 0x180 0x20000 0x40 70 2) (fl true false) true 64 70
def l5 : Cmd := cmd (.linear 0x20000 0x140 280) (fl false true) false 280 280
/-- A state of package 7 with scratch for the block and these scalars. -/
def msgS (l : Tbl Word64) : State :=
  { inB (fun b => { b with kern := { b.kern with shared := 0x3000 } }) (scal l (allReady base)) with nodeId := 7, nextId := 11 }
def n1 : State := msgS [(1, 0xE00300001234), (2, 0x2FC0)]
def n2 : State := { n1 with nodeId := 8 }
def mg (n : Nat) : Msg := ⟨4, 7, 3, ⟨0, 0⟩, 0x55, 0, 0, le n 77, 0, 0, 0, 0⟩
def sn (st : Option Nat) : Send := ⟨.slot 0 0 0, 0, 5, ⟨0, 0⟩, st⟩
def post (seq : Nat) (src : Option (Nat × Nat)) (mt st : Nat) : Post := ⟨4, ⟨0, 0⟩, src, mt, 0x2FB0, true, 0, 0, st, seq, none, []⟩
def ar (n : Nat) (ps : Tbl Post) (ovf : List Msg) : State :=
  { inC (fun c => { c with posts := ps, ovf := ovf, quota := [(0, 8, 2)] }) n1 with msgs := [mg n, mg 3], sends := [(3, sn none), (4, sn none)] }
def r1 : State := ar 64 [(0, post 9 none 0x55 0), (1, post 3 (some (7, 3)) 0x55 0), (2, post 1 none 0x54 0), (3, post 1 none 0x55 1), (5, post 2 (some (7, 2)) 0x55 0)] []
def r2 (k : Nat) : State := ar 5 [(2, post 1 none 0x54 0), (3, post 1 none 0x55 1)] (List.replicate k (mg 8))
def r9 : State := { r2 2 with msgs := [{ mg 3 with dest := 1 }, mg 5] }
def r3 (q : Nat) (a : Word64) : State :=
  inC (fun c => { c with
    posts := [(0, post 2 none 0x55 0), (1, post 3 none 0x55 1), (3, post 3 none 0x55 1)], quota := [(0, q, 4)],
    postGens := [(2, 255), (1, 4)], postSeq := 44, ovf := [mg 5] }) (msgS [(1, a), (2, 0x40)])
def r4 : State := r3 4 0xE00300001234
def r5 : State := r3 3 0xE00300001234
def r6 : State := r3 3 0x400
def r7 : State := r3 3 0x401
def r3b : State := inC (fun c => { c with quota := [(0, 0, 0)], posts := [(0, post 2 none 0x55 0)] }) r4
def r6s : State := onStream (strm .msg [(1, 0x400)]) r6
/-- A receive that took a queued message at once. -/
def r10 : State := inC (fun c => { c with posts := [(1, { post 3 none 0x55 1 with gen := 5 }), (64 + 1 + 64 * 4, post 3 none 0x55 1)] }) r7
def r8 : State := r3 3 (2 ^ 41)
/-- A plan of three ranks of this package at 0x20080, the second of the plan table at 0x20000; its words at 0x200C0. -/
def prec : List Byte := le 1 1 ++ le 1 0 ++ le 1 11 ++ le 1 4 ++ le 4 256 ++ le 4 3 ++ le 4 0 ++ le 8 0x777 ++ le 8 0x200C0 ++ le 32 0
def rws : List Nat := [7 * 2 ^ 32 + 5, 7 * 2 ^ 32, 7 * 2 ^ 32 + 3]
def carg : List Byte := le 8 0x20100 ++ le 8 0x20200 ++ le 4 1 ++ le 4 0x55 ++ le 8 0
def collS : State :=
  put 0 (le 8 0 ++ le 8 0x20080 ++ le 0x70 0 ++ prec ++ rws.flatMap (le 8) ++ le 40 0 ++ carg ++ le 32 0 ++ le 8 100)
    { inB (fun b => { b with kern := { b.kern with shared := 0x3000, nplan := 2, plantab := 0x20000 } })
        (scal [(1, 0x20100), (2, 0x20140)] (allReady base)) with nodeId := 7, nextId := 11 }
def pln : Plan := planOf prec (rws.map rankOf) []
def ob1 : Obj := ⟨D + 0x140, none, homeSlice 0x20140⟩
def cdat : List Byte := le 2 0 ++ le 4 2 ++ le 4 1 ++ le 4 0 ++ le 1 0 ++ le 256 5
def cpk (abort : Nat) : Packet := ⟨7, 9, 0, 3, 1999, .contribution, 0, 0x777, 0x55 * 65536 + abort * 256 + 2, 4, cdat⟩
def crs (inc : Nat) : Packet := { cpk 0 with kind := .result, tagInc := inc }
def cl0 : Coll :=
  ⟨.slot 0 0 0, .slot 0 0 0, 0, 0, ⟨0, 0⟩, { pln with nchunk := 2 }, 0x20100, 0x20200, 1, 0x55, D + 0x140, none, .none, .dev, 0x10000, [1, 0], [], [], [], 0, 0⟩
def peer (n : Nat) : State := { collS with peersInc := [(9 * 1024, (true, n))], colls := [(4, cl0)] }
def io0 : Cmd := { l1 with op := .coll, pos := 0, total := 2 }
def inst (x : Coll) (l : List Contrib) : State := { collS with colls := [(4, x)], cmds := [(4, io0)], nextId := 12, contribs := l }
def con (node : Option (Nat × Nat)) (l : List Byte) : Contrib := ⟨0, 0x777, 0x55, node, 1, 0, l, false⟩
def two256 : List Byte := le 256 (0x3F800000 + 2 ^ 2040)
def cl3 : Coll := { cl0 with sent := [0] }
def cl4 : Coll := { cl0 with plan := { pln with nchunk := 2, ranks := [(7, 0), (7, 5), (7, 3)] }, rank := 0, formed := [(1, 2)] }
def sub : List Contrib := [con (some (0, 2)) (le 256 7), con (some (2, 1)) two256]
def cl5 : Coll := { cl4 with formed := [(1, 3), (1, 2)] }
def rst : List Contrib := [con none two256]
def cl6 : Coll := { cl0 with plan := { pln with nchunk := 2, op := 2 }, done := 1 }
def non : List Contrib := [con none []]
def fore : Contrib := { con none [] with planid := 0x778 }
def stop : Contrib := { con none [] with abort := true }
def chunks (c a : Nat) : State := put 0x148 (le 8 c ++ le 8 a) collS
/-- A queue with its header at 0x20100 and its ring of two entries at 0x20400. -/
def queue (kind tail head : Nat) : State :=
  put 0x100 (le 1 kind ++ le 1 0 ++ le 1 1 ++ le 5 0 ++ le 8 0x20400 ++ le 8 tail ++ le 8 head)
    { scal [(1, 0x20100), (2, 0x20000), (3, 0x20080)] (allReady base) with
      ctxs := [(0, { Ctx.free with state := .live, rcd := { CtxRec.firmware with queues := [0x20100] }, qcells := [(0x20100, D + 0x100)] })] }
def q1 : State := queue 1 5 4
def q2 : State := queue 2 (2 ^ 64 - 1) (2 ^ 64 - 2)
def q3 : State := queue 2 0 (2 ^ 64 - 2)
def q4 : State := queue 2 3 3
def q5 : State := { q1 with ctxs := q1.ctxs.map fun e => (e.1, { e.2 with withdrawn := true }) }
def st0 : Sys2Proof.Machine.Stream := { strm .copy [(1, 5)] with ix := 0, hix := 0, exited := true }
def st1 : Sys2Proof.Machine.Stream := { strm .msg [(1, 5)] with ix := 3, hix := 3, gen := 9 }
def forked (h : Word64) (m : Option Nat) : State := inB (fun b => { b with hslot := 67, streams := [st0, st1], matCtx := m }) (scal [(1, h)] (handled base))
def f1 : State := forked 0 (some 2)
def f2 : State := forked 0x90E03 (some 2)
def f3 : State := forked 0x90D00 (some 2)
def f4 : State := forked 0x90D10 (some 2)
def ctx (st : CtxState) (n : Nat) : Ctx := { Ctx.free with state := st, inc := n }
/-- A privileged block's state, with contexts in every state. -/
def ctxS (l : Tbl Word64) : State :=
  { inB (fun b => { b with priv := true }) (scal l (allReady base)) with
    ctxs := [(0, { Ctx.free with state := .live, rcd := CtxRec.firmware }), (3, ctx .live 5), (4, ctx .starting 1023), (6, ctx .killing 7),
      (7, ctx .reclaiming 8)] }
def cx (n : Word64) : State := ctxS [(1, n), (2, 0x20000)]
def ctxW (op : Nat) (x : Ctx) (clk : Nat) : State :=
  { inS (fun z => { z with status := .ctxwait 7 op 5, ir := ⟨7, 8, 0x10100, none⟩ }) (cx 7) with ctxs := [(7, x)], clock := clk }
def rc7 : Ctx := { ctx .reclaiming 5 with reclaimers := [.slot 0 0 0], tk := 5, usedLink := true }
def peerOut : State := { cx 3 with links := [(4, ⟨.slot 0 0 0, none, ⟨0, 0⟩, 9, 100, true, false, 17, 0x20048⟩)] }
def recb (fl : Nat) : List Byte := le 8 fl ++ le 8 0x5000 ++ le 48 0 ++ le 8 1 ++ le 8 0 ++ le 4 0 ++ le 4 77 ++ le 40 0
def rcS (n fl : Nat) : State := put 0 (recb fl) (cx (BitVec.ofNat 64 n))
def rcd (n fl : Nat) : CtxRec := (((rcS n fl).fenced (vw (rcS n fl))).ctxRecord 0 n (recb fl)).getD CtxRec.firmware
def mis : State := ctxS [(1, 9), (2, 0x20040)]
def st7 (l : List Nat) : Ctx := { ctx .starting 5 with starter := some (.slot 0 0 0), waitPeers := l }
/-- A second wave of the block that waits with a CTXKILL of slot 7 while slot 7 is starting. -/
def queued : State :=
  let s := ctxW 1 { st7 [] with queue := [(.slot 0 1 0, 0)] } 9
  inB (fun b => { b with waves := b.waves ++ b.waves.map fun e => (1, { e.2 with s0 := { e.2.s0 with status := .ctxwait 7 0 6 } }) }) s
def pat (tgt len z : Nat) : List Byte := le 8 tgt ++ le 8 0x20080 ++ le 4 len ++ le 12 z
def patch (tgt len z : Nat) : State :=
  put 0 (pat tgt len z)
    (inB (fun b => { b with kern := { b.kern with text := 0x21000, textLen := 0x100, dict := 0x22000, ndict := 4 } }) (ctxS [(1, 0x20000)]))
def onPatch (s : State) : State := inS (fun x => { x with pc := s.ir.pc }) s
def pt1 : State := onPatch (patch 0x210C0 64 0)
/-- Another slot whose instruction in the range waits for a peer. -/
def pt2 : State :=
  inB (fun b => { b with waves := b.waves ++ b.waves.map fun e => (1, { e.2 with s0 := { e.2.s0 with status := .reply, pc := 0x210E0 } }) }) pt1
/-- Package 7 with a context whose peers are nodes 9 and 10, of these 9 admitted. -/
def lnk : State :=
  { allReady base with
    nodeId := 7, staleDrop := 2 ^ 48 - 1, peersInc := [(9 * 1024 + 3, (true, 5)), (10 * 1024 + 3, (false, 5))],
    ctxs := [(0, { Ctx.free with state := .live, rcd := CtxRec.firmware }), (3, { ctx .live 5 with waitPeers := [9, 10] })] }
def pk (k : PKind) (ad aux : Nat) (l : List Byte) : Packet := ⟨7, 9, 3, 5, 1999, k, 0, ad, aux, 4, l⟩
def lnk0 : State := { lnk with ready := [] }
def lnkP : State := { lnk with poison := [D / 64] }
def req (lane ad : Nat) (wr : Bool) : LinkReq := ⟨.slot 0 0 0, none, ⟨3, 5⟩, 9, 100, wr, false, lane, ad⟩
def asked (e : LinkReq) (clk : Nat) : State :=
  { inS (fun x => { x with status := .reply, asks := [(4, e.lane)] }) lnk with
    links := [(3, e), (4, e)], sends := [(6, ⟨.slot 0 0 0, 0, 5, ⟨3, 5⟩, none⟩)], clock := clk }
def e1 : LinkReq := req 17 0x20048 false
def e2 : LinkReq := req 17 0x20048 true
def lateW : State := inS (fun x => { x with asks := [] }) (asked e2 7500100)
def prt (st : PortState) : Port := { Port.reset with state := st, rxSeq := 4095, credits := [1, 31, 32, 0] }
def ports (p : Port) : State := { lnk with ports := [(2, p), (3, Port.reset)], clock := 300000000 }
/-- A flit of one packet, with a checksum. -/
def flit0 : List Byte :=
  le 32 (7 * 2 ^ 237 + 9 * 2 ^ 218 + 3 * 2 ^ 208 + 5 * 2 ^ 198 + 7 * 2 ^ 186 + 2 ^ 178 + 0x20048 * 2 ^ 112 + 4 * 2 ^ 48) ++ le 216 0
    ++ le 4 (4095 * 2 ^ 20 + 1)
def flit (q : BitVec 32) : List Byte := flit0 ++ le 4 q.toNat
theorem flit_ctl (q : BitVec 32) : leNat ((flit q).drop 248) = 4095 * 2 ^ 20 + 1 + 2 ^ 32 * q.toNat := crcRead (4095 * 2 ^ 20 + 1) q (by decide)
theorem flit_crc (q : BitVec 32) : BitVec.ofNat 32 (leNat ((flit q).drop 248) / 2 ^ 32) = q := by
 rw [flit_ctl]
 have : (4095 * 2 ^ 20 + 1 + 2 ^ 32 * q.toNat) / 2 ^ 32 = q.toNat := by omega
 rw [this, BitVec.ofNat_toNat, BitVec.setWidth_eq]
theorem flit_seq (q : BitVec 32) : leNat ((flit q).drop 248) / 2 ^ 20 % 4096 = 4095 := by rw [flit_ctl]; omega
def pk1 : Packet := (pktParse (flit0.take 248)).getD (pk .read 0 0 [])
def un (st : PortState) : Port := { prt st with unacked := [⟨3, le 248 1, 9, true, 0⟩, ⟨4, le 248 2, 9, true, 0⟩], window := 297500001 }
def tr (n : Nat) : Port := { prt .training with trainStart := n, txq := [] }
def fp (n : Nat) : Port := { prt (.up 2) with flits := n, replays := 1 }
/-- A launch packet for the kernel at an address. -/
def pktS (kern sg : Nat) : List Byte :=
  le 8 kern ++ le 2 2 ++ le 2 3 ++ le 2 1 ++ le 1 32 ++ le 1 1 ++ le 8 0x77 ++ le 8 0 ++ le 8 sg ++ le 8 7 ++ le 8 100 ++ le 72 0
def pkt (kern : Nat) : List Byte := pktS kern 0
def krn : Kernel := { fetchKernel with addr := 0x20800 }
/-- A launch queue with one packet, and the firmware at work. -/
def lauS (kern sg : Nat) : State :=
  put 0x400 (pktS kern sg) (put 0x100 (le 1 1 ++ le 1 0 ++ le 1 1 ++ le 5 0 ++ le 8 0x20400 ++ le 8 5 ++ le 8 4 ++ le 8 3000)
    (put 0x800 [2] { allReady base with
      ctxs := [(0, { Ctx.free with state := .live, rcd := { CtxRec.firmware with queues := [0x20100] }, qcells := [(0x20100, D + 0x100)] })],
      fw := { base.fw with running := true },
      kernels := [(kernKey ⟨0, 0⟩ 0x20800, krn)], arrivals := [(D + 0x100, 4, 3), (5, 6, 7)], gridSeq := 9 }))
def lau (kern : Nat) : State := lauS kern 0
def w1 : State := lau 0x20800
def hdr : State × Option (List Byte) := (tookIt w1 1).sysBytes fwCore (cnd w1).tag (leNat ((w1.headPacket (cnd w1).tag (cnd w1).h).take 8)) 256
/-- A rejected packet with a SIGNAL whose home is not ready, and one whose home is. -/
def sg0 : State := { lauS 0x20801 0x20A00 with ready := (List.range 6).map fun i => (i, if i = 1 then ~~~(BitVec.ofNat 1024 (2 ^ homeSlice 0x20A00)) else BitVec.allOnes 1024) }
def sg1 : State := lauS 0x20801 0x20A00
def gr1 : Grid := packetGrid ⟨0, 0⟩ { krn with blockY := 2, regs := 24, column := true, matrix := true, shared := 0x400 } (pkt 0x20800)
def wait2 : State := { w1 with grids := [(9, gr1)], tobind := [⟨9, 4, false⟩, ⟨9, 5, false⟩] }
def gr0 : Grid := packetGrid ⟨0, 0⟩ { krn with blockY := 2, regs := 24 } (pkt 0x20800)
def wait4 : State := { wait2 with grids := [(9, gr0)] }
def brec (rst : Bool) : BindRec :=
  { fetchRec with
    grid := 9, blockId := 4, posY := 2, nwaves := 2, win := 3, slowLen := 48, slowBase := 2, scratchBase := 4, shared := 0x400, restore := rst }
def brec0 : BindRec := { brec false with slowBase := 0, nwaves := 1 }
def bind (rst : Bool) (l : List Saved) : State :=
  { wait2 with
    saves := l,
    cores := [(0, { Core.reset with recs := [(1, brec rst), (7, brec0)] }), (5, { Core.reset with recs := [(1, brec rst)], slow := [(17, 5)] })] }
def sav : Saved := ⟨9, 4, { fetchBlk 0 with blockId := 4, kern := gr1.kern, isOpen := true }, [(0, [1, 2, 3])], [(5, 3)], [], 0, 0x20000, 544, []⟩
def quitting : State := { bind false [] with quits := [5] }
def ranAt (n : Nat) (a : Bool) : State := inW (fun w => { w with runBase := n, active := a }) base
def big : Kernel := { fetchKernel with blockY := 32, regs := 250 }
/-- One run in the middle of the file, and a block at the head of those to be bound whose registers fit only after compaction. -/
def crowd : State := { ranAt 4096 false with ready := (allReady base).ready, tobind := [⟨9, 4, false⟩], grids := [(9, packetGrid ⟨0, 0⟩ big (pkt 0x20800))] }
def gr2 (n sg : Nat) : Grid := ⟨⟨0, 0⟩, fetchKernel, 2, 1, 1, 0, 0, sg, 0x1234, [], n⟩
def pend (l : List Nat) (n : Nat) : State :=
  inC (fun c => { c with pend1 := l, pend2 := [0] }) (inB (fun b => { b with
    waves := (List.range 6).map fun i => (i, { wave0 with runBase := 16 * i, part := 1, active := decide (i < n) }) }) base)
def wv5 : Wave := { wave0 with runBase := 80, part := 1, active := false }
def exits (l : Bool) : State :=
  { inB (fun b => { b with waves := [(0, { wave0 with live := l })], vers := [(D + 1, 7), (D + 72, 9)] }) base with
    grids := [(0, gr2 1 0), (3, gr2 1 0)] }
def gz (g : Grid) : State := { base with fw := { base.fw with running := true }, grids := [(4, g)] }
def gSig (a : Nat) : State := gz (gr2 2 a)
def pre (iv n : Nat) (idem : Bool) (l : Tbl Cmd) : State :=
  { inB (fun b => { b with interval := n, kern := { b.kern with intervals := iv, idempotent := idem } }) base with
    fw := { base.fw with running := true }, grids := [(0, gr2 1 0)], cmds := l }
def cm4 : Tbl Cmd := [(4, cmd (.linear 0 0 0) (fl false false) false 0 0)]
def stop1 : State := inB (fun b => { b with frozen := .watchdog }) base
/-- Tables of five levels at 0x20000, 0x21000, …, 0x24000 for context 3, and an address that they map. -/
def vaP : Nat := 2 ^ 48 + 2 * 2 ^ 39 + 3 * 2 ^ 30 + 4 * 2 ^ 21 + 5 * 2 ^ 16 + 0x1234
def tblP (k : Nat) : Nat := 0x20000 + 0x1000 * (4 - k)
def cellP (k : Nat) : Nat := (cellOf (tblP k + 8 * tableIndex vaP k)).getD 0
def entP (k : Nat) : Word64 := if k = 0 then 0x123003 else BitVec.ofNat 64 (1 + tblP (k - 1))
def ctx3 (s : State) : State :=
  { s with ctxs := [(0, { Ctx.free with state := .live, rcd := CtxRec.firmware }), (3, { ctx .live 5 with rcd := { CtxRec.firmware with priv := false, ptroot := 0x20000 } })] }
def paged : State := ctx3 ((List.range 5).foldl (fun s k => s.dramWrite (cellP k) (le 8 (entP k).toNat)) (allReady base))
def gP : XEnt := ⟨⟨3, 5⟩, none, vaP / 65536, entP 0, true⟩
def known : State := { ctx3 base with cores := (512, { Core.reset with tlb := [gP] }) :: [] }
def fe : FaultEntry := ⟨0x50000, 0x50008, ⟨0, 0⟩, 1, 2, 1, 3, false, none, [.slot 0 0 0], []⟩
def parked : State :=
  { handled (inS (fun x => { x with status := .parked 1 4, resume := 0x10040 }) (allReady base)) with
    faults := [(256 + 4, fe)], faultq := 0x20101, fw := { base.fw with running := true } }
def fullF : State := { parked with faults := (List.range 256).map fun i => (256 + i, { fe with granule := 65536 * (i + 9) }) }
def faultQ (tail : Nat) : State := put 0x100 (le 1 2 ++ le 1 0 ++ le 1 1 ++ le 5 0 ++ le 8 0x20400 ++ le 8 tail ++ le 8 4) parked
def idle : State := { parked with fw := { base.fw with running := false } }
def bw (a : Nat) (l : List Byte) (b : Bool) : VWrite := ⟨a, l, none, b, []⟩
def queued2 (b : Bool) : State := inC (fun c => { c with wq := [bw (D + 3) [1, 2, 3] b, bw (D + 4) [9, 9] true] }) base
def sl : SLine := ⟨(List.range 8).map fun i => (i, BitVec.ofNat 8 (i + 1)), 0, 1, 1⟩
def lined : State := { base with lines := [(D / 256, sl)] }
def wayOn : State := inC (fun c => { c with colWays := 0 }) (queued2 true)
def cached1 : State := inC (fun c => { c with wq := [bw (D + 3) [1, 2, 3] false] }) base
/-- A body of two words for the translator. -/
def body : List Byte :=
  le 4 3 ++ le 4 32 ++ le 4 0 ++ le 20 0 ++ toLE 16 (encode (.halt (some 5))).toNat ++ toLE 16 (encode (.exit (some 0))).toNat
def lz (st : Bool) (l : Option (List (List Byte))) : LazyReq :=
  ⟨D + 0x40, ⟨0, 0⟩, { fetchKernel with addr := 0x20800, odrax := 0x20A00, spareOff := 0x8000, sigauto := true }, 0, l, st⟩
def lzS (r : LazyReq) : State :=
  { inS (fun x => { x with status := .binding (D + 0x40) }) (allReady base) with
    lazies := [r], fw := { base.fw with running := true }, kcounts := [(kernKey ⟨0, 0⟩ 0x20800, (0, 64))] }
def lz1 : LazyReq := lz true (some [le 64 0, [], [], body, []])
def out1 : Output := ((lzS lz1).translation lz1 0x18040).getD ⟨[], []⟩
def busy : State :=
  inB (fun b => { b with waves := b.waves ++ b.waves.map fun e => (1, { e.2 with s0 := { e.2.s0 with status := .reply, pc := 0x18050 } }) }) (lzS lz1)
def outB : Output := (busy.translation lz1 0x18040).getD ⟨[], []⟩
def toOut (s : State) : State := { s with patches := [outputRun lz1] }
def wrote : State × List Byte := match (toOut (lzS lz1)).patchWrite fwCore ⟨0, 0⟩ 0x18040 out1.bytes with
  | .ok u x => (u, x)
  | _ => (base, [])
/-- A host's access across two pages, and one inside a sector. -/
def host : State := { allReady base with fw := { base.fw with running := true } }
def cellH (i : Nat) : Nat := (cellOf (0x20FFE + i)).getD 0
def cellS (i : Nat) : Nat := (cellOf (0x21004 + i)).getD 0
def lost : State := host.setFallow .vault (vaultOf (cellS 0))
def hostQ : State := { q1 with fw := { base.fw with running := true } }
def dark : State := { host with ready := [] }
def heldW : State := { dark with hostHeld := [.write 0x20000 [1, 2]] }
def bare0 : State := { State.reset with fw := { State.reset.fw with running := true }, fallow := [(0, 6)], ports := [(2, Port.reset)] }
def faulty : State := { bare0 with errs := List.replicate 3 ⟨.slice, 300, .uncorrectable, 9⟩, clock := 216000000000008 }
def spent : State := { bare0 with spareCores := [1, 0, 1, 1] }
def leaves (s : State) (n : Nat) : State := { s with quits := [n] }
def home0 : State := { inB (fun b => b) base with fw := { base.fw with running := true }, quits := [0] }
/-- A leaf of a page in the vault that the cell of 2 ^ 44 lies in. -/
def leafS : State := put 0 (le 8 (3 + 2 ^ 12 * 2 ^ 28)) (allReady base)
def upP : State := { bare0 with ports := [(2, { Port.reset with state := .up 4, dead := [0] })] }
def oneLeft : State := { bare0 with ports := [(2, { Port.reset with state := .up 1, dead := [0, 1, 3] })] }
def therm (l : List Thermal) (clk : Nat) : State := { bare0 with clock := clk, fw := { bare0.fw with thermal := l, temps := [(16, 1600)] } }
def th1 : Thermal := ⟨1, 256, false, 3⟩
/-- The machine after reset with a word placed, and once the step has taken the slot's turn. -/
def fresh (w : Nat) : State := State.reset.withFetchWord 64 w
def turn (s : State) : State := { s.tick with agenda := s.tick.agenda.tail, cur := .slot 0 0 0 }
def wAdd : Nat := 0x0000288141010020
def iAdd : Instr := .vadd ⟨⟨false, 2⟩, .s32, false, .rn, 0, 4, .vec 4, .vec 5⟩
def wBad : Nat := 0x8000288141010020
def half : State := inS (fun x => { x with expand := some (BitVec.ofNat 128 wAdd, true) }) (fresh 0)
def freshS (x : Sys2Proof.Machine.Stream) : State := { inB (fun b => { b with streams := [x] }) (fresh wAdd) with agenda := [.issue (.stream 0 .msg 1), .elapse 1] }
def turnS (s : State) : State := { s.tick with agenda := s.tick.agenda.tail, cur := .stream 0 .msg 1 }
def sm : Sys2Proof.Machine.Stream := strm .msg []
def sm2 : Sys2Proof.Machine.Stream := { sm with expand := some (BitVec.ofNat 128 wAdd, false) }
def calmed (x : Sys2Proof.Machine.Stream) : State := (turnS (freshS x)).modStream 0 .msg 1 fun z => { z with replay := .none }
def icached : State := inC (fun c => { c with icache := [(icKey ⟨0, 0⟩ 0x10020, 7)] }) base
/-- A plain tensor of a type, with its extents, strides and address. -/
def ten (ty : Ty) (ext : List Nat) (str : List Int) (b : Nat) : Tensor :=
  ⟨ext.length, ty, false, none, ext ++ List.replicate (6 - ext.length) 0, str ++ List.replicate (6 - ext.length) 0, List.replicate 6 0, b⟩
/-- Operands of 2 by 2: bytes at 0x20100 and 0x20140, words at 0x20000, f32 vectors at 0x20180 and 0x201C0. -/
def tA : Tensor := ten .s8 [2, 2] [1, 2] 0x20100
def tB : Tensor := ten .s8 [2, 2] [1, 2] 0x20140
def tD : Tensor := ten .s32 [2, 2] [4, 8] 0x20000
def tF : Tensor := ten .f32 [2, 2] [4, 8] 0x20000
def tE : Tensor := ten .f32 [2] [4] 0x20180
def tC : Tensor := ten .f32 [2] [4] 0x201C0
def jobS (j : TileJob) (pos tot : Nat) : State :=
  { put 0x100 [1, 2, 3, 252] (put 0x140 [5, 250, 7, 8] (copyS [])) with cmds := [(5, cmd (.tile j) (fl false false) false pos tot)] }
def jc (j : TileJob) (pos tot : Nat) : Cmd := cmd (.tile j) (fl false false) false pos tot
def j1 : TileJob := ⟨.product, .s8, 0, tD, tA, some tB, none, none, 0⟩
def s1 : State := jobS j1 2 4
def byA (k : Nat) : Nat := ([3, 252][k]?).getD 0
def byB (k : Nat) : Nat := ([5, 7][k]?).getD 0
def j2 : TileJob := ⟨.counted, .s8, 0, tF, tA, some tB, none, some ⟨[none, some 0, some 1], [3, 5], -2⟩, 0⟩
def s2 : State := jobS j2 2 4
def j3 : TileJob := ⟨.scale, .s8, 0, tF, tA, some tE, some tC, none, 0⟩
def s3 : State := jobS j3 3 4
def tR : Tensor := ten .s8 [2, 1] [1, 2] 0x20000
def j4 : TileJob := ⟨.reduce .max, .s8, 1, tR, tA, none, none, none, 0⟩
def s4 : State := jobS j4 1 2
def j5 : TileJob := ⟨.elemIn, .s8, 0, tR, tA, none, none, none, 0⟩
def s5 : State := jobS j5 6 64
def tO : Tensor := ten .s32 [40] [4] 0x20000
def j6 : TileJob := ⟨.elemOut, .s32, 0, tO, tO, none, none, none, 32⟩
def s6 : State := jobS j6 3 8
/-- Translated code of a product at the slot's PC, its operands' descriptors at 0x20400, 0x20480 and 0x20500. -/
def prod : TileRec := ⟨2, .s8, 0, 0, 0x20, 0x28, 0x30, 0, 0⟩
def mat2 (ty : Nat) (str : List Nat) (o : Nat) : List Byte :=
  le 4 (2 + 256 * ty) ++ le 4 0 ++ [2, 2, 0, 0, 0, 0].flatMap (le 4) ++ (str ++ [0, 0, 0, 0]).flatMap (le 8) ++ le 24 0 ++ le 8 o ++ le 16 0
def cD : List Byte := mat2 5 [4, 8] 0x20800
def cA : List Byte := mat2 1 [1, 2] 0x20900
def cB : List Byte := mat2 1 [1, 2] 0x20A00
def code : TileCode := ⟨⟨0, 0⟩, 0x10000, 64, .op prod⟩
def tiled (pc : Pc) (l : Tbl Cmd) : State :=
  put 0x220 (le 8 0x20400 ++ le 8 0x20480 ++ le 8 0x20500) (put 0x400 (cD ++ cA ++ cB)
    { inS (fun x => { x with pc := pc }) (scal [(1, 0x20200)] (allReady (fresh 0))) with cores := base.cores, tiles := [code], cmds := l })
def t1 : State := tiled 0x10000 []
def opc : Cmd := { jc j1 2 4 with pc := 0x10000 }
def t2 : State := tiled 0x10008 [(5, opc)]
def t3 : State := tiled 0x10008 []
def begun (s : State) : State := { s.tick with agenda := s.tick.agenda.tail, cur := .slot 0 0 0, ir := ⟨0, 8, (vwOf s 0 0 0).sl.pc, none⟩ }
def u1 : State := begun t1
def u2 : State := begun t2
def u3 : State := begun t3
/-- A loop record of a VADD, and the bodies of a function at each level. -/
def rec0 : List Byte := le 16 wAdd
def lrec0 : LRec := ⟨0, 1, .ins iAdd (BitVec.ofNat 128 wAdd) [0, 0, 0, 0]⟩
def hdrOf (lvl n nv : Nat) : List Byte := le 4 lvl ++ le 4 n ++ le 4 0 ++ le 4 nv ++ le 16 0
/-- A tile body of one collective. -/
def tileB : List Byte := hdrOf 1 1 0 ++ le 8 7 ++ le 4 0x20 ++ le 4 0x28 ++ le 8 0 ++ le 4 0x777 ++ le 4 0
def loopB : List Byte := hdrOf 2 1 8 ++ rec0
def env0 : RelocEnv := ⟨{ fetchKernel with sigauto := true }, [], []⟩
def env1 : RelocEnv := { env0 with plans := [(0x777, 4)] }
def at3 : List Byte := (translateScalar env0 0x18040 body).getD []
def asOk (x : Except NoCode Output) : Nat × Output :=
  match x with
  | .ok o => (0, o)
  | .error .absent => (1, ⟨[], []⟩)
  | .error .failed => (2, ⟨[], []⟩)
theorem madeOk {x : Except NoCode Output} (h : (asOk x).1 = 0 := by decide +kernel) : x = .ok (asOk x).2 := by
  cases x with
  | ok o => rfl
  | error e => cases e <;> cases h
theorem madeNone {x : Except NoCode Output} (h : (asOk x).1 = 1 := by decide +kernel) : x = .error .absent := by
  cases x with
  | ok o => cases h
  | error e => cases e with
    | absent => rfl
    | failed => cases h
def mP : Tbl Nat := (placesOf 16 [(9, 0, 3)] [lrec0]).getD []
def runBoth : State := split (fresh wAdd)
def resting : State := { runBoth with agenda := [] }
def waitS : State := inC (fun c => { c with pend1 := [5] }) base

/-! ### The spec's worked examples, one step each -/

/-- A number read from the state that an instruction leaves. -/
def left (i : Instr) (s : State) (f : State → Nat) : Option Nat :=
  match exec i s with
  | .next t => some (f t)
  | _ => none

/-- A slot's scalar, its k0, and a lane of a vector register of the issuer's. -/
def sAt (w : Nat) (n : SReg) (t : State) : Nat := (t.sread (.slot 0 w 0) n).toNat
def kAt (w : Nat) (t : State) : Nat := (vwOf t 0 w 0).sl.k0.toNat
def lAt (n l : Nat) (t : State) : Nat := (lane (t.vread 0 (vwOf t 0 0 0).w n) l).toNat

/-- R134: the signatures of SREAD s6, WAVEID; VADD.s32 v4, v4, v5; EXIT, from a kernel's entry. -/
theorem test_signature : signFold 0 0x021000000021880C 0xF 0xF = 0x0000880C ∧ signFold 0x0000880C 0x0000280141010020 0xF 0xF = 0x001101A0
    ∧ signFold 0x001101A0 0x20300A0000000000000000000000040A 0xF 0xF = 0x0220300A := by decide

/-- R151: CALL with W 24 from a window of 48 registers at 0x10040, in its 96-bit form. -/
def caller : State := { inW (fun w => { w with win := 48, runLen := 64 }) base with ir := ⟨0, 12, 0x10040, none⟩ }
theorem test_call_link : left (.call 63 3 (.off 24) none) caller (sAt 0 63) = some 0x0C0000000001004C := by decide +kernel
theorem test_call_base : left (.call 63 3 (.off 24) none) caller (fun t => (vwOf t 0 0 0).w.base) = some 40 := by decide +kernel

/-- R214: lanes 0, 1 and 2 add 1, 2 and 3 to one word that holds 10. -/
def adders : State :=
  put 0 (le 4 10) (scal [(1, 0x20000)] (masks [(1, 7)] (allReady (inC (fun c => { c with slow := [(9, 0x000000030000000200000001)] }) base))))
def adder : Instr := .atom ⟨false, 1⟩ 0 .add .n32 .none .blk ⟨1, .sca 0, 0, none⟩ (.ret (some 4) 9)
theorem test_atom_olds : left adder adders (lAt 4 0) = some 10 ∧ left adder adders (lAt 4 1) = some 11 ∧ left adder adders (lAt 4 2) = some 13 := by
  decide +kernel
theorem test_atom_memory : left adder adders (fun t => numberAt t.dramByte D 4) = some 16 := by decide +kernel

/-- R202: waves 0 and 1 with k0 0xFF and 0x0F0F. -/
def regrouping : State := regr 0xFF 0xF0F
theorem test_regroup : left (.regroup 9 3) regrouping (sAt 0 9) = some 0x800000010000FF00 ∧ left (.regroup 9 3) regrouping (kAt 0) = some 0xFFFF := by
  decide +kernel

/-! ### The premises of every statement are met -/

theorem premises_ScalarResult :
    (∃ (s : State) (i : Instr) (d : SReg) (x : Int), s.HasIssuer ∧ s.Room 0 ∧ scalarRule s i = some (d, x) ∧ s.scalarOver d =
      false)
    ∧ (∃ (s : State) (v : View) (i : Instr) (d : SReg) (x : Int), s.Slotted v ∧ v.Handles ∧ scalarRule s i = some (d, x) ∧
      v.w.split = true ∧ d ≠ 0 ∧ tget v.sl.priv d.toNat = none ∧ 16 ≤ v.sl.priv.length)
    ∧ (∃ (s : State) (v : View) (i : Instr) (d : SReg) (x : Int), s.Slotted v ∧ s.Room 0 ∧ scalarRule s i = some (d, x) ∧
      v.w.split = true ∧ v.k < 2 ∧ v.sl.priv.length < 16)
    ∧ (∃ (s : State) (i : Instr) (sgn : Bool) (d a : SReg) (b : SSrc), s.HasIssuer ∧ s.Room 0 ∧ s.scalarOver d = false ∧
      s.scalarB b ≠ 0 ∧ (i = .sdiv sgn d a b ∨ i = .srem sgn d a b)) :=
  ⟨⟨scal [(1, 5), (2, 0xFFFFFFFFFFFFFFFF)] base, .sadd 0 1 (.reg 2), _, _, issuer, room, rfl, d⟩,
   ⟨full, vw full, .sadd 4 1 (.imm 3), _, _, slotted, handles, rfl, d, d, d, d⟩,
   ⟨split base, vw (split base), .sadd 4 1 (.reg 3), _, _, slotted, room, rfl, d, d, d⟩,
   ⟨scal [(1, 5), (2, 0xFFFFFFFFFFFFFFFF)] base, .sdiv true 4 2 (.reg 1), true, 4, 2, .reg 1, issuer, room, d, d, (.inl rfl)⟩⟩

theorem premises_DivisionTraps :
    (∃ (s : State) (v : View) (i : Instr) (sgn : Bool) (d a : SReg) (b : SSrc), s.Slotted v ∧ v.Handles ∧ s.scalarB b = 0 ∧ (i
      = .sdiv sgn d a b ∨ i = .srem sgn d a b))
    ∧ (∃ (s : State) (d a : SReg) (b : SSrc), s.HasIssuer ∧ s.Room 0 ∧ s.scalarOver d = false ∧ d ≠ 0 ∧ s.sread s.cur a =
      BitVec.intMin 64 ∧ s.scalarB b = BitVec.allOnes 64)
    ∧ (∃ (s : State) (i : Instr) (d : SReg) (x : Int), s.HasIssuer ∧ s.Room 0 ∧ scalarRule s i = some (d, x) ∧ s.scalarOver d =
      false) :=
  ⟨⟨handled base, vw (handled base), .srem true 4 1 (.imm 0), true, 4, 1, .imm 0, slotted, handles, d, d⟩,
   ⟨ovfl, 4, 9, .reg 2, issuer, room, d, d, d, d⟩,
   ⟨base, .sadd 4 1 (.reg 3), _, _, issuer, room, rfl, d⟩⟩

theorem premises_MaskResult :
    (∃ (s : State) (v : View) (i : Instr) (d : KNum) (x : Word32), s.Slotted v ∧ s.Room 0 ∧ maskRule s v i = some (d, x) ∧ d ≠
      0)
    ∧ (∃ (s : State) (v : View) (i : Instr) (x : Word32), s.Slotted v ∧ s.Room 0 ∧ maskRule s v i = some (0, x))
    ∧ (∃ (s : State) (v : View) (a : VNum), s.Slotted v ∧ s.Room 0 ∧ v.InWindow [a.toNat])
    ∧ (∃ (s : State) (v : View) (i : Instr) (d : SReg) (x : Int), s.Slotted v ∧ s.Room 0 ∧ i.wf = true ∧ gatherRule s v i = some
      (d, x) ∧ s.scalarOver d = false ∧ (∀ ty a n, i = .vmovs ty d a n → v.InWindow (vsrcRegs a))) :=
  ⟨⟨masks [(1, 0xF0F0), (2, 0xFF)] (split base), vw (masks [(1, 0xF0F0), (2, 0xFF)] (split base)), .kand 15 1 2, _, _,
    slotted, room, rfl, d⟩,
   ⟨base, vw base, .knot 0 1, _, slotted, room, rfl⟩,
   ⟨base, vw base, 15, slotted, room, inWin⟩,
   ⟨base, vw base, .kpop 3 0, _, _, slotted, room, d, rfl, d, (fun _ _ _ h => nomatch h)⟩⟩

theorem premises_IntegerLanes : ∃ (s : State) (v : View) (i : Instr) (r : LaneRule), s.Slotted v ∧ i.wf = true ∧ intRule s v i =
    some r ∧ v.InWindow r.regs ∧ s.LaneRoom r.pair :=
⟨base, vw base, .vadd ⟨⟨false, 1⟩, .n32, false, .rn, 0, 15, .vec 6, .imm 5⟩, _, slotted, d, rfl, inWin, room⟩

theorem premises_FloatLanes :
    (∃ (s : State) (v : View) (i : Instr) (r : FloatRule), s.Slotted v ∧ i.wf = true ∧ floatRule s v i = some r ∧ v.InWindow
      r.regs ∧ s.LaneRoom r.pair ∧ v.Quiet r)
    ∧ (∃ (s : State) (v : View) (i : Instr) (r : FloatRule), s.Slotted v ∧ i.wf = true ∧ longRule s v i = some r ∧ v.InWindow
      r.regs ∧ s.LaneRoom r.pair ∧ v.Quiet r ∧ (r.la = 0 ∨ v.b.kern.fpxen ≠ 0))
    ∧ (∃ (s : State) (v : View) (i : Instr) (r : FloatRule), s.Slotted v ∧ s.Room 0 ∧ i.wf = true ∧ longRule s v i = some r ∧
      v.InWindow r.regs ∧ v.b.kern.fpxen = 0 ∧ r.la ≠ 0)
    ∧ (∃ (s : State) (v : View) (i : Instr) (r : FloatRule) (l : Nat), s.Slotted v ∧ v.Handles ∧ i.wf = true ∧ (floatRule s v i
      = some r ∨ longRule s v i = some r) ∧ v.InWindow r.regs ∧ l < 32 ∧ (effMask v r.p).getLsbD l = true ∧ (r.f
      l).2.meets v.b.kern.fpxen = true) :=
  ⟨⟨base, vw base, .fadd ⟨⟨false, 0⟩, .f32, false, .rn, 0, 4, .vec 6, .vec 8⟩, _, slotted, d, rfl, inWin, room, quiet⟩,
   ⟨base, vw base, .fdiv ⟨⟨false, 0⟩, .f32, false, .rn, 0, 4, .vec 6, .vec 8⟩, _, slotted, d, rfl, inWin, room, quiet, d⟩,
   ⟨base, vw base, .fdiv ⟨⟨false, 0⟩, .f32, false, .rn, 3, 4, .vec 6, .vec 8⟩, _, slotted, room, d, rfl, inWin, d, d⟩,
   ⟨infs, vw infs, .fadd ⟨⟨false, 0⟩, .f32, false, .rn, 0, 4, .vec 6, .vec 8⟩, _, 0, slotted, handles, d, (.inl rfl), inWin,
    d, d, d⟩⟩

theorem premises_CarriesAndCompares :
    (∃ (s : State) (v : View) (i : Instr) (o : VCarry) (f : Nat → Int), s.Slotted v ∧ i.wf = true ∧ s.LaneRoom false ∧
      v.InWindow (o.d.toNat :: vsrcRegs o.a ++ vsrcRegs o.b) ∧ ((i = .vaddc o ∧ ∀ l, f l = s.opBits v .n32 o.a l +
      s.opBits v .n32 o.b l + (if (kread v o.kc).getLsbD l then 1 else 0)) ∨ (i = .vsubb o ∧ ∀ l, f l = s.opBits v .n32
      o.a l - s.opBits v .n32 o.b l - (if (kread v o.kc).getLsbD l then 1 else 0))))
    ∧ (∃ (s : State) (v : View) (i : Instr) (r : MaskRule), s.Slotted v ∧ s.Room 0 ∧ i.wf = true ∧ compareRule s v i = some r ∧
      v.InWindow r.regs) :=
  ⟨⟨base, vw base, .vaddc ⟨⟨false, 1⟩, 15, 3, .vec 6, .vec 7, 2⟩, ⟨⟨false, 1⟩, 15, 3, .vec 6, .vec 7, 2⟩, _, slotted, d,
    room, inWin, (.inl ⟨rfl, fun _ => rfl⟩)⟩,
   ⟨base, vw base, .fcmp ⟨⟨false, 1⟩, .f32, .le, 1, .vec 6, .vec 4⟩, _, slotted, room, d, rfl, inWin⟩⟩

theorem premises_Containers :
    (∃ (s : State) (v : View) (ty : Ty) (d : VNum) (a : VSrc) (q : BitVec 8), s.Slotted v ∧ (Instr.pack ty d a q).wf = true ∧
      v.w.split = false ∧ v.InWindow (d.toNat :: vsrcRegs a) ∧ s.Room 128)
    ∧ (∃ (s : State) (v : View) (ty : Ty) (d : VNum) (a : VSrc) (q : BitVec 8), s.Slotted v ∧ (Instr.unpack ty d a q).wf = true
      ∧ v.w.split = false ∧ v.InWindow (d.toNat :: vsrcRegs a) ∧ s.Room 128 ∧ contOk ty (s.containerAt v a q.toNat) =
      true)
    ∧ (∃ (s : State) (v : View) (ty : Ty) (d : VNum) (a : VSrc) (q : BitVec 8), s.Slotted v ∧ (Instr.unpack ty d a q).wf = true
      ∧ v.w.split = false ∧ v.InWindow (d.toNat :: vsrcRegs a) ∧ contOk ty (s.containerAt v a q.toNat) = false)
    ∧ (∃ (s : State) (v : View) (ty : Ty) (d : SReg) (a : VSrc), s.Slotted v ∧ v.w.split = false ∧ v.InWindow (vsrcRegs a) ∧
      s.scalarOver d = false ∧ s.Room 0 ∧ d ≠ 0)
    ∧ (∃ (s : State) (v : View) (i : Instr) (regs : List Nat), s.Slotted v ∧ v.Handles ∧ contRule i = some regs ∧ (v.w.split =
      true ∨ ∃ n, n ∈ regs ∧ v.w.win ≤ n)) :=
  ⟨⟨base, vw base, .t8, 15, .vec 6, 7, slotted, d, d, inWin, room⟩,
   ⟨cont6, vw cont6, .t6, 15, .vec 6, 0, slotted, d, d, inWin, room, d⟩,
   ⟨inC (fun c => { c with slow := [(4, 0xFFFFFFFF)] }) base, vw (inC (fun c => { c with slow := [(4, 0xFFFFFFFF)] }) base),
    .t6, 5, .vec 4, 0, slotted, d, d, inWin, d⟩,
   ⟨base, vw base, .t8, 3, .vec 4, slotted, d, inWin, d, room, d⟩,
   ⟨handled base, vw (handled base), .pack .t8 16 (.vec 6) 3, _, slotted, handles, rfl, (.inr ⟨16, d, d⟩)⟩⟩

theorem premises_Branches :
    (∃ (s : State) (f : NopForm), s.HasIssuer ∧ s.Room 0 ∧ (∀ sig, f ≠ .w128 sig))
    ∧ (∃ (s : State) (i : Instr) (t : Term) (npc : Pc) (w : Option (SReg × Word64)), s.HasIssuer ∧ branchRule s i = some (t,
      npc, w) ∧ s.SigHolds t ∧ (¬ s.Predicts i) ∧ (∀ d x, w = some (d, x) → d ≠ 0 ∧ s.scalarOver d = false))
    ∧ (∃ (s : State) (v : View) (nz : Bool) (k : KNum) (off : BitVec 32) (pr : Bool) (t : Term), s.Slotted v ∧ s.SigHolds t)
    ∧ (∃ (s : State) (b ix : Nat) (x : Stream) (c : Cond) (sgn : Bool) (m n : SReg) (off : BitVec 32) (pr : Bool) (t : Term),
      s.Streamed b .mat ix x ∧ (m ∈ x.pending ∨ n ∈ x.pending))
    ∧ (∃ (s : State) (b ix : Nat) (x : Stream) (d : SReg) (off : BitVec 32) (pr : Bool) (t : Term), s.Streamed b .mat ix x ∧ d ∈
      x.pending)
    ∧ (∃ (s : State) (b : Nat) (x : Stream) (q : Predicted) (a : Word64), ((s.blk b).bind fun z => z.streams.find? fun y =>
      decide (y.eng = .mat) && y.predicted.isSome) = some x ∧ ((s.blk b).bind fun z => z.stream .mat x.ix) = some x ∧
      x.predicted = some q ∧ q.a ∉ x.pending ∧ q.b ∉ x.pending ∧ (q.dec = true → q.a ≠ 0 ∧ q.b = 0) ∧ a = (if q.dec then
      s.sread (.stream b .mat x.ix) q.a - 1 else s.sread (.stream b .mat x.ix) q.a)) :=
  ⟨⟨base, .w96, issuer, room, (fun _ h => nomatch h)⟩,
   ⟨scal [(1, 5)] base, .loop 1 0x10 false none, _, _, _, issuer, rfl, sig, noPredict, (fun _ _ h => by cases h; exact ⟨d,
    d⟩)⟩,
   ⟨base, vw base, true, 1, 0x10, false, none, slotted, sig⟩,
   ⟨onStream pendS base, 0, 1, pendS, .lt, true, 1, 2, 0x10, true, none, ⟨d, d⟩, d⟩,
   ⟨onStream pendS base, 0, 1, pendS, 1, 0x10, true, none, ⟨d, d⟩, d⟩,
   ⟨onStream predS base, 0, predS, ⟨false, .lt, true, 1, 2, false, 0x10040, 0x10008⟩, _, d, d, d, d, d, d, rfl⟩⟩

theorem premises_CallAndReturn :
    (∃ (s : State) (v : View) (d : SReg) (w8 : BitVec 8) (tgt : CallTarget) (t : Term) (a : Word64), s.Slotted v ∧ (Instr.call
      d w8 tgt t).wf = true ∧ s.SigHolds t ∧ v.w.split = false ∧ v.w.openCalls < 65535 ∧ 8 ≤ v.w.win ∧ (∀ o, tgt = .off o
      → a = (s.ir.target o).setWidth 64) ∧ (∀ n, tgt = .reg n → a = s.sread s.cur n) ∧ a.toNat < 2 ^ 57 ∧ a.toNat % 4 = 0
      ∧ v.b.kern.stubAt a.toNat = none ∧ v.w.base + v.w.win - 8 + 8 * w8.toNat - v.w.bottom ≤ v.w.runLen ∧ v.w.base +
      v.w.win - 8 + 8 * w8.toNat - v.w.bottom ≤ 256 ∧ twf (s.core (coreOf v.bid)).fast = true)
    ∧ (∃ (s : State) (v : View) (a : SReg) (t : Term) (n8 : Nat) (pc : Pc), s.Slotted v ∧ s.SigHolds t ∧ v.w.split = false ∧ 0 <
      v.w.openCalls ∧ (s.sread s.cur a).toNat = n8 * 2 ^ 57 + pc.toNat ∧ 2 ≤ n8 ∧ n8 ≤ 16 ∧ pc.toNat % 4 = 0 ∧ 8 * n8 - 8
      ≤ v.w.base ∧ v.w.bottom ≤ v.w.base - (8 * n8 - 8) ∧ v.w.base + 8 - v.w.bottom ≤ v.w.runLen) :=
  ⟨⟨callS, vw callS, 3, 4, .off 0x10, none, 0x10040, slotted, d, sig, d, d, d, (fun _ h => by cases h; exact d), (fun _ h =>
    nomatch h), d, d, d, d, d, d⟩,
   ⟨retS, vw retS, 3, none, 2, 0x10048, slotted, sig, d, d, d, d, d, d, d, d, d⟩⟩

theorem premises_SplitAndJoin :
    (∃ (s : State) (v : View) (k : KNum) (off : BitVec 32) (t : Term), s.Slotted v ∧ s.SigHolds t ∧ v.w.split = false ∧ v.k =
      0 ∧ v.sl.k0 &&& kread v k ≠ 0 ∧ v.sl.k0 &&& ~~~ kread v k ≠ 0)
    ∧ (∃ (s : State) (v : View) (k : KNum) (off : BitVec 32) (t : Term), s.Slotted v ∧ s.SigHolds t ∧ v.sl.k0 &&& kread v k ≠ 0
      ∧ v.sl.k0 &&& ~~~ kread v k = 0)
    ∧ (∃ (s : State) (v : View) (k : KNum) (off : BitVec 32) (t : Term), s.Slotted v ∧ s.SigHolds t ∧ v.sl.k0 &&& kread v k = 0)
    ∧ (∃ (s : State) (v : View) (k : KNum) (off : BitVec 32) (t : Term) (m : Word32), s.Slotted v ∧ s.SigHolds t ∧ v.w.split =
      true ∧ v.sl.k0 &&& kread v k ≠ 0 ∧ v.sl.k0 &&& ~~~ kread v k ≠ 0 ∧ (v.w.dsdepth = 0 ∨ v.w.downer = v.k) ∧
      v.w.dstack.length < 16 ∧ m = v.sl.k0 &&& kread v k &&& v.b.present &&& v.w.domain v.k)
    ∧ (∃ (s : State) (v : View) (k : KNum) (off : BitVec 32) (t : Term), s.Slotted v ∧ s.SigHolds t ∧ v.w.split = true ∧ v.sl.k0
      &&& kread v k ≠ 0 ∧ v.sl.k0 &&& ~~~ kread v k ≠ 0 ∧ v.w.dsdepth ≠ 0 ∧ v.w.downer ≠ v.k)
    ∧ (∃ (s : State) (v : View) (off : BitVec 32) (t : Term), s.Slotted v ∧ s.SigHolds t ∧ v.w.split = false)
    ∧ (∃ (s : State) (v : View) (off : BitVec 32) (t : Term) (e : DEntry) (r : List DEntry) (m : Word32), s.Slotted v ∧
      s.SigHolds t ∧ v.w.split = true ∧ v.w.downer = v.k ∧ v.w.dstack = e :: r ∧ m = (if e.pc = s.ir.target off then
      v.sl.k0 ||| e.mask else e.mask) &&& v.b.present &&& v.w.domain v.k)
    ∧ (∃ (s : State) (v : View) (off : BitVec 32) (t : Term) (d : List Byte) (e : DEntry) (m : Word32), s.Slotted v ∧ s.SigHolds
      t ∧ v.w.split = true ∧ v.w.downer = v.k ∧ v.w.dstack = [] ∧ v.w.dmem ≠ 0 ∧ s.memGet (v.b.divArea v.wid + 16 *
      (v.w.dmem - 1)) 16 = .ok s d ∧ e = DEntry.parse d ∧ e.pc = s.ir.target off ∧ m = (v.sl.k0 ||| e.mask) &&&
      v.b.present &&& v.w.domain v.k)
    ∧ (∃ (s : State) (v : View) (off : BitVec 32) (t : Term), s.Slotted v ∧ s.SigHolds t ∧ v.w.split = true ∧ v.w.dsdepth = 0 ∧
      (∀ y, v.other.status ≠ .join y) ∧ v.other.status ≠ .exited)
    ∧ (∃ (s : State) (v : View) (off : BitVec 32) (t : Term), s.Slotted v ∧ s.SigHolds t ∧ v.w.split = true ∧ v.k < 2 ∧
      v.w.dsdepth = 0 ∧ v.other.status = .join (s.ir.target off))
    ∧ (∃ (s : State) (v : View) (off : BitVec 32) (t : Term) (x : Pc), s.Slotted v ∧ v.Handles ∧ v.w.split = true ∧ v.w.dsdepth
      = 0 ∧ v.other.status = .join x ∧ x ≠ s.ir.target off)
    ∧ (∃ (s : State) (v : View) (off : BitVec 32) (t : Term) (l : _), s.Slotted v ∧ s.SigHolds t ∧ v.w.split = true ∧ v.k < 2 ∧
      v.w.dsdepth = 0 ∧ v.other.status = .join (s.ir.target off) ∧ twf v.w.s0.priv = true ∧ twf v.w.s1.priv = true ∧ l <
      32 ∧ (∀ j, j < l → v.w.presplit.getLsbD j = false) ∧ v.w.presplit.getLsbD l = true) :=
  ⟨⟨k1 0x0000FFFF base, vw (k1 0x0000FFFF base), 1, 0x10, none, slotted, sig, d, d, d, d⟩,
   ⟨k1 0xFFFFFFFF base, vw (k1 0xFFFFFFFF base), 1, 0x10, none, slotted, sig, d, d⟩,
   ⟨k1 0 base, vw (k1 0 base), 1, 0x10, none, slotted, sig, d⟩,
   ⟨deep 0 (List.replicate 15 ⟨0xFFFF, 0xFF, 0x10080⟩) sp1, vw (deep 0 (List.replicate 15 ⟨0xFFFF, 0xFF, 0x10080⟩) sp1), 1,
    0x10, none, _, slotted, sig, d, d, d, d, d, rfl⟩,
   ⟨deep 1 [⟨0xFFFF, 0xFF, 0x10080⟩] sp1, vw (deep 1 [⟨0xFFFF, 0xFF, 0x10080⟩] sp1), 1, 0x10, none, slotted, sig, d, d, d, d,
    d⟩,
   ⟨base, vw base, 0x10, none, slotted, sig, d⟩,
   ⟨deep 0 [⟨0xFFFF0000, 0xFF0000, 0x10040⟩] sp1, vw (deep 0 [⟨0xFFFF0000, 0xFF0000, 0x10040⟩] sp1), 0x10, none, ⟨0xFFFF0000,
    0xFF0000, 0x10040⟩, [], _, slotted, sig, d, d, d, rfl⟩,
   ⟨memTop, vw memTop, 0x10, none, dent, ⟨0xFFFF0000, 0xFF0000, 0x10040⟩, _, slotted, sig, d, d, d, d, memOk, d, d, rfl⟩,
   ⟨sp1, vw sp1, 0x20, none, slotted, sig, d, d, notJoin, d⟩,
   ⟨joining, vw joining, 0x10, none, slotted, sig, d, d, d, d⟩,
   ⟨handled joining, vw (handled joining), 0x20, none, 0x10040, slotted, handles, d, d, d, d⟩,
   ⟨joining, vw joining, 0x10, none, 0, slotted, sig, d, d, d, d, d, d, d, d, d⟩⟩

theorem premises_RunEnds :
    (∃ (s : State) (v : View) (t : Term), s.Slotted v ∧ s.SigHolds t ∧ v.w.split = false ∧ v.w.members = [])
    ∧ (∃ (s : State) (v : View) (t : Term), s.Slotted v ∧ v.Handles ∧ v.w.split = true ∧ v.w.dsdepth ≠ 0 ∧ v.w.downer = v.k)
    ∧ (∃ (s : State) (v : View) (t : Term) (x : Pc), s.Slotted v ∧ s.SigHolds t ∧ v.w.split = true ∧ v.k < 2 ∧ v.w.dsdepth = 0 ∧
      v.other.status = .join x)
    ∧ (∃ (s : State) (b : Nat) (e : Engine) (ix : Nat) (x : Stream) (t : Term), s.Streamed b e ix x)
    ∧ (∃ (s : State) (v : View) (t : Term), s.Slotted v ∧ s.SigHolds t ∧ (s.ctx v.b.tag.slot).rcd.eventq = 0) :=
  ⟨⟨base, vw base, none, slotted, sig, d, d⟩,
   ⟨handled (deep 0 [⟨0xFFFF0000, 0xFF0000, 0x10040⟩] sp1), vw (handled (deep 0 [⟨0xFFFF0000, 0xFF0000, 0x10040⟩] sp1)),
    none, slotted, handles, d, d, d⟩,
   ⟨joining, vw joining, none, 0x10040, slotted, sig, d, d, d, d⟩,
   ⟨onStream (strm .copy []) base, 0, .copy, 1, strm .copy [], none, ⟨d, d⟩⟩,
   ⟨base, vw base, none, slotted, sig, d⟩⟩

theorem premises_YieldEndsRun :
    (∃ (s : State) (v : View) (t : Term), s.Slotted v ∧ s.SigHolds t ∧ (∀ e, e ∈ (s.core (coreOf v.bid)).pend v.w.part → ¬
      s.Waiting v e) ∧ waveKey v.bid v.wid ∉ (s.core (coreOf v.bid)).pend v.w.part)
    ∧ (∃ (s : State) (v : View) (t : Term), s.Slotted v ∧ s.SigHolds t ∧ (∃ e, e ∈ (s.core (coreOf v.bid)).pend v.w.part ∧
      s.Waiting v e) ∧ waveKey v.bid v.wid ∉ (s.core (coreOf v.bid)).pend v.w.part ∧ twf (s.core (coreOf v.bid)).fast =
      true) :=
  ⟨⟨base, vw base, none, slotted, sig, noneIn, d⟩,
   ⟨pendTwo, vw pendTwo, none, slotted, sig, ⟨1, d, vwOf pendTwo 0 1 0, viewedAs, d, d, d⟩, d, d⟩⟩

theorem premises_TrapEntry :
    (∃ (s : State) (v : View) (n : BitVec 8) (t : Term), s.Slotted v ∧ s.SigHolds t ∧ v.Handles)
    ∧ (∃ (s : State) (v : View) (n : BitVec 8) (t : Term), s.Slotted v ∧ s.SigHolds t ∧ (¬ v.Handles) ∧ (s.ctx
      v.b.tag.slot).rcd.policy ≠ 1 ∧ (s.ctx v.b.tag.slot).rcd.eventq = 0)
    ∧ (∃ (s : State) (bid wid k code : Nat) (resume : Pc) (rp : Replay) (v : View), s.view bid wid k = some v ∧ v.Handles) :=
  ⟨⟨handled base, vw (handled base), 255, none, slotted, sig, handles⟩,
   ⟨base, vw base, 5, none, slotted, sig, (fun h => absurd h.2 d), d, d⟩,
   ⟨handled sp1, 0, 0, 1, 5, 0x10000, .again, vwOf (handled sp1) 0 0 1, viewedAs, handles⟩⟩

theorem premises_TrapReturn :
    (∃ (s : State) (v : View) (a : Option SReg) (t : Term), s.Slotted v ∧ v.sl.inHandler = false ∧ v.b.kern.handler ≠ 0)
    ∧ (∃ (s : State) (v : View) (t : Term), s.Slotted v ∧ s.SigHolds t ∧ v.sl.inHandler = true)
    ∧ (∃ (s : State) (v : View) (a : SReg) (t : Term) (pc : Pc), s.Slotted v ∧ s.SigHolds t ∧ v.sl.inHandler = true ∧ (s.sread
      s.cur a).toNat = pc.toNat ∧ pc.toNat % 4 ≠ 3)
    ∧ (∃ (s : State) (v : View) (a : SReg) (t : Term), s.Slotted v ∧ v.sl.inHandler = true ∧ (2 ^ 57 ≤ (s.sread s.cur a).toNat ∨
      (s.sread s.cur a).toNat % 4 = 3)) :=
  ⟨⟨handled base, vw (handled base), none, none, slotted, d, d⟩,
   ⟨inH [], vw (inH []), none, slotted, sig, d⟩,
   ⟨inH [(3, 0x10046)], vw (inH [(3, 0x10046)]), 3, none, 0x10046, slotted, sig, d, d, d⟩,
   ⟨inH [(4, 0x10043)], vw (inH [(4, 0x10043)]), 4, none, slotted, d, d⟩⟩

theorem premises_DictionaryExpands :
    (∃ (s : State) (v : View) (count : BitVec 2) (c0 c1 c2 code : BitVec 16) (i : Nat) (blk : BitVec 256) (w : InstrWord),
      s.Slotted v ∧ i < count.toNat ∧ s.ir.pc.toNat % 4 = i ∧ (count.toNat < 2 → c1 = 0) ∧ (count.toNat < 3 → c2 = 0) ∧
      [c0, c1, c2][i]? = some code ∧ (code.extractLsb' 0 10).toNat < v.b.kern.ndict ∧ tget (s.core (coreOf v.bid)).icache
      (icKey v.b.tag ((v.b.kern.dict + 16 * (code.extractLsb' 0 10).toNat) / 32 * 32)) = some blk ∧ dictAllowed
      (Fields.ofWord (blk.extractLsb' (8 * ((v.b.kern.dict + 16 * (code.extractLsb' 0 10).toNat) % 32)) 128)) = true ∧
      patchEntry (blk.extractLsb' (8 * ((v.b.kern.dict + 16 * (code.extractLsb' 0 10).toNat) % 32)) 128) (code.extractLsb'
      10 6) = some w)
    ∧ (∃ (s : State) (v : View) (count : BitVec 2) (rsv : BitVec 12) (c0 c1 c2 : BitVec 16), s.Slotted v ∧ v.Handles ∧
      s.ir.pc.toNat % 4 = 0 ∧ (count = 0 ∨ rsv ≠ 0 ∨ (count.toNat < 2 ∧ c1 ≠ 0) ∨ (count.toNat < 3 ∧ c2 ≠ 0))) :=
  ⟨⟨dict 2, vw (dict 2), 3, 1, 0x400, 0, 0, 2, BitVec.ofNat 256 (0x0000288141010020 * 2 ^ 128 + 0x00805C8141010030),
    (patchEntry (BitVec.ofNat 128 0x00805C8141010030) 0).getD 0, slotted, d, d, d, d, d, d, d, d, d⟩,
   ⟨handled base, vw (handled base), 2, 0, 5, 1, 1, slotted, handles, d, d⟩⟩

theorem premises_SystemRead :
    (∃ (s : State) (v : View) (d : SReg) (r : SysReg), s.Slotted v ∧ s.Room 0 ∧ (Instr.sread (.sca d) r noPred).wf = true ∧
      s.scalarOver d = false)
    ∧ (∃ (s : State) (v : View) (d : VNum) (p : Pred), s.Slotted v ∧ s.LaneRoom false ∧ v.InWindow [d.toNat])
    ∧ (∃ (s : State) (b : Nat) (e : Engine) (ix : Nat) (x : Stream) (y : Block) (d : SReg) (r : SysReg), s.Streamed b e ix x ∧
      s.blk b = some y ∧ r ∈ streamRegs)
    ∧ (∃ (s : State) (b : Nat) (e : Engine) (ix : Nat) (x : Stream) (d : SReg) (r : SysReg), s.Streamed b e ix x ∧ r ∉
      streamRegs) :=
  ⟨⟨base, vw base, 4, .wstatus, slotted, room, d, d⟩,
   ⟨base, vw base, 15, ⟨false, 1⟩, slotted, room, inWin⟩,
   ⟨onStream (strm .mat []) base, 0, .mat, 1, strm .mat [], bk (onStream (strm .mat []) base) 0, 4, .waveid, ⟨d, d⟩, blkd, d⟩,
   ⟨onStream (strm .mat []) base, 0, .mat, 1, strm .mat [], 4, .health, ⟨d, d⟩, d⟩⟩

theorem premises_SystemWrites :
    (∃ (s : State) (v : View) (a : SReg), s.Slotted v ∧ s.Room 0)
    ∧ (∃ (s : State) (v : View) (a : SReg), s.Slotted v ∧ s.Room 0)
    ∧ (∃ (s : State) (v : View) (a : SReg), s.Slotted v ∧ s.Room 0 ∧ v.b.priv = true)
    ∧ (∃ (s : State) (v : View) (a : SReg), s.Slotted v ∧ s.Room 0 ∧ v.b.priv = true)
    ∧ (∃ (s : State) (v : View) (r : SysReg) (a : SReg), s.Slotted v ∧ s.Room 0 ∧ r ≠ .readymap ∧ r ≠ .wstatus ∧ r ≠ .govbudget
      ∧ r ≠ .govstall)
    ∧ (∃ (s : State) (v : View) (a : SReg) (n : Nat), s.Slotted v ∧ s.Room 0 ∧ n = ((s.sread s.cur a).extractLsb' 0 25).toNat ∧
      n % 256 = 0 ∧ n ≤ 0x1000000)
    ∧ (∃ (s : State) (v : View) (a : SReg) (x : Word64), s.Slotted v ∧ s.Room 0 ∧ v.b.priv = true ∧ x = s.sread s.cur a ∧ (∀ i,
      i < 32 → modeField x i ≠ 3 ∧ (modeField x i ≠ modeField (s.core (coreOf v.bid)).bankMode i → modeField (s.core
      (coreOf v.bid)).bankMode i = 0 ∨ s.bankHeld (coreOf v.bid) i = false)))
    ∧ (∃ (s : State) (v : View) (a : SReg) (x : Word64), s.Slotted v ∧ s.Room 0 ∧ v.b.columnRight = true ∧ x = ((s.sread s.cur
      a).extractLsb' 0 32).setWidth 64 ∧ (∀ i, i < 16 → modeField x i ≠ 3) ∧ (s.core (coreOf v.bid)).colChange = none ∧ x
      ≠ (s.core (coreOf v.bid)).colWays)
    ∧ (∃ (s : State) (v : View) (a : SReg) (x : Word64), s.Slotted v ∧ s.Room 0 ∧ v.b.columnRight = true ∧ x = ((s.sread s.cur
      a).extractLsb' 0 32).setWidth 64 ∧ (∀ i, i < 16 → modeField x i ≠ 3) ∧ (s.core (coreOf v.bid)).colChange = none ∧ x
      = (s.core (coreOf v.bid)).colWays)
    ∧ (∃ (s : State) (v : View) (a : SReg) (x : Word64), s.Slotted v ∧ s.Room 0 ∧ v.b.columnRight = true ∧ x = ((s.sread s.cur
      a).extractLsb' 0 32).setWidth 64 ∧ (∀ i, i < 16 → modeField x i ≠ 3) ∧ (s.core (coreOf v.bid)).colChange = some x ∧
      s.windowOut (coreOf v.bid) = true)
    ∧ (∃ (s : State) (v : View) (a : SReg) (x : Word64), s.Slotted v ∧ s.Room 0 ∧ v.b.columnRight = true ∧ x = ((s.sread s.cur
      a).extractLsb' 0 32).setWidth 64 ∧ (∀ i, i < 16 → modeField x i ≠ 3) ∧ (s.core (coreOf v.bid)).colChange = some x ∧
      s.windowOut (coreOf v.bid) = false ∧ (s.core (coreOf v.bid)).linesOut x ≠ [])
    ∧ (∃ (s : State) (v : View) (a : SReg) (x : Word64), s.Slotted v ∧ s.Room 0 ∧ v.b.columnRight = true ∧ x = ((s.sread s.cur
      a).extractLsb' 0 32).setWidth 64 ∧ (∀ i, i < 16 → modeField x i ≠ 3) ∧ (s.core (coreOf v.bid)).colChange = some x ∧
      s.windowOut (coreOf v.bid) = false ∧ (s.core (coreOf v.bid)).linesOut x = [])
    ∧ (∃ (s : State) (v : View) (dev : Bool) (kind : BitVec 2) (a b : SReg) (va slot : Nat), s.Slotted v ∧ s.Room 0 ∧ v.b.priv =
      true ∧ kind ≠ 3 ∧ va = (s.sread s.cur a).toNat ∧ slot = ((s.sread s.cur b).extractLsb' 0 10).toNat)
    ∧ (∃ (s : State) (v : View) (dev : Bool) (a b : SReg) (lo n : Nat), s.Slotted v ∧ s.Room 0 ∧ v.b.priv = true ∧ lo = (s.sread
      s.cur a).toNat ∧ n = (s.sread s.cur b).toNat) :=
  ⟨⟨base, vw base, 1, slotted, room⟩,
   ⟨base, vw base, 1, slotted, room⟩,
   ⟨base, vw base, 1, slotted, room, d⟩,
   ⟨base, vw base, 1, slotted, room, d⟩,
   ⟨base, vw base, .laneid, 1, slotted, room, d, d, d, d⟩,
   ⟨scal [(1, 0x1000000)] base, vw (scal [(1, 0x1000000)] base), 1, 0x1000000, slotted, room, d, d, d⟩,
   ⟨scal [(1, 0x5555555555555554)] base, vw (scal [(1, 0x5555555555555554)] base), 1, 0x5555555555555554, slotted, room, d,
    d, d⟩,
   ⟨colw none, vw (colw none), 1, 2, slotted, room, d, d, d, d, d⟩,
   ⟨colSame, vw colSame, 1, 2, slotted, room, d, d, d, d, d⟩,
   ⟨colWaits, vw colWaits, 1, 2, slotted, room, d, d, d, d, d⟩,
   ⟨colDirty, vw colDirty, 1, 0x55555556, slotted, room, d, d, d, d, d, (linesLeft (n := D / 256) d d d)⟩,
   ⟨colw (some 2), vw (colw (some 2)), 1, 2, slotted, room, d, d, d, d, d, d⟩,
   ⟨base, vw base, true, 2, 1, 2, _, _, slotted, room, d, d, rfl, rfl⟩,
   ⟨base, vw base, true, 1, 2, _, _, slotted, room, d, rfl, rfl⟩⟩

theorem premises_PrivilegeAndReserved :
    (∃ (s : State) (v : View) (i : Instr), s.Slotted v ∧ v.Handles ∧ ((v.b.priv = false ∧ ((∃ dev kind a b, i = .tlbinv dev
      kind a b) ∨ (∃ dev a b, i = .icinv dev a b) ∨ (∃ a, i = .swriteBankmode a) ∨ (∃ a, i = .swrite .govbudget a) ∨ (∃ a,
      i = .swrite .govstall a) ∨ (∃ d a, i = .ctxkill d a ∨ i = .reclaim d a ∨ i = .patch d a) ∨ ∃ d a b, i = .ctxstart d
      a b)) ∨ (v.b.columnRight = false ∧ ∃ a, i = .swriteColways a)))
    ∧ (∃ (s : State) (m n : BitVec 6) (code : Nat) (v : _), s.Slotted v ∧ v.Handles ∧ (code = (if 0x28 ≤ m.toNat ∧ m.toNat ≤
      0x3E then cUNIMPL else if 0x25 ≤ m.toNat ∧ m.toNat ≤ 0x27 ∧ v.b.priv = false then cPRIV else cILLEGAL)))
    ∧ (∃ (s : State) (m n : BitVec 6) (code : Nat) (b : _) (e : _) (ix : _) (x : _) (y : _), s.Streamed b e ix x ∧ s.blk b =
      some y ∧ (code = (if 0x28 ≤ m.toNat ∧ m.toNat ≤ 0x3E then cUNIMPL else if 0x25 ≤ m.toNat ∧ m.toNat ≤ 0x27 ∧ y.priv =
      false then cPRIV else cILLEGAL))) :=
  ⟨⟨user, vw user, .tlbinv true 0 1 2, slotted, handles, (.inl ⟨d, .inl ⟨true, 0, 1, 2, rfl⟩⟩)⟩,
   ⟨user, 0x25, 0, _, vw user, slotted, handles, rfl⟩,
   ⟨onStream (strm .mat []) base, 0x28, 3, _, 0, .mat, 1, strm .mat [], bk (onStream (strm .mat []) base) 0, ⟨d, d⟩, blkd,
    rfl⟩⟩

theorem premises_LoadGlobal :
    (∃ (s : State) (v : View) (p : Pred) (la : Look) (ty : Ty) (mo : MOrd) (d : VNum) (ad : MAddr) (pa cell : Nat → Nat),
      s.Slotted v ∧ (Instr.ld p la ty mo d ad).wf = true ∧ v.Calm ∧ s.Bare (coreOf v.bid) ∧ s.LaneRoom ty.pair ∧
      v.InWindow (d.toNat :: idxRegs ad.idx) ∧ (la = 0 ∨ mo.ord = .acq) ∧ (mo.strong = true → s.countsOut s.cur = false) ∧
      (∀ l, l < 32 → (effMask v p).getLsbD l = true → s.Lands v.bid (s.ea v ad l).toNat ⟨true, false, false⟩ (pa l) (cell
      l) ty.bytes))
    ∧ (∃ (s : State) (v : View) (la : Look) (ty : Ty) (mo : MOrd) (d : SReg) (ad : MAddr) (pa cell : Nat), s.Slotted v ∧
      (Instr.ldc la ty mo d ad).wf = true ∧ v.Calm ∧ s.Bare (coreOf v.bid) ∧ s.Room 0 ∧ s.scalarOver d = false ∧ (la = 0 ∨
      mo.ord = .acq) ∧ (mo.strong = true → s.countsOut s.cur = false) ∧ s.Lands v.bid (s.uniformEa ad).toNat ⟨true, false,
      false⟩ pa cell ty.bytes)
    ∧ (∃ (s : State) (b : Nat) (e : Engine) (ix : Nat) (x : Stream) (la : Look) (ty : Ty) (mo : MOrd) (d : SReg) (ad : MAddr)
      (pa cell : Nat), s.Streamed b e ix x ∧ (Instr.ldc la ty mo d ad).wf = true ∧ s.Bare (coreOf b) ∧ s.Lands b
      (s.uniformEa ad).toNat ⟨true, false, false⟩ pa cell ty.bytes) :=
  ⟨⟨ga, vw ga, ⟨false, 1⟩, 3, .n64, ⟨.acq, .dev, true⟩, 14, ad1, gpa, gcell, slotted, d, calm, bare, room, inWin, d, d,
    landsAll⟩,
   ⟨ga, vw ga, 0, .n64, mo0, 4, ad0, 0x20000, D, slotted, d, calm, bare, room, d, d, d, lands⟩,
   ⟨gst, 0, .copy, 1, strm .copy [(1, 0x20000)], 0, .s32, mo0, 5, ad0, 0x20000, D, ⟨d, d⟩, d, bare, lands⟩⟩

theorem premises_StoreGlobal :
    (∃ (s : State) (v : View) (p : Pred) (ty : Ty) (mo : MOrd) (ad : MAddr) (x : MData) (pa cell : Nat → Nat), s.Slotted v ∧
      (Instr.st p ty mo ad x).wf = true ∧ v.Calm ∧ v.sl.unreplayed = false ∧ s.Direct v ∧ v.InWindow (idxRegs ad.idx ++
      dataRegs x) ∧ (∀ l, l < 32 → (effMask v p).getLsbD l = true → s.Lands v.bid (s.ea v ad l).toNat ⟨false, true, false⟩
      (pa l) (cell l) ty.bytes) ∧ (mo.strong = true ∨ ∀ l i, l < 32 → i < ty.bytes → isPinned (pa l + i) = false ∨ vaultOf
      (cell l + i) ≠ coreOf v.bid))
    ∧ (∃ (s : State) (v : View) (p : Pred) (ty : Ty) (ord : Ord) (sc : Scope) (ad : MAddr) (x : MData) (c : SReg) (pa cell : Nat
      → Nat) (o : Obj), s.Slotted v ∧ (Instr.stCnt p ty ord sc ad x c).wf = true ∧ v.Calm ∧ v.sl.unreplayed = false ∧
      s.Direct v ∧ v.InWindow (idxRegs ad.idx ++ dataRegs x) ∧ s.findObj v.bid (s.sread s.cur c).toNat ⟨true, true, false⟩
      = (s, .ok o) ∧ (∀ l, l < 32 → (effMask v p).getLsbD l = true → s.Lands v.bid (s.ea v ad l).toNat ⟨false, true,
      false⟩ (pa l) (cell l) ty.bytes) ∧ effMask v p ≠ 0)
    ∧ (∃ (s : State) (v : View) (p : Pred) (ty : Ty) (ad : MAddr) (x : MData) (pa cell : Nat → Nat), s.Slotted v ∧ (Instr.st p
      ty ⟨.none, .blk, false⟩ ad x).wf = true ∧ v.Calm ∧ v.sl.unreplayed = false ∧ s.Bare (coreOf v.bid) ∧ v.b.isOpen =
      false ∧ 256 * (v.b.versLines.length + 96) ≤ v.b.versBudget ∧ s.Room 0 ∧ v.InWindow (idxRegs ad.idx ++ dataRegs x) ∧
      (∀ l, l < 32 → (effMask v p).getLsbD l = true → s.Lands v.bid (s.ea v ad l).toNat ⟨false, true, false⟩ (pa l) (cell
      l) ty.bytes) ∧ (∀ l i, l < 32 → i < ty.bytes → isPinned (pa l + i) = false ∨ vaultOf (cell l + i) ≠ coreOf v.bid))
    ∧ (∃ (s : State) (v : View) (p : Pred) (ty : Ty) (ad : MAddr) (x : MData) (pa cell l : Nat), s.Slotted v ∧ (Instr.st p ty
      ⟨.none, .blk, false⟩ ad x).wf = true ∧ v.Calm ∧ v.sl.unreplayed = false ∧ s.Direct v ∧ v.InWindow (idxRegs ad.idx ++
      dataRegs x) ∧ l < 32 ∧ effMask v p = BitVec.ofNat 32 (2 ^ l) ∧ (s.ea v ad l).toNat % ty.bytes = 0 ∧ s.Lands v.bid
      (s.ea v ad l).toNat ⟨false, true, false⟩ pa cell ty.bytes ∧ isPinned pa = true ∧ vaultOf cell = coreOf v.bid) :=
  ⟨⟨ga, vw ga, ⟨false, 1⟩, .s16, mo0, ad1, .vec 4, gpa, gcell, slotted, d, calm, d, (direct bare), inWin, landsAll, (.inr
    two)⟩,
   ⟨ga, vw ga, ⟨false, 1⟩, .s16, .none, .blk, ad1, .vec 4, 3, gpa, gcell, ⟨D + 0x40, none, homeSlice 0x20040⟩, slotted, d,
    calm, d, (direct bare), inWin, (objAt).found, landsAll, d⟩,
   ⟨closed, vw closed, ⟨false, 1⟩, .s16, ad1, .vec 4, gpa, gcell, slotted, d, calm, d, bare, d, d, room, inWin, landsAll,
    two⟩,
   ⟨pin, vw pin, ⟨false, 3⟩, .s32, ad0, .vec 4, 0x100000000100, 0x100, 2, slotted, d, calm, d, (direct bare), inWin, d, d, d,
    lands, d, d⟩⟩

theorem premises_ScratchAccess :
    (∃ (s : State) (v : View) (p : Pred) (ty : Ty) (d : VNum) (ad : MAddr), s.Slotted v ∧ (Instr.lds p 0 ty d ad).wf = true ∧
      v.Calm ∧ s.LaneRoom ty.pair ∧ v.InWindow (d.toNat :: idxRegs ad.idx) ∧ v.b.sb = [] ∧ s.Clean (coreOf v.bid) ∧ (∀ l,
      l < 32 → (effMask v p).getLsbD l = true → v.b.fifoOf (s.ea v ad l).toNat = none ∧ (s.ea v ad l).toNat + ty.bytes ≤
      v.b.kern.shared))
    ∧ (∃ (s : State) (v : View) (p : Pred) (ty : Ty) (ad : MAddr) (x : MData), s.Slotted v ∧ (Instr.sts p ty ad x).wf = true ∧
      v.Calm ∧ v.sl.unreplayed = false ∧ s.Room 24576 ∧ v.InWindow (idxRegs ad.idx ++ dataRegs x) ∧ v.b.sb = [] ∧ (∀ l, l
      < 32 → (effMask v p).getLsbD l = true → v.b.fifoOf (s.ea v ad l).toNat = none ∧ (s.ea v ad l).toNat + ty.bytes ≤
      v.b.kern.shared))
    ∧ (∃ (s : State) (v : View) (p : Pred) (ty : Ty) (ad : MAddr) (x : MData) (q : Nat), s.Slotted v ∧ (Instr.sts p ty ad x).wf
      = true ∧ v.Calm ∧ v.sl.unreplayed = false ∧ s.Room 0 ∧ v.InWindow (idxRegs ad.idx ++ dataRegs x) ∧ effMask v p ≠ 0 ∧
      (∀ l, l < 32 → (effMask v p).getLsbD l = true → v.b.fifoOf (s.ea v ad l).toNat = some q) ∧ (cget [] v.b.fifos
      q).length + (lanesOf (effMask v p)).length ≤ 2048)
    ∧ (∃ (s : State) (v : View) (p : Pred) (ty : Ty) (d : VNum) (ad : MAddr) (q : Nat), s.Slotted v ∧ (Instr.lds p 0 ty d ad).wf
      = true ∧ v.Calm ∧ s.LaneRoom ty.pair ∧ v.InWindow (d.toNat :: idxRegs ad.idx) ∧ effMask v p ≠ 0 ∧ (∀ l, l < 32 →
      (effMask v p).getLsbD l = true → v.b.fifoOf (s.ea v ad l).toNat = some q) ∧ (lanesOf (effMask v p)).length ≤ (cget
      [] v.b.fifos q).length)
    ∧ (∃ (s : State) (v : View) (p : Pred) (ty : Ty) (ad : MAddr) (x : MData) (q : Nat), s.Slotted v ∧ (Instr.sts p ty ad x).wf
      = true ∧ v.Calm ∧ v.sl.unreplayed = false ∧ v.InWindow (idxRegs ad.idx ++ dataRegs x) ∧ q < v.b.kern.fifos ∧ effMask
      v p ≠ 0 ∧ (∀ l, l < 32 → (effMask v p).getLsbD l = true → v.b.fifoOf (s.ea v ad l).toNat = some q) ∧ 2048 < (cget []
      v.b.fifos q).length + (lanesOf (effMask v p)).length) :=
  ⟨⟨scr 2 0, vw (scr 2 0), ⟨false, 1⟩, .s16, 4, ad1, slotted, d, calm, room, inWin, d, clean, d⟩,
   ⟨scr 24 16, vw (scr 24 16), ⟨false, 1⟩, .n64, ad1, .vec 4, slotted, d, calm, d, room, inWin, d, d⟩,
   ⟨ff 2046, vw (ff 2046), ⟨false, 1⟩, .s16, ad1, .vec 4, 1, slotted, d, calm, d, room, inWin, d, d, d⟩,
   ⟨ff 2, vw (ff 2), ⟨false, 1⟩, .s16, 4, ad1, 1, slotted, d, calm, room, inWin, d, d, d⟩,
   ⟨ff 2047, vw (ff 2047), ⟨false, 1⟩, .s16, ad1, .vec 4, 1, slotted, d, calm, d, inWin, d, d, d, d⟩⟩

theorem premises_Atomics :
    (∃ (s : State) (v : View) (p : Pred) (la : Look) (op : AtomOp) (ty : Ty) (ord : Ord) (sc : Scope) (ad : MAddr) (f :
      AtomForm) (pa cell : Nat → Nat) (mem : Nat → Nat → Byte), s.Slotted v ∧ (Instr.atom p la op ty ord sc ad f).wf =
      true ∧ v.Calm ∧ s.Direct v ∧ v.InWindow (idxRegs ad.idx ++ atomRegs f) ∧ (la = 0 ∨ ord ≠ .none) ∧ (∀ l, l < 32 →
      (effMask v p).getLsbD l = true → (s.ea v ad l).toNat % ty.bytes = 0 ∧ s.Lands v.bid (s.ea v ad l).toNat ⟨true, true,
      false⟩ (pa l) (cell l) ty.bytes) ∧ (∀ j c, mem j c = lanesWrite s.onAppend (effMask v p) cell ty.bytes (fun l m =>
      atomRule op ty m (s.atomData v ty f l) (s.atomCmp v ty f l)) s.dramByte j c))
    ∧ (∃ (s : State) (v : View) (p : Pred) (op : AtomOp) (ty : Ty) (ad : MAddr) (f : AtomForm) (mem : Nat → Nat → Byte),
      s.Slotted v ∧ (Instr.atoms p 0 op ty ad f).wf = true ∧ v.Calm ∧ s.Room 24576 ∧ v.InWindow (idxRegs ad.idx ++
      atomRegs f) ∧ v.b.sb = [] ∧ s.Clean (coreOf v.bid) ∧ (∀ l, l < 32 → (effMask v p).getLsbD l = true → v.b.fifoOf
      (s.ea v ad l).toNat = none ∧ (s.ea v ad l).toNat % ty.bytes = 0 ∧ (s.ea v ad l).toNat + ty.bytes ≤ v.b.kern.shared)
      ∧ (∀ j a, mem j a = lanesWrite (fun _ => false) (effMask v p) (fun l => v.b.scratchBase + (s.ea v ad l).toNat)
      ty.bytes (fun l m => atomRule op ty m (s.atomData v ty f l) (s.atomCmp v ty f l)) (fun a => cget 0 (s.core (coreOf
      v.bid)).store a) j a)) :=
  ⟨⟨ga, vw ga, ⟨false, 1⟩, 0, .cas, .n64, .acq, .dev, ad1, .cas 4 3 6, gpa, gcell, _, slotted, d, calm, (direct bare), inWin,
    d, landsAligned, (fun _ _ => rfl)⟩,
   ⟨scr 24 16, vw (scr 24 16), ⟨false, 1⟩, .max, .s32, ad1, .ret none 6, _, slotted, d, calm, room, inWin, d, clean, d, (fun
    _ _ => rfl)⟩⟩

theorem premises_LookaheadFlights :
    (∃ (s : State) (v : View) (i : Instr) (regs : List Nat) (la : Look) (a : Access), s.Slotted v ∧ i.wf = true ∧ v.Calm ∧
      s.Room 0 ∧ accessRule s v i = some (regs, la, a) ∧ v.InWindow regs ∧ a.ord = .none ∧ la ≠ 0 ∧ s.windowWaits v.bid a
      = false ∧ (∀ d, a.sd = some d → s.scalarOver d = false))
    ∧ (∃ (s : State) (v : View) (f : Flight) (r : List Flight) (d : VNum) (m : Word32) (x : VReg), s.cur = .slot v.bid v.wid v.k
      ∧ s.view v.bid v.wid v.k = some v ∧ v.b.frozen = .no ∧ v.sl.status = .run ∧ v.sl.flights = f :: r ∧ f.op = .regs
      [(d, m, x)])
    ∧ (∃ (s : State) (v : View) (f : Flight) (r : List Flight) (a : Access) (d : VNum) (pa cell : Nat → Nat), s.cur = .slot
      v.bid v.wid v.k ∧ s.view v.bid v.wid v.k = some v ∧ v.b.frozen = .no ∧ v.sl.status = .run ∧ v.sl.flights = f :: r ∧
      v.sl.answers = [] ∧ s.Bare (coreOf v.bid) ∧ f.op = .mem a ∧ a.kind = .load ∧ a.scratch = false ∧ a.ord = .none ∧
      a.cnt = none ∧ (a.inOrder = true → s.countsOut s.cur = false) ∧ a.vd = some d ∧ a.sd = none ∧ a.kd = none ∧
      a.ty.isMem = true ∧ pairOk a.ty d = true ∧ a.lanes.map LaneReq.lane = lanesOf a.mask ∧ (∀ q, q ∈ a.lanes → q.lane <
      32 ∧ s.Lands v.bid q.addr ⟨true, false, false⟩ (pa q.lane) (cell q.lane) a.ty.bytes))
    ∧ (∃ (s : State) (v : View) (p : Pred) (ty : Ty) (mo : MOrd) (ad : MAddr) (x : MData), s.Slotted v ∧ (Instr.st p ty mo ad
      x).wf = true ∧ v.Calm ∧ s.Room 0 ∧ v.sl.unreplayed = true ∧ (s.core (coreOf v.bid)).colChange = none ∧ v.InWindow
      (idxRegs ad.idx ++ dataRegs x)) :=
  ⟨⟨ga, vw ga, .ld ⟨false, 1⟩ 3 .s16 mo0 4 ad1, _, _, _, slotted, d, calm, room, rfl, inWin, d, d, d, (fun _ h => nomatch h)⟩,
   ⟨flying (.regs [(4, 0xFF, 77)]), vw (flying (.regs [(4, 0xFF, 77)])), ⟨.regs [(4, 0xFF, 77)], 2, 1, 0x10000⟩, [], 4, 0xFF,
    77, slotCur, slotView, d, d, d, d⟩,
   ⟨flying (.mem acc0), vw (flying (.mem acc0)), ⟨.mem acc0, 2, 1, 0x10000⟩, [], acc0, 4, gpa, gcell, slotCur, slotView, d,
    d, d, d, bare, d, d, d, d, d, d, d, d, d, d, d, d, landsReqs⟩,
   ⟨replaying, vw replaying, ⟨false, 1⟩, .s16, mo0, ad1, .vec 4, slotted, d, calm, room, d, d, inWin⟩⟩

theorem premises_FenceAndPrefetch :
    (∃ (s : State) (v : View) (k : Ord) (sc : Scope) (vh : Bool), s.Slotted v ∧ s.Room 0 ∧ s.writesOut s.cur = false ∧ twf
      v.b.vers = true)
    ∧ (∃ (s : State) (b : Nat) (e : Engine) (ix : Nat) (x : Stream) (k : Ord) (sc : Scope) (vh : Bool), s.Streamed b e ix x ∧
      s.writesOut s.cur = false)
    ∧ (∃ (s : State) (v : View) (p : Pred) (ad : MAddr), s.Slotted v ∧ s.Room 0 ∧ v.InWindow (idxRegs ad.idx))
    ∧ (∃ (s : State) (v : View) (p : Pred) (ad : MAddr) (l pa cell : Nat), s.Slotted v ∧ s.Room 0 ∧ v.InWindow (idxRegs ad.idx)
      ∧ anyMode (s.core (coreOf v.bid)).colWays 0 16 = true ∧ l < 32 ∧ effMask v p = BitVec.ofNat 32 (2 ^ l) ∧ s.locate
      v.bid ((s.ea v ad l).toNat / 256 * 256) ⟨true, false, false⟩ = (s, .ok (.dram pa cell)) ∧ cell % 256 = 0 ∧ s.parks
      pa cell = false ∧ s.poisoned cell 256 = false) :=
  ⟨⟨ga, vw ga, .ar, .dev, true, slotted, room, d, d⟩,
   ⟨gst, 0, .copy, 1, strm .copy [(1, 0x20000)], .ar, .sys, true, ⟨d, d⟩, d⟩,
   ⟨ga, vw ga, ⟨false, 1⟩, ad1, slotted, room, inWin⟩,
   ⟨cached, vw cached, ⟨false, 3⟩, ad0, 2, 0x20000, D, slotted, room, inWin, d, d, d, (located d), d, d, d⟩⟩

theorem premises_MemoryFaultEntry : ∃ (s : State) (v : View) (i : Instr) (regs : List Nat) (la : Look) (a : Access) (l code :
    Nat), s.Slotted v ∧ v.Handles ∧ i.wf = true ∧ v.Calm ∧ accessRule s v i = some (regs, la, a) ∧ s.windowWaits v.bid a = false
    ∧ v.InWindow regs ∧ (la = 0 ∨ a.ord ≠ .none) ∧ (∃ q, a.lanes = [q] ∧ q.lane = l ∧ ((code = 0x13 ∧ q.addr % a.ty.bytes ≠ 0 ∧
    ((∃ p op ty o sc ad f, i = .atom p la op ty o sc ad f) ∨ ∃ p op ty ad f, i = .atoms p la op ty ad f ∧ q.addr < 0x100000)) ∨
    (code = 0x11 ∧ v.b.kern.shared < q.addr + a.ty.bytes ∧ q.addr + a.ty.bytes < 0x100000 ∧ q.addr % a.ty.bytes = 0 ∧ a.scratch
    = true))) :=
⟨misal, vw misal, .atom ⟨false, 3⟩ 0 .add .n32 .none .blk ad0 (.noRet 4), _, _, _, 2, 0x13, slotted, handles, d, calm, rfl, d,
    inWin, d, ⟨⟨2, 0x20001, 0, 0⟩, d, d, .inl ⟨d, d, .inl ⟨_, _, _, _, _, _, _, rfl⟩⟩⟩⟩

theorem premises_PlaneComputing :
    (∃ (s : State) (v : View) (i : Instr) (o : PComp) (val : Elt → Nat) (f : Fold), s.Slotted v ∧ i.wf = true ∧ v.Calm ∧ f =
      foldOf (v.w.fold o.f) ∧ calcRule s v f (f.elemOf fun _ r => s.vread v.bid v.w (o.a.toNat + r)) i = some (o, true,
      val) ∧ v.PlaneOk o.ty o.f [o.a.toNat, o.d.toNat] ∧ v.wid < f.gy ∧ (o.axis = .y → f.gy = 1) ∧ s.Clean (coreOf v.bid)
      ∧ o.la = 0 ∧ s.Room 16384)
    ∧ (∃ (s : State) (v : View) (i : Instr) (o : PComp) (val : Elt → Nat) (f : Fold), s.Slotted v ∧ i.wf = true ∧ v.Calm ∧ f =
      foldOf (v.w.fold o.f) ∧ calcRule s v f (f.elemOf fun _ r => s.vread v.bid v.w (o.a.toNat + r)) i = some (o, true,
      val) ∧ v.PlaneOk o.ty o.f [o.a.toNat, o.d.toNat] ∧ v.wid < f.gy ∧ (o.axis = .y → f.gy = 1) ∧ s.Clean (coreOf v.bid)
      ∧ o.la ≠ 0 ∧ s.Room 0)
    ∧ (∃ (s : State) (v : View) (i : Instr) (o : PComp) (val : Elt → Nat) (x : Elt → Nat), s.Slotted v ∧ i.wf = true ∧ calcRule
      s v (foldOf (v.w.fold o.f)) x i = some (o, true, val) ∧ v.PlaneOk o.ty o.f [o.a.toNat, o.d.toNat] ∧ (foldOf
      (v.w.fold o.f)).gy ≤ v.wid ∧ s.Room 0)
    ∧ (∃ (s : State) (v : View) (i : Instr) (o : PComp) (ok : Bool) (val : Elt → Nat) (x : Elt → Nat), s.Slotted v ∧ v.Handles ∧
      calcRule s v (foldOf (v.w.fold o.f)) x i = some (o, ok, val) ∧ (ok = false ∨ v.w.split = true ∨ (foldOf (v.w.fold
      o.f)).set = false ∨ (o.ty ≠ .none ∧ o.ty ≠ (foldOf (v.w.fold o.f)).ty) ∨ v.w.win < o.a.toNat + (foldOf (v.w.fold
      o.f)).t ∨ v.w.win < o.d.toNat + (foldOf (v.w.fold o.f)).t))
    ∧ (∃ (s : State) (v : View) (i : Instr) (o : PComp) (val : Elt → Nat) (x : Elt → Nat), s.Slotted v ∧ i.wf = true ∧ v.Calm ∧
      calcRule s v (foldOf (v.w.fold o.f)) x i = some (o, true, val) ∧ v.PlaneOk o.ty o.f [o.a.toNat, o.d.toNat] ∧ v.wid <
      (foldOf (v.w.fold o.f)).gy ∧ 1 < (foldOf (v.w.fold o.f)).gy ∧ o.axis = .y ∧ s.Clean (coreOf v.bid) ∧ (∀ w y, tget
      v.b.waves w = some y → y.plane = none))
    ∧ (∃ (s : State) (v : View) (i : Instr) (o : PComp) (op : RedOp) (val : Elt → Nat) (f : Fold) (src : Nat → Nat → VReg),
      s.Slotted v ∧ v.Calm ∧ (i = .pspread o ∨ i = .pfold o op ∨ i = .pscan o op 0) ∧ i.wf = true ∧ f = foldOf (v.w.fold
      o.f) ∧ calcRule s v f (f.elemOf src) i = some (o, true, val) ∧ v.PlaneOk o.ty o.f [o.a.toNat, o.d.toNat] ∧ v.wid <
      f.gy ∧ 1 < f.gy ∧ o.axis = .y ∧ s.Clean (coreOf v.bid) ∧ v.b.isOpen = true ∧ twf v.b.waves = true ∧ (∀ r, r < f.t →
      src v.wid r = s.vread v.bid v.w (o.a.toNat + r)) ∧ (∀ w y, tget v.b.waves w = some y → (w < f.gy ∧ w ≠ v.wid ∧ ∃ q,
      y.plane = some q) ∨ y.plane = none) ∧ (∀ w, w < f.gy → w ≠ v.wid → ∃ y q, tget v.b.waves w = some y ∧ y.plane = some
      q ∧ y.s0.status = .plane ∧ y.split = false ∧ q.gy = f.gy - 1 ∧ q.vd = o.d.toNat ∧ q.fold = v.w.fold o.f ∧ q.fold2 =
      v.w.fold o.f ∧ q.src = (List.range f.t).map (src w) ∧ ((i = .pspread o ∧ q.op = .spread .y ∧ q.key = [f.ix, 4, 1,
      o.a.toNat, o.d.toNat]) ∨ (i = .pfold o op ∧ q.op = .fold .y op ∧ q.key = [f.ix, 5, 1, o.a.toNat, o.d.toNat,
      op.code.toNat]) ∨ (i = .pscan o op 0 ∧ q.op = .scan .y op 0 ∧ q.key = [f.ix, 6, 1, o.a.toNat, o.d.toNat,
      op.code.toNat, 0]))) ∧ (∀ w z y x, tget v.b.waves w = some y → tget v.b.waves z = some x → w ≠ z → y.runBase +
      y.runLen ≤ x.runBase ∨ x.runBase + x.runLen ≤ y.runBase) ∧ (∀ w y, tget v.b.waves w = some y → w < f.gy → y.base -
      y.bottom + o.d.toNat + f.t ≤ y.runLen)) :=
  ⟨⟨fo1, vw fo1, .pspread (pc .x 0 20 2), pc .x 0 20 2, _, _, slotted, d, calm, rfl, rfl, ⟨d, d, d, d, d, d, d, d⟩, d, d,
    clean, d, room⟩,
   ⟨fo1, vw fo1, .pspread (pc .y 2 20 2), pc .y 2 20 2, _, _, slotted, d, calm, rfl, rfl, ⟨d, d, d, d, d, d, d, d⟩, d, d,
    clean, d, room⟩,
   ⟨fo2, vw fo2, .pspread (pc .x 0 20 2), pc .x 0 20 2, _, fun _ => 0, slotted, d, rfl, ⟨d, d, d, d, d, d, d, d⟩, d, room⟩,
   ⟨fo3, vw fo3, .pspread (pc .x 0 20 2), pc .x 0 20 2, _, _, fun _ => 0, slotted, handles, rfl, (.inr (.inr (.inl d)))⟩,
   ⟨pair none, vw (pair none), .pspread (pc .y 0 20 2), pc .y 0 20 2, _, fun _ => 0, slotted, d, calm, rfl, ⟨d, d, d, d, d,
    d, d, d⟩, d, d, d, clean, tgets⟩,
   ⟨pair (some pis), vw (pair (some pis)), .pspread (pc .y 0 20 2), pc .y 0 20 2, .add, _, foldOf (image .s32 4 2 6 3 2 6 3),
    fun _ _ => 0, slotted, calm, d, d, rfl, rfl, ⟨d, d, d, d, d, d, d, d⟩, d, d, d, clean, d, d, d, planesAre, (otherWave
    ⟨_, pis, rfl, d, d, d, d, d, d, d, d, .inl ⟨rfl, d, d⟩⟩), tgets2, tgets⟩⟩

theorem premises_PlaneSchedules :
    (∃ (s : State) (v : View) (i : Instr) (ty : Ty) (d a : VNum) (fs ft : FNum) (want : PEnt → Bool) (f g : Fold) (bytes :
      List Byte) (x : Nat) (steps : List (BitVec 128)), s.Slotted v ∧ i.wf = true ∧ v.Calm ∧ moveRule v i = some (ty, 0,
      d, a, fs, ft, want) ∧ f = foldOf (v.w.fold fs) ∧ g = foldOf (v.w.fold ft) ∧ v.PlaneOk ty fs [a.toNat] ∧ v.PlaneOk
      .none ft [d.toNat] ∧ f.agrees g = true ∧ v.wid < f.gy ∧ s.Clean (coreOf v.bid) ∧ s.Room 16384 ∧ s.foldBytes v.b.kern
      f.ix true = .ok s bytes ∧ (recOf bytes).ents.find? (fun y => want (entOf y)) = some x ∧ steps = ((recOf
      bytes).steps.drop (entOf x).first).take (entOf x).count ∧ (f.gy = 1 ∨ ((∀ w, w ∈ steps → (stepOf w).permute = true ∨
      (stepOf w).axisY = false) ∧ ((∃ o, i = .pshift o) ∨ ∃ o, i = .prot o))) ∧ (∀ w, w ∈ steps → f.stepOk w = true ∧
      offsetsOk (stepOf w) (if (entOf x).once then f.t else f.p) (if (entOf x).once then g.t else g.p) = true))
    ∧ (∃ (s : State) (v : View) (i : Instr) (ty : Ty) (la : Look) (d a : VNum) (fs ft : FNum) (want : PEnt → Bool) (bytes : List
      Byte), s.Slotted v ∧ v.Handles ∧ v.Calm ∧ moveRule v i = some (ty, la, d, a, fs, ft, want) ∧ v.PlaneOk ty fs
      [a.toNat] ∧ v.PlaneOk .none ft [d.toNat] ∧ v.wid < (foldOf (v.w.fold fs)).gy ∧ s.foldBytes v.b.kern (foldOf
      (v.w.fold fs)).ix true = .ok s bytes ∧ (recOf bytes).ents.find? (fun y => want (entOf y)) = none)
    ∧ (∃ (s : State) (v : View) (f : FNum) (ix : BitVec 32) (d : List Byte), s.Slotted v ∧ v.Handles ∧ v.Calm ∧ s.Room 0 ∧
      v.w.split = false ∧ ix.toNat < v.b.kern.nfold ∧ s.foldBytes v.b.kern ix.toNat true = .ok s d ∧ (∀ y, y ∈ (recOf
      d).ents → (entOf y).op ≠ 2) ∧ fld d 16 2 ≤ 64 ∧ fld d 18 2 ≤ 4096) :=
  ⟨⟨sched, vw sched, shift1 1, _, _, _, _, _, _, _, _, record, 2 ^ 32 + 1, [BitVec.ofNat 128 (stp 0xE 0 0)], slotted, d,
    calm, rfl, rfl, rfl, ⟨d, d, d, d, d, d, d, d⟩, ⟨d, d, d, d, d, d, d, d⟩, d, d, clean, room, memOk, d, d, (.inl d),
    listAll⟩,
   ⟨handled sched, vw (handled sched), shift1 2, _, _, _, _, _, _, _, record, slotted, handles, calm, rfl, ⟨d, d, d, d, d, d,
    d, d⟩, ⟨d, d, d, d, d, d, d, d⟩, d, memOk, d⟩,
   ⟨handled sched, vw (handled sched), 4, 0, record, slotted, handles, calm, room, d, d, memOk, listAll, d, d⟩⟩

theorem premises_PlaneTransfers :
    (∃ (s : State) (v : View) (ty : Ty) (d : VNum) (base : SReg) (disp : Option (BitVec 32)) (f : FNum) (g : Fold) (o : Nat),
      s.Slotted v ∧ (Instr.pld 0 ty d base disp f).wf = true ∧ v.Calm ∧ g = foldOf (v.w.fold f) ∧ v.PlaneOk ty f [d.toNat]
      ∧ v.wid < g.gy ∧ v.b.sb = [] ∧ s.Clean (coreOf v.bid) ∧ s.Room 16384 ∧ o = (s.sread s.cur base + dispOf disp).toNat
      ∧ o + g.ty.bytes * (g.vx * g.vy * g.vz * g.vw) ≤ v.b.kern.shared ∧ v.b.kern.shared ≤ 0x100000)
    ∧ (∃ (s : State) (v : View) (ty : Ty) (d : VNum) (base : SReg) (disp : Option (BitVec 32)) (f : FNum) (g : Fold) (o : Nat),
      s.Slotted v ∧ (Instr.pst ty base disp d f).wf = true ∧ v.Calm ∧ g = foldOf (v.w.fold f) ∧ v.PlaneOk ty f [d.toNat] ∧
      v.wid < g.gy ∧ v.b.sb = [] ∧ s.Clean (coreOf v.bid) ∧ v.b.isOpen = true ∧ o = (s.sread s.cur base + dispOf
      disp).toNat ∧ o + g.ty.bytes * (g.vx * g.vy * g.vz * g.vw) ≤ v.b.kern.shared ∧ v.b.kern.shared ≤ 0x100000) :=
  ⟨⟨plane, vw plane, .none, 20, 1, some 5, 1, _, 0x18, slotted, d, calm, rfl, ⟨d, d, d, d, d, d, d, d⟩, d, d, clean, room, d,
    d, d⟩,
   ⟨plane, vw plane, .none, 20, 1, some 5, 1, _, 0x18, slotted, d, calm, rfl, ⟨d, d, d, d, d, d, d, d⟩, d, d, clean, d, d, d,
    d⟩⟩

theorem premises_VotesAndRegrouping :
    (∃ (s : State) (v : View) (p : Pred) (op : RedOp) (ty : Ty) (d : SReg) (a : VSrc) (m : Option VNum) (mask : Word32),
      s.Slotted v ∧ (Instr.vote p op ty d a m none).wf = true ∧ v.Alone ∧ v.w.gslots = [] ∧ v.InWindow (vsrcRegs a ++
      (m.map fun n => n.toNat).toList) ∧ s.scalarOver d = false ∧ s.findBlk v.b.grid v.b.blockId = some v.bid ∧ (∀ l n, l
      < 32 → (effMask v p).getLsbD l = true → m = some n → lane (s.vread v.bid v.w n.toNat) l = mask))
    ∧ (∃ (s : State) (v : View) (p : Pred) (op : RedOp) (ty : Ty) (d : SReg) (a : VSrc) (n : VNum) (i l : Nat), s.Slotted v ∧
      v.Handles ∧ (Instr.vote p op ty d a (some n) none).wf = true ∧ v.Alone ∧ v.w.gslots = [] ∧ v.InWindow (vsrcRegs a ++
      [n.toNat]) ∧ s.scalarOver d = false ∧ s.findBlk v.b.grid v.b.blockId = some v.bid ∧ i < l ∧ l < 32 ∧ (effMask v
      p).getLsbD i = true ∧ (∀ j, j < i → (effMask v p).getLsbD j = false) ∧ (effMask v p).getLsbD l = true ∧ lane
      (s.vread v.bid v.w n.toNat) l ≠ lane (s.vread v.bid v.w n.toNat) i ∧ (∀ j, j < l → (effMask v p).getLsbD j = true →
      lane (s.vread v.bid v.w n.toNat) j = lane (s.vread v.bid v.w n.toNat) i))
    ∧ (∃ (s : State) (v : View) (p : Pred) (op : RedOp) (ty : Ty) (d : SReg) (a : VSrc) (m : Option VNum) (g : BitVec 8) (gr :
      Grid) (x : Group) (ix j : Nat), s.Slotted v ∧ (Instr.vote p op ty d a m (some g)).wf = true ∧ v.Alone ∧ v.w.gslots =
      [] ∧ v.InWindow (vsrcRegs a ++ (m.map fun n => n.toNat).toList) ∧ s.scalarOver d = false ∧ s.groupOf v.b v.w g.toNat
      = some (gr, x, ix) ∧ j < gr.size x ∧ j ∉ x.ended ∧ j ≠ ix ∧ (∀ e, e ∈ x.vote → e.1 ≠ j))
    ∧ (∃ (s : State) (v : View) (p : Pred) (op : RedOp) (ty : Ty) (d : SReg) (a : VSrc) (m : Option VNum) (g : BitVec 8),
      s.Slotted v ∧ v.Handles ∧ s.groupOf v.b v.w g.toNat = none)
    ∧ (∃ (s : State) (v : View) (d : SReg) (g : BitVec 8) (gr : Grid) (x : Group) (ix : Nat), s.Slotted v ∧ v.Alone ∧ v.w.gslots
      = [] ∧ s.groupOf v.b v.w g.toNat = some (gr, x, ix) ∧ (gr.alive x).length = 2 ∧ (∀ i, i ∈ gr.alive x → (gr.member x
      i).1 = v.b.blockId) ∧ x.regroup = [])
    ∧ (∃ (s : State) (v y : View) (d e : SReg) (g : BitVec 8) (gr : Grid) (x : Group) (ix j : Nat), s.Slotted v ∧ v.Alone ∧
      y.Alone ∧ v.w.gslots = [] ∧ s.view v.bid y.wid 0 = some y ∧ y.wid ≠ v.wid ∧ y.sl.status = .regroup g.toNat e ∧ d ≠ 0
      ∧ e ≠ 0 ∧ s.groupOf v.b v.w g.toNat = some (gr, x, ix) ∧ gr.alive x = [min ix j, max ix j] ∧ ix ≠ j ∧ gr.member x j
      = (v.b.blockId, y.wid) ∧ gr.member x ix = (v.b.blockId, v.wid) ∧ x.regroup = [j] ∧ v.w.noRegroup = false ∧
      y.w.noRegroup = false ∧ v.w.win = y.w.win ∧ popc32 (v.b.present &&& ~~~ (if v.wid < y.wid then v.sl.k0 else
      y.sl.k0)) < popc32 (if v.wid < y.wid then y.sl.k0 else v.sl.k0))
    ∧ (∃ (s : State) (v y a b : View) (d e : SReg) (g : BitVec 8) (gr : Grid) (x : Group) (ix j : Nat) (tgt : Nat → Nat) (m :
      Word32), s.Slotted v ∧ v.Alone ∧ y.Alone ∧ v.w.gslots = [] ∧ s.view v.bid y.wid 0 = some y ∧ y.wid ≠ v.wid ∧
      y.sl.status = .regroup g.toNat e ∧ d ≠ 0 ∧ e ≠ 0 ∧ s.groupOf v.b v.w g.toNat = some (gr, x, ix) ∧ gr.alive x = [min
      ix j, max ix j] ∧ ix ≠ j ∧ gr.member x j = (v.b.blockId, y.wid) ∧ gr.member x ix = (v.b.blockId, v.wid) ∧ x.regroup
      = [j] ∧ v.w.noRegroup = false ∧ y.w.noRegroup = false ∧ v.w.win = y.w.win ∧ ((v.wid < y.wid ∧ a = v ∧ b = y) ∨
      (y.wid < v.wid ∧ a = y ∧ b = v)) ∧ b.wid < 2 ^ 31 ∧ (∀ l k, l < 32 → k < 32 → b.sl.k0.getLsbD l = true →
      b.sl.k0.getLsbD k = true → l < k → tgt l < tgt k) ∧ (∀ l, l < 32 → b.sl.k0.getLsbD l = true → tgt l < 32 ∧
      (v.b.present &&& ~~~ a.sl.k0).getLsbD (tgt l) = true) ∧ (∀ k, k < 32 → (m.getLsbD k = true ↔ ∃ l, l < 32 ∧
      b.sl.k0.getLsbD l = true ∧ tgt l = k)) ∧ (∀ k i, k < i → i < 32 → m.getLsbD i = true → (v.b.present &&& ~~~
      a.sl.k0).getLsbD k = true → m.getLsbD k = true) ∧ (a.w.runBase + a.w.runLen ≤ b.w.runBase ∨ b.w.runBase + b.w.runLen
      ≤ a.w.runBase) ∧ a.w.base - a.w.bottom + a.w.win ≤ a.w.runLen ∧ b.w.base - b.w.bottom + b.w.win ≤ b.w.runLen ∧
      s.Clean (coreOf v.bid) ∧ (∀ q, q ∈ b.w.members → q.1 = g.toNat) ∧ x.vote = [] ∧ x.gathering = false ∧ x.held = []) :=
  ⟨⟨base, vw base, ⟨false, 1⟩, .add, .s32, 9, .vec 4, some 8, 0, slotted, d, alone, d, inWin, d, d, sameMask⟩,
   ⟨uneven, vw uneven, ⟨false, 0⟩, .add, .s32, 9, .vec 4, 8, 0, 31, slotted, handles, d, alone, d, inWin, d, d, d, d, d, d,
    d, d, d⟩,
   ⟨two0, vw two0, ⟨false, 1⟩, .add, .s32, 9, .vec 4, none, 3, grd g0, g0, 0, 1, slotted, d, alone, d, inWin, d, d, d, d, d,
    listAll⟩,
   ⟨handled two0, vw (handled two0), ⟨false, 1⟩, .add, .s32, 9, .vec 4, some 8, 2, slotted, handles, d⟩,
   ⟨two0, vw two0, 9, 3, grd g0, g0, 0, slotted, alone, d, d, d, listAll, d⟩,
   ⟨rgA, vw rgA, vwOf rgA 0 1 0, 9, 5, 3, grd g1, g1, 0, 1, slotted, alone, alone, d, viewedAs, d, d, d, d, d, d, d, d, d, d,
    d, d, d, d⟩,
   ⟨rgB, vw rgB, vwOf rgB 0 1 0, vw rgB, vwOf rgB 0 1 0, 9, 5, 3, grd g1, g1, 0, 1, fun l => if l = 0 then 1 else 2, 6,
    slotted, alone, alone, d, viewedAs, d, d, d, d, d, d, d, d, d, d, d, d, d, (.inl ⟨d, rfl, rfl⟩), d, two, d, d, below,
    d, d, d, clean, listAll, d, d, d⟩⟩

theorem premises_Barriers :
    (∃ (s : State) (v : View), s.Slotted v ∧ s.Room 0 ∧ v.wid < 32 ∧ (∀ j, j ∈ v.w.liveSlots → j = v.k ∨ j ∈ v.w.barIssued) ∧
      v.k < 2)
    ∧ (∃ (s : State) (v : View), s.Slotted v ∧ s.Room 0 ∧ v.k < 2 ∧ v.other.live = true ∧ (1 - v.k) ∉ v.w.barIssued)
    ∧ (∃ (s : State) (bid : Nat) (b : Block), s.blk bid = some b ∧ b.closing = true ∧ b.frozen = .no ∧ b.mat.queue0 = [] ∧
      b.mat.queue1 = [] ∧ b.mat.queue2 = [] ∧ b.mat.queue3 = [] ∧ twf b.vers = true)
    ∧ (∃ (s : State) (v : View) (sc : Scope) (g : BitVec 8) (gr : Grid) (x : Group) (ix j : Nat), s.Slotted v ∧ v.Alone ∧
      v.w.gslots = [] ∧ s.groupOf v.b v.w g.toNat = some (gr, x, ix) ∧ s.writesOut s.cur = false ∧ x.gathering = false ∧
      x.arrived = [] ∧ x.held = [] ∧ j < gr.size x ∧ j ≠ ix ∧ j ∉ x.ended)
    ∧ (∃ (s : State) (v : View) (sc : Scope) (g : BitVec 8) (gr : Grid) (x : Group) (ix : Nat), s.Slotted v ∧ v.Alone ∧
      v.w.gslots = [] ∧ s.groupOf v.b v.w g.toNat = some (gr, x, ix) ∧ s.writesOut s.cur = false ∧ x.gathering = true ∧
      x.m = false ∧ ix ∉ x.arrived ∧ x.held = [] ∧ gr.member x ix = (v.b.blockId, v.wid) ∧ s.findBlk v.b.grid v.b.blockId
      = some v.bid ∧ (∀ i, i < gr.size x → i = ix ∨ i ∈ x.ended ∨ i ∈ x.arrived) ∧ (∀ i, i ∈ x.arrived → gr.member x i ≠
      (v.b.blockId, v.wid)))
    ∧ (∃ (s : State) (v : View) (sc : Scope) (g : BitVec 8), s.Slotted v ∧ v.Handles ∧ s.groupOf v.b v.w g.toNat = none) :=
  ⟨⟨base, vw base, slotted, room, d, listAll, d⟩,
   ⟨split base, vw (split base), slotted, room, d, d, d⟩,
   ⟨closing, 0, bk closing 0, blkd, d, d, d, d, d, d, d⟩,
   ⟨two0, vw two0, .dev, 3, grd g0, g0, 0, 1, slotted, alone, d, d, d, d, d, d, d, d, d⟩,
   ⟨two2, vw two2, .dev, 3, grd g2, g2, 1, slotted, alone, d, d, d, d, d, d, d, d, d, d, listAll⟩,
   ⟨handled two0, vw (handled two0), .blk, 2, slotted, handles, d⟩⟩

theorem premises_NumberedBarriers :
    (∃ (s : State) (v : View) (arv : Bool) (rcv : Option SReg) (n : BitVec 8) (count : BitVec 7) (dlv : Option SReg) (x :
      NBar), s.Slotted v ∧ (Instr.barn arv rcv n count dlv).wf = true ∧ s.Room 0 ∧ v.Alone ∧ v.wid < 32 ∧ v.w.barn = [] ∧
      (∀ d, rcv = some d → s.scalarOver d = false) ∧ x = v.b.nbar n.toNat ∧ x.warr.getLsbD v.wid = false ∧ (count = 0 ∨
      x.count = 0 ∨ count.toNat = x.count) ∧ ((x.count = 0 ∧ count = 0) ∨ x.arrivals + 1 < max x.count count.toNat))
    ∧ (∃ (s : State) (v : View) (arv : Bool) (rcv : Option SReg) (n : BitVec 8) (count : BitVec 7) (dlv : Option SReg) (x :
      NBar) (val : Word64), s.Slotted v ∧ (Instr.barn arv rcv n count dlv).wf = true ∧ s.Room 0 ∧ v.Alone ∧ v.wid < 32 ∧
      v.w.barn = [] ∧ v.sl.pending = [] ∧ (∀ d, rcv = some d → s.scalarOver d = false) ∧ x = v.b.nbar n.toNat ∧
      x.warr.getLsbD v.wid = false ∧ x.held = [] ∧ x.rcv = [] ∧ (∀ w y k, tget v.b.waves w = some y → (y.slot k).status ≠
      .barn n.toNat x.parity true) ∧ (count = 0 ∨ x.count = 0 ∨ count.toNat = x.count) ∧ max x.count count.toNat ≠ 0 ∧ max
      x.count count.toNat ≤ x.arrivals + 1 ∧ val =
      (match dlv with | some a => if (x.dwave.elim true fun w => decide (v.wid < w)) then s.sread s.cur a else x.value | none => x.value))
    ∧ (∃ (s : State) (v : View) (arv : Bool) (rcv : Option SReg) (n : BitVec 8) (count : BitVec 7) (dlv : Option SReg) (x :
      NBar), s.Slotted v ∧ v.Alone ∧ v.w.barn = [] ∧ (∀ d, rcv = some d → s.scalarOver d = false) ∧ x = v.b.nbar n.toNat ∧
      x.warr.getLsbD v.wid = true)
    ∧ (∃ (s : State) (v : View) (arv : Bool) (rcv : Option SReg) (n : BitVec 8) (count : BitVec 7) (dlv : Option SReg),
      s.Slotted v ∧ v.Handles ∧ v.w.barn = [] ∧ (v.b.nbar n.toNat).warr.getLsbD v.wid = false ∧ count ≠ 0 ∧ (v.b.nbar
      n.toNat).count ≠ 0 ∧ count.toNat ≠ (v.b.nbar n.toNat).count) :=
  ⟨⟨nb { nb0 with count := 4 }, vw (nb { nb0 with count := 4 }), false, some 4, 3, 4, some 6, { nb0 with count := 4 },
    slotted, d, room, alone, d, d, (fun _ h => by cases h; exact d), d, d, d, d⟩,
   ⟨nb { nb0 with count := 3 }, vw (nb { nb0 with count := 3 }), false, some 4, 3, 3, some 6, { nb0 with count := 3 }, _,
    slotted, d, room, alone, d, d, d, (fun _ h => by cases h; exact d), d, d, d, d, (tslots (P := fun x => x ≠ .barn 3
    true true)), d, d, d, rfl⟩,
   ⟨nb { nb0 with warr := 5 }, vw (nb { nb0 with warr := 5 }), false, some 4, 3, 9, some 6, { nb0 with warr := 5 }, slotted,
    alone, d, (fun _ h => by cases h; exact d), d, d⟩,
   ⟨handled (nb nb0), vw (handled (nb nb0)), false, some 4, 3, 6, some 6, slotted, handles, d, d, d, d, d⟩⟩

theorem premises_BarrierObjects :
    (∃ (s : State) (bid : Nat) (b : Block) (sc : Scope) (a : SReg) (n : BitVec 32) (o : Obj), s.HasIssuer ∧ s.DirectIn bid b ∧
      s.ObjAt bid (s.sread s.cur a).toNat ⟨false, true, false⟩ o ∧ (∀ w, w ∈ s.waiters → w.cell ≠ o.key))
    ∧ (∃ (s : State) (bid : Nat) (b : Block) (ord : Ord) (sc : Scope) (a : SReg) (n : BitVec 8) (o : Obj), s.HasIssuer ∧
      s.DirectIn bid b ∧ s.ObjAt bid (s.sread s.cur a).toNat ⟨true, true, false⟩ o ∧ (∀ w, w ∈ s.waiters → w.cell ≠
      o.key))
    ∧ (∃ (s : State) (bid : Nat) (b : Block) (ord : Ord) (sc : Scope) (a : SReg) (n : BitVec 8) (o : Obj) (w : Waiter) (tgt :
      Nat) (y : View), s.HasIssuer ∧ s.DirectIn bid b ∧ s.ObjAt bid (s.sread s.cur a).toNat ⟨true, true, false⟩ o ∧
      s.waiters = [w] ∧ w.cell = o.key ∧ w.polling = false ∧ w.peer = none ∧ w.target = some tgt ∧ w.who = .slot y.bid
      y.wid y.k ∧ s.view y.bid y.wid y.k = some y ∧ y.sl.status = .obj ∧ w.who ≠ s.cur ∧ y.k < 2 ∧ (∀ c i k, s.cur = .slot
      c i k → k < 2) ∧ s.countAt o.key < tgt ∧ tgt ≤ s.countAt o.key + n.toNat ∧ s.countAt o.key + n.toNat < 2 ^ 64)
    ∧ (∃ (s : State) (bid : Nat) (b : Block) (ord : Ord) (sc : Scope) (a r : SReg) (n : BitVec 32) (o : Obj) (tgt : Nat),
      s.HasIssuer ∧ s.DirectIn bid b ∧ s.ObjAt bid (s.sread s.cur a).toNat ⟨true, false, false⟩ o ∧ tgt = ((s.sread s.cur
      r).toNat + n.toNat) % 2 ^ 64 ∧ (Instr.bowait ord sc a r n).wf = true ∧ tgt ≤ s.countAt o.key)
    ∧ (∃ (s : State) (bid : Nat) (b : Block) (ord : Ord) (sc : Scope) (a r : SReg) (n : BitVec 32) (o : Obj) (tgt : Nat),
      s.HasIssuer ∧ s.DirectIn bid b ∧ s.ObjAt bid (s.sread s.cur a).toNat ⟨true, false, false⟩ o ∧ tgt = ((s.sread s.cur
      r).toNat + n.toNat) % 2 ^ 64 ∧ (Instr.bowait ord sc a r n).wf = true ∧ (¬ (tgt ≤ s.countAt o.key)))
    ∧ (∃ (s : State) (ix : Nat) (c : CntArr), s.cnts[ix]? = some c ∧ s.tagLive c.tag = true ∧ c.node = none ∧ c.obj < 2 ^ 48 ∧
      c.obj % 64 = 0 ∧ (∀ i, i < 8 → s.onAppend (c.obj + i) = false) ∧ (∀ w, w ∈ s.waiters → w.cell ≠ c.obj))
    ∧ (∃ (s : State) (ix : Nat) (c : CntArr), s.cnts[ix]? = some c ∧ s.tagLive c.tag = false)
    ∧ (∃ (s : State) (ix : Nat) (w : Waiter), s.waiters[ix]? = some w ∧ (w.polling = false ∨ s.clock < w.since + 256))
    ∧ (∃ (s : State) (ix : Nat) (w : Waiter) (tgt : Nat) (y : View), s.waiters[ix]? = some w ∧ w.polling = true ∧ w.since + 256
      ≤ s.clock ∧ w.peer = none ∧ w.cell < 2 ^ 48 ∧ w.target = some tgt ∧ w.who = .slot y.bid y.wid y.k ∧ s.view y.bid
      y.wid y.k = some y ∧ y.sl.status = .obj ∧ tgt ≤ s.countAt w.cell)
    ∧ (∃ (s : State) (ix : Nat) (w : Waiter) (tgt : Nat) (y : View), s.waiters[ix]? = some w ∧ w.polling = true ∧ w.since + 256
      ≤ s.clock ∧ w.peer = none ∧ w.cell < 2 ^ 48 ∧ w.target = some tgt ∧ w.who = .slot y.bid y.wid y.k ∧ s.view y.bid
      y.wid y.k = some y ∧ y.sl.status = .obj ∧ (¬ (tgt ≤ s.countAt w.cell))) :=
  ⟨⟨objs 0 [], 0, bk (objs 0 []) 0, .dev, 5, 300, ob0, issuer, (directIn bare), objAt, listAll⟩,
   ⟨objs 0 [], 0, bk (objs 0 []) 0, .rel, .dev, 5, 255, ob0, issuer, (directIn bare), objAt, listAll⟩,
   ⟨waiting 25 false, 0, bk (waiting 25 false) 0, .rel, .dev, 5, 5, ob0, wt 1 25 false, 25, vwOf (waiting 25 false) 0 1 0,
    issuer, (directIn bare), objAt, d, d, d, d, d, d, viewedAs, d, d, d, curK, d, d, d⟩,
   ⟨objs 20 [(4, 10)], 0, bk (objs 20 [(4, 10)]) 0, .acq, .dev, 5, 4, 10, ob0, 20, issuer, (directIn bare), objAt, d, d, d⟩,
   ⟨objs 20 [(4, 10)], 0, bk (objs 20 [(4, 10)]) 0, .acq, .dev, 5, 4, 11, ob0, 21, issuer, (directIn bare), objAt, d, d, d⟩,
   ⟨cnts, 0, ⟨.slot 0 0 0, ⟨0, 0⟩, D + 0x40, none, 9⟩, d, d, d, d, d, d, listAll⟩,
   ⟨cnts, 1, ⟨.slot 0 0 0, ⟨5, 0⟩, D + 0x40, none, 9⟩, d, d⟩,
   ⟨{ waiting 20 true with clock := 255 }, 0, wt 1 20 true, d, d⟩,
   ⟨late (waiting 20 true), 0, wt 1 20 true, 20, vwOf (late (waiting 20 true)) 0 1 0, d, d, d, d, d, d, d, viewedAs, d, d⟩,
   ⟨late (waiting 21 true), 0, wt 1 21 true, 21, vwOf (late (waiting 21 true)) 0 1 0, d, d, d, d, d, d, d, viewedAs, d, d⟩⟩

theorem premises_MatrixTiles :
    (∃ (s : State) (b ix : Nat) (x : Stream) (y : Block) (str : BitVec 2) (spec : Bool) (z : Sys2Proof.ZNum), s.MatReady b ix
      x y str 1 4096)
    ∧ (∃ (s : State) (b ix : Nat) (x : Stream) (y : Block) (str : BitVec 2) (spec tr : Bool) (z : Sys2Proof.ZNum) (a : SReg)
      (disp : BitVec 32) (o : Nat), s.MatReady b ix x y str 1 4096 ∧ o = (s.sread s.cur a + disp.signExtend 64).toNat ∧ o
      + 4096 ≤ y.kern.shared ∧ o % 4 = 0 ∧ s.scrPoison b y o 4096 = false)
    ∧ (∃ (s : State) (b ix : Nat) (x : Stream) (y : Block) (str : BitVec 2) (tr : Bool) (z : Sys2Proof.ZNum) (a : SReg) (disp :
      BitVec 32) (o : Nat), s.MatReady b ix x y str 1 8192 ∧ o = (s.sread s.cur a + disp.signExtend 64).toNat ∧ o + 4096 ≤
      y.kern.shared ∧ o % 4 = 0)
    ∧ (∃ (s : State) (b ix : Nat) (x : Stream) (y : Block) (str : BitVec 2) (ty : Ty) (z : Sys2Proof.ZNum) (a : SReg) (disp :
      BitVec 32) (o n : Nat), s.MatReady b ix x y str 1 8192 ∧ ty.isCont = true ∧ n = (32 + contE ty - 1) / contE ty ∧ o =
      (s.sread s.cur a + disp.signExtend 64).toNat ∧ o + 512 * n ≤ y.kern.shared ∧ o % 16 = 0)
    ∧ (∃ (s : State) (b ix : Nat) (x : Stream) (y : Block) (str : BitVec 2) (z : Sys2Proof.ZNum) (n1 : BitVec 4), s.MatReady b
      ix x y str 1 65536 ∧ z.toNat + n1.toNat ≤ 15)
    ∧ (∃ (s : State) (b ix : Nat) (x : Stream) (y : Block) (str : BitVec 2) (spec tr : Bool) (z : Sys2Proof.ZNum) (a : SReg)
      (disp : BitVec 32) (o : Nat), s.MatReady b ix x y str 1 0 ∧ o = (s.sread s.cur a + disp.signExtend 64).toNat ∧
      y.kern.shared < o + 4096)
    ∧ (∃ (s : State) (b ix : Nat) (x : Stream) (y : Block) (str : BitVec 2) (spec tr : Bool) (z : Sys2Proof.ZNum) (a : SReg)
      (disp : BitVec 32) (o : Nat), s.MatReady b ix x y str 1 0 ∧ o = (s.sread s.cur a + disp.signExtend 64).toNat ∧ o +
      4096 ≤ y.kern.shared ∧ o % 4 = 0 ∧ s.scrPoison b y o 4096 = true)
    ∧ (∃ (s : State) (b ix : Nat) (x : Stream) (y : Block) (str : BitVec 2) (m : MNum) (off : BitVec 32) (ty : Ty) (fl : Nat),
      s.MatReady b ix x y str 1 0 ∧ off.toNat % 32 = 0 ∧ off.toNat + 32 ≤ y.kern.shared ∧ s.scrPoison b y off.toNat 32 =
      false ∧ numberAt (s.scrAt b y) (off.toNat + 12) 1 = ty.code.toNat ∧ mapTy ty = true ∧ fl = numberAt (s.scrAt b y)
      (off.toNat + 13) 1 ∧ (fl = 0 ∨ fl = 2 ∨ fl = 3) ∧ (∀ i, i < 18 → s.scrAt b y (off.toNat + 14 + i) = 0))
    ∧ (∃ (s : State) (b ix : Nat) (x : Stream) (y : Block) (str : BitVec 2) (m : MNum) (off : BitVec 32), s.MatReady b ix x y
      str 1 0 ∧ off.toNat % 32 = 0 ∧ off.toNat + 32 ≤ y.kern.shared ∧ s.scrPoison b y off.toNat 32 = false ∧ (17 <
      numberAt (s.scrAt b y) (off.toNat + 12) 1 ∨ numberAt (s.scrAt b y) (off.toNat + 13) 1 = 1 ∨ 3 < numberAt (s.scrAt b
      y) (off.toNat + 13) 1 ∨ ∃ i, i < 18 ∧ s.scrAt b y (off.toNat + 14 + i) ≠ 0))
    ∧ (∃ (s : State) (b ix : Nat) (x : Stream) (y : Block) (str : BitVec 2) (scr : Bool) (d a r : SReg) (len : BitVec 32) (dst
      src stride : Nat) (pa cell : Nat → Nat), s.MatReady b ix x y str 1 0 ∧ (Instr.mldb str scr d a r len).wf = true ∧
      y.isOpen = true ∧ y.columnRight = true ∧ (s.core (coreOf b)).colChange = none ∧ dst = (s.sread s.cur d).toNat ∧ src
      = (s.sread s.cur a).toNat ∧ stride = (s.sread s.cur r).toNat ∧ src + 31 * stride < 2 ^ 63 ∧ dst + len.toNat ≤
      (s.core (coreOf b)).bLen ∧ (scr = true → src + 31 * stride + len.toNat ≤ y.kern.shared ∧ ∀ j, j < 32 → s.scrPoison b
      y (src + j * stride) len.toNat = false) ∧ (scr = false → s.Bare (coreOf b) ∧ ∀ j, j < 32 → s.Lands b (src + j *
      stride) ⟨true, false, false⟩ (pa j) (cell j) len.toNat))
    ∧ (∃ (s : State) (b ix : Nat) (x : Stream) (y : Block) (str : BitVec 2) (scr : Bool) (d a r : SReg) (len : BitVec 32),
      s.MatReady b ix x y str 1 0 ∧ y.columnRight = false) :=
  ⟨⟨m0, 0, 1, mst, bk m0 0, 3, true, 15, ⟨⟨d, d⟩, blkd, d, d, d⟩⟩,
   ⟨m0, 0, 1, mst, bk m0 0, 1, false, true, 2, 1, 0x1FF0, 0x2000, ⟨⟨d, d⟩, blkd, d, d, d⟩, d, d, d, d⟩,
   ⟨m0, 0, 1, mst, bk m0 0, 1, true, 2, 1, 0x1FF0, 0x2000, ⟨⟨d, d⟩, blkd, d, d, d⟩, d, d, d⟩,
   ⟨m0, 0, 1, mst, bk m0 0, 0, .t8, 3, 1, 0x20, 0x30, _, ⟨⟨d, d⟩, blkd, d, d, d⟩, d, rfl, d, d, d⟩,
   ⟨m0, 0, 1, mst, bk m0 0, 1, 14, 1, ⟨⟨d, d⟩, blkd, d, d, d⟩, d⟩,
   ⟨m0, 0, 1, mst, bk m0 0, 1, false, false, 2, 1, 0x1FF1, 0x2001, ⟨⟨d, d⟩, blkd, d, d, d⟩, d, d⟩,
   ⟨matBad, 0, 1, mst, bk matBad 0, 1, false, false, 2, 1, 0x1FF0, 0x2000, ⟨⟨d, d⟩, blkd, d, d, d⟩, d, d, d, d⟩,
   ⟨mapAt 16 3, 0, 1, mst, bk (mapAt 16 3) 0, 1, 5, 0x100, .s4, 3, ⟨⟨d, d⟩, blkd, d, d, d⟩, d, d, d, d, d, d, d, d⟩,
   ⟨mapAt 11 4, 0, 1, mst, bk (mapAt 11 4) 0, 1, 1, 0x100, ⟨⟨d, d⟩, blkd, d, d, d⟩, d, d, d, d⟩,
   ⟨m0, 0, 1, mst, bk m0 0, 1, true, 1, 2, 1, 48, 0x10, 0x20, 0x10, fun _ => 0, fun _ => 0, ⟨⟨d, d⟩, blkd, d, d, d⟩, d, d, d,
    d, d, d, d, d, d, d, (fun h => nomatch h)⟩,
   ⟨m1, 0, 1, mst, bk m1 0, 1, false, 1, 2, 3, 32, ⟨⟨d, d⟩, blkd, d, d, d⟩, d⟩⟩

theorem premises_MatrixProducts :
    (∃ (s : State) (b ix : Nat) (x : Stream) (y : Block) (str : BitVec 2) (spec : Bool) (ty : Ty) (z : Sys2Proof.ZNum) (ma mb
      : MNum) (steps : BitVec 32) (ra rb : MapRec), s.Streamed b .mat ix x ∧ s.blk b = some y ∧ (Instr.mma str spec ty z
      ma mb steps).wf = true ∧ tget y.mat.maps ma.toNat = some ra ∧ tget y.mat.maps mb.toNat = some rb ∧ ra.ty = ty ∧
      rb.ty = ty ∧ ra.roleB = false ∧ rb.roleB = true ∧ ma ≠ mb ∧ (s.core (coreOf b)).colChange = none ∧ s.mapBad b y
      (ra.at spec) steps.toNat = none ∧ s.mapBad b y (rb.at spec) steps.toNat = none)
    ∧ (∃ (s : State) (b : Nat) (y : Block) (str : BitVec 2) (op : MatOp) (rest : List MatOp) (va vb : List (List Byte)), s.blk b
      = some y ∧ y.mat.queue str.toNat = op :: rest ∧ op.cnt = false ∧ y.frozen = .no ∧ s.stopped = false ∧ (s.govern
      (coreOf b) (4 * b + str.toNat) (stepCost op)).2 = true ∧ (y.isOpen = true ∨ s.snapUsed (coreOf b) + 8192 ≤ 0x200000)
      ∧ s.side b y op.ma op.done = some va ∧ s.side b y op.mb op.done = some vb)
    ∧ (∃ (s : State) (b ix : Nat) (x : Stream) (y : Block) (str : BitVec 2) (spec : Bool) (ty : Ty) (zd za : Sys2Proof.ZNum) (oa
      ob : BitVec 32), s.MatReady b ix x y str 1 4096 ∧ (ty = .f32 ∨ ty = .s32) ∧ oa.toNat % 128 = 0 ∧ ob.toNat % 128 = 0
      ∧ oa.toNat + 128 ≤ y.kern.shared ∧ ob.toNat + 128 ≤ y.kern.shared ∧ s.scrPoison b y oa.toNat 128 = false ∧
      s.scrPoison b y ob.toNat 128 = false) :=
  ⟨⟨m0, 0, 1, mst, bk m0 0, 1, true, .s8, 2, 1, 2, 5, mpA .s8, mpB .s8, ⟨d, d⟩, blkd, d, d, d, d, d, d, d, d, d, d, d⟩,
   ⟨m2, 0, bk m2 0, 1, opOf false .s8, [], _, _, blkd, d, d, d, d, d, d, (someGetD (x := []) d), (someGetD (x := []) d)⟩,
   ⟨m0, 0, 1, mst, bk m0 0, 1, true, .f32, 2, 2, 0x80, 0x2F80, ⟨⟨d, d⟩, blkd, d, d, d⟩, d, d, d, d, d, d, d⟩⟩

theorem premises_Counting :
    (∃ (s : State) (b ix : Nat) (x : Stream) (y : Block) (str : BitVec 2) (ty : Ty) (c : Bank) (ma mb : MNum) (steps : BitVec
      32) (set : BitVec 2) (ra rb : MapRec) (va vb : List (List Byte)), s.MatReady b ix x y str 4 98304 ∧ (Instr.mcnt str
      ty c ma mb steps set).wf = true ∧ y.mat.depth.length = 3 ∧ y.mat.reserved.length = 3 ∧ tget y.mat.maps ma.toNat =
      some ra ∧ tget y.mat.maps mb.toNat = some rb ∧ ra.ty = ty ∧ rb.ty = ty ∧ ra.roleB = false ∧ rb.roleB = true ∧ ma ≠
      mb ∧ (s.core (coreOf b)).colChange = none ∧ s.mapBad b y ra steps.toNat = none ∧ s.mapBad b y rb steps.toNat = none
      ∧ s.side b y ra 0 = some va ∧ s.side b y rb 0 = some vb ∧ y.mat.depth.getD (bankIx c) 0 + y.mat.reserved.getD
      (bankIx c) 0 + 30 * steps.toNat ≤ 4095)
    ∧ (∃ (s : State) (b ix : Nat) (x : Stream) (y : Block) (str : BitVec 2) (ty : Ty) (c : Bank) (ma mb : MNum) (steps : BitVec
      32) (set : BitVec 2) (ra rb : MapRec), s.MatReady b ix x y str 4 0 ∧ tget y.mat.maps ma.toNat = some ra ∧ tget
      y.mat.maps mb.toNat = some rb ∧ ra.ty = ty ∧ rb.ty = ty ∧ ra.roleB = false ∧ rb.roleB = true ∧ (s.core (coreOf
      b)).colChange = none ∧ s.mapBad b y ra steps.toNat = none ∧ s.mapBad b y rb steps.toNat = none ∧ 4095 <
      y.mat.depth.getD (bankIx c) 0 + y.mat.reserved.getD (bankIx c) 0 + 30 * steps.toNat)
    ∧ (∃ (s : State) (b : Nat) (y : Block) (str : BitVec 2) (op : MatOp) (rest : List MatOp) (va vb : List (List Byte)), s.blk b
      = some y ∧ y.mat.queue str.toNat = op :: rest ∧ op.cnt = true ∧ op.z < 3 ∧ y.mat.depth.length = 3 ∧ y.frozen = .no ∧
      s.stopped = false ∧ (s.govern (coreOf b) (4 * b + str.toNat) 4).2 = true ∧ (y.isOpen = true ∨ s.snapUsed (coreOf b)
      + 229376 ≤ 0x200000) ∧ s.side b y op.ma op.done = some va ∧ s.side b y op.mb op.done = some vb)
    ∧ (∃ (s : State) (b ix : Nat) (x : Stream) (y : Block) (str : BitVec 2) (c : Bank), s.MatReady b ix x y str 1 327680 ∧ c ≠
      .c2 ∧ y.mat.CountsOk ∧ y.mat.depth.length = 3 ∧ y.mat.depth.getD 2 0 + y.mat.depth.getD (bankIx c) 0 < 2 ^ 28)
    ∧ (∃ (s : State) (b ix : Nat) (x : Stream) (y : Block) (str : BitVec 2) (c : Bank), s.MatReady b ix x y str 1 0 ∧ c ≠ .c2 ∧
      2 ^ 28 ≤ y.mat.depth.getD 2 0 + y.mat.depth.getD (bankIx c) 0)
    ∧ (∃ (s : State) (b ix : Nat) (x : Stream) (y : Block) (str set : BitVec 2) (c : Bank) (z : Sys2Proof.ZNum), s.MatReady b ix
      x y str 1 233472 ∧ y.mat.CountsOk)
    ∧ (∃ (s : State) (b ix : Nat) (x : Stream) (y : Block) (str set : BitVec 2) (c : Bank) (a : SReg) (disp : BitVec 32) (o :
      Nat), s.MatReady b ix x y str 1 245760 ∧ y.mat.CountsOk ∧ o = (s.sread s.cur a + disp.signExtend 64).toNat ∧ o +
      8192 ≤ y.kern.shared ∧ o % 8 = 0) :=
  ⟨⟨bankS 0 3995 0 10 [], 0, 1, mst, bk (bankS 0 3995 0 10 []) 0, 1, .t4, .c1, 1, 2, 3, 0, mpA .t4, mpB .t4, _, _, ⟨⟨d, d⟩,
    blkd, d, d, d⟩, d, d, d, d, d, d, d, d, d, d, d, d, d, (someGetD (x := []) d), (someGetD (x := []) d), d⟩,
   ⟨bankS 0 3996 0 10 [], 0, 1, mst, bk (bankS 0 3996 0 10 []) 0, 1, .t4, .c1, 1, 2, 3, 0, mpA .t4, mpB .t4, ⟨⟨d, d⟩, blkd,
    d, d, d⟩, d, d, d, d, d, d, d, d, d, d⟩,
   ⟨m3, 0, bk m3 0, 1, opOf true .t4, [], _, _, blkd, d, d, d, d, d, d, d, d, (someGetD (x := []) d), (someGetD (x := []) d)⟩,
   ⟨m4, 0, 1, mst, bk m4 0, 1, .c1, ⟨⟨d, d⟩, blkd, d, d, d⟩, d, countsOk, d, d⟩,
   ⟨m5, 0, 1, mst, bk m5 0, 1, .c1, ⟨⟨d, d⟩, blkd, d, d, d⟩, d, d⟩,
   ⟨m4, 0, 1, mst, bk m4 0, 1, 0, .c1, 4, ⟨⟨d, d⟩, blkd, d, d, d⟩, countsOk⟩,
   ⟨m4, 0, 1, mst, bk m4 0, 1, 3, .c1, 1, 0xFF0, 0x1000, ⟨⟨d, d⟩, blkd, d, d, d⟩, countsOk, d, d, d⟩⟩

theorem premises_Governor :
    (∃ (s : State) (b ix : Nat) (x : Stream) (y : Block) (str : BitVec 2) (spec : Bool) (z : Sys2Proof.ZNum) (cap : Nat),
      s.Streamed b .mat ix x ∧ s.blk b = some y ∧ y.mat.queue str.toNat = [] ∧ (s.core (coreOf b)).govWindow = s.clock /
      64 ∧ cap < 0xFFFF ∧ cap = min (s.core (coreOf b)).govBudget (min (s.fw.powerCap.getD (s.core (coreOf b)).govBudget)
      (((s.fw.thermal.find? fun e => decide (e.stook = coreOf b / 128)).map fun e => e.cap).getD (s.core (coreOf
      b)).govBudget)) ∧ allowance cap (s.core (coreOf b)).govPrev < (s.core (coreOf b)).govUsed + 1)
    ∧ (∃ (s : State) (b ix : Nat) (x : Stream) (y : Block) (str : BitVec 2) (spec : Bool) (z : Sys2Proof.ZNum) (cap : Nat),
      s.Streamed b .mat ix x ∧ s.blk b = some y ∧ y.mat.queue str.toNat = [] ∧ (s.core (coreOf b)).govWindow = s.clock /
      64 ∧ y.isOpen = true ∧ cap = min (s.core (coreOf b)).govBudget (min (s.fw.powerCap.getD (s.core (coreOf
      b)).govBudget) (((s.fw.thermal.find? fun e => decide (e.stook = coreOf b / 128)).map fun e => e.cap).getD (s.core
      (coreOf b)).govBudget)) ∧ (0xFFFF ≤ cap ∨ (s.core (coreOf b)).govUsed + 1 ≤ allowance cap (s.core (coreOf
      b)).govPrev)) :=
  ⟨⟨gov 8 0 5, 0, 1, mst, bk (gov 8 0 5) 0, 1, false, 2, _, ⟨d, d⟩, blkd, d, d, d, rfl, d⟩,
   ⟨gov 7 0 5, 0, 1, mst, bk (gov 7 0 5) 0, 1, false, 2, _, ⟨d, d⟩, blkd, d, d, d, rfl, d⟩⟩

theorem premises_Copies :
    (∃ (s : State) (y : Block) (fl : CmdFlags) (rd ra : SReg) (len : BitVec 32) (d a : Nat), d = (s.sread s.cur rd).toNat ∧ a
      = (s.sread s.cur ra).toNat ∧ (fl.scrD ≠ fl.scrS ∨ d + len.toNat ≤ a ∨ a + len.toNat ≤ d) ∧ s.CmdRoom y (if fl.scrD
      then some (d, len.toNat) else none) (fl.scrD || fl.scrS))
    ∧ (∃ (s : State) (fl : CmdFlags) (rd ra : SReg) (len : BitVec 32) (d a : Nat), s.HasIssuer ∧ (∀ b e ix, s.cur = .stream b e
      ix → e = .copy) ∧ d = (s.sread s.cur rd).toNat ∧ a = (s.sread s.cur ra).toNat ∧ fl.scrD = fl.scrS ∧ d < a +
      len.toNat ∧ a < d + len.toNat)
    ∧ (∃ (s : State) (y : Block) (fl : CmdFlags) (rd ra rc : SReg) (tr : Bool) (pd cd pa ca pc cc : Nat) (dd da dr : List Byte)
      (d a : Tensor) (start count : List Nat), s.CmdRoom y none false ∧ s.Bare (coreOf s.cur.block) ∧ s.Lands s.cur.block
      (s.sread s.cur rd).toNat ⟨true, false, false⟩ pd cd 128 ∧ s.Lands s.cur.block (s.sread s.cur ra).toNat ⟨true, false,
      false⟩ pa ca 128 ∧ s.Lands s.cur.block (s.sread s.cur rc).toNat ⟨true, false, false⟩ pc cc 64 ∧ dd = ((List.range
      128).map fun i => s.homeByte (some s.cur.block) (cd + i)) ∧ da = ((List.range 128).map fun i => s.homeByte (some
      s.cur.block) (ca + i)) ∧ dr = ((List.range 64).map fun i => s.homeByte (some s.cur.block) (cc + i)) ∧ tensorBad fl
      tr dd da dr = false ∧ d = Tensor.parse dd ∧ a = Tensor.parse da ∧ start = ((List.range 6).map fun k => leNat
      ((dr.drop (4 * k)).take 4)) ∧ count = ((List.range 6).map fun k => leNat ((dr.drop (24 + 4 * k)).take 4)) ∧ d.packed
      = false ∧ d.owner = none ∧ a.owner = none ∧ dd ≠ da ∧ fl.scrD = false ∧ fl.scrS = false ∧ ((d.span (start.map fun _
      => 0) (if tr then swap01 count else count)).2 ≤ (a.span start count).1 ∨ (a.span start count).2 ≤ (d.span (start.map
      fun _ => 0) (if tr then swap01 count else count)).1))
    ∧ (∃ (s : State) (y : Block) (o : Gather) (scat : Bool) (d a b n : Nat), d = (s.sread s.cur o.d).toNat ∧ a = (s.sread s.cur
      o.a).toNat ∧ b = (s.sread s.cur o.b).toNat ∧ n = (s.sread s.cur o.c).toNat ∧ n ≤ 16777216 ∧ n ≠ 0 ∧ s.CmdRoom y (if
      o.fl.scrD then some (d, if scat then y.kern.shared - d else n * o.ty.bytes) else none) (o.fl.scrD || o.fl.scrS ||
      o.scrI))
    ∧ (∃ (s : State) (o : Gather) (scat : Bool), s.HasIssuer ∧ (∀ b e ix, s.cur = .stream b e ix → e = .copy) ∧ 16777216 <
      (s.sread s.cur o.c).toNat)
    ∧ (∃ (s : State) (d : SReg) (n : BitVec 8) (k : Nat), s.HasIssuer ∧ (∀ b e ix, s.cur = .stream b e ix → e = .copy) ∧ k =
      (s.cmds.filter fun e => decide (e.2.who = s.cur) && decide (e.2.op ≠ .coll)).length ∧ n.toNat ≤ 48 ∧ s.Room 0 ∧
      s.scalarOver d = false ∧ n.toNat < k)
    ∧ (∃ (s : State) (d : SReg) (n : BitVec 8) (k : Nat), s.HasIssuer ∧ (∀ b e ix, s.cur = .stream b e ix → e = .copy) ∧ k =
      (s.cmds.filter fun e => decide (e.2.who = s.cur) && decide (e.2.op ≠ .coll)).length ∧ n.toNat ≤ 48 ∧ s.Room 0 ∧
      s.scalarOver d = false ∧ k ≤ n.toNat)
    ∧ (∃ (s : State) (id : Nat) (c : Cmd) (y : Block) (d a q n pa cell : Nat), s.CmdGoes id c y ∧ c.op = .linear d a c.total ∧
      c.pos < c.total ∧ c.fl.scrD = true ∧ c.fl.scrS = false ∧ d + c.total ≤ y.kern.shared ∧ a + c.total ≤ 2 ^ 64 ∧ q =
      256 * (c.pos / 256 + 1) ∧ n = min c.total (min (wordEnd d q) (pageEnd a q)) ∧ s.Lands c.block (a + c.pos) ⟨true,
      false, false⟩ pa cell (n - c.pos))
    ∧ (∃ (s : State) (id : Nat) (c : Cmd) (y : Block) (d a q n pa cell : Nat), s.CmdGoes id c y ∧ c.op = .linear d a c.total ∧
      c.pos < c.total ∧ c.fl.scrD = false ∧ c.fl.scrS = true ∧ a + c.total ≤ y.kern.shared ∧ d + c.total ≤ 2 ^ 64 ∧ q =
      256 * (c.pos / 256 + 1) ∧ n = min c.total (min (wordEnd d q) (pageEnd a q)) ∧ s.Lands c.block (d + c.pos) ⟨false,
      true, false⟩ pa cell (n - c.pos) ∧ s.scrPoison c.block y (a + c.pos) (n - c.pos) = false ∧ y.vers = [] ∧ y.vclean =
      [] ∧ y.versLines = [] ∧ twf s.blocks = true ∧ (∀ i, i < n - c.pos → isPinned (pa + i) = false ∨ vaultOf (cell + i) ≠
      coreOf c.block))
    ∧ (∃ (s : State) (id : Nat) (c : Cmd) (y : Block) (d a q n pa cell : Nat), s.CmdGoes id c y ∧ c.op = .linear d a c.total ∧
      c.pos < c.total ∧ c.fl.scrD = false ∧ c.fl.scrS = true ∧ a + c.total ≤ y.kern.shared ∧ d + c.total ≤ 2 ^ 64 ∧ q =
      256 * (c.pos / 256 + 1) ∧ n = min c.total (min (wordEnd d q) (pageEnd a q)) ∧ s.Lands c.block (d + c.pos) ⟨false,
      true, false⟩ pa cell (n - c.pos) ∧ s.scrPoison c.block y (a + c.pos) (n - c.pos) = false ∧ y.vers = [] ∧ y.vclean =
      [] ∧ y.versLines = [] ∧ twf s.blocks = true ∧ (∀ i, i < n - c.pos → isPinned (pa + i) = true ∧ vaultOf (cell + i) =
      coreOf c.block))
    ∧ (∃ (s : State) (id : Nat) (c : Cmd) (y : Block) (d a b z n : Nat) (ix pa cell : Nat → Nat), s.CmdGoes id c y ∧ c.op =
      .gath d a b c.total z ∧ c.pos < c.total ∧ 0 < z ∧ z ≤ 8 ∧ c.fl.scrD = true ∧ c.fl.scrS = false ∧ c.scrI = true ∧ d +
      c.total * z ≤ y.kern.shared ∧ b + 4 * c.total ≤ y.kern.shared ∧ (d + c.total * z ≤ b ∨ b + 4 * c.total ≤ d) ∧
      s.scrPoison c.block y (b + 4 * c.pos) (4 * (n - c.pos)) = false ∧ n = min (64 * (c.pos / 64 + 1)) c.total ∧ (∀ j, ix
      j = numberAt (s.scrAt c.block y) (b + 4 * j) 4) ∧ (∀ j, c.pos ≤ j → j < n → a + ix j * z + z ≤ 2 ^ 64 ∧ s.Lands
      c.block (a + ix j * z) ⟨true, false, false⟩ (pa j) (cell j) z))
    ∧ (∃ (s : State) (id : Nat) (c : Cmd) (y : Block) (d a b z n : Nat) (ix pa cell : Nat → Nat), s.CmdGoes id c y ∧ c.op =
      .scat d a b c.total z ∧ c.pos < c.total ∧ 0 < z ∧ z ≤ 8 ∧ c.fl.scrD = true ∧ c.fl.scrS = false ∧ c.scrI = true ∧ b +
      4 * c.total ≤ y.kern.shared ∧ s.scrPoison c.block y (b + 4 * c.pos) (4 * (n - c.pos)) = false ∧ n = min (64 * (c.pos
      / 64 + 1)) c.total ∧ (∀ j, ix j = numberAt (s.scrAt c.block y) (b + 4 * j) 4) ∧ (∀ j, c.pos ≤ j → j < n → d + ix j *
      z + z ≤ y.kern.shared ∧ (d + ix j * z + z ≤ b ∨ b + 4 * c.total ≤ d + ix j * z) ∧ a + j * z + z ≤ 2 ^ 64 ∧ s.Lands
      c.block (a + j * z) ⟨true, false, false⟩ (pa j) (cell j) z))
    ∧ (∃ (s : State) (id : Nat) (c : Cmd) (y : Block), s.CmdGoes id c y ∧ c.op ≠ .coll ∧ c.total ≤ c.pos ∧ ordRels c.fl.ord =
      false)
    ∧ (∃ (s : State) (id : Nat) (c : Cmd), tget s.cmds id = some c ∧ c.pos < c.total) :=
  ⟨⟨c1, bk c1 0, fl true true, 1, 2, 0xC0, 0x140, 0x200, d, d, d, ⟨issuer, curs, blkd, room, d, d, cmdFree⟩⟩,
   ⟨c1, fl true true, 1, 2, 0xC1, 0x140, 0x200, issuer, curs, d, d, d, d, d⟩,
   ⟨tens, bk tens 0, fl false false, 1, 2, 3, true, 0x20000, D, 0x20080, D + 0x80, 0x20100, D + 0x100, dD, dA, dR,
    Tensor.parse dD, Tensor.parse dA, [1, 2, 0, 0, 0, 0], [4, 3, 0, 0, 0, 0], ⟨issuer, curs, blkd, room, d, d, cmdFree⟩,
    bare, lands, lands, lands, d, d, d, d, d, d, d, d, d, d, d, d, d, d, d⟩,
   ⟨c2 16777216, bk (c2 16777216) 0, gat, true, _, _, _, _, rfl, rfl, rfl, rfl, d, d, ⟨issuer, curs, blkd, room, d, d,
    cmdFree⟩⟩,
   ⟨c2 16777217, gat, true, issuer, curs, d⟩,
   ⟨c3, 7, 0, 1, issuer, curs, d, d, room, d, d⟩,
   ⟨c3, 0, 48, 1, issuer, curs, d, d, room, d, d⟩,
   ⟨run l1, 5, l1, bk (run l1) 0, 0x143, 0x20000, 512, 517, 0x20105, D + 0x105, ⟨d, blkd, d, d, d, d, d, d, d, d, bare⟩, d,
    d, d, d, d, d, d, d, lands⟩,
   ⟨run l2, 5, l2, bk (run l2) 0, 0x20000, 0x140, 512, 280, 0x20100, D + 0x100, ⟨d, blkd, d, d, d, d, d, d, d, d, bare⟩, d,
    d, d, d, d, d, d, d, lands, d, d, d, d, d, d⟩,
   ⟨run l2v, 5, l2v, bk (run l2v) 0, 0x100000020000, 0x140, 512, 280, 0x100000020100, 0x20100, ⟨d, blkd, d, d, d, d, d, d, d,
    d, bare⟩, d, d, d, d, d, d, d, d, lands, d, d, d, d, d, d⟩,
   ⟨run l3, 5, l3, bk (run l3) 0, 0x180, 0x20000, 0x40, 2, 70, fun j => numberAt ((run l3).scrAt 0 (bk (run l3) 0)) (0x40 + 4
    * j) 4, fun _ => 0x20000, fun _ => D, ⟨d, blkd, d, d, d, d, d, d, d, d, bare⟩, d, d, d, d, d, d, d, d, d, d, d, d,
    (fun _ => rfl), landsGath⟩,
   ⟨run l4, 5, l4, bk (run l4) 0, 0x180, 0x20000, 0x40, 2, 70, fun j => numberAt ((run l4).scrAt 0 (bk (run l4) 0)) (0x40 + 4
    * j) 4, fun j => 0x20000 + j * 2, fun j => D + j * 2, ⟨d, blkd, d, d, d, d, d, d, d, d, bare⟩, d, d, d, d, d, d, d, d,
    d, d, (fun _ => rfl), landsScat⟩,
   ⟨run l5, 5, l5, bk (run l5) 0, ⟨d, blkd, d, d, d, d, d, d, d, d, bare⟩, d, d, d⟩,
   ⟨run l4, 5, l4, d, d⟩⟩

theorem premises_Messages :
    (∃ (s r : State) (b : Nat) (y : Block) (d ra rb : SReg) (len : BitVec 32) (o : Nat) (x : Word64), s.MsgReady b y d ∧
      (Instr.xsend true d ra rb len).wf = true ∧ x = s.sread s.cur ra ∧ x.toNat / 2 ^ 45 = s.nodeId ∧ x.getLsbD 41 = false
      ∧ (s.sends.filter fun e => decide (e.2.core = coreOf b) && e.2.status.isNone).length < 64 ∧ o = (s.sread s.cur
      rb).toNat ∧ o + len.toNat ≤ y.kern.shared ∧ s.scrPoison b y o len.toNat = false ∧ r = (if d = 0 then s else
      s.setPending s.cur fun l => l ++ [d]))
    ∧ (∃ (s r : State) (b : Nat) (y : Block) (d ra rb : SReg) (len : BitVec 32) (o : Nat) (x : Word64), s.MsgReady b y d ∧
      (Instr.xsend true d ra rb len).wf = true ∧ x = s.sread s.cur ra ∧ x.toNat / 2 ^ 45 ≠ s.nodeId ∧ x.getLsbD 41 = false
      ∧ (409600 ≤ x.toNat / 2 ^ 45 ∨ (s.ctx y.tag.slot).rcd.job = 0 ∨ (s.ctx y.tag.slot).rcd.peers.contains (x.toNat / 2 ^
      45) = false ∨ (s.ctx y.tag.slot).unreachable.contains (x.toNat / 2 ^ 45) = true) ∧ (s.sends.filter fun e => decide
      (e.2.core = coreOf b) && e.2.status.isNone).length < 64 ∧ o = (s.sread s.cur rb).toNat ∧ o + len.toNat ≤
      y.kern.shared ∧ s.scrPoison b y o len.toNat = false ∧ r = (if d = 0 then s else s.setPending s.cur fun l => l ++
      [d]))
    ∧ (∃ (s : State) (n : Nat) (m : Msg) (x : Send) (ix b : Nat) (p : Post) (y : Block), s.Arrived n m x ∧ twf (s.core
      m.dest).posts = true ∧ (s.core m.dest).Takes m.tag.slot m ix p ∧ p.scr = true ∧ s.findBlk p.grid p.blockId = some b
      ∧ s.blk b = some y ∧ p.buf + 80 ≤ y.kern.shared)
    ∧ (∃ (s : State) (n : Nat) (m : Msg) (x : Send), s.Arrived n m x ∧ (∀ ix p, ix < 64 → tget (s.core m.dest).posts ix = some p
      → ¬ p.Fits m.tag.slot m) ∧ twf (s.core m.dest).posts = true ∧ ((s.core m.dest).ovf.filter fun q => decide (q.rcvSlot
      = m.tag.slot)).length < (cget (0, 0) (s.core m.dest).quota m.tag.slot).2)
    ∧ (∃ (s : State) (n : Nat) (m : Msg) (x : Send), s.Arrived n m x ∧ (∀ ix p, ix < 64 → tget (s.core m.dest).posts ix = some p
      → ¬ p.Fits m.tag.slot m) ∧ twf (s.core m.dest).posts = true ∧ (cget (0, 0) (s.core m.dest).quota m.tag.slot).2 ≤
      ((s.core m.dest).ovf.filter fun q => decide (q.rcvSlot = m.tag.slot)).length ∧ (s.ctx m.tag.slot).rcd.eventq = 0)
    ∧ (∃ (s : State) (n : Nat) (m : Msg), s.msgs[n]? = some m ∧ (∀ i e, i < n → s.msgs[i]? = some e → ¬ (e.srcNode = m.srcNode ∧
      e.srcCore = m.srcCore ∧ e.dest = m.dest)) ∧ m.srcNode = s.nodeId ∧ s.tagLive m.tag = false)
    ∧ (∃ (s : State) (n st : Nat) (x : Send), tget s.sends n = some x ∧ x.status = some st ∧ x.d ≠ 0 ∧ s.Party x.who)
    ∧ (∃ (s : State) (b ix gen : Nat) (y : Block) (scr : Bool) (d ra rb : SReg) (tag : BitVec 32) (x : Word64) (p : Post),
      s.MsgReady b y d ∧ x = s.sread s.cur ra ∧ (cget (0, 0) (s.core (coreOf b)).quota y.tag.slot).1 > ((s.core (coreOf
      b)).posts.filter fun e => decide (e.1 < 64) && decide (e.2.tag.slot = y.tag.slot)).length ∧ ix < 64 ∧ tget (s.core
      (coreOf b)).posts ix = none ∧ (∀ i, i < ix → tget (s.core (coreOf b)).posts i ≠ none) ∧ gen = (cget 0 (s.core
      (coreOf b)).postGens ix + 1) % 256 ∧ p = ⟨gen, y.tag, if x.getLsbD 41 then none else some (x.toNat / 2 ^ 45, x.toNat
      / 2 ^ 32 % 2 ^ 9), tag.toNat, (s.sread s.cur rb).toNat, scr, y.grid, y.blockId, 0, (s.core (coreOf b)).postSeq,
      none, []⟩ ∧ (∀ m, m ∈ (s.core (coreOf b)).ovf → m.rcvSlot = y.tag.slot → m.mtag = tag.toNat → p.src ≠ none ∧ p.src ≠
      some (m.srcNode, m.srcCore)))
    ∧ (∃ (s : State) (b : Nat) (y : Block) (scr : Bool) (d ra rb : SReg) (tag : BitVec 32), s.MsgReady b y d ∧ (cget (0, 0)
      (s.core (coreOf b)).quota y.tag.slot).1 ≤ ((s.core (coreOf b)).posts.filter fun e => decide (e.1 < 64) && decide
      (e.2.tag.slot = y.tag.slot)).length ∧ (∀ m, m ∈ (s.core (coreOf b)).ovf → m.rcvSlot ≠ y.tag.slot ∨ m.mtag ≠
      tag.toNat))
    ∧ (∃ (s : State) (b ix gen : Nat) (y : Block) (d ra rb : SReg) (tag : BitVec 32) (x : Word64) (p : Post) (m : Msg) (q r :
      List Msg) (o : Nat), s.MsgReady b y d ∧ x = s.sread s.cur ra ∧ o = (s.sread s.cur rb).toNat ∧ o + 80 ≤ y.kern.shared
      ∧ s.findBlk y.grid y.blockId = some b ∧ ix < 64 ∧ tget (s.core (coreOf b)).posts ix = none ∧ (∀ i, i < ix → tget
      (s.core (coreOf b)).posts i ≠ none) ∧ gen = (cget 0 (s.core (coreOf b)).postGens ix + 1) % 256 ∧ p = ⟨gen, y.tag, if
      x.getLsbD 41 then none else some (x.toNat / 2 ^ 45, x.toNat / 2 ^ 32 % 2 ^ 9), tag.toNat, o, true, y.grid,
      y.blockId, 0, (s.core (coreOf b)).postSeq, none, []⟩ ∧ (s.core (coreOf b)).ovf = q ++ m :: r ∧ m.rcvSlot =
      y.tag.slot ∧ p.Fits y.tag.slot m ∧ m ∉ q ∧ (∀ e, e ∈ q → e.rcvSlot = y.tag.slot → ¬ p.Fits y.tag.slot e) ∧
      m.data.length ≤ 64)
    ∧ (∃ (s : State) (b c ix key : Nat) (y : Block) (wait : Bool) (d a : SReg) (p : Post) (v : _), s.MsgReady b y d ∧ s.Handle
      (s.sread s.cur a) c ix key p y.tag ∧ p.state = 0 ∧ wait = true ∧ s.Slotted v)
    ∧ (∃ (s : State) (b c ix key : Nat) (y : Block) (wait : Bool) (d a : SReg) (p : Post) (q : _) (e : _) (i : _) (x : _),
      s.MsgReady b y d ∧ s.Handle (s.sread s.cur a) c ix key p y.tag ∧ p.state = 0 ∧ wait = true ∧ s.Streamed q e i x)
    ∧ (∃ (s : State) (b c ix key : Nat) (y : Block) (wait : Bool) (d a : SReg) (p : Post), s.MsgReady b y d ∧ s.Handle (s.sread
      s.cur a) c ix key p y.tag ∧ p.state = 0 ∧ wait = false)
    ∧ (∃ (s : State) (b c ix key : Nat) (y : Block) (wait : Bool) (d a : SReg) (p : Post), s.MsgReady b y d ∧ s.Handle (s.sread
      s.cur a) c ix key p y.tag ∧ p.state ≠ 0)
    ∧ (∃ (s : State) (b c ix key : Nat) (y : Block) (wait : Bool) (d a : SReg) (p : Post), s.MsgReady b y d ∧ s.Handle (s.sread
      s.cur a) c ix key p y.tag)
    ∧ (∃ (s : State) (b : Nat) (y : Block) (wait : Bool) (d a : SReg), s.MsgReady b y d ∧ (∀ c ix key p, ¬ s.Handle (s.sread
      s.cur a) c ix key p y.tag)) :=
  ⟨⟨n1, _, 0, bk n1 0, 5, 1, 2, 64, 0x2FC0, _, msgReady, d, rfl, d, d, d, d, d, d, rfl⟩,
   ⟨n2, _, 0, bk n2 0, 0, 1, 2, 64, 0x2FC0, _, msgReady, d, rfl, d, d, d, d, d, d, d, rfl⟩,
   ⟨r1, 0, mg 64, sn none, 1, 0, post 3 (some (7, 3)) 0x55 0, bk r1 0, arrived, d, takes, d, d, blkd, d⟩,
   ⟨r2 1, 0, mg 5, sn none, arrived, noFit, d, d⟩,
   ⟨r9, 1, mg 5, sn none, arrived, noFit, d, d, d⟩,
   ⟨{ r2 2 with msgs := [{ mg 5 with tag := ⟨0, 77⟩ }] }, 0, { mg 5 with tag := ⟨0, 77⟩ }, d, firstMsg, d, d⟩,
   ⟨{ n1 with sends := [(3, sn none), (4, sn (some 2))] }, 4, 2, sn (some 2), d, d, d, party⟩,
   ⟨r4, 0, 2, 0, bk r4 0, true, 5, 1, 2, 0x56, 0xE00300001234, _, msgReady, d, d, d, d, d, d, rfl, listAll⟩,
   ⟨r5, 0, bk r5 0, true, 5, 1, 2, 0x56, msgReady, d, listAll⟩,
   ⟨r3b, 0, 1, 5, bk r3b 0, 5, 1, 2, 0x55, 0xE00300001234, _, mg 5, [], [], 0x40, msgReady, d, d, d, d, d, d, d, d, rfl, d,
    d, (fits_iff.mpr d), d, noneIn, d⟩,
   ⟨r6, 0, 0, 0, 0, bk r6 0, true, 5, 1, post 2 none 0x55 0, vw r6, msgReady, handle, d, d, slotted⟩,
   ⟨r6s, 0, 0, 0, 0, bk r6s 0, true, 5, 1, post 2 none 0x55 0, 0, .msg, 1, strm .msg [(1, 0x400)], msgReady, handle, d, d,
    ⟨d, d⟩⟩,
   ⟨r6, 0, 0, 0, 0, bk r6 0, false, 5, 1, post 2 none 0x55 0, msgReady, handle, d, d⟩,
   ⟨r7, 0, 0, 1, 1, bk r7 0, true, 5, 1, post 3 none 0x55 1, msgReady, handle, d⟩,
   ⟨r10, 0, 0, 1, 321, bk r10 0, false, 0, 1, post 3 none 0x55 1, msgReady, handle⟩,
   ⟨r8, 0, bk r8 0, false, 5, 1, msgReady, noHandle⟩⟩

theorem premises_Collectives :
    (∃ (s : State) (b n m epoch rank : Nat) (y : Block) (ord : Ord) (sc : Scope) (ra rb : SReg) (plan : BitVec 32) (o : Obj)
      (pp d ws ls arg : List Byte) (words : List Nat) (p : Plan), s.HasIssuer ∧ (∀ q e ix, s.cur = .stream q e ix → e =
      .coll) ∧ s.DirectIn b y ∧ (∀ v, s.Slotted v → v.Alone) ∧ plan.toNat < y.kern.nplan ∧ (s.colls.filter fun e => decide
      (e.2.core = coreOf b)).length < 16 ∧ s.ReadsAs b (y.kern.plantab + 8 * plan.toNat) 8 pp ∧ leNat pp % 64 = 0 ∧
      s.ReadsAs b (leNat pp) 64 d ∧ n = leNat ((d.drop 8).take 4) ∧ planRecOk d = true ∧ (s.sread s.cur ra).toNat % 32 = 0
      ∧ s.ReadsAs b (leNat ((d.drop 24).take 8)) (8 * n) ws ∧ m = (if leNat ((d.drop 32).take 8) = 0 then 0 else n - 1) ∧
      s.ReadsAs b (leNat ((d.drop 32).take 8)) (2 * m) ls ∧ s.ReadsAs b (s.sread s.cur ra).toNat 32 arg ∧ s.ObjAt b
      (s.sread s.cur rb).toNat ⟨true, true, false⟩ o ∧ words = (List.range n).map (fun i => leNat ((ws.drop (8 * i)).take
      8)) ∧ planRanksOk d words = true ∧ p = planOf d (words.map rankOf) ((List.range m).map fun i => leNat ((ls.drop (2 *
      i)).take 2)) ∧ rank = leNat ((arg.drop 16).take 4) ∧ epoch = leNat ((arg.drop 20).take 4) ∧ (∀ i, i < 8 → arg[24 +
      i]? = some 0) ∧ p.ranks[rank]? = some (s.nodeId, coreOf b) ∧ (∀ r, r ∈ p.ranks → r.1 = s.nodeId))
    ∧ (∃ (s : State) (b : Nat) (y : Block) (ord : Ord) (sc : Scope) (ra rb : SReg) (plan : BitVec 32), s.HasIssuer ∧ s.cur.block
      = b ∧ (∀ q e ix, s.cur = .stream q e ix → e = .coll) ∧ s.blk b = some y ∧ y.kern.nplan ≤ plan.toNat)
    ∧ (∃ (s : State) (v u : View) (ord : Ord) (sc : Scope) (ra rb : SReg) (plan : BitVec 32), s.Slotted v ∧ plan.toNat <
      v.b.kern.nplan ∧ s.view v.bid v.wid (1 - v.k) = some u ∧ u.sl.live = true ∧ u.sl.status ≠ .blocked .coll)
    ∧ (∃ (s : State) (pk : Packet) (x : Contrib), pk.kind = .contribution ∧ pk.age < 2000 ∧ x = planContrib pk ∧ (x.abort = true
      → leNat ((pk.data.drop 14).take 1) ≠ 1) ∧ tget s.peersInc (pk.src * 1024 + pk.tagSlot) ≠ some (true, pk.tagInc) ∧
      (x.abort = true → tget s.peersInc (pk.src * 1024 + pk.tagSlot) ≠ some (false, pk.tagInc)))
    ∧ (∃ (s : State) (pk : Packet) (x : Contrib), pk.kind = .contribution ∧ pk.age < 2000 ∧ x = planContrib pk ∧ (x.abort = true
      → leNat ((pk.data.drop 14).take 1) ≠ 1) ∧ (tget s.peersInc (pk.src * 1024 + pk.tagSlot) = some (true, pk.tagInc) ∨
      x.abort = true ∧ tget s.peersInc (pk.src * 1024 + pk.tagSlot) = some (false, pk.tagInc)) ∧ leNat ((pk.data.drop
      6).take 4) ≠ 0 ∧ (x.core, x.planid, x.epoch) ∉ s.collDone)
    ∧ (∃ (s : State) (pk : Packet) (x : Contrib), x = planContrib pk ∧ pk.age < 2000 ∧ (pk.kind = .result ∨ pk.kind =
      .contribution ∧ x.abort = true ∧ leNat ((pk.data.drop 14).take 1) = 1) ∧ s.tagLive ⟨pk.tagSlot, pk.tagInc⟩ = true ∧
      (x.core, x.planid, x.epoch) ∉ s.collDone)
    ∧ (∃ (s : State) (pk : Packet) (x : Contrib), x = planContrib pk ∧ pk.age < 2000 ∧ (pk.kind = .result ∨ pk.kind =
      .contribution ∧ x.abort = true ∧ leNat ((pk.data.drop 14).take 1) = 1) ∧ s.tagLive ⟨pk.tagSlot, pk.tagInc⟩ = false)
    ∧ (∃ (s : State) (id c core : Nat) (x : Coll) (io : Cmd) (y : Block) (d : List Byte), s.CollHas id c x io y ∧ s.PlanHere
      x.plan ∧ c ∉ x.sent ∧ x.rank < x.plan.ranks.length ∧ 2 ≤ x.plan.ranks.length ∧ x.plan.ranks.length ≤ 409600 ∧ (∀ q
      k, x.plan.parent x.rank 1 = some (k, q) → core = ((x.plan.ranks[q.1]?).getD (0, 0)).2) ∧ (core, x.plan.planid,
      x.epoch) ∉ s.collDone ∧ (if x.plan.op = 1 ∨ x.plan.op = 2 ∨ x.rank = (if x.plan.op = 3 then c % x.plan.ranks.length
      else 0) then s.ReadsAs x.block (x.src + c * x.plan.chunk) x.plan.chunk d else d = [])) :=
  ⟨⟨collS, 0, 3, 0, 0x55, 1, bk collS 0, .acq, .dev, 1, 2, 1, ob1, le 8 0x20080, prec, rws.flatMap (le 8), [], carg, _, _,
    issuer, curs, (directIn bare), (onlySlot alone), d, d, readsAs, d, readsAs, d, d, d, readsAs, d, readsAs, readsAs,
    objAt, rfl, d, rfl, d, d, d, d, listAll⟩,
   ⟨collS, 0, bk collS 0, .acq, .dev, 1, 2, 2, issuer, d, curs, blkd, d⟩,
   ⟨split collS, vw (split collS), vwOf (split collS) 0 0 1, .acq, .dev, 1, 2, 1, slotted, d, viewedAs, d, d⟩,
   ⟨peer 2, cpk 0, _, d, d, rfl, d, d, d⟩,
   ⟨peer 3, cpk 0, _, d, d, rfl, d, d, d, d⟩,
   ⟨peer 3, crs 0, _, rfl, d, d, d, d⟩,
   ⟨peer 3, crs 1, _, rfl, d, d, d⟩,
   ⟨inst cl3 [], 4, 1, 5, cl3, io0, bk (inst cl3 []) 0, (List.range 256).map fun i => (inst cl3 []).homeByte (some 0) (D +
    0x200 + i), ⟨d, d, d, d, blkd, d, bare, d, d, d, d, d, d, d, d, d, d, listAll, listAll⟩, ⟨d, listAll⟩, d, d, d, d,
    (fun q k => optAll (P := fun e => 5 = ((cl3.plan.ranks[e.2.1]?).getD (0, 0)).2) d (k, q)), d, (by rw [if_pos d]; exact
    readsAs)⟩⟩

theorem premises_Collectives_on :
    (∃ (s : State) (id c lo n h core z : Nat) (x : Coll) (io : Cmd) (y : Block) (a b : List Byte), s.CollHas id c x io y ∧
      s.PlanHere x.plan ∧ c ∈ x.sent ∧ (∃ k, (k, lo, n) ∈ x.plan.own x.rank) ∧ (c, n) ∉ x.formed ∧ (∀ k m, (k, lo, m) ∈
      x.plan.own x.rank → m < n → (c, m) ∈ x.formed) ∧ h = 2 ^ Nat.log2 (n - 1) ∧ s.chunkOf x (some (lo, h)) c = some a ∧
      s.chunkOf x (some (lo + h, n - h)) c = some b ∧ z = x.plan.ty.bytes ∧ (∀ r, r ∈ x.plan.ranks → (r.2, x.plan.planid,
      x.epoch) ∉ s.collDone) ∧ x.plan.ranks.length ≤ 409600)
    ∧ (∃ (F : Nat → Nat → Nat) (x : Nat → Nat) (n lo h k : Nat), 2 ≤ n ∧ n ≤ 2 ^ k ∧ h = 2 ^ Nat.log2 (n - 1))
    ∧ (∃ (s : State) (id c pa cell : Nat) (x : Coll) (io : Cmd) (y : Block) (d : List Byte), s.CollHas id c x io y ∧ x.Spent c ∧
      c ∉ x.wrote ∧ s.chunkOf x none c = some d ∧ d ≠ [] ∧ s.Lands x.block (x.dst + c * x.plan.chunk) ⟨false, true, false⟩
      pa cell x.plan.chunk ∧ (∀ i, i < x.plan.chunk → isPinned (pa + i) = false ∨ vaultOf (cell + i) ≠ x.core) ∧ (cell +
      x.plan.chunk ≤ x.obj ∨ x.obj + 64 ≤ cell) ∧ (∃ k, k < x.plan.nchunk ∧ k ≠ c ∧ (x.done ||| x.abort).getLsbD k =
      false))
    ∧ (∃ (s : State) (id c : Nat) (x : Coll) (io : Cmd) (y : Block), s.CollHas id c x io y ∧ x.Spent c ∧ s.chunkOf x none c =
      some [] ∧ x.abort = 0 ∧ (∀ k, k < x.plan.nchunk → k ≠ c → x.done.getLsbD k = true))
    ∧ (∃ (s : State) (id c : Nat) (x : Coll) (io : Cmd) (y : Block) (e : Contrib), tget s.colls id = some x ∧ tget s.cmds id =
      some io ∧ s.cmdReady io = true ∧ s.blk io.block = some y ∧ (s.ctx y.tag.slot).rcd.policy ≠ 1 ∧ (s.ctx
      y.tag.slot).rcd.eventq = 0 ∧ c < x.plan.nchunk ∧ (x.done ||| x.abort).getLsbD c = false ∧ e ∈ s.contribs ∧ e.core =
      x.core ∧ e.epoch = x.epoch ∧ e.chunk = c ∧ e.planid ≠ x.plan.planid ∧ (∀ k q, tget s.colls k = some q →
      q.plan.planid ≠ e.planid) ∧ (∀ k, k ∈ s.colls → k.2.plan.planid = x.plan.planid → k.1 = id) ∧ twf s.colls = true)
    ∧ (∃ (s : State) (id c : Nat) (x : Coll), tget s.colls id = some x ∧ c < x.plan.nchunk ∧ x.plan.nchunk ≤ 64 ∧ (∃ e, e ∈
      s.contribs ∧ e.core = x.core ∧ e.planid = x.plan.planid ∧ e.epoch = x.epoch ∧ e.node = none ∧ e.chunk = c ∧ e.abort
      = true) ∧ (x.done ||| x.abort).getLsbD c = false ∧ (∃ k, k < x.plan.nchunk ∧ k ≠ c ∧ (x.done ||| x.abort).getLsbD k
      = false))
    ∧ (∃ (s : State) (b : Nat) (y : Block) (ord : Ord) (sc : Scope) (a : SReg) (c : BitVec 32) (o : Obj), s.HasIssuer ∧ (∀ q e
      ix, s.cur = .stream q e ix → e = .coll) ∧ s.DirectIn b y ∧ (Instr.waitchunk ord sc a c).wf = true ∧ s.ObjAt b
      (s.sread s.cur a).toNat ⟨true, false, false⟩ o ∧ ((numberAt s.dramByte (o.key + 8) 8).testBit c.toNat = true ∨
      numberAt s.dramByte (o.key + 16) 8 ≠ 0))
    ∧ (∃ (s : State) (b : Nat) (y : Block) (ord : Ord) (sc : Scope) (a : SReg) (c : BitVec 32) (o : Obj), s.HasIssuer ∧ (∀ q e
      ix, s.cur = .stream q e ix → e = .coll) ∧ s.DirectIn b y ∧ (Instr.waitchunk ord sc a c).wf = true ∧ s.ObjAt b
      (s.sread s.cur a).toNat ⟨true, false, false⟩ o ∧ (¬ ((numberAt s.dramByte (o.key + 8) 8).testBit c.toNat = true ∨
      numberAt s.dramByte (o.key + 16) 8 ≠ 0))) :=
  ⟨⟨inst cl4 sub, 4, 1, 0, 3, 2, 3, 4, cl4, io0, bk (inst cl4 sub) 0, le 256 7, two256, ⟨d, d, d, d, blkd, d, bare, d, d, d,
    d, d, d, d, d, d, d, listAll, listAll⟩, ⟨d, listAll⟩, d, ⟨0, d⟩, d, (fun k m h => listAll (P := fun e : Nat × Nat ×
    Nat => e.2.2 < 3 → (1, e.2.2) ∈ cl4.formed) d (k, 0, m) h), d, d, d, d, listAll, d⟩,
   ⟨fun a b => a + b, id, 3, 0, 2, 2, d, d, d⟩,
   ⟨inst cl5 rst, 4, 1, 0x20300, D + 0x300, cl5, io0, bk (inst cl5 rst) 0, two256, ⟨d, d, d, d, blkd, d, bare, d, d, d, d, d,
    d, d, d, d, d, listAll, listAll⟩, ⟨d, listAll⟩, d, d, d, lands, d, d, ⟨0, d⟩⟩,
   ⟨inst cl6 non, 4, 1, cl6, io0, bk (inst cl6 non) 0, ⟨d, d, d, d, blkd, d, bare, d, d, d, d, d, d, d, d, d, d, listAll,
    listAll⟩, ⟨d, listAll⟩, d, d, d⟩,
   ⟨inst cl6 [fore], 4, 1, cl6, io0, bk (inst cl6 [fore]) 0, fore, d, d, d, blkd, d, d, d, d, d, d, d, d, d, tgets, listAll,
    d⟩,
   ⟨inst cl0 [stop], 4, 1, cl0, d, d, d, ⟨stop, d⟩, d, ⟨0, d⟩⟩,
   ⟨chunks 0x20 0, 0, bk (chunks 0x20 0) 0, .acq, .dev, 2, 5, ob1, issuer, curs, (directIn bare), d, objAt, d⟩,
   ⟨chunks 0x10 0, 0, bk (chunks 0x10 0) 0, .acq, .dev, 2, 5, ob1, issuer, curs, (directIn bare), d, objAt, d⟩⟩

theorem premises_Queues :
    (∃ (s : State) (v : View) (i : Instr) (d a b : SReg) (kind q cell lg ring tail head src pa pe ce slot : Nat), s.Slotted v
      ∧ appendRule i = some (d, a, b, kind) ∧ s.Direct v ∧ s.scalarOver d = false ∧ src = (s.sread s.cur b).toNat ∧ src %
      128 = 0 ∧ s.Lands v.bid src ⟨true, false, false⟩ pe ce 128 ∧ q = (s.sread s.cur a).toNat ∧ s.QueueIs (coreOf v.bid)
      v.b.tag q cell kind lg ring tail head ∧ (tail + 2 ^ 64 - head) % 2 ^ 64 ≠ 2 ^ lg ∧ s.translate (coreOf v.bid)
      v.b.tag (ring + tail % 2 ^ lg * 128) ⟨false, true, false⟩ = (s, .ok (.dram pa slot)) ∧ (slot + 128 ≤ cell ∨ cell +
      256 ≤ slot) ∧ slot % 128 = 0)
    ∧ (∃ (s : State) (v : View) (i : Instr) (d a b : SReg) (kind have_ q cell lg ring tail head src pe ce : Nat), s.Slotted v ∧
      appendRule i = some (d, a, b, kind) ∧ s.Direct v ∧ s.scalarOver d = false ∧ src = (s.sread s.cur b).toNat ∧ src %
      128 = 0 ∧ s.Lands v.bid src ⟨true, false, false⟩ pe ce 128 ∧ q = (s.sread s.cur a).toNat ∧ s.QueueIs (coreOf v.bid)
      v.b.tag q cell have_ lg ring tail head ∧ (have_ ≠ kind ∨ (tail + 2 ^ 64 - head) % 2 ^ 64 = 2 ^ lg))
    ∧ (∃ (s : State) (v : View) (d a b : SReg) (q cell lg ring tail head dst pa pd cd slot : Nat), s.Slotted v ∧ s.Direct v ∧
      s.scalarOver d = false ∧ dst = (s.sread s.cur b).toNat ∧ dst % 128 = 0 ∧ s.Lands v.bid dst ⟨false, true, false⟩ pd
      cd 128 ∧ (∀ i, i < 128 → isPinned (pd + i) = false ∨ vaultOf (cd + i) ≠ coreOf v.bid) ∧ q = (s.sread s.cur a).toNat
      ∧ s.QueueIs (coreOf v.bid) v.b.tag q cell 2 lg ring tail head ∧ head = tail)
    ∧ (∃ (s : State) (v : View) (d a b : SReg) (q cell lg ring tail head dst pa pd cd slot : Nat), s.Slotted v ∧ s.Direct v ∧
      s.scalarOver d = false ∧ dst = (s.sread s.cur b).toNat ∧ dst % 128 = 0 ∧ s.Lands v.bid dst ⟨false, true, false⟩ pd
      cd 128 ∧ (∀ i, i < 128 → isPinned (pd + i) = false ∨ vaultOf (cd + i) ≠ coreOf v.bid) ∧ q = (s.sread s.cur a).toNat
      ∧ s.QueueIs (coreOf v.bid) v.b.tag q cell 2 lg ring tail head ∧ head ≠ tail ∧ s.translate (coreOf v.bid) v.b.tag
      (ring + head % 2 ^ lg * 128) ⟨true, false, false⟩ = (s, .ok (.dram pa slot)) ∧ (cd + 128 ≤ cell ∨ cell + 256 ≤ cd) ∧
      slot % 128 = 0 ∧ cd % 128 = 0)
    ∧ (∃ (s : State) (header staging h g k q kind lg ring tail head pa slot : Nat) (c : Tag), cellOf header = some h ∧ cellOf
      staging = some g ∧ header % 256 = 0 ∧ staging % 256 = 0 ∧ s.hostHeld = [] ∧ s.parks header h = false ∧ s.parks
      staging g = false ∧ s.queueAt h = some (k, q) ∧ c = ⟨k, (s.ctx k).inc⟩ ∧ s.QueueIs fwCore c q h kind lg ring tail
      head ∧ (tail + 2 ^ 64 - head) % 2 ^ 64 ≠ 2 ^ lg ∧ s.translate fwCore c (ring + tail % 2 ^ lg * 128) ⟨false, true,
      false⟩ = (s, .ok (.dram pa slot)) ∧ (slot + 128 ≤ h ∨ h + 256 ≤ slot) ∧ (g + 256 ≤ h ∨ h + 256 ≤ g) ∧ (g + 256 ≤
      slot ∨ slot + 128 ≤ g) ∧ slot % 128 = 0 ∧ (∀ i, i < 8 → s.onAppend (g + 128 + i) = false))
    ∧ (∃ (s : State) (header staging h g : Nat), cellOf header = some h ∧ cellOf staging = some g ∧ header % 256 = 0 ∧ staging %
      256 = 0 ∧ s.hostHeld = [] ∧ s.parks header h = false ∧ s.parks staging g = false ∧ s.queueAt h = none)
    ∧ (∃ (s : State) (header staging h g : Nat) (k : _) (q : _), cellOf header = some h ∧ cellOf staging = some g ∧ header % 256
      = 0 ∧ staging % 256 = 0 ∧ s.hostHeld = [] ∧ s.parks header h = false ∧ s.parks staging g = false ∧ s.queueAt h =
      some (k, q) ∧ (s.ctx k).withdrawn = true)
    ∧ (∃ (s : State) (header staging h g : Nat), cellOf header = some h ∧ cellOf staging = some g ∧ header % 256 = 0 ∧ staging %
      256 = 0 ∧ (s.hostHeld ≠ [] ∨ s.parks header h = true ∨ s.parks staging g = true)) :=
  ⟨⟨q2, vw q2, .qpush 6 1 2, 6, 1, 2, 2, 0x20100, D + 0x100, 1, 0x20400, 2 ^ 64 - 1, 2 ^ 64 - 2, 0x20000, 0x20480, 0x20000,
    D, D + 0x480, slotted, d, (direct bare), d, d, d, lands, d, queueIs, d, (translate_phys d), d, d⟩,
   ⟨q3, vw q3, .qpush 6 1 2, 6, 1, 2, 2, 2, 0x20100, D + 0x100, 1, 0x20400, 0, 2 ^ 64 - 2, 0x20000, 0x20000, D, slotted, d,
    (direct bare), d, d, d, lands, d, queueIs, d⟩,
   ⟨q4, vw q4, 6, 1, 2, 0x20100, D + 0x100, 1, 0x20400, 3, 3, 0x20000, 0, 0x20000, D, 0, slotted, (direct bare), d, d, d,
    lands, d, d, queueIs, d⟩,
   ⟨q3, vw q3, 6, 1, 2, 0x20100, D + 0x100, 1, 0x20400, 0, 2 ^ 64 - 2, 0x20000, 0x20400, 0x20000, D, D + 0x400, slotted,
    (direct bare), d, d, d, lands, d, d, queueIs, d, (translate_phys d), d, d, d⟩,
   ⟨q1, 0x20100, 0x20000, D + 0x100, D, 0, 0x20100, 1, 1, 0x20400, 5, 4, 0x20480, D + 0x480, ⟨0, 0⟩, d, d, d, d, d, d, d, d,
    d, queueIs, d, (translate_phys d), d, d, d, d, d⟩,
   ⟨q1, 0x20200, 0x20000, D + 0x200, D, d, d, d, d, d, d, d, d⟩,
   ⟨q5, 0x20100, 0x20000, D + 0x100, D, 0, 0x20100, d, d, d, d, d, d, d, d, d⟩,
   ⟨{ q1 with hostHeld := [.write 0x20000 [1]] }, 0x20100, 0x20000, D + 0x100, D, d, d, d, d, d⟩⟩

theorem premises_Streams :
    (∃ (s : State) (v : View) (e : Engine) (d : SReg) (off : BitVec 32), s.Slotted v ∧ s.Room 0 ∧ s.scalarOver d = false ∧
      v.sl.pending = [] ∧ (if e = .mat then (∃ n, v.b.matCtx = some n ∧ v.b.stream .mat n = none ∧ n < 16) else
      s.freeContexts (coreOf v.bid) e ≠ []))
    ∧ (∃ (s : State) (v : View) (d : SReg) (off : BitVec 32), s.Slotted v ∧ v.Handles ∧ v.b.matCtx = none)
    ∧ (∃ (s : State) (b : Nat) (y : Block) (e : Engine) (ix : Nat) (x : Sys2Proof.Machine.Stream), s.blk b = some y ∧ y.stream e
      ix = some x ∧ x.exited = true ∧ y.frozen = .no ∧ (e = .mat → y.mat.queue0 = [] ∧ y.mat.queue1 = [] ∧ y.mat.queue2 =
      [] ∧ y.mat.queue3 = []) ∧ (∀ q, q ∈ s.sends → q.2.who = .stream b e ix → q.2.status ≠ none) ∧ (∀ q, q ∈ s.colls →
      q.2.who ≠ .stream b e ix) ∧ ∀ q, q ∈ s.cmds → q.2.who ≠ .stream b e ix)
    ∧ (∃ (s : State) (b : Nat) (y : Block) (e : Engine) (ix : Nat) (x : Sys2Proof.Machine.Stream), s.blk b = some y ∧ y.stream e
      ix = some x ∧ ¬ x.exited = true)
    ∧ (∃ (s : State) (v : View) (a : SReg) (h : Word64) (e : Engine) (ix gen : Nat), s.Slotted v ∧ h = s.sread s.cur a ∧ s.Room
      0 ∧ h.toNat = gen * 2 ^ 16 + v.b.hslot % 64 * 2 ^ 10 + e.code.toNat * 2 ^ 8 + ix ∧ gen < 65536 ∧ ix < engineContexts
      e ∧ (∃ x, x ∈ v.b.streams ∧ x.eng = e ∧ x.hix = ix ∧ x.gen = gen))
    ∧ (∃ (s : State) (v : View) (a : SReg) (h : Word64) (e : Engine) (ix gen : Nat), s.Slotted v ∧ h = s.sread s.cur a ∧ s.Room
      0 ∧ h.toNat = gen * 2 ^ 16 + v.b.hslot % 64 * 2 ^ 10 + e.code.toNat * 2 ^ 8 + ix ∧ gen < 65536 ∧ ix < engineContexts
      e ∧ (∀ x, x ∈ v.b.streams → x.eng = e → x.hix = ix → x.gen ≠ gen))
    ∧ (∃ (s : State) (v : View) (a : SReg) (h : Word64), s.Slotted v ∧ v.Handles ∧ h = s.sread s.cur a ∧ (2 ^ 32 ≤ h.toNat ∨
      h.extractLsb' 4 4 ≠ 0 ∨ (h.extractLsb' 10 6).toNat ≠ v.b.hslot % 64)) :=
  ⟨⟨f1, vw f1, .mat, 0, 0x40, slotted, room, d, d, ⟨2, d⟩⟩,
   ⟨forked 0 none, vw (forked 0 none), 5, 0x40, slotted, handles, d⟩,
   ⟨f1, 0, bk f1 0, .copy, 0, st0, blkd, d, d, d, d, listAll, listAll, listAll⟩,
   ⟨f1, 0, bk f1 0, .msg, 3, st1, blkd, d, d⟩,
   ⟨f2, vw f2, 1, _, .msg, 3, 9, slotted, rfl, room, d, d, d, ⟨st1, d⟩⟩,
   ⟨f3, vw f3, 1, _, .copy, 0, 9, slotted, rfl, room, d, d, d, listAll⟩,
   ⟨f4, vw f4, 1, _, slotted, handles, rfl, d⟩⟩

theorem premises_Contexts :
    (∃ (s : State) (v : View) (i : Instr) (d a b : SReg) (x : Word64), s.Governs v d ∧ x = s.sread s.cur a ∧ (i = .ctxkill d a
      ∨ i = .reclaim d a ∨ i = .ctxstart d a b) ∧ (1023 < x.toNat ∨ (x ≠ 0 ∧ x.toNat = v.b.tag.slot)))
    ∧ (∃ (s : State) (v : View) (i : Instr) (d a b : SReg) (x : Word64), s.Governs v d ∧ x = s.sread s.cur a ∧ (i = .ctxkill d a
      ∨ i = .reclaim d a ∨ i = .ctxstart d a b) ∧ x = 0)
    ∧ (∃ (s : State) (v : View) (d a : SReg) (x : Nat), s.Governs v d ∧ x = (s.sread s.cur a).toNat ∧ x ≠ 0 ∧ x < 1024 ∧ x ≠
      v.b.tag.slot ∧ (s.ctx x).state ≠ .live ∧ (s.ctx x).state ≠ .starting)
    ∧ (∃ (s : State) (v : View) (d a : SReg) (x : Nat), s.Governs v d ∧ x = (s.sread s.cur a).toNat ∧ x ≠ 0 ∧ x < 1024 ∧ x ≠
      v.b.tag.slot ∧ (s.ctx x).state = .starting)
    ∧ (∃ (s : State) (v : View) (d a : SReg) (x : Nat), s.Governs v d ∧ x = (s.sread s.cur a).toNat ∧ x ≠ 0 ∧ x < 1024 ∧ x ≠
      v.b.tag.slot ∧ (s.ctx x).state = .live)
    ∧ (∃ (s : State) (v : View) (d a : SReg) (x : Nat), s.Governs v d ∧ x = (s.sread s.cur a).toNat ∧ x ≠ 0 ∧ x < 1024 ∧ x ≠
      v.b.tag.slot ∧ ((s.ctx x).state = .free ∨ (s.ctx x).state = .live))
    ∧ (∃ (s : State) (v : View) (d a : SReg) (x : Nat), s.Governs v d ∧ x = (s.sread s.cur a).toNat ∧ x ≠ 0 ∧ x < 1024 ∧ x ≠
      v.b.tag.slot ∧ (s.ctx x).state = .starting)
    ∧ (∃ (s : State) (v : View) (d a : SReg) (x : Nat), s.Governs v d ∧ x = (s.sread s.cur a).toNat ∧ x ≠ 0 ∧ x < 1024 ∧ x ≠
      v.b.tag.slot ∧ ((s.ctx x).state = .killing ∨ (s.ctx x).state = .reclaiming))
    ∧ (∃ (s : State) (n : Nat) (v : View) (d : SReg), s.CtxWaits v n 2 d ∧ (s.ctx n).state = .reclaiming ∧ (s.ctx n).reclaimers
      = [.slot v.bid v.wid v.k] ∧ ((∀ m, m ∈ s.msgs → m.srcNode = s.nodeId → m.tag.slot ≠ n) ∧ (∀ c, c ∈ s.cnts →
      c.tag.slot ≠ n) ∧ (∀ c, c ∈ s.cmds → c.2.tag.slot ≠ n) ∧ (∀ r, r ∈ s.lazies → r.tag.slot ≠ n) ∧ s.portHolds n =
      false ∧ ((s.ctx n).usedLink = false ∨ (s.ctx n).tk + 5000000 ≤ s.clock)))
    ∧ (∃ (s : State) (n : Nat) (v : View) (d : SReg), s.CtxWaits v n 2 d ∧ (s.ctx n).state = .reclaiming ∧ (s.ctx n).reclaimers
      = [.slot v.bid v.wid v.k] ∧ (¬ ((∀ m, m ∈ s.msgs → m.srcNode = s.nodeId → m.tag.slot ≠ n) ∧ (∀ c, c ∈ s.cnts →
      c.tag.slot ≠ n) ∧ (∀ c, c ∈ s.cmds → c.2.tag.slot ≠ n) ∧ (∀ r, r ∈ s.lazies → r.tag.slot ≠ n) ∧ s.portHolds n =
      false ∧ ((s.ctx n).usedLink = false ∨ (s.ctx n).tk + 5000000 ≤ s.clock))))
    ∧ (∃ (s : State) (v : View) (i : Instr) (d a b : SReg), s.Slotted v ∧ v.b.priv = true ∧ s.scalarOver d = false ∧ (i =
      .ctxkill d a ∨ i = .reclaim d a ∨ i = .ctxstart d a b ∨ i = .patch d a) ∧ s.writesOut s.cur = true ∧ s.writesLate
      s.cur = false)
    ∧ (∃ (s : State) (v : View) (d a b : SReg) (x : Nat) (rd : List Byte), s.Governs v d ∧ x = (s.sread s.cur a).toNat ∧ x ≠ 0 ∧
      x < 1024 ∧ x ≠ v.b.tag.slot ∧ (s.sread s.cur b).toNat % 128 = 0 ∧ s.ReadsAs v.bid (s.sread s.cur b).toNat 128 rd ∧
      (s.fenced v).ctxRecord (coreOf v.bid) x rd = none)
    ∧ (∃ (s : State) (v : View) (d a b : SReg) (x : Nat) (rd : List Byte) (r : _), s.Governs v d ∧ x = (s.sread s.cur a).toNat ∧
      x ≠ 0 ∧ x < 1024 ∧ x ≠ v.b.tag.slot ∧ (s.sread s.cur b).toNat % 128 = 0 ∧ s.ReadsAs v.bid (s.sread s.cur b).toNat
      128 rd ∧ (s.fenced v).ctxRecord (coreOf v.bid) x rd = some r ∧ (s.ctx x).state ≠ .free ∧ (s.ctx x).state ≠
      .starting)
    ∧ (∃ (s : State) (v : View) (d a b : SReg) (x : Nat) (rd : List Byte) (r : _), s.Governs v d ∧ x = (s.sread s.cur a).toNat ∧
      x ≠ 0 ∧ x < 1024 ∧ x ≠ v.b.tag.slot ∧ (s.sread s.cur b).toNat % 128 = 0 ∧ s.ReadsAs v.bid (s.sread s.cur b).toNat
      128 rd ∧ (s.fenced v).ctxRecord (coreOf v.bid) x rd = some r ∧ (s.ctx x).state = .starting)
    ∧ (∃ (s : State) (v : View) (d a b : SReg) (x : Nat) (rd : List Byte) (r : _), s.Governs v d ∧ x = (s.sread s.cur a).toNat ∧
      x ≠ 0 ∧ x < 1024 ∧ x ≠ v.b.tag.slot ∧ (s.sread s.cur b).toNat % 128 = 0 ∧ s.ReadsAs v.bid (s.sread s.cur b).toNat
      128 rd ∧ (s.fenced v).ctxRecord (coreOf v.bid) x rd = some r ∧ (s.ctx x).state = .free)
    ∧ (∃ (s : State) (v : View) (d a b : SReg) (x : Nat), s.Governs v d ∧ x = (s.sread s.cur a).toNat ∧ x ≠ 0 ∧ x < 1024 ∧ x ≠
      v.b.tag.slot ∧ (s.sread s.cur b).toNat % 128 ≠ 0)
    ∧ (∃ (s : State) (n op : Nat) (v u : View) (d e : SReg), s.CtxWaits v n 1 d ∧ s.CtxWaits u n op e ∧ (s.ctx n).state =
      .starting ∧ (s.ctx n).starter = some (.slot v.bid v.wid v.k) ∧ (u.bid, u.wid, u.k) ≠ (v.bid, v.wid, v.k) ∧ (s.ctx
      n).queue = [(.slot u.bid u.wid u.k, op)] ∧ (s.ctx n).waitPeers = [])
    ∧ (∃ (s : State) (n : Nat) (v : View) (d : SReg), s.CtxWaits v n 1 d ∧ (s.ctx n).state = .starting ∧ (s.ctx n).starter =
      some (.slot v.bid v.wid v.k) ∧ (s.ctx n).queue = [] ∧ (s.ctx n).waitPeers = [])
    ∧ (∃ (s : State) (n : Nat) (v : View) (d : SReg), s.CtxWaits v n 1 d ∧ (s.ctx n).state = .starting ∧ (s.ctx n).starter =
      some (.slot v.bid v.wid v.k) ∧ (s.ctx n).queue = [] ∧ (¬ ((s.ctx n).waitPeers = [])))
    ∧ (∃ (s : State) (v : View) (d a : SReg) (x y : List Byte) (tgt len pa cell : Nat) (p : PatchRun), s.Governs v d ∧ (∀ c,
      s.Empty c) ∧ s.patches = [] ∧ v.sl.status = .run ∧ v.sl.pc = s.ir.pc ∧ p = ⟨s.cur, v.b.tag, s.ir.pc, tgt, len, leNat
      ((x.drop 8).take 8), dictOfRange (s.kernelsOf v.b.tag) tgt len⟩ ∧ s.ReadsAs v.bid (s.sread s.cur a).toNat 32 x ∧ tgt
      = leNat (x.take 8) ∧ len = leNat ((x.drop 16).take 4) ∧ tgt % 32 = 0 ∧ len % 32 = 0 ∧ len ≠ 0 ∧ len ≤ 65536 ∧ (∀ b,
      b ∈ x.drop 20 → b = 0) ∧ v.b.kern.text ≤ tgt ∧ tgt + len ≤ v.b.kern.text + v.b.kern.textLen ∧ s.ReadsAs v.bid (leNat
      ((x.drop 8).take 8)) len y ∧ (∀ i, i < len → s.translate (coreOf v.bid) v.b.tag (tgt + i) ⟨false, false, false⟩ =
      (s, .ok (.dram (pa + i) (cell + i))) ∧ s.parks (pa + i) (cell + i) = false) ∧ s.patchWaits p = false)
    ∧ (∃ (s : State) (v : View) (d a : SReg) (x y : List Byte) (tgt len pa cell : Nat) (p : PatchRun), s.Governs v d ∧ (∀ c,
      s.Empty c) ∧ s.patches = [] ∧ v.sl.status = .run ∧ v.sl.pc = s.ir.pc ∧ p = ⟨s.cur, v.b.tag, s.ir.pc, tgt, len, leNat
      ((x.drop 8).take 8), dictOfRange (s.kernelsOf v.b.tag) tgt len⟩ ∧ s.ReadsAs v.bid (s.sread s.cur a).toNat 32 x ∧ tgt
      = leNat (x.take 8) ∧ len = leNat ((x.drop 16).take 4) ∧ tgt % 32 = 0 ∧ len % 32 = 0 ∧ len ≠ 0 ∧ len ≤ 65536 ∧ (∀ b,
      b ∈ x.drop 20 → b = 0) ∧ v.b.kern.text ≤ tgt ∧ tgt + len ≤ v.b.kern.text + v.b.kern.textLen ∧ s.ReadsAs v.bid (leNat
      ((x.drop 8).take 8)) len y ∧ (∀ i, i < len → s.translate (coreOf v.bid) v.b.tag (tgt + i) ⟨false, false, false⟩ =
      (s, .ok (.dram (pa + i) (cell + i))) ∧ s.parks (pa + i) (cell + i) = false) ∧ s.patchWaits p = true)
    ∧ (∃ (s : State) (v : View) (d a : SReg) (x : List Byte) (tgt len : Nat), s.Governs v d ∧ s.ReadsAs v.bid (s.sread s.cur
      a).toNat 32 x ∧ tgt = leNat (x.take 8) ∧ len = leNat ((x.drop 16).take 4) ∧ (tgt % 32 ≠ 0 ∨ len % 32 ≠ 0 ∨ len = 0 ∨
      65536 < len ∨ (∃ b, b ∈ x.drop 20 ∧ b ≠ 0) ∨ ∀ k, k ∈ s.kernelsOf v.b.tag → (tgt < k.text ∨ k.text + k.textLen < tgt
      + len) ∧ (tgt < k.dict ∨ k.dict + 16 * k.ndict < tgt + len))) :=
  ⟨⟨cx 1024, vw (cx 1024), .ctxkill 5 1, 5, 1, 2, _, ⟨slotted, direct bare, d, d⟩, rfl, d, d⟩,
   ⟨cx 0, vw (cx 0), .reclaim 5 1, 5, 1, 2, _, ⟨slotted, direct bare, d, d⟩, rfl, d, rfl⟩,
   ⟨cx 1023, vw (cx 1023), 5, 1, 1023, ⟨slotted, direct bare, d, d⟩, d, d, d, d, d, d⟩,
   ⟨cx 4, vw (cx 4), 5, 1, 4, ⟨slotted, direct bare, d, d⟩, d, d, d, d, d⟩,
   ⟨cx 3, vw (cx 3), 5, 1, 3, ⟨slotted, direct bare, d, d⟩, d, d, d, d, d⟩,
   ⟨cx 3, vw (cx 3), 5, 1, 3, ⟨slotted, direct bare, d, d⟩, d, d, d, d, d⟩,
   ⟨cx 4, vw (cx 4), 5, 1, 4, ⟨slotted, direct bare, d, d⟩, d, d, d, d, d⟩,
   ⟨cx 6, vw (cx 6), 5, 1, 6, ⟨slotted, direct bare, d, d⟩, d, d, d, d, d⟩,
   ⟨ctxW 2 rc7 5000005, 7, vw (ctxW 2 rc7 5000005), 5, ⟨slotView, d, d, d⟩, d, d, d⟩,
   ⟨ctxW 2 rc7 5000004, 7, vw (ctxW 2 rc7 5000004), 5, ⟨slotView, d, d, d⟩, d, d, d⟩,
   ⟨peerOut, vw peerOut, .ctxkill 5 1, 5, 1, 2, slotted, d, d, d, d, d⟩,
   ⟨rcS 9 4, vw (rcS 9 4), 5, 1, 2, 9, recb 4, ⟨slotted, direct bare, d, d⟩, d, d, d, d, d, readsAs, d⟩,
   ⟨rcS 3 2, vw (rcS 3 2), 5, 1, 2, 3, recb 2, rcd 3 2, ⟨slotted, direct bare, d, d⟩, d, d, d, d, d, readsAs, d, d, d⟩,
   ⟨rcS 4 2, vw (rcS 4 2), 5, 1, 2, 4, recb 2, rcd 4 2, ⟨slotted, direct bare, d, d⟩, d, d, d, d, d, readsAs, d, d⟩,
   ⟨rcS 9 2, vw (rcS 9 2), 5, 1, 2, 9, recb 2, rcd 9 2, ⟨slotted, direct bare, d, d⟩, d, d, d, d, d, readsAs, d, d⟩,
   ⟨mis, vw mis, 5, 1, 2, 9, ⟨slotted, direct bare, d, d⟩, d, d, d, d, d⟩,
   ⟨queued, 7, 0, vw queued, vwOf queued 0 1 0, 5, 6, ⟨slotView, d, d, d⟩, ⟨viewedAs, d, d, d⟩, d, d, d, d, d⟩,
   ⟨ctxW 1 (st7 []) 9, 7, vw (ctxW 1 (st7 []) 9), 5, ⟨slotView, d, d, d⟩, d, d, d, d⟩,
   ⟨ctxW 1 (st7 [8]) 9, 7, vw (ctxW 1 (st7 [8]) 9), 5, ⟨slotView, d, d, d⟩, d, d, d, d⟩,
   ⟨pt1, vw pt1, 5, 1, pat 0x210C0 64 0, le 64 0, 0x210C0, 64, 0x210C0, 79725330432 + 0xC0, _, ⟨slotted, direct bare, d, d⟩,
    emptyAll, d, d, d, rfl, readsAs, d, d, d, d, d, d, listAll, d, d, readsAs, placed, d⟩,
   ⟨pt2, vw pt2, 5, 1, pat 0x210C0 64 0, le 64 0, 0x210C0, 64, 0x210C0, 79725330432 + 0xC0, _, ⟨slotted, direct bare, d, d⟩,
    emptyAll, d, d, d, rfl, readsAs, d, d, d, d, d, d, listAll, d, d, readsAs, placed, d⟩,
   ⟨patch 0x210E0 64 0, vw (patch 0x210E0 64 0), 5, 1, pat 0x210E0 64 0, 0x210E0, 64, ⟨slotted, direct bare, d, d⟩, readsAs,
    d, d, (.inr (.inr (.inr (.inr (.inr listAll)))))⟩⟩

theorem premises_Peers :
    (∃ (s : State) (pk : Packet), pk.dest = s.nodeId ∧ (pk.kind = .read ∨ pk.kind = .write ∨ pk.kind = .atomic ∨ pk.kind =
      .message) ∧ 2000 ≤ pk.age)
    ∧ (∃ (s : State) (pk : Packet), pk.dest = s.nodeId ∧ (pk.kind = .read ∨ pk.kind = .write ∨ pk.kind = .atomic ∨ pk.kind =
      .message) ∧ pk.age < 2000 ∧ tget s.peersInc (pk.src * 1024 + pk.tagSlot) ≠ some (true, pk.tagInc))
    ∧ (∃ (s : State) (pk : Packet), pk.dest = s.nodeId ∧ (pk.kind = .read ∨ pk.kind = .write ∨ pk.kind = .atomic ∨ pk.kind =
      .message) ∧ pk.age < 2000 ∧ tget s.peersInc (pk.src * 1024 + pk.tagSlot) = some (true, pk.tagInc) ∧ pk.kind =
      .message)
    ∧ (∃ (s : State) (pk : Packet) (cell : Nat), pk.dest = s.nodeId ∧ pk.age < 2000 ∧ tget s.peersInc (pk.src * 1024 +
      pk.tagSlot) = some (true, pk.tagInc) ∧ cellOf pk.addr = some cell ∧ (pk.kind = .read ∨ pk.kind = .write ∨ pk.kind =
      .atomic) ∧ (s.parks pk.addr cell = true ∨ ∃ q, q ∈ s.heldReqs ∧ homeSlice q.pk.addr = homeSlice pk.addr))
    ∧ (∃ (s : State) (pk : Packet) (cell n lo : Nat), s.PeerAsks pk cell ∧ pk.kind = .read ∧ n = (if pk.aux % 2 = 1 then 128
      else 64) ∧ lo = cell / n * n ∧ lo / 64 ∉ s.vaultBad ∧ (n = 128 → lo / 64 + 1 ∉ s.vaultBad) ∧ s.poisoned lo n =
      false)
    ∧ (∃ (s : State) (pk : Packet) (cell n lo : Nat), s.PeerAsks pk cell ∧ pk.kind = .read ∧ n = (if pk.aux % 2 = 1 then 128
      else 64) ∧ lo = cell / n * n ∧ lo / 64 ∉ s.vaultBad ∧ (n = 128 → lo / 64 + 1 ∉ s.vaultBad) ∧ s.poisoned lo n = true)
    ∧ (∃ (s : State) (pk : Packet) (cell : Nat) (rank : Nat → Nat), s.PeerAsks pk cell ∧ pk.kind = .write ∧ (∀ w, rank w =
      ((List.range w).filter fun j => pk.aux.testBit j).length) ∧ pk.data.length = 9 * rank 32 ∧ (∀ w, w ∈ s.waiters →
      w.cell / 256 ≠ cell / 256) ∧ s.unitFallow .vault (vaultOf cell) = false ∧ (∀ p, p ∈ s.vaultBad → p / 4 ≠ cell /
      256))
    ∧ (∃ (s : State) (pk : Packet) (cell m n : Nat) (op : AtomOp) (ty : Ty), s.PeerAsks pk cell ∧ pk.kind = .atomic ∧ pk.aux %
      32 = ty.code.toNat ∧ pk.aux / 32 = op.code.toNat ∧ (ty = .n32 ∨ ty = .s32 ∨ ty = .n64 ∨ ty = .s64) ∧ n = ty.bytes ∧
      cell % n = 0 ∧ s.poisoned cell n = false ∧ (∀ p, p ∈ s.vaultBad → p / 4 ≠ cell / 256) ∧ (cell + 7) / 64 ∉ s.vaultBad
      ∧ (∀ w, w ∈ s.waiters → w.cell ≠ cell / 64 * 64) ∧ m = numberAt s.dramByte cell n)
    ∧ (∃ (s : State) (pk : Packet), pk.dest = s.nodeId ∧ pk.age < 2000 ∧ pk.kind = .announcement)
    ∧ (∃ (s : State) (pk : Packet), pk.dest = s.nodeId ∧ pk.age < 2000 ∧ pk.kind = .kill ∧ tget s.peersInc (pk.src * 1024 +
      pk.tagSlot) = some (true, pk.tagInc))
    ∧ (∃ (s : State) (pk : Packet), pk.dest = s.nodeId ∧ pk.age < 2000 ∧ pk.kind = .kill ∧ (¬ (tget s.peersInc (pk.src * 1024 +
      pk.tagSlot) = some (true, pk.tagInc))))
    ∧ (∃ (s : State) (pk : Packet) (e : LinkReq) (v : View), s.Answered pk e ∧ pk.kind = .response ∧ pk.aux = 0 ∧ e.lane < 1000
      ∧ e.cmd = none ∧ e.who = .slot v.bid v.wid v.k ∧ s.view v.bid v.wid v.k = some v ∧ v.k < 2 ∧ v.sl.asks = [(pk.rid,
      e.lane)] ∧ v.sl.status = .reply)
    ∧ (∃ (s : State) (pk : Packet) (e : LinkReq) (x : Send), s.Answered pk e ∧ (pk.kind = .response ∨ pk.kind = .staleRefusal) ∧
      e.lane = 1002 ∧ tget s.sends e.addr = some x)
    ∧ (∃ (s : State) (pk : Packet) (e : LinkReq), pk.dest = s.nodeId ∧ pk.age < 2000 ∧ pk.kind = .acknowledgement ∧ tget s.links
      pk.rid = some e ∧ e.tag = ⟨pk.tagSlot, pk.tagInc⟩ ∧ e.lane = 1003 ∧ (s.ctx e.addr).inc = e.tag.inc)
    ∧ (∃ (s : State) (pk : Packet), pk.dest = s.nodeId ∧ pk.age < 2000 ∧ (pk.kind = .response ∨ pk.kind = .staleRefusal) ∧ (∀ e,
      tget s.links pk.rid = some e → e.tag ≠ ⟨pk.tagSlot, pk.tagInc⟩))
    ∧ (∃ (s : State) (rid : Nat) (e : LinkReq), tget s.links rid = some e ∧ e.lane ≠ 1002 ∧ e.lane ≠ 1003 ∧ s.clock < e.created
      + 7500000)
    ∧ (∃ (s : State) (rid : Nat) (e : LinkReq), tget s.links rid = some e ∧ e.lane ≠ 1002 ∧ e.lane ≠ 1003 ∧ e.created + 7500000
      ≤ s.clock ∧ e.write = false)
    ∧ (∃ (s : State) (rid : Nat) (e : LinkReq), tget s.links rid = some e ∧ e.lane ≠ 1002 ∧ e.lane ≠ 1003 ∧ e.created + 7500000
      ≤ s.clock ∧ e.write = true ∧ s.awaited rid e = false ∧ s.tagLive e.tag = true ∧ e.who ≠ nobody)
    ∧ (∃ (s : State) (rid : Nat) (e : LinkReq), tget s.links rid = some e ∧ e.lane ≠ 1002 ∧ e.lane ≠ 1003 ∧ e.created + 7500000
      ≤ s.clock ∧ (s.tagLive e.tag = false ∨ (e.who = nobody ∧ e.cmd = none))) :=
  ⟨⟨lnk, { pk .read 0x20000 0 [] with age := 2000 }, d, d, d⟩,
   ⟨lnk, { pk .write 0x20000 0 [] with tagInc := 6 }, d, d, d, d⟩,
   ⟨lnk, pk .message 0x20000 0 (le 80 0), d, d, d, d, d⟩,
   ⟨lnk0, pk .read 0x20048 0 [], D + 0x48, d, d, d, d, d, (.inl d)⟩,
   ⟨lnk, pk .read 0x20048 1 [], D + 0x48, _, _, ⟨d, d, d, d, d, listAll⟩, d, rfl, rfl, d, (fun _ => d), d⟩,
   ⟨lnkP, pk .read 0x20048 1 [], D + 0x48, _, _, ⟨d, d, d, d, d, listAll⟩, d, rfl, rfl, d, (fun _ => d), d⟩,
   ⟨lnk, pk .write 0x20108 0x80000011 (le 27 7), D + 0x108, fun w => ((List.range w).filter fun j => (0x80000011 :
    Nat).testBit j).length, ⟨d, d, d, d, d, listAll⟩, d, (fun _ => rfl), d, listAll, d, listAll⟩,
   ⟨lnk, pk .atomic 0x20048 (AtomOp.max.code.toNat * 32 + Ty.s64.code.toNat) (le 16 5), D + 0x48, _, 8, .max, .s64, ⟨d, d, d,
    d, d, listAll⟩, d, d, d, d, d, d, d, listAll, d, listAll, rfl⟩,
   ⟨lnk, { pk .announcement 0 0 [] with tagInc := 9 }, d, d, d⟩,
   ⟨lnk, pk .kill 0 0 [], d, d, d, d⟩,
   ⟨lnk, { pk .kill 0 0 [] with tagInc := 6 }, d, d, d, d⟩,
   ⟨asked e1 0, pk .response 0 0 (le 64 9), e1, vw (asked e1 0), ⟨d, d, d, d, d⟩, d, d, d, d, d, slotView, d, d, d⟩,
   ⟨asked (req 1002 6 false) 0, pk .staleRefusal 0 0 [], req 1002 6 false, ⟨.slot 0 0 0, 0, 5, ⟨3, 5⟩, none⟩, ⟨d, d, d, d,
    d⟩, d, d, d⟩,
   ⟨asked (req 1003 3 false) 0, pk .acknowledgement 0 0 [2], req 1003 3 false, d, d, d, d, d, d, d⟩,
   ⟨asked e1 0, { pk .response 0 0 [2] with tagInc := 6 }, d, d, d, optAll⟩,
   ⟨asked e1 7500099, 4, e1, d, d, d, d⟩,
   ⟨asked e1 7500100, 4, e1, d, d, d, d, d⟩,
   ⟨lateW, 4, e2, d, d, d, d, d, d, d, d⟩,
   ⟨{ lateW with ctxs := [] }, 4, e2, d, d, d, d, d⟩⟩

theorem premises_Ports :
    (∃ (s : State) (n ctl vc : Nat) (d : List Byte) (pk : Packet), (∃ w, (s.port n).state = .up w ∨ (s.port n).state =
      .degraded w) ∧ (s.port n).txq = [] ∧ (s.port n).rxFlits = [] ∧ d.length = 256 ∧ ctl = leNat (d.drop 248) ∧
      BitVec.ofNat 32 (ctl / 2 ^ 32) = Config.crc32 (d.take 252) ∧ ctl / 2 ^ 20 % 4096 = (s.port n).rxSeq ∧ vc = leNat
      (d.take 32) / 2 ^ 184 % 4 ∧ (∃ c, (s.port n).free[vc]? = some c ∧ 1 ≤ c ∧ c ≤ 32) ∧ leNat (d.take 32) / 2 ^ 168 % 4
      = 0 ∧ pktParse (d.take 248) = some pk ∧ pk.dest = s.nodeId)
    ∧ (∃ (s : State) (n ctl : Nat) (d : List Byte), ctl = leNat ((d.drop 248).take 8) ∧ (d.length ≠ 256 ∨ BitVec.ofNat 32 (ctl /
      2 ^ 32) ≠ Config.crc32 (d.take 252) ∨ ctl / 2 ^ 20 % 4096 ≠ (s.port n).rxSeq))
    ∧ (∃ (s : State) (n : Nat) (p : Port), s.port n = p ∧ p.unacked ≠ [] ∧ s.clock < p.window + 2500000 ∧ (∃ w, p.state = .up w
      ∨ p.state = .degraded w) ∧ (∀ x, x ∈ p.unacked → x.payload.length = 248))
    ∧ (∃ (s : State) (n : Nat) (p : Port), s.port n = p ∧ p.unacked ≠ [] ∧ s.clock < p.window + 2500000 ∧ (p.state = .down ∨
      p.state = .training))
    ∧ (∃ (s : State) (n : Nat) (p : Port), s.port n = p ∧ n < 36 ∧ p.state = .down)
    ∧ (∃ (s : State) (n : Nat) (p : Port) (w : _), s.port n = p ∧ n < 36 ∧ (w = 1 ∨ w = 2 ∨ w = 4) ∧ p.state = .training ∧
      s.clock < p.trainStart + 250000000 ∧ p.txq = [] ∧ w ≤ p.lanes.length)
    ∧ (∃ (s : State) (n : Nat) (p : Port) (w : _), s.port n = p ∧ n < 36 ∧ p.state = .training ∧ (p.lanes.length < w ∨ (w ≠ 1 ∧
      w ≠ 2 ∧ w ≠ 4)))
    ∧ (∃ (s : State) (n : Nat) (p : Port), s.port n = p ∧ n < 36 ∧ p.state = .training ∧ p.trainStart + 250000000 ≤ s.clock)
    ∧ (∃ (s : State) (n : Nat) (p : Port) (w : _), s.port n = p ∧ n < 36 ∧ p.state = .up w ∧ p.flits < 1000000 * p.replays)
    ∧ (∃ (s : State) (n : Nat) (p : Port) (w : _), s.port n = p ∧ n < 36 ∧ p.state = .degraded w ∧ p.retrainAt ≤ s.clock)
    ∧ (∃ (s : State) (n : Nat) (p : Port) (w : _) (k : _), s.port n = p ∧ n < 36 ∧ (p.state = .up w ∨ p.state = .degraded w) ∧ k
      < 4)
    ∧ (∃ (s : State) (n : Nat) (p : Port), s.port n = p ∧ n < 36 ∧ p.state ≠ .fallow)
    ∧ (∃ (s : State) (n : Nat) (p : Port), s.port n = p ∧ p.state ≠ .down)
    ∧ (∃ (s : State) (n : Nat) (p : Port), s.port n = p ∧ p.state = .training ∧ s.clock < p.trainStart + 250000000)
    ∧ (∃ (s : State) (n : Nat) (p : Port) (w : _), s.port n = p ∧ p.state = .up w ∧ 1000000 * p.replays ≤ p.flits)
    ∧ (∃ (s : State) (n : Nat) (p : Port), s.port n = p ∧ p.state = .fallow) :=
  ⟨⟨ports (prt (.up 4)), 2, _, 0, flit (Config.crc32 flit0), pk1, ⟨4, d⟩, d, d, rfl, rfl, (flit_crc _), (flit_seq _), d, ⟨32,
    d⟩, d, d, d⟩,
   ⟨ports (prt (.up 4)), 2, _, le 257 0, rfl, (.inl d)⟩,
   ⟨ports (un (.up 4)), 2, un (.up 4), d, d, d, ⟨4, d⟩, listAll⟩,
   ⟨ports (un .training), 2, un .training, d, d, d, d⟩,
   ⟨ports (prt .down), 2, prt .down, d, d, d⟩,
   ⟨ports (tr 50000001), 2, tr 50000001, 4, d, d, d, d, d, d, d⟩,
   ⟨ports (tr 50000001), 2, tr 50000001, 3, d, d, d, d⟩,
   ⟨ports (tr 50000000), 2, tr 50000000, d, d, d, d⟩,
   ⟨ports (fp 999999), 2, fp 999999, 2, d, d, d, d⟩,
   ⟨ports { prt (.degraded 2) with retrainAt := 300000000 }, 2, { prt (.degraded 2) with retrainAt := 300000000 }, 2, d, d,
    d, d⟩,
   ⟨ports (prt (.degraded 2)), 2, prt (.degraded 2), 2, 3, d, d, d, d⟩,
   ⟨ports (prt .down), 2, prt .down, d, d, d⟩,
   ⟨ports (prt .fallow), 2, prt .fallow, d, d⟩,
   ⟨ports (tr 50000001), 2, tr 50000001, d, d, d⟩,
   ⟨ports (fp 1000000), 2, fp 1000000, 2, d, d, d⟩,
   ⟨ports (prt .fallow), 2, prt .fallow, d, d⟩⟩

theorem premises_Launching_park : ∃ (s u w : State) (c : Cand) (d : List Byte) (sig : Nat) (x : UnitRes), s.Takes u c d ∧ leNat
    (d.take 8) % 256 ≠ 0 ∧ sig = leNat ((d.drop 32).take 8) ∧ sig ≠ 0 ∧ w = u.postEvent c.tag (launchEvent 2 c.qix (leNat
    (d.take 8))) ∧ w.signalOk c.tag sig = true ∧ x = w.unitPut fwCore c.tag sig (toLE 8 (2 ^ 64 - 1)) ∧ x = .park :=
⟨sg0, tookIt sg0 1, _, cnd sg0, _, 0x20A00, _, onlyPacket, d, d, d, rfl, d, rfl, parkPut⟩

theorem premises_Launching :
    (∃ (s u w : State) (c : Cand) (d hd : List Byte) (k : Kernel) (g : Grid), s.Takes u c d ∧ leNat (d.take 8) % 256 = 0 ∧
      u.sysBytes fwCore c.tag (leNat (d.take 8)) 256 = (w, some hd) ∧ leNat (hd.take 1) = 2 ∧ tget w.kernels (kernKey
      c.tag (leNat (d.take 8))) = some k ∧ g = packetGrid c.tag k d ∧ leNat ((d.drop 14).take 1) = k.blockX ∧ leNat
      ((d.drop 15).take 1) = k.blockY ∧ g.gx * g.gy * g.gz ≠ 0 ∧ g.gx * g.gy * g.gz < 2 ^ 32 ∧ (∀ b, b ∈ d.drop 56 → b =
      0) ∧ g.signal = 0 ∧ g.groupsPtr = 0)
    ∧ (∃ (s u : State) (c : Cand) (d : List Byte), s.Takes u c d ∧ leNat (d.take 8) % 256 ≠ 0 ∧ leNat ((d.drop 32).take 8) = 0)
    ∧ (∃ (s u w : State) (c : Cand) (d : List Byte) (sig : Nat) (x : UnitRes) (t : _) (l : _), s.Takes u c d ∧ leNat (d.take 8)
      % 256 ≠ 0 ∧ sig = leNat ((d.drop 32).take 8) ∧ sig ≠ 0 ∧ w = u.postEvent c.tag (launchEvent 2 c.qix (leNat (d.take
      8))) ∧ w.signalOk c.tag sig = true ∧ x = w.unitPut fwCore c.tag sig (toLE 8 (2 ^ 64 - 1)) ∧ x = .done t l)
    ∧ (∃ (s : State), s.candidates = [])
    ∧ (∃ (s u : State) (x : ToBind) (rest : List ToBind) (w : Want) (g : Grid), s.fw.running = true ∧ s.tobind = x :: rest ∧
      tget s.grids x.grid = some g ∧ g.kern.coresident = false ∧ x.saved = false ∧ w = ⟨g, g.kern, none⟩ ∧ s.placeFrom x w
      512 0 = some u) :=
  ⟨⟨w1, tookIt w1 1, hdr.1, cnd w1, _, hdr.2.getD [], krn, _, onlyPacket, d, pairSome, d, d, rfl, d, d, d, d, listAll, d, d⟩,
   ⟨lau 0x20801, tookIt (lau 0x20801) 1, cnd (lau 0x20801), _, onlyPacket, d, d⟩,
   ⟨sg1, tookIt sg1 1, _, cnd sg1, _, 0x20A00, _, _, _, onlyPacket, d, d, d, rfl, d, rfl, (donePut (s := sg1))⟩,
   ⟨base, d⟩,
   (placeable (s := wait4) (x := ⟨9, 4, false⟩) (g := gr0) (n := 511)).elim fun u h => ⟨wait4, u, ⟨9, 4, false⟩, [⟨9, 5,
    false⟩], _, gr0, d, d, d, d, d, rfl, h⟩⟩

theorem premises_Launching_on :
    (∃ (s : State) (x : ToBind) (rest : List ToBind), s.tobind = x :: rest ∧ s.placeAll [x] = none ∧ (∀ g, tget s.grids x.grid
      = some g → g.kern.coresident = false))
    ∧ (∃ (s : State) (c slot : Nat) (r : BindRec) (g : Grid), c < 512 ∧ slot < 32 ∧ tget (s.core c).recs slot = some r ∧ r.valid
      = true ∧ r.restore = false ∧ c ∉ s.quits ∧ s.bindWaits c slot r = false ∧ tget s.grids r.grid = some g ∧ 8 * r.win ≤
      128 ∧ g.kern.blockX ≤ 32)
    ∧ (∃ (s : State) (c slot : Nat) (r : BindRec) (g : Grid) (y : Saved), c < 512 ∧ slot < 32 ∧ tget (s.core c).recs slot = some
      r ∧ r.valid = true ∧ r.restore = true ∧ c ∉ s.quits ∧ s.bindWaits c slot r = false ∧ tget s.grids r.grid = some g ∧
      (s.saves.find? fun z => decide (z.grid = r.grid) && decide (z.blockId = r.blockId)) = some y)
    ∧ (∃ (s : State) (c slot : Nat) (r : BindRec), tget (s.core c).recs slot = some r ∧ (s.bindWaits c slot r = true ∨ c ∈
      s.quits)) :=
  ⟨⟨{ wait2 with ready := [] }, ⟨9, 4, false⟩, [⟨9, 5, false⟩], d, d, optAll⟩,
   ⟨bind false [], 5, 1, brec false, gr1, d, d, d, d, d, d, d, d, d, d⟩,
   ⟨bind true [{ sav with grid := 8 }, sav], 5, 1, brec true, gr1, sav, d, d, d, d, d, d, d, d, d⟩,
   ⟨quitting, 5, 1, brec false, d, (.inr d)⟩⟩

theorem premises_Residency :
    (∃ (s : State) (c b w base len : Nat) (y : View) (q : Want), s.runs c = [⟨b, w, base, len, false⟩] ∧ s.view b w 0 = some y
      ∧ coreOf b = c ∧ base ≠ 0 ∧ s.tobind.head?.bind s.wantOf = some q ∧ s.asksCompact c q = true)
    ∧ (∃ (s : State) (c : Nat), ((∀ r, r ∈ s.runs c → r.active = true) ∨ s.tobind = [] ∨ ∃ q, s.tobind.head?.bind s.wantOf =
      some q ∧ s.asksCompact c q = false))
    ∧ (∃ (s : State) (c p key : Nat) (rest : List Nat) (y : Block) (w : Wave), p < 4 ∧ (s.core c).pend p = key :: rest ∧ s.blk
      (32 * c + key / 32) = some y ∧ tget y.waves (key % 32) = some w ∧ w.live = true ∧ w.halted = false ∧ (w.s0.status =
      .run ∨ w.s1.status = .run) ∧ s.activeIn c p < 4)
    ∧ (∃ (s : State) (c p key : Nat) (rest : List Nat) (y : Block) (w : Wave), p < 4 ∧ (s.core c).pend p = key :: rest ∧ s.blk
      (32 * c + key / 32) = some y ∧ tget y.waves (key % 32) = some w ∧ w.live = true ∧ w.halted = false ∧ (w.s0.status =
      .run ∨ w.s1.status = .run) ∧ 4 ≤ s.activeIn c p)
    ∧ (∃ (s : State) (b : Nat) (y : Block), s.blk b = some y ∧ y.frozen = .no ∧ (∀ e, e ∈ s.links → e.2.who.block ≠ b) ∧ s.Bare
      (coreOf b) ∧ twf y.vers = true ∧ twf s.blocks = true ∧ (∀ e, e ∈ y.waves → e.2.live = false) ∧ y.streams = [] ∧ (∀
      e, e ∈ s.cmds → e.2.block ≠ b) ∧ (∀ e, e ∈ s.colls → e.2.who.block ≠ b) ∧ (∀ e, e ∈ s.sends → e.2.who.block ≠ b))
    ∧ (∃ (s : State) (b : Nat) (y : Block), s.blk b = some y ∧ y.frozen = .no ∧ (∀ e, e ∈ s.links → e.2.who.block ≠ b) ∧ s.Bare
      (coreOf b) ∧ twf y.vers = true ∧ twf s.blocks = true ∧ ¬ (∀ e, e ∈ y.waves → e.2.live = false))
    ∧ (∃ (s : State) (b : Nat) (y : Block) (g : Grid) (c n : Nat), s.blk b = some y ∧ (∀ e, e ∈ y.waves → e.2.live = false) ∧
      y.streams = [] ∧ tget s.grids y.grid = some g ∧ c ≠ b ∧ n ≠ y.grid)
    ∧ (∃ (s : State) (n : Nat) (g : Grid), tget s.grids n = some g ∧ s.fw.running = true ∧ g.exited = g.gx * g.gy * g.gz ∧
      g.signal = 0)
    ∧ (∃ (s : State) (n : Nat) (g : Grid) (x : UnitRes) (u : _) (l : _), tget s.grids n = some g ∧ s.fw.running = true ∧
      g.exited = g.gx * g.gy * g.gz ∧ g.signal ≠ 0 ∧ x = (({ s with grids := tdel s.grids n }).addRunning g.tag g.kern (2
      ^ 64 - 1)).unitPut fwCore g.tag g.signal (toLE 8 g.sigValue) ∧ x = .done u l)
    ∧ (∃ (s : State) (n : Nat) (g : Grid) (x : UnitRes), tget s.grids n = some g ∧ s.fw.running = true ∧ g.exited = g.gx * g.gy
      * g.gz ∧ g.signal ≠ 0 ∧ x = (({ s with grids := tdel s.grids n }).addRunning g.tag g.kern (2 ^ 64 - 1)).unitPut
      fwCore g.tag g.signal (toLE 8 g.sigValue) ∧ x = .park)
    ∧ (∃ (s : State) (n : Nat) (g : Grid) (x : UnitRes) (u : _) (k : _) (va : _), tget s.grids n = some g ∧ s.fw.running = true
      ∧ g.exited = g.gx * g.gy * g.gz ∧ g.signal ≠ 0 ∧ x = (({ s with grids := tdel s.grids n }).addRunning g.tag g.kern
      (2 ^ 64 - 1)).unitPut fwCore g.tag g.signal (toLE 8 g.sigValue) ∧ x = .fail u k va)
    ∧ (∃ (s : State) (n : Nat) (g : Grid), tget s.grids n = some g ∧ s.fw.running = true ∧ g.exited ≠ g.gx * g.gy * g.gz)
    ∧ (∃ (s : State) (b d n : Nat) (y : Block), s.fw.running = true ∧ s.blocks = [(b, y)] ∧ y.preempt = none ∧ d =
      y.kern.intervals ∧ n = y.interval ∧ 0 < d ∧ d ≤ n + 1)
    ∧ (∃ (s : State) (b d n : Nat) (y : Block), s.fw.running = true ∧ s.blocks = [(b, y)] ∧ y.preempt = none ∧ d =
      y.kern.intervals ∧ n = y.interval ∧ (d = 0 ∨ n + 1 < d) ∧ (∃ e, e ∈ s.cmds ∧ e.2.block = b ∧ e.2.op ≠ .coll) ∧ (∀ g,
      tget s.grids y.grid = some g → g.groups = []))
    ∧ (∃ (s : State) (b d n : Nat) (y : Block), s.fw.running = true ∧ s.blocks = [(b, y)] ∧ y.preempt = none ∧ d =
      y.kern.intervals ∧ n = y.interval ∧ y.kern.idempotent = true ∧ 4 * n < d ∧ n + 1 < d ∧ s.Settled b y ∧ (∀ e, e ∈
      s.colls → e.2.who.block ≠ b) ∧ (∀ g, tget s.grids y.grid = some g → g.groups = []))
    ∧ (∃ (s : State) (b d n : Nat) (y : Block), s.fw.running = true ∧ s.blocks = [(b, y)] ∧ y.preempt = none ∧ d =
      y.kern.intervals ∧ n = y.interval ∧ y.kern.idempotent = false ∧ n + 1 < d ∧ s.Settled b y)
    ∧ (∃ (s : State) (c : Nat), s.fw.running = false)
    ∧ (∃ (s : State) (b : Nat) (y : Block), s.blk b = some y ∧ (s.ctx y.tag.slot).rcd.policy = 0 ∧ (s.ctx y.tag.slot).rcd.eventq
      = 0)
    ∧ (∃ (s : State) (b : Nat) (y : Block), s.blk b = some y ∧ y.frozen = .no)
    ∧ (∃ (s : State) (b : Nat) (y : Block), s.blk b = some y ∧ y.frozen ≠ .no) :=
  ⟨⟨crowd, 0, 0, 0, 4096, 16, vw crowd, ⟨packetGrid ⟨0, 0⟩ big (pkt 0x20800), big, none⟩, oneRun, slotView, d, d, rfl, d⟩,
   ⟨ranAt 8 true, 0, (.inl listAll)⟩,
   ⟨pend [5, 4] 3, 0, 1, 5, [4], bk (pend [5, 4] 3) 0, wv5, d, d, d, rfl, d, d, d, d⟩,
   ⟨pend [5, 4] 4, 0, 1, 5, [4], bk (pend [5, 4] 4) 0, wv5, d, d, d, rfl, d, d, d, d⟩,
   ⟨exits false, 0, bk (exits false) 0, blkd, d, listAll, bare, d, d, listAll, d, listAll, listAll, listAll⟩,
   ⟨exits true, 0, bk (exits true) 0, blkd, d, listAll, bare, d, d, d⟩,
   ⟨exits false, 0, bk (exits false) 0, gr2 1 0, 1, 3, blkd, listAll, d, d, d, d⟩,
   ⟨gz (gr2 2 0), 4, gr2 2 0, d, d, d, d⟩,
   ⟨allReady (gSig 0x20040), 4, gr2 2 0x20040, _, _, _, d, d, d, d, rfl, (donePut (s := base))⟩,
   ⟨gSig 0x20040, 4, gr2 2 0x20040, _, d, d, d, d, rfl, parkPut⟩,
   ⟨gSig (2 ^ 57), 4, gr2 2 (2 ^ 57), _, _, _, _, d, d, d, d, rfl, (failPut (s := base))⟩,
   ⟨gz (gr2 1 0), 4, gr2 1 0, d, d, d⟩,
   ⟨pre 5 4 false [], 0, 5, 4, bk (pre 5 4 false []) 0, d, rfl, d, d, d, d, d⟩,
   ⟨pre 5 3 true cm4, 0, 5, 3, bk (pre 5 3 true cm4) 0, d, rfl, d, d, d, d, ⟨(4, cmd (.linear 0 0 0) (fl false false) false 0
    0), d⟩, optAll⟩,
   ⟨pre 5 1 true [], 0, 5, 1, bk (pre 5 1 true []) 0, d, rfl, d, d, d, d, d, d, settled, listAll, optAll⟩,
   ⟨pre 5 3 false [], 0, 5, 3, bk (pre 5 3 false []) 0, d, rfl, d, d, d, d, d, settled⟩,
   ⟨base, 0, d⟩,
   ⟨base, 0, bk base 0, blkd, d, d⟩,
   ⟨base, 0, bk base 0, blkd, d⟩,
   ⟨stop1, 0, bk stop1 0, blkd, d⟩⟩

theorem premises_Paging :
    (∃ (s : State) (ctx va l pa : Nat) (w a f : Bool) (p cell : Nat → Nat) (e : Nat → Word64) (g : XEnt), va < 2 ^ 57 ∧ ctx ≠
      0 ∧ s.Uncached ⟨ctx, (s.ctx ctx).inc⟩ ∧ s.WalksTo va (s.ctx ctx).rcd.ptroot l p cell e ∧ pa = ((e l).extractLsb' 12
      32).toNat * 65536 ∧ g.tag = ⟨ctx, (s.ctx ctx).inc⟩ ∧ g.lvl = none ∧ g.pre = va / 65536 ∧ (∀ i, i < 12 → g.e.getLsbD
      i = (e l).getLsbD i) ∧ g.e.extractLsb' 44 20 = (e l).extractLsb' 44 20 ∧ (g.e.extractLsb' 12 32).toNat * 65536 = pa
      + va % 2 ^ levelBits l / 65536 * 65536 ∧ (g.whole = true ↔ if (e l).getLsbD 9 = true then 2 ^ 44 ≤ pa ∧ (pa - 2 ^
      44) / 2 ^ 32 < 512 ∧ (pa - 2 ^ 44) % 2 ^ 32 + 2 ^ levelBits l ≤ 0x90000000 else pa + 2 ^ levelBits l ≤
      0x12000000000))
    ∧ (∃ (s : State) (ctx va c : Nat) (w a f : Bool), s.Uncached ⟨ctx, (s.ctx ctx).inc⟩ ∧ cellOf ((s.ctx ctx).rcd.ptroot + 8 *
      tableIndex va 4) = some c ∧ (s.dramByte c).getLsbD 0 = false)
    ∧ (∃ (s : State) (ctx va : Nat) (w a f : Bool) (x : XEnt), x ∈ (s.core 512).tlb ∧ x.tag = ⟨ctx, (s.ctx ctx).inc⟩ ∧ x.lvl =
      none ∧ x.pre = va / 65536)
    ∧ (∃ (s : State) (stook k va cause kinds : Nat) (t : Tag) (who : Issuer) (e : FaultEntry), s.faults = [(k, e)] ∧ e.granule =
      va / 65536 * 65536 ∧ e.tag = t)
    ∧ (∃ (s : State) (stook va cause kinds : Nat) (t : Tag) (who : Issuer), (∀ i, i < 256 → ∃ e, tget s.faults (256 * stook + i)
      = some e) ∧ (∀ e, e ∈ s.faults → e.2.granule ≠ va / 65536 * 65536 ∨ e.2.tag ≠ t))
    ∧ (∃ (s : State) (stook ix cell : Nat) (e : FaultEntry) (v : View), ix < 256 ∧ tget s.faults (256 * stook + ix) = some e ∧
      e.slots = [.slot v.bid v.wid v.k] ∧ e.cmds = [] ∧ s.Parked v stook ix ∧ cellOf (Config.faultBase stook + 32 * ix) =
      some cell ∧ (∀ i, i < 32 → s.onAppend (cell + i) = false))
    ∧ (∃ (s : State) (stook ix cell : Nat) (e : FaultEntry) (v : View), ix < 256 ∧ tget s.faults (256 * stook + ix) = some e ∧
      e.slots = [.slot v.bid v.wid v.k] ∧ e.cmds = [] ∧ s.Parked v stook ix ∧ cellOf (Config.faultBase stook + 32 * ix) =
      some cell ∧ (∀ i, i < 32 → s.onAppend (cell + i) = false) ∧ v.Handles)
    ∧ (∃ (s : State) (stook ix : Nat) (r : Bool), tget s.faults (256 * stook + ix) = none)
    ∧ (∃ (s : State) (stook ix q h lg ring tail head slot : Nat) (e : FaultEntry), tget s.faults (256 * stook + ix) = some e ∧
      ix < 256 ∧ e.forwarded = false ∧ (∀ x, e.tried = some x → x + 250000 ≤ s.clock) ∧ s.fw.running = true ∧
      s.faultq.getLsbD 0 = true ∧ q = s.faultq.toNat / 256 * 256 ∧ q ≠ 0 ∧ cellOf q = some h ∧ s.parks q h = false ∧
      s.parks (ring + tail % 2 ^ lg * 128) slot = false ∧ (∀ i, i < 256 → (i < 48 ∨ 56 ≤ i) → s.onAppend (h + i) = false)
      ∧ (∀ i, i < 128 → s.onAppend (slot + i) = false) ∧ s.Empty 512 ∧ numberAt s.dramByte h 1 = 2 ∧ numberAt s.dramByte
      (h + 2) 1 = lg ∧ 1 ≤ lg ∧ lg ≤ 20 ∧ numberAt s.dramByte (h + 8) 8 = ring ∧ ring % 128 = 0 ∧ numberAt s.dramByte (h +
      16) 8 = tail ∧ numberAt s.dramByte (h + 24) 8 = head ∧ (∀ i, (3 ≤ i ∧ i < 8) ∨ (64 ≤ i ∧ i < 256) → s.dramByte (h +
      i) = 0) ∧ cellOf (ring + tail % 2 ^ lg * 128) = some slot ∧ (slot + 128 ≤ h ∨ h + 256 ≤ slot) ∧ e.granule < 2 ^ 64 ∧
      e.faddr < 2 ^ 64 ∧ (tail + 2 ^ 64 - head) % 2 ^ 64 = 2 ^ lg)
    ∧ (∃ (s : State) (stook ix q h lg ring tail head slot : Nat) (e : FaultEntry), tget s.faults (256 * stook + ix) = some e ∧
      ix < 256 ∧ e.forwarded = false ∧ (∀ x, e.tried = some x → x + 250000 ≤ s.clock) ∧ s.fw.running = true ∧
      s.faultq.getLsbD 0 = true ∧ q = s.faultq.toNat / 256 * 256 ∧ q ≠ 0 ∧ cellOf q = some h ∧ s.parks q h = false ∧
      s.parks (ring + tail % 2 ^ lg * 128) slot = false ∧ (∀ i, i < 256 → (i < 48 ∨ 56 ≤ i) → s.onAppend (h + i) = false)
      ∧ (∀ i, i < 128 → s.onAppend (slot + i) = false) ∧ s.Empty 512 ∧ numberAt s.dramByte h 1 = 2 ∧ numberAt s.dramByte
      (h + 2) 1 = lg ∧ 1 ≤ lg ∧ lg ≤ 20 ∧ numberAt s.dramByte (h + 8) 8 = ring ∧ ring % 128 = 0 ∧ numberAt s.dramByte (h +
      16) 8 = tail ∧ numberAt s.dramByte (h + 24) 8 = head ∧ (∀ i, (3 ≤ i ∧ i < 8) ∨ (64 ≤ i ∧ i < 256) → s.dramByte (h +
      i) = 0) ∧ cellOf (ring + tail % 2 ^ lg * 128) = some slot ∧ (slot + 128 ≤ h ∨ h + 256 ≤ slot) ∧ e.granule < 2 ^ 64 ∧
      e.faddr < 2 ^ 64 ∧ (¬ ((tail + 2 ^ 64 - head) % 2 ^ 64 = 2 ^ lg)))
    ∧ (∃ (s : State) (stook ix : Nat) (e : FaultEntry), tget s.faults (256 * stook + ix) = some e ∧ (e.forwarded = true ∨
      s.fw.running = false ∨ ∃ x, e.tried = some x ∧ s.clock < x + 250000))
    ∧ (∃ (s : State) (stook ix : Nat) (e : FaultEntry), tget s.faults (256 * stook + ix) = some e ∧ ix < 256 ∧ s.fw.running =
      true ∧ e.forwarded = false ∧ e.tried = none ∧ s.faultq.getLsbD 0 = false) :=
  ⟨⟨paged, 3, vaP, 0, 0x1230000, true, false, false, tblP, cellP, entP, gP, d, d, uncached, walksTo, d, d, d, d, d, d, d, d⟩,
   ⟨ctx3 base, 3, vaP, cellP 4, true, false, false, uncached, d, d⟩,
   ⟨known, 3, vaP, true, false, false, gP, d, d, d, d⟩,
   ⟨parked, 3, 260, 0x50010, 2, 1, ⟨0, 0⟩, .slot 0 0 0, fe, d, d, d⟩,
   ⟨fullF, 1, 0x50010, 2, 1, ⟨0, 0⟩, .slot 0 0 0, (fun i hi => Option.isSome_iff_exists.mp ((d : ∀ i, i < 256 → (tget
    fullF.faults (256 * 1 + i)).isSome = true) i hi)), listAll⟩,
   ⟨parked, 1, 4, (cellOf (Config.faultBase 1 + 128)).getD 0, fe, vw parked, d, d, d, d, ⟨slotView, d, d⟩, d, d⟩,
   ⟨parked, 1, 4, (cellOf (Config.faultBase 1 + 128)).getD 0, fe, vw parked, d, d, d, d, ⟨slotView, d, d⟩, d, d, handles⟩,
   ⟨parked, 1, 5, true, d⟩,
   ⟨faultQ 6, 1, 4, 0x20100, D + 0x100, 1, 0x20400, 6, 4, D + 0x400, fe, d, d, d, optAll, d, d, d, d, d, d, d, d, d, empty,
    d, d, d, d, d, d, d, d, zeros, d, d, d, d, d⟩,
   ⟨faultQ 5, 1, 4, 0x20100, D + 0x100, 1, 0x20400, 5, 4, D + 0x480, fe, d, d, d, optAll, d, d, d, d, d, d, d, d, d, empty,
    d, d, d, d, d, d, d, d, zeros, d, d, d, d, d⟩,
   ⟨idle, 1, 4, fe, d, (.inr (.inl d))⟩,
   ⟨{ parked with faultq := 0x20100 }, 1, 4, fe, d, d, d, d, d, d⟩⟩

theorem premises_Landing :
    (∃ (s : State) (c line : Nat) (x y : VWrite), c < 512 ∧ (s.core c).wq = [x, y] ∧ x.block = none ∧ y.block = none ∧ y.addr
      < 256 * line + 256 ∧ 256 * line < y.addr + y.data.length)
    ∧ (∃ (s : State) (c line : Nat), c < 512 ∧ (∀ e, e ∈ (s.core c).wq → 256 * line + 256 ≤ e.addr ∨ e.addr + e.data.length ≤
      256 * line))
    ∧ (∃ (s : State) (line : Nat) (x : SLine), tget s.lines line = some x ∧ (∀ i, i < 256 → (x.mask.getLsbD (i / 8) &&
      x.dirty.getLsbD (i / 64)) = true → (tget x.data i).isSome = true) ∧ (∀ i v, i < 256 → tget x.data i = some v →
      (x.mask.getLsbD (i / 8) && x.dirty.getLsbD (i / 64)) = false → v = s.vaultByte (256 * line + i)))
    ∧ (∃ (s : State) (c : Nat) (w x : VWrite) (rest : List VWrite), (s.core c).wq = w :: x :: rest ∧ anyMode (s.core c).colWays
      0 16 = false ∧ w.bus = true ∧ w.block = none)
    ∧ (∃ (s : State) (c : Nat) (w x : VWrite) (rest : List VWrite), (s.core c).wq = w :: x :: rest ∧ anyMode (s.core c).colWays
      0 16 = false ∧ w.bus = false ∧ x.bus = true)
    ∧ (∃ (s : State) (c : Nat) (w : VWrite) (rest : List VWrite), (s.core c).wq = w :: rest ∧ w.bus = true ∧ anyMode (s.core
      c).colWays 0 16 = true)
    ∧ (∃ (s : State) (c : Nat), (∀ e, e ∈ (s.core c).wq → e.bus = false))
    ∧ (∃ (s : State) (n : Nat) (r : LazyReq), s.lazies = [r] ∧ r.entry = n ∧ r.started = false)
    ∧ (∃ (s : State) (n : Nat) (r : LazyReq) (v : View), s.lazies = [r] ∧ r.entry = n ∧ r.started = true ∧ r.input = none ∧
      s.fw.running = true ∧ s.view v.bid v.wid v.k = some v ∧ v.k < 2 ∧ v.sl.status = .binding n ∧ s.onAppend n = false)
    ∧ (∃ (s u w : State) (n used base : Nat) (r : LazyReq) (v : View) (o : Output) (x : List Byte), s.lazies = [r] ∧ r.entry = n
      ∧ r.started = true ∧ s.fw.running = true ∧ s.view v.bid v.wid v.k = some v ∧ v.k < 2 ∧ v.sl.status = .binding n ∧
      s.patches = [] ∧ s.blk nobody.block = none ∧ (∀ i, i < 16 → s.onAppend (n + i) = false) ∧ used = (cget (0, 0)
      s.kcounts (kernKey r.tag r.kern.addr)).2 ∧ base = r.kern.text + r.kern.spareOff + used ∧ base < 2 ^ 64 ∧
      s.translation r base = some o ∧ r.kern.spareOff + used + o.bytes.length ≤ r.kern.textLen ∧ w =
      { s with patches := [outputRun r] } ∧ w.patchWaits ⟨nobody, r.tag, 0, base, o.bytes.length, n, none⟩ = true)
    ∧ (∃ (s u w : State) (n used base : Nat) (r : LazyReq) (v : View) (o : Output) (x : List Byte), s.lazies = [r] ∧ r.entry = n
      ∧ r.started = true ∧ s.fw.running = true ∧ s.view v.bid v.wid v.k = some v ∧ v.k < 2 ∧ v.sl.status = .binding n ∧
      s.patches = [] ∧ s.blk nobody.block = none ∧ (∀ i, i < 16 → s.onAppend (n + i) = false) ∧ used = (cget (0, 0)
      s.kcounts (kernKey r.tag r.kern.addr)).2 ∧ base = r.kern.text + r.kern.spareOff + used ∧ base < 2 ^ 64 ∧
      s.translation r base = some o ∧ r.kern.spareOff + used + o.bytes.length ≤ r.kern.textLen ∧ w =
      { s with patches := [outputRun r] } ∧ w.patchWaits ⟨nobody, r.tag, 0, base, o.bytes.length, n, none⟩ = false ∧
      w.patchWrite fwCore r.tag base o.bytes = .ok u x)
    ∧ (∃ (s : State) (n : Nat), s.lazies = []) :=
  ⟨⟨queued2 false, 0, D / 256, bw (D + 3) [1, 2, 3] false, bw (D + 4) [9, 9] true, d, d, d, d, d, d⟩,
   ⟨queued2 false, 0, D / 256 + 1, d, listAll⟩,
   ⟨lined, D / 256, sl, d, d, (fun i v hi h => tgets (P := fun i v => (sl.mask.getLsbD (i / 8) && sl.dirty.getLsbD (i / 64))
    = false → v = lined.vaultByte (256 * (D / 256) + i)) d i v h)⟩,
   ⟨queued2 true, 0, bw (D + 3) [1, 2, 3] true, bw (D + 4) [9, 9] true, [], d, d, d, d⟩,
   ⟨queued2 false, 0, bw (D + 3) [1, 2, 3] false, bw (D + 4) [9, 9] true, [], d, d, d, d⟩,
   ⟨wayOn, 0, bw (D + 3) [1, 2, 3] true, [bw (D + 4) [9, 9] true], d, d, d⟩,
   ⟨cached1, 0, listAll⟩,
   ⟨lzS (lz false none), D + 0x40, lz false none, d, d, d⟩,
   ⟨lzS (lz true none), D + 0x40, lz true none, vw (lzS (lz true none)), d, d, d, d, d, slotView, d, d, d⟩,
   ⟨busy, base, toOut busy, D + 0x40, 64, 0x18040, lz1, vw busy, outB, [], d, d, d, d, slotView, d, d, d, d, d, d, d, d,
    (someGetD d), d, rfl, d⟩,
   ⟨lzS lz1, wrote.1, toOut (lzS lz1), D + 0x40, 64, 0x18040, lz1, vw (lzS lz1), out1, wrote.2, d, d, d, d, slotView, d, d,
    d, d, d, d, d, d, (someGetD d), d, rfl, d, memOk⟩,
   ⟨base, D, d⟩⟩

theorem premises_HostAccesses :
    (∃ (s : State) (pa n : Nat) (cell : Nat → Nat), s.HostOpen pa n cell)
    ∧ (∃ (s : State) (pa n : Nat) (cell : Nat → Nat), s.HostOpen pa n cell ∧ pa % 64 + n ≤ 64)
    ∧ (∃ (s : State) (pa : Nat) (d : List Byte) (cell : Nat → Nat), s.HostOpen pa d.length cell ∧ (∀ i, i < d.length →
      s.onAppend (cell i) = false ∧ s.unitFallow .vault (vaultOf (cell i)) = false) ∧ s.waiters = [] ∧ s.faults = [])
    ∧ (∃ (s : State) (pa : Nat) (d : List Byte) (cell : Nat → Nat), s.HostOpen pa d.length cell ∧ (∀ i, i < d.length →
      s.onAppend (cell i) = false ∧ s.unitFallow .vault (vaultOf (cell i)) = true))
    ∧ (∃ (s t : State) (pa : Nat) (d : List Byte) (cell : Nat → Nat), d.length = 8 ∧ pa % 8 = 0 ∧ s.HostOpen pa 8 cell ∧
      s.onAppend (cell 0) = true ∧ exec (.hostAppend (pa - 48) (leNat d)) { s with hostReply := [] } = .next t)
    ∧ (∃ (s : State) (a : HostAccess) (pa n : Nat) (cell : Nat → Nat), s.fw.running = true ∧ 0 < n ∧ (a = .read pa n ∨ ∃ d, a =
      .write pa d ∧ d.length = n) ∧ (∀ i, i < n → cellOf (pa + i) = some (cell i)) ∧ (s.hostHeld ≠ [] ∨ ∃ i, i < n ∧
      s.parks (pa + i) (cell i) = true))
    ∧ (∃ (s : State) (a : HostAccess) (pa n : Nat), (a = .read pa n ∨ ∃ d, a = .write pa d ∧ d.length = n) ∧ (s.fw.running =
      false ∨ ∃ i, i < n ∧ cellOf (pa + i) = none))
    ∧ (∃ (s : State) (off n : Nat), s.fw.running = true ∧ off + n ≤ 8)
    ∧ (∃ (s : State) (d : List Byte), s.fw.running = true ∧ d.length = 8)
    ∧ (∃ (s : State) (reg : Nat) (v : BitVec 32) (a : HostAccess), (a = .configRead reg ∨ a = .configWrite reg v) ∧ s.fw.running
      = false ∧ s.fw.recovery = false)
    ∧ (∃ (s : State) (msg : List Byte), (s.fw.running = true ∨ s.fw.recovery = true))
    ∧ (∃ (s : State) (v : Nat), v < 512 ∧ s.unitFallow .vault v = false ∧ s.heldReqs = [] ∧ s.hostHeld = [])
    ∧ (∃ (s : State) (v : Nat) (a : HostAccess) (t : State), v < 512 ∧ s.unitFallow .vault v = false ∧ s.heldReqs = [] ∧
      s.hostHeld = [a] ∧ exec (.hostMemAccess a) { s.setReady .vault v true with hostHeld := [] } = .next t)
    ∧ (∃ (s : State) (v : Nat), (512 ≤ v ∨ s.unitFallow .vault v = true))
    ∧ (∃ (s : State) (line key : Nat), key = hostKey (64 * line)) :=
  ⟨⟨host, 0x20FFE, 4, cellH, hostOpen⟩,
   ⟨host, 0x21004, 60, cellS, hostOpen, d⟩,
   ⟨host, 0x20FFE, [1, 2, 3, 0], cellH, hostOpen, d, d, d⟩,
   ⟨lost, 0x21004, [1, 2, 3, 0], cellS, hostOpen, d⟩,
   (goes (o := exec (.hostAppend (0x20130 - 48) (leNat (le 8 0x20200))) { hostQ with hostReply := [] })).elim fun t h =>
    ⟨hostQ, t, 0x20130, le 8 0x20200, fun i => D + 0x130 + i, d, d, hostOpen, d, h⟩,
   ⟨dark, .write 0x20FFE [1, 2, 3, 4], 0x20FFE, 4, cellH, d, d, (.inr ⟨_, rfl, rfl⟩), d, (.inr ⟨3, d⟩)⟩,
   ⟨host, .read 0x11FFFFFFFFE 4, 0x11FFFFFFFFE, 4, (.inl rfl), (.inr ⟨2, d⟩)⟩,
   ⟨host, 3, 5, d, d⟩,
   ⟨host, le 8 0x20101, d, d⟩,
   ⟨base, 4, 9, .configWrite 4 9, d, d, d⟩,
   ⟨host, [1, 2], d⟩,
   ⟨dark, 511, d, d, d, d⟩,
   (goes (o := exec (.hostMemAccess (.write 0x20000 [1, 2]))
    { heldW.setReady .vault (vaultOf D) true with hostHeld := [] })).elim fun t h => ⟨heldW, vaultOf D, .write 0x20000 [1,
    2], t, d, d, d, d, h⟩,
   ⟨dark, 512, d⟩,
   ⟨base, 9, hostKey 576, d⟩⟩

theorem premises_BringUp :
    (∃ (s : State) (i : Instr), (i = .reset ∨ i = .perst))
    ∧ (∃ (s : State) (c : UnitClass) (n : Nat), s.Unit c n ∧ c ≠ .port ∧ s.heldReqs = [] ∧ s.hostHeld = [])
    ∧ (∃ (s : State) (c : UnitClass) (n : Nat) (i : Instr), (¬ s.Unit c n) ∧ (i = .selfTestPass c n ∨ i = .selfTestFail c n ∨ i
      = .unitFallow c n))
    ∧ (∃ (s : State) (c : UnitClass) (n : Nat) (k : ErrKind) (m h : Nat), errorLimit c k = some (m, h) ∧ (m ≤ (s.errs.filter fun
      e => decide (e.unit = c ∧ e.n = n ∧ e.kind = k ∧ s.clock < e.time + h * 9000000000000)).length) ∧ s.unitFallow c n =
      false ∧ n ∉ s.quits)
    ∧ (∃ (s : State) (c : UnitClass) (n : Nat) (i : Instr), s.Unit c n ∧ s.blocks = [] ∧ s.sparesFor c n = 0 ∧ (i =
      .selfTestFail c n ∧ c = .core ∨ (c = .copyEngine ∨ c = .mgmt) ∧ (i = .selfTestFail c n ∨ i = .unitFallow c n)))
    ∧ (∃ (s : State) (n : Nat), s.Unit .core n ∧ n ∉ s.quits)
    ∧ (∃ (s : State) (n : Nat) (b : _) (y : _), s.Unit .core n ∧ n ∈ s.quits ∧ s.blk b = some y ∧ coreOf b = n)
    ∧ (∃ (s : State) (n : Nat), s.Unit .core n ∧ n ∈ s.quits ∧ s.blocks = [] ∧ s.sparesFor .core n = 0)
    ∧ (∃ (s : State) (n : Nat), s.Unit .core n ∧ n ∈ s.quits ∧ s.blocks = [] ∧ 0 < s.sparesFor .core n ∧ (s.core n).wq = [])
    ∧ (∃ (s : State) (n : Nat), s.Unit .core n ∧ 0 < s.sparesFor .core n ∧ (s.core n).wq = [])
    ∧ (∃ (s : State) (n : Nat), s.Unit .slice n ∧ s.blocks = [])
    ∧ (∃ (s : State) (n : Nat), s.Unit .vault n ∧ (∀ e, e ∈ s.ctxs → e.1 = 0 ∨ e.2.state ≠ .live))
    ∧ (∃ (s : State) (v lvl pa cell c : Nat) (e : Word64), cellOf pa = some cell ∧ pa % 8 = 0 ∧ s.ptRead pa = .ok e ∧ e.getLsbD
      0 = true ∧ e.getLsbD 1 = true ∧ leafOk e lvl = true ∧ e.extractLsb' 10 2 = 0 ∧ 2 ^ 44 ≤ (e.extractLsb' 12 32).toNat
      * 65536 ∧ cellOf ((e.extractLsb' 12 32).toNat * 65536) = some c ∧ vaultOf c = v ∧ ∀ i, i < 8 → s.onAppend (cell + i)
      = false)
    ∧ (∃ (s : State) (n : Nat) (p : Port), s.Unit .lane n ∧ p = s.port (n / 4) ∧ (∃ i, i < 4 ∧ i ≠ n % 4 ∧ i ∉ p.dead) ∧ p.isUp
      = true)
    ∧ (∃ (s : State) (n : Nat) (p : Port), s.Unit .lane n ∧ p = s.port (n / 4) ∧ (∀ i, i < 4 → i ≠ n % 4 → i ∈ p.dead))
    ∧ (∃ (s : State) (n : Nat) (i : Instr), s.Unit .port n ∧ (i = .selfTestFail .port n ∨ i = .unitFallow .port n)) :=
  ⟨⟨bare0, .perst, (.inr rfl)⟩,
   ⟨bare0, .vault, 511, ⟨d, d, d⟩, d, d, d⟩,
   ⟨bare0, .core, 2, .unitFallow .core 2, (fun h => absurd h.whole d), (.inr (.inr rfl))⟩,
   ⟨faulty, .slice, 300, .uncorrectable, 3, 24, d, d, d, d⟩,
   ⟨spent, .core, 130, .selfTestFail .core 130, ⟨d, d, d⟩, d, d, (.inl ⟨rfl, rfl⟩)⟩,
   ⟨bare0, 511, ⟨d, d, d⟩, d⟩,
   ⟨home0, 0, 0, bk home0 0, ⟨d, d, d⟩, d, blkd, d⟩,
   ⟨leaves spent 130, 130, ⟨d, d, d⟩, d, d, d⟩,
   ⟨leaves spent 3, 3, ⟨d, d, d⟩, d, d, d, d⟩,
   ⟨spent, 3, ⟨d, d, d⟩, d, d⟩,
   ⟨spent, 1023, ⟨d, d, d⟩, d⟩,
   ⟨bare0, 511, ⟨d, d, d⟩, listAll⟩,
   ⟨leafS, _, 0, 0x20000, D, (cellOf (2 ^ 44)).getD 0, BitVec.ofNat 64 (3 + 2 ^ 12 * 2 ^ 28), d, d, ptOk, d, d, d, d, d, d,
    rfl, d⟩,
   ⟨upP, 10, _, ⟨d, d, d⟩, rfl, ⟨1, d⟩, d⟩,
   ⟨oneLeft, 10, _, ⟨d, d, d⟩, rfl, d⟩,
   ⟨bare0, 2, .unitFallow .port 2, ⟨d, d, d⟩, (.inr rfl)⟩⟩

theorem premises_Sideband :
    (∃ (s : State) (cls word : Nat), cls ≤ 5 ∧ word < 64)
    ∧ (∃ (s : State) (die : Nat) (x : Int), die < 64 ∧ tget s.fw.temps die = some x)
    ∧ (∃ (s : State) (watts : Nat), 500 ≤ watts ∧ watts ≤ 2800)
    ∧ (∃ (s : State) (slot ms : Nat), slot < 1024 ∧ 1 ≤ ms ∧ ms ≤ 60000)
    ∧ (∃ (s : State) (i : Instr), ((∃ cls word, (5 < cls ∨ 64 ≤ word) ∧ i = .readReady cls word) ∨ (∃ die, 64 ≤ die ∧ i =
      .readTemp die) ∨ (∃ watts, (watts < 500 ∨ 2800 < watts) ∧ i = .powerCap watts) ∨ ∃ slot ms, (1024 ≤ slot ∨ ms = 0 ∨
      60000 < ms) ∧ i = .watchdogSet slot ms))
    ∧ (∃ (s : State) (die : Nat) (x : Int), s.fw.running = true ∧ die < 64)
    ∧ (∃ (s : State) (die : Nat) (x : Int), (s.fw.running = false ∨ 64 ≤ die))
    ∧ (∃ (s : State) (k : Nat) (e : Thermal), s.thermalOf k = some e ∧ s.clock < e.since + 25000000)
    ∧ (∃ (s : State) (k : Nat) (e : Thermal), s.thermalOf k = some e ∧ e.since + 25000000 ≤ s.clock)
    ∧ (∃ (s : State) (k : Nat), s.thermalOf k = none) :=
  ⟨⟨bare0, 5, 63, d, d⟩,
   ⟨therm [] 0, 16, 1600, d, d⟩,
   ⟨bare0, 2800, d, d⟩,
   ⟨bare0, 1023, 60000, d, d, d⟩,
   ⟨bare0, .readReady 6 0, (.inl ⟨6, 0, .inl (by decide), rfl⟩)⟩,
   ⟨therm [] 0, 63, 1840, d, d⟩,
   ⟨therm [] 0, 64, 1840, d⟩,
   ⟨therm [th1] 25000002, 1, th1, d, d⟩,
   ⟨therm [th1] 25000003, 1, th1, d, d⟩,
   ⟨therm [th1] 0, 2, d⟩⟩

theorem premises_StepRunsDecoded :
    (∃ (s u t : State) (v : View) (rest : List AgendaItem) (word : InstrWord) (n : Nat) (i : _), s.tick.agenda = .issue (.slot
      v.bid v.wid v.k) :: rest ∧ u = { s.tick with agenda := rest, cur := .slot v.bid v.wid v.k } ∧ u.Serves v ∧
      v.sl.expand = none ∧ u.NoTile v.b.tag v.sl.pc ∧ u.Fetches v.b.kern v.sl.pc word n t ∧ decode word = .ok i)
    ∧ (∃ (s u t : State) (v : View) (rest : List AgendaItem) (word : InstrWord) (n : Nat) (p : _), s.tick.agenda = .issue (.slot
      v.bid v.wid v.k) :: rest ∧ u = { s.tick with agenda := rest, cur := .slot v.bid v.wid v.k } ∧ u.Serves v ∧
      v.sl.expand = none ∧ u.NoTile v.b.tag v.sl.pc ∧ u.Fetches v.b.kern v.sl.pc word n t ∧ decode word = .error (.illegal
      p))
    ∧ (∃ (s u : State) (v : View) (rest : List AgendaItem) (word : InstrWord) (last : Bool) (i : Instr), s.tick.agenda = .issue
      (.slot v.bid v.wid v.k) :: rest ∧ u = { s.tick with agenda := rest, cur := .slot v.bid v.wid v.k } ∧ u.Serves v ∧
      v.sl.expand = some (word, last) ∧ decode word = .ok i)
    ∧ (∃ (s r u : State) (b : Nat) (e : Engine) (ix : Nat) (x : Stream) (y : Block) (rest : List AgendaItem) (i : Instr) (t : _)
      (word : _) (n : _), s.tick.agenda = .issue (.stream b e ix) :: rest ∧ r =
      { s.tick with agenda := rest, cur := .stream b e ix } ∧ r.Runs b e ix x y ∧ u = r.modStream b e ix (fun z =>
      { z with replay := .none }) ∧ x.expand = none ∧ u.Fetches y.kern x.pc word n t ∧ decode word = .ok i)
    ∧ (∃ (s r u : State) (b : Nat) (e : Engine) (ix : Nat) (x : Stream) (y : Block) (rest : List AgendaItem) (i : Instr) (word :
      _) (last : _), s.tick.agenda = .issue (.stream b e ix) :: rest ∧ r =
      { s.tick with agenda := rest, cur := .stream b e ix } ∧ r.Runs b e ix x y ∧ u = r.modStream b e ix (fun z =>
      { z with replay := .none }) ∧ x.expand = some (word, last) ∧ decode word = .ok i)
    ∧ (∃ (s : State) (rest : List AgendaItem) (i : Instr), s.tick.agenda = .event i :: rest ∧ s.tick.stopped = false)
    ∧ (∃ (u : State) (va : Nat) (blk : BitVec 256), va % 32 = 0 ∧ tget (u.core (coreOf u.cur.block)).icache (icKey (u.tagOf
      u.cur) va) = some blk)
    ∧ (∃ (u t : State) (va pa cell : Nat), va % 32 = 0 ∧ tget (u.core (coreOf u.cur.block)).icache (icKey (u.tagOf u.cur) va) =
      none ∧ u.translate (coreOf u.cur.block) (u.tagOf u.cur) va ⟨false, false, true⟩ = (t, .ok (.dram pa cell)) ∧ t.parks
      pa cell = false ∧ t.poisoned cell 32 = false ∧ (∀ i, i < 32 → (cell + i) / 64 ∉ t.vaultBad)) :=
  ⟨⟨fresh wAdd, turn (fresh wAdd), gotT (fetchAt (turn (fresh wAdd)) 0x10000), vw (turn (fresh wAdd)), [], wordOf (turn
    (fresh wAdd)) 0x10000, 8, iAdd, rfl, rfl, serves, d, noTile, fetches, decodes⟩,
   ⟨fresh wBad, turn (fresh wBad), gotT (fetchAt (turn (fresh wBad)) 0x10000), vw (turn (fresh wBad)), [], wordOf (turn
    (fresh wBad)) 0x10000, 8, false, rfl, rfl, serves, d, noTile, fetches, rejects⟩,
   ⟨half, turn half, vw (turn half), [], BitVec.ofNat 128 wAdd, true, iAdd, rfl, rfl, serves, d, decodes⟩,
   ⟨freshS sm, turnS (freshS sm), calmed sm, 0, .msg, 1, sm, bk (turnS (freshS sm)) 0, [.elapse 1], iAdd, gotT (fetchAt
    (calmed sm) 0x10000), wordOf (calmed sm) 0x10000, 8, rfl, rfl, runs, rfl, d, fetches, decodes⟩,
   ⟨freshS sm2, turnS (freshS sm2), calmed sm2, 0, .msg, 1, sm2, bk (turnS (freshS sm2)) 0, [.elapse 1], iAdd, BitVec.ofNat
    128 wAdd, false, rfl, rfl, runs, rfl, d, decodes⟩,
   ⟨{ fresh 0 with agenda := [.event .reset, .elapse 1] }, [.elapse 1], .reset, rfl, d⟩,
   ⟨icached, 0x10020, 7, d, d⟩,
   ⟨icached, icached, 0x10000, 0x10000, (cellOf 0x10000).getD 0, d, d, (translate_phys d), d, d, d⟩⟩

theorem premises_MemoryCanonical : ∃ s t : State, s.MemWf ∧ step s = .next t :=
(goes (o := step (fresh wAdd))).elim fun t h => ⟨fresh wAdd, t, ⟨d, d, d⟩, h⟩

theorem premises_TablesCanonical : ∃ s t : State, s.TablesRise ∧ step s = .next t :=
(goes (o := step (fresh wAdd))).elim fun t h => ⟨fresh wAdd, t, tablesRise, h⟩

theorem premises_TileOperations :
    (∃ (s : State) (id : Nat) (c : Cmd) (y : Block) (j : TileJob) (e : Tensor) (n i va pa cell x : Nat) (a b : Nat → Nat),
      s.TileGoes id c y j ∧ j.kind = .product ∧ j.b = some e ∧ j.d.rank = 2 ∧ n = c.pos % j.d.ext 0 ∧ i = c.pos / j.d.ext
      0 ∧ 0 < j.d.ext 0 ∧ i < j.d.ext 1 ∧ (∀ k, k < j.a.ext 0 → s.ElemIs c.block j.a [k, i] (a k) ∧ s.ElemIs c.block e [n,
      k] (b k)) ∧ s.ElemIs c.block j.d [n, i] x ∧ s.ElemAt c.block j.d [n, i] va pa cell)
    ∧ (∃ (s : State) (id : Nat) (c : Cmd) (y : Block) (j : TileJob) (e : Tensor) (n i va pa cell x : Nat) (a b : Nat → Nat),
      s.TileGoes id c y j ∧ j.kind = .counted ∧ j.b = some e ∧ j.d.rank = 2 ∧ n = c.pos % j.d.ext 0 ∧ i = c.pos / j.d.ext
      0 ∧ 0 < j.d.ext 0 ∧ i < j.d.ext 1 ∧ (∀ k, k < j.a.ext 0 → s.ElemIs c.block j.a [k, i] (a k) ∧ s.ElemIs c.block e [n,
      k] (b k)) ∧ s.ElemIs c.block j.d [n, i] x ∧ s.ElemAt c.block j.d [n, i] va pa cell)
    ∧ (∃ (s : State) (id : Nat) (c : Cmd) (y : Block) (j : TileJob) (e f : Tensor) (n i va pa cell x a b z : Nat), s.TileGoes id
      c y j ∧ j.kind = .scale ∧ j.b = some e ∧ j.c = some f ∧ j.d.rank = 2 ∧ n = c.pos % j.d.ext 0 ∧ i = c.pos / j.d.ext 0
      ∧ 0 < j.d.ext 0 ∧ i < j.d.ext 1 ∧ s.ElemIs c.block j.a [n, i] a ∧ s.ElemIs c.block e [i] b ∧ s.ElemIs c.block f [n]
      z ∧ s.ElemIs c.block j.d [n, i] x ∧ s.ElemAt c.block j.d [n, i] va pa cell)
    ∧ (∃ (s : State) (id : Nat) (c : Cmd) (y : Block) (j : TileJob) (op : RedOp) (m va pa cell : Nat) (ix : List Nat) (a : Nat →
      Nat), s.TileGoes id c y j ∧ j.kind = .reduce op ∧ ix = j.d.ixOf c.pos ∧ m = j.a.ext j.axis ∧ (∀ k, k < m → s.ElemIs
      c.block j.a (ix.set j.axis k) (a k)) ∧ s.ElemAt c.block j.d ix va pa cell)
    ∧ (∃ (s : State) (id k x : Nat) (c : Cmd) (y : Block) (j : TileJob) (v : View), s.TileGoes id c y j ∧ j.kind = .elemIn ∧
      c.who = .slot v.bid v.wid k ∧ s.view v.bid v.wid 0 = some v ∧ v.bid = c.block ∧ c.pos % 2 = 0 ∧ c.pos / 2 < 32 ∧ 2 ≤
      v.w.win ∧ s.ElemIs c.block j.a (j.a.ixOf (j.e0 + c.pos / 2)) x ∧ j.ty.isInt = true ∧ j.ty.bits ≤ 32) :=
  ⟨⟨s1, 5, jc j1 2 4, bk s1 0, j1, tB, 0, 1, 0x20008, 0x20008, D + 8, 0, byA, byB, ⟨⟨d, blkd, d, d, d, d, d, d, d, d, bare⟩,
    d, d, d, d⟩, d, d, d, d, d, d, d, elemPairs, elemIs, elemAt⟩,
   ⟨s2, 5, jc j2 2 4, bk s2 0, j2, tB, 0, 1, 0x20008, 0x20008, D + 8, 0, byA, byB, ⟨⟨d, blkd, d, d, d, d, d, d, d, d, bare⟩,
    d, d, d, d⟩, d, d, d, d, d, d, d, elemPairs, elemIs, elemAt⟩,
   ⟨s3, 5, jc j3 3 4, bk s3 0, j3, tE, tC, 1, 1, 0x2000C, 0x2000C, D + 12, 0, 252, 0, 0, ⟨⟨d, blkd, d, d, d, d, d, d, d, d,
    bare⟩, d, d, d, d⟩, d, d, d, d, d, d, d, d, elemIs, elemIs, elemIs, elemIs, elemAt⟩,
   ⟨s4, 5, jc j4 1 2, bk s4 0, j4, .max, 2, 0x20001, 0x20001, D + 1, [1, 0], fun k => ([2, 252][k]?).getD 0, ⟨⟨d, blkd, d, d,
    d, d, d, d, d, d, bare⟩, d, d, d, d⟩, d, d, d, elemsAre, elemAt⟩,
   ⟨s5, 5, 0, 252, jc j5 6 64, bk s5 0, j5, vw s5, ⟨⟨d, blkd, d, d, d, d, d, d, d, d, bare⟩, d, d, d, d⟩, d, d, slotView, d,
    d, d, d, elemIs, d, d⟩⟩

theorem premises_TileOperations_on :
    (∃ (s : State) (id k va pa cell : Nat) (c : Cmd) (y : Block) (j : TileJob) (v : View), s.TileGoes id c y j ∧ j.kind =
      .elemOut ∧ c.who = .slot v.bid v.wid k ∧ s.view v.bid v.wid k = some v ∧ s.ElemAt c.block j.d (j.d.ixOf (j.e0 +
      c.pos)) va pa cell)
    ∧ (∃ (s u : State) (v : View) (rest : List AgendaItem) (x : TileCode) (r : TileRec) (at_ : Nat) (pd pa pb dd da db : List
      Byte) (j : TileJob), s.tick.agenda = .issue (.slot v.bid v.wid v.k) :: rest ∧ u =
      { s.tick with agenda := rest, cur := .slot v.bid v.wid v.k, ir := ⟨0, 8, v.sl.pc, none⟩ } ∧ u.Serves v ∧ v.sl.expand
      = none ∧ u.tiles = [x] ∧ x.tag = v.b.tag ∧ 16 ≤ x.len ∧ x.lo % 32 = 0 ∧ v.sl.pc.toNat = x.lo ∧ x.work = .op r ∧ r.op
      = 2 ∧ u.Direct v ∧ at_ = (u.sread u.cur 1).toNat ∧ u.ReadsAs v.bid (at_ + r.d) 8 pd ∧ u.ReadsAs v.bid (at_ + r.a) 8
      pa ∧ u.ReadsAs v.bid (at_ + r.b) 8 pb ∧ u.ReadsAs v.bid (leNat pd) 128 dd ∧ u.ReadsAs v.bid (leNat pa) 128 da ∧
      u.ReadsAs v.bid (leNat pb) 128 db ∧ tensorOk dd = true ∧ tensorOk da = true ∧ tensorOk db = true ∧ j = ⟨.product,
      r.ty, r.axis, Tensor.parse dd, Tensor.parse da, some (Tensor.parse db), none, tget v.b.mat.sets r.mode, 0⟩ ∧ j.fits
      = true ∧ (u.cmds.filter fun e => decide (e.2.core = coreOf v.bid) && decide (e.2.op ≠ .coll)).length < 48)
    ∧ (∃ (s u : State) (v : View) (rest : List AgendaItem) (x : TileCode) (id : Nat) (c : Cmd), s.tick.agenda = .issue (.slot
      v.bid v.wid v.k) :: rest ∧ u =
      { s.tick with agenda := rest, cur := .slot v.bid v.wid v.k, ir := ⟨0, 8, v.sl.pc, none⟩ } ∧ u.Serves v ∧ v.sl.expand
      = none ∧ u.tiles = [x] ∧ x.tag = v.b.tag ∧ 16 ≤ x.len ∧ x.lo % 32 = 0 ∧ v.sl.pc.toNat = x.lo + 8 ∧ tget u.cmds id =
      some c ∧ c.who = .slot v.bid v.wid v.k ∧ c.pc.toNat = x.lo)
    ∧ (∃ (s u : State) (v : View) (rest : List AgendaItem) (x : TileCode), s.tick.agenda = .issue (.slot v.bid v.wid v.k) ::
      rest ∧ u = { s.tick with agenda := rest, cur := .slot v.bid v.wid v.k, ir := ⟨0, 8, v.sl.pc, none⟩ } ∧ u.Serves v ∧
      v.sl.expand = none ∧ u.tiles = [x] ∧ x.tag = v.b.tag ∧ 16 ≤ x.len ∧ x.lo % 32 = 0 ∧ v.sl.pc.toNat = x.lo + 8 ∧ (∀ e,
      e ∈ u.cmds → e.2.who ≠ .slot v.bid v.wid v.k) ∧ (∀ r n q, x.work ≠ .mapOut r n q) ∧ x.lo + x.len < 2 ^ 57) :=
  ⟨⟨s6, 5, 0, 0x2008C, 0x2008C, D + 0x8C, jc j6 3 8, bk s6 0, j6, vw s6, ⟨⟨d, blkd, d, d, d, d, d, d, d, d, bare⟩, d, d, d,
    d⟩, d, d, slotView, elemAt⟩,
   ⟨t1, u1, vw u1, [], code, prod, 0x20200, le 8 0x20400, le 8 0x20480, le 8 0x20500, cD, cA, cB, _, rfl, rfl, serves, d, d,
    d, d, d, d, d, d, direct bare, d, readsAs, readsAs, readsAs, readsAs, readsAs, readsAs, d, d, d, rfl, d, d⟩,
   ⟨t2, u2, vw u2, [], code, 5, opc, rfl, rfl, serves, d, d, d, d, d, d, d, d, d⟩,
   ⟨t3, u3, vw u3, [], code, rfl, rfl, serves, d, d, d, d, d, d, listAll, (fun r n q h => nomatch h), d⟩⟩

theorem premises_Translations :
    (∃ (nv ix : Nat) (r next : List Byte) (x : LRec) (i : Instr) (w : InstrWord) (hi : List Nat), parseRec nv ix r next = some
      x ∧ x.it = .ins i w hi)
    ∧ (∃ (win : Nat) (busy : List (Nat × Nat × Nat)) (l : List LRec) (m : Tbl Nat) (h : Hull), placesOf win busy l = some m ∧ h
      ∈ hullsOf l ∧ (∃ x, x ∈ busy ∧ x.2.1 ≤ h.hi ∧ h.lo ≤ x.2.2) ∧ ∃ g q, g ∈ hullsOf l ∧ g.v ≠ h.v ∧ h.Meets g ∧ tget m
      g.v = some q)
    ∧ (∃ (pairs : List Nat) (m : Tbl Nat) (i : Instr), (∀ o, o ∈ vecOps i → placeOfVirt pairs m (o.virt [0, 0, 0, 0]) < 128) ∧ ∃
      o, o ∈ vecOps i ∧ ∀ q, q ∈ vecOps i → q.f = o.f → q = o)
    ∧ (∃ (env : RelocEnv) (base : Nat) (d x : List Byte), translateScalar env base d = some x)
    ∧ (∃ d : List Byte, leNat (d.take 1) = 3 ∧ leNat ((d.drop 12).take 4) = 0 ∧ leNat ((d.drop 4).take 4) % 32 = 0 ∧ d.length <
      32 + leNat ((d.drop 4).take 4) + 8 * leNat ((d.drop 8).take 4))
    ∧ (∃ (env : RelocEnv) (f : Bodies) (base : Nat) (o : Output), translateTile env f base = .ok o)
    ∧ (∃ (env : RelocEnv) (f : Bodies) (base : Nat) (o : Output), translateTile env f base = .error .absent ∧ translateLoop env
      f base = .ok o) :=
  ⟨⟨8, 0, rec0, [], lrec0, iAdd, BitVec.ofNat 128 wAdd, [0, 0, 0, 0], d, d⟩,
   ⟨16, [(9, 0, 3)], [lrec0], mP, ⟨4, false, 0, 0, true⟩, d, d, ⟨(9, 0, 3), d⟩, ⟨5, false, 0, 0, true⟩, _, d, d, ⟨d, d⟩,
    someGetD (x := 0) d⟩,
   ⟨[], mP, iAdd, listAll, (vecOps iAdd).headD ⟨.d, 0, .one, false⟩, d, listAll⟩,
   ⟨env0, 0x18040, body, at3, someGetD d⟩,
   ⟨body.take 60, d, d, d, d⟩,
   ⟨env1, ⟨tileB, [], body, [], 0⟩, 0x18040, _, madeOk⟩,
   ⟨env0, ⟨[], loopB, body, [], 16⟩, 0x18040, _, madeNone, madeOk⟩⟩

theorem premises_Turns :
    (∃ (s : State) (b n : Nat) (y : Block) (w : Wave), s.blk b = some y ∧ tget y.waves n = some w ∧ w.active = true ∧
      w.s0.status = .run ∧ w.s1.status = .run)
    ∧ (∃ (s u : State) (x : AgendaItem) (k : Nat), s.agenda = [] ∧ s.stopped = false ∧ s.turns[k]? = some x ∧ 0 < k ∧ u.queue =
      s.pick.1.queue ∧ x ∈ u.due)
    ∧ (∃ (s : State) (e : Nat × Core) (p : Nat), e ∈ s.cores ∧ p < 4 ∧ e.2.pend p ≠ [] ∧ s.activeIn e.1 p < 4) :=
  ⟨⟨runBoth, 0, 0, bk runBoth 0, (vwOf runBoth 0 0 0).w, blkd, d, d, d, d⟩,
   ⟨resting, resting.pick.1, _, 1, d, d, someGetD (x := .elapse 0) d, d, rfl, d⟩,
   ⟨waitS, (0, waitS.core 0), 1, d, d, d, d⟩⟩

end

end Sys2Proof.Tests
end

section
/-! SUPPORT. Laws of the firmware's units: READYMAP's flags, spares, the guard that every event of a unit shares, and what each step of
taking a unit out of use leaves of the state (R18, R165, R349 to R353, R358). -/

namespace Sys2Proof.Machine

/-! ### READYMAP's flags (R165) -/

theorem unitCount_le (c : UnitClass) : unitCount c ≤ 1024 := by cases c <;> decide

theorem getLsbD_or_bit (x : BitVec 1024) (n : Nat) {k : Nat} (hk : k < 1024) :
    (x ||| (1 : BitVec 1024) <<< n).getLsbD k = if k = n then true else x.getLsbD k := by
  rw [BitVec.getLsbD_or, BitVec.getLsbD_shiftLeft, show (1 : BitVec 1024) = 1#1024 from rfl, BitVec.getLsbD_one]
  by_cases h : k = n
  · simp [h ▸ hk, h]
  · by_cases h2 : k < n
    · simp [h, h2]
    · simp [h, h2, show k - n ≠ 0 by omega]

theorem getLsbD_and_not_bit (x : BitVec 1024) (n : Nat) {k : Nat} (hk : k < 1024) :
    (x &&& ~~~((1 : BitVec 1024) <<< n)).getLsbD k = if k = n then false else x.getLsbD k := by
  have h := getLsbD_or_bit 0 n hk
  rw [BitVec.getLsbD_or, show (0 : BitVec 1024) = 0#1024 from rfl, BitVec.getLsbD_zero, Bool.false_or] at h
  rw [BitVec.getLsbD_and, BitVec.getLsbD_not, h, decide_eq_true hk]
  by_cases h2 : k = n <;> simp [h2]

/-- Writing a class's flags sets one flag when the new flags differ from the old in that one alone. -/
theorem FlagSet.cset {t : Tbl (BitVec 1024)} {c : UnitClass} {n : Nat} {b : Bool} {x : BitVec 1024}
    (h : ∀ k, k < 1024 → x.getLsbD k = if k = n then b else (cget 0 t (unitCode c)).getLsbD k) :
    FlagSet t (cset 0 t (unitCode c) x) c n b := by
  intro q k hk
  by_cases hq : q = unitCode c
  · subst hq
    rw [cget_cset_same, h k hk]
    by_cases hn : k = n
    · rw [if_pos hn, if_pos ⟨rfl, hn⟩]
    · rw [if_neg hn, if_neg fun e => hn e.2]
  · rw [cget_cset_other hq, if_neg fun e => hq e.1]

theorem State.setReady_spec (s : State) (c : UnitClass) (n : Nat) (b : Bool) :
    ∃ r, s.setReady c n b = { s with ready := r } ∧ FlagSet s.ready r c n b := by
  refine ⟨_, rfl, ?_⟩
  cases b with
  | true => exact .cset fun _ => getLsbD_or_bit _ n
  | false => exact .cset fun _ => getLsbD_and_not_bit _ n

theorem State.setFallow_spec (s : State) (c : UnitClass) (n : Nat) :
    ∃ r f, s.setFallow c n = { s with ready := r, fallow := f, replaceFlag := true }
      ∧ FlagSet s.ready r c n false ∧ FlagSet s.fallow f c n true := by
  obtain ⟨r, hr, hready⟩ := s.setReady_spec c n false
  refine ⟨r, _, ?_, hready, .cset fun _ => getLsbD_or_bit _ n⟩
  unfold State.setFallow
  rw [hr]

theorem FlagSet.self {t u : Tbl (BitVec 1024)} {c : UnitClass} {n : Nat} {b : Bool} (h : FlagSet t u c n b) (hn : n < 1024) :
    (cget 0 u (unitCode c)).getLsbD n = b := (h _ n hn).trans (if_pos ⟨rfl, rfl⟩)

theorem FlagSet.other {t u : Tbl (BitVec 1024)} {c d : UnitClass} {n k : Nat} {b : Bool} (h : FlagSet t u c n b)
    (hd : unitCode d ≠ unitCode c) (hk : k < 1024) : (cget 0 u (unitCode d)).getLsbD k = (cget 0 t (unitCode d)).getLsbD k :=
  (h _ k hk).trans (if_neg fun e => hd e.1)

/-! ### The guard of the firmware's events -/

theorem State.Unit.lt {s : State} {c : UnitClass} {n : Nat} (h : s.Unit c n) : n < 1024 := Nat.lt_of_lt_of_le h.inRange (unitCount_le c)

theorem State.unit_iff (s : State) (c : UnitClass) (n : Nat) :
    s.Unit c n ↔ ¬ ((!s.fw.running) = true ∨ unitCount c ≤ n ∨ s.unitFallow c n = true) := by
  constructor
  · rintro ⟨hr, hn, hf⟩
    simp [hr, hf, hn]
  · intro h
    simp only [not_or, Bool.not_eq_true, Bool.not_eq_false', Nat.not_le] at h
    obtain ⟨hr, hn, hf⟩ := h
    exact ⟨hr, hn, hf⟩

/-- An event about a number without its unit changes nothing. -/
theorem exec_without_unit {s : State} {c : UnitClass} {n : Nat} {i : Instr} (h : ¬ s.Unit c n)
    (hi : i = .selfTestPass c n ∨ i = .selfTestFail c n ∨ i = .unitFallow c n) : exec i s = .next s := by
  have hg := Classical.not_not.1 (mt (s.unit_iff c n).2 h)
  rcases hi with rfl | rfl | rfl
  · exact if_pos (hg.imp_right (Or.imp_right .inl))
  · exact if_pos hg
  · exact if_pos hg

theorem exec_selfTestPass_port (s : State) (n : Nat) : exec (.selfTestPass .port n) s = .next s :=
  if_pos (.inr (.inr (.inr rfl)))

theorem exec_selfTestPass {s : State} {c : UnitClass} {n : Nat} (h : s.Unit c n) (hc : c ≠ .port) :
    exec (.selfTestPass c n) s = .next (s.readyUp c n) := by
  have hg := (s.unit_iff c n).1 h
  refine if_neg fun e => ?_
  rcases e with hr | hn | hf | hp
  · exact hg (.inl hr)
  · exact hg (.inr (.inl hn))
  · exact hg (.inr (.inr hf))
  · exact hc hp

theorem exec_selfTestFail_spare {s : State} {c : UnitClass} {n : Nat} (h : s.Unit c n) (hs : 0 < s.sparesFor c n) :
    exec (.selfTestFail c n) s = .next ((s.takeSpare c n).setReady c n false) :=
  (if_neg ((s.unit_iff c n).1 h)).trans (if_pos hs)

theorem exec_selfTestFail_no_spare {s : State} {c : UnitClass} {n : Nat} (h : s.Unit c n) (hs : s.sparesFor c n = 0) :
    exec (.selfTestFail c n) s = .next ((s.quitUnit c n).setFallow c n) :=
  (if_neg ((s.unit_iff c n).1 h)).trans (if_neg (by omega))

theorem exec_unitFallow {s : State} {c : UnitClass} {n : Nat} (h : s.Unit c n) (hc : c ≠ .core) :
    exec (.unitFallow c n) s = .next ((s.quitUnit c n).replaceUnit c n) := by
  refine (if_neg ((s.unit_iff c n).1 h)).trans ?_
  cases c with
  | core => exact absurd rfl hc
  | _ => rfl

/-- The first UNIT_FALLOW of a core: it is bound to no more, and its blocks are pre-empted (R350). -/
theorem exec_unitFallow_core_first {s : State} {n : Nat} (h : s.Unit .core n) (hq : n ∉ s.quits) :
    exec (.unitFallow .core n) s
      = exec (.preemptRequest n) { s with quits := n :: s.quits, replaceFlag := s.replaceFlag || decide (s.sparesFor .core n = 0) } :=
  (if_neg ((s.unit_iff _ n).1 h)).trans (if_neg fun e => hq (List.contains_iff_mem.1 e))

theorem exec_unitFallow_core_busy {s : State} {n b : Nat} {y : Block} (h : s.Unit .core n) (hq : n ∈ s.quits) (hb : s.blk b = some y)
    (hn : coreOf b = n) : exec (.unitFallow .core n) s = .next s := by
  refine (if_neg ((s.unit_iff _ n).1 h)).trans ((if_pos (List.contains_iff_mem.2 hq)).trans ?_)
  rw [if_pos (List.any_eq_true.2 ⟨(b, y), mem_of_tget hb, decide_eq_true hn⟩)]

/-- A core is no more one that is still to be replaced. -/
def State.unquit (s : State) (n : Nat) : State := { s with quits := s.quits.filter fun i => decide (i ≠ n) }

theorem State.not_mem_unquit (s : State) (n : Nat) : n ∉ (s.unquit n).quits := fun h => of_decide_eq_true (List.mem_filter.1 h).2 rfl

theorem exec_unitFallow_core_empty {s : State} {n : Nat} (h : s.Unit .core n) (hq : n ∈ s.quits) (hb : s.blocks = []) :
    exec (.unitFallow .core n) s = .next ((s.unquit n).replaceUnit .core n) := by
  have hfree : ¬ (s.blocks.any fun e => decide (coreOf e.1 = n)) = true := by rw [hb]; exact Bool.false_ne_true
  exact (if_neg ((s.unit_iff _ n).1 h)).trans ((if_pos (List.contains_iff_mem.2 hq)).trans (congrArg _ (if_neg hfree)))

/-! ### What waited for a unit -/

theorem State.serveHeld_of_none {s : State} (h : s.heldReqs = []) : s.serveHeld = s := by
  unfold State.serveHeld
  rw [h]
  exact congrArg (fun l => { s with heldReqs := l }) h.symm

theorem State.serveHost_of_none {s : State} (h : s.hostHeld = []) : s.serveHost = s := by
  unfold State.serveHost
  rw [h]
  exact congrArg (fun l => { s with hostHeld := l }) h.symm

theorem State.readyUp_of_none {s : State} (h1 : s.heldReqs = []) (h2 : s.hostHeld = []) (c : UnitClass) (n : Nat) :
    s.readyUp c n = s.setReady c n true := by
  have hs : (s.setReady c n true).serveHeld = s.setReady c n true := State.serveHeld_of_none h1
  rw [State.readyUp, hs]
  exact State.serveHost_of_none h2

/-! ### Spares (R18, R350, R353) -/

theorem sum_useSpare {l : List Nat} {i : Nat} (h : 0 < (l[i]?).getD 0) : ((useSpare l i)[i]?).getD 0 + 1 = (l[i]?).getD 0 := by
  unfold useSpare
  cases hi : l[i]? with
  | none => rw [hi] at h; exact absurd h (Nat.lt_irrefl 0)
  | some x =>
    have hx : ((l.zipIdx.map fun e => if e.2 = i then e.1 - 1 else e.1)[i]?) = some (x - 1) := by
      rw [List.getElem?_map, List.getElem?_zipIdx, hi, Option.map_some, Option.map_some, if_pos (Nat.zero_add i)]
    rw [hi, Option.getD_some] at h
    rw [hx, Option.getD_some, Option.getD_some]
    omega

/-- A unit that takes a number is one spare less for its stook (log 32). -/
theorem State.sparesFor_takeSpare {s : State} {c : UnitClass} {n : Nat} (h : 0 < s.sparesFor c n) :
    (s.takeSpare c n).sparesFor c n + 1 = s.sparesFor c n := by
  cases c with
  | core => exact sum_useSpare h
  | slice => exact sum_useSpare h
  | _ => exact absurd h (Nat.lt_irrefl 0)

theorem State.replaceUnit_spare {s : State} {c : UnitClass} {n : Nat} (h : 0 < s.sparesFor c n) : s.replaceUnit c n = s.takeSpare c n :=
  if_pos h

theorem State.replaceUnit_no_spare {s : State} {c : UnitClass} {n : Nat} (h : s.sparesFor c n = 0) : s.replaceUnit c n = s.setFallow c n :=
  if_neg (by omega)

theorem Core.without_wq {k : Core} (h : k.wq = []) : { k with wq := [] } = k := congrArg (fun l => { k with wq := l }) h.symm

theorem State.landAll_drained {s : State} {c : Nat} (h : (s.core c).wq = []) : s.landAll c = s ∨ s.landAll c = s.setCore c (s.core c) := by
  unfold State.landAll
  split
  · exact .inr (congrArg (s.setCore c) (by dsimp only; rw [h]; exact Core.without_wq h))
  · exact .inl (by rw [h]; rfl)

theorem State.writeBackAll_drained {s : State} {c : Nat} (h : (s.core c).wq = []) : s.writeBackAll c = s.setCore c (s.core c) := by
  unfold State.writeBackAll
  rw [h]
  exact congrArg (s.setCore c) (Core.without_wq h)

theorem State.setCore_setCore (s : State) (c : Nat) (x y : Core) : (s.setCore c x).setCore c y = s.setCore c y :=
  congrArg (fun l => { s with cores := l }) (tset_tset s.cores c x y)

/-- With no store of the core on its way home, nothing but the core itself changes. -/
theorem State.drained_modCore {s : State} {c : Nat} (h : (s.core c).wq = []) (f : Core → Core) :
    ((s.landAll c).writeBackAll c).modCore c f = s.setCore c (f (s.core c)) := by
  have back : ∀ t : State, (t.core c).wq = [] → (t.writeBackAll c).modCore c f = t.setCore c (f (t.core c)) := by
    intro t ht
    rw [State.writeBackAll_drained ht, State.modCore, State.core_setCore_same, State.setCore_setCore]
  rcases State.landAll_drained h with e | e
  · rw [e, back s h]
  · rw [e, back _ ((congrArg Core.wq (State.core_setCore_same ..)).trans h), State.core_setCore_same, State.setCore_setCore]

/-- A spare core takes a number whose stores are all home (R350, R353). -/
theorem State.takeSpare_core {s : State} {n : Nat} (h : (s.core n).wq = []) : s.takeSpare .core n =
    { s.setCore n (s.core n).spare with
      replaceFlag := s.replaceFlag || decide (s.sparesFor .core n ≤ 1),
      errs := s.errs.filter fun e => !(decide (e.unit = .core) && decide (e.n = n)),
      spareCores := useSpare s.spareCores (n / 128) } := by
  unfold State.takeSpare
  dsimp only
  rw [State.drained_modCore]
  · rfl
  · exact h

/-- What holds of a core whose number a spare took, and of the rest (R350, log 70). -/
theorem State.takeSpare_core_spec {s t : State} {n : Nat} (h : (s.core n).wq = []) (ht : s.takeSpare .core n = t) :
    t = { s with cores := t.cores, replaceFlag := t.replaceFlag, errs := t.errs, spareCores := t.spareCores }
      ∧ t.core n = (s.core n).spare ∧ (∀ c, c ≠ n → t.core c = s.core c) ∧ (s.sparesFor .core n ≤ 1 → t.replaceFlag = true)
      ∧ ∀ e, e ∈ t.errs ↔ e ∈ s.errs ∧ ¬ (e.unit = .core ∧ e.n = n) := by
  rw [State.takeSpare_core h] at ht
  subst ht
  refine ⟨rfl, State.core_setCore_same s n _, fun c hc => State.core_setCore_other (s := s) hc _,
    fun hs => Bool.or_eq_true_iff.2 (.inr (decide_eq_true hs)), fun e => List.mem_filter.trans (and_congr_right fun _ => ?_)⟩
  rw [← Bool.decide_and, Bool.not_eq_true', decide_eq_false_iff_not]

end Sys2Proof.Machine
end

section
/-! SUPPORT. What taking a unit out of use leaves: a core without blocks, an emptied slice, a lost vault with its poisoned leaves, the lanes
of a port; when a threshold is reached; and the state that the boot ROM starts from (R318, R319, R330, R349 to R353, R356, R358). -/

namespace Sys2Proof.Machine

/-! ### Cores (R350) -/

theorem execPreemptRequest_no_blocks {s : State} (h : s.blocks = []) (n : Nat) : execPreemptRequest n s = .next s := by
  unfold execPreemptRequest
  split
  · rfl
  · rw [h]
    exact congrArg (fun l => Host.Outcome.next { s with blocks := l }) h.symm

theorem State.quitUnit_core_no_blocks {s : State} (h : s.blocks = []) (n : Nat) : s.quitUnit .core n = s := by
  unfold State.quitUnit
  rw [execPreemptRequest_no_blocks h]

/-! ### Slices (R351) -/

theorem State.lineOut_spec (s : State) (n : Nat) :
    ∃ d l v, s.lineOut n = { s with dram := d, lines := l, vaultBad := v } ∧ ∀ k x, tget l k = some x → tget s.lines k = some x ∧ n ≠ k := by
  unfold State.lineOut
  split
  · next h => exact ⟨s.dram, s.lines, s.vaultBad, rfl, fun k x hx => ⟨hx, fun e => by rw [e, hx] at h; cases h⟩⟩
  · refine ⟨_, tdel s.lines n, _, rfl, fun k x hx => ?_⟩
    rw [tget_tdel] at hx
    split at hx
    · cases hx
    · next hk => exact ⟨hx, hk⟩

/-- The lines of a list are written back: only vaults and lines change, and none of the listed lines is left. -/
theorem State.linesOut_spec (out : List (Nat × SLine)) (s : State) :
    ∃ d l v, out.foldl (fun (s : State) e => s.lineOut e.1) s = { s with dram := d, lines := l, vaultBad := v }
      ∧ ∀ k x, tget l k = some x → tget s.lines k = some x ∧ ∀ e, e ∈ out → e.1 ≠ k := by
  induction out generalizing s with
  | nil => exact ⟨s.dram, s.lines, s.vaultBad, rfl, fun k x hx => ⟨hx, fun e he => nomatch he⟩⟩
  | cons a out ih =>
    obtain ⟨d, l, v, ha, hl⟩ := s.lineOut_spec a.1
    obtain ⟨d', l', v', hb, hl'⟩ := ih (s.lineOut a.1)
    refine ⟨d', l', v', hb.trans (by rw [ha]), fun k x hx => ?_⟩
    obtain ⟨hs, hout⟩ := hl' k x hx
    rw [ha] at hs
    obtain ⟨hs, hk⟩ := hl k x hs
    exact ⟨hs, List.forall_mem_cons.2 ⟨hk, hout⟩⟩

/-- An emptied slice, where no block is bound: what changes is vaults, lines and the slice's translations, and no line at home in it is
left. -/
theorem State.emptySlice_spec {s u : State} {n : Nat} (h : s.blocks = []) (hu : s.quitUnit .slice n = u) :
    u = { s with dram := u.dram, lines := u.lines, vaultBad := u.vaultBad, xlat := u.xlat } ∧ tget u.xlat n = none
      ∧ (∀ k x, tget u.lines k = some x → homedIn n (256 * k) = false) ∧ (s.lines = [] → ∀ a, u.dramByte a = s.dramByte a) := by
  have hopen : s.openVersions n = s := by unfold State.openVersions; rw [h]; rfl
  obtain ⟨d, l, v, he, hl⟩ := s.linesOut_spec (s.lines.filter fun e => homedIn n (256 * e.1))
  have hu : u = { s with dram := d, lines := l, vaultBad := v, xlat := tdel s.xlat n } := by
    unfold State.quitUnit State.emptySlice at hu
    dsimp only at hu
    rw [hopen, he] at hu
    exact hu.symm
  subst hu
  refine ⟨rfl, (tget_tdel ..).trans (if_pos rfl), fun k x hx => ?_, fun hn => ?_⟩
  · obtain ⟨hs, hout⟩ := hl k x hx
    exact Bool.eq_false_iff.2 fun hk => hout (k, x) (List.mem_filter.2 ⟨mem_of_tget hs, hk⟩) rfl
  · rw [hn] at he
    exact State.dramByte_of_eq (congrArg State.lines he).symm (congrArg State.dram he).symm rfl

/-! ### Vaults (R319, R352) -/

/-- A fold whose every step keeps the state keeps it. -/
theorem foldl_keeps {β : Type} {f : State → β → State} {s : State} {l : List β} (h : ∀ b, b ∈ l → f s b = s) : l.foldl f s = s := by
  induction l with
  | nil => rfl
  | cons b l ih => rw [List.foldl_cons, h b List.mem_cons_self, ih fun c hc => h c (List.mem_cons_of_mem b hc)]

/-- With no live context but the firmware's, no table is walked: a lost vault only empties the translation caches. -/
theorem State.loseVault_no_context {s : State} (h : ∀ e, e ∈ s.ctxs → e.1 = 0 ∨ e.2.state ≠ .live) (v : Nat) :
    s.quitUnit .vault v = { s with xlat := [], cores := tmapv s.cores fun k => { k with tlb := [] } } := by
  have hf : (s.ctxs.foldl (fun (s : State) e =>
      if e.1 = 0 ∨ e.2.state ≠ .live then s else s.poisonPages v 4 e.2.rcd.ptroot) s) = s :=
    foldl_keeps fun e he => if_pos (h e he)
  unfold State.quitUnit State.loseVault
  dsimp only
  rw [hf]

/-- A change of every core by a function that keeps a core at reset is that change of each. -/
theorem State.core_tmapv (s : State) {f : Core → Core} (hf : f Core.reset = Core.reset) (c : Nat) :
    ({ s with cores := tmapv s.cores f } : State).core c = f (s.core c) := by
  unfold State.core
  rw [tget_tmapv]
  cases tget s.cores c with
  | none => exact hf.symm
  | some k => rfl

theorem leNat_concat (l : List Byte) (b : Byte) : leNat (l ++ [b]) = leNat l + 256 ^ l.length * b.toNat := by
  induction l with
  | nil =>
    show b.toNat + 256 * 0 = 0 + 1 * b.toNat
    omega
  | cons a l ih => rw [List.cons_append, leNat, leNat, ih, List.length_cons, Nat.pow_succ', Nat.mul_add, Nat.add_assoc, Nat.mul_assoc]

theorem numberAt_succ (m : Nat → Byte) (lo n : Nat) : numberAt m lo (n + 1) = numberAt m lo n + 256 ^ n * (m (lo + n)).toNat := by
  unfold numberAt
  rw [List.range_succ, List.map_append, List.map_singleton, leNat_concat, List.length_map, List.length_range]

theorem numberAt_lt (m : Nat → Byte) (lo n : Nat) : numberAt m lo n < 256 ^ n := by
  induction n with
  | zero => exact Nat.one_pos
  | succ n ih =>
    rw [numberAt_succ, Nat.pow_succ]
    have := Nat.mul_le_mul_left (256 ^ n) (Nat.le_of_lt_succ (m (lo + n)).isLt)
    omega

theorem numberAt_congr {m m' : Nat → Byte} {lo n : Nat} (h : ∀ i, i < n → m (lo + i) = m' (lo + i)) : numberAt m lo n = numberAt m' lo n :=
  congrArg leNat (List.map_congr_left fun i hi => h i (List.mem_range.1 hi))

/-- An entry of a page table is the number in its eight bytes (R318). -/
theorem State.ptRead_toNat {s : State} {pa cell : Nat} {e : Word64} (hc : cellOf pa = some cell) (h : s.ptRead pa = .ok e) :
    e.toNat = numberAt s.dramByte cell 8 := by
  unfold State.ptRead at h
  rw [hc] at h
  dsimp only at h
  split at h
  · cases h
  · split at h
    · cases h
    · have hlt : numberAt s.dramByte cell 8 < 2 ^ 64 := Nat.lt_of_lt_of_eq (numberAt_lt s.dramByte cell 8) (by decide)
      rw [← Except.ok.inj h]
      exact (BitVec.toNat_ofNat _ 64).trans (Nat.mod_eq_of_lt hlt)

theorem toNat_or_top (x : BitVec 8) : (x ||| 0x80#8).toNat = x.toNat % 128 + 128 := by revert x; decide

/-- The top byte of an entry with POISON set. -/
theorem poison_top_toNat (e : Word64) : ((e ||| 0x8000000000000000).extractLsb' 56 8).toNat = e.toNat / 2 ^ 56 % 128 + 128 := by
  have h : (e ||| 0x8000000000000000).extractLsb' 56 8 = e.extractLsb' 56 8 ||| 0x80#8 := by
    rw [BitVec.extractLsb'_or]; rfl
  rw [h, toNat_or_top, BitVec.extractLsb'_toNat, Nat.shiftRight_eq_div_pow]
  omega

theorem bitsOf_eq (e : Word64) (hi lo : Nat) : bitsOf e hi lo = (e.extractLsb' lo (hi - lo + 1)).toNat := by
  rw [BitVec.extractLsb'_toNat, Nat.shiftRight_eq_div_pow]; rfl

/-- A leaf that maps a page of the vault gets its top byte written. -/
theorem State.poisonLeaf_eq {s : State} {v lvl pa cell c : Nat} {e : Word64} (hcell : cellOf pa = some cell) (he : s.ptRead pa = .ok e)
    (hv : e.getLsbD 0 = true) (hl : e.getLsbD 1 = true) (hok : leafOk e lvl = true) (hty : e.extractLsb' 10 2 = 0)
    (hpin : 2 ^ 44 ≤ (e.extractLsb' 12 32).toNat * 65536) (hc : cellOf ((e.extractLsb' 12 32).toNat * 65536) = some c) (hvault : vaultOf c = v) :
    s.poisonLeaf v lvl pa = s.dramWrite (cell + 7) [(e ||| 0x8000000000000000).extractLsb' 56 8] := by
  have hpage : bitsOf e 43 12 = (e.extractLsb' 12 32).toNat := bitsOf_eq e 43 12
  have htype : bitsOf e 11 10 = 0 := (bitsOf_eq e 11 10).trans (congrArg BitVec.toNat hty)
  have hview : isPinned ((e.extractLsb' 12 32).toNat * 65536) = true := decide_eq_true hpin
  unfold State.poisonLeaf
  simp only [he, hcell, hv, hl, hok, htype, hpage, hview, hc, Option.map_some, hvault, decide_true, Bool.and_self, if_true]

/-- POISON is bit 63 of the leaf; no other byte changes (R319). -/
theorem State.poisonLeaf_bytes {s : State} {v lvl pa cell c : Nat} {e : Word64} (hcell : cellOf pa = some cell) (he : s.ptRead pa = .ok e)
    (hv : e.getLsbD 0 = true) (hl : e.getLsbD 1 = true) (hok : leafOk e lvl = true) (hty : e.extractLsb' 10 2 = 0)
    (hpin : 2 ^ 44 ≤ (e.extractLsb' 12 32).toNat * 65536) (hc : cellOf ((e.extractLsb' 12 32).toNat * 65536) = some c) (hvault : vaultOf c = v)
    (happ : ∀ i, i < 8 → s.onAppend (cell + i) = false) :
    numberAt (s.poisonLeaf v lvl pa).dramByte cell 8 = e.toNat % 2 ^ 63 + 2 ^ 63
      ∧ ∀ a, (a < cell ∨ cell + 8 ≤ a) → (s.poisonLeaf v lvl pa).dramByte a = s.dramByte a := by
  have hbyte (a : Nat) : (s.poisonLeaf v lvl pa).dramByte a =
      if a = cell + 7 then (e ||| 0x8000000000000000).extractLsb' 56 8 else s.dramByte a := by
    rw [State.poisonLeaf_eq hcell he hv hl hok hty hpin hc hvault, State.dramByte_dramWrite, List.length_singleton]
    by_cases ha : a = cell + 7
    · subst ha
      rw [if_pos rfl, if_pos ⟨by omega, happ 7 (by omega)⟩, Nat.sub_self]
      rfl
    · rw [if_neg ha, if_neg (by omega)]
  have hlow : numberAt (s.poisonLeaf v lvl pa).dramByte cell 7 = numberAt s.dramByte cell 7 :=
    numberAt_congr fun i hi => by rw [hbyte, if_neg (by omega)]
  refine ⟨?_, fun a ha => by rw [hbyte, if_neg (by omega)]⟩
  have hlt := numberAt_lt s.dramByte cell 7
  have he8 := (State.ptRead_toNat hcell he).trans (numberAt_succ s.dramByte cell 7)
  rw [numberAt_succ, hlow, hbyte, if_pos rfl, poison_top_toNat]
  omega

/-! ### Lanes and ports (R330, R352) -/

@[simp] theorem State.port_setPort_same (s : State) (n : Nat) (p : Port) : (s.setPort n p).port n = p := by
  simp [State.port, State.setPort]
theorem State.port_setPort_other {s : State} {m n : Nat} (h : m ≠ n) (p : Port) : (s.setPort n p).port m = s.port m := by
  simp [State.port, State.setPort, tget_tset_other h]

/-- A port has no lane left when a lane dies and the others were dead. -/
theorem Port.lanes_isEmpty_iff (p : Port) (d : Nat) :
    ({ p with dead := d :: p.dead } : Port).lanes.isEmpty = true ↔ ∀ i, i < 4 → i ≠ d → i ∈ p.dead := by
  simp only [Port.lanes, List.isEmpty_iff, List.filter_eq_nil_iff, List.mem_range, Bool.not_eq_true, Bool.not_eq_false', List.contains_cons,
    Bool.or_eq_true, beq_iff_eq, List.contains_iff_mem]
  exact forall_congr' fun i => imp_congr_right fun _ => Decidable.or_iff_not_imp_left

theorem State.loseLane_last {s : State} {n : Nat} (h : ∀ i, i < 4 → i ≠ n % 4 → i ∈ (s.port (n / 4)).dead) :
    s.quitUnit .lane n = (s.setPort (n / 4) { ({ s.port (n / 4) with dead := n % 4 :: (s.port (n / 4)).dead } : Port).lost with
      state := .fallow }).setFallow .port (n / 4) :=
  if_pos ((Port.lanes_isEmpty_iff _ _).2 h)

theorem State.loseLane_up {s : State} {n : Nat} (h : ∃ i, i < 4 ∧ i ≠ n % 4 ∧ i ∉ (s.port (n / 4)).dead)
    (hup : (s.port (n / 4)).isUp = true) :
    s.quitUnit .lane n = s.movePort (n / 4) { s.port (n / 4) with
      dead := n % 4 :: (s.port (n / 4)).dead, state := .training, trainStart := s.clock } := by
  obtain ⟨i, hi, hn, hd⟩ := h
  exact (if_neg fun he => hd ((Port.lanes_isEmpty_iff _ _).1 he i hi hn)).trans (if_pos hup)

/-! ### Thresholds (R349) -/

theorem errCount_eq (s : State) (c : UnitClass) (n : Nat) (k : ErrKind) (h : Nat) : s.errCount c n k h =
    (s.errs.filter fun e => decide (e.unit = c ∧ e.n = n ∧ e.kind = k ∧ s.clock < e.time + h * 9000000000000)).length := by
  unfold State.errCount clocksHour
  simp only [Bool.decide_and, Bool.and_assoc]

theorem errorLimit_pos {c : UnitClass} {k : ErrKind} {m h : Nat} (hl : errorLimit c k = some (m, h)) : 0 < m := by
  unfold errorLimit at hl
  split at hl <;> cases hl <;> decide

theorem State.crossed_of_limit {s : State} {c : UnitClass} {n m h : Nat} {k : ErrKind} (hl : errorLimit c k = some (m, h))
    (hm : m ≤ s.errCount c n k h) : s.crossed c n = true := by
  unfold errorLimit at hl
  split at hl <;> cases hl <;> simp only [State.crossed, Bool.or_eq_true, decide_eq_true_eq] <;> omega

theorem State.mem_fallowDue {s : State} {c : UnitClass} {n m h : Nat} {k : ErrKind} (hl : errorLimit c k = some (m, h))
    (hm : m ≤ s.errCount c n k h) (hf : s.unitFallow c n = false) (hq : n ∉ s.quits) : (c, n) ∈ s.fallowDue := by
  have hc := State.crossed_of_limit hl hm
  obtain ⟨e, he⟩ := List.exists_mem_of_length_pos (Nat.lt_of_lt_of_le (errorLimit_pos hl) hm)
  simp only [List.mem_filter, Bool.and_eq_true, decide_eq_true_eq] at he
  obtain ⟨hmem, ⟨⟨rfl, rfl⟩, -⟩, -⟩ := he
  refine List.mem_append_left _ (List.mem_filter.2 ⟨?_, ?_⟩)
  · exact List.mem_eraseDups.2 (List.mem_map.2 ⟨e, hmem, rfl⟩)
  · simp [hf, hq, hc]

/-! ### Reset (R263, R356, R358) -/

/-- A byte of an empty memory (log 1). -/
theorem State.dramByte_of_empty {s : State} (hd : s.dram = []) (hl : s.lines = []) (a : Nat) : s.dramByte a = 0 := by
  unfold State.dramByte State.line State.vaultByte
  rw [hd, hl]
  split <;> rfl

theorem State.unitReady_of_none {s : State} (h : s.ready = []) (c : UnitClass) (n : Nat) : s.unitReady c n = false := by
  unfold State.unitReady
  rw [h]
  exact BitVec.getLsbD_zero

theorem State.unitFallow_of_none {s : State} (h : s.fallow = []) (c : UnitClass) (n : Nat) : s.unitFallow c n = false := by
  unfold State.unitFallow
  rw [h]
  exact BitVec.getLsbD_zero

theorem State.boot_running (s : State) :
    s.boot.fw.running = true ↔ Config.imageAccepted s.fw.image = true ∧ s.fw.minVer ≤ Config.imageVersion s.fw.image := by
  simp only [State.boot, Bool.and_eq_true, decide_eq_true_eq]

theorem State.boot_routes {s : State} (h : s.boot.fw.running = true) : s.boot.routes = routeTable s.nodeId := if_pos h

/-- RESET and PERST are one bring-up (R360). -/
theorem exec_bringUp {s : State} {i : Instr} (h : i = .reset ∨ i = .perst) : exec i s = .next s.coldStart.boot := by
  rcases h with rfl | rfl <;> rfl

end Sys2Proof.Machine
end

section
/-! The state after reset (O60), and bring-up with the units taken out of use (O50), clause by clause. -/

namespace Sys2Proof.Machine

theorem State.reset_tablesRise : State.reset.TablesRise :=
  ⟨rfl, fun _ h => (nomatch h), fun _ h => (nomatch h), rfl, fun _ h => (nomatch h)⟩

/-- The only listed context is the firmware's (R263). -/
theorem State.reset_ctx (n : Nat) : State.reset.ctx n =
    if n = 0 then { Ctx.free with state := .live, rcd := CtxRec.firmware } else Ctx.free := by
  by_cases h : 0 = n
  · subst h; rfl
  · rw [if_neg (Ne.symm h)]
    exact congrArg (fun o : Option Ctx => o.getD Ctx.free) (if_neg h)

theorem Core.reset_banks : ∀ i, i < 32 → modeField Core.reset.bankMode i = 1 := by decide

theorem Core.reset_ways (i : Nat) : modeField Core.reset.colWays i = 0 := by
  unfold modeField Core.reset
  simp

/-- Settles O60: nothing is listed in the reset state but the firmware's context, so every read gives its default. -/
theorem resetState : Obligations.ResetState := by
  unfold Obligations.ResetState
  refine ⟨State.reset_memWf, State.reset_tablesRise, fun c n => ⟨State.unitReady_of_none rfl c n, State.unitFallow_of_none rfl c n⟩,
    rfl, rfl, rfl, fun n => ?_, fun c i => ⟨Core.reset_banks i, fun _ => Core.reset_ways i⟩, fun c => ⟨rfl, rfl⟩, fun n => ⟨rfl, rfl⟩,
    rfl, rfl, rfl, rfl, State.dramByte_of_empty rfl rfl⟩
  rw [State.reset_ctx]
  split
  · next h => exact ⟨rfl, fun hn => absurd h hn⟩
  · exact ⟨rfl, fun _ => rfl⟩

/-! ### The clauses of O50 -/

theorem selfTestPass_sets_ready {s : State} {c : UnitClass} {n : Nat} (h : s.Unit c n) (hc : c ≠ .port) (hr : s.heldReqs = [])
    (hh : s.hostHeld = []) :
    ∃ t, exec (.selfTestPass c n) s = .next t ∧ t = { s with ready := t.ready } ∧ FlagSet s.ready t.ready c n true := by
  obtain ⟨r, he, hflag⟩ := s.setReady_spec c n true
  exact ⟨{ s with ready := r }, (exec_selfTestPass h hc).trans (congrArg _ ((State.readyUp_of_none hr hh c n).trans he)), rfl, hflag⟩

/-- A unit that leaves no work behind and that no spare replaces. -/
theorem exec_fallow_unreplaced {s : State} {c : UnitClass} {n : Nat} {i : Instr} (h : s.Unit c n) (hb : s.blocks = [])
    (hs : s.sparesFor c n = 0)
    (hi : i = .selfTestFail c n ∧ c = .core ∨ (c = .copyEngine ∨ c = .mgmt) ∧ (i = .selfTestFail c n ∨ i = .unitFallow c n)) :
    ∃ t, exec i s = .next t ∧ t = { s with ready := t.ready, fallow := t.fallow, replaceFlag := true }
      ∧ FlagSet s.ready t.ready c n false ∧ FlagSet s.fallow t.fallow c n true := by
  obtain ⟨r, f, he, hready, hfallow⟩ := s.setFallow_spec c n
  refine ⟨{ s with ready := r, fallow := f, replaceFlag := true }, he ▸ ?_, rfl, hready, hfallow⟩
  rcases hi with ⟨rfl, rfl⟩ | ⟨rfl | rfl, rfl | rfl⟩
  · rw [exec_selfTestFail_no_spare h hs, State.quitUnit_core_no_blocks hb]
  · exact exec_selfTestFail_no_spare h hs
  · exact (exec_unitFallow h nofun).trans (congrArg _ (State.replaceUnit_no_spare hs))
  · exact exec_selfTestFail_no_spare h hs
  · exact (exec_unitFallow h nofun).trans (congrArg _ (State.replaceUnit_no_spare hs))

/-- A core that is to be replaced and has no block any more, where its stook has no spare (R353). -/
theorem unitFallow_core_left {s : State} {n : Nat} (h : s.Unit .core n) (hq : n ∈ s.quits) (hb : s.blocks = [])
    (hs : s.sparesFor .core n = 0) :
    ∃ t, exec (.unitFallow .core n) s = .next t
      ∧ t = { s with quits := s.quits.filter fun i => decide (i ≠ n), ready := t.ready, fallow := t.fallow, replaceFlag := true }
      ∧ FlagSet s.ready t.ready .core n false ∧ FlagSet s.fallow t.fallow .core n true := by
  obtain ⟨r, f, he, hready, hfallow⟩ := (s.unquit n).setFallow_spec .core n
  have hleft : (s.unquit n).replaceUnit .core n = (s.unquit n).setFallow .core n := State.replaceUnit_no_spare hs
  exact ⟨_, (exec_unitFallow_core_empty h hq hb).trans (congrArg _ (hleft.trans he)), rfl, hready, hfallow⟩

/-- The same where a spare takes the number (R350, log 70). -/
theorem unitFallow_core_replaced {s : State} {n : Nat} (h : s.Unit .core n) (hq : n ∈ s.quits) (hb : s.blocks = [])
    (hs : 0 < s.sparesFor .core n) (hw : (s.core n).wq = []) :
    ∃ t, exec (.unitFallow .core n) s = .next t ∧ n ∉ t.quits ∧ t.sparesFor .core n + 1 = s.sparesFor .core n
      ∧ t.ready = s.ready ∧ t.fallow = s.fallow ∧ (s.sparesFor .core n = 1 → t.replaceFlag = true)
      ∧ (∀ e, e ∈ t.errs ↔ e ∈ s.errs ∧ ¬ (e.unit = .core ∧ e.n = n)) ∧ (∀ c, c ≠ n → t.core c = s.core c)
      ∧ (∀ p, (t.core n).reg p = 0) ∧ (t.core n).store = [] ∧ (t.core n).cache = [] ∧ (t.core n).bad = []
      ∧ (t.core n).bankMode = Core.reset.bankMode ∧ (t.core n).column = (s.core n).column ∧ (t.core n).colWays = (s.core n).colWays
      ∧ (t.core n).recs = (s.core n).recs ∧ ∀ a, t.dramByte a = s.dramByte a := by
  have heq : exec (.unitFallow .core n) s = .next ((s.unquit n).takeSpare .core n) :=
    (exec_unitFallow_core_empty h hq hb).trans (congrArg _ (State.replaceUnit_spare (s := s.unquit n) hs))
  have hused : ((s.unquit n).takeSpare .core n).sparesFor .core n + 1 = s.sparesFor .core n := State.sparesFor_takeSpare (s := s.unquit n) hs
  obtain ⟨ht, hcore, hother, hflag, herrs⟩ := State.takeSpare_core_spec (s := s.unquit n) hw rfl
  refine ⟨_, heq, fun hn => s.not_mem_unquit n (congrArg State.quits ht ▸ hn), hused, (congrArg State.ready ht :), (congrArg State.fallow ht :),
    fun h1 => hflag (Nat.le_of_eq h1), herrs, hother, ?_⟩
  rw [hcore]
  exact ⟨fun p => rfl, rfl, rfl, rfl, rfl, rfl, rfl, rfl,
    State.dramByte_of_eq (congrArg State.lines ht :) (congrArg State.dram ht :) (congrArg State.ctxs ht :)⟩

theorem selfTestFail_core_replaced {s : State} {n : Nat} (h : s.Unit .core n) (hs : 0 < s.sparesFor .core n) (hw : (s.core n).wq = []) :
    ∃ t, exec (.selfTestFail .core n) s = .next t ∧ t.sparesFor .core n + 1 = s.sparesFor .core n
      ∧ FlagSet s.ready t.ready .core n false ∧ t.fallow = s.fallow := by
  obtain ⟨ht, -⟩ := State.takeSpare_core_spec hw rfl
  have hready : (s.takeSpare .core n).ready = s.ready := (congrArg State.ready ht :)
  obtain ⟨r, he, hflag⟩ := (s.takeSpare .core n).setReady_spec .core n false
  exact ⟨_, (exec_selfTestFail_spare h hs).trans (congrArg _ he), State.sparesFor_takeSpare hs, hready ▸ hflag, (congrArg State.fallow ht :)⟩

/-- A unit that has quit its work and that no spare replaces. -/
theorem exec_unitFallow_no_spare {s u : State} {c : UnitClass} {n : Nat} (h : s.Unit c n) (hc : c ≠ .core) (hu : s.quitUnit c n = u)
    (hs : u.sparesFor c n = 0) : ∃ r f, exec (.unitFallow c n) s = .next { u with ready := r, fallow := f, replaceFlag := true }
      ∧ FlagSet u.ready r c n false ∧ FlagSet u.fallow f c n true := by
  obtain ⟨r, f, he, hflags⟩ := u.setFallow_spec c n
  exact ⟨r, f, by rw [exec_unitFallow h hc, hu, State.replaceUnit_no_spare hs, he], hflags⟩

theorem unitFallow_slice {s : State} {n : Nat} (h : s.Unit .slice n) (hb : s.blocks = []) :
    ∃ t, exec (.unitFallow .slice n) s = .next t ∧ (∀ k x, tget t.lines k = some x → homedIn n (256 * k) = false)
      ∧ tget t.xlat n = none ∧ (s.lines = [] → ∀ a, t.dramByte a = s.dramByte a)
      ∧ (0 < s.sparesFor .slice n → t.sparesFor .slice n + 1 = s.sparesFor .slice n ∧ t.ready = s.ready ∧ t.fallow = s.fallow)
      ∧ (s.sparesFor .slice n = 0 → t.replaceFlag = true ∧ FlagSet s.ready t.ready .slice n false ∧ FlagSet s.fallow t.fallow .slice n true) := by
  have heq := exec_unitFallow h nofun
  generalize hu : s.quitUnit .slice n = u at heq
  obtain ⟨hf, hx, hl, hbytes⟩ := State.emptySlice_spec hb hu
  have hspares : u.sparesFor .slice n = s.sparesFor .slice n := by rw [hf]; rfl
  have hready : u.ready = s.ready := (congrArg State.ready hf :)
  have hfallow : u.fallow = s.fallow := (congrArg State.fallow hf :)
  rw [← hspares, ← hready, ← hfallow]
  by_cases hs : 0 < u.sparesFor .slice n
  · exact ⟨_, heq.trans (congrArg _ (State.replaceUnit_spare hs)), hl, hx, hbytes, fun _ => ⟨State.sparesFor_takeSpare hs, rfl, rfl⟩,
      fun h0 => by omega⟩
  · have h0 := Nat.eq_zero_of_not_pos hs
    obtain ⟨r, f, he, hflags⟩ := exec_unitFallow_no_spare h nofun hu h0
    exact ⟨_, he, hl, hx, hbytes, fun hp => absurd hp hs, fun _ => ⟨rfl, hflags⟩⟩

theorem unitFallow_vault {s : State} {n : Nat} (h : s.Unit .vault n) (hl : ∀ e, e ∈ s.ctxs → e.1 = 0 ∨ e.2.state ≠ .live) :
    ∃ t, exec (.unitFallow .vault n) s = .next t
      ∧ t = { s with cores := t.cores, xlat := [], ready := t.ready, fallow := t.fallow, replaceFlag := true }
      ∧ (∀ c, t.core c = { s.core c with tlb := [] }) ∧ FlagSet s.ready t.ready .vault n false ∧ FlagSet s.fallow t.fallow .vault n true := by
  obtain ⟨r, f, he, hready, hfallow⟩ := exec_unitFallow_no_spare h nofun (State.loseVault_no_context hl n) rfl
  exact ⟨_, he, rfl, State.core_tmapv s rfl, hready, hfallow⟩

theorem unitFallow_lane_narrows {s : State} {n : Nat} (h : s.Unit .lane n) (hl : ∃ i, i < 4 ∧ i ≠ n % 4 ∧ i ∉ (s.port (n / 4)).dead)
    (hup : (s.port (n / 4)).isUp = true) : ∃ t, exec (.unitFallow .lane n) s = .next t
      ∧ t = { s with ready := t.ready, fallow := t.fallow, ports := t.ports, replaceFlag := true }
      ∧ t.port (n / 4) = { s.port (n / 4) with dead := n % 4 :: (s.port (n / 4)).dead, state := .training, trainStart := s.clock }
      ∧ t.unitReady .port (n / 4) = false ∧ FlagSet s.fallow t.fallow .lane n true ∧ ∀ m, m ≠ n / 4 → t.port m = s.port m := by
  have hlt : n / 4 < 1024 := Nat.lt_of_le_of_lt (Nat.div_le_self n 4) h.lt
  obtain ⟨q, hq, hdown⟩ := State.setReady_spec (s.setPort (n / 4) _) .port (n / 4) false
  obtain ⟨r, f, he, hready, hfallow⟩ := exec_unitFallow_no_spare h nofun ((State.loseLane_up hl hup).trans hq) rfl
  exact ⟨_, he, rfl, s.port_setPort_same (n / 4) _, (hready.other (by decide) hlt).trans (hdown.self hlt), hfallow,
    fun m hm => State.port_setPort_other (s := s) hm _⟩

theorem unitFallow_lane_last {s : State} {n : Nat} (h : s.Unit .lane n) (hl : ∀ i, i < 4 → i ≠ n % 4 → i ∈ (s.port (n / 4)).dead) :
    ∃ t, exec (.unitFallow .lane n) s = .next t
      ∧ t = { s with ready := t.ready, fallow := t.fallow, ports := t.ports, replaceFlag := true }
      ∧ (t.port (n / 4)).state = .fallow ∧ t.unitFallow .port (n / 4) = true ∧ t.unitFallow .lane n = true
      ∧ t.unitReady .port (n / 4) = false ∧ ∀ m, m ≠ n / 4 → t.port m = s.port m := by
  have hlt : n / 4 < 1024 := Nat.lt_of_le_of_lt (Nat.div_le_self n 4) h.lt
  obtain ⟨q, g, hq, hdown, hgone⟩ := State.setFallow_spec (s.setPort (n / 4) _) .port (n / 4)
  obtain ⟨r, f, he, hready, hfallow⟩ := exec_unitFallow_no_spare h nofun ((State.loseLane_last hl).trans hq) rfl
  exact ⟨_, he, rfl, congrArg Port.state (s.port_setPort_same (n / 4) _), (hfallow.other (by decide) hlt).trans (hgone.self hlt),
    hfallow.self h.lt, (hready.other (by decide) hlt).trans (hdown.self hlt), fun m hm => State.port_setPort_other (s := s) hm _⟩

/-- No spare takes a port's number: failing its test and being made fallow are one. -/
theorem exec_fallow_port {s : State} {n : Nat} {i : Instr} (h : s.Unit .port n) (hi : i = .selfTestFail .port n ∨ i = .unitFallow .port n) :
    ∃ t, exec i s = .next t ∧ t = { s with ready := t.ready, fallow := t.fallow, ports := t.ports, replaceFlag := true }
      ∧ FlagSet s.ready t.ready .port n false ∧ FlagSet s.fallow t.fallow .port n true ∧ (t.port n).state = .fallow
      ∧ (t.port n).txq = [] ∧ ∀ m, m ≠ n → t.port m = s.port m := by
  obtain ⟨r, f, hu, hready, hfallow⟩ := State.setFallow_spec (s.setPort n { (s.port n).lost with state := .fallow }) .port n
  have he : exec i s = .next ((s.setPort n { (s.port n).lost with state := .fallow }).setFallow .port n) := by
    rcases hi with rfl | rfl
    · exact exec_selfTestFail_no_spare h rfl
    · exact (exec_unitFallow h nofun).trans (congrArg _ (State.replaceUnit_no_spare rfl))
  exact ⟨_, he.trans (congrArg _ hu), rfl, hready, hfallow, congrArg Port.state (s.port_setPort_same n _),
    congrArg Port.txq (s.port_setPort_same n _), fun m hm => State.port_setPort_other (s := s) hm _⟩

/-- Settles O50: the cold start lists nothing but the firmware's context, and each event of a unit is its guard, what quitting does to the
unit's work, and a spare or the fallow flag. -/
theorem bringUp : Obligations.BringUp := by
  unfold Obligations.BringUp
  refine ⟨fun s i hi => ⟨_, exec_bringUp hi, ?_⟩, fun s c n => selfTestPass_sets_ready, fun s c n i => exec_without_unit,
    exec_selfTestPass_port, fun s c n k m h hl hm => State.mem_fallowDue hl (errCount_eq s c n k h ▸ hm),
    fun s c n i => exec_fallow_unreplaced, fun s n => exec_unitFallow_core_first, fun s n h hq =>
    ⟨fun b y => exec_unitFallow_core_busy h hq, unitFallow_core_left h hq, unitFallow_core_replaced h hq⟩,
    fun s n => selfTestFail_core_replaced, fun s n => unitFallow_slice, fun s n => unitFallow_vault,
    fun s v lvl pa cell c e hcell _ => State.poisonLeaf_bytes hcell, ?_, fun s n i => exec_fallow_port⟩
  · exact ⟨s.coldStart.boot_running, rfl, State.unitReady_of_none rfl, rfl, rfl, rfl, rfl, State.dramByte_of_empty rfl rfl, fun _ => rfl,
      fun _ => rfl, rfl, State.boot_routes, rfl, rfl, rfl, rfl, rfl, rfl⟩
  · rintro s n p h rfl
    exact ⟨unitFallow_lane_narrows h, unitFallow_lane_last h⟩

end Sys2Proof.Machine
end
